-- ==== Sys2Proof/Word.lean ====
section
/-!
DEFINITION. The machine's word types (R6: bit 0 is the least significant bit everywhere) and the sparse
map in which the state holds what the device has many of.
-/

namespace Sys2Proof

/-- A 64-bit register, latch, bus or row-file value (R193, R82). -/
abbrev Word := BitVec 64

/-- A byte of memory. -/
abbrev Byte := BitVec 8

/-- A sequencer register name, g0 to g31 (R193). -/
abbrev Reg := BitVec 5

/-- A finite map by number, as plain data: pairs with strictly rising keys, and no pair that holds what an
unlisted key reads as. -/
abbrev Store (α : Type) := List (Nat × α)

end Sys2Proof
end

