-- ==== Sys2Proof/Machine/Bits.lean ====
section
/-!
DEFINITION. Bit fields, little-endian byte lists (R6) and the integer readings of a field.
-/

namespace Sys2Proof

/-- Bits hi:lo of `n` as a number (R5: inclusive, bit 0 least significant). -/
def fieldOf (n hi lo : Nat) : Nat := (n >>> lo) % 2 ^ (hi + 1 - lo)

/-- Bit `i` of `n`. -/
def bitOf (n i : Nat) : Bool := (n >>> i) % 2 == 1

/-- `n` with bits hi:lo replaced by `v`. -/
def withField (n hi lo v : Nat) : Nat :=
  n - ((n >>> lo) % 2 ^ (hi + 1 - lo)) <<< lo + (v % 2 ^ (hi + 1 - lo)) <<< lo

/-- A Bool as a 0/1 number. -/
def bit01 (b : Bool) : Nat := if b then 1 else 0

/-- Bits hi:lo of a 64-bit register as a number. -/
def Word.fld (w : Word) (hi lo : Nat) : Nat := fieldOf w.toNat hi lo

/-- A 64-bit register with bits hi:lo replaced. -/
def Word.put (w : Word) (hi lo v : Nat) : Word := BitVec.ofNat 64 (withField w.toNat hi lo v)

/-- Bit i of a 64-bit register. -/
def Word.bit (w : Word) (i : Nat) : Bool := bitOf w.toNat i

/-- The low `n` bytes of `v`, lowest address first (R6). -/
def toBytes : Nat → Nat → List Byte
  | 0, _ => []
  | n + 1, v => BitVec.ofNat 8 v :: toBytes n (v / 256)

/-- The number whose bytes, lowest address first, are these (R6). -/
def ofBytes : List Byte → Nat
  | [] => 0
  | b :: rest => b.toNat + 256 * ofBytes rest

/-- `v`, a field of `w` bits, read as two's complement. -/
def sextInt (w v : Nat) : Int :=
  let m := v % 2 ^ w
  if m < 2 ^ (w - 1) then (m : Int) else (m : Int) - (2 ^ w : Nat)

/-- An integer modulo 2^w, as a number. -/
def wrapNat (w : Nat) (i : Int) : Nat := (i % ((2 ^ w : Nat) : Int)).toNat

/-- An integer modulo 2^64. -/
def wrap64 (i : Int) : Word := BitVec.ofInt 64 i

/-- Limits an integer to lo..hi. -/
def clampInt (lo hi i : Int) : Int := if i < lo then lo else if hi < i then hi else i

/-- Saturation to a signed w-bit integer (R95). -/
def satInt (w : Nat) (i : Int) : Int := clampInt (-(2 ^ (w - 1) : Nat)) ((2 ^ (w - 1) : Nat) - 1) i

/-- How many bits `n` needs: 0 for 0, else floor(log2 n) + 1; `fuel` bounds it. -/
def bitLenAux : Nat → Nat → Nat
  | 0, _ => 0
  | fuel + 1, n => if n = 0 then 0 else bitLenAux fuel (n / 2) + 1

/-- Number of one bits among the low `w` bits. -/
def popCount : Nat → Nat → Nat
  | 0, _ => 0
  | w + 1, n => n % 2 + popCount w (n / 2)

/-- Leading zero bits of the w-bit `n`: w when n = 0 (R155, R196). -/
def leadingZeros (w n : Nat) : Nat := w - bitLenAux w (n % 2 ^ w)

/-- `x` rotated left by `k` within `w` bits (R154, R196). -/
def rotl (w x k : Nat) : Nat :=
  let x := x % 2 ^ w
  let k := k % w
  (x <<< k) % 2 ^ w + x >>> (w - k)

/-- ceil(a / b) for b > 0. -/
def ceilDiv (a b : Nat) : Nat := (a + b - 1) / b

end Sys2Proof
end

