-- ==== Sys2Proof/Syntax.lean ====
section
/-!
DEFINITION. The instructions: one constructor for each row of spec/opcode_table.json. Three kinds stand in the
table: the sequencer's instructions (R134 to R142), the element operations, each held in one schedule entry (R129),
and the device's own steps and its outside events, which have no encoding and carry what the event names.
-/

namespace Sys2Proof

/-! ### Operand kinds of the sequencer -/

/-- Floating-point formats of the sequencer, fn[6:5] of R137. -/
inductive FpFmt where
  | f64 | f32 | bf16 | f16
  deriving DecidableEq, Repr

/-- The rounding part of a float instruction: DYN and RM of R137. -/
structure FpRound where
  dyn : Bool
  rm : BitVec 3
  deriving DecidableEq, Repr

/-- Scope codes of R138 and R139. -/
inductive Scope where
  | core | clus | dev | sys
  deriving DecidableEq, Repr

/-- Access sizes B, H, W, D (R138, R140). -/
inductive Size where
  | b | h | w | d
  deriving DecidableEq, Repr

/-- Scratch levels `.SP`, `.CM`, `.CP` (R63, R140). -/
inductive Level where
  | sp | cm | cp
  deriving DecidableEq, Repr

/-- Ordering suffix of an atomic, fn[7:6] of R138. -/
structure AmoOrd where
  acq : Bool
  rel : Bool
  deriving DecidableEq, Repr

/-- Result suffixes of DREAD (R140, R121). -/
inductive DrFmt where
  | f64 | f32 | bf16 | f16 | i64
  deriving DecidableEq, Repr

/-- The fields of an engine command's long form (R141), beside its major and fn. -/
structure Long where
  slot : BitVec 6
  mod : BitVec 5
  ch : BitVec 4
  chv : Bool
  ofs : BitVec 16
  ga : Reg
  gb : Reg
  gc : Reg
  gob : Reg
  deriving DecidableEq, Repr

/-! ### The schedule entry -/

/-- The fields of a schedule entry beside OP (R129). -/
structure Entry where
  fmt : BitVec 4
  sa : BitVec 5
  sb : BitVec 5
  sc : BitVec 5
  we : Bool
  wi : BitVec 7
  dr : BitVec 2
  dc : BitVec 2
  pr : BitVec 2
  stg : BitVec 4
  aux : BitVec 4
  deriving DecidableEq, Repr

/-! ### What device events carry -/

/-- Operations of an atomic (R138, R204). -/
inductive AmoOp where
  | add | and | or | xor | min | max | minu | maxu | swap | cas | fadd
  deriving DecidableEq, Repr

/-- Operations of a no-return reduction (R164). -/
inductive RedOp where
  | add | min | max | and | or | xor
  deriving DecidableEq, Repr

/-- Where a store comes from (R126). -/
inductive StoreSrc where
  | sequencer
  | region (stamp copy round : Nat)
  | engine (cmd : Nat)
  | host
  /-- a line of a host write that is not its last -/
  | hostPart
  | peer (pkg ch : Nat)
  /-- an atomic of another package on a replicated page, and the value it answers (R392) -/
  | peerAtom (pkg ch : Nat) (value : Word)
  | undo
  /-- an atomic of this package on a replicated page homed here: the result's register and value, and what its completion does (R392) -/
  | atom (rd : Reg) (value : Word) (psn inval demoted strap : Bool)
  deriving DecidableEq, Repr

/-- A store on its way to its home: issuing core, task and partition, physical address, bytes from the lowest
address on, and the value's poison bit (R78, R125). -/
structure StoreReq where
  src : StoreSrc
  core : Nat
  task : Nat
  part : Nat
  va : Word
  pa : Nat
  data : List Byte
  psn : Bool
  /-- its page is host-coherent: a write of host memory needs its halves (R385, R386) -/
  hc : Bool := false
  deriving DecidableEq, Repr

/-- An atomic on its way to the place where it executes (R204, R280). -/
structure AtomReq where
  core : Nat
  op : AmoOp
  word : Bool
  va : Word
  pa : Nat
  operand : Word
  compare : Word
  psn : Bool
  rd : Reg
  /-- on completion: it is an acquire; the cluster's clean CC lines are invalidated (an acquire of device or system scope), DEMOTED is set, and
  the scope-policy trap is raised (R206) -/
  acq : Bool := false
  inval : Bool := false
  demoted : Bool := false
  strap : Bool := false
  deriving DecidableEq, Repr

/-- A no-return reduction leaving its port at commit (R164). -/
structure RedReq where
  stamp : Nat
  copy : Nat
  op : RedOp
  fmt : BitVec 4
  va : Word
  pa : Nat
  value : Word
  /-- the value is stored poisoned (R78) -/
  psn : Bool
  /-- its page is host-coherent (R385) -/
  hc : Bool := false
  deriving DecidableEq, Repr

/-- One element's change inside a withdraw-and-add message: the old and new bits in the base's format, their poison, and the
element, row and column (R115, R127). -/
structure Change where
  old : Nat
  new : Nat
  oldPsn : Bool
  newPsn : Bool
  elem : Nat × Nat := (0, 0)
  deriving DecidableEq, Repr

/-- A withdraw-and-add message to one slot of a derived region (R115). -/
structure Delta where
  region : Nat
  slot : Nat
  changes : List Change
  deriving DecidableEq, Repr

/-- Which reply arrives: a fabric load's, in its port lane (R52), with the value of one that went through a Lomid
channel; that of an access of a core through a channel, with its value or a refusal (R390); or that of a barrier's home on another
package to a member here, none where the barrier is broken (R34, R210). -/
inductive Reply where
  | fabric (stamp copy id : Nat) (value : Option Word)
  | peer (core : Nat) (value : Option Word)
  | barrier (task memb : Nat) (value : Option Word)
  deriving DecidableEq, Repr

/-- A write to a replicated page as it arrives: the write, and at a replica its number among the writes of its home (R392). -/
structure ReplicaWrite where
  st : StoreReq
  seq : Nat := 0
  deriving DecidableEq, Repr

/-- Whether a posted store was acknowledged, refused, or failed with its channel or link dead (R206). -/
inductive AckKind where
  | done | refused | dead
  deriving DecidableEq, Repr

/-- Whose arrival at a barrier reaches its home (R34): that of a core of this package, or of a member of the gang on another. -/
inductive Arriver where
  | core (c : Nat)
  | far (pkg task memb : Nat)
  deriving DecidableEq, Repr

/-- What a task's signal comes from (R36). -/
inductive SignalKind where
  | trig | retire | abort
  deriving DecidableEq, Repr

/-- What one package of a gang tells the others of a member (R32, R33, R38, R41): a BIND or RESUME armed for a tick, or cancelled; its
pre-emption point reached; its context saved; its retirement or its fault, which aborts the task, with how many collectives it has
issued on each group (R258); a freeze of the gang on a tick, `debug` that of a debug stop (R340, R397); an abort; the task's signal, and whether it is a `TRIG`'s
(R36, R39); a rollback, and whether the gang finds enough cores (R356). -/
inductive GangNews where
  | armed (op tick : Nat) | cancelled | point | saved
  | retired (coll : List ((Nat × Nat) × Nat)) | faulted (coll : List ((Nat × Nat) × Nat))
  | freeze (tick : Nat) (debug : Bool) | aborted | signalled (trig : Bool) | rollback (enough : Bool)
  deriving DecidableEq, Repr

/-- An access arriving at a stream port of this package (R390). -/
structure PeerAccess where
  fpart : Nat
  /-- The storing task, whose records the home's log takes (R355). -/
  task : Nat
  spkg : Nat
  sch : Nat
  va : Nat
  /-- The store's bytes; none for a load. -/
  data : Option (List Byte)
  size : Nat
  /-- The atomic's operation and operand; none for a plain access. -/
  atom : Option (AmoOp × Word × Word)
  /-- A no-return reduction's operation, format and value (R164); none for another access. -/
  red : Option (RedOp × BitVec 4 × Word) := none
  sent : Word
  deriving DecidableEq, Repr

/-- TDISP requests and the IDE key programming of a virtual function (R363). -/
inductive TdispReq where
  | lock | start | stop | ideKeys
  deriving DecidableEq, Repr

/-- SPDM requests the physical function answers (R376, R378). -/
inductive SpdmReq where
  | version
  | capabilities
  | certificate
  | endSession
  | measurement (block : Nat)
  | challenge (nonce : Nat)
  | checkpoint
  | auditEntry (seq : Nat)
  | keyExchange
  deriving DecidableEq, Repr

/-- Reasons of a debug stop (R396, kind 7). -/
inductive StopReason where
  | brk | address | frame | host | logFull
  deriving DecidableEq, Repr

/-- The instructions and steps of the Plachepo. -/
inductive Instr where
  /- Sequencer: integer group (R136, R196) -/
  | add (d a b : Reg) | sub (d a b : Reg) | mul (d a b : Reg) | mulh (d a b : Reg) | mulhu (d a b : Reg)
  | div (d a b : Reg) | divu (d a b : Reg) | rem (d a b : Reg) | remu (d a b : Reg)
  | and (d a b : Reg) | or (d a b : Reg) | xor (d a b : Reg) | andn (d a b : Reg)
  | sll (d a b : Reg) | srl (d a b : Reg) | sra (d a b : Reg) | rot (d a b : Reg)
  | slt (d a b : Reg) | sltu (d a b : Reg)
  | min (d a b : Reg) | max (d a b : Reg) | minu (d a b : Reg) | maxu (d a b : Reg)
  | clz (d a : Reg) | popc (d a : Reg)
  /- Sequencer: float group (R137, R199) -/
  | fadd (f : FpFmt) (r : FpRound) (d a b : Reg) | fsub (f : FpFmt) (r : FpRound) (d a b : Reg)
  | fmul (f : FpFmt) (r : FpRound) (d a b : Reg) | fdiv (f : FpFmt) (r : FpRound) (d a b : Reg)
  | fsqrt (f : FpFmt) (r : FpRound) (d a : Reg) | fma (f : FpFmt) (r : FpRound) (d a b : Reg)
  | fmin (f : FpFmt) (d a b : Reg) | fmax (f : FpFmt) (d a b : Reg)
  | feq (f : FpFmt) (d a b : Reg) | flt (f : FpFmt) (d a b : Reg) | fle (f : FpFmt) (d a b : Reg)
  | fclass (f : FpFmt) (d a : Reg)
  | ftoi (f : FpFmt) (r : FpRound) (d a : Reg) | itof (f : FpFmt) (r : FpRound) (d a : Reg)
  | fcvt (f : FpFmt) (r : FpRound) (d a : Reg) (src : FpFmt)
  | fneg (f : FpFmt) (d a : Reg) | fabs (f : FpFmt) (d a : Reg)
  /- Sequencer: system group (R139) -/
  | exit | trap (code : BitVec 5) | brk | fence (sc : Scope) (d : Reg) | ejoin | tret
  | bar (a : Reg) | barInit (sc : Scope) (a b : Reg) | trig | trigJ | launch (d a : Reg)
  | cfgLoad (rg : BitVec 4) (a : Reg) | cfgFree (rg : BitVec 4) | phase (rg : BitVec 4) (a : Reg)
  | pwait (rg : BitVec 4) | cfgInfo (d a : Reg) (rg : BitVec 4)
  | cfgItoff (rg : BitVec 4) (a b : Reg) | cfgPlim (rg : BitVec 4) (a b : Reg) | cfgRho (rg : BitVec 4) (a b : Reg)
  | ddecl (a : Reg) | dfree (a : Reg) | lineReset (a : Reg)
  /- Sequencer: atomics and ordered accesses (R138, R203, R204) -/
  | amoAdd (o : AmoOrd) (sc : Scope) (word : Bool) (d a b : Reg) | amoAnd (o : AmoOrd) (sc : Scope) (word : Bool) (d a b : Reg)
  | amoOr (o : AmoOrd) (sc : Scope) (word : Bool) (d a b : Reg) | amoXor (o : AmoOrd) (sc : Scope) (word : Bool) (d a b : Reg)
  | amoMin (o : AmoOrd) (sc : Scope) (word : Bool) (d a b : Reg) | amoMax (o : AmoOrd) (sc : Scope) (word : Bool) (d a b : Reg)
  | amoMinu (o : AmoOrd) (sc : Scope) (word : Bool) (d a b : Reg) | amoMaxu (o : AmoOrd) (sc : Scope) (word : Bool) (d a b : Reg)
  | amoSwap (o : AmoOrd) (sc : Scope) (word : Bool) (d a b : Reg) | amoCas (o : AmoOrd) (sc : Scope) (word : Bool) (d a b : Reg)
  | amoFadd (o : AmoOrd) (sc : Scope) (word : Bool) (d a b : Reg)
  | ldAcq (sc : Scope) (z : Size) (d a : Reg) | stRel (sc : Scope) (z : Size) (a b : Reg)
  /- Sequencer: immediates, loads, stores, branches (R135, R140) -/
  | jalr (d a : Reg) (imm : BitVec 16)
  | addi (d a : Reg) (imm : BitVec 16) | andi (d a : Reg) (imm : BitVec 16) | ori (d a : Reg) (imm : BitVec 16)
  | xori (d a : Reg) (imm : BitVec 16) | slti (d a : Reg) (imm : BitVec 16) | sltiu (d a : Reg) (imm : BitVec 16)
  | slli (d a : Reg) (n : BitVec 6) | srli (d a : Reg) (n : BitVec 6) | srai (d a : Reg) (n : BitVec 6)
  | roti (d a : Reg) (n : BitVec 6) | lui (d : Reg) (imm : BitVec 16)
  | ldB (d a : Reg) (imm : BitVec 16) | ldH (d a : Reg) (imm : BitVec 16) | ldW (d a : Reg) (imm : BitVec 16)
  | ldD (d a : Reg) (imm : BitVec 16) | ldBu (d a : Reg) (imm : BitVec 16) | ldHu (d a : Reg) (imm : BitVec 16)
  | ldWu (d a : Reg) (imm : BitVec 16) | scratchLoad (lv : Level) (z : Size) (d a : Reg) (off : BitVec 12)
  | stB (v a : Reg) (imm : BitVec 16) | stH (v a : Reg) (imm : BitVec 16) | stW (v a : Reg) (imm : BitVec 16)
  | stD (v a : Reg) (imm : BitVec 16) | scratchStore (lv : Level) (z : Size) (v a : Reg) (off : BitVec 12)
  | dread (f : DrFmt) (d a : Reg) (off : BitVec 12) | dreadNb (f : DrFmt) (d a : Reg) (off : BitVec 12)
  | srr (d : Reg) (n : BitVec 12) | srw (n : BitVec 12) (a : Reg)
  | beq (a b : Reg) (off : BitVec 16) | bne (a b : Reg) (off : BitVec 16) | blt (a b : Reg) (off : BitVec 16)
  | bge (a b : Reg) (off : BitVec 16) | bltu (a b : Reg) (off : BitVec 16) | bgeu (a b : Reg) (off : BitVec 16)
  | j (off : BitVec 26) | jal (off : BitVec 26)
  /- Sequencer: long forms (R141, R142) -/
  | liw (d : Reg) (imm : BitVec 32) | liwh (d : Reg) (imm : BitVec 32) | addiw (d a : Reg) (imm : BitVec 32)
  | scopy (l : Long) | sstrd (l : Long) | sgath (l : Long) | sscat (l : Long) | sxcopy (l : Long)
  | mstep (l : Long) | momstep (l : Long) | accZero (l : Long) | accLd (l : Long) | accSt (l : Long)
  | tmv (l : Long) | tsel (l : Long) | tred (l : Long)
  | collAr (l : Long) | collRs (l : Long) | collAg (l : Long) | collBc (l : Long) | collA2a (l : Long)
  /- Element operations (R133) -/
  | eNop (e : Entry) | eMov (e : Entry) | eDly (e : Entry) | eSel (e : Entry) | eRetag (e : Entry)
  | eKset (e : Entry) | eKins (e : Entry)
  | eIadd (e : Entry) | eIsub (e : Entry) | eImul (e : Entry) | eImulh (e : Entry) | eImulhu (e : Entry)
  | eImac (e : Entry) | eIneg (e : Entry) | eIabs (e : Entry) | eImin (e : Entry) | eImax (e : Entry)
  | eIminu (e : Entry) | eImaxu (e : Entry) | eIadds (e : Entry) | eIsubs (e : Entry)
  | eAnd (e : Entry) | eOr (e : Entry) | eXor (e : Entry) | eAndn (e : Entry) | eNot (e : Entry)
  | eShl (e : Entry) | eShr (e : Entry) | eSra (e : Entry) | eRot (e : Entry) | eClz (e : Entry) | ePopc (e : Entry)
  | eIcmp (e : Entry) | eIcmpu (e : Entry) | ePand (e : Entry) | ePor (e : Entry) | ePxor (e : Entry)
  | ePnot (e : Entry) | ePtst (e : Entry)
  | eAdd (e : Entry) | eSub (e : Entry) | eMul (e : Entry) | eFma (e : Entry) | eFms (e : Entry) | eFnma (e : Entry)
  | eFnms (e : Entry) | eDiv (e : Entry) | eSqrt (e : Entry) | eMin (e : Entry) | eMax (e : Entry) | eAbs (e : Entry)
  | eNeg (e : Entry) | eCpysgn (e : Entry) | eFrnd (e : Entry) | eFcmp (e : Entry) | eFclass (e : Entry)
  | eCvt (e : Entry) | eQmax (e : Entry) | eQfifo (e : Entry) | eQconv (e : Entry) | eDeq (e : Entry)
  | eGext (e : Entry) | eGins (e : Entry)
  | eExp2 (e : Entry) | eLog2 (e : Entry) | eExp (e : Entry) | eLn (e : Entry) | eRcp (e : Entry) | eRsqrt (e : Entry)
  | eSin (e : Entry) | eCos (e : Entry) | eTanh (e : Entry) | eSigmoid (e : Entry) | eErf (e : Entry)
  | eMadd (e : Entry) | eMsub (e : Entry) | eMmul (e : Entry) | eMscale (e : Entry) | eMrelu (e : Entry)
  | eMexp (e : Entry) | eMsig (e : Entry) | eMtanh (e : Entry) | eMcol (e : Entry) | eMmake (e : Entry)
  | eLds (e : Entry) | eSts (e : Entry) | eLdx (e : Entry) | eStx (e : Entry)
  | eAgen (e : Entry) | eAgen2 (e : Entry) | eAbump (e : Entry) | eAmod (e : Entry)
  | eLsld (e : Entry) | eLsst (e : Entry) | eSpld (e : Entry) | eSpst (e : Entry) | eWpchk (e : Entry) | eAccr (e : Entry)
  | eRadd (e : Entry) | eRmin (e : Entry) | eRmax (e : Entry) | eRand (e : Entry) | eRor (e : Entry) | eRxor (e : Entry)
  /- Fabric steps (R44, R46, R52, R54, R25, R28) -/
  | evRowCounterStep (stamp copy : Nat) | evWaveAdvance (stamp copy : Nat) | evResultLands (stamp copy id : Nat)
  | evLoadReplyArrives (r : Reply) | evStallGraceExpiry (stamp copy : Nat) | evRoundCommit (stamp copy round : Nat)
  | evPhaseRetire (stamp : Nat)
  /- Homes (R125, R115, R117, R120, R118, R119, R280, R164, R277) -/
  | evStoreAtHome (st : StoreReq) | evSumDeltaMessage (m : Delta) | evMaxDeltaMessage (m : Delta)
  | evBscaleDeltaMessage (m : Delta) | evRescanComplete (region slot : Nat) | evRebuildComplete (region slot : Nat)
  | evStoreAcknowledged (st : StoreReq) (k : AckKind) | evAtomicAtHome (a : AtomReq) | evReductionAtHome (r : RedReq)
  | evCcEvictionPush (cluster line : Nat)
  /- Barriers, completion, launch (R210, R36, R37, R329 to R332) -/
  | evBarrierArrivalMessage (who : Arriver) (handle : Word) | evCompletionSignal (task : Nat) (k : SignalKind)
  | evDependencesComplete (task : Nat) | evSubreg (rec : BitVec 512) | evLaunchAcceptance
  | evTaskabort (v : Word) | evTabort (v : Word) | evAldata (v : Word)
  /- Slot table and scheduling (R336 to R343, R373) -/
  | evArmBind (n : Nat) (v : Word) | evArmResume (n : Nat) (v : Word) | evArmPreempt (n : Nat) (v : Word)
  | evArmFreeze (n : Nat) (v : Word) | evCancelBindRecord (n : Nat)
  | evBindExecute (n : Nat) | evResumeExecute (n : Nat) | evPreemptExecute (n : Nat)
  | evGangSaveAtPoints (task : Nat) | evPreemptTimeout (task : Nat) | evForcedFreeze (task : Nat)
  | evFastContextCaptured (core : Nat) | evSpillComplete (core : Nat) | evMemberRetire (core : Nat)
  | evCoreScrubComplete (core : Nat) | evAsyncTrapDelivery (core : Nat)
  | evEbudWindowExpiry (part : Nat) | evEbud (v : Word)
  /- Engines (R233 to R261) -/
  | evHeldCommandAccepted (core : Nat) | evEngineCommandStart (core cmd rep : Nat) | evCopyGranuleLands (core cmd : Nat)
  | evCopyRetire (core cmd : Nat) | evMstepZeroing (core cmd : Nat) | evTileStepSliceRetire (core cmd rep slice : Nat)
  | evTileStepRetire (core cmd : Nat) | evAccCellsWritten (core cmd : Nat) | evAccCommandRetire (core cmd : Nat)
  | evTahrResultLands (core cmd : Nat) | evTahrRetire (core cmd : Nat)
  | evCollectiveLanding (core cmd rank : Nat) | evCollectivePartRetire (core cmd : Nat)
  /- Saiga, events, faults and recovery (R317 to R326, R349 to R357) -/
  | evEventTaken | evEvhead (v : Word) | evEvcfg (v : Word) | evLockstepFailure (faulty : Option Nat)
  | evFailoverComplete | evCorectl (core : Nat) (v : Word) | evRegisterWrite (unit n : Nat) (v : Word)
  | evPrrespRetry (idx : Nat) | evPrrespRefuse (idx : Nat) | evPrqhead (v : Word) | evTlbinv (v : Word) | evTlbinvDone
  | evWlreq (v : Word) | evUncorrectableError (core : Nat) | evLineLost (pa : Nat)
  /- Partitions (R361 to R378) -/
  | evPrect (v : Word) | evCremap (v : Word) | evPpol (v : Word) | evPway (v : Word) | evCpwin (v : Word)
  | evPat (v : Word) | evPatZeroingComplete (frame : Nat) | evBlkcls (v : Word) | evBlockLayoutComplete (block : Nat)
  | evSealstRekey (v : Word) | evRekeyComplete (part : Nat) | evGroupReencryptComplete (part group : Nat)
  | evMrgo (v : Word) | evAudw4 (v : Word) | evAuditCheckpoint | evAuditFree (seq : Nat) | evSpdmRequest (q : SpdmReq)
  | evTdispRequest (vf : Nat) (q : TdispReq)
  /- Lomid, replicas and host (R383 to R392) -/
  | evLchanOpen (v : Word) | evLchanRetire (v : Word) | evChannelDrainEnd (ch : Nat)
  | evDrainedReport (pkg ch part : Nat) | evOpenMessage (pkg ch part : Nat) | evPwin (v : Word)
  | evPeerAccessArrival (a : PeerAccess) | evPeerReplyTimeout (core : Nat) | evLomidLaneFailure (port lane : Nat)
  | evReplicaWriteAtHome (w : ReplicaWrite) | evReplicaConfirm (seq pkg : Nat)
  | evHostSnoop (half : Nat) (inv : Bool) | evHostWrite (vf : Nat) (addr : Word) (data : List Byte)
  | evHostRead (vf : Nat) (addr : Word) (size : Nat) | evCxlGrant (half : Nat) (own : Bool)
  /- Debug (R394 to R401) -/
  | evDebugStop (core : Nat) (r : StopReason) | evDumpctl (core : Nat) (v : Word) | evDumpComplete (core : Nat)
  | evDebugCheckpoint (part : Nat) | evRlfree (v : Word)
  /- Bring-up and power (R402 to R408) -/
  | evPowerUp | evDeviceReady (code : BitVec 8) | evPwrgdDeassert | evPerst | evPfFlr | evVfFlr (vf : Nat)
  | evIslandGate (v : Word) | evIslandFrequency (v : Word) | evIslandChangeComplete (island : Nat)
  | evPkgGate (v : Word) | evPkgGateExitComplete | evPowerLimitThrottle (meas : BitVec 16)
  | evThermalThrottle (island : Nat) | evThermalTrip (island : Nat)
  /- Rows added at the table's end -/
  | evIllegalInstruction (w : BitVec 32) | evHostLinkDead | evThermalThrottleEnd (island : Nat)
  | evPowerLimitThrottleEnd (meas : BitVec 16) | evSubstat (v : Word) | evReplay (core task memb checkpoint : Nat)
  deriving DecidableEq, Repr

end Sys2Proof
end

