-- ==== Sys2Proof/Machine/EntryForm.lean ====
section
/-!
DEFINITION. What a legal schedule entry looks like, operation by operation (R131, R132 and the entries of the element
operations): the formats, the source fields read, the role of AUX and whether it produces a result. The loader's check 6
and the well-formedness of an element instruction both read this table.
-/

namespace Sys2Proof

/-- The roles of AUX (R131). `nop` is that of `NOP`, whose entry has every field zero (R132 item 2); the last nine are the
operation-specific ones. -/
inductive AuxRole where
  | nop | imm | make | delay | stream | rounding (sat : Bool) | cond (limit : Nat) | covariance | collapse | channel | zero
  | retag | kset | kins | fclass | qmax | qfifo | qconv | lane | level | accr
  deriving DecidableEq, Repr

/-- The form of one element operation. -/
structure EntryForm where
  /-- Format codes the operation lists (R82 numbers them). -/
  fmts : List Nat
  a : Bool
  b : Bool
  c : Bool
  role : AuxRole
  /-- Whether it lands a result (R132 item 8). -/
  result : Bool
  deriving DecidableEq, Repr

/-- Formats 0 to 14. -/
def fmtsAll : List Nat := [0, 1, 2, 3, 4, 5, 6, 7, 8, 9, 10, 11, 12, 13, 14]
/-- I32 and I64. -/
def fmtsInt : List Nat := [1, 2]
/-- F64, F32, BF16, F16. -/
def fmtsFloat : List Nat := [3, 4, 5, 6]
/-- F64, F32, BF16, F16, E4M3, E5M2. -/
def fmtsFloat8 : List Nat := [3, 4, 5, 6, 7, 8]
/-- The formats a value of the quantizer may have (R180). -/
def fmtsQuant : List Nat := [4, 5, 6, 7, 8]
/-- M32 and M16. -/
def fmtsMoment : List Nat := [11, 12]

/-- The form of the operation of an element instruction, and its entry; none for the others. -/
def entryForm : Instr → Option (EntryForm × Entry)
  | .eNop e => some (⟨[0], false, false, false, .nop, false⟩, e)
  | .eMov e => some (⟨fmtsAll, true, false, false, .imm, true⟩, e)
  | .eDly e => some (⟨fmtsAll, true, false, false, .delay, true⟩, e)
  | .eSel e => some (⟨fmtsAll, true, true, true, .imm, true⟩, e)
  | .eRetag e => some (⟨fmtsAll, true, false, false, .retag, true⟩, e)
  | .eKset e => some (⟨[0, 1, 2, 3, 4, 5, 6, 7, 8, 13, 14], false, false, false, .kset, true⟩, e)
  | .eKins e => some (⟨[0, 1, 2, 3, 4, 14], false, false, false, .kins, true⟩, e)
  | .eIadd e => some (⟨[1, 2, 14], true, true, false, .imm, true⟩, e)
  | .eIsub e => some (⟨[1, 2, 14], true, true, false, .imm, true⟩, e)
  | .eImul e => some (⟨fmtsInt, true, true, false, .imm, true⟩, e)
  | .eImulh e => some (⟨fmtsInt, true, true, false, .imm, true⟩, e)
  | .eImulhu e => some (⟨fmtsInt, true, true, false, .imm, true⟩, e)
  | .eImac e => some (⟨fmtsInt, true, true, true, .imm, true⟩, e)
  | .eIneg e => some (⟨fmtsInt, true, false, false, .imm, true⟩, e)
  | .eIabs e => some (⟨fmtsInt, true, false, false, .imm, true⟩, e)
  | .eImin e => some (⟨fmtsInt, true, true, false, .imm, true⟩, e)
  | .eImax e => some (⟨fmtsInt, true, true, false, .imm, true⟩, e)
  | .eIminu e => some (⟨fmtsInt, true, true, false, .imm, true⟩, e)
  | .eImaxu e => some (⟨fmtsInt, true, true, false, .imm, true⟩, e)
  | .eIadds e => some (⟨fmtsInt, true, true, false, .imm, true⟩, e)
  | .eIsubs e => some (⟨fmtsInt, true, true, false, .imm, true⟩, e)
  | .eAnd e => some (⟨[0, 1, 2], true, true, false, .imm, true⟩, e)
  | .eOr e => some (⟨[0, 1, 2], true, true, false, .imm, true⟩, e)
  | .eXor e => some (⟨[0, 1, 2], true, true, false, .imm, true⟩, e)
  | .eAndn e => some (⟨[0, 1, 2], true, true, false, .imm, true⟩, e)
  | .eNot e => some (⟨[0, 1, 2], true, false, false, .imm, true⟩, e)
  | .eShl e => some (⟨fmtsInt, true, true, false, .imm, true⟩, e)
  | .eShr e => some (⟨fmtsInt, true, true, false, .imm, true⟩, e)
  | .eSra e => some (⟨fmtsInt, true, true, false, .imm, true⟩, e)
  | .eRot e => some (⟨fmtsInt, true, true, false, .imm, true⟩, e)
  | .eClz e => some (⟨fmtsInt, true, false, false, .imm, true⟩, e)
  | .ePopc e => some (⟨fmtsInt, true, false, false, .imm, true⟩, e)
  | .eIcmp e => some (⟨fmtsInt, true, true, false, .cond 5, true⟩, e)
  | .eIcmpu e => some (⟨[1, 2, 14], true, true, false, .cond 5, true⟩, e)
  | .ePand e => some (⟨[13], true, true, false, .zero, true⟩, e)
  | .ePor e => some (⟨[13], true, true, false, .zero, true⟩, e)
  | .ePxor e => some (⟨[13], true, true, false, .zero, true⟩, e)
  | .ePnot e => some (⟨[13], true, false, false, .zero, true⟩, e)
  | .ePtst e => some (⟨[0, 1, 2], true, true, false, .imm, true⟩, e)
  | .eAdd e => some (⟨fmtsFloat, true, true, false, .imm, true⟩, e)
  | .eSub e => some (⟨fmtsFloat, true, true, false, .imm, true⟩, e)
  | .eMul e => some (⟨fmtsFloat, true, true, false, .imm, true⟩, e)
  | .eFma e => some (⟨fmtsFloat, true, true, true, .imm, true⟩, e)
  | .eFms e => some (⟨fmtsFloat, true, true, true, .imm, true⟩, e)
  | .eFnma e => some (⟨fmtsFloat, true, true, true, .imm, true⟩, e)
  | .eFnms e => some (⟨fmtsFloat, true, true, true, .imm, true⟩, e)
  | .eDiv e => some (⟨fmtsFloat, true, true, false, .imm, true⟩, e)
  | .eSqrt e => some (⟨fmtsFloat, true, false, false, .imm, true⟩, e)
  | .eMin e => some (⟨fmtsFloat, true, true, false, .imm, true⟩, e)
  | .eMax e => some (⟨fmtsFloat, true, true, false, .imm, true⟩, e)
  | .eAbs e => some (⟨fmtsFloat, true, false, false, .imm, true⟩, e)
  | .eNeg e => some (⟨fmtsFloat, true, false, false, .imm, true⟩, e)
  | .eCpysgn e => some (⟨fmtsFloat, true, true, false, .imm, true⟩, e)
  | .eFrnd e => some (⟨fmtsFloat, true, false, false, .rounding false, true⟩, e)
  | .eFcmp e => some (⟨fmtsFloat8, true, true, false, .cond 7, true⟩, e)
  | .eFclass e => some (⟨fmtsFloat8, true, false, false, .fclass, true⟩, e)
  | .eCvt e => some (⟨[1, 2, 3, 4, 5, 6, 7, 8], true, false, false, .rounding true, true⟩, e)
  | .eQmax e => some (⟨fmtsQuant, true, true, false, .qmax, true⟩, e)
  | .eQfifo e => some (⟨fmtsQuant, true, true, false, .qfifo, true⟩, e)
  | .eQconv e => some (⟨fmtsQuant, true, true, false, .qconv, true⟩, e)
  | .eDeq e => some (⟨[4, 5, 6], true, true, false, .qconv, true⟩, e)
  | .eGext e => some (⟨[9, 10], true, true, false, .zero, true⟩, e)
  | .eGins e => some (⟨[9, 10], true, true, true, .zero, true⟩, e)
  | .eExp2 e => some (⟨[4, 5, 6], true, false, false, .imm, true⟩, e)
  | .eLog2 e => some (⟨[4, 5, 6], true, false, false, .imm, true⟩, e)
  | .eExp e => some (⟨[4, 5, 6], true, false, false, .imm, true⟩, e)
  | .eLn e => some (⟨[4, 5, 6], true, false, false, .imm, true⟩, e)
  | .eRcp e => some (⟨[4, 5, 6], true, false, false, .imm, true⟩, e)
  | .eRsqrt e => some (⟨[4, 5, 6], true, false, false, .imm, true⟩, e)
  | .eSin e => some (⟨[4, 5, 6], true, false, false, .imm, true⟩, e)
  | .eCos e => some (⟨[4, 5, 6], true, false, false, .imm, true⟩, e)
  | .eTanh e => some (⟨[4, 5, 6], true, false, false, .imm, true⟩, e)
  | .eSigmoid e => some (⟨[4, 5, 6], true, false, false, .imm, true⟩, e)
  | .eErf e => some (⟨[4, 5, 6], true, false, false, .imm, true⟩, e)
  | .eMadd e => some (⟨fmtsMoment, true, true, false, .covariance, true⟩, e)
  | .eMsub e => some (⟨fmtsMoment, true, true, false, .covariance, true⟩, e)
  | .eMmul e => some (⟨fmtsMoment, true, true, false, .covariance, true⟩, e)
  | .eMscale e => some (⟨fmtsMoment, true, true, true, .zero, true⟩, e)
  | .eMrelu e => some (⟨fmtsMoment, true, false, false, .zero, true⟩, e)
  | .eMexp e => some (⟨fmtsMoment, true, false, false, .zero, true⟩, e)
  | .eMsig e => some (⟨fmtsMoment, true, false, false, .zero, true⟩, e)
  | .eMtanh e => some (⟨fmtsMoment, true, false, false, .zero, true⟩, e)
  | .eMcol e => some (⟨fmtsMoment, true, e.aux == 3 || e.aux == 4, false, .collapse, true⟩, e)
  | .eMmake e => some (⟨fmtsMoment, true, true, false, .make, true⟩, e)
  | .eLds e => some (⟨fmtsAll, true, false, false, .stream, true⟩, e)
  | .eSts e => some (⟨fmtsAll, true, true, false, .stream, false⟩, e)
  | .eLdx e => some (⟨fmtsAll, true, false, false, .stream, true⟩, e)
  | .eStx e => some (⟨fmtsAll, true, true, false, .stream, false⟩, e)
  | .eAgen e => some (⟨[14], false, false, false, .stream, true⟩, e)
  | .eAgen2 e => some (⟨[14], true, true, false, .stream, true⟩, e)
  | .eAbump e => some (⟨[14], true, false, false, .stream, true⟩, e)
  | .eAmod e => some (⟨[14], true, false, false, .stream, true⟩, e)
  | .eLsld e => some (⟨fmtsAll, true, false, false, .lane, true⟩, e)
  | .eLsst e => some (⟨fmtsAll, true, true, false, .lane, false⟩, e)
  | .eSpld e => some (⟨fmtsAll, true, false, false, .level, true⟩, e)
  | .eSpst e => some (⟨fmtsAll, true, true, false, .level, false⟩, e)
  | .eWpchk e => some (⟨[13], true, true, false, .channel, true⟩, e)
  | .eAccr e => some (⟨[1, 3, 4, 11], true, true, false, .accr, true⟩, e)
  | .eRadd e => some (⟨[1, 2, 3, 4], true, true, false, .stream, false⟩, e)
  | .eRmin e => some (⟨[1, 2, 3, 4], true, true, false, .stream, false⟩, e)
  | .eRmax e => some (⟨[1, 2, 3, 4], true, true, false, .stream, false⟩, e)
  | .eRand e => some (⟨[0, 1, 2], true, true, false, .stream, false⟩, e)
  | .eRor e => some (⟨[0, 1, 2], true, true, false, .stream, false⟩, e)
  | .eRxor e => some (⟨[0, 1, 2], true, true, false, .stream, false⟩, e)
  | _ => none

/-- The 23-bit constant field K, entry bits 36:14 (R132 item 10). -/
def Entry.k (e : Entry) : Nat :=
  e.sa.toNat * 2 ^ 18 + e.sb.toNat * 2 ^ 13 + e.sc.toNat * 2 ^ 8 + bit01 e.we * 2 ^ 7 + e.wi.toNat

/-- An entry whose bits 36:14 are a constant: it reads no source and writes no row-file entry. -/
def Entry.constant (e : Entry) : Entry := { e with sa := 16, sb := 16, sc := 16, we := false, wi := 0 }

/-- The bits of K that KSET requires to be zero are zero (R150). -/
def ksetOk (fmt k : Nat) : Bool :=
  if fmt == 5 || fmt == 6 then k < 2 ^ 16
  else if fmt == 7 || fmt == 8 then k < 2 ^ 8
  else if fmt == 13 then k < 2
  else true

/-- K of KINS: bits 22:18 zero, and a halfword the format has (R151). -/
def kinsOk (fmt k : Nat) : Bool :=
  decide (k < 2 ^ 18) && (if fmt == 1 || fmt == 4 then decide (k < 2 ^ 17) else true)

/-- Whether AUX satisfies its role (R131). `imm` says that some operand names source 13, `lane` source 14. -/
def auxOk (role : AuxRole) (e : Entry) (imm lane : Bool) : Bool :=
  let n := e.aux.toNat
  let f := e.fmt.toNat
  match role with
  | .nop => n == 0
  | .imm =>
    if lane then decide (n < 4) && !imm
    else if imm then !(f == 9 || f == 10 || f == 11 || f == 12) && (f != 13 || decide (n < 2))
    else n == 0
  | .make => n == 0 && !imm
  | .delay => true
  | .stream => true
  | .rounding sat =>
    decide (n % 8 < 6) && (if sat && (f == 7 || f == 8) then true else decide (n < 8))
  | .cond limit => decide (n ≤ limit)
  | .covariance => decide (n < 3)
  | .collapse => decide (n < 6)
  | .channel => true
  | .zero => n == 0
  | .retag => decide (n < 2)
  | .kset => n == 0 && ksetOk f e.k
  | .kins => n == 0 && kinsOk f e.k
  | .fclass => decide (n < 10) || n == 15
  | .qmax => decide (n < 8) && n % 4 != 3
  | .qfifo => n % 4 != 3
  | .qconv => n == 0 || n == 4
  | .lane => true
  | .level => decide (n < 4) && n != 0
  | .accr => decide (n < 2)

/-- A source field the operation reads holds a code of R130 that it may hold; one it does not read holds 16. -/
def srcOk (reads : Bool) (role : AuxRole) (fmt : Nat) (s : BitVec 5) : Bool :=
  let n := s.toNat
  if !reads then n == 16
  else decide (n < 20) && (n != 13 || role == .imm) && (n != 14 || role == .imm || role == .make) && n != 15
    && (n != 17 || !(fmt == 9 || fmt == 10))

/-- The conditions of R132 on one entry, for the operation it holds. -/
def entryLegal (form : EntryForm) (e : Entry) : Bool :=
  let f := e.fmt.toNat
  let reads (r : Bool) (s : BitVec 5) (n : Nat) : Bool := r && s.toNat == n
  let imm := reads form.a e.sa 13 || reads form.b e.sb 13 || reads form.c e.sc 13
  let lane := reads form.a e.sa 14 || reads form.b e.sb 14 || reads form.c e.sc 14
  let constant := form.role == .kset || form.role == .kins
  if form.role == .nop then e == ⟨0, 0, 0, 0, false, 0, 0, 0, 0, 0, 0⟩ else
  form.fmts.contains f
    && auxOk form.role e imm lane
    && (form.result || (!e.we && e.dr == 0 && e.dc == 0))
    && (if constant then true
        else if form.role == .accr then
          e.sa.toNat == 15 && srcOk true .lane f e.sb && e.sc.toNat == 16 && !e.we && decide (e.wi.toNat < 64)
        else
          srcOk form.a form.role f e.sa && srcOk form.b form.role f e.sb && srcOk form.c form.role f e.sc
            && (if lane then !e.we else e.we || e.wi == 0))

end Sys2Proof
end

