-- ==== Sys2Proof/Machine/LongForm.lean ====
section
/-!
DEFINITION. Which MOD, SLOT, CH and register fields each engine command accepts (R142 and the commands' entries, R236
to R259). A field value that is not accepted is a reserved field, and the long form is illegal (R143).
-/

namespace Sys2Proof

/-- MOD[4:2], the format code. -/
def Long.fmt (l : Long) : Nat := l.mod.toNat / 4
/-- MOD[1:0]: the level of an accumulator or Tahr command, the landing of a collective. -/
def Long.low (l : Long) : Nat := l.mod.toNat % 4
/-- MOD[0], the X bit of a tile-step. -/
def Long.x (l : Long) : Bool := l.mod.toNat % 2 == 1
/-- MOD[1], the `.Z` bit of a tile-step. -/
def Long.z (l : Long) : Bool := l.mod.toNat / 2 % 2 == 1
/-- MOD[4:3], the destination space of a copy. -/
def Long.dstSpace (l : Long) : Nat := l.mod.toNat / 8
/-- MOD[2:1], the source space of a copy. -/
def Long.srcSpace (l : Long) : Nat := l.mod.toNat / 2 % 4

/-- With CHV 0, CH is zero (R141). -/
def Long.chOk (l : Long) : Bool := l.chv || l.ch == 0

/-- An even slot, which names the pair of an F64 or M32 tile (R108, R243). -/
def Long.evenSlot (l : Long) : Bool := l.slot.toNat % 2 == 0

/-- A Serow copy between the spaces it accepts (R236, R237). -/
def Long.copyOk (l : Long) : Bool := l.chv && l.slot == 0 && !l.x

/-- `MSTEP` (R243): X only for the integer formats; an F64 tile in an even slot. -/
def Long.mstepOk (l : Long) : Bool :=
  l.chOk && (decide (6 ≤ l.fmt) || !l.x) && (l.fmt != 0 || l.evenSlot)

/-- `MOMSTEP` (R246): operand format 1, an even slot. -/
def Long.momstepOk (l : Long) : Bool := l.chOk && l.fmt == 1 && l.evenSlot

/-- An accumulator format, and an even slot where the tile takes a pair (R248). -/
def Long.accFmtOk (l : Long) : Bool := decide (l.fmt < 6) && ((l.fmt != 0 && l.fmt != 5) || l.evenSlot)

/-- `ACC.ZERO` (R248): F64, F32, I32 or M32; level 00; no channel; ga, gb and gc zero. -/
def Long.accZeroOk (l : Long) : Bool :=
  l.accFmtOk && l.fmt != 2 && l.fmt != 3 && l.low == 0 && !l.chv && l.ch == 0 && l.ga == 0 && l.gb == 0 && l.gc == 0

/-- `ACC.LD` and `ACC.ST` (R248): level 01 or 10; gb zero. -/
def Long.accMemOk (l : Long) : Bool := l.accFmtOk && l.chOk && (l.low == 1 || l.low == 2) && l.gb == 0

/-- A Tahr command with a format from lo to hi (R251 to R255): a destination level; no slot. -/
def Long.tahrOk (lo hi : Nat) (l : Long) : Bool :=
  l.chOk && l.slot == 0 && l.low != 0 && decide (lo ≤ l.fmt) && decide (l.fmt ≤ hi)

/-- A collective (R257, R259): formats 0 to 5; `.OVR` only where the operation takes it; no slot. -/
def Long.collOk (ovr : Bool) (l : Long) : Bool :=
  l.chOk && l.slot == 0 && decide (l.fmt < 6) && (ovr || l.low != 0)

/-- Whether the long form of an engine command is accepted; true of every other instruction. -/
def longOk : Instr → Bool
  | .scopy l => l.copyOk
  | .sstrd l => l.copyOk
  | .sgath l => l.copyOk
  | .sscat l => l.copyOk && l.dstSpace == 0
  | .sxcopy l => l.copyOk && l.mod == 0
  | .mstep l => l.mstepOk
  | .momstep l => l.momstepOk
  | .accZero l => l.accZeroOk
  | .accLd l => l.accMemOk
  | .accSt l => l.accMemOk
  | .tmv l => l.tahrOk 2 7
  | .tsel l => l.tahrOk 1 6
  | .tred l => l.tahrOk 0 6
  | .collAr l => l.collOk false
  | .collRs l => l.collOk false
  | .collAg l => l.collOk true
  | .collBc l => l.collOk true
  | .collA2a l => l.collOk true
  | _ => true

/-- DYN and RM of an instruction that rounds (R137): a mode of R86, and zero under DYN. -/
def FpRound.ok (r : FpRound) : Bool := if r.dyn then r.rm == 0 else decide (r.rm.toNat < 6)

/-- The system-register numbers a word may hold (R140, R224): the listed member registers, and every number from 0x400
on, which names a privileged register (R223). -/
def sysRegOk (n : BitVec 12) : Bool :=
  let n := n.toNat
  decide (n ≤ 6) || (decide (0x10 ≤ n) && decide (n ≤ 0x27)) || (decide (0x30 ≤ n) && decide (n ≤ 0x33))
    || decide (0x400 ≤ n)

end Sys2Proof
end

