-- ==== Sys2Proof/WellFormed.lean ====
section
/-!
DEFINITION. Which instructions have an encoding that the Plachepo executes: the operand limits that the types of
Sys2Proof/Syntax.lean do not already say. A device step or an outside event has no encoding and no limit here.
-/

namespace Sys2Proof

/-- Well-formedness: a reserved code or field (R132, R137 to R142, R224) stands in no well-formed instruction. -/
def Instr.wf : Instr → Bool
  | .fadd _ r _ _ _ => r.ok
  | .fsub _ r _ _ _ => r.ok
  | .fmul _ r _ _ _ => r.ok
  | .fdiv _ r _ _ _ => r.ok
  | .fsqrt _ r _ _ => r.ok
  | .fma _ r _ _ _ => r.ok
  | .ftoi _ r _ _ => r.ok
  | .itof _ r _ _ => r.ok
  | .fcvt _ r _ _ _ => r.ok
  | .srr _ n => sysRegOk n
  | .srw n _ => sysRegOk n
  | i =>
    longOk i && (match entryForm i with
      | some (form, e) => entryLegal form e
      | none => true)

end Sys2Proof
end

