-- ==== Sys2Proof/Decode.lean ====
section
/-!
DEFINITION. The decoder of the sequencer's words (R134 to R143) and of schedule entries (R129 to R133), total on any
bytes and rejecting by name; after it the encoder, written from the same tables.
-/

namespace Sys2Proof

/-- Why a word or an entry is not an instruction (R132, R143). -/
inductive DecodeError where
  /-- fewer bytes than the form takes -/
  | tooShort
  /-- an unassigned major opcode -/
  | unassignedMajor
  /-- an unassigned fn value of a function map -/
  | unassignedFn
  /-- a non-zero field that the instruction does not use, or a reserved bit -/
  | unusedField
  /-- a region handle of 16 to 31 -/
  | regionHandle
  /-- a reserved code in RM or another coded field -/
  | reservedCode
  /-- MOD, SLOT, CH or a register field that the engine command does not accept -/
  | longField
  /-- an unassigned OP of a schedule entry -/
  | unassignedOp
  /-- a schedule entry that fails a condition of R132 -/
  | illegalEntry
  deriving DecidableEq, Repr

/-- `i`, unless the condition fails. -/
def need (c : Bool) (e : DecodeError) (i : Instr) : Except DecodeError Instr := if c then .ok i else .error e

/-! ### Coded fields -/

/-- fn[6:5] of the float group (R137). -/
def fpFmtOf (n : Nat) : FpFmt :=
  match n % 4 with
  | 0 => .f64
  | 1 => .f32
  | 2 => .bf16
  | _ => .f16

/-- Its code. -/
def FpFmt.code : FpFmt → Nat
  | .f64 => 0
  | .f32 => 1
  | .bf16 => 2
  | .f16 => 3

/-- A scope code (R138). -/
def scopeOf (n : Nat) : Scope :=
  match n % 4 with
  | 0 => .core
  | 1 => .clus
  | 2 => .dev
  | _ => .sys

/-- Its code. -/
def Scope.code : Scope → Nat
  | .core => 0
  | .clus => 1
  | .dev => 2
  | .sys => 3

/-- A size code (R138, R140). -/
def sizeOf2 (n : Nat) : Size :=
  match n % 4 with
  | 0 => .b
  | 1 => .h
  | 2 => .w
  | _ => .d

/-- Its code. -/
def Size.code : Size → Nat
  | .b => 0
  | .h => 1
  | .w => 2
  | .d => 3

/-- A scratch level of R140; 00 is reserved. -/
def levelOf (n : Nat) : Option Level :=
  match n % 4 with
  | 1 => some .sp
  | 2 => some .cm
  | 3 => some .cp
  | _ => none

/-- Its code. -/
def Level.code : Level → Nat
  | .sp => 1
  | .cm => 2
  | .cp => 3

/-- A result suffix of DREAD (R140); 5 to 7 are reserved. -/
def drFmtOf (n : Nat) : Option DrFmt :=
  match n % 8 with
  | 0 => some .f64
  | 1 => some .f32
  | 2 => some .bf16
  | 3 => some .f16
  | 4 => some .i64
  | _ => none

/-- Its code. -/
def DrFmt.code : DrFmt → Nat
  | .f64 => 0
  | .f32 => 1
  | .bf16 => 2
  | .f16 => 3
  | .i64 => 4

/-! ### The sequencer's words -/

/-- The integer group (R136). -/
def decodeInteger (d a b : Reg) (fn : Nat) : Except DecodeError Instr :=
  match fn with
  | 0 => .ok (.add d a b)
  | 1 => .ok (.sub d a b)
  | 2 => .ok (.mul d a b)
  | 3 => .ok (.mulh d a b)
  | 4 => .ok (.mulhu d a b)
  | 5 => .ok (.div d a b)
  | 6 => .ok (.divu d a b)
  | 7 => .ok (.rem d a b)
  | 8 => .ok (.remu d a b)
  | 9 => .ok (.and d a b)
  | 10 => .ok (.or d a b)
  | 11 => .ok (.xor d a b)
  | 12 => .ok (.andn d a b)
  | 13 => .ok (.sll d a b)
  | 14 => .ok (.srl d a b)
  | 15 => .ok (.sra d a b)
  | 16 => .ok (.rot d a b)
  | 17 => .ok (.slt d a b)
  | 18 => .ok (.sltu d a b)
  | 19 => .ok (.min d a b)
  | 20 => .ok (.max d a b)
  | 21 => .ok (.minu d a b)
  | 22 => .ok (.maxu d a b)
  | 23 => need (b == 0) .unusedField (.clz d a)
  | 24 => need (b == 0) .unusedField (.popc d a)
  | _ => .error .unassignedFn

/-- An instruction that rounds: the mode field must be legal (R137). -/
def needRound (r : FpRound) (i : Instr) : Except DecodeError Instr := need r.ok .reservedCode i

/-- An instruction that does not round: DYN and RM are zero (R137). -/
def needNoRound (r : FpRound) (i : Instr) : Except DecodeError Instr := need (r == ⟨false, 0⟩) .unusedField i

/-- The float group (R137): `op` is fn[4:0], `f` fn[6:5], `r` fn[10:7]. -/
def decodeFloat (d a b : Reg) (op : Nat) (f : FpFmt) (r : FpRound) : Except DecodeError Instr :=
  match op with
  | 0 => needRound r (.fadd f r d a b)
  | 1 => needRound r (.fsub f r d a b)
  | 2 => needRound r (.fmul f r d a b)
  | 3 => needRound r (.fdiv f r d a b)
  | 4 => if b == 0 then needRound r (.fsqrt f r d a) else .error .unusedField
  | 5 => needRound r (.fma f r d a b)
  | 6 => needNoRound r (.fmin f d a b)
  | 7 => needNoRound r (.fmax f d a b)
  | 8 => needNoRound r (.feq f d a b)
  | 9 => needNoRound r (.flt f d a b)
  | 10 => needNoRound r (.fle f d a b)
  | 11 => if b == 0 then needNoRound r (.fclass f d a) else .error .unusedField
  | 12 => if b == 0 then needRound r (.ftoi f r d a) else .error .unusedField
  | 13 => if b == 0 then needRound r (.itof f r d a) else .error .unusedField
  | 14 => if b.toNat < 4 then needRound r (.fcvt f r d a (fpFmtOf b.toNat)) else .error .unusedField
  | 15 => if b == 0 then needNoRound r (.fneg f d a) else .error .unusedField
  | 16 => if b == 0 then needNoRound r (.fabs f d a) else .error .unusedField
  | _ => .error .unassignedFn

/-- A region handle of 0 to 15 in a 5-bit field (R139). -/
def withHandle (r : Reg) (f : BitVec 4 → Except DecodeError Instr) : Except DecodeError Instr :=
  if r.toNat < 16 then f (BitVec.ofNat 4 r.toNat) else .error .regionHandle

/-- The system group (R139): `op` is fn[10:5], `m` fn[4:0]. -/
def decodeSystem (d a b : Reg) (op m : Nat) : Except DecodeError Instr :=
  match op with
  | 0 => need (d == 0 && a == 0 && b == 0 && m == 0) .unusedField .exit
  | 1 => need (d == 0 && a == 0 && b == 0) .unusedField (.trap (BitVec.ofNat 5 m))
  | 2 => need (d == 0 && a == 0 && b == 0 && m == 0) .unusedField .brk
  | 3 => need (a == 0 && b == 0 && decide (m < 4)) .unusedField (.fence (scopeOf m) d)
  | 4 => need (d == 0 && a == 0 && b == 0 && m == 0) .unusedField .ejoin
  | 5 => need (d == 0 && a == 0 && b == 0 && m == 0) .unusedField .tret
  | 6 => need (d == 0 && b == 0 && m == 0) .unusedField (.bar a)
  | 7 => need (d == 0 && decide (m < 4)) .unusedField (.barInit (scopeOf m) a b)
  | 8 => need (d == 0 && a == 0 && b == 0 && decide (m < 2)) .unusedField (if m == 0 then .trig else .trigJ)
  | 9 => need (b == 0 && m == 0) .unusedField (.launch d a)
  | 10 => if b == 0 && m == 0 then withHandle d fun r => .ok (.cfgLoad r a) else .error .unusedField
  | 11 => if a == 0 && b == 0 && m == 0 then withHandle d fun r => .ok (.cfgFree r) else .error .unusedField
  | 12 => if b == 0 && m == 0 then withHandle d fun r => .ok (.phase r a) else .error .unusedField
  | 13 => if a == 0 && b == 0 && m == 0 then withHandle d fun r => .ok (.pwait r) else .error .unusedField
  | 14 => if m == 0 then withHandle b fun r => .ok (.cfgInfo d a r) else .error .unusedField
  | 15 => if m == 0 then withHandle d fun r => .ok (.cfgItoff r a b) else .error .unusedField
  | 16 => if m == 0 then withHandle d fun r => .ok (.cfgPlim r a b) else .error .unusedField
  | 17 => if m == 0 then withHandle d fun r => .ok (.cfgRho r a b) else .error .unusedField
  | 18 => need (d == 0 && b == 0 && m == 0) .unusedField (.ddecl a)
  | 19 => need (d == 0 && b == 0 && m == 0) .unusedField (.dfree a)
  | 20 => need (d == 0 && b == 0 && m == 0) .unusedField (.lineReset a)
  | _ => .error .unassignedFn

/-- The atomic group (R138): `op` is fn[3:0], `z` fn[5:4], the rest the ordering, the size and the scope. -/
def decodeAtomic (d a b : Reg) (op z : Nat) (o : AmoOrd) (w : Bool) (sc : Scope) : Except DecodeError Instr :=
  if z != 0 then .error .unusedField else
  match op with
  | 0 => .ok (.amoAdd o sc w d a b)
  | 1 => .ok (.amoAnd o sc w d a b)
  | 2 => .ok (.amoOr o sc w d a b)
  | 3 => .ok (.amoXor o sc w d a b)
  | 4 => .ok (.amoMin o sc w d a b)
  | 5 => .ok (.amoMax o sc w d a b)
  | 6 => .ok (.amoMinu o sc w d a b)
  | 7 => .ok (.amoMaxu o sc w d a b)
  | 8 => .ok (.amoSwap o sc w d a b)
  | 9 => .ok (.amoCas o sc w d a b)
  | 10 => .ok (.amoFadd o sc w d a b)
  | _ => .error .unassignedFn

/-- The ordered-memory group (R138). -/
def decodeOrdered (d a b : Reg) (op : Nat) (z : Size) (sc : Scope) : Except DecodeError Instr :=
  match op with
  | 0 => need (b == 0) .unusedField (.ldAcq sc z d a)
  | 1 => need (d == 0) .unusedField (.stRel sc z a b)
  | _ => .error .unassignedFn

/-- The shift immediates (R140): `k` is imm16[7:6], `z` imm16[15:8]. -/
def decodeShift (d a : Reg) (n : BitVec 6) (k z : Nat) : Except DecodeError Instr :=
  if z != 0 then .error .unusedField else
  match k with
  | 0 => .ok (.slli d a n)
  | 1 => .ok (.srli d a n)
  | 2 => .ok (.srai d a n)
  | _ => .ok (.roti d a n)

/-- `SRR` (R140). -/
def decodeSrr (d a : Reg) (n : BitVec 12) (z : Nat) : Except DecodeError Instr :=
  if z != 0 || a != 0 then .error .unusedField else need (sysRegOk n) .reservedCode (.srr d n)

/-- `SRW` (R140). -/
def decodeSrw (d a : Reg) (n : BitVec 12) (z : Nat) : Except DecodeError Instr :=
  if z != 0 || d != 0 then .error .unusedField else need (sysRegOk n) .reservedCode (.srw n a)

/-- A word of the majors below 0b101000 (R135), from its fields: `i` is imm16, `fn` bits 10:0, `off26` bits 25:0. -/
def decodeShort (major : Nat) (d a b : Reg) (fn : Nat) (i : BitVec 16) (off26 : BitVec 26) : Except DecodeError Instr :=
  match major with
  | 0 => decodeInteger d a b fn
  | 1 => decodeFloat d a b (fn % 32) (fpFmtOf (fn / 32)) ⟨decide (fn / 1024 % 2 = 1), BitVec.ofNat 3 (fn / 128)⟩
  | 2 => decodeSystem d a b (fn / 32 % 64) (fn % 32)
  | 3 => decodeAtomic d a b (fn % 16) (fn / 16 % 4) ⟨decide (fn / 64 % 2 = 1), decide (fn / 128 % 2 = 1)⟩
      (decide (fn / 256 % 2 = 1)) (scopeOf (fn / 512))
  | 4 => decodeOrdered d a b (fn % 128) (sizeOf2 (fn / 128)) (scopeOf (fn / 512))
  | 5 => .ok (.jalr d a i)
  | 8 => .ok (.addi d a i)
  | 9 => .ok (.andi d a i)
  | 10 => .ok (.ori d a i)
  | 11 => .ok (.xori d a i)
  | 12 => .ok (.slti d a i)
  | 13 => .ok (.sltiu d a i)
  | 14 => decodeShift d a (BitVec.ofNat 6 i.toNat) (i.toNat / 64 % 4) (i.toNat / 256)
  | 15 => need (a == 0) .unusedField (.lui d i)
  | 16 => .ok (.ldB d a i)
  | 17 => .ok (.ldH d a i)
  | 18 => .ok (.ldW d a i)
  | 19 => .ok (.ldD d a i)
  | 20 => .ok (.ldBu d a i)
  | 21 => .ok (.ldHu d a i)
  | 22 => .ok (.ldWu d a i)
  | 23 =>
    match levelOf (i.toNat / 16384) with
    | some lv => .ok (.scratchLoad lv (sizeOf2 (i.toNat / 4096)) d a (BitVec.ofNat 12 i.toNat))
    | none => .error .reservedCode
  | 24 => .ok (.stB d a i)
  | 25 => .ok (.stH d a i)
  | 26 => .ok (.stW d a i)
  | 27 => .ok (.stD d a i)
  | 28 =>
    match levelOf (i.toNat / 16384) with
    | some lv => .ok (.scratchStore lv (sizeOf2 (i.toNat / 4096)) d a (BitVec.ofNat 12 i.toNat))
    | none => .error .reservedCode
  | 29 =>
    match drFmtOf (i.toNat / 8192) with
    | some f =>
      if i.toNat / 4096 % 2 = 1 then .ok (.dreadNb f d a (BitVec.ofNat 12 i.toNat))
      else .ok (.dread f d a (BitVec.ofNat 12 i.toNat))
    | none => .error .reservedCode
  | 30 => decodeSrr d a (BitVec.ofNat 12 i.toNat) (i.toNat / 4096)
  | 31 => decodeSrw d a (BitVec.ofNat 12 i.toNat) (i.toNat / 4096)
  | 32 => .ok (.beq d a i)
  | 33 => .ok (.bne d a i)
  | 34 => .ok (.blt d a i)
  | 35 => .ok (.bge d a i)
  | 36 => .ok (.bltu d a i)
  | 37 => .ok (.bgeu d a i)
  | 38 => .ok (.j off26)
  | 39 => .ok (.jal off26)
  | _ => .error .unassignedMajor

/-- Whether a first word's major has the two-word W format (R135). -/
def isLongMajor (major : Nat) : Bool := decide (56 ≤ major) && decide (major ≤ 61)

/-- The long immediates (R141, R142): `z` is bits 15:6. -/
def decodeLongImm (d a : Reg) (z fn : Nat) (imm : BitVec 32) : Except DecodeError Instr :=
  if z != 0 then .error .unusedField else
  match fn with
  | 0 => need (a == 0) .unusedField (.liw d imm)
  | 1 => need (a == 0) .unusedField (.liwh d imm)
  | 2 => .ok (.addiw d a imm)
  | _ => .error .unassignedFn

/-- The engine command of a long-form major and fn (R142). -/
def longInstr (major fn : Nat) (l : Long) : Option Instr :=
  match major with
  | 56 =>
    match fn with
    | 0 => some (.scopy l)
    | 1 => some (.sstrd l)
    | 2 => some (.sgath l)
    | 3 => some (.sscat l)
    | 4 => some (.sxcopy l)
    | _ => none
  | 57 =>
    match fn with
    | 0 => some (.mstep l)
    | 1 => some (.momstep l)
    | _ => none
  | 58 =>
    match fn with
    | 0 => some (.accZero l)
    | 1 => some (.accLd l)
    | 2 => some (.accSt l)
    | _ => none
  | 59 =>
    match fn with
    | 0 => some (.tmv l)
    | 1 => some (.tsel l)
    | 2 => some (.tred l)
    | _ => none
  | 60 =>
    match fn with
    | 0 => some (.collAr l)
    | 1 => some (.collRs l)
    | 2 => some (.collAg l)
    | 3 => some (.collBc l)
    | 4 => some (.collA2a l)
    | _ => none
  | _ => none

/-- An engine command, unless it is unassigned or has a field it does not accept. -/
def decodeLong (major fn : Nat) (l : Long) : Except DecodeError Instr :=
  match longInstr major fn l with
  | some i => need (longOk i) .longField i
  | none => .error .unassignedFn

/-- Decodes a first word, and the word after it, which only a long form looks at. -/
def decodeWords (w0 w1 : Nat) : Except DecodeError Instr :=
  let major := w0 / 2 ^ 26 % 64
  let r1 : Reg := BitVec.ofNat 5 (w0 / 2 ^ 21)
  let r2 : Reg := BitVec.ofNat 5 (w0 / 2 ^ 16)
  let r3 : Reg := BitVec.ofNat 5 (w0 / 2 ^ 11)
  if major = 61 then decodeLongImm r1 r2 (w0 / 64 % 1024) (w0 % 64) (BitVec.ofNat 32 w1)
  else if isLongMajor major then
    decodeLong major (w0 % 64)
      { slot := BitVec.ofNat 6 (w1 / 2 ^ 26), mod := BitVec.ofNat 5 (w1 / 2 ^ 21), ch := BitVec.ofNat 4 (w1 / 2 ^ 17)
        chv := decide (w1 / 2 ^ 16 % 2 = 1), ofs := BitVec.ofNat 16 w1, ga := r1, gb := r2, gc := r3
        gob := BitVec.ofNat 5 (w0 / 2 ^ 6) }
  else decodeShort major r1 r2 r3 (w0 % 2 ^ 11) (BitVec.ofNat 16 w0) (BitVec.ofNat 26 w0)

/-- Decodes the instruction that starts a list of bytes, lowest address first (R6, R134), with its length in bytes. -/
def decodeSeq (bs : List Byte) : Except DecodeError (Instr × Nat) :=
  if bs.length < 4 then .error .tooShort else
  let w0 := ofBytes (bs.take 4)
  if isLongMajor (w0 / 2 ^ 26 % 64) then
    if bs.length < 8 then .error .tooShort
    else (decodeWords w0 (ofBytes ((bs.drop 4).take 4))).map fun i => (i, 8)
  else (decodeWords w0 0).map fun i => (i, 4)

/-! ### Schedule entries -/

/-- The operation with opcode `op` (R133). -/
def elementOf (op : Nat) (e : Entry) : Option Instr :=
  match op with
  | 0 => some (.eNop e)
  | 1 => some (.eMov e)
  | 2 => some (.eDly e)
  | 3 => some (.eSel e)
  | 4 => some (.eRetag e)
  | 5 => some (.eKset e)
  | 6 => some (.eKins e)
  | 8 => some (.eIadd e)
  | 9 => some (.eIsub e)
  | 10 => some (.eImul e)
  | 11 => some (.eImulh e)
  | 12 => some (.eImulhu e)
  | 13 => some (.eImac e)
  | 14 => some (.eIneg e)
  | 15 => some (.eIabs e)
  | 16 => some (.eImin e)
  | 17 => some (.eImax e)
  | 18 => some (.eIminu e)
  | 19 => some (.eImaxu e)
  | 20 => some (.eIadds e)
  | 21 => some (.eIsubs e)
  | 24 => some (.eAnd e)
  | 25 => some (.eOr e)
  | 26 => some (.eXor e)
  | 27 => some (.eAndn e)
  | 28 => some (.eNot e)
  | 29 => some (.eShl e)
  | 30 => some (.eShr e)
  | 31 => some (.eSra e)
  | 32 => some (.eAdd e)
  | 33 => some (.eSub e)
  | 34 => some (.eMul e)
  | 35 => some (.eFma e)
  | 36 => some (.eFms e)
  | 37 => some (.eFnma e)
  | 38 => some (.eFnms e)
  | 39 => some (.eDiv e)
  | 40 => some (.eSqrt e)
  | 41 => some (.eMin e)
  | 42 => some (.eMax e)
  | 43 => some (.eAbs e)
  | 44 => some (.eNeg e)
  | 45 => some (.eCpysgn e)
  | 46 => some (.eFrnd e)
  | 48 => some (.eFcmp e)
  | 49 => some (.eFclass e)
  | 50 => some (.eIcmp e)
  | 51 => some (.eIcmpu e)
  | 52 => some (.ePand e)
  | 53 => some (.ePor e)
  | 54 => some (.ePxor e)
  | 55 => some (.ePnot e)
  | 56 => some (.eRot e)
  | 57 => some (.eClz e)
  | 58 => some (.ePopc e)
  | 59 => some (.ePtst e)
  | 64 => some (.eCvt e)
  | 65 => some (.eQmax e)
  | 66 => some (.eQfifo e)
  | 67 => some (.eQconv e)
  | 68 => some (.eDeq e)
  | 69 => some (.eGext e)
  | 70 => some (.eGins e)
  | 72 => some (.eExp2 e)
  | 73 => some (.eLog2 e)
  | 74 => some (.eExp e)
  | 75 => some (.eLn e)
  | 76 => some (.eRcp e)
  | 77 => some (.eRsqrt e)
  | 78 => some (.eSin e)
  | 79 => some (.eCos e)
  | 80 => some (.eTanh e)
  | 81 => some (.eSigmoid e)
  | 82 => some (.eErf e)
  | 88 => some (.eMadd e)
  | 89 => some (.eMsub e)
  | 90 => some (.eMmul e)
  | 91 => some (.eMscale e)
  | 92 => some (.eMrelu e)
  | 93 => some (.eMexp e)
  | 94 => some (.eMsig e)
  | 95 => some (.eMtanh e)
  | 96 => some (.eMcol e)
  | 97 => some (.eMmake e)
  | 104 => some (.eLds e)
  | 105 => some (.eSts e)
  | 106 => some (.eLdx e)
  | 107 => some (.eStx e)
  | 108 => some (.eAgen e)
  | 109 => some (.eAgen2 e)
  | 110 => some (.eAbump e)
  | 111 => some (.eAmod e)
  | 112 => some (.eLsld e)
  | 113 => some (.eLsst e)
  | 114 => some (.eSpld e)
  | 115 => some (.eSpst e)
  | 116 => some (.eWpchk e)
  | 117 => some (.eAccr e)
  | 120 => some (.eRadd e)
  | 121 => some (.eRmin e)
  | 122 => some (.eRmax e)
  | 123 => some (.eRand e)
  | 124 => some (.eRor e)
  | 125 => some (.eRxor e)
  | _ => none

/-- The fields of a 48-bit entry beside OP (R129). -/
def entryOf (w : Nat) : Entry :=
  { fmt := BitVec.ofNat 4 (w / 2 ^ 37), sa := BitVec.ofNat 5 (w / 2 ^ 32), sb := BitVec.ofNat 5 (w / 2 ^ 27)
    sc := BitVec.ofNat 5 (w / 2 ^ 22), we := decide (w / 2 ^ 21 % 2 = 1), wi := BitVec.ofNat 7 (w / 2 ^ 14)
    dr := BitVec.ofNat 2 (w / 2 ^ 12), dc := BitVec.ofNat 2 (w / 2 ^ 10), pr := BitVec.ofNat 2 (w / 2 ^ 8)
    stg := BitVec.ofNat 4 (w / 2 ^ 4), aux := BitVec.ofNat 4 w }

/-- Decodes a 48-bit entry under the conditions of R132. -/
def decodeEntryWord (w : Nat) : Except DecodeError Instr :=
  match elementOf (w / 2 ^ 41 % 128) (entryOf w) with
  | none => .error .unassignedOp
  | some i =>
    match entryForm i with
    | some (form, e) => need (entryLegal form e) .illegalEntry i
    | none => .error .unassignedOp

/-- Decodes the six bytes of an entry. -/
def decodeEntry (bs : List Byte) : Except DecodeError Instr :=
  if bs.length < 6 then .error .tooShort else decodeEntryWord (ofBytes (bs.take 6))

/-! ### The host's entry point -/

/-- The answer without its reason. -/
def toOption {α : Type} : Except DecodeError α → Option α
  | .ok a => some a
  | .error _ => none

/-- The instruction the decoder reads from an instruction whose bits are `w`: 48 bits are a schedule entry; anything
else is one or two sequencer words, the second zero where the bits end before it. -/
def decodeTableWord (nbits w : Nat) : Option Instr :=
  if nbits = 48 then toOption (decodeEntry (toBytes 6 w))
  else (toOption (decodeSeq (toBytes 8 w))).map Prod.fst

/-! ### The encoder -/

/-- A Q-format word (R134). -/
def qWord (major : Nat) (d a b : Reg) (fn : Nat) : Nat :=
  major * 2 ^ 26 + d.toNat * 2 ^ 21 + a.toNat * 2 ^ 16 + b.toNat * 2 ^ 11 + fn

/-- An I-format or B-format word (R134): two register fields and 16 bits. -/
def iWord (major : Nat) (d a : Reg) (i : Nat) : Nat := major * 2 ^ 26 + d.toNat * 2 ^ 21 + a.toNat * 2 ^ 16 + i

/-- A J-format word (R134). -/
def jWord (major : Nat) (off : BitVec 26) : Nat := major * 2 ^ 26 + off.toNat

/-- fn of the float group (R137). -/
def floatFn (op : Nat) (f : FpFmt) (r : FpRound) : Nat :=
  bit01 r.dyn * 1024 + r.rm.toNat * 128 + f.code * 32 + op

/-- A word of the float group. -/
def fWord (op : Nat) (f : FpFmt) (r : FpRound) (d a b : Reg) : Nat := qWord 1 d a b (floatFn op f r)

/-- A word of the system group (R139). -/
def sWord (op m : Nat) (d a b : Reg) : Nat := qWord 2 d a b (op * 32 + m)

/-- A handle in a register field. -/
def handleReg (r : BitVec 4) : Reg := BitVec.ofNat 5 r.toNat

/-- A word of the atomic group (R138). -/
def aWord (op : Nat) (o : AmoOrd) (sc : Scope) (w : Bool) (d a b : Reg) : Nat :=
  qWord 3 d a b (sc.code * 512 + bit01 w * 256 + bit01 o.rel * 128 + bit01 o.acq * 64 + op)

/-- imm16 of a scratch access (R140). -/
def scratchImm (lv : Level) (z : Size) (off : BitVec 12) : Nat := lv.code * 16384 + z.code * 4096 + off.toNat

/-- imm16 of DREAD (R140). -/
def dreadImm (f : DrFmt) (nb : Bool) (off : BitVec 12) : Nat := f.code * 8192 + bit01 nb * 4096 + off.toNat

/-- Both words of an engine command (R141). -/
def lWord (major fn : Nat) (l : Long) : Nat :=
  (qWord major l.ga l.gb l.gc (l.gob.toNat * 64 + fn))
    + (l.slot.toNat * 2 ^ 26 + l.mod.toNat * 2 ^ 21 + l.ch.toNat * 2 ^ 17 + bit01 l.chv * 2 ^ 16 + l.ofs.toNat) * 2 ^ 32

/-- Both words of a long immediate (R141). -/
def liWord (fn : Nat) (d a : Reg) (imm : BitVec 32) : Nat := qWord 61 d a 0 fn + imm.toNat * 2 ^ 32

/-- A schedule entry (R129). -/
def eWord (op : Nat) (e : Entry) : Nat :=
  op * 2 ^ 41 + e.fmt.toNat * 2 ^ 37 + e.sa.toNat * 2 ^ 32 + e.sb.toNat * 2 ^ 27 + e.sc.toNat * 2 ^ 22
    + bit01 e.we * 2 ^ 21 + e.wi.toNat * 2 ^ 14 + e.dr.toNat * 2 ^ 12 + e.dc.toNat * 2 ^ 10 + e.pr.toNat * 2 ^ 8
    + e.stg.toNat * 2 ^ 4 + e.aux.toNat

/-- The rounding field of an instruction that does not round. -/
def noRound : FpRound := ⟨false, 0⟩

/-- The encoding of an instruction: its width in bits and its bits, numbered from the least significant bit of the
first word; none for a device step or an outside event. -/
def encode : Instr → Option (Nat × Nat)
  | .add d a b => some (32, qWord 0 d a b 0)
  | .sub d a b => some (32, qWord 0 d a b 1)
  | .mul d a b => some (32, qWord 0 d a b 2)
  | .mulh d a b => some (32, qWord 0 d a b 3)
  | .mulhu d a b => some (32, qWord 0 d a b 4)
  | .div d a b => some (32, qWord 0 d a b 5)
  | .divu d a b => some (32, qWord 0 d a b 6)
  | .rem d a b => some (32, qWord 0 d a b 7)
  | .remu d a b => some (32, qWord 0 d a b 8)
  | .and d a b => some (32, qWord 0 d a b 9)
  | .or d a b => some (32, qWord 0 d a b 10)
  | .xor d a b => some (32, qWord 0 d a b 11)
  | .andn d a b => some (32, qWord 0 d a b 12)
  | .sll d a b => some (32, qWord 0 d a b 13)
  | .srl d a b => some (32, qWord 0 d a b 14)
  | .sra d a b => some (32, qWord 0 d a b 15)
  | .rot d a b => some (32, qWord 0 d a b 16)
  | .slt d a b => some (32, qWord 0 d a b 17)
  | .sltu d a b => some (32, qWord 0 d a b 18)
  | .min d a b => some (32, qWord 0 d a b 19)
  | .max d a b => some (32, qWord 0 d a b 20)
  | .minu d a b => some (32, qWord 0 d a b 21)
  | .maxu d a b => some (32, qWord 0 d a b 22)
  | .clz d a => some (32, qWord 0 d a 0 23)
  | .popc d a => some (32, qWord 0 d a 0 24)
  | .fadd f r d a b => some (32, fWord 0 f r d a b)
  | .fsub f r d a b => some (32, fWord 1 f r d a b)
  | .fmul f r d a b => some (32, fWord 2 f r d a b)
  | .fdiv f r d a b => some (32, fWord 3 f r d a b)
  | .fsqrt f r d a => some (32, fWord 4 f r d a 0)
  | .fma f r d a b => some (32, fWord 5 f r d a b)
  | .fmin f d a b => some (32, fWord 6 f noRound d a b)
  | .fmax f d a b => some (32, fWord 7 f noRound d a b)
  | .feq f d a b => some (32, fWord 8 f noRound d a b)
  | .flt f d a b => some (32, fWord 9 f noRound d a b)
  | .fle f d a b => some (32, fWord 10 f noRound d a b)
  | .fclass f d a => some (32, fWord 11 f noRound d a 0)
  | .ftoi f r d a => some (32, fWord 12 f r d a 0)
  | .itof f r d a => some (32, fWord 13 f r d a 0)
  | .fcvt f r d a src => some (32, fWord 14 f r d a (BitVec.ofNat 5 src.code))
  | .fneg f d a => some (32, fWord 15 f noRound d a 0)
  | .fabs f d a => some (32, fWord 16 f noRound d a 0)
  | .exit => some (32, sWord 0 0 0 0 0)
  | .trap c => some (32, sWord 1 c.toNat 0 0 0)
  | .brk => some (32, sWord 2 0 0 0 0)
  | .fence sc d => some (32, sWord 3 sc.code d 0 0)
  | .ejoin => some (32, sWord 4 0 0 0 0)
  | .tret => some (32, sWord 5 0 0 0 0)
  | .bar a => some (32, sWord 6 0 0 a 0)
  | .barInit sc a b => some (32, sWord 7 sc.code 0 a b)
  | .trig => some (32, sWord 8 0 0 0 0)
  | .trigJ => some (32, sWord 8 1 0 0 0)
  | .launch d a => some (32, sWord 9 0 d a 0)
  | .cfgLoad r a => some (32, sWord 10 0 (handleReg r) a 0)
  | .cfgFree r => some (32, sWord 11 0 (handleReg r) 0 0)
  | .phase r a => some (32, sWord 12 0 (handleReg r) a 0)
  | .pwait r => some (32, sWord 13 0 (handleReg r) 0 0)
  | .cfgInfo d a r => some (32, sWord 14 0 d a (handleReg r))
  | .cfgItoff r a b => some (32, sWord 15 0 (handleReg r) a b)
  | .cfgPlim r a b => some (32, sWord 16 0 (handleReg r) a b)
  | .cfgRho r a b => some (32, sWord 17 0 (handleReg r) a b)
  | .ddecl a => some (32, sWord 18 0 0 a 0)
  | .dfree a => some (32, sWord 19 0 0 a 0)
  | .lineReset a => some (32, sWord 20 0 0 a 0)
  | .amoAdd o sc w d a b => some (32, aWord 0 o sc w d a b)
  | .amoAnd o sc w d a b => some (32, aWord 1 o sc w d a b)
  | .amoOr o sc w d a b => some (32, aWord 2 o sc w d a b)
  | .amoXor o sc w d a b => some (32, aWord 3 o sc w d a b)
  | .amoMin o sc w d a b => some (32, aWord 4 o sc w d a b)
  | .amoMax o sc w d a b => some (32, aWord 5 o sc w d a b)
  | .amoMinu o sc w d a b => some (32, aWord 6 o sc w d a b)
  | .amoMaxu o sc w d a b => some (32, aWord 7 o sc w d a b)
  | .amoSwap o sc w d a b => some (32, aWord 8 o sc w d a b)
  | .amoCas o sc w d a b => some (32, aWord 9 o sc w d a b)
  | .amoFadd o sc w d a b => some (32, aWord 10 o sc w d a b)
  | .ldAcq sc z d a => some (32, qWord 4 d a 0 (sc.code * 512 + z.code * 128))
  | .stRel sc z a b => some (32, qWord 4 0 a b (sc.code * 512 + z.code * 128 + 1))
  | .jalr d a i => some (32, iWord 5 d a i.toNat)
  | .addi d a i => some (32, iWord 8 d a i.toNat)
  | .andi d a i => some (32, iWord 9 d a i.toNat)
  | .ori d a i => some (32, iWord 10 d a i.toNat)
  | .xori d a i => some (32, iWord 11 d a i.toNat)
  | .slti d a i => some (32, iWord 12 d a i.toNat)
  | .sltiu d a i => some (32, iWord 13 d a i.toNat)
  | .slli d a n => some (32, iWord 14 d a (0 * 64 + n.toNat))
  | .srli d a n => some (32, iWord 14 d a (1 * 64 + n.toNat))
  | .srai d a n => some (32, iWord 14 d a (2 * 64 + n.toNat))
  | .roti d a n => some (32, iWord 14 d a (3 * 64 + n.toNat))
  | .lui d i => some (32, iWord 15 d 0 i.toNat)
  | .ldB d a i => some (32, iWord 16 d a i.toNat)
  | .ldH d a i => some (32, iWord 17 d a i.toNat)
  | .ldW d a i => some (32, iWord 18 d a i.toNat)
  | .ldD d a i => some (32, iWord 19 d a i.toNat)
  | .ldBu d a i => some (32, iWord 20 d a i.toNat)
  | .ldHu d a i => some (32, iWord 21 d a i.toNat)
  | .ldWu d a i => some (32, iWord 22 d a i.toNat)
  | .scratchLoad lv z d a off => some (32, iWord 23 d a (scratchImm lv z off))
  | .stB v a i => some (32, iWord 24 v a i.toNat)
  | .stH v a i => some (32, iWord 25 v a i.toNat)
  | .stW v a i => some (32, iWord 26 v a i.toNat)
  | .stD v a i => some (32, iWord 27 v a i.toNat)
  | .scratchStore lv z v a off => some (32, iWord 28 v a (scratchImm lv z off))
  | .dread f d a off => some (32, iWord 29 d a (dreadImm f false off))
  | .dreadNb f d a off => some (32, iWord 29 d a (dreadImm f true off))
  | .srr d n => some (32, iWord 30 d 0 n.toNat)
  | .srw n a => some (32, iWord 31 0 a n.toNat)
  | .beq a b off => some (32, iWord 32 a b off.toNat)
  | .bne a b off => some (32, iWord 33 a b off.toNat)
  | .blt a b off => some (32, iWord 34 a b off.toNat)
  | .bge a b off => some (32, iWord 35 a b off.toNat)
  | .bltu a b off => some (32, iWord 36 a b off.toNat)
  | .bgeu a b off => some (32, iWord 37 a b off.toNat)
  | .j off => some (32, jWord 38 off)
  | .jal off => some (32, jWord 39 off)
  | .liw d imm => some (64, liWord 0 d 0 imm)
  | .liwh d imm => some (64, liWord 1 d 0 imm)
  | .addiw d a imm => some (64, liWord 2 d a imm)
  | .scopy l => some (64, lWord 56 0 l)
  | .sstrd l => some (64, lWord 56 1 l)
  | .sgath l => some (64, lWord 56 2 l)
  | .sscat l => some (64, lWord 56 3 l)
  | .sxcopy l => some (64, lWord 56 4 l)
  | .mstep l => some (64, lWord 57 0 l)
  | .momstep l => some (64, lWord 57 1 l)
  | .accZero l => some (64, lWord 58 0 l)
  | .accLd l => some (64, lWord 58 1 l)
  | .accSt l => some (64, lWord 58 2 l)
  | .tmv l => some (64, lWord 59 0 l)
  | .tsel l => some (64, lWord 59 1 l)
  | .tred l => some (64, lWord 59 2 l)
  | .collAr l => some (64, lWord 60 0 l)
  | .collRs l => some (64, lWord 60 1 l)
  | .collAg l => some (64, lWord 60 2 l)
  | .collBc l => some (64, lWord 60 3 l)
  | .collA2a l => some (64, lWord 60 4 l)
  | .eNop e => some (48, eWord 0 e)
  | .eMov e => some (48, eWord 1 e)
  | .eDly e => some (48, eWord 2 e)
  | .eSel e => some (48, eWord 3 e)
  | .eRetag e => some (48, eWord 4 e)
  | .eKset e => some (48, eWord 5 e)
  | .eKins e => some (48, eWord 6 e)
  | .eIadd e => some (48, eWord 8 e)
  | .eIsub e => some (48, eWord 9 e)
  | .eImul e => some (48, eWord 10 e)
  | .eImulh e => some (48, eWord 11 e)
  | .eImulhu e => some (48, eWord 12 e)
  | .eImac e => some (48, eWord 13 e)
  | .eIneg e => some (48, eWord 14 e)
  | .eIabs e => some (48, eWord 15 e)
  | .eImin e => some (48, eWord 16 e)
  | .eImax e => some (48, eWord 17 e)
  | .eIminu e => some (48, eWord 18 e)
  | .eImaxu e => some (48, eWord 19 e)
  | .eIadds e => some (48, eWord 20 e)
  | .eIsubs e => some (48, eWord 21 e)
  | .eAnd e => some (48, eWord 24 e)
  | .eOr e => some (48, eWord 25 e)
  | .eXor e => some (48, eWord 26 e)
  | .eAndn e => some (48, eWord 27 e)
  | .eNot e => some (48, eWord 28 e)
  | .eShl e => some (48, eWord 29 e)
  | .eShr e => some (48, eWord 30 e)
  | .eSra e => some (48, eWord 31 e)
  | .eAdd e => some (48, eWord 32 e)
  | .eSub e => some (48, eWord 33 e)
  | .eMul e => some (48, eWord 34 e)
  | .eFma e => some (48, eWord 35 e)
  | .eFms e => some (48, eWord 36 e)
  | .eFnma e => some (48, eWord 37 e)
  | .eFnms e => some (48, eWord 38 e)
  | .eDiv e => some (48, eWord 39 e)
  | .eSqrt e => some (48, eWord 40 e)
  | .eMin e => some (48, eWord 41 e)
  | .eMax e => some (48, eWord 42 e)
  | .eAbs e => some (48, eWord 43 e)
  | .eNeg e => some (48, eWord 44 e)
  | .eCpysgn e => some (48, eWord 45 e)
  | .eFrnd e => some (48, eWord 46 e)
  | .eFcmp e => some (48, eWord 48 e)
  | .eFclass e => some (48, eWord 49 e)
  | .eIcmp e => some (48, eWord 50 e)
  | .eIcmpu e => some (48, eWord 51 e)
  | .ePand e => some (48, eWord 52 e)
  | .ePor e => some (48, eWord 53 e)
  | .ePxor e => some (48, eWord 54 e)
  | .ePnot e => some (48, eWord 55 e)
  | .eRot e => some (48, eWord 56 e)
  | .eClz e => some (48, eWord 57 e)
  | .ePopc e => some (48, eWord 58 e)
  | .ePtst e => some (48, eWord 59 e)
  | .eCvt e => some (48, eWord 64 e)
  | .eQmax e => some (48, eWord 65 e)
  | .eQfifo e => some (48, eWord 66 e)
  | .eQconv e => some (48, eWord 67 e)
  | .eDeq e => some (48, eWord 68 e)
  | .eGext e => some (48, eWord 69 e)
  | .eGins e => some (48, eWord 70 e)
  | .eExp2 e => some (48, eWord 72 e)
  | .eLog2 e => some (48, eWord 73 e)
  | .eExp e => some (48, eWord 74 e)
  | .eLn e => some (48, eWord 75 e)
  | .eRcp e => some (48, eWord 76 e)
  | .eRsqrt e => some (48, eWord 77 e)
  | .eSin e => some (48, eWord 78 e)
  | .eCos e => some (48, eWord 79 e)
  | .eTanh e => some (48, eWord 80 e)
  | .eSigmoid e => some (48, eWord 81 e)
  | .eErf e => some (48, eWord 82 e)
  | .eMadd e => some (48, eWord 88 e)
  | .eMsub e => some (48, eWord 89 e)
  | .eMmul e => some (48, eWord 90 e)
  | .eMscale e => some (48, eWord 91 e)
  | .eMrelu e => some (48, eWord 92 e)
  | .eMexp e => some (48, eWord 93 e)
  | .eMsig e => some (48, eWord 94 e)
  | .eMtanh e => some (48, eWord 95 e)
  | .eMcol e => some (48, eWord 96 e)
  | .eMmake e => some (48, eWord 97 e)
  | .eLds e => some (48, eWord 104 e)
  | .eSts e => some (48, eWord 105 e)
  | .eLdx e => some (48, eWord 106 e)
  | .eStx e => some (48, eWord 107 e)
  | .eAgen e => some (48, eWord 108 e)
  | .eAgen2 e => some (48, eWord 109 e)
  | .eAbump e => some (48, eWord 110 e)
  | .eAmod e => some (48, eWord 111 e)
  | .eLsld e => some (48, eWord 112 e)
  | .eLsst e => some (48, eWord 113 e)
  | .eSpld e => some (48, eWord 114 e)
  | .eSpst e => some (48, eWord 115 e)
  | .eWpchk e => some (48, eWord 116 e)
  | .eAccr e => some (48, eWord 117 e)
  | .eRadd e => some (48, eWord 120 e)
  | .eRmin e => some (48, eWord 121 e)
  | .eRmax e => some (48, eWord 122 e)
  | .eRand e => some (48, eWord 123 e)
  | .eRor e => some (48, eWord 124 e)
  | .eRxor e => some (48, eWord 125 e)
  | _ => none

/-- The first word of an instruction's encoding, which TVAL holds for an illegal-instruction trap; 0 where there is
none. -/
def firstWord (i : Instr) : BitVec 32 :=
  match encode i with
  | some (_, w) => BitVec.ofNat 32 w
  | none => 0

end Sys2Proof
end

