-- ==== Sys2Proof/Machine/Float.lean ====
section
/-!
DEFINITION. Floating-point arithmetic on exact values (R84 to R90): a value is decoded, the operation is done exactly on
integers, and the result is rounded once.
-/

namespace Sys2Proof.Fp

/-- A binary format (R84): exponent and fraction widths; `noInf` for E4M3, which has no infinity. -/
structure Fmt where
  eb : Nat
  fb : Nat
  noInf : Bool := false
  deriving DecidableEq, Repr

/-- binary64 -/
def f64 : Fmt := ⟨11, 52, false⟩
/-- binary32 -/
def f32 : Fmt := ⟨8, 23, false⟩
/-- bfloat16 -/
def bf16 : Fmt := ⟨8, 7, false⟩
/-- binary16 -/
def f16 : Fmt := ⟨5, 10, false⟩
/-- OCP E4M3 -/
def e4m3 : Fmt := ⟨4, 3, true⟩
/-- OCP E5M2 -/
def e5m2 : Fmt := ⟨5, 2, false⟩

/-- The float format of a tag code 3 to 8 (R82). -/
def ofCode (c : Nat) : Fmt :=
  match c with
  | 3 => f64
  | 4 => f32
  | 5 => bf16
  | 6 => f16
  | 7 => e4m3
  | _ => e5m2

/-- The exponent bias (R84). -/
def Fmt.bias (f : Fmt) : Nat := 2 ^ (f.eb - 1) - 1
/-- Width in bits. -/
def Fmt.width (f : Fmt) : Nat := 1 + f.eb + f.fb
/-- Exponent of the last place of a subnormal. -/
def Fmt.emin (f : Fmt) : Int := 1 - (f.bias : Int) - f.fb
/-- The largest finite value's bits, without sign (R84). -/
def Fmt.maxBits (f : Fmt) : Nat := if f.noInf then 2 ^ (f.eb + f.fb) - 2 else (2 ^ f.eb - 1) * 2 ^ f.fb - 1
/-- Infinity's bits, without sign. -/
def Fmt.infBits (f : Fmt) : Nat := (2 ^ f.eb - 1) * 2 ^ f.fb
/-- The canonical NaN (R84, R85). -/
def Fmt.nanBits (f : Fmt) : Nat :=
  if f.noInf then 2 ^ (f.eb + f.fb) - 1 else (2 ^ f.eb - 1) * 2 ^ f.fb + 2 ^ (f.fb - 1)

/-- A decoded value: a NaN (signalling or not), an infinity, or (-1)^neg × m × 2^e. -/
inductive Val where
  | nan (signalling : Bool)
  | inf (neg : Bool)
  | num (neg : Bool) (m : Nat) (e : Int)
  deriving DecidableEq, Repr

/-- Decodes the low bits of `b` in a format (R84). -/
def decode (f : Fmt) (b : Nat) : Val :=
  let neg := bitOf b (f.eb + f.fb)
  let ex := b / 2 ^ f.fb % 2 ^ f.eb
  let fr := b % 2 ^ f.fb
  if ex = 2 ^ f.eb - 1 ∧ !f.noInf then
    if fr = 0 then .inf neg else .nan (fr < 2 ^ (f.fb - 1))
  else if ex = 2 ^ f.eb - 1 ∧ fr = 2 ^ f.fb - 1 then .nan false
  else if ex = 0 then .num neg fr f.emin
  else .num neg (2 ^ f.fb + fr) (f.emin + ex - 1)

/-- Exceptions of IEEE 754 in the order of FPCTL (R87). -/
structure Flags where
  nv : Bool := false
  dz : Bool := false
  of : Bool := false
  uf : Bool := false
  nx : Bool := false
  deriving DecidableEq, Repr

/-- Both sets of flags. -/
def Flags.or (a b : Flags) : Flags := ⟨a.nv || b.nv, a.dz || b.dz, a.of || b.of, a.uf || b.uf, a.nx || b.nx⟩

/-- A result's bits and the exceptions it raised. -/
structure Res where
  bits : Nat
  flags : Flags := {}
  deriving DecidableEq, Repr

/-- Number of bits of `n`; every number here is shorter than 2^13 bits. -/
def bitLen (n : Nat) : Nat := if n = 0 then 0 else Nat.log2 n + 1

/-- Whether a truncated magnitude is moved away from zero: `t` the kept part, `rem` of 2^sh dropped, `sticky` for more
below it; modes of R86, with `sr` the random bits of R88. -/
def roundUp (mode : Nat) (sr : Nat) (neg : Bool) (t rem sh : Nat) (sticky : Bool) : Bool :=
  let half := 2 ^ (sh - 1)
  let inexact := decide (rem ≠ 0) || sticky
  match mode with
  | 1 => false
  | 2 => neg && inexact
  | 3 => !neg && inexact
  | 4 => decide (half ≤ rem) && decide (sh ≠ 0)
  | 5 => inexact && decide (2 ^ 16 ≤ rem * 2 ^ 16 / 2 ^ sh + sr)
  | _ => decide (sh ≠ 0) && (decide (half < rem) || (decide (rem = half) && (sticky || decide (t % 2 = 1))))

/-- m × 2^e cut at the place 2^q: kept part and whether it is moved up. -/
def cut (mode sr : Nat) (neg : Bool) (m : Nat) (e q : Int) (sticky : Bool) : Nat × Bool :=
  if q ≤ e then (m * 2 ^ (e - q).toNat, roundUp mode sr neg (m * 2 ^ (e - q).toNat) 0 0 sticky)
  else
    let sh := (q - e).toNat
    (m / 2 ^ sh, roundUp mode sr neg (m / 2 ^ sh) (m % 2 ^ sh) sh sticky)

/-- Whether anything is dropped when m × 2^e is cut at 2^q. -/
def dropped (m : Nat) (e q : Int) (sticky : Bool) : Bool :=
  sticky || (decide (e < q) && decide (m % 2 ^ (q - e).toNat ≠ 0))

/-- Whether a mode turns an overflow of this sign into infinity rather than the largest finite value. R89 does not say on which side
stochastic rounding falls: here it gives infinity (log entry 98, DESIGN CHOICE). -/
def toInf (mode : Nat) (neg : Bool) : Bool :=
  match mode with
  | 1 => false
  | 2 => neg
  | 3 => !neg
  | _ => true

/-- Rounds (m + δ) × 2^e, 0 < δ < 1 when `sticky` and δ = 0 otherwise, to a format (R85, R86): overflow and underflow
as IEEE 754, tininess after rounding. `sat` gives the largest finite value on overflow (R89). -/
def round (f : Fmt) (mode sr : Nat) (sat : Bool) (neg : Bool) (m : Nat) (e : Int) (sticky : Bool) : Res :=
  let sign := bit01 neg * 2 ^ (f.eb + f.fb)
  if m = 0 ∧ !sticky then ⟨sign, {}⟩ else
  let p : Int := f.fb + 1
  let q0 := e + bitLen m - p
  let q := max q0 f.emin
  let c := cut mode sr neg m e q sticky
  let bits := ((q - f.emin).toNat) * 2 ^ f.fb + c.1 + bit01 c.2
  let nx := dropped m e q sticky
  if f.maxBits < bits then
    let big := if sat then f.maxBits else if toInf mode neg then (if f.noInf then f.nanBits else f.infBits) else f.maxBits
    ⟨(if f.noInf && big == f.nanBits then big else sign + big), { of := true, nx := true }⟩
  else
    let c0 := cut mode sr neg m e q0 sticky
    let tiny := decide (q0 < f.emin) && !(decide (q0 + 1 = f.emin) && decide (c0.1 + bit01 c0.2 = 2 ^ (f.fb + 1)))
    ⟨sign + bits, { uf := tiny && nx, nx := nx }⟩

/-- The canonical NaN with NV. -/
def invalid (f : Fmt) : Res := ⟨f.nanBits, { nv := true }⟩
/-- The canonical NaN, quiet; NV when an operand signals. -/
def quiet (f : Fmt) (signalling : Bool) : Res := ⟨f.nanBits, { nv := signalling }⟩
/-- An infinity. -/
def infRes (f : Fmt) (neg : Bool) : Res := ⟨bit01 neg * 2 ^ (f.eb + f.fb) + f.infBits, {}⟩
/-- A zero. -/
def zeroRes (f : Fmt) (neg : Bool) : Res := ⟨bit01 neg * 2 ^ (f.eb + f.fb), {}⟩

/-- Whether a value is a signalling NaN. -/
def Val.snan : Val → Bool
  | .nan b => b
  | _ => false
/-- Whether a value is a NaN. -/
def Val.isNan : Val → Bool
  | .nan _ => true
  | _ => false
/-- Whether a value is infinite. -/
def Val.isInf : Val → Bool
  | .inf _ => true
  | _ => false
/-- Sign bit of a value; a NaN has none. -/
def Val.sign : Val → Bool
  | .nan _ => false
  | .inf n => n
  | .num n _ _ => n
/-- Whether a value is zero. -/
def Val.isZero : Val → Bool
  | .num _ m _ => m == 0
  | _ => false

/-- (-1)^neg × m as an integer. -/
def signed (neg : Bool) (m : Nat) : Int := if neg then -(m : Int) else m

/-- The exact sum of two finite numbers, as an integer in units of 2^e. -/
def sumAt (n1 : Bool) (m1 : Nat) (e1 : Int) (n2 : Bool) (m2 : Nat) (e2 : Int) : Int × Int :=
  let e := min e1 e2
  (signed n1 (m1 * 2 ^ (e1 - e).toNat) + signed n2 (m2 * 2 ^ (e2 - e).toNat), e)

/-- Rounds an integer in units of 2^e; `zneg` is the sign of an exact zero. -/
def roundInt (f : Fmt) (mode : Nat) (zneg : Bool) (i : Int) (e : Int) : Res :=
  if i = 0 then zeroRes f zneg else round f mode 0 false (decide (i < 0)) i.natAbs e false

/-- Sign of a zero sum (R85): that of both zeros if they agree, else + except toward −∞. -/
def zeroSum (mode : Nat) (z1 z2 n1 n2 : Bool) : Bool := if z1 && z2 && n1 == n2 then n1 else mode == 2

/-- x + y rounded once. -/
def addV (f : Fmt) (mode : Nat) (x y : Val) : Res :=
  match x, y with
  | .nan s, y => quiet f (s || y.snan)
  | x, .nan s => quiet f (s || x.snan)
  | .inf a, .inf b => if a == b then infRes f a else invalid f
  | .inf a, _ => infRes f a
  | _, .inf b => infRes f b
  | .num n1 m1 e1, .num n2 m2 e2 =>
    let r := sumAt n1 m1 e1 n2 m2 e2
    roundInt f mode (zeroSum mode (m1 == 0) (m2 == 0) n1 n2) r.1 r.2

/-- A value with its sign changed. -/
def Val.neg : Val → Val
  | .nan s => .nan s
  | .inf n => .inf !n
  | .num n m e => .num (!n) m e

/-- x × y rounded once. -/
def mulV (f : Fmt) (mode : Nat) (x y : Val) : Res :=
  match x, y with
  | .nan s, y => quiet f (s || y.snan)
  | x, .nan s => quiet f (s || x.snan)
  | .inf a, y => if y.isZero then invalid f else infRes f (a != y.sign)
  | x, .inf b => if x.isZero then invalid f else infRes f (x.sign != b)
  | .num n1 m1 e1, .num n2 m2 e2 => round f mode 0 false (n1 != n2) (m1 * m2) (e1 + e2) false

/-- x × y + z rounded once (R85). -/
def fmaV (f : Fmt) (mode : Nat) (x y z : Val) : Res :=
  let s := x.snan || y.snan || z.snan
  let bad := (x.isInf && y.isZero) || (x.isZero && y.isInf)
  if bad then invalid f
  else if x.isNan || y.isNan || z.isNan then quiet f s
  else
    let pn := x.sign != y.sign
    if x.isInf || y.isInf then
      match z with
      | .inf b => if b == pn then infRes f pn else invalid f
      | _ => infRes f pn
    else
      match x, y, z with
      | _, _, .inf b => infRes f b
      | .num _ m1 e1, .num _ m2 e2, .num n3 m3 e3 =>
        let r := sumAt pn (m1 * m2) (e1 + e2) n3 m3 e3
        roundInt f mode (zeroSum mode (m1 * m2 == 0) (m3 == 0) pn n3) r.1 r.2
      | _, _, _ => invalid f

/-- x / y rounded once. -/
def divV (f : Fmt) (mode : Nat) (x y : Val) : Res :=
  match x, y with
  | .nan s, y => quiet f (s || y.snan)
  | x, .nan s => quiet f (s || x.snan)
  | .inf a, y => if y.isInf then invalid f else infRes f (a != y.sign)
  | x, .inf b => zeroRes f (x.sign != b)
  | .num n1 m1 e1, .num n2 m2 e2 =>
    if m2 = 0 then
      if m1 = 0 then invalid f else { infRes f (n1 != n2) with flags := { dz := true } }
    else if m1 = 0 then zeroRes f (n1 != n2)
    else
      let k := f.fb + 4 + bitLen m2
      round f mode 0 false (n1 != n2) (m1 * 2 ^ k / m2) (e1 - e2 - k) (decide (m1 * 2 ^ k % m2 ≠ 0))

/-- Integer square root of `m` from a partial root `r`, trying bits i - 1 down to 0. -/
def isqrtFrom (m : Nat) : Nat → Nat → Nat
  | 0, r => r
  | i + 1, r => if (r + 2 ^ i) * (r + 2 ^ i) ≤ m then isqrtFrom m i (r + 2 ^ i) else isqrtFrom m i r

/-- floor of the square root. -/
def isqrt (m : Nat) : Nat := isqrtFrom m (bitLen m / 2 + 1) 0

/-- √x rounded once. -/
def sqrtV (f : Fmt) (mode : Nat) (x : Val) : Res :=
  match x with
  | .nan s => quiet f s
  | .inf n => if n then invalid f else infRes f false
  | .num n m e =>
    if m = 0 then zeroRes f n
    else if n then invalid f
    else
      let k := 2 * (f.fb + 4) + (if e % 2 = 0 then 0 else 1)
      let m' := m * 2 ^ k
      let r := isqrt m'
      round f mode 0 false false r ((e - k) / 2) (decide (r * r ≠ m'))

/-- x < y for numbers and infinities; false for NaN. -/
def ltV (x y : Val) : Bool :=
  match x, y with
  | .nan _, _ => false
  | _, .nan _ => false
  | .inf a, .inf b => a && !b
  | .inf a, _ => a
  | _, .inf b => !b
  | .num n1 m1 e1, .num n2 m2 e2 => decide ((sumAt n1 m1 e1 (!n2) m2 e2).1 < 0)

/-- x = y, with −0 = +0; false for NaN. -/
def eqV (x y : Val) : Bool := !x.isNan && !y.isNan && !ltV x y && !ltV y x

/-- The order of MIN and MAX: −0 below +0 (R173). -/
def totalLt (x y : Val) : Bool := ltV x y || (eqV x y && x.sign && !y.sign)

/-- A finite or infinite value converted to a format: exact where it widens, rounded else (R89). -/
def convert (f : Fmt) (mode sr : Nat) (sat : Bool) (x : Val) : Res :=
  match x with
  | .nan s => quiet f s
  | .inf n =>
    if f.noInf then (if sat then ⟨bit01 n * 2 ^ (f.eb + f.fb) + f.maxBits, {}⟩ else ⟨f.nanBits, {}⟩) else infRes f n
  | .num n m e => if m = 0 then zeroRes f n else round f mode sr sat n m e false

/-- The integer a finite value rounds to, and whether it differs (R90); SR rounds as RNE. -/
def toInteger (mode : Nat) (neg : Bool) (m : Nat) (e : Int) : Int × Bool :=
  let c := cut (if mode = 5 then 0 else mode) 0 neg m e 0 false
  (signed neg (c.1 + bit01 c.2), dropped m e 0 false)

/-- Conversion to a w-bit integer: saturating, 0 for NaN (R90), with NV for both and NX for an inexact one in range. -/
def toInt (w mode : Nat) (x : Val) : Int × Flags :=
  match x with
  | .nan _ => (0, { nv := true })
  | .inf n => (if n then -(2 ^ (w - 1) : Nat) else (2 ^ (w - 1) : Nat) - 1, { nv := true })
  | .num n m e =>
    let r := toInteger mode n m e
    let c := satInt w r.1
    if c = r.1 then (c, { nx := r.2 }) else (c, { nv := true })

/-- Conversion from an integer. -/
def ofInt (f : Fmt) (mode : Nat) (i : Int) : Res := roundInt f mode false i 0

/-- The 10-bit class mask of R176: −∞, negative normal, negative subnormal, −0, +0, positive subnormal, positive
normal, +∞, signalling NaN, quiet NaN. -/
def classMask (f : Fmt) (b : Nat) : Nat :=
  match decode f b with
  | .nan s => if s then 256 else 512
  | .inf n => if n then 1 else 128
  | .num n m e =>
    if m = 0 then (if n then 8 else 16)
    else if m < 2 ^ f.fb ∧ e = f.emin then (if n then 4 else 32)
    else if n then 2 else 64

/-- x with the larger or smaller taken by `totalLt`; the canonical NaN if either is NaN (R173). -/
def minMax (f : Fmt) (max : Bool) (a b : Nat) : Res :=
  let x := decode f a
  let y := decode f b
  if x.isNan || y.isNan then quiet f (x.snan || y.snan)
  else if (if max then totalLt x y else totalLt y x) then ⟨b % 2 ^ f.width, {}⟩ else ⟨a % 2 ^ f.width, {}⟩

/-- FNEG and FABS, NEG and ABS: only the sign bit changes; a NaN gives the canonical NaN (R199). -/
def setSign (f : Fmt) (b : Nat) (neg : Bool) : Nat :=
  if (decode f b).isNan then f.nanBits else b % 2 ^ (f.eb + f.fb) + bit01 neg * 2 ^ (f.eb + f.fb)

/-- mix32 of R88. -/
def mix32 (x : BitVec 32) : BitVec 32 :=
  let x := x ^^^ (x >>> 16)
  let x := x * 0x7FEB352D
  let x := x ^^^ (x >>> 15)
  let x := x * 0x846CA68B
  x ^^^ (x >>> 16)

/-- sr_bits of R88. -/
def srBits (seed iter : BitVec 32) (copy row col slot : Nat) : Nat :=
  let y := iter ^^^ BitVec.ofNat 32 (copy % 32 * 2 ^ 27) ^^^ BitVec.ofNat 32 (row % 16 * 2 ^ 23)
    ^^^ BitVec.ofNat 32 (col % 16 * 2 ^ 19) ^^^ BitVec.ofNat 32 (slot % 32 * 2 ^ 14)
  (mix32 (seed ^^^ mix32 y)).toNat / 2 ^ 16

end Sys2Proof.Fp
end

