-- ==== Sys2Proof/Config.lean ====
section
/-!
DEFINITION. What the specification leaves open for good: constants with no body. Nothing can be proved of their values.
-/

namespace Sys2Proof.Config

/-- The next free 64-bit value: the model applies it to State.freeCount and advances that counter (log entry 4, DESIGN CHOICE). -/
opaque freeWord : Nat → BitVec 64

/-- The home-slice hash of a line that is not on a PN page (R67): the manual does not publish it. -/
opaque homeSlice : Nat → Nat

/-- The set of a line in an L1 (R67): the manual gives the size and the ways, not the index. -/
opaque l1Set : Nat → Nat

/-- SHAKE256 digests of the Saiga boot image, the firmware and the fuse and tile maps (R375). -/
opaque imageDigest : Nat → BitVec 512

/-- The secret in the fuses, from which the device identity key and the alias key are derived (R375). -/
opaque fusedSecret : BitVec 512

/-- The Ed448 public key that a key seed gives, and the signature of a message (number) with its private key (R375, R376, R378). -/
opaque publicKey : BitVec 512 → Nat
opaque ed448 : BitVec 512 → Nat → Nat

/-- Vilnil's signature of an identity key (R375). -/
opaque vendorSign : Nat → Nat

/-- The bytes of an SPDM message, by its kind and what it carries, as the SPDM standard lays them out (R376). -/
opaque spdmBytes : Nat → List Nat → List Byte

/-- The audit payload of a register write (R377), whose layout the manual does not give: register number, old value, new
value, whether refused. It fills 320 bits. -/
opaque auditLayout : Nat → Nat → Nat → Bool → Nat

/-- Length in the record log of a checkpoint (R399): the manual gives no layout. -/
opaque ckptBytes : Nat → Nat

/-- The bytes of a dump's section, by its kind and its words in the order the manual gives (R60, R398): it gives no layout. -/
opaque dumpLayout : Nat → List Nat → List Byte

/-- The HBM stack, and so the Tahr slice, of a physical frame: the manual does not publish it. -/
opaque stackOf : Nat → Nat

/-- The keys that Addax generates for a partition (R371): partition, how many rekeys, Kenc 0 or Kmac 1. -/
opaque sealKey : Nat → Nat → Nat → BitVec 256

/-- AES-256 of a block under a key (R371). -/
opaque aes256 : BitVec 256 → BitVec 128 → BitVec 128

/-- The index of a stamp's configuration in its source file (R395), of which an image holds nothing (R55, R56). -/
opaque configIndex : Nat → Nat

/-- How many free cores a partition has on other packages for a task, at a tick (R327, R334): this package does not know. -/
opaque farFree : Nat → Nat → Nat

/-- The fused-off tile of each core, from the fuses (R11, R404): 0 to 15 one tile, 16 none. -/
opaque fuseMap : Nat → Nat

/-- A special function's choice within its allowed results (R98, R104, R107): function number, operand bits. -/
opaque special : Nat → Nat → Nat

/-- Where a function of R97 goes over from the lower of two bracketing results to the upper: function number, lower result; the
place in numeric order of the first operand with the upper one. -/
opaque rises : Nat → Nat → Nat

end Sys2Proof.Config
end

