-- ==== Sys2Proof/Machine/Store.lean ====
section
/-!
DEFINITION. Reading and writing a sparse map (Sys2Proof.Store): a key that is not listed reads as the default `d`,
and writing the default takes the entry out, so that equal maps are equal data.
-/

namespace Sys2Proof.Store

/-- The value at key `k`, or `d`. -/
def get {α : Type} (d : α) : Store α → Nat → α
  | [], _ => d
  | (k', v) :: rest, k => if k' = k then v else get d rest k

/-- `m` without key `k`. -/
def erase {α : Type} : Store α → Nat → Store α
  | [], _ => []
  | (k', v) :: rest, k => if k' = k then erase rest k else (k', v) :: erase rest k

/-- `m` with the pair put before the first larger key. -/
def insert {α : Type} : Store α → Nat → α → Store α
  | [], k, v => [(k, v)]
  | (k', v') :: rest, k, v => if k < k' then (k, v) :: (k', v') :: rest else (k', v') :: insert rest k v

/-- `m` with `v` at key `k`. -/
def set {α : Type} [DecidableEq α] (d : α) (m : Store α) (k : Nat) (v : α) : Store α :=
  if v = d then erase m k else insert (erase m k) k v

/-- `m` with the value at `k` changed by `f`. -/
def modify {α : Type} [DecidableEq α] (d : α) (m : Store α) (k : Nat) (f : α → α) : Store α :=
  set d m k (f (get d m k))

/-- The canonical form: keys strictly rising, no entry equal to the default. -/
def wf {α : Type} [DecidableEq α] (d : α) : Store α → Bool
  | [] => true
  | [(_, v)] => decide (v ≠ d)
  | (k, v) :: (k', v') :: rest => decide (v ≠ d) && decide (k < k') && wf d ((k', v') :: rest)

/-- The listed keys that satisfy `p`. -/
def keysWhere {α : Type} (p : Nat → α → Bool) (m : Store α) : List Nat :=
  (m.filter fun kv => p kv.1 kv.2).map Prod.fst

/-- `m` without the keys that satisfy `p`. -/
def dropWhere {α : Type} (p : Nat → Bool) (m : Store α) : Store α :=
  m.filter fun kv => !p kv.1

end Sys2Proof.Store
end

