-- ==== Sys2Proof/Machine/CoreState.lean ====
section
/-!
DEFINITION. The state of one core and of what runs on it: the sequencer, the engines and their commands, the
accumulator slots, stamps with their copies and regions, and of one cluster. Plain data throughout.
-/

namespace Sys2Proof.Machine

/-- A sequencer register: its bits and its poison bit (R193). -/
structure GReg where
  val : Word := 0
  psn : Bool := false
  deriving DecidableEq, Repr

/-- A value with its format tag and poison bit: a latch, a bus, a row-file entry (R46 to R48). -/
structure Tagged where
  val : Word := 0
  tag : BitVec 4 := 0
  psn : Bool := false
  deriving DecidableEq, Repr

/-- The error state of one 8-byte word of a memory: clean; in error but corrected on each read (R64, R76);
uncorrectable (R77); or with bytes stored poisoned (R78), bit i for the word's byte i. -/
inductive Mark where
  | clean | corrected | bad
  | poisoned (bytes : BitVec 8)
  deriving DecidableEq, Repr

/-- Whether a word holds poisoned bytes. -/
def Mark.isPoisoned : Mark → Bool
  | .poisoned _ => true
  | _ => false

/-- The word's mark with some of its bytes poisoned, or clean with none. -/
def Mark.ofBytes (m : BitVec 8) : Mark := if m = 0 then .clean else .poisoned m

/-- A memory: bytes by address in canonical form, with the error state of its 8-byte words by word number. -/
structure Ram where
  bytes : List Host.Cell := []
  marks : Store Mark := []
  deriving DecidableEq, Repr

/-- What a trap record carries (R227, R228): code, detail, unit, source and value. -/
structure Trap where
  code : Nat
  detail : Nat := 0
  unit : Nat := 0
  src : Nat := 0
  tval : Word := 0
  deriving DecidableEq, Repr

/-- An asynchronous trap that a member has not taken yet, with its place in the arbiter's order: the cycle, and in it the source
(R229, R324). -/
structure HeldTrap where
  key : Nat
  trap : Trap
  deriving DecidableEq, Repr

/-- A synchronous trap that a Frozen member is to take when it runs again, with its return address (R30, R340). -/
structure OwedTrap where
  trap : Trap
  epc : Word
  deriving DecidableEq, Repr

/-- A page with a range conflict (R348, R351): the port lane, 0 for a core's, the page's number, and whether the access waits for DONE or is
being retried. -/
structure Conflict where
  lane : Nat := 0
  page : Nat
  again : Bool
  deriving DecidableEq, Repr

/-- A load or atomic of the sequencer that is out on a Lomid channel (R390): where its result goes. -/
structure PeerWait where
  ch : Nat
  rd : Reg
  /-- Result width in bytes, whether it is sign-extended, and whether it is placed as a float (R82). -/
  size : Nat
  signed : Bool
  float : Bool
  /-- the scope at which it is ordered, and whether its reply drops clean CC copies: an acquire of device or system scope -/
  acq : Option Scope
  inval : Bool
  len : Nat
  /-- its address, and the tick on which it was sent -/
  va : Word
  sent : Nat
  /-- the result is poisoned with an operand that it read (R195) -/
  psn : Bool := false
  /-- a read of several words as one instruction makes it (R112, R219): the instruction goes on when the reply has come -/
  many : Bool := false
  deriving DecidableEq, Repr

/-- What holds the sequencer at its present instruction, where the state must remember it. -/
inductive Wait where
  | none
  /-- in `BAR`: cluster and offset of the object, and GEN as seen on arrival (R34, R210) -/
  | barrier (cluster off gen : Nat)
  /-- in `BAR` at an object outside the member's cluster, its arrival on its way or its release awaited there -/
  | remoteBarrier (pkg : Nat) (handle : Word)
  /-- in `BAR.INIT` of an object of another package -/
  | barInit
  /-- in `PWAIT` on a stamp (R213) -/
  | phase (stamp : Nat)
  | join
  | exit
  /-- a page request is outstanding (R350) -/
  | page (req : Nat)
  /-- the page request was answered with retry: the instruction restarts, and no asynchronous trap comes before it (R30, R350) -/
  | retry
  /-- a range conflict of a page waits for DONE (R351); `again` on the retry -/
  | conflict (x : Conflict)
  | peer (p : PeerWait)
  /-- the reply to a read of several words has come -/
  | peerDone
  /-- held at its present instruction, which is tried again in each cycle (R30) -/
  | poll
  /-- a store or atomic at its home, not yet acknowledged, for instructions that complete then -/
  | home
  /-- an engine command held at issue while 64 are pending (R233) -/
  | engine
  /-- a `LAUNCH` whose acceptance is not yet decided -/
  | launch
  /-- a `TRIG` whose signal is not yet performed (R218) -/
  | signal
  /-- a `DREAD` waits at the slot's home (R123) -/
  | dread (region slot : Nat)
  /-- `DDECL` until every slot is built, `DFREE` until the region is quiet (R113, R220) -/
  | ddecl (region : Nat)
  | dfree (region : Nat)
  deriving DecidableEq, Repr

/-- The pending posted-store status (R205, R206). -/
structure PostStatus where
  failCnt : Nat := 0
  dead : Bool := false
  refused : Bool := false
  demoted : Bool := false
  fva : Nat := 0
  deriving DecidableEq, Repr

/-- The sequencer's registers and what its waits need (R193, R224). -/
structure Seq where
  regs : Store GReg := []
  pc : Word := 0
  fpctl : Word := 0
  mcc : Word := 0
  drstat : Word := 0
  spm : Store Word := []
  tvec : Word := 0
  tepc : Word := 0
  tcause : Word := 0
  tval : Word := 0
  /-- in its handler (R229) -/
  inHandler : Bool := false
  /-- asynchronous traps not yet taken, in arbiter order (R229) -/
  traps : List HeldTrap := []
  owed : Option OwedTrap := none
  post : PostStatus := {}
  /-- stores issued and not yet acknowledged (R205) -/
  unacked : Nat := 0
  wait : Wait := .none
  /-- what the home of a barrier on another package has told the member that waits there (R34, R210) -/
  barReply : Option (Option Word) := none
  /-- the words of the instruction last fetched, which a wait holds; the model's own -/
  ir : Word := 0
  deriving DecidableEq, Repr

/-- Member states of R30; `unbound` for a core without a member, `bound` between its bind record and its start. -/
inductive MState where
  | unbound | bound | running | waiting | frozen | saved | faulted | retired
  deriving DecidableEq, Repr

/-- What a bind record and its task give a member (R225, R328, R336). -/
structure Binding where
  task : Nat
  memb : Nat := 0
  pkg : Nat := 0
  part : Nat := 0
  /-- kernel class: 0 P, 1 D, 2 N -/
  kclass : Nat := 0
  depth : Nat := 0
  dbg : Bool := false
  /-- core and cluster number of its first bind (R362) -/
  firstCore : Nat := 0
  startTick : Nat := 0
  save : Nat := 0
  deriving DecidableEq, Repr

/-- A cell of an accumulator slot. -/
structure AccCell where
  bits : BitVec 32 := 0
  psn : Bool := false
  deriving DecidableEq, Repr

/-- An accumulator slot (R247): its tag and its 32 x 32 cells, by 32 y + x. F64 and M32 tiles take an even and an odd
slot: bits 31:0 of a value or the mean plane in the even one. -/
structure AccSlot where
  tag : BitVec 4 := 4
  cells : Store AccCell := []
  deriving DecidableEq, Repr

/-- The operands one repetition of a tile-step read: elements with their poison. -/
structure RepData where
  a : List (Nat × Bool) := []
  b : List (Nat × Bool) := []
  deriving DecidableEq, Repr

/-- An engine command (R233): the instruction, the values of its registers, and how far it is. -/
structure Cmd where
  id : Nat
  instr : Instr
  /-- address of the long form -/
  va : Word
  ra : Word
  rb : Word
  rc : Word
  /-- its start cycle by R141, and the cycle of its arrival, on the member cycle count; it begins on the later (R233) -/
  due : Word
  arrive : Word
  /-- the cycle on which it began -/
  started : Option Nat := none
  /-- bytes, elements or results delivered so far -/
  done : Nat := 0
  reps : Store RepData := []
  /-- source values a Tahr or accumulator command read at its start -/
  data : List (Nat × Bool) := []
  /-- position among the issuer's collectives on its group (R258) -/
  seqNo : Nat := 0
  /-- ranks whose contribution has landed, for a collective -/
  landed : List Nat := []
  /-- its pages with a range conflict (R351) -/
  conflicts : List Conflict := []
  /-- its stores to device memory not yet acknowledged (R239) -/
  out : Nat := 0
  /-- the tick on which it sent a load through a channel to which no reply comes (R390) -/
  lost : Option Nat := none
  /-- the pages its registers fix are translated and their classes checked (R240), and those classes -/
  checked : Bool := false
  classes : List Nat := []
  retired : Bool := false
  deriving DecidableEq, Repr

/-- A cached translation (R346): the page's first address and size, and its leaf. -/
structure TlbEntry where
  part : Nat
  va : Nat
  size : Nat
  leaf : Word
  deriving DecidableEq, Repr

/-- A handle of a core: a stamp, and the copy placed there if any (R26). -/
structure HandleRef where
  stamp : Nat
  copy : Option Nat := none
  deriving DecidableEq, Repr

/-- A valid line of an L1 (R67): its number, and whether it is of a CC page (R68). -/
structure L1Line where
  line : Nat
  cc : Bool
  deriving DecidableEq, Repr

/-- Errors of a scratch memory's banks (R64): banks marked failed, by group and bank; and words in error, by group, bank and
row. -/
structure Banks where
  failed : List (Nat × Nat) := []
  errs : List (Nat × Nat × Nat) := []
  deriving DecidableEq, Repr

/-! ### Derived regions -/

/-- Kinds of R110. -/
inductive DKind where
  | rowsum | rowsq | rowmax | hist | bscale
  deriving DecidableEq, Repr

/-- A slot of a derived region (R114, R117, R120). -/
structure DSlot where
  status : BitVec 32 := 0
  /-- ACC as an integer -/
  acc : Int := 0
  /-- MAX as binary64, or HI and LO as binary32, with their multiplicities -/
  hi : Nat := 0
  lo : Nat := 0
  multHi : Nat := 0
  multLo : Nat := 0
  param : Nat := 0
  nanc : Nat := 0
  pinfc : Nat := 0
  ninfc : Nat := 0
  psnc : Nat := 0
  deriving DecidableEq, Repr

/-- A declared region (R110, R111): its descriptor's fields, and physical pages by 64 KiB page of the footprint and of
the base. -/
structure DRegion where
  id : Nat
  part : Nat
  desc : Word
  base : Word
  rows : Nat
  cols : Nat
  pitch : Nat
  hlo : Nat
  hwid : Nat
  qexp : Int
  nbin : Nat
  kind : DKind
  fmt : Nat
  g : Nat
  wide : Bool
  /-- physical address of each 64 KiB page, from the first page on -/
  basePages : List Nat
  footPages : List Nat
  slots : Store DSlot := []
  /-- slots whose rescan or rebuild runs -/
  pending : List Nat := []
  /-- elements, row and column, that PSNC counts (R127) -/
  psnElems : List (Nat × Nat) := []
  /-- its partition is released: its declaration ends once it is quiet (R374) -/
  ending : Bool := false
  deriving DecidableEq, Repr

/-- What a core's sequencer has read early of what it reads later in program order (R272): bytes of device memory, and what stood at the
address of a `DREAD`, a region with its slots, or none. -/
structure Early where
  bytes : List Host.Cell := []
  slots : List (Nat × Option DRegion) := []
  deriving DecidableEq, Repr

/-! ### Cores -/

/-- One core. -/
structure Core where
  seq : Seq := {}
  mstate : MState := .unbound
  bind : Option Binding := none
  /-- CORECTL (R320): the fused tile, SCRUB, OOS, and an OOS write that waits for the member or the scrub -/
  fused : Option (BitVec 4) := none
  scrub : Bool := false
  oos : Bool := false
  oosWanted : Option Bool := none
  bkpt : Store Word := []
  dumpBase : Nat := 0
  dumpBusy : Bool := false
  /-- a breakpoint address already stopped at, not stopped at again on continuation (R397) -/
  bkptPassed : Option Nat := none
  handles : Store (Option HandleRef) := []
  slots : Store AccSlot := []
  /-- first member cycle in which the Markhor array is free (R244) -/
  arrayFree : Nat := 0
  /-- commands issued and not retired, in program order, and those retired since the last join -/
  cmds : List Cmd := []
  nextCmd : Nat := 0
  /-- how many collectives the member has issued on each group (F, P) -/
  collSeq : List ((Nat × Nat) × Nat) := []
  /-- write pointers WP0 to WP15 (R71) -/
  wp : Store Word := []
  /-- the write pointers as they stood at the start of the cycle (R168) -/
  wpOld : Store Word := []
  scratch : Ram := {}
  /-- errors of the scratchpad's banks (R64) -/
  banks : Banks := {}
  /-- the L1's sets, 16 ways of 128-byte lines, from the most to the least recently used (R11, R67) -/
  l1 : Store (List L1Line) := []
  /-- 64 KiB granules written since the bind or resume: scratchpad 0 to 44, share 45 to 59 (R341) -/
  granules : List Nat := []
  /-- granules that the save area holds from earlier spills (R341) -/
  savedGranules : List Nat := []
  /-- task and member whose fast context the shadow store holds (R340) -/
  shadow : Option (Nat × Nat) := none
  seqTlb : List TlbEntry := []
  engTlb : List TlbEntry := []
  /-- port TLBs by lane: 0 to 15 south, 16 to 31 east -/
  portTlb : Store (List TlbEntry) := []
  /-- what loads performed early have read (R272) -/
  early : Early := {}
  /-- a PREEMPT record has acted: no further `PHASE` (R339) -/
  preempt : Bool := false
  /-- the gang's other packages have been told that the member is at its point (R41) -/
  pointTold : Bool := false
  /-- an uncorrectable error struck the core's state; the recovery of its member has not begun (R30, R356) -/
  struck : Bool := false
  /-- the member stopped in its wait and has been captured (R340) -/
  captured : Bool := false
  /-- a debug stop holds the member in place (R397) -/
  stopHold : Bool := false
  /-- the task whose member was last released here; the cluster share waits for its other members (R374) -/
  scrubTask : Nat := 0
  /-- a replay runs here (R400): the recorded values still to return, each with its stream -/
  replay : Option (List (Nat × Word)) := none
  /-- the member cycle at which it stops (R400, R401) -/
  replayEnd : Option Nat := none
  deriving DecidableEq, Repr

/-! ### Stamps, copies and regions -/

/-- Fields of a configuration header that last (R56). -/
structure Hdr where
  ii : Nat := 1
  rsLog : Nat := 4
  kmax : Nat := 0
  grace : Nat := 0
  rmask : Nat := 1
  vclamp : Bool := false
  rfclaim : Bool := false
  reloc : Bool := false
  /-- height and width in tiles -/
  h : Nat := 1
  w : Nat := 1
  deriving DecidableEq, Repr

/-- A stream-table entry (R56). -/
structure Stream where
  va : Word := 0
  count : Nat := 0
  stride : BitVec 16 := 0
  fmt : BitVec 4 := 0
  store : Bool := false
  east : Bool := false
  lane : Nat := 0
  deriving DecidableEq, Repr

/-- A range entry (R347). -/
structure Range where
  va : Nat := 0
  npg : Nat := 0
  typ : Nat := 0
  cls : Nat := 0
  st : Bool := false
  deriving DecidableEq, Repr

/-- An address generator's registers (R162). -/
structure Gen where
  pos : Nat := 0
  inner : Nat := 0
  deriving DecidableEq, Repr

/-- A fabric load whose value comes later, from another package (R390) or once a store to its bytes is performed (R271, R272): where it
reads, its frame and its issue time. -/
structure HeldRead where
  leaf : Word
  pa : Nat
  size : Nat
  frame : Nat
  time : Nat
  /-- the member cycle in which its reply is due -/
  due : Nat := 0
  deriving DecidableEq, Repr

/-- The reply of a fabric load, for the record log (R399): its frame, issue time and number, the value with its poison, and how many
member cycles late it came (R52). -/
structure FabReply where
  frame : Nat
  time : Nat
  id : Nat
  val : Word
  psn : Bool
  late : Nat
  deriving DecidableEq, Repr

/-- A result in flight (R46): when it lands, in unfrozen cycles of the phase, and where. -/
structure Flight where
  id : Nat
  due : Nat
  /-- element number, 4 x width x row + column -/
  elem : Nat
  /-- the value; none while a fabric load's reply is out -/
  val : Option Tagged
  we : Bool := false
  wi : Nat := 0
  dr : Nat := 0
  dc : Nat := 0
  /-- member cycle in which a late reply arrives (R52); none where it is in time -/
  late : Option Nat := none
  /-- a moment result with a negative variance: it faults instead of landing (R106, R186) -/
  fault : Bool := false
  /-- address and format of a load whose value comes later: through a channel, or held behind a store -/
  va : Word := 0
  tag : BitVec 4 := 0
  held : Option HeldRead := none
  /-- the tick on which it was sent through a channel (R390) -/
  sent : Option Nat := none
  /-- the slot of the entry that issued it (R395) -/
  slot : Nat := 0
  deriving DecidableEq, Repr

/-- What a round-start capture holds of a region (R53). The results in flight at the round's start belong to it: on a replay they land
again with the values that they had (log entry 115, DESIGN CHOICE). -/
structure RegCore where
  slot : Nat := 0
  wave : Nat := 0
  latch : Store Tagged := []
  rowfile : Store Tagged := []
  lane : Store Word := []
  laneMarks : Store Mark := []
  gens : Store Gen := []
  inflight : List Flight := []
  deriving DecidableEq, Repr

/-- A store or reduction in a port lane's round buffer (R51, R161). -/
structure BufEntry where
  round : Nat
  frame : Nat
  /-- lane, 0 to 15 south, 16 to 31 east; issue time in unfrozen cycles; element -/
  lane : Nat
  time : Nat
  elem : Nat
  va : Word
  pa : Nat
  /-- the scratch level for `SPST` (1 core scratchpad, 2 cluster-shared, 3 chip), 0 for device memory -/
  level : Nat := 0
  /-- memory type of its page, and its leaf (R345) -/
  typ : Nat := 0
  leaf : Word := 0
  data : List Byte
  psn : Bool := false
  red : Option (RedOp × BitVec 4) := none
  val : Word := 0
  deriving DecidableEq, Repr

/-- Counts that the phase's trace records carry (R396). -/
structure RegCount where
  lost : Nat := 0
  late : Nat := 0
  scratch : Nat := 0
  buffer : Nat := 0
  voids : Nat := 0
  deriving DecidableEq, Repr

/-- A scratch read that froze its region (R52). -/
structure ScratchStall where
  elem : Nat
  frozen : Nat := 0
  deriving DecidableEq, Repr

/-- One copy of a stamp (R26): where it is, its registers, its region and its rounds. -/
structure Copy where
  core : Nat := 0
  handle : Nat := 0
  oty : Nat := 0
  otx : Nat := 0
  itoff : Nat := 0
  stoff : Nat := 0
  plim : Nat := 0xFFFFFFFF
  rho : BitVec 32 := 0
  /-- registers written for the next phase (R215) are these; those of the running phase are captured here -/
  phItoff : Nat := 0
  phPlim : Nat := 0xFFFFFFFF
  phRho : BitVec 32 := 0
  reg : RegCore := {}
  /-- captures by round, oldest first (R53) -/
  captures : List (Nat × RegCore) := []
  /-- rounds committed, and the round now committing -/
  committed : Nat := 0
  committing : Option Nat := none
  /-- the member cycle of the last commit, and the rounds committed before it: buffers are free in the cycle after it (R52) -/
  commitAt : Nat := 0
  commitOld : Nat := 0
  /-- stores of the committing round not yet acknowledged -/
  outstanding : Nat := 0
  buffers : List BufEntry := []
  /-- buses driven in the present cycle: 4 r + b for row buses, 1000 + 4 c + b for column buses -/
  buses : Store Tagged := []
  /-- row-file entries written in this cycle, readable from the next (R50) -/
  rowWrites : Store Tagged := []
  stall : Option ScratchStall := none
  page : Option Nat := none
  /-- pages with a range conflict (R348, R351), by lane -/
  conflicts : List Conflict := []
  /-- a load reply is late (R52) -/
  loadStall : Bool := false
  /-- the local time whose results have landed, while the region is frozen in it -/
  landed : Option Nat := none
  /-- load replies of rounds not committed, in the order of issue, for the record log (R399) -/
  replies : List FabReply := []
  /-- its frame breakpoint has stopped it in this phase (R397) -/
  fstop : Bool := false
  /-- member cycle from which the stall wire is released -/
  freeAt : Nat := 0
  counts : RegCount := {}
  /-- the address at which a reduction of a committed round read a bad word: the region faults at its next issue cycle (R164) -/
  redFault : Option Word := none
  /-- voids whose wave has not been issued again: the wave, and the member cycle of the void (R396) -/
  voidsAt : List (Nat × Word) := []
  /-- nothing of its phase is left, or no phase was started -/
  done : Bool := true
  /-- the copy is on no core: the core that held it was scrubbed (R373) -/
  gone : Bool := false
  nextId : Nat := 0
  deriving DecidableEq, Repr

/-- State of a stamp (R214). -/
inductive StampState where
  | idle | running | faulted (code : Nat)
  deriving DecidableEq, Repr

/-- A stamp: its image and its phase. -/
structure Stamp where
  /-- loading core, the stamp's handle there, and the task and member that loaded it -/
  core : Nat := 0
  handle : Nat := 0
  task : Nat := 0
  memb : Nat := 0
  hdr : Hdr := {}
  streams : List Stream := []
  ranges : List Range := []
  /-- context words by 32 row + slot (R49) -/
  ctx : Store Nat := []
  /-- schedule entries, 48 bits, by 32 element + slot (R45) -/
  entries : Store Nat := []
  state : StampState := .idle
  trip : Nat := 0
  /-- start cycle of the phase on the member cycle count, and the captured seed (R212) -/
  start : Nat := 0
  seed : BitVec 32 := 0
  copies : List Copy := []
  /-- its member is frozen or saved: nothing of it runs -/
  held : Bool := false
  deriving DecidableEq, Repr

/-- The element entry being executed: which copy, element, slot and frame, and the issue time in unfrozen cycles. -/
structure Issue where
  stamp : Nat := 0
  copy : Nat := 0
  row : Nat := 0
  col : Nat := 0
  slot : Nat := 0
  wave : Nat := 0
  deriving DecidableEq, Repr

/-- The architectural state of a Saiga core (R317): integer and float registers, program counter, control and status registers by
number, and whether it is in user mode. -/
structure Hart where
  regs : Store Word := []
  fregs : Store Word := []
  pc : Word := 0
  csrs : Store Word := []
  user : Bool := false
  deriving DecidableEq, Repr

/-- One cluster: its shared memory, its cores' CC bytes and the homes' records of barrier participants. -/
structure Cluster where
  cm : Ram := {}
  /-- errors of the shared memory's banks (R64) -/
  banks : Banks := {}
  /-- dirty CC bytes by physical address, those of them that are poisoned, and clean CC copies (R68, R78, R277) -/
  dirty : List Host.Cell := []
  dirtyPsn : List Nat := []
  /-- the partition and task that stored each dirty byte (R355) -/
  dirtyBy : List (Nat × Nat × Nat) := []
  clean : List Host.Cell := []
  /-- barrier offset, and the members that ever arrived since `BAR.INIT` with the GEN of the last arrival (R210) -/
  participants : List (Nat × List (Nat × Nat)) := []
  /-- offsets of the barrier objects that `BAR.INIT` has written (R33), and members of other packages that wait at one: offset,
  package, task, member -/
  objects : List Nat := []
  farWaits : List (Nat × Nat × Nat × Nat) := []
  deriving DecidableEq, Repr

end Sys2Proof.Machine
end

