-- ==== Sys2Proof/Machine/Event.lean ====
section
/-!
DEFINITION. The device's own steps and its outside events as entries of the agenda: one constructor for each event
instruction of Sys2Proof/Syntax.lean, with the same arguments. (A value of `Instr` past its 245th constructor cannot be
built by compiled code, so the agenda does not hold them.)
-/

namespace Sys2Proof.Machine

/-- What is told to the issuer of an atomic or reduction, once its messages are applied (R125): an atomic's old value for a core's
register, with what its completion does; one store less of a copy's round; a reply or an acknowledgement to another package. -/
inductive Answer where
  | atom (a : AtomReq) (v : Word) (psn : Bool)
  | red (stamp copy : Nat)
  | peer (pkg ch : Nat) (v : Word)
  | peerAck (pkg ch : Nat)
  deriving DecidableEq, Repr

/-- A step of the device or an event from outside. -/
inductive Ev where
  | rowCounterStep (stamp copy : Nat)
  | waveAdvance (stamp copy : Nat)
  | resultLands (stamp copy id : Nat)
  | loadReplyArrives (r : Reply)
  | stallGraceExpiry (stamp copy : Nat)
  | roundCommit (stamp copy round : Nat)
  | phaseRetire (stamp : Nat)
  | storeAtHome (st : StoreReq)
  | sumDeltaMessage (m : Delta)
  | maxDeltaMessage (m : Delta)
  | bscaleDeltaMessage (m : Delta)
  | rescanComplete (region slot : Nat)
  | rebuildComplete (region slot : Nat)
  | storeAcknowledged (st : StoreReq) (k : AckKind)
  | atomicAtHome (a : AtomReq)
  | reductionAtHome (r : RedReq)
  | ccEvictionPush (cluster line : Nat)
  | barrierArrivalMessage (who : Arriver) (handle : Word)
  | completionSignal (task : Nat) (k : SignalKind)
  | dependencesComplete (task : Nat)
  | subreg (rec : BitVec 512)
  | launchAcceptance
  | taskabort (v : Word)
  | tabort (v : Word)
  | aldata (v : Word)
  | armBind (n : Nat) (v : Word)
  | armResume (n : Nat) (v : Word)
  | armPreempt (n : Nat) (v : Word)
  | armFreeze (n : Nat) (v : Word)
  | cancelBindRecord (n : Nat)
  | bindExecute (n : Nat)
  | resumeExecute (n : Nat)
  | preemptExecute (n : Nat)
  | gangSaveAtPoints (task : Nat)
  | preemptTimeout (task : Nat)
  | forcedFreeze (task : Nat)
  | fastContextCaptured (core : Nat)
  | spillComplete (core : Nat)
  | memberRetire (core : Nat)
  | coreScrubComplete (core : Nat)
  | asyncTrapDelivery (core : Nat)
  | ebudWindowExpiry (part : Nat)
  | ebud (v : Word)
  | heldCommandAccepted (core : Nat)
  | engineCommandStart (core cmd rep : Nat)
  | copyGranuleLands (core cmd : Nat)
  | copyRetire (core cmd : Nat)
  | mstepZeroing (core cmd : Nat)
  | tileStepSliceRetire (core cmd rep slice : Nat)
  | tileStepRetire (core cmd : Nat)
  | accCellsWritten (core cmd : Nat)
  | accCommandRetire (core cmd : Nat)
  | tahrResultLands (core cmd : Nat)
  | tahrRetire (core cmd : Nat)
  | collectiveLanding (core cmd rank : Nat)
  | collectivePartRetire (core cmd : Nat)
  | eventTaken
  | evhead (v : Word)
  | evcfg (v : Word)
  | lockstepFailure (faulty : Option Nat)
  | failoverComplete
  | corectl (core : Nat) (v : Word)
  | registerWrite (unit n : Nat) (v : Word)
  | prrespRetry (idx : Nat)
  | prrespRefuse (idx : Nat)
  | prqhead (v : Word)
  | tlbinv (v : Word)
  | tlbinvDone
  | wlreq (v : Word)
  | uncorrectableError (core : Nat)
  | lineLost (pa : Nat)
  | prect (v : Word)
  | cremap (v : Word)
  | ppol (v : Word)
  | pway (v : Word)
  | cpwin (v : Word)
  | pat (v : Word)
  | patZeroingComplete (frame : Nat)
  | blkcls (v : Word)
  | blockLayoutComplete (block : Nat)
  | sealstRekey (v : Word)
  | rekeyComplete (part : Nat)
  | groupReencryptComplete (part group : Nat)
  | mrgo (v : Word)
  | audw4 (v : Word)
  | auditCheckpoint
  | auditFree (seq : Nat)
  | spdmRequest (q : SpdmReq)
  | tdispRequest (vf : Nat) (q : TdispReq)
  | lchanOpen (v : Word)
  | lchanRetire (v : Word)
  | channelDrainEnd (ch : Nat)
  | drainedReport (pkg ch part : Nat)
  | openMessage (pkg ch part : Nat)
  | pwin (v : Word)
  | peerAccessArrival (a : PeerAccess)
  | peerReplyTimeout (core : Nat)
  | lomidLaneFailure (port lane : Nat)
  | replicaWriteAtHome (w : ReplicaWrite)
  | replicaConfirm (seq pkg : Nat)
  | hostSnoop (half : Nat) (inv : Bool)
  | hostWrite (vf : Nat) (addr : Word) (data : List Byte)
  | hostRead (vf : Nat) (addr : Word) (size : Nat)
  | cxlGrant (half : Nat) (own : Bool)
  | debugStop (core : Nat) (r : StopReason)
  | dumpctl (core : Nat) (v : Word)
  | dumpComplete (core : Nat)
  | debugCheckpoint (part : Nat)
  | rlfree (v : Word)
  | powerUp
  | deviceReady (code : BitVec 8)
  | pwrgdDeassert
  | perst
  | pfFlr
  | vfFlr (vf : Nat)
  | islandGate (v : Word)
  | islandFrequency (v : Word)
  | islandChangeComplete (island : Nat)
  | pkgGate (v : Word)
  | pkgGateExitComplete
  | powerLimitThrottle (meas : BitVec 16)
  | thermalThrottle (island : Nat)
  | thermalTrip (island : Nat)
  | illegalInstruction (w : BitVec 32)
  | hostLinkDead
  | thermalThrottleEnd (island : Nat)
  | powerLimitThrottleEnd (meas : BitVec 16)
  | substat (v : Word)
  | replay (core task memb checkpoint : Nat)
  /-- a store on its way leaves for its home (R201, R206) -/
  | storeOnWay (st : StoreReq)
  /-- the first held request that nothing holds any more is applied (R118, R372) -/
  | heldTurn
  | answered (a : Answer)
  /-- an uncorrectable error is met in a footprint line (R119, R127) -/
  | slotError (line : Nat)
  /-- a `BAR.INIT` of a member on another package reaches its object's home (R209, R302) -/
  | farBarInit (pkg task memb : Nat) (handle : Word) (scope count : Nat)
  /-- a member of this package has faulted: the barriers that it was counted in break (R33) -/
  | memberGone (task memb : Nat)
  /-- what another package of a gang tells of a member there (R32, R33, R38, R41) -/
  | gangNews (task memb : Nat) (n : GangNews)
  /-- a signal from package `pkg` to a completion object on a replicated page homed here, and the home's answer there (R36, R278) -/
  | farSignal (pkg pa task : Nat) (k : SignalKind)
  | signalDone (task : Nat)
  /-- a committed store of a region to a CC page reaches its cluster's L1s (R69, R161) -/
  | ccStore (st : StoreReq)
  /-- a fabric load that waited for a store to its bytes reads them (R271, R272) -/
  | heldReadAnswered (stamp copy id : Nat)
  /-- the recovery of a member that an error has struck begins (R356) -/
  | recover (core : Nat)
  /-- the pair of Saiga cores has retired an instruction alike, and stands so (R317) -/
  | hartsRetire (h : Hart)
  /-- a word of Saiga's SRAM has an error (R317) -/
  | sramError (addr : Nat) (bad : Bool)
  /-- a store or load of the pair: SRAM or the control window (R317, R318) -/
  | hartStore (addr : Nat) (data : List Byte)
  | hartLoad (addr size : Nat)
  /-- the host reads 8 bytes of a function's BAR0 (R7) -/
  | hostBarRead (vf off : Nat)
  /-- a word of device memory has an error that its code corrects, or does not (R76, R77) -/
  | wordError (pa : Nat) (bad : Bool)
  /-- a word of a scratch bank is in error, or Saiga marks a bank failed: level 1 core, 2 cluster, 3 chip; which of them; group, bank, row
  (R64, R322) -/
  | bankError (level idx group bank row : Nat)
  | bankFailed (level idx group bank : Nat)
  /-- Saiga disables an L2 slice (R322) -/
  | sliceOff (slice : Nat)
  /-- a load of a core is performed early: bytes that its sequencer is to read later (R272) -/
  | earlyLoad (core pa n : Nat)
  /-- a `DREAD` of a core is performed early (R125, R272) -/
  | earlyDread (core : Nat) (va : Word)
  /-- the tag or the tree of a sealed line does not match (R371) -/
  | sealMismatch (line : Nat) (tag : Word) (tree : Bool)
  /-- a package that holds replicas stops confirming (R392) -/
  | replicaLost (pkg : Nat)
  /-- the ROM's checks are passed and Saiga's firmware starts (R404) -/
  | firmwareStart
  /-- the write-backs and recalls of reset entry are over (R405) -/
  | resetEntryEnd
  /-- the recalls before the gated state are answered (R387, R408) -/
  | pkgGateEnter
  /-- an acknowledgement or a reply arrives in a flit of a Lomid channel, with its send tick (R390) -/
  | lomidAck (st : StoreReq) (k : AckKind) (sent : Nat)
  | lomidReply (r : Reply) (sent : Nat)
  /-- reverse stepping of a member to a cycle (R400) -/
  | reverseStep (core task memb cycle : Nat)
  deriving DecidableEq, Repr

end Sys2Proof.Machine
end

