-- ==== Sys2Proof/Machine/DeviceState.lean ====
section
/-!
DEFINITION. The state of the package around its cores: partitions, tasks, the slot table, Saiga's registers and
queues, page requests, caches and directory, derived regions, write logs, the audit log, Lomid, the host side, power.
-/

namespace Sys2Proof.Machine

/-! ### Tasks -/

/-- Task states of R38. -/
inductive TaskState where
  | queued | eligible | bound | running | saved | retired | aborted
  deriving DecidableEq, Repr

/-- How a gang is being stopped, and how far that is (R339, R340, R397, R399). -/
inductive Stopping where
  | none
  /-- a PREEMPT record acted on this tick; waiting for every member's point -/
  | points (tick : Nat)
  /-- frozen on this tick, each member to be captured; `debug`: the gang stays on its cores -/
  | freezing (tick : Nat) (debug : Bool)
  /-- captured; spills under way -/
  | spilling
  /-- stopped by a debug stop or a checkpoint, still on its cores -/
  | debugStop
  deriving DecidableEq, Repr

/-- The saved context of a member (R341): sequencer, engines, slots, pointers and the granules it wrote. Its stamps stay
in the device's table, marked held. -/
structure SavedCtx where
  memb : Nat
  core : Nat
  bind : Binding
  seq : Seq
  slots : Store AccSlot
  arrayFree : Nat
  cmds : List Cmd
  nextCmd : Nat
  collSeq : List ((Nat × Nat) × Nat)
  wp : Store Word
  handles : Store (Option HandleRef)
  waiting : Bool
  scratch : Ram := {}
  share : Ram := {}
  granules : List Nat := []
  /-- the home's records for the barrier objects in its share: participants, the objects, and who waits on other packages -/
  bars : List (Nat × List (Nat × Nat)) := []
  objects : List Nat := []
  farWaits : List (Nat × Nat × Nat × Nat) := []
  spilled : Bool := false
  /-- member cycle count and tick of the freeze (R399) -/
  frozenAt : Nat := 0
  /-- in a checkpoint, the member's stamps as they stood (R399) -/
  stamps : List (Nat × Stamp) := []
  deriving DecidableEq, Repr

/-- What is known here of a gang's member on another package: the OP and tick of its armed record, whether it is at its pre-emption
point, saved, retired. -/
structure FarMember where
  memb : Nat
  armed : Option (Nat × Nat) := none
  point : Bool := false
  saved : Bool := false
  retired : Bool := false
  deriving DecidableEq, Repr

/-- A task (R327, R38). -/
structure Task where
  part : Nat := 0
  record : BitVec 512 := 0
  state : TaskState := .retired
  depth : Nat := 0
  /-- first eligible tick, and the tick of its last bind or resume (R334, R335) -/
  eligible : Option Nat := none
  boundAt : Nat := 0
  signalled : Bool := false
  irrevocable : Bool := false
  /-- members retired -/
  retiredCount : Nat := 0
  /-- its members on other packages, as those have told -/
  far : List FarMember := []
  stop : Stopping := .none
  /-- tick on which a detected debug stop freezes the gang (R397) -/
  stopAt : Option Nat := none
  /-- a freeze that another package has told of: its tick, and whether it is a debug stop's (R340, R397) -/
  freezeAt : Option (Nat × Bool) := none
  saves : List SavedCtx := []
  /-- a debug checkpoint counter and its due tick (R399) -/
  ckpt : Nat := 0
  ckptDue : Option Nat := none
  /-- the tick of the freeze in which a checkpoint is being taken (R399) -/
  ckptAt : Option Nat := none
  /-- values recorded, oldest first, as 2^61 x member + stream, 2^60 more for a poisoned one; stream 0 is the sequencer's, 998 its barriers',
  999 its freezes, 1000 the start cycles of engine commands, 1001 + n the source bytes of command n, 2^45 + 512 r + 32 h + c the replies of
  round r in copy c of handle h, 2^45 more how late they were; and the checkpoints kept (R399): number, offset, values recorded before it,
  and the contexts -/
  recorded : List (Nat × Word) := []
  ckpts : List (Nat × Nat × Nat × List SavedCtx) := []
  /-- the collectives that retired members had issued (R258), and those (F, P, k) whose parts disagree -/
  gone : List (Nat × List ((Nat × Nat) × Nat)) := []
  badColl : List (Nat × Nat × Nat) := []
  deriving DecidableEq, Repr

/-- A `LAUNCH` being decided (R219): launching core, its gd, and the record. -/
structure LaunchReq where
  core : Nat
  rd : Reg
  record : BitVec 512
  deriving DecidableEq, Repr

/-! ### Partitions -/

/-- A TDISP interface's state (R363). -/
inductive Tdisp where
  | unlocked | locked | run | error
  deriving DecidableEq, Repr

/-- A write-log record (R355): its number in the log, the line, its old bytes and error state, and the storing task. -/
structure LogRec where
  slot : Nat
  line : Nat
  bytes : List Byte
  marks : List Mark
  task : Nat
  deriving DecidableEq, Repr

/-- One partition's registers and records. -/
structure Part where
  prect : Word := 0
  ppol : Word := 0
  mask : BitVec 16 := 0xFFFF
  cpwin : Word := 0
  cremap : Word := 0xBA9876543210
  psched : Word := 0x32028190FA0
  ptroot : Word := 0
  wlcfg : Word := 0x0100000000000000
  wlFull : Bool := false
  /-- a log size the host has asked for and Saiga has not yet copied (R354) -/
  wlreq : Option Nat := none
  wlog : List LogRec := []
  sealst : Word := 0
  keyGen : Nat := 0
  minor : Store Nat := []
  major : Store Nat := []
  reencrypting : List Nat := []
  /-- the counter of the tree's root (R371, R372): how many writes it has covered -/
  treeRoot : Nat := 0
  dbgcfg : Word := 0x10180000
  trbase : Word := 0
  rlbase : Word := 0
  dbgstat : Word := 0
  rlfree : Word := 0
  /-- trace records written, and bytes appended to the record log (R395, R399) -/
  traceCount : Nat := 0
  rlPos : Nat := 0
  rlTail : Nat := 0
  allow : Store Word := []
  pwin : Store Word := []
  pwlen : Store Word := []
  tdisp : Tdisp := .unlocked
  ebud : Word := 0x4000FFFFFF000000
  /-- the tick from which the present EBUD window counts (R80) -/
  ebudFrom : Nat := 0
  merged6 : Nat := 0
  deriving DecidableEq, Repr

/-! ### Events, page requests, audit -/

/-- What waits for the event arbiter: a record for Saiga (R323), an audited action (R377) or a trace record (R395). -/
inductive Event where
  | saiga (val : Word) (part cls code detail unit src core : Nat)
  | audit (kind part actor : Nat) (payload : Nat)
  | trace (part : Nat) (mcc : Word) (kind core unit node : Nat) (d0 d1 d2 d3 : Word)
  deriving DecidableEq, Repr

/-- An event at its source; `order` places the source in the arbiter's order (R324). -/
structure Pending where
  order : Nat
  ev : Event
  deriving DecidableEq, Repr

/-- Where a page request comes from (R349, R350). -/
inductive ReqSrc where
  | sequencer (core : Nat)
  | region (stamp copy : Nat)
  | engine (core cmd : Nat)
  deriving DecidableEq, Repr

/-- A page request (R349). `index` is its place in the queue once Saiga's queue has taken it. -/
structure PageReq where
  id : Nat
  src : ReqSrc
  va : Word
  part : Nat
  core : Nat
  unit : Nat
  kind : Nat
  index : Option Nat := none
  deriving DecidableEq, Repr

/-- An entry of the audit log (R377). -/
structure AuditEntry where
  body : BitVec 512
  chain : BitVec 512
  deriving DecidableEq, Repr

/-! ### Caches, directory, held requests -/

/-- A valid L2 line (R365): physical line number, owner LPI, lock; lines stand in a set from the most to the least
recently used. -/
structure L2Line where
  way : Nat
  line : Nat
  owner : Nat
  locked : Bool := false
  deriving DecidableEq, Repr

/-- Class of a CO page (R384). -/
inductive PageClass where
  | priv (core : Nat) | clus (cluster : Nat) | dir
  deriving DecidableEq, Repr

/-- Directory state of a line (R384). -/
inductive LineState where
  | inv | shared (mask : BitVec 12) | excl (core : Nat) | modified (core : Nat) | lost
  deriving DecidableEq, Repr

/-- Host state of a 64-byte half (R386): device-held states for the host aperture, host-held ones for HDM. -/
inductive HalfState where
  | inv | shared | excl | modified | hostShared | hostOwned
  deriving DecidableEq, Repr

/-- Dirty bytes of one line of a CC page that a cluster pushes (R69, R277): the poisoned ones, and the partition and task that stored each. -/
structure Push where
  cluster : Nat
  line : Nat
  cells : List Host.Cell
  psn : List Nat
  by' : List (Nat × Nat × Nat)
  deriving DecidableEq, Repr

/-- A request held at its home: while a rescan or rebuild of its row runs (R118), a sealed frame makes it wait (R372), a half is not
there (R386), or one of its stream before it is held (R282, R390). -/
inductive Held where
  | store (st : StoreReq)
  | atom (a : AtomReq)
  | red (r : RedReq)
  /-- an access from another package, at its physical address -/
  | peer (pa : Nat) (a : PeerAccess)
  /-- a task's signal to its completion object; `hc`: on a host-coherent page; the package it came from, if another -/
  | signal (pa task : Nat) (k : SignalKind) (hc : Bool) (pkg : Option Nat)
  /-- an undo store of a partition's record (R356) -/
  | undo (r : LogRec) (part : Nat)
  | push (x : Push)
  /-- a write that has gone on to its home on another package, until it comes back to the replica here (R282, R392) -/
  | forwarded (st : StoreReq)
  /-- a read of a host function, and a write of SUBREG by one: they do not pass its held writes (R270, R282) -/
  | hostRead (vf part pa size : Nat)
  | subreg (vf : Nat) (rec : BitVec 512)
  deriving DecidableEq, Repr

/-! ### Outside the package -/

/-- A posted store sent on a Lomid channel and not acknowledged (R390, R391). -/
structure Posted where
  ch : Nat
  sent : Nat
  /-- the store, without its bytes -/
  st : StoreReq
  deriving DecidableEq, Repr

/-- A write to a replicated page placed in seq, with the packages still to confirm it (R392). -/
structure Replica where
  seq : Nat
  st : StoreReq
  waiting : List Nat
  deriving DecidableEq, Repr

/-- What the package sends to the outside: peers, the host, Saiga. -/
inductive Out where
  | store (ch : Nat) (far : Nat) (data : List Byte) (sent : Nat)
  | load (ch : Nat) (far : Nat) (size : Nat) (core : Nat) (sent : Nat)
  | fabricLoad (ch : Nat) (far : Nat) (size : Nat) (stamp copy id : Nat) (sent : Nat)
  | engineLoad (ch : Nat) (far : Nat) (size : Nat) (core cmd : Nat) (sent : Nat)
  | collPart (task first count seq rank : Nat) (data : List Byte)
  | atom (ch : Nat) (far : Nat) (op : AmoOp) (word : Bool) (operand compare : Word) (core : Nat) (sent : Nat)
  | red (ch : Nat) (far : Nat) (op : RedOp) (fmt : BitVec 4) (value : Word) (sent : Nat)
  | replicaForward (home : Nat) (st : StoreReq)
  /-- a write placed in seq goes to the packages that hold replicas, each with its number among the writes sent there -/
  | replicaCast (seq : Nat) (pkgs : List (Nat × Nat)) (st : StoreReq)
  /-- an atomic or reduction from another package on a replica here goes on to its home -/
  | peerForward (home : Nat) (a : PeerAccess) (pa : Nat)
  | replicaConfirm (home : Nat) (st : StoreReq)
  | openMsg (ch : Nat) (peer part : Nat)
  | drained (ch : Nat) (peer part : Nat)
  | peerReply (pkg ch : Nat) (value : Option Word) (sent : Nat)
  | peerAck (pkg ch : Nat) (accepted : Bool) (sent : Nat)
  | barrier (pkg : Nat) (handle : Word) (task memb : Nat)
  | barrierInit (pkg : Nat) (handle : Word) (scope count : Nat) (task memb : Nat)
  /-- what a barrier's home tells a member on another package: SCOPE and GEN on its release, none where it is broken -/
  | barrierReply (pkg task memb : Nat) (value : Option Word)
  | barInitDone (pkg task memb : Nat)
  | gangNews (task memb : Nat) (n : GangNews)
  | signal (home pa task : Nat) (k : SignalKind)
  /-- a home tells the package that sent a signal that it is performed (R218) -/
  | signalDone (pkg task : Nat)
  | hostRead (vf : Nat) (data : Option (List Byte))
  /-- a host read of BAR0 returns (R7) -/
  | barRead (value : Word)
  /-- what a load of Saiga's cores returns, and whether a store of theirs was done; none and false are the RISC-V access fault (R318) -/
  | hartLoad (value : Option Word)
  | hartStore (done : Bool)
  | hostWrite (vf : Nat) (done : Bool)
  | hostStore (pa : Nat) (data : List Byte)
  | snoop (half : Nat) (hit : Bool)
  | cxlRequest (half : Nat) (own : Bool)
  | backInvalidate (half : Nat)
  | spdm (body : List (BitVec 512)) (sig : Nat)
  /-- the SPDM versions, as major and minor digits, the capabilities by name, and the certificate chain: the identity key with Vilnil's
  signature, the alias key with the identity key's (R375, R376) -/
  | spdmVersions (l : List Nat)
  | spdmCapabilities (l : List String)
  | spdmCertificate (identity vendorSig deviceKey deviceSig : Nat)
  /-- a request that is not answered -/
  | spdmError
  /-- Unsupported Request, as a virtual function bound to no partition answers (R363) -/
  | unsupported (vf : Nat)
  | startTick (task tick : Nat)
  | alert
  deriving DecidableEq, Repr

/-- A CXL request outstanding (R386). -/
structure CxlReq where
  half : Nat
  own : Bool
  deriving DecidableEq, Repr

/-- What the agenda holds: a device step or an outside event, an element entry that issues, or a sequencer that takes
its next instruction. -/
inductive Action where
  | event (e : Ev)
  | elem (x : Issue)
  | seq (core : Nat)
  deriving DecidableEq, Repr

end Sys2Proof.Machine
end

