-- ==== Sys2Proof/Machine/State.lean ====
section
/-!
DEFINITION. The machine's state, its faults and refusals, and the state right after reset.
-/

namespace Sys2Proof.Machine

/-- The machine's state. -/
structure State where
  /- time -/
  /-- core cycles and domain ticks since reset, and the part of a tick already passed (R8) -/
  cycle : Nat := 0
  tick : Nat := 0
  tickFrac : Nat := 0
  /-- how far each island is in its present cycle, in 36ths of one (R8, R406) -/
  islPhase : Store Nat := []
  /- the model's own -/
  /-- what is still to happen in the present cycle, and events from outside that are to come, oldest first -/
  agenda : List Action := []
  inputs : List Ev := []
  /-- open steps that the oracle has put off, each with the tick in which it was first possible -/
  openSince : List (Ev × Nat) := []
  core : Nat := 0
  issue : Issue := {}
  freeCount : Nat := 0
  oracle : List Nat := []
  out : List Out := []
  /- cores, clusters, stamps -/
  cores : Store Core := []
  clusters : Store Cluster := []
  stamps : Store Stamp := []
  nextStamp : Nat := 1
  /- memories -/
  hbm : Ram := {}
  /-- lines marked lost (R357) and lines holding poisoned words are marks of `hbm`; lost lines by line number -/
  lost : List Nat := []
  cp : Ram := {}
  /-- errors of the chip scratchpad's banks (R64) -/
  cpBanks : Banks := {}
  /-- L2 slices disabled (R322) -/
  slicesOff : List Nat := []
  /-- CC lines with dirty bytes that an L1 evicts, by cluster and line (R277) -/
  evicting : List (Nat × Nat) := []
  /-- banks that fabric accesses have used in this cycle: level, core or cluster, group, bank, and the row (R65) -/
  bankUse : List ((Nat × Nat × Nat × Nat) × Nat) := []
  /-- stores on their way: issued, and not yet performed for every agent of their scope (R201, R206, R284), oldest first -/
  way : List StoreReq := []
  host : Ram := {}
  saiga : Ram := {}
  l2 : Store (List L2Line) := []
  pageClass : Store PageClass := []
  /-- the translations with which a class lasts (R384): partition, first address and size of the page, and its first 64 KiB frame -/
  classified : List (Nat × Nat × Nat × Nat) := []
  lines : Store LineState := []
  halves : Store HalfState := []
  cxl : List CxlReq := []
  /- tasks, slot table, partitions -/
  parts : Store Part := []
  tasks : Store Task := []
  nextTask : Nat := 1
  /-- tasks whose signal has been performed at a home here (R36) -/
  signalsHere : List Nat := []
  /-- four 64-bit words a bind record (R336), by 4 n + k -/
  slotTab : Store Word := []
  subreg : Option (BitVec 512) := none
  launching : List LaunchReq := []
  substat : Word := 0
  /- Saiga -/
  evcfg : Word := 6
  evhead : Nat := 0
  evtail : Nat := 0
  evseq : Nat := 0
  sgstat : Word := 0x20
  /-- the three Saiga cores, the pair in lockstep, and of a fail-over under way its tick and the faulty core (R317, R326) -/
  harts : Store Hart := []
  pair : List Nat := [0, 1]
  failingOver : Bool := false
  failFrom : Nat := 0
  failedHart : Nat := 0
  saigaOut : Bool := false
  pending : List Pending := []
  prqcfg : Word := 6
  prqhead : Nat := 0
  prqtail : Nat := 0
  pageReqs : List PageReq := []
  nextReq : Nat := 0
  tlbinv : Word := 0x8000000000000000
  tlbinvsz : Word := 0
  pidx : Nat := 0
  alidx : Nat := 0
  patidx : Nat := 0
  blkidx : Nat := 0
  occsel : Nat := 0
  lchidx : Nat := 0
  pwidx : Nat := 0
  islidx : Nat := 0
  pat : Store Word := []
  blkcls : Store Word := []
  /- Addax -/
  mr : Store (BitVec 512) := []
  mrext : Store Word := []
  audw : Store Word := []
  audit : Store AuditEntry := []
  /-- the last entry's SEQ and CHAIN, entries since the last checkpoint, and the latest checkpoint -/
  chain : Option (BitVec 512) := none
  lastAudit : Nat := 0
  sinceCkpt : Nat := 0
  ckpt : Option (Nat × BitVec 512 × Nat) := none
  /-- an SPDM session is open; the messages that the next signature covers; the functions whose IDE stream has its keys, 0 the physical
  one (R363, R376) -/
  spdmSession : Bool := false
  transcript : List Byte := []
  ideKeys : List Nat := []
  /-- SEQs of the checkpoints delivered to the host (R378) -/
  delivered : List Nat := []
  /- derived regions -/
  derived : List DRegion := []
  nextRegion : Nat := 1
  held : List Held := []
  /- Lomid -/
  pkgNo : Nat := 0
  lchan : Store Word := []
  lchoff : Store Word := []
  /-- tick on which each channel's retirement began (R391) -/
  lchRet : Store Nat := []
  deadLanes : List (Nat × Nat) := []
  posted : List Posted := []
  replicas : List Replica := []
  nextSeq : Nat := 0
  /-- how many writes each package has been sent (R392); for each home, how many of its writes the replicas here have applied, and the
  writes that came before their turn: home, number, write -/
  rpSent : Store Nat := []
  rpNext : Store Nat := []
  rpWait : List (Nat × Nat × StoreReq) := []
  /-- home package of a replicated page's 64 KiB frame and the packages that hold replicas (R392); the model's own -/
  rpHome : Store Nat := []
  rpHolders : Store (List Nat) := []
  /- pins, bring-up, power -/
  bootst : Word := 0
  pwrgd : Bool := false
  /-- THERMTRIP_N, and a trip that the next boot reports (R403, R407) -/
  thermtrip : Bool := false
  tripped : Bool := false
  alert : Bool := false
  hostDead : Bool := false
  /-- what host memory holds of each half that is modified here and not written back (R387, R402) -/
  hostOld : Store (List Byte) := []
  /-- the tick on which reset entry began, and whether the gated state is about to be entered (R405, R408) -/
  resetFrom : Option Nat := none
  gating : Bool := false
  islctl : Store Word := []
  /-- islands whose frequency the temperature halves, and whether the power limit lowers frequencies (R407) -/
  throttled : List Nat := []
  powerLow : Bool := false
  pwrlim : Word := 1700
  pkgctl : Bool := false
  exiting : Bool := false
  deriving DecidableEq, Repr

/-- Where the machine stops with a fault. -/
inductive Fault where
  /-- The agenda names a core, 72 or above, that the device does not have (R10). Raised by `step`. Safe: no run from
  reset writes such an entry, and the device has no behaviour there. -/
  | noSuchCore (core : Nat)
  deriving DecidableEq, Repr

/-- Where the model has no meaning. -/
inductive Refusal where
  /-- The instruction has no meaning yet; raised by an arm of `exec`. Safe: it stops where the hardware goes on. -/
  | notModelled (mnemonic : String)
  deriving DecidableEq, Repr

/-- The machine right after reset: every field at the value the specification gives, or at the one log entry 3, marked DESIGN CHOICE, names;
nothing bound, nothing in any memory, BOOTST.STATE 0. -/
def State.reset : State := {}

end Sys2Proof.Machine
end

