-- ==== Sys2Proof/Machine/Memory.lean ====
section
/-!
DEFINITION. Reading and writing the byte memories, with the error state of their 8-byte words. A byte that nothing has
written reads 0 (log entry 6, DESIGN CHOICE).
-/

namespace Sys2Proof.Machine

/-- Removes repeats. -/
def nub {α : Type} [BEq α] : List α → List α
  | [] => []
  | a :: rest => if rest.contains a then nub rest else a :: nub rest

/-- What an unlisted address reads as (log entry 6, DESIGN CHOICE). -/
def emptyByte : Byte := 0

/-- The byte at `a`. -/
def Ram.byte (r : Ram) (a : Nat) : Byte := Store.get emptyByte r.bytes a

/-- `r` with the byte at `a` replaced; the canonical form is kept. -/
def Ram.setByte (r : Ram) (a : Nat) (b : Byte) : Ram := { r with bytes := Store.set emptyByte r.bytes a b }

/-- `n` bytes from `a` on, lowest address first. -/
def Ram.read (r : Ram) (a : Nat) : Nat → List Byte
  | 0 => []
  | n + 1 => r.byte a :: r.read (a + 1) n

/-- `r` with bytes from `a` on replaced. -/
def Ram.write (r : Ram) (a : Nat) : List Byte → Ram
  | [] => r
  | b :: rest => Ram.write (r.setByte a b) (a + 1) rest

/-- The little-endian number of `n` bytes at `a` (R6). -/
def Ram.num (r : Ram) (a n : Nat) : Nat := ofBytes (r.read a n)

/-- `r` with the error state of word `w` replaced. -/
def Ram.setMark (r : Ram) (w : Nat) (m : Mark) : Ram := { r with marks := Store.set .clean r.marks w m }

/-- The bytes of word `w` that lie in `a` to `a + n - 1`. -/
def coveredBytes (a n w : Nat) : BitVec 8 :=
  BitVec.ofNat 8 (((List.range 8).filter fun i => decide (a ≤ 8 * w + i) && decide (8 * w + i < a + n)).foldl
    (fun x i => x + 2 ^ i) 0)

/-- A word's mark after its bytes `c` are stored, those of `new` among them poisoned: a word stored whole is encoded anew; one
stored in part keeps its error; the bytes stored are poisoned or clean with the value (log entry 9, DEDUCED). -/
def Mark.merged (m : Mark) (c new : BitVec 8) : Mark :=
  match m with
  | .poisoned p => .ofBytes (p &&& ~~~c ||| new)
  | .clean => .ofBytes new
  | m => if c = 0xFF then .ofBytes new else m

/-- A word's mark after a store of one poison bit to the bytes `c` of it. -/
def Mark.stored (m : Mark) (c : BitVec 8) (psn : Bool) : Mark := m.merged c (if psn then c else 0)

/-- What a store of `n` bytes at `a` does to the marks of `k` words from word `w` on. -/
def Ram.markStore (r : Ram) (a n : Nat) (psn : Bool) : Nat → Nat → Ram
  | _, 0 => r
  | w, k + 1 =>
    Ram.markStore (r.setMark w ((Store.get .clean r.marks w).stored (coveredBytes a n w) psn)) a n psn (w + 1) k

/-- A store of bytes with one poison bit. -/
def Ram.store (r : Ram) (a : Nat) (data : List Byte) (psn : Bool) : Ram :=
  (r.write a data).markStore a data.length psn (a / 8) ((a + data.length + 7) / 8 - a / 8)

/-- The bytes of a word that satisfy `p`, by address. -/
def wordMask (w : Nat) (p : Nat → Bool) : BitVec 8 :=
  BitVec.ofNat 8 (((List.range 8).filter fun i => p (8 * w + i)).foldl (fun x i => x + 2 ^ i) 0)

/-- The marks of `ws` after the bytes of `cs`, those of `psn` poisoned, are merged into their words. -/
def Ram.mergeMarks (r : Ram) (cs : List Host.Cell) (psn : List Nat) : List Nat → Ram
  | [] => r
  | w :: ws =>
    Ram.mergeMarks (r.setMark w ((Store.get .clean r.marks w).merged (wordMask w fun a => cs.any fun c => c.1 == a)
      (wordMask w psn.contains))) cs psn ws

/-- `r` with the bytes of `cs` put in. -/
def Ram.setBytes (r : Ram) : List Host.Cell → Ram
  | [] => r
  | c :: cs => Ram.setBytes (r.setByte c.1 c.2) cs

/-- Merges single bytes into a memory, those of `psn` poisoned (R69, R78). -/
def Ram.storeCells (r : Ram) (cs : List Host.Cell) (psn : List Nat) : Ram :=
  (r.setBytes cs).mergeMarks cs psn (nub (cs.map fun c => c.1 / 8))

/-- Bytes `a` to `a + n - 1` become zero and clean. -/
def Ram.clear (r : Ram) (a n : Nat) : Ram :=
  { bytes := r.bytes.filter fun c => !(decide (a ≤ c.1) && decide (c.1 < a + n))
    marks := r.marks.filter fun c => !(decide (a ≤ 8 * c.1) && decide (8 * c.1 < a + n)) }

/-- The part of a memory from `a` to `a + n - 1`. -/
def Ram.slice (r : Ram) (a n : Nat) : Ram :=
  { bytes := r.bytes.filter fun c => decide (a ≤ c.1) && decide (c.1 < a + n)
    marks := r.marks.filter fun c => decide (a ≤ 8 * c.1) && decide (8 * c.1 < a + n) }

/-- `r` with everything listed in `d` put in. -/
def Ram.merge (r d : Ram) : Ram :=
  { bytes := d.bytes.foldl (fun m c => Store.set emptyByte m c.1 c.2) r.bytes
    marks := d.marks.foldl (fun m c => Store.set .clean m c.1 c.2) r.marks }

/-- The error state of a word as the bytes `c` of it see it. -/
def Mark.seen (m : Mark) (c : BitVec 8) : Mark :=
  match m with
  | .poisoned p => .ofBytes (p &&& c)
  | m => m

/-- The worst error state of the bytes a to a + n - 1: that of their words, and the poison of the bytes themselves. -/
def Ram.worst (r : Ram) (a n : Nat) : Mark :=
  let ms := (List.range ((a + n + 7) / 8 - a / 8)).map fun i =>
    (Store.get .clean r.marks (a / 8 + i)).seen (coveredBytes a n (a / 8 + i))
  if ms.contains .bad then .bad
  else match ms.find? Mark.isPoisoned with
    | some m => m
    | none => if ms.contains .corrected then .corrected else .clean

/-- The canonical form of a memory. -/
def Ram.wf (r : Ram) : Bool := Store.wf emptyByte r.bytes && Store.wf .clean r.marks

/-- Every saved context of a task, checkpoints included, holds a scratchpad in its canonical form. -/
def Task.savesWf (t : Task) : Bool :=
  t.saves.all (fun x => x.scratch.wf) && t.ckpts.all fun c => c.2.2.2.all fun x => x.scratch.wf

/-- Every memory of the device is in its canonical form, those that saved contexts hold included. -/
def Memory.wf (s : State) : Bool :=
  s.hbm.wf && s.cp.wf && s.host.wf && s.saiga.wf && s.cores.all (fun c => c.2.scratch.wf)
    && s.clusters.all (fun c => c.2.cm.wf) && s.tasks.all fun t => t.2.savesWf

end Sys2Proof.Machine
end

