-- ==== Sys2Proof/Machine/Ops.lean ====
section
/-!
DEFINITION. The named operations over the state: cores, registers, events, charges to the error budget, taking a trap
and returning from one. Every meaning goes through these.
-/

namespace Sys2Proof.Machine

/-- What executing an instruction gives. -/
abbrev Result := Host.Outcome State Fault Refusal

/-! ### Components -/

/-- Core `c`. -/
def State.getCore (s : State) (c : Nat) : Core := Store.get {} s.cores c
/-- `s` with core `c` replaced. -/
def State.setCore (s : State) (c : Nat) (k : Core) : State := { s with cores := Store.set {} s.cores c k }
/-- `s` with core `c` changed by `f`. -/
def State.modCore (s : State) (c : Nat) (f : Core → Core) : State := s.setCore c (f (s.getCore c))
/-- The core whose sequencer executes. -/
def State.cur (s : State) : Core := s.getCore s.core
/-- `s` with the executing core changed. -/
def State.modCur (s : State) (f : Core → Core) : State := s.modCore s.core f
/-- The executing sequencer. -/
def State.q (s : State) : Seq := s.cur.seq
/-- `s` with the executing sequencer changed. -/
def State.modQ (s : State) (f : Seq → Seq) : State := s.modCur fun k => { k with seq := f k.seq }

/-- The cluster of core `c` (R10), its number being cy × 12 + cx. -/
def clusterOf (c : Nat) : Nat := (c / 36 * 2 + c % 12 / 6) * 3 + c % 6 / 2
/-- The number of core `c` within its cluster (R10). -/
def withinOf (c : Nat) : Nat := c % 2 + 2 * (c / 12 % 3)
/-- The core with number `w` within cluster `cl` (R10). -/
def coreAt (cl w : Nat) : Nat := (cl / 6 * 3 + w / 2) * 12 + cl / 3 % 2 * 6 + cl % 3 * 2 + w % 2
/-- The six cores of a cluster. -/
def coresOf (cl : Nat) : List Nat := (List.range 6).map (coreAt cl)

/-- Cluster `c`. -/
def State.getCluster (s : State) (c : Nat) : Cluster := Store.get {} s.clusters c
/-- `s` with cluster `c` changed. -/
def State.modCluster (s : State) (c : Nat) (f : Cluster → Cluster) : State :=
  { s with clusters := Store.set {} s.clusters c (f (s.getCluster c)) }
/-- The executing core's cluster number. -/
def State.cluster (s : State) : Nat := clusterOf s.core

/-- Partition `p`. -/
def State.getPart (s : State) (p : Nat) : Part := Store.get {} s.parts p
/-- `s` with partition `p` changed. -/
def State.modPart (s : State) (p : Nat) (f : Part → Part) : State :=
  { s with parts := Store.set {} s.parts p (f (s.getPart p)) }

/-- Task `t`. -/
def State.getTask (s : State) (t : Nat) : Task := Store.get {} s.tasks t
/-- `s` with task `t` changed. -/
def State.modTask (s : State) (t : Nat) (f : Task → Task) : State :=
  { s with tasks := Store.set {} s.tasks t (f (s.getTask t)) }

/-- Stamp `i`. -/
def State.getStamp (s : State) (i : Nat) : Stamp := Store.get {} s.stamps i
/-- `s` with stamp `i` changed. -/
def State.modStamp (s : State) (i : Nat) (f : Stamp → Stamp) : State :=
  { s with stamps := Store.set {} s.stamps i (f (s.getStamp i)) }
/-- Copy `c` of a stamp. -/
def Stamp.copy (st : Stamp) (c : Nat) : Copy := st.copies.getD c {}
/-- A stamp with copy `c` changed. -/
def Stamp.modCopy (st : Stamp) (c : Nat) (f : Copy → Copy) : Stamp :=
  { st with copies := st.copies.modify c f }
/-- `s` with a copy changed. -/
def State.modCopy (s : State) (i c : Nat) (f : Copy → Copy) : State := s.modStamp i fun st => st.modCopy c f

/-- The member cycle count of the member that loaded a stamp. -/
def State.stampMcc (s : State) (st : Stamp) : Nat := (s.getCore st.core).seq.mcc.toNat

/-- The 72 core numbers (R10). -/
def allCores : List Nat := List.range 72

/-- The binding of core `c`, or that of no member. -/
def Core.binding (k : Core) : Binding := k.bind.getD { task := 0 }
/-- The binding of the executing member. -/
def State.me (s : State) : Binding := s.cur.binding
/-- The kernel class of the executing member: 0 P, 1 D, 2 N (R78). -/
def State.kclass (s : State) : Nat := s.me.kclass

/-- Ticks of so many microseconds (R8). -/
def usTicks (us : Nat) : Nat := 1000 * us

/-- Puts actions at the front of the agenda: they happen next, in this order. -/
def State.soon (s : State) (as : List Action) : State := { s with agenda := as ++ s.agenda }
/-- Puts actions at the end of the agenda, before the arbiter's turn, which ends the cycle (R324). -/
def State.later (s : State) (as : List Action) : State :=
  match s.agenda.getLast? with
  | some (.event .eventTaken) => { s with agenda := s.agenda.dropLast ++ as ++ [.event .eventTaken] }
  | _ => { s with agenda := s.agenda ++ as }
/-- Sends something outside. -/
def State.send (s : State) (o : Out) : State := { s with out := s.out ++ [o] }

/-! ### Free values and timing choices -/

/-- The next free 64-bit value, which nothing constrains (log entry 4, DESIGN CHOICE), and the state that has used it. -/
def State.free (s : State) : Word × State := (Config.freeWord s.freeCount, { s with freeCount := s.freeCount + 1 })
/-- The next choice of the oracle: what the specification leaves to time (log entry 5, DESIGN CHOICE). -/
def State.choice (s : State) : Nat := s.oracle.headD 0
/-- The state that has used it. -/
def State.chosen (s : State) : State := { s with oracle := s.oracle.tail }

/-! ### Sequencer registers -/

/-- A register; g0 reads as zero with poison clear (R134, R193). -/
def Seq.reg (q : Seq) (r : Reg) : GReg := if r = 0 then {} else Store.get {} q.regs r.toNat
/-- Writes a register; a write to g0 is discarded. -/
def Seq.setReg (q : Seq) (r : Reg) (g : GReg) : Seq :=
  if r = 0 then q else { q with regs := Store.set {} q.regs r.toNat g }
/-- A register of the executing member. -/
def State.g (s : State) (r : Reg) : GReg := s.q.reg r
/-- Writes a register of the executing member. -/
def State.setG (s : State) (r : Reg) (v : Word) (psn : Bool) : State := s.modQ fun q => q.setReg r ⟨v, psn⟩
/-- The program counter moves on by `n` bytes. -/
def State.advance (s : State) (n : Nat) : State := s.modQ fun q => { q with pc := q.pc + BitVec.ofNat 64 n }
/-- The program counter becomes `a`. -/
def State.goto (s : State) (a : Word) : State := s.modQ fun q => { q with pc := a }
/-- The sequencer's wait becomes `w`. -/
def State.setWait (s : State) (w : Wait) : State := s.modQ fun q => { q with wait := w }

/-- The instruction is held and has had no effect yet; it is tried again in the next cycle, and no asynchronous trap comes
between (R30). -/
def State.poll (s : State) : Result := .next (s.setWait .poll)

/-- An instruction's result in `d`, poisoned when a register it reads is (R195), and the next instruction. -/
def State.result (s : State) (d : Reg) (v : Word) (psn : Bool) (n : Nat := 4) : State := (s.setG d v psn).advance n

/-! ### Power islands -/

/-- ISLCTL at reset: on, at 36 × 50 MHz (R406). -/
def islReset : Word := 0x242400
/-- ISLCTL of an island (R406). -/
def State.isl (s : State) (i : Nat) : Word := Store.get islReset s.islctl i
/-- `s` with ISLCTL of an island replaced. -/
def State.setIsl (s : State) (i : Nat) (w : Word) : State := { s with islctl := Store.set islReset s.islctl i w }

/-- CUR of ISLCTL: 0 on, 1 gated, 2 changing, 3 throttled (R406). -/
def islCur (w : Word) : Nat := w.fld 31 30
/-- FNOW. -/
def islNow (w : Word) : Nat := w.fld 23 16
/-- FREQ. -/
def islFreq (w : Word) : Nat := w.fld 15 8

/-- Whether an island's clock begins a cycle in the present one of the 1.8 GHz clock: FNOW times in 36 (R8, R406, log entry 97, DESIGN
CHOICE); an island that is gated or changes issues nothing. -/
def State.ticks (s : State) (i : Nat) : Bool :=
  islCur (s.isl i) != 1 && islCur (s.isl i) != 2 && decide (Store.get 0 s.islPhase i < islNow (s.isl i))

/-! ### Events -/

/-- Presents an event to the arbiter from a source; cores are sources 0 to 71, L2 slices follow, then the memory
controllers, the Lomid ports, the host port and Saiga (R324). -/
def State.present (s : State) (order : Nat) (e : Event) : State := { s with pending := s.pending ++ [⟨order, e⟩] }
/-- The places of the sources after the cores (R324): slices are 72 + slice. -/
def orderSlice (sl : Nat) : Nat := 72 + sl % 4096
/-- The memory controllers. -/
def orderMem : Nat := 5000
/-- The Lomid ports. -/
def orderLomid : Nat := 5001
/-- The host port. -/
def orderHost : Nat := 5002
/-- Saiga. -/
def orderSaiga : Nat := 5003

/-- Free entries of the audit log (R378). -/
def State.auditFree (s : State) : Nat := 65536 - s.audit.length

/-- Free entries once those that wait for the arbiter are appended (R378). -/
def State.auditRoom (s : State) : Nat :=
  s.auditFree - (s.pending.filter fun p => match p.ev with
    | .audit .. => true
    | _ => false).length

/-- An audited action for which no entry is free has no effect yet: its source holds it and presents it again (R378). -/
def State.audited (s : State) (e : Ev) (k : State → State) : State :=
  if s.auditRoom = 0 then { s with inputs := s.inputs ++ [e] } else k s

/-- The part of TCAUSE that a trap gives (R227). -/
def Trap.cause (t : Trap) : Word :=
  BitVec.ofNat 64 (t.code % 256 + t.src % 4 * 2 ^ 18 + t.unit % 16 * 2 ^ 20 + t.detail % 256 * 2 ^ 24)

/-- Whether trace kind `k` is on for the task of core `c` (R394): KMASK enables the kind, and the task was launched with debugging. -/
def State.traces (s : State) (c k : Nat) : Bool :=
  let b := (s.getCore c).binding
  b.dbg && (s.getPart b.part).dbgcfg.bit (53 + k)

/-- Makes a trace record of core `c` where its kind is enabled (R396). -/
def State.trace (s : State) (c k unit node : Nat) (d0 d1 d2 d3 : Word) : State :=
  if s.traces c k then
    s.present c (.trace (s.getCore c).binding.part (s.getCore c).seq.mcc k c unit node d0 d1 d2 d3)
  else s

/-! ### The error budget -/

/-- The budget-exhaustion trap (R81, R228). -/
def budgetTrap : Trap := { code := 20, src := 3 }

/-- Whether a member of the core is one that the trap reaches: Running, Waiting or Frozen. -/
def Core.live (k : Core) : Bool := k.mstate == .running || k.mstate == .waiting || k.mstate == .frozen

/-- The place in the arbiter's order of a trap that the source `order` raises in this cycle (R324). -/
def State.trapKey (s : State) (order : Nat) : Nat := s.cycle * 8192 + order % 8192

/-- Traps with one more, after those that the arbiter's order puts before it (R229, R324). -/
def insertTrap (x : HeldTrap) : List HeldTrap → List HeldTrap
  | [] => [x]
  | y :: ys => if y.key ≤ x.key then y :: insertTrap x ys else x :: y :: ys

/-- The sequencer with an asynchronous trap of a place in the arbiter's order held. -/
def Seq.holdTrap (q : Seq) (key : Nat) (t : Trap) : Seq := { q with traps := insertTrap ⟨key, t⟩ q.traps }

/-- Gives an asynchronous trap that the source `order` raises to core `c`. -/
def State.holdTrap (s : State) (c order : Nat) (t : Trap) : State :=
  s.modCore c fun k => { k with seq := k.seq.holdTrap (s.trapKey order) t }

/-- A saved context with one more trap held. -/
def SavedCtx.holdTrap (x : SavedCtx) (key : Nat) (t : Trap) : SavedCtx := { x with seq := x.seq.holdTrap key t }

/-- The budget-exhaustion trap to every member of every Running or Saved task of partition `p` (R81); those whose context is captured
have it in their saved context. -/
def State.trapPart (s : State) (p order : Nat) (t : Trap) : State :=
  let key := s.trapKey order
  let s := allCores.foldl
    (fun s c => if (s.getCore c).live && (s.getCore c).binding.part == p then s.holdTrap c order t else s) s
  { s with tasks := s.tasks.map fun kv =>
      (kv.1, if kv.2.part == p && (kv.2.state == .saved || kv.2.state == .running) then
        { kv.2 with saves := kv.2.saves.map fun x => x.holdTrap key t } else kv.2) }

/-- Charges `n` errors to partition `p`, found by the source `order` (R80, R81). -/
def State.charge (s : State) (p n order : Nat) : State :=
  let e := (s.getPart p).ebud
  let count := min (e.fld 23 0 + n) 0xFFFFFF
  let hit := decide (e.fld 47 24 ≤ count) && !e.bit 63 && decide (n ≠ 0)
  let s := s.modPart p fun pt => { pt with ebud := (e.put 23 0 count).put 63 63 (if hit then 1 else e.fld 63 63) }
  if hit then
    let s := s.present order (.saiga 0 p 2 0 0 0 0 0xFF)
    if e.bit 62 then s.trapPart p order budgetTrap else s
  else s

/-! ### Traps -/

/-- A task number and its partition, as TABORT lays them out (R331). -/
def abortWord (part task : Nat) : Word := BitVec.ofNat 64 (part % 2 ^ 16 * 2 ^ 32 + task % 2 ^ 32)

/-- The member of core `c` enters the Faulted state by trap `t` (R229, R30): its trap registers keep the cause (R353), a
class-1 record is made (R322), with which the abort of its task follows (R325, R353), and its barriers break (R33); a replay's fault
goes no further than its record (R400). -/
def State.faultMember (s : State) (c : Nat) (t : Trap) : State :=
  let k := s.getCore c
  let b := k.binding
  let s := s.setCore c { k with
    mstate := .faulted, seq := { k.seq with tcause := t.cause, tval := t.tval, wait := .none } }
  let s := s.present c (.saiga t.tval b.part 1 t.code t.detail t.unit t.src c)
  if k.replay.isSome then s else s.soon [.event (.memberGone b.task b.memb)]

/-- Taking a trap with TVEC.EN = 1 (R229): TEPC, TCAUSE and TVAL are written, EN is cleared, the member is in its
handler and continues at VEC × 4. `epc` is the return address. -/
def State.enterHandler (s : State) (c : Nat) (t : Trap) (epc : Word) : State :=
  let s := s.modCore c fun k =>
    { k with mstate := .running, seq := { k.seq with
        tepc := epc, tcause := t.cause, tval := t.tval, tvec := k.seq.tvec.put 0 0 0, inHandler := true
        pc := BitVec.ofNat 64 (k.seq.tvec.fld 63 2 * 4), wait := .none } }
  s.trace c 6 0 0 t.cause t.tval epc 0

/-- A trap of core `c` with return address `epc`: to the handler with EN = 1, else the member is Faulted (R229). -/
def State.trapAt (s : State) (c : Nat) (t : Trap) (epc : Word) : State :=
  if (s.getCore c).seq.tvec.bit 0 then s.enterHandler c t epc else s.faultMember c t

/-- A synchronous, precise trap of the executing instruction (R229): the instruction has no effect. -/
def State.trap (s : State) (t : Trap) : State := s.trapAt s.core t s.q.pc

/-- The return from a trap (R230): EN becomes 1 and execution continues at TEPC. -/
def State.trapReturn (s : State) : State :=
  s.modQ fun q => { q with tvec := q.tvec.put 0 0 1, inHandler := false, pc := q.tepc }

/-- What an instruction gives whose checks may end in a trap. -/
def finish (s : State) : Except Trap State → Result
  | .ok s' => .next s'
  | .error t => .next (s.trap t)

/-- The illegal-instruction trap of a first word (R143, R227). -/
def illegalTrap (w : BitVec 32) : Trap := { code := 2, tval := BitVec.setWidth 64 w }
/-- The fetch fault: an instruction at `va` that cannot be fetched (R143, R200). -/
def fetchTrap (va : Word) : Trap := { code := 3, tval := va }
/-- The alignment fault. -/
def alignTrap (va : Word) : Trap := { code := 4, tval := va }
/-- The access fault. -/
def accessTrap (va : Word) : Trap := { code := 5, tval := va }
/-- The scratch-range fault. -/
def scratchTrap (off : Word) : Trap := { code := 6, tval := off }
/-- The operand-range fault. -/
def rangeTrap : Trap := { code := 7 }
/-- The privilege fault. -/
def privTrap : Trap := { code := 8 }
/-- The data-error fault. -/
def dataTrap (va : Word) : Trap := { code := 12, tval := va }

/-- The data-error fault of R78 and R195: a poisoned register used as an address, a condition or a count in a class-D
kernel. -/
def State.needClean (s : State) (psn : Bool) : Except Trap Unit :=
  if psn && s.kclass == 1 then .error (dataTrap 0) else .ok ()

end Sys2Proof.Machine
end

