-- ==== Sys2Proof/Machine/Flags.lean ====
section
/-!
DEFINITION. FPCTL: the sticky flags, the rounding mode and the write of the register (R7, R87).
-/

namespace Sys2Proof.Machine

/-- Flags as bits 7:3 of FPCTL. -/
def flagBits (f : Fp.Flags) : Nat :=
  bit01 f.nv * 128 + bit01 f.dz * 64 + bit01 f.of * 32 + bit01 f.uf * 16 + bit01 f.nx * 8

/-- FPCTL with the flags of an instruction added to those it holds (R87, R199). -/
def addFlags (w : Word) (f : Fp.Flags) : Word := w ||| BitVec.ofNat 64 (flagBits f)

/-- FPCTL.RM. -/
def fpRm (w : Word) : Nat := w.fld 2 0

/-- FPCTL.SEED. -/
def fpSeed (w : Word) : BitVec 32 := BitVec.ofNat 32 (w.fld 63 32)

/-- A write of FPCTL (R7, R87): SEED is written; NV to NX are cleared where a 1 is written; a write of 6 or 7 leaves RM
unchanged. -/
def writeFpctl (old v : Word) : Word :=
  let w := (old.put 63 32 (v.fld 63 32)).put 7 3 ((old &&& ~~~v).fld 7 3)
  if v.fld 2 0 < 6 then w.put 2 0 (v.fld 2 0) else w

end Sys2Proof.Machine
end

