-- ==== Sys2Proof/Machine/Translate.lean ====
section
/-!
DEFINITION. From a virtual address to a place in memory: page tables and their walk (R345), the TLBs (R346, R351), the
physical spaces (R383), the frame check (R368 to R370), and what an access leaves in the L2 and the directory (R365,
R366, R384).
-/

namespace Sys2Proof.Machine

/-! ### Leaves -/

/-- TYPE of a leaf: 0 CO, 1 CC, 2 PN, 3 RP, 4 UC. -/
def leafType (l : Word) : Nat := l.fld 61 59
/-- CLASS of a leaf: 0 P, 1 D, 2 N. -/
def leafClass (l : Word) : Nat := l.fld 58 57
/-- HC of a leaf. -/
def leafHc (l : Word) : Bool := l.bit 56
/-- The physical page address of a leaf. -/
def leafPa (l : Word) : Nat := l.fld 51 16 * 65536

/-- The rule that R383 gives for the physical space a leaf selects. -/
def spaceOk (l : Word) : Bool :=
  match l.fld 51 50 with
  | 0 => true
  | 1 => if leafHc l then leafType l == 0 else leafType l == 4
  | 2 => leafType l == 4 && !leafHc l && l.fld 49 48 == 0 && l.fld 39 16 == 0
  | _ => false

/-- Whether an entry is a well-formed leaf of a page of `size` bytes at level `lv` (R345). -/
def leafOk (l : Word) (lv size : Nat) : Bool :=
  l.bit 63 && l.bit 62 && decide (leafType l < 5) && decide (leafClass l < 3) && !l.bit 52 && l.fld 3 0 == 0
    && (leafType l == 2 || l.fld 15 4 == 0) && leafPa l % size == 0 && (lv != 1 || leafClass l == 2) && spaceOk l

/-- Whether an entry is a well-formed pointer to a table (R345). -/
def nodeOk (e : Word) : Bool := e.bit 63 && !e.bit 62 && e.fld 61 52 == 0 && e.fld 7 0 == 0

/-- Entry `i` of the table at `t`; the walk reads HBM through the L2. -/
def State.tableEntry (s : State) (t i : Nat) : Word := BitVec.ofNat 64 (s.hbm.num (t + 8 * i) 8)

/-- Levels of R345: number, lowest index bit, entries, whether a pointer is allowed, whether a leaf is. -/
def levels : List (Nat × Nat × Nat × Bool × Bool) :=
  [(0, 39, 512, true, false), (1, 30, 512, true, true), (2, 21, 512, true, true), (3, 16, 32, false, true)]

/-- The walk from table `t` over the levels still to come: the leaf and its page size. -/
def State.walkFrom (s : State) (va : Nat) : Nat → List (Nat × Nat × Nat × Bool × Bool) → Option (Word × Nat)
  | _, [] => none
  | t, (lv, lo, n, ptr, leaf) :: rest =>
    let e := s.tableEntry t (va / 2 ^ lo % n)
    if leaf && leafOk e lv (2 ^ lo) then some (e, 2 ^ lo)
    else if ptr && nodeOk e then s.walkFrom va (e.fld 51 8 * 256) rest
    else none

/-- The leaf that partition `p`'s page table gives an address below 2^48, with its page size (R345). -/
def State.walk (s : State) (p : Nat) (va : Nat) : Option (Word × Nat) :=
  let root := (s.getPart p).ptroot
  if root.bit 0 && decide (va < 2 ^ 48) then s.walkFrom va (root.fld 51 12 * 4096) levels else none

/-! ### L2 and directory -/

/-- The set of the L2 that holds a line: the slice a PN leaf names or the hash (R67), and the set within it, bits 12:7 of the address
(R379). -/
def l2Key (leaf : Word) (line : Nat) : Nat :=
  (if leafType leaf == 2 then leaf.fld 15 4 else Config.homeSlice line % 4096) * 64 + line % 64

/-- The slice of a set. -/
def sliceOf (key : Nat) : Nat := key / 64

/-- The last line of a list that may be replaced: unlocked and in a masked way. The list runs from the most to the
least recently used. -/
def victim (mask : BitVec 16) (ls : List L2Line) : Option L2Line :=
  (ls.reverse.find? fun l => !l.locked && mask.getLsbD l.way)

/-- A set after an access to `line` by owner `lpi`: a hit becomes the most recently used; a miss of an access that allocates does so in
a free masked way, else in the place of the victim, else nowhere (R366, R379). -/
def touchSet (alloc : Bool) (mask : BitVec 16) (lpi line : Nat) (ls : List L2Line) : List L2Line :=
  match ls.find? fun l => l.line == line with
  | some l => l :: ls.filter fun k => k.line != line
  | none =>
    if !alloc then ls else
    match (List.range 16).find? fun w => mask.getLsbD w && ls.all fun l => l.way != w with
    | some w => ⟨w, line, lpi, false⟩ :: ls
    | none =>
      match victim mask ls with
      | some v => ⟨v.way, line, lpi, false⟩ :: ls.filter fun k => k.way != v.way
      | none => ls

/-- An access to a line, at the L2, that fills for owner `lpi` into the ways of `mask`. -/
def State.touchLine (s : State) (alloc : Bool) (mask : BitVec 16) (lpi : Nat) (leaf : Word) (line : Nat) : State :=
  let key := l2Key leaf line
  { s with l2 := Store.set [] s.l2 key (touchSet alloc mask lpi line (Store.get [] s.l2 key)) }

/-- An access of partition `p` to a line, at the L2 (R365); one to a UC page does not allocate (R379). -/
def State.touchL2 (s : State) (p : Nat) (leaf : Word) (pa : Nat) : State :=
  let pt := s.getPart p
  s.touchLine (leafType leaf != 4) pt.mask (pt.prect.fld 62 59) leaf (pa / 128)

/-- The addresses of the table entries that a walk reads (R345). -/
def State.walkReads (s : State) (va : Nat) : Nat → List (Nat × Nat × Nat × Bool × Bool) → List Nat
  | _, [] => []
  | t, (lv, lo, n, ptr, leaf) :: rest =>
    let i := va / 2 ^ lo % n
    let e := s.tableEntry t i
    (t + 8 * i) :: (if leaf && leafOk e lv (2 ^ lo) then [] else if ptr && nodeOk e then s.walkReads va (e.fld 51 8 * 256) rest else [])

/-- A fill for owner 0, which may take any way (R365, R379). -/
def State.touchOwn (s : State) (pa : Nat) : State := s.touchLine true 0xFFFF 0 0 (pa / 128)

/-- What a walk leaves in the L2: the lines of the entries it reads, with owner 0, in any way (R346, R365, R379). -/
def State.touchWalk (s : State) (p va : Nat) : State :=
  let root := (s.getPart p).ptroot
  if root.bit 0 && decide (va < 2 ^ 48) then
    (s.walkReads va (root.fld 51 12 * 4096) levels).foldl State.touchOwn s
  else s

/-! ### TLBs -/

/-- Which TLB an access uses (R346). -/
inductive TlbSel where
  | seq | eng | port (lane : Nat)
  deriving DecidableEq, Repr

/-- That TLB of a core. -/
def Core.tlb (k : Core) : TlbSel → List TlbEntry
  | .seq => k.seqTlb
  | .eng => k.engTlb
  | .port l => Store.get [] k.portTlb l

/-- A core with that TLB replaced. -/
def Core.setTlb (k : Core) (t : List TlbEntry) : TlbSel → Core
  | .seq => { k with seqTlb := t }
  | .eng => { k with engTlb := t }
  | .port l => { k with portTlb := Store.set [] k.portTlb l t }

/-- How many entries the TLB has (R346). -/
def TlbSel.capacity : TlbSel → Nat
  | .port _ => 64
  | _ => 256

/-- Whether an entry covers an address of a partition. -/
def TlbEntry.covers (e : TlbEntry) (p va : Nat) : Bool := e.part == p && decide (e.va ≤ va) && decide (va < e.va + e.size)

/-- The physical address an entry gives. -/
def TlbEntry.pa (e : TlbEntry) (va : Nat) : Nat := leafPa e.leaf + (va - e.va)

/-- Whether two entries agree on an address in PA, TYPE, CLASS, HC, RD, WR and EX (R351). -/
def TlbEntry.agree (e f : TlbEntry) (va : Nat) : Bool := e.pa va == f.pa va && e.leaf.fld 61 53 == f.leaf.fld 61 53

/-- The entry with the smallest page. -/
def smallest : List TlbEntry → Option TlbEntry
  | [] => none
  | e :: rest =>
    match smallest rest with
    | none => some e
    | some f => if f.size < e.size then some f else some e

/-- What a translation gives. -/
inductive Xlate where
  | ok (leaf : Word) (pa : Nat)
  /-- no valid translation, or permission missing (R348) -/
  | missing
  /-- a stale and a new entry differ (R351) -/
  | conflict
  deriving DecidableEq, Repr

/-- Whether a leaf permits an access of KIND 0 read, 1 write, 2 fetch, 3 atomic; a store to host memory also needs HC
(R346). -/
def permits (l : Word) (kind : Nat) : Bool :=
  match kind with
  | 0 => l.bit 55
  | 2 => l.bit 53
  | _ => l.bit 54 && (l.fld 51 50 != 1 || leafHc l)

/-- The class of a CO page after core `c` fills a translation for it (R384). -/
def PageClass.fill (c : Nat) : Option PageClass → PageClass
  | none => .priv c
  | some (.priv d) => if d = c then .priv c else if clusterOf d = clusterOf c then .clus (clusterOf c) else .dir
  | some (.clus k) => if k = clusterOf c then .clus k else .dir
  | some .dir => .dir

/-- A core without the L1 lines that satisfy `p`. -/
def Core.dropLines (k : Core) (p : L1Line → Bool) : Core :=
  { k with l1 := (k.l1.map fun kv => (kv.1, kv.2.filter fun x => !p x)).filter fun kv => !kv.2.isEmpty }

/-- The cores that satisfy `cs` lose the L1 lines that satisfy `p`. -/
def State.dropL1 (s : State) (cs : Nat → Bool) (p : L1Line → Bool) : State :=
  { s with cores := s.cores.map fun kv => if cs kv.1 then (kv.1, kv.2.dropLines p) else kv }

/-- Notes that core `c` filled a translation of a CO page of HBM (R384): the page's class after it, and the entry as one that the class
lasts with. A promotion first recalls the page's lines from the L1s of its old class. -/
def State.noteFill (s : State) (c : Nat) (e : TlbEntry) : State :=
  if leafType e.leaf == 0 && e.leaf.fld 51 50 == 0 then
    let key := leafPa e.leaf / 65536
    let old := (s.pageClass.find? fun kv => kv.1 == key).map Prod.snd
    let new := PageClass.fill c old
    let s := if old.isSome && old != some new then
        s.dropL1 (fun _ => true) fun x => decide (512 * key ≤ x.line) && decide (x.line < 512 * key + e.size / 128)
      else s
    { s with
      pageClass := Store.insert (Store.erase s.pageClass key) key new
      classified := if s.classified.contains (e.part, e.va, e.size, key) then s.classified
        else s.classified ++ [(e.part, e.va, e.size, key)] }
  else s

/-- First address and length of the range being invalidated. -/
def State.invRange (s : State) : Nat × Nat := (s.tlbinv.fld 47 16 * 65536, s.tlbinvsz.toNat * 65536)

/-- Whether an entry overlaps the range being invalidated. -/
def State.invHits (s : State) (e : TlbEntry) : Bool :=
  e.part == s.tlbinv.fld 15 0 && decide (e.va < s.invRange.1 + s.invRange.2) && decide (s.invRange.1 < e.va + e.size)

/-- Whether an invalidation of the page of an address is in progress (R348, R351): of the address's own 64 KiB, or of a cached translation
of it. -/
def State.invalidates (s : State) (p va : Nat) (hits : List TlbEntry) : Bool :=
  !s.tlbinv.bit 63
    && ((⟨p, va / 65536 * 65536, 65536, 0⟩ : TlbEntry) :: hits).any s.invHits

/-- Translates an address of partition `p` for core `c` through a TLB, filling it by a walk on a miss. -/
def State.xlate (s : State) (c : Nat) (sel : TlbSel) (p : Nat) (va : Word) (kind : Nat) : Xlate × State :=
  let a := va.toNat
  let tlb := (s.getCore c).tlb sel
  let hits := tlb.filter fun e => e.covers p a
  match smallest hits with
  | some e =>
    if hits.all fun f => e.agree f a then
      if permits e.leaf kind then (.ok e.leaf (e.pa a), s) else (.missing, s)
    else (.conflict, s)
  | none =>
    let s := s.touchWalk p a
    match s.walk p a with
    | none => (.missing, s)
    | some (leaf, size) =>
      if permits leaf kind then
        let e : TlbEntry := ⟨p, a / size * size, size, leaf⟩
        let s := s.modCore c fun k => k.setTlb ((e :: tlb).take sel.capacity) sel
        (.ok leaf (e.pa a), s.noteFill c e)
      else (.missing, s)

/-! ### Places -/

/-- Where a physical address lies (R383). -/
inductive Place where
  | hbm | host | peer (ch : Nat) | none
  deriving DecidableEq, Repr

/-- The physical space of an address. -/
def placeOf (pa : Nat) : Place :=
  match pa / 2 ^ 50 % 4 with
  | 0 => if pa < 2 ^ 39 then .hbm else .none
  | 1 => .host
  | 2 => .peer (pa / 2 ^ 40 % 256)
  | _ => .none

/-- The class of the block of a physical address (R369). -/
def State.blockClass (s : State) (pa : Nat) : Nat := (Store.get 0 s.blkcls (pa / 2 ^ 26)).fld 1 0

/-- Whether a frame holds check data (R369). -/
def State.checkFrame (s : State) (f : Nat) : Bool :=
  match s.blockClass (f * 2 ^ 21) with
  | 0 => f % 32 % 8 == 7
  | 1 => f % 32 == 31
  | _ => false

/-- The PAT entry of a frame as it reads: GUARD is set for a check-data frame (R369). -/
def State.patEntry (s : State) (f : Nat) : Word :=
  let e := Store.get 0 s.pat f
  if s.checkFrame f then e.put 62 62 1 else e

/-- Whether a physical address lies in a sealed frame (R368, R371). -/
def State.isSealed (s : State) (pa : Nat) : Bool := (s.patEntry (pa / 2 ^ 21)).bit 61

/-- Whether an address lies in a sealed frame of a partition whose rekey runs (R372): accesses to it wait. -/
def State.rekeys (s : State) (pa : Nat) : Bool :=
  s.isSealed pa && (s.getPart ((s.patEntry (pa / 2 ^ 21)).fld 47 32)).sealst.bit 62

/-- The frame check (R370), with HOSTM for the host port (R364); a channel is checked when it is used (R390). -/
def State.frameOk (s : State) (p : Nat) (leaf : Word) (pa : Nat) : Bool :=
  match placeOf pa with
  | .hbm =>
    let e := s.patEntry (pa / 2 ^ 21)
    e.bit 63 && !e.bit 62 && e.fld 47 32 == p && leafClass leaf == s.blockClass pa
  | .host => (s.getPart p).ppol.bit 59
  | .peer _ => true
  | .none => false

/-! ### Page requests -/

/-- The number of a page request's queue record: 2^LOG (R349, R321). -/
def queueSize (cfg : Word) : Nat := 2 ^ cfg.fld 3 0

/-- Writes the records of waiting page requests into Saiga's queue while it has room (R349). -/
def PageReq.bits (r : PageReq) : Nat :=
  let src := match r.src with
    | .sequencer _ => 0
    | .region .. => 1
    | .engine .. => 2
  r.va.toNat * 2 ^ 192 + r.part % 2 ^ 16 * 2 ^ 176 + r.core % 256 * 2 ^ 168 + r.unit % 16 * 2 ^ 164 + src * 2 ^ 162
    + r.kind % 4 * 2 ^ 160

/-- Bytes of Saiga's SRAM (R317). -/
def sramBytes : Nat := 4 * 2 ^ 20

/-- Puts the oldest request without an index into the queue, if there is room. -/
def State.queueOne (s : State) : State :=
  let n := queueSize s.prqcfg
  if (s.prqtail + 1) % n == s.prqhead % n then s else
  match s.pageReqs.find? fun r => r.index.isNone with
  | none => s
  | some r =>
    { s with
      saiga :=
        let at' := s.prqcfg.fld 31 12 * 4096 + 32 * s.prqtail
        s.saiga.store at' ((toBytes 32 r.bits).take (sramBytes - at')) false
      pageReqs := s.pageReqs.map fun q => if q.id == r.id then { q with index := some s.prqtail } else q
      prqtail := (s.prqtail + 1) % n }

/-- A new page request (R349), and its number. -/
def State.pageRequest (s : State) (src : ReqSrc) (va : Word) (part core unit kind : Nat) : State :=
  let r : PageReq := { id := s.nextReq, src := src, va := va, part := part, core := core, unit := unit, kind := kind }
  ({ s with pageReqs := s.pageReqs ++ [r], nextReq := s.nextReq + 1 }).queueOne

end Sys2Proof.Machine
end

