-- ==== Sys2Proof/Machine/Access.lean ====
section
/-!
DEFINITION. Device-memory accesses of a sequencer: what a read delivers (R77, R78), where derived footprints lie (R111,
R124), host-coherent halves (R386), loads and stores by memory type and physical space (R68, R201, R390).
-/

namespace Sys2Proof.Machine

/-! ### Delivery -/

/-- What a read of one word does: whether it faults, its poison, whether it reads zero, and the errors charged. -/
structure Delivery where
  fault : Bool
  psn : Bool
  zero : Bool
  charge : Nat
  deriving DecidableEq, Repr

/-- Delivery of a word by the class of its region and of the kernel (R77, R78, R81). `cls` is the page's class for HBM;
on chip the kernel's class stands for it. -/
def deliver (onChip : Bool) (cls k : Nat) (m : Mark) (lost : Bool) : Delivery :=
  let cls := if onChip then k else cls
  let detected := lost || (m == .bad && (onChip || cls != 2))
  let raw := (detected && cls != 2) || m.isPoisoned
  { fault := (detected && cls == 0) || (raw && k == 0)
    psn := raw && k == 1
    zero := lost && cls == 2 && !onChip
    charge := if detected then 64 else if m == .corrected && (onChip || cls == 0) then 1 else 0 }

/-! ### Derived regions in memory -/

/-- Bytes of an element of a format code (R82, R110). -/
def fmtBytes (f : Nat) : Nat :=
  match f with
  | 2 => 8
  | 3 => 8
  | 1 => 4
  | 4 => 4
  | 5 => 2
  | 6 => 2
  | 7 => 1
  | 8 => 1
  | 11 => 8
  | 12 => 4
  | 13 => 1
  | _ => 8

/-- Slots of a region (R111). -/
def DRegion.nslots (r : DRegion) : Nat :=
  match r.kind with
  | .hist => r.rows * (r.nbin + 1)
  | .bscale => r.rows * ceilDiv r.cols r.g
  | _ => r.rows

/-- Bytes of the footprint (R111). -/
def DRegion.footLen (r : DRegion) : Nat := 128 * ceilDiv (max 64 (16 * r.nslots)) 128

/-- The physical address of the byte at virtual address `va` of pages that begin with the page of `first`. -/
def pagePhys (pages : List Nat) (first va : Nat) : Option Nat :=
  (pages[va / 65536 - first / 65536]?).map fun p => p + va % 65536

/-- The virtual addresses that a physical address has in those pages. -/
def pageVirt (pages : List Nat) (first pa : Nat) : List Nat :=
  (List.range pages.length).filterMap fun i =>
    if pages[i]? == some (pa / 65536 * 65536) then some ((first / 65536 + i) * 65536 + pa % 65536) else none

/-- Whether a physical byte lies in the region's footprint. -/
def DRegion.inFoot (r : DRegion) (pa : Nat) : Bool :=
  (pageVirt r.footPages r.desc.toNat pa).any fun va =>
    decide (r.desc.toNat ≤ va) && decide (va < r.desc.toNat + r.footLen)

/-- The element (row, column) that a physical byte belongs to, for each place it has in the base. -/
def DRegion.elemAt (r : DRegion) (pa : Nat) : List (Nat × Nat) :=
  (pageVirt r.basePages r.base.toNat pa).filterMap fun va =>
    if va < r.base.toNat then none else
    let off := va - r.base.toNat
    let row := off / r.pitch
    let col := off % r.pitch / fmtBytes r.fmt
    if row < r.rows && col < r.cols then some (row, col) else none

/-- Whether any of `n` bytes from `pa` on lies in a footprint (R124). Footprints are whole 128-byte lines. -/
def State.inFootprint (s : State) (pa n : Nat) : Bool :=
  s.derived.any fun r => r.inFoot pa || r.inFoot (pa + n - 1)

/-- Whether any of `n` bytes from `pa` on belongs to a base. -/
def State.inBase (s : State) (pa n : Nat) : Bool :=
  s.derived.any fun r => (List.range n).any fun i => !(r.elemAt (pa + i)).isEmpty

/-- Whether an access from another package writes memory: a store, an atomic or a reduction. -/
def peerWrites (a : PeerAccess) : Bool := a.data.isSome || a.atom.isSome || a.red.isSome

/-- The physical address of a held request and how many bytes it writes; a held read or SUBREG write none, beyond every address. -/
def Held.span (h : Held) : Nat × Nat :=
  match h with
  | .store st => (st.pa, st.data.length)
  | .atom a => (a.pa, if a.word then 4 else 8)
  | .red r => (r.pa, fmtBytes r.fmt.toNat)
  | .peer pa a => if peerWrites a then (pa, a.size) else (2 ^ 60, 0)
  | .signal pa _ _ _ _ => (pa, 16)
  | .undo r _ => (r.line * 128, 128)
  | .push x => (x.line * 128, 128)
  | .forwarded st => (st.pa, st.data.length)
  | .hostRead _ _ _ _ => (2 ^ 60, 0)
  | .subreg _ _ => (2 ^ 60, 0)

/-- The bytes that a held request reads or writes. -/
def Held.reach (h : Held) : Nat × Nat :=
  match h with
  | .peer pa a => (pa, a.size)
  | .hostRead _ _ pa n => (pa, n)
  | h => h.span

/-- Whether a held request writes one of `n` bytes from `pa` on (R118). -/
def Held.overlaps (h : Held) (pa n : Nat) : Bool := decide (h.span.1 < pa + n) && decide (pa < h.span.1 + h.span.2)

/-- Whether a load of these bytes waits: a held store writes one of them, or their frame is being rekeyed (R372). -/
def State.heldAt (s : State) (pa n : Nat) : Bool := s.rekeys pa || s.held.any fun h => h.overlaps pa n

/-- Whether a store to some of these bytes by a core that satisfies `cs` is on its way. -/
def State.wayBy (s : State) (cs : Nat → Bool) (pa n : Nat) : Bool :=
  s.way.any fun st => cs st.core && decide (st.pa < pa + n) && decide (pa < st.pa + st.data.length)

/-- Whether a store to some of these bytes by a core of cluster `cl` is on its way. -/
def State.wayAt (s : State) (cl pa n : Nat) : Bool := s.wayBy (fun d => clusterOf d == cl) pa n

/-- Whether a read of these bytes by an agent of cluster `cl` waits, for a held store or one of its cluster on its way. -/
def State.heldFor (s : State) (cl pa n : Nat) : Bool := s.heldAt pa n || s.wayAt cl pa n

/-- Whether a read of these bytes by core `c`'s sequencer waits, for a held store or one of its own on its way (R272): those of the other
cores of its cluster it may read before or after they are performed (R284). -/
def State.heldOwn (s : State) (c pa n : Nat) : Bool := s.heldAt pa n || s.wayBy (fun d => d == c) pa n

/-! ### What an access leaves in the caches -/

/-- The state of a line of a directory page after an access of core `c` (R384); a line that L1s hold read-only (R67, R113) has no
owner among them, and a write of it leaves no copy. -/
def LineState.access (c : Nat) (write ro : Bool) : LineState → LineState
  | .lost => .lost
  | l =>
    if write then (if ro then .inv else .modified c)
    else match l with
      | .shared m => .shared (m ||| (1 <<< clusterOf c))
      | .excl d => if d = c then .excl d else .shared ((1 <<< clusterOf c) ||| (1 <<< clusterOf d))
      | .modified d => if d = c then .modified d else .shared ((1 <<< clusterOf c) ||| (1 <<< clusterOf d))
      | _ => if ro then .shared (1 <<< clusterOf c) else .excl c

/-- An L1 set after an access to a line, which becomes the most recently used, and the line that it evicts, if any (R67). -/
def touchWays (l : L1Line) (ls : List L1Line) : List L1Line × Option L1Line :=
  if ls.any fun x => x.line == l.line then (l :: ls.filter fun x => x.line != l.line, none)
  else ((l :: ls).take 16, (l :: ls)[16]?)

/-- Whether a cluster holds dirty CC bytes of a line. -/
def Cluster.dirtyLine (k : Cluster) (line : Nat) : Bool := k.dirty.any fun c => c.1 / 128 == line

/-- Core `c`'s L1 takes a line (R67). Of the line it evicts, dirty CC bytes are to be pushed (R277), and a directory line that it
owned is given up (R384). -/
def State.fillL1 (s : State) (c line : Nat) (cc : Bool) : State :=
  let key := Config.l1Set line % 1024
  let r := touchWays ⟨line, cc⟩ (Store.get [] (s.getCore c).l1 key)
  let s := s.modCore c fun k => { k with l1 := Store.set [] k.l1 key r.1 }
  match r.2 with
  | none => s
  | some v =>
    if v.cc then
      if (s.getCluster (clusterOf c)).dirtyLine v.line then { s with evicting := s.evicting ++ [(clusterOf c, v.line)] } else s
    else
      match Store.get .inv s.lines v.line with
      | .excl d => if d = c then { s with lines := Store.set .inv s.lines v.line .inv } else s
      | .modified d => if d = c then { s with lines := Store.set .inv s.lines v.line .inv } else s
      | _ => s

/-- What an access of core `c` to HBM leaves in the directory. -/
def State.touchDir (s : State) (c : Nat) (leaf : Word) (pa : Nat) (write ro : Bool) : State :=
  match (s.pageClass.find? fun kv => kv.1 == leafPa leaf / 65536).map Prod.snd with
  | some .dir =>
    if leafType leaf == 0 then
      { s with lines := Store.modify .inv s.lines (pa / 128) (fun l => l.access c write ro) }
    else s
  | _ => s

/-- Whether L1s hold the line of an address read-only: a host-coherent line (R67), one of a derived base (R113). -/
def State.readOnlyL1 (s : State) (leaf : Word) (pa : Nat) : Bool := leafHc leaf || s.inBase (pa / 128 * 128) 128

/-- The home package of a replicated page's address (R392). -/
def State.homePkg (s : State) (pa : Nat) : Nat := Store.get s.pkgNo s.rpHome (pa / 65536)

/-- Whether a core's L1 holds a line. -/
def Core.holdsLine (k : Core) (line : Nat) : Bool := (Store.get [] k.l1 (Config.l1Set line % 1024)).any fun x => x.line == line

/-- Whether an access of core `c` through its L1 reaches the line's home slice (R67, R68, R379): a read that misses; a write of a line
that is written through, that misses or that another L1 holds. A write of a CC page stays in the cluster, and one of a replicated page
homed elsewhere goes there. -/
def State.reachesL2 (s : State) (c : Nat) (leaf : Word) (pa : Nat) (write : Bool) : Bool :=
  let line := pa / 128
  if leafType leaf == 4 then true
  else if !write then !(s.getCore c).holdsLine line
  else if leafType leaf == 1 then false
  else if leafType leaf == 3 then s.homePkg pa == s.pkgNo
  else s.readOnlyL1 leaf pa || !(s.getCore c).holdsLine line || s.cores.any fun kv => kv.1 != c && kv.2.holdsLine line

/-- What an access of core `c`'s sequencer or memory ports leaves in the L2, the directory and the L1s (R67, R68, R379, R384): a
write takes the line out of the other L1s, those of the cluster alone on a CC page, and out of its own where it is held read-only
or served from a replica; a UC page is not cached. -/
def State.touch (s : State) (c p : Nat) (leaf : Word) (pa : Nat) (write : Bool) : State :=
  let ro := s.readOnlyL1 leaf pa
  let s := (if s.reachesL2 c leaf pa write then s.touchL2 p leaf pa else s).touchDir c leaf pa write ro
  let line := pa / 128
  let cc := leafType leaf == 1
  if leafType leaf == 4 then s
  else if write then
    let own := ro || leafType leaf == 3
    let s := s.dropL1 (fun d => (own || d != c) && (!cc || clusterOf d == clusterOf c)) fun x => x.line == line
    if own then s else s.fillL1 c line cc
  else s.fillL1 c line cc

/-- What an access of an engine, or one performed at the L2, leaves: no L1 takes the line (R67); a write takes it out of every
one. -/
def State.touchHome (s : State) (c p : Nat) (leaf : Word) (pa : Nat) (write : Bool) : State :=
  let s := (s.touchL2 p leaf pa).touchDir c leaf pa write true
  if write then s.dropL1 (fun d => leafType leaf != 1 || clusterOf d == clusterOf c) fun x => x.line == pa / 128 else s

/-! ### Recording -/

/-- Whether values that enter the member of core `c` are recorded (R399). -/
def State.records (s : State) (c : Nat) : Bool :=
  let b := (s.getCore c).binding
  let pt := s.getPart b.part
  b.dbg && pt.dbgcfg.bit 0 && !pt.dbgstat.bit 63

/-- Where the record log marks a value that entered poisoned. -/
def psnStream : Nat := 2 ^ 60
/-- The streams of one member in the record log. -/
def memberStreams : Nat := 2 ^ 61

/-- A value takes its place in the record log (R399). -/
def State.logValue (s : State) (b : Binding) (stream : Nat) (v : Word) (psn : Bool) : State :=
  (s.modPart b.part fun p => { p with rlPos := p.rlPos + 8 }).modTask b.task fun t =>
    { t with recorded := t.recorded ++ [(memberStreams * b.memb + (if psn then psnStream else 0) + stream, v)] }

/-- Records a value, poisoned or not, that enters the member of core `c` in one of its streams; a full log acts as RLSTALL selects (R399,
R401): where it stops the member, the value that found it full is the first to take the space that is freed (log entry 112, DESIGN
CHOICE). `frame` is what a kind-9 record gives. -/
def State.recordOn (s : State) (c stream : Nat) (frame : Nat) (v : Word) (psn : Bool := false) : State :=
  if s.records c then
    let b := (s.getCore c).binding
    let pt := s.getPart b.part
    if pt.rlPos - pt.rlTail + 8 ≤ 2 ^ pt.dbgcfg.fld 23 16 then s.logValue b stream v psn
    else
      let mcc := (s.getCore c).seq.mcc
      let s := s.trace c 9 0 0 (BitVec.ofNat 64 frame) (s.getCore c).seq.pc 0 0
      if pt.dbgcfg.bit 1 then
        ((s.logValue b stream v psn).modPart b.part fun p => { p with dbgstat := p.dbgstat.put 62 62 1 }).soon
          [.event (.debugStop c .logFull)]
      else s.modPart b.part fun p => { p with dbgstat := (p.dbgstat.put 63 63 1).put 47 0 mcc.toNat }
  else s

/-- The next recorded value of a stream in a replay and its poison (R400), if any is left; nothing else changes. -/
def State.replayed (s : State) (c stream : Nat) : Option ((Word × Bool) × State) :=
  match (s.getCore c).replay with
  | some l =>
    match l.find? fun x => x.1 % psnStream == stream with
    | some x => some ((x.2, decide (psnStream ≤ x.1)), s.modCore c fun k => { k with replay := some (l.erase x) })
    | none => none
  | none => none

/-- What was recorded is at its end: the replay stops there (R400, R401). -/
def State.replayOver (s : State) (c : Nat) : State := s.modCore c fun k => { k with mstate := .frozen }

/-- Whether a replay runs on core `c` (R400). -/
def State.replays (s : State) (c : Nat) : Bool := (s.getCore c).replay.isSome

/-- The value and the poison that a read of core `c` returns in a stream: in a replay the recorded ones, in their order, else `v` and
`psn`, recorded (R399, R400). -/
def State.enterAs (s : State) (c stream : Nat) (v : Word) (psn : Bool) : (Word × Bool) × State :=
  match s.replayed c stream with
  | some r => r
  | none => ((v, psn), if s.replays c then s else s.recordOn c stream (2 ^ 64 - 1) v psn)

/-- A value that enters the sequencer of core `c`, never poisoned. -/
def State.enter (s : State) (c : Nat) (v : Word) : Word × State :=
  let r := s.enterAs c 0 v false
  (r.1.1, r.2)

/-! ### Host-coherent halves -/

/-- The 64-byte halves that an access covers (R386). -/
def halvesOf (pa n : Nat) : List Nat := (List.range ((pa + n - 1) / 64 - pa / 64 + 1)).map fun i => pa / 64 + i

/-- Whether the device holds a half in the state that the access needs. Host aperture: any valid state to read, E or M
to write. HDM: the host must not own it, nor share it for a write. -/
def halfReady (place : Place) (write : Bool) (h : HalfState) : Bool :=
  match place with
  | .host => h == .excl || h == .modified || (!write && h == .shared)
  | _ => h != .hostOwned && !(write && h == .hostShared)

/-- Makes the requests for the halves that are not ready: one CXL request for each half of host memory (R386), a
back-invalidate snoop for each half of HDM (R385); a half the host only shared is given up at once. -/
def State.askHalves (s : State) (place : Place) (write : Bool) (hs : List Nat) : State :=
  hs.foldl (fun s h =>
    let st := Store.get .inv s.halves h
    if halfReady place write st then s
    else match place with
      | .host =>
        if s.cxl.any fun r => r.half == h then s
        else { s with cxl := s.cxl ++ [⟨h, write⟩], out := s.out ++ [.cxlRequest h write] }
      | _ =>
        if st == .hostShared then
          { s with halves := Store.set .inv s.halves h .inv, out := s.out ++ [.backInvalidate h] }
        else if s.cxl.any fun r => r.half == h then s
        else { s with cxl := s.cxl ++ [⟨h, true⟩], out := s.out ++ [.backInvalidate h] }) s

/-- Whether every half the access covers is ready. -/
def State.halvesReady (s : State) (leaf : Word) (pa n : Nat) (write : Bool) : Bool :=
  !leafHc leaf || (halvesOf pa n).all fun h => halfReady (placeOf pa) write (Store.get .inv s.halves h)

/-! ### Posted stores that fail -/

/-- Counts a failed posted store into core `c`'s pending status (R205, R206). -/
def State.failStore (s : State) (c : Nat) (va : Word) (refused : Bool) : State :=
  s.modCore c fun k => { k with seq := { k.seq with post :=
    { k.seq.post with
      failCnt := min 255 (k.seq.post.failCnt + 1)
      dead := k.seq.post.dead || !refused
      refused := k.seq.post.refused || refused
      fva := if k.seq.post.failCnt = 0 then va.fld 47 0 else k.seq.post.fva } } }

/-- Whether channel `ch` is open for partition `p` (R388, R390). -/
def State.channelOpen (s : State) (ch p : Nat) : Bool :=
  let e := Store.get 0 s.lchan ch
  e.bit 63 && e.fld 62 60 == 1 && e.fld 15 0 == p

/-- The far virtual address of a near one (R388). -/
def State.farVa (s : State) (ch : Nat) (va : Word) : Nat := (va.toNat + (Store.get 0 s.lchoff ch).fld 47 0) % 2 ^ 48

/-! ### The sequencer's accesses -/

/-- A range conflict of an access of the sequencer (R351): it waits for DONE; the fault where the conflict of its page is still there on the
retry. A fetch's conflict is its own, apart from that of data in the same page. `s1` has done the translation. -/
def State.seqConflict (s s1 : State) (va : Word) (fetch : Bool) : Result :=
  let x : Conflict := { lane := bit01 fetch, page := va.toNat / 65536, again := false }
  if s.q.wait = .conflict { x with again := true } then .next (s.trap { code := 22, tval := va }) else .next (s1.setWait (.conflict x))

/-- Translates and checks an access of `n` bytes, KIND `kind`, and goes on with its leaf and physical address: the
alignment fault, the page request and its wait (R349, R350), the range conflict (R351), the access fault of the frame
check (R370). -/
def seqAccess (va : Word) (n kind : Nat) (s : State) (k : State → Word → Nat → Result) : Result :=
  if va.toNat % n ≠ 0 then .next (s.trap (alignTrap va)) else
  match s.xlate s.core .seq s.me.part va kind with
  | (.conflict, s1) => s.seqConflict s1 va false
  | (.missing, s1) =>
    .next ((s1.pageRequest (.sequencer s.core) va s.me.part s.core 0 kind).setWait (.page s1.nextReq))
  | (.ok leaf pa, s1) =>
    if s.frameOk s.me.part leaf pa then k (s1.setWait (if s.q.wait = .peerDone then .peerDone else .none)) leaf pa
    else .next (s.trap (accessTrap va))

/-- Device memory as a core of cluster `cl` sees the words of an access: on a CC page the cluster's dirty bytes and clean
copies, with their poison, stand over memory (R68, R78, R277). -/
def State.seenRam (s : State) (cl : Nat) (leaf : Word) (pa n : Nat) : Ram :=
  if leafType leaf == 1 then
    let k := s.getCluster cl
    let near := fun (c : Host.Cell) => decide (pa / 8 ≤ c.1 / 8) && decide (c.1 / 8 ≤ (pa + n - 1) / 8)
    (s.hbm.storeCells (k.clean.filter near) []).storeCells (k.dirty.filter near) k.dirtyPsn
  else s.hbm

/-- Whether a core of cluster `cl` meets a lost line in reading these bytes: its cluster's own CC bytes are not lost with it. -/
def State.seenLost (s : State) (cl : Nat) (leaf : Word) (pa n : Nat) : Bool :=
  s.lost.contains (pa / 128) && !(leafType leaf == 1 && (List.range n).all fun i =>
    let k := s.getCluster cl
    (k.dirty ++ k.clean).any fun c => c.1 == pa + i)

/-- What a sequencer or fabric read of one word of HBM by core `c` delivers for a kernel class (R77, R78). -/
def State.readDelivery (s : State) (cl : Nat) (leaf : Word) (k pa n : Nat) : Delivery :=
  deliver false (leafClass leaf) k ((s.seenRam cl leaf pa n).worst pa n) (s.seenLost cl leaf pa n)

/-- The raw bytes of a read of HBM by a core of cluster `cl`. -/
def State.readHbm (s : State) (cl : Nat) (leaf : Word) (pa n : Nat) : List Byte := (s.seenRam cl leaf pa n).read pa n

/-- A read for core `c` (0xFF: none) that meets an uncorrectable word makes a class-3 record with its address (R322, R323), unless its
block detects none (R76); in a footprint it starts the rebuild of its line's slots (R119, R127). `m` is the worst error of the words
read. -/
def State.noteBad (s : State) (part c : Nat) (m : Mark) (pa n : Nat) : State :=
  if m == .bad then
    let s := if s.blockClass pa = 2 then s else s.present orderMem (.saiga (BitVec.ofNat 64 pa) part 3 0 0 0 0 c)
    if s.inFootprint pa n then s.soon [.event (.slotError (pa / 128))] else s
  else s

/-- A CC read of words with no error may leave clean copies of the bytes it read (R277): a choice of the oracle. -/
def State.keepClean (s : State) (cl : Nat) (leaf : Word) (pa : Nat) (bs : List Byte) : State :=
  if leafType leaf == 1 then
    let keep := s.choice == 1 && (s.seenRam cl leaf pa bs.length).worst pa bs.length == .clean
    let s := s.chosen
    if keep then
      s.modCluster cl fun k =>
        let new := (List.range bs.length).filterMap fun i =>
          if (k.dirty ++ k.clean).any fun c => c.1 == pa + i then none else some (pa + i, bs.getD i 0)
        { k with clean := k.clean ++ new }
    else s
  else s

/-- The parts of 8-byte words that `n` bytes from `a` on cover: where each begins, and its bytes. -/
def wordParts (a n : Nat) : List (Nat × Nat) :=
  (List.range ((a + n + 7) / 8 - a / 8)).map fun i =>
    let lo := max a (8 * (a / 8 + i))
    (lo, min (a + n) (8 * (a / 8 + i) + 8) - lo)

/-- A read of `n` bytes, each of its words with its bytes and its delivery: the bytes as delivered, whether any word faults or is
poisoned, and the errors of all (R77, R78, R81). -/
def readParts (word : Nat → Nat → List Byte × Delivery) (pa n : Nat) : List Byte × Delivery :=
  (wordParts pa n).foldl (fun x w =>
    let r := word w.1 w.2
    (x.1 ++ (if r.2.zero then List.replicate w.2 0 else r.1),
      ⟨x.2.fault || r.2.fault, x.2.psn || r.2.psn, x.2.zero || r.2.zero, x.2.charge + r.2.charge⟩)) ([], ⟨false, false, false, 0⟩)

/-- A read of `n` bytes of HBM by a core of cluster `cl`, word by word. -/
def State.readRange (s : State) (cl : Nat) (leaf : Word) (k pa n : Nat) : List Byte × Delivery :=
  readParts (fun a m => (s.readHbm cl leaf a m, s.readDelivery cl leaf k a m)) pa n

/-- A read of `n` bytes of HBM at their home, under a page class and a kernel class, word by word. -/
def State.homeRange (s : State) (cls k pa n : Nat) : List Byte × Delivery :=
  readParts (fun a m => (s.hbm.read a m, deliver false cls k (s.hbm.worst a m) (s.lost.contains (a / 128)))) pa n

/-- `n` bytes of another package, free values here (log entry 4, DESIGN CHOICE). -/
def State.freeBytes (s : State) (n : Nat) : List Byte × State :=
  let r := (List.range ((n + 7) / 8)).foldl (fun (x : List Byte × State) _ => (x.1 ++ toBytes 8 x.2.free.1.toNat, x.2.free.2)) ([], s)
  (r.1.take n, r.2)

/-- Bytes that loads of core `c` have read early, where they cover `n` bytes from `pa` on (R272). -/
def Core.earlyBytes (k : Core) (pa n : Nat) : Option (List Byte) :=
  (List.range n).mapM fun i => (k.early.bytes.find? fun x => x.1 == pa + i).map Prod.snd

/-- Core `c` has made an access to these bytes in program order: what was read of them early is not used again. -/
def State.dropEarly (s : State) (c pa n : Nat) : State :=
  s.modCore c fun k =>
    { k with early := { k.early with bytes := k.early.bytes.filter fun x => !(decide (pa ≤ x.1) && decide (x.1 < pa + n)) } }

/-- Core `c` has written memory, or the declared regions: what it read of slots early is not used again (R125). -/
def State.dropSlots (s : State) (c : Nat) : State := s.modCore c fun k => { k with early := { k.early with slots := [] } }

/-- Nothing that core `c` reads from now on was read early: an acquire, a fence or a join is performed (R272, R273). -/
def State.noEarly (s : State) (c : Nat) : State := s.modCore c fun k => { k with early := {} }

/-- The 128-byte lines that `n` bytes at `pa` touch. -/
def linesOf (pa n : Nat) : List Nat := (List.range ((pa + n - 1) / 128 - pa / 128 + 1)).map fun i => pa / 128 + i

/-- What a read of `n` bytes that is made as a load waits for, or the fault that it meets first (R118, R387, R390). One through a channel
is sent, and goes on when its reply has come. -/
def State.readWaits (s : State) (va leaf : Word) (pa n : Nat) : Option Result :=
  match placeOf pa with
  | .hbm =>
    if s.heldOwn s.core pa n then some s.poll
    else if s.halvesReady leaf pa n false then none
    else some (s.askHalves .hbm false (halvesOf pa n)).poll
  | .host =>
    if s.hostDead then some (.next (s.trap (accessTrap va)))
    else if s.heldOwn s.core pa n then some s.poll
    else if s.halvesReady leaf pa n false then none
    else some (s.askHalves .host false (halvesOf pa n)).poll
  | .peer ch =>
    if s.q.wait = .peerDone then none
    else if s.channelOpen ch s.me.part then
      some (.next ((s.setWait (.peer { ch := ch, rd := 0, size := n, signed := false, float := false, acq := none, inval := false
                                       len := 0, va := va, sent := s.tick, many := true })).send (.load ch (s.farVa ch va) n s.core s.tick)))
    else some (.next (s.trap (accessTrap va)))
  | .none => some (.next (s.trap (accessTrap va)))

/-- Reads `n` bytes as a load reads them, word by word (R77, R78, R81): the bytes, or the fault that the read raises. -/
def State.readNow (s : State) (va leaf : Word) (pa n : Nat) : Except Result (List Byte × State) :=
  match placeOf pa with
  | .hbm =>
    let x := s.readRange s.cluster leaf s.kclass pa n
    let ram := s.seenRam s.cluster leaf pa n
    let s := (wordParts pa n).foldl (fun s w => s.noteBad s.me.part s.core (ram.worst w.1 w.2) w.1 w.2) s
    let s := (linesOf pa n).foldl (fun s l => s.touch s.core s.me.part leaf (128 * l) false) (s.charge s.me.part x.2.charge s.core)
    if x.2.fault || x.2.psn then .error (.next (s.trap (dataTrap va))) else .ok (x.1, s)
  | .host => .ok (s.host.read pa n, (linesOf pa n).foldl (fun s l => s.touch s.core s.me.part leaf (128 * l) false) s)
  | .peer _ => .ok (s.freeBytes n)
  | .none => .error (.next (s.trap (accessTrap va)))

/-- The number of `n` bytes as a load delivers it: sign- or zero-extended (R201). -/
def extend (signed : Bool) (n : Nat) (v : Nat) : Word :=
  if signed then wrap64 (sextInt (8 * n) v) else BitVec.ofNat 64 v

/-- A load of `n` bytes for register `rd`, its address translated and checked (R201, R203, R77, R78, R390). `acq` is the scope of
an acquire, done by `after`. -/
def loadFrom (rd : Reg) (signed : Bool) (va : Word) (n len : Nat) (acq : Option Scope) (after : State → State) (s : State)
    (leaf : Word) (pa : Nat) : Result :=
  if s.replays s.core then
    match s.replayed s.core 0 with
    | some r => .next (after (r.2.result rd r.1.1 r.1.2 len))
    | none => .next (s.replayOver s.core)
  else
  match placeOf pa with
  | .peer ch =>
    if s.channelOpen ch s.me.part then
      .next ((s.setWait (.peer { ch := ch, rd := rd, size := n, signed := signed, float := false, acq := acq, inval := true, len := len
                                 va := va, sent := s.tick })).send (.load ch (s.farVa ch va) n s.core s.tick))
    else .next (s.trap (accessTrap va))
  | .host =>
    if s.hostDead then .next (s.trap (accessTrap va))
    else if s.heldOwn s.core pa n then s.poll
    else if s.halvesReady leaf pa n false then
      let s := s.touch s.core s.me.part leaf pa false
      let (v, s) := s.enter s.core (extend signed n (s.host.num pa n))
      .next (after (s.result rd v false len))
    else (s.askHalves .host false (halvesOf pa n)).poll
  | .none => .next (s.trap (accessTrap va))
  | .hbm =>
    if s.heldOwn s.core pa n then s.poll
    else if let some bs := s.cur.earlyBytes pa n then
      let (v, s) := (s.dropEarly s.core pa n).enter s.core (extend signed n (ofBytes bs))
      .next (after (s.result rd v false len))
    else if s.halvesReady leaf pa n false then
      let s := s.dropEarly s.core pa n
      let d := s.readDelivery s.cluster leaf s.kclass pa n
      let s := (s.noteBad s.me.part s.core ((s.seenRam s.cluster leaf pa n).worst pa n) pa n).charge s.me.part d.charge s.core
      if d.fault then .next (s.trap (dataTrap va)) else
      let bs := s.readHbm s.cluster leaf pa n
      let s := (s.touch s.core s.me.part leaf pa false).keepClean s.cluster leaf pa bs
      let r := s.enterAs s.core 0 (extend signed n (if d.zero then 0 else ofBytes bs)) d.psn
      .next (after (r.2.result rd r.1.1 r.1.2 len))
    else (s.askHalves .hbm false (halvesOf pa n)).poll

/-- A load of `n` bytes for register `rd` (R201, R203). -/
def seqLoad (rd : Reg) (signed : Bool) (va : Word) (n len : Nat) (acq : Option Scope) (after : State → State) (s : State) :
    Result :=
  seqAccess va n 0 s fun s leaf pa => loadFrom rd signed va n len acq after s leaf pa

/-- How many naturally aligned words a store of `n` bytes at `a` touches. -/
def wordsTouched (a n : Nat) : Nat := (a + n - 1) / 8 - a / 8 + 1

/-- R272: a load of core `c` that is still to come is performed: it has read `n` bytes at `pa`, of sound words of HBM that its cluster's CC
copies do not hold; loads to different bytes are not ordered. -/
def execEvEarlyLoad (core pa n : Nat) (s : State) : Result :=
  let k := s.getCluster (clusterOf core)
  if 72 ≤ core || 64 < n || placeOf pa != .hbm || s.hbm.worst pa n != .clean || s.lost.contains (pa / 128) || s.lost.contains ((pa + n - 1) / 128)
      || s.heldOwn core pa n || (s.getCore core).bind.isNone || s.replays core
      || (k.dirty ++ k.clean).any (fun c => decide (pa ≤ c.1) && decide (c.1 < pa + n)) then .next s
  else
    let bs := (s.hbm.read pa n).zipIdx.map fun x => ((pa + x.2, x.1) : Host.Cell)
    .next ((s.dropEarly core pa n).modCore core fun k => { k with early := { k.early with bytes := k.early.bytes ++ bs } })

/-- Writes dirty CC bytes of a cluster for a task, poisoned or not: they take the place of older dirty and clean ones (R68, R78). -/
def State.writeDirty (s : State) (cl part task pa : Nat) (bs : List Byte) (psn : Bool) : State :=
  s.modCluster cl fun k =>
    let new := (List.range bs.length).map fun i => (pa + i, bs.getD i 0)
    let hit := fun (a : Nat) => decide (pa ≤ a) && decide (a < pa + bs.length)
    { k with
      dirty := (k.dirty.filter fun c => !hit c.1) ++ new, clean := k.clean.filter fun c => !hit c.1
      dirtyPsn := (k.dirtyPsn.filter fun a => !hit a) ++ (if psn then new.map Prod.fst else [])
      dirtyBy := (k.dirtyBy.filter fun x => !hit x.1) ++ new.map fun c => (c.1, part, task) }

/-- Marks a task irrevocable (R355): its write-log records are released and it logs no more. -/
def State.makeIrrevocable (s : State) (part task : Nat) : State :=
  (s.modTask task fun t => { t with irrevocable := true }).modPart part fun p =>
    { p with wlog := p.wlog.filter fun r => r.task != task }

/-- A store is on its way: it leaves for its home in a later cycle (log entry 85, DEDUCED). -/
def State.onWay (s : State) (st : StoreReq) : State := { s with way := s.way ++ [st] }

/-- A store to host memory is posted (R206): the device gains its halves for the write where they are held by the host (R386), and
it is performed once it has them and the store's turn comes. -/
def State.postHost (s : State) (leaf : Word) (st : StoreReq) : State :=
  (if leafHc leaf then s.askHalves .host true (halvesOf st.pa st.data.length) else s).onWay { st with hc := leafHc leaf }

/-- Host memory after a write through the host port; the halves of a host-coherent line are modified by it (R386), and what the host has of
them until they are written back is kept (R387, R402). -/
def State.writeHost (s : State) (pa : Nat) (bs : List Byte) (hc : Bool) : State :=
  { s with
    host := s.host.store pa bs false
    hostOld := if hc then (halvesOf pa bs.length).foldl (fun m h =>
      if (m.map Prod.fst).contains h then m else Store.set [] m h (s.host.read (h * 64) 64)) s.hostOld else s.hostOld
    halves := if hc then (halvesOf pa bs.length).foldl (fun m h => Store.set .inv m h .modified) s.halves else s.halves }

/-- A store to a replicated page is sequenced by its home package (R392): the writing cluster's loads of those bytes wait until
the write has come back to the replica here. -/
def State.sendReplica (s : State) (st : StoreReq) : State :=
  if s.homePkg st.pa = s.pkgNo then s.soon [.event (.replicaWriteAtHome ⟨st, 0⟩)]
  else (s.onWay st).send (.replicaForward (s.homePkg st.pa) st)

/-- A store after its checks of access: the derived-store fault (R124), the poison rules (R78), the lost line (R357),
then the way to its home by memory type and space. It follows the core's earlier stores to the same bytes. A plain store to
device memory (`slow`) leaves for its home at once or, by the oracle's choice and unless it is a base store, in a later cycle (R284, log
entry 85, DEDUCED).
`done` moves on past the instruction. -/
def storeOut (slow : Bool) (va : Word) (n : Nat) (v : Word) (psn : Bool) (s : State) (leaf : Word) (pa : Nat)
    (done : State → State) : Result :=
  let cls := leafClass leaf
  let bad := psn && s.kclass == 1
  let me := s.me
  let st : StoreReq :=
    { src := .sequencer, core := s.core, task := me.task, part := me.part, va := va, pa := pa
      data := toBytes n v.toNat, psn := bad && cls == 1 }
  if s.replays s.core then .next (done s) else
  let done (t : State) : State := done ((t.dropEarly s.core pa n).dropSlots s.core)
  match placeOf pa with
  | .none => .next (s.trap (accessTrap va))
  | .peer ch =>
    if s.channelOpen ch me.part then
      let s := { s with posted := s.posted ++ [(⟨ch, s.tick, { st with data := [], psn := false }⟩ : Posted)] }
      .next (done (s.send (.store ch (s.farVa ch va) (toBytes n v.toNat) s.tick)))
    else .next (done (s.failStore s.core va false))
  | .host =>
    if s.hostDead then .next (done (s.failStore s.core va false))
    else .next (done ((s.makeIrrevocable me.part me.task).postHost leaf { st with psn := false }))
  | .hbm =>
    if s.inFootprint pa n then .next (s.trap { code := 14, tval := va })
    else if bad && cls == 0 then .next (s.trap (dataTrap va))
    else if s.lost.contains (pa / 128) && s.kclass == 0 then .next (s.trap (dataTrap va))
    else if s.wayBy (fun d => d == s.core) pa n then s.poll
    else
      let paid (s : State) : State := if bad && cls == 2 then s.charge me.part (64 * wordsTouched pa n) s.core else s
      if leafType leaf == 1 then
        if s.lost.contains (pa / 128) then .next (done ((paid s).charge me.part 64 s.core))
        else .next (done (((paid s).touch s.core me.part leaf pa true).writeDirty s.cluster me.part me.task pa (toBytes n v.toNat) (bad && cls == 1)))
      else if s.halvesReady leaf pa n true then
        let s := ((paid s).touch s.core me.part leaf pa true).modQ fun q => { q with unacked := q.unacked + 1 }
        if leafType leaf == 3 then .next ((done s).sendReplica st)
        else if slow then
          let wait := decide (s.choice ≠ 0) && !s.inBase pa n
          let s := done s.chosen
          .next (if wait then s.onWay st else s.soon [.event (.storeAtHome st)])
        else .next ((done s).soon [.event (.storeAtHome st)])
      else (s.askHalves .hbm true (halvesOf pa n)).poll

/-- A store of `n` bytes of a register at `va` (R201). -/
def seqStore (slow : Bool) (va : Word) (n : Nat) (v : Word) (psn : Bool) (done : State → State) (s : State) : Result :=
  seqAccess va n 1 s fun s leaf pa => storeOut slow va n v psn s leaf pa done

end Sys2Proof.Machine
end

