-- ==== Sys2Proof/Machine/Derived.lean ====
section
/-!
DEFINITION. Derived regions (R110 to R125): images of base values, the delta messages, rescans and rebuilds, and the
bytes of a slot. A slot's bytes in memory always follow its fields.
-/

namespace Sys2Proof.Machine

/-- A base element's exact value (R110): an integer for I32. -/
def baseVal (fmt bits : Nat) : Fp.Val :=
  if fmt = 1 then
    let i := sextInt 32 bits
    .num (decide (i < 0)) i.natAbs 0
  else Fp.decode (Fp.ofCode fmt) bits

/-- The image of a finite value in quanta of 2^q (R115). -/
def sumImage (q : Int) (square : Bool) (v : Fp.Val) : Int :=
  match v with
  | .num n m e => if square then (Fp.toInteger 0 false (m * m) (2 * e - q)).1 else (Fp.toInteger 0 n m (e - q)).1
  | _ => 0

/-- The bin of a value (R115): exact quotient, floor, clamped; NaN enters bin NBIN. -/
def histBin (hlo hwid nbin : Nat) (v : Fp.Val) : Nat :=
  match v with
  | .nan _ => nbin
  | .inf n => if n then 0 else nbin - 1
  | .num n m e =>
    match Fp.decode Fp.f32 hlo, Fp.decode Fp.f32 hwid with
    | .num n2 m2 e2, .num _ mw ew =>
      let d := Fp.sumAt n m e (!n2) m2 e2
      let q := if ew ≤ d.2 then d.1 * 2 ^ (d.2 - ew).toNat / mw else d.1 / (mw * 2 ^ (ew - d.2).toNat : Nat)
      (clampInt 0 ((nbin : Int) - 1) q).toNat
    | _, _ => 0

/-! ### block_rule of R93 -/

/-- Value of round_f32(RNE, ·) of a result, decoded. -/
def f32Of (r : Fp.Res) : Fp.Val := Fp.decode Fp.f32 r.bits

/-- s and z of block_rule for the group's hi, lo (F32 bits) and code width `b` (R93). Where s rounds to 0, z is what the IEEE quotient by
zero gives: an infinity saturates, a NaN gives 0 (log entry 109, DESIGN CHOICE). -/
def blockParams (hi lo : Nat) (b : Nat) : Nat × Nat :=
  let qmax := 2 ^ b - 1
  let h := Fp.decode Fp.f32 hi
  let l := Fp.decode Fp.f32 lo
  if h.isZero && l.isZero then (0x3C00, 0)
  else
    let range := f32Of (Fp.addV Fp.f32 0 h l.neg)
    let s32 := f32Of (Fp.divV Fp.f32 0 range (.num false qmax 0))
    let s0 := (Fp.convert Fp.f16 3 0 false s32).bits
    let s := if s0 = Fp.f16.infBits then 0x7BFF else s0
    let zq := f32Of (Fp.divV Fp.f32 0 l.neg (Fp.decode Fp.f16 s))
    (s, (clampInt 0 qmax (Fp.toInt 32 0 zq).1).toNat)

/-- The code of one value under s and z (R93). -/
def blockCode (v s z b : Nat) : Nat :=
  let q := f32Of (Fp.divV Fp.f32 0 (Fp.decode Fp.f32 v) (Fp.decode Fp.f16 s))
  (clampInt 0 ((2 ^ b - 1 : Nat) : Int) ((Fp.toInt 32 0 q).1 + z)).toNat

/-- The parameter word of R91 for a group: 0x0000_7E00 with a NaN or an infinity (R93, R120). -/
def blockParamWord (nonFinite : Bool) (hi lo b : Nat) : Nat :=
  if nonFinite then 0x7E00 else
  let p := blockParams hi lo b
  p.1 + p.2 * 65536

/-! ### Slots -/

/-- The canonical binary64 NaN. -/
def nan64 : Nat := 0x7FF8000000000000
/-- The canonical binary32 NaN. -/
def nan32 : Nat := 0x7FC00000

/-- STATUS bit positions (R122). -/
def stOvf : Nat := 31
/-- STALE -/
def stStale : Nat := 30
/-- PSN -/
def stPsn : Nat := 29
/-- LOST -/
def stLost : Nat := 28
/-- BUILD -/
def stBuild : Nat := 27

/-- A status bit. -/
def DSlot.bit (d : DSlot) (i : Nat) : Bool := d.status.getLsbD i
/-- A status bit replaced. -/
def DSlot.setBit (d : DSlot) (i : Nat) (b : Bool) : DSlot :=
  { d with status := BitVec.ofNat 32 (withField d.status.toNat i i (bit01 b)) }

/-- The status word as read (R122): PSN from PSNC, MULT for ROWMAX only. -/
def DSlot.statusWord (d : DSlot) (kind : DKind) : Nat :=
  let w := withField d.status.toNat stPsn stPsn (bit01 (decide (0 < d.psnc)))
  withField w 15 0 (if kind = .rowmax then d.multHi else 0)

/-- HI of a BSCALE slot: max(+0, maximum) (R120). -/
def DSlot.hiWord (d : DSlot) : Nat :=
  if (Fp.decode Fp.f32 d.hi).isNan || Fp.totalLt (Fp.decode Fp.f32 d.hi) (.num false 0 0) then 0 else d.hi
/-- LO of a BSCALE slot: min(+0, minimum) (R120). -/
def DSlot.loWord (d : DSlot) : Nat :=
  if (Fp.decode Fp.f32 d.lo).isNan || !(Fp.totalLt (Fp.decode Fp.f32 d.lo) (.num false 0 0)) then 0 else d.lo

/-- A BSCALE slot with PARAM recomputed (R120). -/
def DSlot.reparam (d : DSlot) (wide : Bool) : DSlot :=
  { d with param := blockParamWord (decide (0 < d.nanc + d.pinfc + d.ninfc)) d.hiWord d.loWord (if wide then 8 else 4) }

/-- The 16 bytes of a slot, as a number (R114, R117, R120). -/
def DSlot.bits (d : DSlot) (kind : DKind) : Nat :=
  d.statusWord kind * 2 ^ 96 +
  match kind with
  | .rowmax => d.hi
  | .bscale => d.hiWord * 2 ^ 64 + d.loWord * 2 ^ 32 + d.param
  | _ => wrapNat 96 d.acc

/-- A slot before anything is added. -/
def DSlot.empty (kind : DKind) : DSlot :=
  match kind with
  | .rowmax => { hi := nan64 }
  | .bscale => { hi := nan32, lo := nan32, param := 0x3C00 }
  | _ => {}

/-- Region `id`. -/
def State.region (s : State) (id : Nat) : Option DRegion := s.derived.find? fun r => r.id == id

/-- Slot `n`. -/
def DRegion.slot (r : DRegion) (n : Nat) : DSlot := Store.get {} r.slots n

/-- Physical address of byte `o` of slot `n`. -/
def DRegion.slotPa (r : DRegion) (n : Nat) : Nat :=
  (pagePhys r.footPages r.desc.toNat (r.desc.toNat + 16 * n)).getD 0

/-- Replaces slot `n` of a region, and its bytes in memory. -/
def State.putSlot (s : State) (id n : Nat) (d : DSlot) : State :=
  match s.region id with
  | none => s
  | some r =>
    { s with
      derived := s.derived.map fun x => if x.id == id then { x with slots := Store.set {} x.slots n d } else x
      hbm := s.hbm.write (r.slotPa n) (toBytes 16 (d.bits r.kind)) }

/-- Changes which slots of a region wait for a rescan or rebuild. -/
def State.setPending (s : State) (id : Nat) (f : List Nat → List Nat) : State :=
  { s with derived := s.derived.map fun x => if x.id == id then { x with pending := f x.pending } else x }

/-! ### Which slots an element feeds -/

/-- The slots an element of a row feeds, its value being `bits` (R111). -/
def DRegion.slotOf (r : DRegion) (row col bits : Nat) : Nat :=
  match r.kind with
  | .hist => row * (r.nbin + 1) + histBin r.hlo r.hwid r.nbin (baseVal r.fmt bits)
  | .bscale => row * ceilDiv r.cols r.g + col / r.g
  | _ => row

/-- The rows or groups whose rescan or rebuild holds stores: the row, or for BSCALE the group (R118, R119). -/
def DRegion.unitOfSlot (r : DRegion) (n : Nat) : Nat :=
  match r.kind with
  | .hist => n / (r.nbin + 1)
  | _ => n

/-- The unit of an element. -/
def DRegion.unitOfElem (r : DRegion) (row col : Nat) : Nat :=
  match r.kind with
  | .bscale => row * ceilDiv r.cols r.g + col / r.g
  | _ => row

/-- Physical address of an element. -/
def DRegion.elemPa (r : DRegion) (row col : Nat) : Nat :=
  (pagePhys r.basePages r.base.toNat (r.base.toNat + row * r.pitch + col * fmtBytes r.fmt)).getD 0

/-- The elements that `n` bytes from `pa` on belong to. -/
def DRegion.elemsOf (r : DRegion) (pa n : Nat) : List (Nat × Nat) :=
  nub ((List.range n).flatMap fun i => r.elemAt (pa + i))

/-- Whether a store of these bytes must be held: a row or group it changes is being rescanned or rebuilt (R118, R119). -/
def State.mustHold (s : State) (pa n : Nat) : Bool :=
  s.derived.any fun r =>
    (r.elemsOf pa n).any fun e => r.pending.any fun k => r.unitOfSlot k == r.unitOfElem e.1 e.2

/-- An element's bits in a memory, and its poison as its page's class delivers it (R77, R127). -/
def State.readElem (s : State) (r : DRegion) (m : Ram) (e : Nat × Nat) : Nat × Bool :=
  let pa := r.elemPa e.1 e.2
  let k := m.worst pa (fmtBytes r.fmt)
  (m.num pa (fmtBytes r.fmt), k.isPoisoned || (k == .bad && s.blockClass pa != 2))

/-- The event that carries a message of a region's kind. -/
def deltaEvent (kind : DKind) (d : Delta) : Ev :=
  match kind with
  | .rowmax => .maxDeltaMessage d
  | .bscale => .bscaleDeltaMessage d
  | _ => .sumDeltaMessage d

/-! ### Applying a message -/

/-- One withdrawn (-1) or added (+1) element in the counts of NaN, infinite and poisoned elements (R114, R115). -/
def DSlot.count (d : DSlot) (v : Fp.Val) (psn up : Bool) : DSlot :=
  let step (k : Nat) (c : Bool) : Nat := if c then (if up then k + 1 else k - 1) else k
  { d with
    nanc := step d.nanc v.isNan
    pinfc := step d.pinfc (v == .inf false)
    ninfc := step d.ninfc (v == .inf true)
    psnc := step d.psnc psn }

/-- Whether a change alters what the counts beside a slot count (R114). -/
def DRegion.recounts (r : DRegion) (c : Change) : Bool :=
  ({} : DSlot).count (baseVal r.fmt c.old) c.oldPsn true != ({} : DSlot).count (baseVal r.fmt c.new) c.newPsn true

/-- The messages that a store sends: one for each slot it feeds, with every change of that slot (R115). `old` and `new`
are memory before and after; what is withdrawn from PSNC is an element that it counts (R127). The counts beside a HIST slot are those of its whole row, so a change of them goes to every bin of the
row (R114). -/
def State.deltas (s : State) (r : DRegion) (old new : Ram) (pa n : Nat) : List Delta :=
  let cs := (r.elemsOf pa n).map fun e =>
    let a := s.readElem r old e
    let b := s.readElem r new e
    (e.1, [r.slotOf e.1 e.2 a.1, r.slotOf e.1 e.2 b.1], (⟨a.1, b.1, r.psnElems.contains e, b.2, e⟩ : Change))
  match r.kind with
  | .hist =>
    (nub (cs.map Prod.fst)).flatMap fun row =>
      let mine := cs.filter fun c => c.1 == row
      let all := mine.any fun c => r.recounts c.2.2
      let slots := if all then (List.range (r.nbin + 1)).map fun i => row * (r.nbin + 1) + i else nub (mine.flatMap fun c => c.2.1)
      slots.map fun k => ⟨r.id, k, mine.map fun c => c.2.2⟩
  | _ =>
    (nub (cs.flatMap fun c => c.2.1)).map fun k => ⟨r.id, k, (cs.filter fun c => c.2.1.contains k).map fun c => c.2.2⟩

/-- ACC with saturation and the sticky OVF (R115). -/
def DSlot.addAcc (d : DSlot) (x : Int) : DSlot :=
  let r := d.acc + x
  let c := satInt 96 r
  if c = r then { d with acc := r } else { (d.setBit stOvf true) with acc := c }

/-- What one value adds to ACC of slot `n` (R115). -/
def DRegion.weight (r : DRegion) (n bits : Nat) : Int :=
  let v := baseVal r.fmt bits
  match r.kind with
  | .hist => if histBin r.hlo r.hwid r.nbin v == n % (r.nbin + 1) then 1 else 0
  | .rowsq => sumImage r.qexp true v
  | _ => sumImage r.qexp false v

/-- hist_or_sum_delta (R115) for a whole message: one indivisible update. -/
def DRegion.applySum (r : DRegion) (n : Nat) (cs : List Change) (d : DSlot) : DSlot :=
  let d := cs.foldl (fun (d : DSlot) c => (d.count (baseVal r.fmt c.old) c.oldPsn false).count (baseVal r.fmt c.new) c.newPsn true) d
  d.addAcc (cs.foldl (fun x c => x + r.weight n c.new - r.weight n c.old) 0)

/-- The value of an element widened to binary64 (R117), or to binary32 for BSCALE (R120). -/
def widen (tf : Fp.Fmt) (fmt bits : Nat) : Nat :=
  match baseVal fmt bits with
  | .nan _ => tf.nanBits
  | v => (Fp.convert tf 0 0 false v).bits

/-- One step of max_delta (R117) on a maximum (or, mirrored, a minimum) `m` with multiplicity `k`; `e` says it was
emptied. -/
def maxStep (f : Fp.Fmt) (mirror : Bool) (o p : Nat) (x : Nat × Nat × Bool) : Nat × Nat × Bool :=
  let (m, k, e) := x
  let vo := Fp.decode f o
  let vp := Fp.decode f p
  let (k, e) := if !vo.isNan && o == m then (k - 1, e || k - 1 == 0) else (k, e)
  if vp.isNan then (m, k, e)
  else
    let vm := Fp.decode f m
    let above := if mirror then Fp.totalLt vp vm else Fp.totalLt vm vp
    if vm.isNan || above then (p, 1, false)
    else if p == m then (m, k + 1, false)
    else (m, k, e)

/-- A ROWMAX message (R117): the slot after it, and whether a rescan starts. -/
def DRegion.applyMax (r : DRegion) (cs : List Change) (d : DSlot) : DSlot × Bool :=
  let d := cs.foldl (fun (d : DSlot) c => (d.count (baseVal r.fmt c.old) c.oldPsn false).count (baseVal r.fmt c.new) c.newPsn true) d
  let x := cs.foldl (fun x c => maxStep Fp.f64 false (widen Fp.f64 r.fmt c.old) (widen Fp.f64 r.fmt c.new) x)
    (d.hi, d.multHi, false)
  let d := { d with hi := x.1, multHi := x.2.1 }
  if x.2.2 then (d.setBit stStale true, true) else (d, false)

/-- A BSCALE message (R120): maximum and minimum with their multiplicities, counts and PARAM; one that empties a multiplicity leaves
the slot's value as it was until the rescan (R123). -/
def DRegion.applyScale (r : DRegion) (cs : List Change) (d : DSlot) : DSlot × Bool :=
  let d := cs.foldl (fun (d : DSlot) c => (d.count (baseVal r.fmt c.old) c.oldPsn false).count (baseVal r.fmt c.new) c.newPsn true) d
  let w := fun b => widen Fp.f32 r.fmt b
  let x := cs.foldl (fun x c => maxStep Fp.f32 false (w c.old) (w c.new) x) (d.hi, d.multHi, false)
  let y := cs.foldl (fun x c => maxStep Fp.f32 true (w c.old) (w c.new) x) (d.lo, d.multLo, false)
  if x.2.2 || y.2.2 then (d.setBit stStale true, true)
  else (({ d with hi := x.1, multHi := x.2.1, lo := y.1, multLo := y.2.1 }).reparam r.wide, false)

/-! ### Rescans and rebuilds -/

/-- The elements that slot `n` covers. -/
def DRegion.elemsOfSlot (r : DRegion) (n : Nat) : List (Nat × Nat) :=
  match r.kind with
  | .hist => (List.range r.cols).map fun c => (n / (r.nbin + 1), c)
  | .bscale =>
    let k := ceilDiv r.cols r.g
    (List.range (min r.g (r.cols - n % k * r.g))).map fun i => (n / k, n % k * r.g + i)
  | _ => (List.range r.cols).map fun c => (n, c)

/-- Slot `n` recomputed from the current base values (R118, R119). OVF is sticky (R116); LOST stays while a base line of
the slot is lost (R127). -/
def State.recompute (s : State) (r : DRegion) (n : Nat) : DSlot :=
  let es := r.elemsOfSlot n
  let old := r.slot n
  let vals : List (Nat × Bool) := es.map fun e => s.readElem r s.hbm e
  let lost := es.any fun e => s.lost.contains (r.elemPa e.1 e.2 / 128)
  let e0 := DSlot.empty r.kind
  let d : DSlot := match r.kind with
    | .rowmax =>
      let d := vals.foldl (fun (d : DSlot) (v : Nat × Bool) => d.count (baseVal r.fmt v.1) v.2 true) e0
      let x := vals.foldl (fun x (v : Nat × Bool) => maxStep Fp.f64 false nan64 (widen Fp.f64 r.fmt v.1) x) (d.hi, 0, false)
      { d with hi := x.1, multHi := x.2.1 }
    | .bscale =>
      let d := vals.foldl (fun (d : DSlot) (v : Nat × Bool) => d.count (baseVal r.fmt v.1) v.2 true) e0
      let x := vals.foldl (fun x (v : Nat × Bool) => maxStep Fp.f32 false nan32 (widen Fp.f32 r.fmt v.1) x) (d.hi, 0, false)
      let y := vals.foldl (fun x (v : Nat × Bool) => maxStep Fp.f32 true nan32 (widen Fp.f32 r.fmt v.1) x) (d.lo, 0, false)
      ({ d with hi := x.1, multHi := x.2.1, lo := y.1, multLo := y.2.1 }).reparam r.wide
    | _ =>
      let d := vals.foldl (fun (d : DSlot) (v : Nat × Bool) => d.count (baseVal r.fmt v.1) v.2 true) e0
      d.addAcc (vals.foldl (fun x (v : Nat × Bool) => x + r.weight n v.1) 0)
  (d.setBit stOvf (d.bit stOvf || old.bit stOvf)).setBit stLost lost

/-- The 8-byte words that hold elements. -/
def DRegion.wordsOf (r : DRegion) (es : List (Nat × Nat)) : List Nat :=
  nub (es.flatMap fun e => (List.range ((r.elemPa e.1 e.2 % 8 + fmtBytes r.fmt + 7) / 8)).map fun i => r.elemPa e.1 e.2 / 8 + i)

/-- A rescan or rebuild reads the base words of slot `n`: their errors are charged, and an uncorrectable one is recorded (R77, R81). -/
def State.readUnit (s : State) (r : DRegion) (n : Nat) : State :=
  (r.wordsOf (r.elemsOfSlot n)).foldl (fun s w =>
    let m := s.hbm.worst (8 * w) 8
    let d := deliver false (s.blockClass (8 * w)) 2 m (s.lost.contains (w / 16))
    (s.noteBad r.part 0xFF m (8 * w) 8).charge r.part d.charge (orderSlice (Config.homeSlice (w / 16)))) s

/-- What PSNC counts after a rescan or rebuild of slot `n` (R127). -/
def State.recount (s : State) (r : DRegion) (n : Nat) : List (Nat × Nat) :=
  let es := r.elemsOfSlot n
  (r.psnElems.filter fun e => !es.contains e) ++ es.filter fun e => (s.readElem r s.hbm e).2

/-- The 64-byte halves of a slot's base elements. -/
def DRegion.unitHalves (r : DRegion) (n : Nat) : List Nat :=
  nub ((r.elemsOfSlot n).flatMap fun e => halvesOf (r.elemPa e.1 e.2) (fmtBytes r.fmt))

/-- Whether the home has every base line of a slot: no half of it is still held by the host as owner (R113). -/
def State.unitReady (s : State) (r : DRegion) (n : Nat) : Bool :=
  (r.unitHalves n).all fun h => halfReady .hbm false (Store.get .inv s.halves h)

/-- A slot's unit is done: its value is replaced, STALE and BUILD are clear; then the waiting reads are answered, and
only after them the held stores are applied, in the order received (R118, R119). It waits until what the host holds of the base has been
recalled (R113). -/
def State.unitDone (s : State) (id n : Nat) : State :=
  match s.region id with
  | none => s
  | some r =>
    if r.pending.contains n && !s.unitReady r n then s.askHalves .hbm false (r.unitHalves n)
    else if r.pending.contains n then
      let d := s.recompute r n
      let l := s.recount r n
      let s := ((s.readUnit r n).putSlot id n d).setPending id fun l => l.filter fun k => k != n
      let s := { s with derived := s.derived.map fun (x : DRegion) => if x.id == id then { x with psnElems := l } else x }
      let readers := (allCores.filter fun c => (s.getCore c).seq.wait == .dread id n).map Action.seq
      s.soon (readers ++ [.event .heldTurn])
    else s

end Sys2Proof.Machine
end

