-- ==== Sys2Proof/Machine/Homes.lean ====
section
/-!
DEFINITION. What happens at a home: the write log (R355), the sealing counters (R372), stores (R125), derived messages
(R115, R117, R120), rescans and rebuilds (R118, R119), acknowledgements, atomics (R204, R280), reductions (R164).
-/

namespace Sys2Proof.Machine

/-! ### The write log -/

/-- How many records the log of a partition holds: SIZE × 64 MiB / 256 (R354, R355). -/
def Part.logCapacity (p : Part) : Nat := p.wlcfg.fld 63 52 * 2 ^ 18

/-- The 8-byte marks of a 128-byte line. -/
def Ram.lineMarks (r : Ram) (line : Nat) : List Mark := (List.range 16).map fun i => Store.get .clean r.marks (line * 16 + i)

/-- The lowest number of a record that no live one has. -/
def Part.freeRecord (p : Part) : Nat :=
  ((List.range (p.wlog.length + 1)).find? fun i => p.wlog.all fun r => r.slot != i).getD 0

/-- The 256 bytes of a record (R355). -/
def LogRec.words (r : LogRec) : List Byte :=
  r.bytes ++ toBytes 8 (r.line * 128) ++ toBytes 4 r.task ++ List.replicate 116 0

/-- A record is written to its place in the log (R354, R355); the log fills lines of owner 0 (R365). -/
def State.writeLog (s : State) (p : Part) (r : LogRec) : State :=
  let at' := p.wlcfg.fld 51 12 * 4096 + 256 * r.slot
  if placeOf at' = .hbm then
    { (s.touchOwn at').touchOwn (at' + 128) with hbm := s.hbm.store at' r.words false }
  else s

/-- Before a revocable task's write, the home records the line as it stands; with no record free the task becomes
irrevocable and FULL is set (R355). Task 0 is none. -/
def State.logLine (s : State) (part task line : Nat) : State :=
  let p := s.getPart part
  let t := s.getTask task
  if task = 0 || t.irrevocable || p.wlcfg.fld 63 52 == 0 then s
  else if p.wlog.length < p.logCapacity then
    let r : LogRec := ⟨p.freeRecord, line, s.hbm.read (line * 128) 128, s.hbm.lineMarks line, task⟩
    (s.writeLog p r).modPart part fun p => { p with wlog := p.wlog ++ [r] }
  else (s.makeIrrevocable part task).modPart part fun p => { p with wlFull := true }

/-! ### Sealed frames -/

/-- The group of 64 lines that holds a line (R372). -/
def groupOf (line : Nat) : Nat := line / 64

/-- Whether a write of a line has no counter left: its major counter, or the tree's root, which counts every write of a sealed line of
the partition and so is the first node at its maximum, would pass it (R372, log entry 110, DESIGN CHOICE). -/
def Part.exhausted (p : Part) (line : Nat) : Bool :=
  (Store.get 0 p.minor line == 127 && Store.get 0 p.major (groupOf line) == 2 ^ 57 - 1) || p.treeRoot == 2 ^ 64 - 1

/-- Whether a write of a sealed line waits: a rekey or its group's re-encryption runs, or it has no counter left (R372). -/
def State.sealWaits (s : State) (part pa : Nat) : Bool :=
  let p := s.getPart part
  s.isSealed pa && (p.sealst.bit 62 || p.reencrypting.contains (groupOf (pa / 128)) || p.exhausted (pa / 128))

/-- A write that waits for want of a counter makes a page request of KIND 1; the first sets EXH and ADDR (R372). -/
def State.sealExhausted (s : State) (part core : Nat) (va : Word) (pa : Nat) : State :=
  let p := s.getPart part
  if !p.sealst.bit 62 && !p.reencrypting.contains (groupOf (pa / 128)) then
    let s := if p.sealst.bit 63 || s.auditRoom = 0 then s else
      let v := (p.sealst.put 63 63 1).put 44 0 (pa / 128)
      (s.modPart part fun p => { p with sealst := v }).present orderMem
        (.audit 6 part 0 (Config.auditLayout 0x84A p.sealst.toNat v.toNat false))
    s.pageRequest (.engine 72 0) va part core 0 1
  else s

/-- A write of a sealed line increments its minor counter; an overflow increments the group's major counter, resets its
minor counters and starts the re-encryption (R372). -/
def State.sealWrite (s : State) (part pa : Nat) : State :=
  if s.isSealed pa then
    let line := pa / 128
    let g := groupOf line
    s.modPart part fun p =>
      let p := { p with treeRoot := p.treeRoot + 1 }
      if Store.get 0 p.minor line == 127 then
        { p with
          major := Store.set 0 p.major g (Store.get 0 p.major g + 1)
          minor := Store.dropWhere (fun l => groupOf l == g) p.minor
          reencrypting := if p.reencrypting.contains g then p.reencrypting else p.reencrypting ++ [g] }
      else { p with minor := Store.set 0 p.minor line (Store.get 0 p.minor line + 1) }
  else s

/-! ### Writes at home -/

/-- The messages a change of memory sends, over every region it feeds. -/
def State.messages (s : State) (old new : Ram) (pa n : Nat) : List Action :=
  s.derived.flatMap fun r => (s.deltas r old new pa n).map fun d => Action.event (deltaEvent r.kind d)

/-- Writes bytes to HBM at their home: the write log, the sealing counters, the bytes and marks (R355, R372). -/
def State.homeWrite (s : State) (part task pa : Nat) (bs : List Byte) (psn : Bool) : State :=
  let s := (linesOf pa bs.length).foldl (fun s l => (s.logLine part task l).sealWrite part (l * 128)) s
  { s with hbm := s.hbm.store pa bs psn }

/-- The lost mark of a line is cleared (R357). -/
def State.found (s : State) (line : Nat) : State :=
  if s.lost.contains line then
    { s with
      lost := s.lost.filter fun l => l != line
      lines := if Store.get .inv s.lines line = .lost then Store.set .inv s.lines line .inv else s.lines }
  else s

/-- The rows or groups that a line feeds: region and a slot of each (R127). -/
def State.unitsOfLine (s : State) (line : Nat) : List (Nat × Nat) :=
  s.derived.flatMap fun r =>
    let us := nub ((r.elemsOf (line * 128) 128).map fun e => r.unitOfElem e.1 e.2)
    us.flatMap fun u =>
      match r.kind with
      | .hist => (List.range (r.nbin + 1)).map fun i => (r.id, u * (r.nbin + 1) + i)
      | _ => [(r.id, u)]

/-- Starts the rebuild of slots: BUILD is set until each is done (R119). -/
def State.startBuild (s : State) (us : List (Nat × Nat)) : State :=
  us.foldl (fun s u =>
    match s.region u.1 with
    | none => s
    | some r =>
      (s.putSlot u.1 u.2 ((r.slot u.2).setBit stBuild true)).setPending u.1 fun l =>
        if l.contains u.2 then l else l ++ [u.2]) s

/-- Whether the device holds the 64-byte halves of these bytes as a write at their home needs them (R280, R386). -/
def State.homeReady (s : State) (pa n : Nat) : Bool :=
  (halvesOf pa n).all fun h => halfReady (placeOf pa) true (Store.get .inv s.halves h)

/-- The ordered stream that a request is of (R282, R390): that of a host function, or of a package and channel. -/
inductive Stream' where
  | host (vf : Nat)
  | peer (pkg ch : Nat)
  deriving DecidableEq, Repr

/-- The stream of a held request, if it is of one. -/
def Held.stream (h : Held) : Option Stream' :=
  match h with
  | .store st =>
    match st.src with
    | .peer p c => some (.peer p c)
    | .host => some (.host st.core)
    | .hostPart => some (.host st.core)
    | _ => none
  | .peer _ a => some (.peer a.spkg a.sch)
  | .forwarded st =>
    match st.src with
    | .peer p c => some (.peer p c)
    | .peerAtom p c _ => some (.peer p c)
    | .host => some (.host st.core)
    | .hostPart => some (.host st.core)
    | _ => none
  | .hostRead vf _ _ _ => some (.host vf)
  | .subreg vf _ => some (.host vf)
  | _ => none

/-- Whether a held request waits behind those of `hs`: one that writes some of the bytes it reads or writes, or one of its stream (R118, R282). -/
def Held.behind (h : Held) (hs : List Held) : Bool :=
  hs.any fun x => x.overlaps h.reach.1 h.reach.2 || (h.stream.isSome && x.stream == h.stream)

/-- Whether a store waits behind held requests. -/
def State.behindHeld (s : State) (st : StoreReq) : Bool := (Held.store st).behind s.held

/-- Whether a request that writes these bytes can be applied at its home: no rescan or rebuild of its row runs, no sealed frame makes it
wait, and its halves are there (R118, R280, R372, R386). -/
def State.canApply (s : State) (part pa n : Nat) : Bool :=
  !s.mustHold pa n && !s.sealWaits part pa && s.homeReady pa n

/-- Whether a write to host memory can be performed: on a host-coherent page its halves are held; with the link dead it fails without
them (R386). -/
def State.hostReady (s : State) (pa n : Nat) (hc : Bool) : Bool := !hc || s.hostDead || s.homeReady pa n

/-- The halves that a held request needs are asked for (R386): none for a write of host memory that is not host-coherent, nor for a read
of a host function. -/
def State.askFor (s : State) (h : Held) : State :=
  let ask : Bool := match h with
    | .store st => st.hc || placeOf st.pa == .hbm
    | .red r => r.hc || placeOf r.pa == .hbm
    | .signal pa _ _ hc _ => hc || placeOf pa == .hbm
    | .hostRead .. => false
    | .subreg .. => false
    | .forwarded _ => false
    | _ => true
  if ask then s.askHalves (placeOf h.reach.1) (decide (0 < h.span.2)) (halvesOf h.reach.1 h.reach.2) else s

/-- A request is held at its home: its halves are asked for, and a want of seal counters is reported (R118, R280, R372). -/
def State.hold (s : State) (h : Held) (part core : Nat) (va : Word) : State :=
  let pa := h.reach.1
  let s := s.askFor h
  let s := if decide (0 < h.span.2) && s.sealWaits part pa && !s.mustHold pa h.span.2 then s.sealExhausted part core va pa else s
  { s with held := s.held ++ [h] }

/-- The packages that hold replicas of an address homed here. -/
def State.holdersOf (s : State) (pa : Nat) : List Nat := Store.get [] s.rpHolders (pa / 65536)

/-- A new write to a replicated page takes its place in seq and goes to every replica (R392); to each package with its number among
the writes sent there (log entry 89, DESIGN CHOICE). -/
def State.cast (s : State) (st : StoreReq) (holders : List Nat) : State :=
  { s with
    nextSeq := s.nextSeq + 1, replicas := s.replicas ++ [⟨s.nextSeq, st, holders⟩]
    rpSent := holders.foldl (fun m p => Store.modify 0 m p (· + 1)) s.rpSent
    out := s.out ++ [.replicaCast s.nextSeq (holders.map fun p => (p, Store.get 0 s.rpSent p)) st] }

/-- A store is applied at its home (R125): on a lost line a partial store is discarded and charged (R357), a full-line store clears
the mark and starts the rebuilds (R127); one to a footprint declared since it was issued is discarded (R124); else its messages go
to every slot it feeds, and only then is it acknowledged; one to a replicated page when every replica has confirmed (R392), which a
discarded one, that writes no byte there, goes round too. -/
def State.storeHere (s : State) (st : StoreReq) : State :=
  let n := st.data.length
  let ack : List Action := [.event (.storeAcknowledged st .done)]
  let line := st.pa / 128
  let whole := st.pa % 128 == 0 && n == 128
  let wasLost := s.lost.contains line
  if s.inFootprint st.pa n then s.soon ack
  else if wasLost && !whole then
    let s := s.charge st.part 64 (orderSlice (Config.homeSlice line))
    match s.holdersOf st.pa with
    | [] => s.soon ack
    | holders => s.cast { st with data := [] } holders
  else
    let old := s.hbm
    let s := s.homeWrite st.part (if st.src == .undo then 0 else st.task) st.pa st.data st.psn
    let s := if whole then s.found line else s
    let (s, ack) := match s.holdersOf st.pa with
      | [] => (s, ack)
      | holders => (s.cast st holders, [])
    if wasLost then (s.startBuild (s.unitsOfLine line)).soon ack else s.soon (s.messages old s.hbm st.pa n ++ ack)

/-- A store through the host port is performed (R206, R386): its bytes reach host memory, or it fails with the link. -/
def State.storeHost (s : State) (st : StoreReq) : State :=
  if s.hostDead then s.soon [.event (.storeAcknowledged st .dead)]
  else
    ((s.writeHost st.pa st.data st.hc).send (.hostStore st.pa st.data)).soon [.event (.storeAcknowledged st .done)]

/-- Whether a store can be performed at its place, HBM or host memory, as far as its own bytes go. -/
def State.storeReady (s : State) (st : StoreReq) : Bool :=
  if placeOf st.pa = .host then s.hostReady st.pa st.data.length st.hc else s.canApply st.part st.pa st.data.length

/-- A store is performed at its place. -/
def State.storeDo (s : State) (st : StoreReq) : State := if placeOf st.pa = .host then s.storeHost st else s.storeHere st

/-- A store performed at its home (R125): held while a rescan or rebuild of its row runs, a sealed frame makes it wait, its halves are
not there, or a held request stands before it; else applied and acknowledged. One to a replica goes on to its home package, and what
comes after it waits until it has come back (R282, R392). -/
def execEvStoreAtHome (st : StoreReq) (s : State) : Result :=
  if st.data.length = 0 then .next (s.soon [.event (.storeAcknowledged st .done)])
  else if placeOf st.pa != .host && s.homePkg st.pa != s.pkgNo then
    .next (State.send { s with held := s.held ++ [.forwarded st] } (.replicaForward (s.homePkg st.pa) st))
  else if s.storeReady st && !s.behindHeld st then .next (s.storeDo st)
  else .next (s.hold (.store st) st.part st.core st.va)

/-- Whether a store may leave for its home: none before it on its way writes some of its bytes, and it is not one that a home on
another package sequences, which comes back as that home's write (R201, R206, R392). -/
def State.mayLeave (s : State) (st : StoreReq) : Bool :=
  let before := s.way.takeWhile fun x => x != st
  (before.all fun x => !(decide (x.pa < st.pa + st.data.length) && decide (st.pa < x.pa + x.data.length)))
    && (placeOf st.pa != .hbm || s.homePkg st.pa == s.pkgNo)

/-- Whether the device holds the halves that a store on its way needs (R386). -/
def State.wayReady (s : State) (st : StoreReq) : Bool :=
  if placeOf st.pa = .host then s.hostReady st.pa st.data.length st.hc else s.homeReady st.pa st.data.length

/-- R201, R206, R284: a store on its way is performed at its home, once the halves that it needs are there. -/
def execEvStoreOnWay (st : StoreReq) (s : State) : Result :=
  if s.way.contains st && s.mayLeave st then
    if s.wayReady st then execEvStoreAtHome st { s with way := s.way.erase st }
    else .next (s.askHalves (placeOf st.pa) true (halvesOf st.pa st.data.length))
  else .next s

/-- The slots in a footprint line. -/
def State.slotsOfLine (s : State) (line : Nat) : List (Nat × Nat) :=
  s.derived.flatMap fun r =>
    if r.inFoot (line * 128) then
      ((List.range r.nslots).filter fun n => r.slotPa n / 128 == line).map fun n => (r.id, n)
    else []

/-- The slots of a footprint line are rebuilt; its words are sound again (R119, R127). -/
def State.rebuildLine (s : State) (line : Nat) : State :=
  let us := s.slotsOfLine line
  (us.foldl (fun s u => match s.region u.1 with
    | some r => { s with hbm := (s.hbm.setMark (r.slotPa u.2 / 8) .clean).setMark (r.slotPa u.2 / 8 + 1) .clean }
    | none => s) s).startBuild us

/-- R119, R127: an uncorrectable error is met in a footprint line: its slots are rebuilt. -/
def execEvSlotError (line : Nat) (s : State) : Result := .next (s.rebuildLine line)

/-- What an uncorrectable word of a slot does to an access of it: it is charged and recorded, and the slots of its line are to be rebuilt
(R119, R127, R322). -/
def State.slotBad (s : State) (r : DRegion) (n : Nat) : State :=
  let m := s.hbm.worst (r.slotPa n) 16
  if m == .bad then (s.noteBad r.part 0xFF m (r.slotPa n) 16).charge r.part 64 (orderSlice (Config.homeSlice (r.slotPa n / 128)))
  else s

/-- What PSNC counts after the changes of a message (R127). -/
def DRegion.psnAfter (r : DRegion) (cs : List Change) : List (Nat × Nat) :=
  cs.foldl (fun l c => (l.filter fun e => e != c.elem) ++ (if c.newPsn then [c.elem] else [])) r.psnElems

/-- Applies a message to a slot by `f`, which also says whether a rescan starts. -/
def State.applyDelta (s : State) (m : Delta) (f : DRegion → DSlot → DSlot × Bool) : State :=
  match s.region m.region with
  | none => s
  | some r =>
    let s := s.slotBad r m.slot
    let s := { s with derived := s.derived.map fun (x : DRegion) =>
      if x.id == m.region then { x with psnElems := r.psnAfter m.changes } else x }
    let x := f r (r.slot m.slot)
    let s := s.putSlot m.region m.slot x.1
    if x.2 then s.setPending m.region fun l => if l.contains m.slot then l else l ++ [m.slot] else s

/-- R115: a withdraw-and-add message to a ROWSUM, ROWSQ or HIST slot, one indivisible update. -/
def execEvSumDeltaMessage (m : Delta) (s : State) : Result :=
  .next (s.applyDelta m fun r d => (r.applySum m.slot m.changes d, false))
/-- R117: a message to a ROWMAX slot; an emptied multiplicity sets STALE and starts a rescan. -/
def execEvMaxDeltaMessage (m : Delta) (s : State) : Result := .next (s.applyDelta m fun r d => r.applyMax m.changes d)
/-- R120: a message to a BSCALE slot. -/
def execEvBscaleDeltaMessage (m : Delta) (s : State) : Result := .next (s.applyDelta m fun r d => r.applyScale m.changes d)

/-- R118: a rescan of the row or group completes: the waiting reads are answered, then the held stores applied. -/
def execEvRescanComplete (region slot : Nat) (s : State) : Result := .next (s.unitDone region slot)
/-- R119: a rebuild of the row or group completes, with the same holding of stores. -/
def execEvRebuildComplete (region slot : Nat) (s : State) : Result := .next (s.unitDone region slot)

/-! ### Acknowledgements -/

/-- Invalidates a cluster's clean CC copies (R68, R277). -/
def State.dropClean (s : State) (cl : Nat) : State :=
  let k := s.getCluster cl
  (s.dropL1 (fun d => clusterOf d == cl) fun x => x.cc && !k.dirtyLine x.line).modCluster cl fun k => { k with clean := [] }

/-- A trap of an instruction that ends outside its own turn; a Frozen member takes it when it runs again (R30, R340). -/
def State.trapLate (s : State) (c : Nat) (t : Trap) (epc : Word) : State :=
  if (s.getCore c).mstate == .frozen then s.modCore c fun k => { k with seq := { k.seq with owed := some ⟨t, epc⟩ } } else s.trapAt c t epc

/-- The scope-policy trap, after the instruction has completed (R206). -/
def State.policyTrap (s : State) (c : Nat) : State := s.trapLate c { code := 21 } (s.getCore c).seq.pc

/-- Completes an atomic that waited at a home: the old value in gd, the next instruction, the effects of an acquire and of the
scope policy (R204, R206, R277). -/
def State.complete (s : State) (a : AtomReq) (v : Word) (psn : Bool) : State :=
  let e := s.enterAs a.core 0 v psn
  let s := e.2.modCore a.core fun k =>
    { k with seq := { (k.seq.setReg a.rd ⟨e.1.1, e.1.2⟩) with
      pc := k.seq.pc + 4, wait := .none
      post := if a.demoted then { k.seq.post with demoted := true } else k.seq.post } }
  let s := if a.inval then s.dropClean (clusterOf a.core) else s
  let s := if a.acq then s.noEarly a.core else s
  if a.strap then s.policyTrap a.core else s

/-- Removes the posted store of a core at an address (R206). -/
def State.settlePosted (s : State) (core : Nat) (va : Word) : State :=
  match s.posted.find? fun p => p.st.core == core && p.st.va == va with
  | none => s
  | some p => { s with posted := s.posted.erase p }

/-- An acknowledged store of a committing round in cycle `now` (R25): with the last, the round has committed, its capture is
released (R53) and its entries leave the buffers, which are free from the next cycle on (R52). -/
def Copy.ack (now : Nat) (c : Copy) : Copy :=
  let c := { c with outstanding := c.outstanding - 1 }
  match c.committing with
  | some n =>
    if c.outstanding = 0 then
      { c with
        committing := none, committed := n + 1, commitAt := now, commitOld := if c.commitAt = now then c.commitOld else c.committed
        buffers := c.buffers.filter fun b => b.round != n
        captures := c.captures.filter fun k => n < k.1 }
    else c
  | none => c

/-- A command with one store fewer outstanding (R239). -/
def Core.ackCmd (k : Core) (id : Nat) : Core :=
  { k with cmds := k.cmds.map fun c => if c.id == id then { c with out := c.out - 1 } else c }

/-- Whether a store through a channel is still to be acknowledged: one that is not has been counted already (R391). -/
def State.outPosted (s : State) (st : StoreReq) : Bool :=
  match placeOf st.pa with
  | .peer _ => s.posted.any fun p => p.st.core == st.core && p.st.va == st.va
  | _ => true

/-- A store is acknowledged to its issuer, where its core still holds a member of the issuer's task (R125), or its failure is counted,
once (R206, R391). A host write's virtual function stands in
the place of its core. -/
def execEvStoreAcknowledged (st : StoreReq) (k : AckKind) (s : State) : Result :=
  let mine := (s.getCore st.core).binding.task == st.task && s.outPosted st
  let s := match placeOf st.pa with
    | .peer _ => s.settlePosted st.core st.va
    | _ => s
  let s := match k with
    | .done => s
    | .refused => if mine then s.failStore st.core st.va true else s
    | .dead => if mine then s.failStore st.core st.va false else s
  .next <| match st.src with
    | .sequencer =>
      if !mine then s
      else if st.data.length = 128 ∧ (s.getCore st.core).seq.wait = .home then
        s.modCore st.core fun c => { c with seq := { c.seq with unacked := c.seq.unacked - 1, pc := c.seq.pc + 4, wait := .none } }
      else if placeOf st.pa = .hbm then s.modCore st.core fun c => { c with seq := { c.seq with unacked := c.seq.unacked - 1 } }
      else s
    | .region stamp copy _ => s.modCopy stamp copy (Copy.ack (s.stampMcc (s.getStamp stamp)))
    | .engine cmd => if mine then s.modCore st.core fun c => c.ackCmd cmd else s
    | .host => s.send (.hostWrite st.core (k == .done))
    | .hostPart => s
    | .peer pkg ch => s.send (.peerAck pkg ch (k == .done) s.tick)
    | .peerAtom pkg ch v => s.send (.peerReply pkg ch (some v) s.tick)
    | .undo => s
    | .atom rd v psn inval demoted strap =>
      if mine then
        s.complete { core := st.core, op := .swap, word := false, va := st.va, pa := st.pa, operand := 0, compare := 0, psn := psn
                     rd := rd, acq := true, inval := inval, demoted := demoted, strap := strap } v psn
      else s

/-! ### Atomics -/

/-- The new value of an atomic of `w` bits (R204). -/
def atomNew (op : AmoOp) (w : Nat) (old operand compare : Nat) : Nat :=
  let o := old % 2 ^ w
  let x := operand % 2 ^ w
  let lt := sextInt w o < sextInt w x
  match op with
  | .add => (o + x) % 2 ^ w
  | .and => o &&& x
  | .or => o ||| x
  | .xor => o ^^^ x
  | .min => if lt then o else x
  | .max => if lt then x else o
  | .minu => if o < x then o else x
  | .maxu => if o < x then x else o
  | .swap => x
  | .cas => if o = compare % 2 ^ w then x else o
  | .fadd =>
    let f := if w = 32 then Fp.f32 else Fp.f64
    (Fp.addV f 0 (Fp.decode f o) (Fp.decode f x)).bits

/-- What an atomic returns to gd: the old value, a word sign-extended, or placed as F32 by FADD.W (R204). -/
def atomResult (op : AmoOp) (w old : Nat) : Word :=
  if w = 64 then BitVec.ofNat 64 old
  else if op = .fadd then BitVec.ofNat 64 (old % 2 ^ 32)
  else wrap64 (sextInt 32 old)

/-- Poison of the value an atomic writes: SWAP writes its operand's; CAS its operand's when it writes it; the others both
(R78, R204; log entry 10, DEDUCED). -/
def atomPoison (op : AmoOp) (hit oldPsn psn : Bool) : Bool :=
  match op with
  | .swap => psn
  | .cas => if hit then psn else oldPsn
  | _ => oldPsn || psn

/-- What an atomic does to the bytes at its place: the old value, the new value, and their poison; none where it faults
with a data error (R77, R78). The last component is the errors charged. -/
def State.atomRun (s : State) (a : AtomReq) (cls k : Nat) (old : Nat) (m : Mark) :
    Option (Nat × Nat × Bool × Bool) × Nat :=
  let w := if a.word then 32 else 64
  let d := deliver false cls k m (s.lost.contains (a.pa / 128))
  if d.fault then (none, d.charge)
  else
    let old := if d.zero then 0 else old
    let hit := decide (old % 2 ^ w = a.compare.toNat % 2 ^ w)
    let psn := atomPoison a.op hit d.psn (a.psn && k == 1)
    if psn && cls == 0 then (none, d.charge)
    else (some (old, atomNew a.op w old a.operand.toNat a.compare.toNat, d.psn || (a.psn && k == 1), psn && cls == 1),
      d.charge + if psn && cls == 2 then 64 else 0)

/-- A line leaves core `c`'s L1, and its cluster's clean copies of it go: what an atomic or reduction that executes at the L2 does
before its result returns (R67, R281). -/
def State.missLine (s : State) (c pa : Nat) : State :=
  (s.dropL1 (fun d => d == c) fun x => x.line == pa / 128).modCluster (clusterOf c) fun k =>
    { k with clean := k.clean.filter fun x => x.1 / 128 != pa / 128 }

/-- An atomic on a replicated page homed here is multicast as a write; its issuer has its value when every replica has confirmed (R392). -/
def State.castAtom (s : State) (a : AtomReq) (bs : List Byte) (wpsn : Bool) (v : Word) (psn : Bool) (holders : List Nat) : State :=
  let b := (s.getCore a.core).binding
  s.cast ⟨.atom a.rd v psn a.inval a.demoted a.strap, a.core, b.task, b.part, a.va, a.pa, bs, wpsn, false⟩ holders

/-- The issuer of an atomic or reduction is told, once its messages are applied (R125). -/
def State.tellIssuer (s : State) (a : Answer) : State :=
  match a with
  | .atom a v psn => s.complete a v psn
  | .red stamp copy => s.modCopy stamp copy (Copy.ack (s.stampMcc (s.getStamp stamp)))
  | .peer pkg ch v => s.send (.peerReply pkg ch (some v) s.tick)
  | .peerAck pkg ch => s.send (.peerAck pkg ch true s.tick)

/-- R125: the messages of a U event are applied, and its issuer is told. -/
def execEvAnswered (a : Answer) (s : State) : Result := .next (s.tellIssuer a)

/-- The answer of a U event after its messages; at once where it has none. -/
def State.afterMessages (s : State) (ms : List Action) (a : Answer) : State :=
  match ms with
  | [] => s.tellIssuer a
  | _ => s.soon (ms ++ [.event (.answered a)])

/-- An atomic ends in a fault of the instruction that waits for it. -/
def State.failAtom (s : State) (a : AtomReq) (t : Trap) : State :=
  (s.modCore a.core fun k => { k with seq := { k.seq with wait := .none } }).trapLate a.core t (s.getCore a.core).seq.pc

/-- An atomic is applied at its L2 home (R204, R280): the derived-store fault where its bytes have become a footprint's (R124), the
data-error fault, or the new value with its messages and the old one to its issuer; a partial write of a lost line is handled under
R357. -/
def State.atomHere (s : State) (a : AtomReq) : State :=
  let n := if a.word then 4 else 8
  let b := (s.getCore a.core).binding
  if s.inFootprint a.pa n then s.failAtom a { code := 14, tval := a.va } else
  let s := s.noteBad b.part a.core (s.hbm.worst a.pa n) a.pa n
  match s.atomRun a (s.blockClass a.pa) b.kclass (s.hbm.num a.pa n) (s.hbm.worst a.pa n) with
  | (none, charge) => (s.charge b.part charge a.core).failAtom a (dataTrap a.va)
  | (some (old, new, rpsn, wpsn), charge) =>
    let s := (s.charge b.part charge a.core).missLine a.core a.pa
    let v := atomResult a.op (8 * n) old
    if s.lost.contains (a.pa / 128) then (s.charge b.part 64 a.core).complete a v rpsn
    else
      let before := s.hbm
      let s := s.homeWrite b.part b.task a.pa (toBytes n new) wpsn
      let ms := s.messages before s.hbm a.pa n
      match s.holdersOf a.pa with
      | [] => s.afterMessages ms (.atom a v rpsn)
      | holders => (s.castAtom a (toBytes n new) wpsn v rpsn holders).soon ms

/-- R204, R280: an atomic executes at its L2 home, indivisibly, and returns the old value to its issuer. It is held as a
store is, until the home holds its half from read to write (R118, R386). -/
def execEvAtomicAtHome (a : AtomReq) (s : State) : Result :=
  let n := if a.word then 4 else 8
  let b := (s.getCore a.core).binding
  if s.canApply b.part a.pa n && !s.held.any (fun h => h.overlaps a.pa n) then .next (s.atomHere a)
  else .next (s.hold (.atom a) b.part a.core a.va)

/-! ### Reductions and combining landings -/

/-- One update at a home: sum, minimum, maximum or bitwise, in a format code (R96, R164). -/
def combine (op : RedOp) (fmt old x : Nat) : Nat :=
  let int (w : Nat) : Nat :=
    let a := sextInt w old
    let b := sextInt w x
    match op with
    | .add => wrapNat w (satInt w (a + b))
    | .min => wrapNat w (min a b)
    | .max => wrapNat w (max a b)
    | .and => (old &&& x) % 2 ^ w
    | .or => (old ||| x) % 2 ^ w
    | .xor => (old ^^^ x) % 2 ^ w
  let flt (f : Fp.Fmt) : Nat :=
    match op with
    | .add => (Fp.addV f 0 (Fp.decode f old) (Fp.decode f x)).bits
    | .min => (Fp.minMax f false old x).bits
    | .max => (Fp.minMax f true old x).bits
    | .and => old &&& x
    | .or => old ||| x
    | .xor => old ^^^ x
  match fmt with
  | 1 => int 32
  | 3 => flt Fp.f64
  | 4 => flt Fp.f32
  | _ => int 64

/-- A no-return reduction is applied at its home as one update (R164). The old word is read under R77 for the page's class: in class P
a bad word stores the result poisoned and the region faults at its next issue cycle; in class D the result is stored poisoned, as it is
for a poisoned value (R78); in class N the bits are used as read. One to a footprint declared since its issue, or to a lost line, writes
nothing (R124, R127, R357). -/
def State.redHere (s : State) (r : RedReq) : State :=
  let n := fmtBytes r.fmt.toNat
  let core := ((s.getStamp r.stamp).copy r.copy).core
  let b := (s.getCore (s.getStamp r.stamp).core).binding
  let cls := s.blockClass r.pa
  if s.inFootprint r.pa n then s.tellIssuer (.red r.stamp r.copy) else
  let lost := s.lost.contains (r.pa / 128)
  let d := deliver false cls 1 (s.hbm.worst r.pa n) lost
  let s := (s.noteBad b.part core (s.hbm.worst r.pa n) r.pa n).charge b.part d.charge core
  let old := d.psn && cls != 2
  let bad := old || r.psn
  let s := if old && cls == 0 then s.modCopy r.stamp r.copy fun c => { c with redFault := some r.va } else s
  if lost then (if b.kclass = 0 then s else s.charge b.part 64 core).tellIssuer (.red r.stamp r.copy) else
  let before := s.hbm
  let bs := toBytes n (combine r.op r.fmt.toNat (s.hbm.num r.pa n) r.value.toNat)
  let s := (s.missLine core r.pa).homeWrite b.part b.task r.pa bs bad
  let ms := s.messages before s.hbm r.pa n
  match s.holdersOf r.pa with
  | [] => s.afterMessages ms (.red r.stamp r.copy)
  | holders =>
    (s.cast ⟨.region r.stamp r.copy 0, core, b.task, b.part, r.va, r.pa, bs, bad, false⟩ holders).soon ms

/-- A no-return reduction to host memory is applied there (R164, R386), or fails with the link (R206). -/
def State.redHost (s : State) (r : RedReq) : State :=
  if s.hostDead then (s.failStore (s.getStamp r.stamp).core r.va false).tellIssuer (.red r.stamp r.copy)
  else
    let n := fmtBytes r.fmt.toNat
    let data := toBytes n (combine r.op r.fmt.toNat (s.host.num r.pa n) r.value.toNat)
    ((s.writeHost r.pa data r.hc).send (.hostStore r.pa data)).tellIssuer (.red r.stamp r.copy)

/-- Whether a reduction can be performed at its place, as far as its own bytes go. -/
def State.redReady (s : State) (r : RedReq) (part : Nat) : Bool :=
  let n := fmtBytes r.fmt.toNat
  if placeOf r.pa = .host then s.hostReady r.pa n r.hc else s.canApply part r.pa n

/-- A reduction is performed at its place. -/
def State.redDo (s : State) (r : RedReq) : State := if placeOf r.pa = .host then s.redHost r else s.redHere r

/-- A store writes some of `n` bytes from `pa` on. -/
def meetsStore (st : StoreReq) (pa n : Nat) : Bool := decide (st.pa < pa + n) && decide (pa < st.pa + st.data.length)

/-- Stores to these bytes that are on their way to host memory are held there before a reduction that comes after them (R161, R272). -/
def State.holdWay (s : State) (pa n : Nat) : State :=
  { s with
    way := s.way.filter fun st => !meetsStore st pa n
    held := s.held ++ (s.way.filter fun st => meetsStore st pa n).map Held.store }

/-- A no-return reduction reaches its place (R164, R280): it is held there as a store is, behind the stores that leave before it. -/
def State.redArrive (s : State) (r : RedReq) : State :=
  let n := fmtBytes r.fmt.toNat
  let st := s.getStamp r.stamp
  let b := (s.getCore st.core).binding
  let s := if placeOf r.pa = .host then s.holdWay r.pa n else s
  if s.redReady r b.part && !s.held.any (fun h => h.overlaps r.pa n) then s.redDo r
  else s.hold (.red r) b.part st.core r.va

/-- R164, R280: a no-return reduction reaches its home: it is held as a store is, and until the home has gained the half of a
host-coherent line. One to host memory is applied there once its halves are held. -/
def execEvReductionAtHome (r : RedReq) (s : State) : Result := .next (s.redArrive r)

/-! ### Undo stores -/

/-- An undo store (R356): the line as its record holds it, with its error state; it clears a lost mark, and its messages return
every slot to its earlier value (R126). A line that has become a footprint's is not written (R124). -/
def State.undoHere (s : State) (r : LogRec) (part : Nat) : State :=
  if s.inFootprint (r.line * 128) 128 then s else
  let old := s.hbm
  let wasLost := s.lost.contains r.line
  let s := (s.sealWrite part (r.line * 128)).dropL1 (fun _ => true) fun x => x.line == r.line && !x.cc
  let m := (List.range 16).foldl (fun m i => m.setMark (r.line * 16 + i) (r.marks.getD i .clean)) (s.hbm.write (r.line * 128) r.bytes)
  let s := State.found { s with hbm := m } r.line
  let s := match s.holdersOf (r.line * 128) with
    | [] => s
    | holders => s.cast ⟨.undo, 0, 0, part, 0, r.line * 128, r.bytes, false, false⟩ holders
  if wasLost then s.startBuild (s.unitsOfLine r.line) else s.soon (s.messages old m (r.line * 128) 128)

/-- An undo store reaches its home, where it is held as a store is (R126). -/
def State.undoLine (s : State) (r : LogRec) (part : Nat) : State :=
  if s.canApply part (r.line * 128) 128 && !s.held.any (fun h => h.overlaps (r.line * 128) 128) then s.undoHere r part
  else s.hold (.undo r part) part 0 0

/-! ### Pushes of CC bytes -/

/-- One line of dirty CC bytes that a cluster pushes: which of them are poisoned, and the partition and task that stored each. -/
def Cluster.dirtyOf (k : Cluster) (cl line : Nat) (p : Nat → Bool) : Push :=
  let here (a : Nat) : Bool := a / 128 == line && p a
  { cluster := cl, line := line, cells := k.dirty.filter fun c => here c.1, psn := k.dirtyPsn.filter here
    by' := k.dirtyBy.filter fun x => here x.1 }

/-- The tasks that stored the bytes of a push, with their partitions. -/
def Push.owners (x : Push) : List (Nat × Nat) := nub (x.by'.map Prod.snd)

/-- The partition whose bytes a push carries. -/
def Push.part (x : Push) : Nat := (x.owners.headD (0, 0)).1

/-- A leaf of a CC page, as a push selects its L2 slice (R67). -/
def ccLeaf : Word := 0x0800000000000000

/-- One line's dirty bytes reach the L2 and are merged byte by byte with their poison (R69, R78): a fill of the owner's (R366); the log
of each task that stored some of them and the sealing counters see the write (R355, R372); on a lost line bytes that do not cover it are
discarded and charged (R357), and those of a line that has become a footprint's are discarded (R124). -/
def State.pushHere (s : State) (x : Push) : State :=
  let whole := decide (128 ≤ x.cells.length)
  let s := s.touchL2 x.part ccLeaf (x.line * 128)
  if s.inFootprint (x.line * 128) 128 then s
  else if s.lost.contains x.line && !whole then s.charge x.part 64 (orderSlice (Config.homeSlice x.line))
  else
    let s := (x.owners.foldl (fun s t => s.logLine t.1 t.2 x.line) s).sealWrite x.part (x.line * 128)
    let s := { s with hbm := s.hbm.storeCells x.cells x.psn }
    if whole then s.found x.line else s

/-- A push of a line reaches the L2, where it is held as a store is (R372, R386). -/
def State.pushLine (s : State) (x : Push) : State :=
  if s.canApply x.part (x.line * 128) 128 && !s.held.any (fun h => h.overlaps (x.line * 128) 128) then s.pushHere x
  else s.hold (.push x) x.part (coreAt x.cluster 0) (BitVec.ofNat 64 (x.line * 128))

/-- Pushes the dirty CC bytes of a cluster that satisfy `p` to the L2, merging byte by byte (R69, R277). -/
def State.push (s : State) (cl : Nat) (p : Nat → Bool) : State :=
  let k := s.getCluster cl
  let ls := nub ((k.dirty.filter fun c => p c.1).map fun c => c.1 / 128)
  let s := ls.foldl (fun s l => s.pushLine (k.dirtyOf cl l p)) s
  s.modCluster cl fun k => { k with
    dirty := k.dirty.filter fun c => !p c.1, dirtyPsn := k.dirtyPsn.filter fun a => !p a, dirtyBy := k.dirtyBy.filter fun x => !p x.1 }

/-- Whether a push of a cluster has not reached the L2 yet. -/
def State.pushing (s : State) (cl : Nat) : Bool :=
  s.held.any fun h => match h with
    | .push x => x.cluster == cl
    | _ => false

/-- R277: a line's dirty bytes are pushed when it is evicted, at any time; the cluster's L1s hold it no more. -/
def execEvCcEvictionPush (cluster line : Nat) (s : State) : Result :=
  let s := { s with evicting := s.evicting.filter fun x => x != (cluster, line) }
  .next ((s.push cluster fun a => a / 128 == line).dropL1 (fun d => clusterOf d == cluster) fun x => x.line == line)

end Sys2Proof.Machine
end

