-- ==== Sys2Proof/Machine/Integer.lean ====
section
/-!
DEFINITION. The sequencer's integer group, the immediates and the long immediates (R195 to R198).
-/

namespace Sys2Proof.Machine

/-- Writes f(ga, gb) to gd; the poison bit is the OR of those read (R195), and no operand value traps (R196). -/
def binary (d a b : Reg) (s : State) (f : Word → Word → Word) : Result :=
  .next (s.result d (f (s.g a).val (s.g b).val) ((s.g a).psn || (s.g b).psn))

/-- Writes f(ga) to gd. -/
def unary (d a : Reg) (s : State) (f : Word → Word) : Result := .next (s.result d (f (s.g a).val) (s.g a).psn)

/-- R196: `ADD`. -/
def execAdd (d a b : Reg) (s : State) : Result := binary d a b s fun x y => x + y
/-- R196: `SUB`. -/
def execSub (d a b : Reg) (s : State) : Result := binary d a b s fun x y => x - y
/-- R196: `MUL`, the low 64 bits. -/
def execMul (d a b : Reg) (s : State) : Result := binary d a b s fun x y => x * y
/-- R196: `MULH`, the high 64 bits of the signed product. -/
def execMulh (d a b : Reg) (s : State) : Result := binary d a b s fun x y => wrap64 ((x.toInt * y.toInt) / 2 ^ 64)
/-- R196: `MULHU`, the high 64 bits of the unsigned product. -/
def execMulhu (d a b : Reg) (s : State) : Result := binary d a b s fun x y => BitVec.ofNat 64 (x.toNat * y.toNat / 2 ^ 64)
/-- R196: `DIV`, toward zero; all ones by zero; -2^63 / -1 wraps to -2^63. -/
def execDiv (d a b : Reg) (s : State) : Result := binary d a b s fun x y => if y = 0 then -1 else wrap64 (x.toInt.tdiv y.toInt)
/-- R196: `DIVU`; all ones by zero. -/
def execDivu (d a b : Reg) (s : State) : Result := binary d a b s fun x y => if y = 0 then -1 else BitVec.ofNat 64 (x.toNat / y.toNat)
/-- R196: `REM`, with the sign of ga; ga by zero. -/
def execRem (d a b : Reg) (s : State) : Result := binary d a b s fun x y => if y = 0 then x else wrap64 (x.toInt.tmod y.toInt)
/-- R196: `REMU`; ga by zero. -/
def execRemu (d a b : Reg) (s : State) : Result := binary d a b s fun x y => if y = 0 then x else BitVec.ofNat 64 (x.toNat % y.toNat)
/-- R196: `AND`. -/
def execAnd (d a b : Reg) (s : State) : Result := binary d a b s fun x y => x &&& y
/-- R196: `OR`. -/
def execOr (d a b : Reg) (s : State) : Result := binary d a b s fun x y => x ||| y
/-- R196: `XOR`. -/
def execXor (d a b : Reg) (s : State) : Result := binary d a b s fun x y => x ^^^ y
/-- R196: `ANDN`, ga and not gb. -/
def execAndn (d a b : Reg) (s : State) : Result := binary d a b s fun x y => x &&& ~~~y
/-- R196: `SLL` by gb[5:0]. -/
def execSll (d a b : Reg) (s : State) : Result := binary d a b s fun x y => x <<< (y.toNat % 64)
/-- R196: `SRL` by gb[5:0]. -/
def execSrl (d a b : Reg) (s : State) : Result := binary d a b s fun x y => x >>> (y.toNat % 64)
/-- R196: `SRA` by gb[5:0]. -/
def execSra (d a b : Reg) (s : State) : Result := binary d a b s fun x y => x.sshiftRight (y.toNat % 64)
/-- R196: `ROT`, left by gb[5:0]. -/
def execRot (d a b : Reg) (s : State) : Result := binary d a b s fun x y => BitVec.ofNat 64 (rotl 64 x.toNat (y.toNat % 64))
/-- R196: `SLT`, signed. -/
def execSlt (d a b : Reg) (s : State) : Result := binary d a b s fun x y => BitVec.ofNat 64 (bit01 (x.slt y))
/-- R196: `SLTU`, unsigned. -/
def execSltu (d a b : Reg) (s : State) : Result := binary d a b s fun x y => BitVec.ofNat 64 (bit01 (x.ult y))
/-- R196: `MIN`, signed. -/
def execMin (d a b : Reg) (s : State) : Result := binary d a b s fun x y => if x.slt y then x else y
/-- R196: `MAX`, signed. -/
def execMax (d a b : Reg) (s : State) : Result := binary d a b s fun x y => if x.slt y then y else x
/-- R196: `MINU`, unsigned. -/
def execMinu (d a b : Reg) (s : State) : Result := binary d a b s fun x y => if x.ult y then x else y
/-- R196: `MAXU`, unsigned. -/
def execMaxu (d a b : Reg) (s : State) : Result := binary d a b s fun x y => if x.ult y then y else x
/-- R196: `CLZ`, leading zero bits. -/
def execClz (d a : Reg) (s : State) : Result := unary d a s fun x => BitVec.ofNat 64 (leadingZeros 64 x.toNat)
/-- R196: `POPC`, one bits. -/
def execPopc (d a : Reg) (s : State) : Result := unary d a s fun x => BitVec.ofNat 64 (popCount 64 x.toNat)

/-- imm16 sign-extended (R134). -/
def sext16 (imm : BitVec 16) : Word := imm.signExtend 64
/-- imm16 zero-extended. -/
def zext16 (imm : BitVec 16) : Word := imm.setWidth 64

/-- R197: `ADDI`. -/
def execAddi (d a : Reg) (imm : BitVec 16) (s : State) : Result := unary d a s fun x => x + sext16 imm
/-- R197: `ANDI`, imm16 zero-extended. -/
def execAndi (d a : Reg) (imm : BitVec 16) (s : State) : Result := unary d a s fun x => x &&& zext16 imm
/-- R197: `ORI`, imm16 zero-extended. -/
def execOri (d a : Reg) (imm : BitVec 16) (s : State) : Result := unary d a s fun x => x ||| zext16 imm
/-- R197: `XORI`, imm16 zero-extended. -/
def execXori (d a : Reg) (imm : BitVec 16) (s : State) : Result := unary d a s fun x => x ^^^ zext16 imm
/-- R197: `SLTI`, signed. -/
def execSlti (d a : Reg) (imm : BitVec 16) (s : State) : Result :=
  unary d a s fun x => BitVec.ofNat 64 (bit01 (x.slt (sext16 imm)))
/-- R197: `SLTIU`, unsigned. -/
def execSltiu (d a : Reg) (imm : BitVec 16) (s : State) : Result :=
  unary d a s fun x => BitVec.ofNat 64 (bit01 (x.ult (sext16 imm)))
/-- R197: `SLLI`. -/
def execSlli (d a : Reg) (n : BitVec 6) (s : State) : Result := unary d a s fun x => x <<< n.toNat
/-- R197: `SRLI`. -/
def execSrli (d a : Reg) (n : BitVec 6) (s : State) : Result := unary d a s fun x => x >>> n.toNat
/-- R197: `SRAI`. -/
def execSrai (d a : Reg) (n : BitVec 6) (s : State) : Result := unary d a s fun x => x.sshiftRight n.toNat
/-- R197: `ROTI`, left. -/
def execRoti (d a : Reg) (n : BitVec 6) (s : State) : Result :=
  unary d a s fun x => BitVec.ofNat 64 (rotl 64 x.toNat n.toNat)
/-- R197: `LUI`, sext(imm16) × 2^16. -/
def execLui (d : Reg) (imm : BitVec 16) (s : State) : Result := .next (s.result d (sext16 imm <<< 16) false)

/-- R142, R198: `LIW`, sext(imm32); a long form, so the next instruction lies 8 bytes on. -/
def execLiw (d : Reg) (imm : BitVec 32) (s : State) : Result := .next (s.result d (imm.signExtend 64) false 8)
/-- R142, R198: `LIWH` replaces bits 63:32 of gd, which it reads. -/
def execLiwh (d : Reg) (imm : BitVec 32) (s : State) : Result :=
  .next (s.result d (imm.setWidth 64 <<< 32 ||| ((s.g d).val.setWidth 32).setWidth 64) (s.g d).psn 8)
/-- R142, R198: `ADDIW`. -/
def execAddiw (d a : Reg) (imm : BitVec 32) (s : State) : Result :=
  .next (s.result d ((s.g a).val + imm.signExtend 64) (s.g a).psn 8)

end Sys2Proof.Machine
end

