-- ==== Sys2Proof/Machine/Scratch.lean ====
section
/-!
DEFINITION. The scratch levels: where an offset lies (R62, R63), the spill map (R74, R75), reads and writes of the
banks, the write pointers (R71, R72).
-/

namespace Sys2Proof.Machine

/-- Where a scratch offset lies: in a core's scratchpad, in a cluster's shared memory, in the chip scratchpad (its own
address), in device memory through the spill map, or nowhere. -/
inductive ScratchLoc where
  | core (c off : Nat) | cm (cluster off : Nat) | cp (addr : Nat) | spill (va : Word) | bad
  deriving DecidableEq, Repr

/-- The device address of a spill offset: the lowest-numbered valid entry that covers it (R75); an entry with SOFF below
45 is treated as invalid (R74). -/
def spillVa (spm : Store Word) (off : Nat) : Option Word :=
  (List.range 8).findSome? fun i =>
    let e := Store.get 0 spm i
    let soff := e.fld 15 8
    if e.bit 0 && decide (45 ≤ soff) && decide (soff * 65536 ≤ off) && decide (off < (soff + e.fld 7 1 + 1) * 65536) then
      some (BitVec.ofNat 64 (e.fld 63 16 * 65536 + off - soff * 65536))
    else none

/-- The place of offset `off` of level 1 `.SP`, 2 `.CM` or 3 `.CP` for a core and partition (R62, R63, R367). -/
def State.scratchLoc (s : State) (c p level : Nat) (off : Word) : ScratchLoc :=
  let o := off.toNat
  match level with
  | 1 =>
    if o < 0x2D0000 then .core c o
    else if o < 0x1000000 then
      match spillVa (s.getCore c).seq.spm o with
      | some va => .spill va
      | none => .bad
    else .bad
  | 2 => if o < 0x5A0000 then .cm (clusterOf c) o else .bad
  | _ =>
    let w := (s.getPart p).cpwin
    if o < w.fld 7 0 * 2 ^ 20 then .cp (w.fld 15 8 * 2 ^ 20 + o) else .bad

/-! ### Banks -/

/-- Groups of banks of a level (R62): 12 of a core scratchpad, 1,024 of the chip scratchpad. -/
def bankGroups (level : Nat) : Nat := if level = 3 then 1024 else 12

/-- The group, bank and row of an offset of a level (R65). -/
def bankOf (level off : Nat) : Nat × Nat × Nat :=
  let o := if level = 2 then off % 983040 else off
  let first := if level = 2 then 4 * (off / 983040) else 0
  let ng := if level = 2 then 4 else bankGroups level
  let w := o / 8
  (first + w / 30 % ng, w % 30, w / (30 * ng))

/-- The banks of a group that are in error at a row or marked failed (R64). -/
def Banks.badAt (b : Banks) (group row : Nat) : List Nat :=
  (List.range 32).filter fun k => b.failed.contains (group, k) || b.errs.contains (group, k, row)

/-- What the symbol code makes of the word of an offset (R64): a word in error is corrected with at most two bad banks in its
stripe, and uncorrectable with more. A word whose own bank is good is delivered as it is, and counts no correction, whatever the other
banks of its stripe (log entry 108, DESIGN CHOICE). -/
def Banks.mark (b : Banks) (level off : Nat) : Mark :=
  let (g, k, row) := bankOf level off
  let bad := b.badAt g row
  if bad.contains k then (if bad.length ≤ 2 then .corrected else .bad) else .clean

/-- The offset of the word that a bank holds at a row (R65). -/
def bankOff (level group bank row : Nat) : Nat :=
  if level = 2 then group / 4 * 983040 + 8 * (row * 120 + group % 4 * 30 + bank) else 8 * (row * (30 * bankGroups level) + group * 30 + bank)

/-- The offsets of the words that read uncorrectable (R64), of a level with so many rows. -/
def Banks.badWords (b : Banks) (level rows : Nat) : List Nat :=
  (nub (b.errs.map Prod.fst ++ b.failed.map Prod.fst)).flatMap fun g =>
    let rs := if 3 ≤ (b.failed.filter fun x => x.1 == g).length then List.range rows
      else nub ((b.errs.filter fun x => x.1 == g).map fun x => x.2.2)
    rs.flatMap fun row =>
      let bad := b.badAt g row
      if bad.length ≤ 2 then [] else (bad.filter fun k => decide (k < 30)).map fun k => bankOff level g k row

/-- A memory whose words in uncorrectable stripes are marked so (R64, R341). -/
def Ram.withBanks (r : Ram) (b : Banks) (level rows : Nat) : Ram :=
  (b.badWords level rows).foldl (fun r o => r.setMark (o / 8) .bad) r

/-- The worse of two error states. -/
def Mark.worse (m n : Mark) : Mark :=
  if m == .bad || n == .bad then .bad
  else if m.isPoisoned then m
  else if n.isPoisoned then n
  else if m == .corrected || n == .corrected then .corrected else .clean

/-- A store encodes the words that it covers anew: they are in error no more, though a bank marked failed stays so (R64). -/
def Banks.stored (b : Banks) (level off n : Nat) : Banks :=
  if b.errs.isEmpty then b
  else
    let whole := (List.range ((off + n) / 8 + 1)).filter fun w => decide (off ≤ 8 * w) && decide (8 * w + 8 ≤ off + n)
    { b with errs := b.errs.filter fun e => !(whole.any fun w => bankOf level (8 * w) == e) }

/-- The error state of the banks that hold the bytes of a place, word by word. -/
def Banks.worst (b : Banks) (level off n : Nat) : Mark :=
  (List.range ((off + n + 7) / 8 - off / 8)).foldl (fun m i => m.worse (b.mark level (8 * (off / 8 + i)))) .clean

/-- The memory of a place on chip, and the address in it. -/
def State.bank (s : State) : ScratchLoc → Ram × Nat
  | .core c o => ((s.getCore c).scratch, o)
  | .cm k o => ((s.getCluster k).cm, o)
  | .cp a => (s.cp, a)
  | _ => ({}, 0)

/-- The error state of `n` bytes of a place on chip: their words' marks, and what the symbol code makes of their banks (R64,
R77, R78). -/
def State.chipWorst (s : State) (l : ScratchLoc) (n : Nat) : Mark :=
  match l with
  | .core c o => ((s.getCore c).scratch.worst o n).worse ((s.getCore c).banks.worst 1 o n)
  | .cm k o => ((s.getCluster k).cm.worst o n).worse ((s.getCluster k).banks.worst 2 o n)
  | .cp a => (s.cp.worst a n).worse (s.cpBanks.worst 3 a n)
  | _ => .clean

/-- The level of a place on chip, and the address in it (R62). -/
def ScratchLoc.spot (l : ScratchLoc) : Nat × Nat :=
  match l with
  | .core _ o => (1, o)
  | .cm _ o => (2, o)
  | .cp a => (3, a)
  | _ => (0, 0)

/-- The bank of a place on chip, by level, core or cluster, group and number, and the row in it (R65). Of the chip scratchpad it is that of
the address, the window's base added (log entry 107, DESIGN CHOICE). -/
def ScratchLoc.bankRow (l : ScratchLoc) : Option ((Nat × Nat × Nat × Nat) × Nat) :=
  let at' (level place off : Nat) : (Nat × Nat × Nat × Nat) × Nat :=
    let x := bankOf level off
    ((level, place, x.1, x.2.1), x.2.2)
  match l with
  | .core c o => some (at' 1 c o)
  | .cm k o => some (at' 2 k o)
  | .cp a => some (at' 3 0 a)
  | _ => none

/-- In how many cycles the island of a bank of the chip scratchpad begins one of its own (R8, R16, R406): those of the other levels
run with their cores. -/
def State.bankLag (s : State) (b : Nat × Nat × Nat × Nat) : Nat :=
  let i := 36 + b.2.2.1 / 64
  let f := islNow (s.isl i)
  if b.1 = 3 then ((List.range 36).find? fun k => decide ((Store.get 0 s.islPhase i + k * f) % 36 < f)).getD 0 else 0

/-- How many cycles an access to a place on chip waits for its bank (R65): the rows that stand before its own there, and the bank's
island. -/
def State.bankWait (s : State) (l : ScratchLoc) : Nat :=
  match l.bankRow with
  | none => 0
  | some x => (((s.bankUse.filter fun u => u.1 == x.1).map Prod.snd).findIdx fun r => r == x.2) + s.bankLag x.1

/-- An access to a place on chip takes its turn at its bank (R65). -/
def State.useBank (s : State) (l : ScratchLoc) : State :=
  match l.bankRow with
  | none => s
  | some x => if s.bankUse.contains x then s else { s with bankUse := s.bankUse ++ [x] }

/-- Each bank whose island has begun a cycle has served a row; the next waits no more (R65). -/
def State.serveBanks (s : State) : State :=
  { s with bankUse := s.bankUse.filter fun u => (s.bankUse.find? fun v => v.1 == u.1) != some u || s.bankLag u.1 != 0 }

/-- A place on chip `o` bytes on. -/
def ScratchLoc.plus (l : ScratchLoc) (o : Nat) : ScratchLoc :=
  match l with
  | .core c a => .core c (a + o)
  | .cm k a => .cm k (a + o)
  | .cp a => .cp (a + o)
  | l => l

/-- The places of the words that `n` bytes from a place on chip touch. -/
def ScratchLoc.words (l : ScratchLoc) (n : Nat) : List ScratchLoc :=
  (List.range ((n + 7) / 8)).map fun i => l.plus (8 * i)

/-- Whether an access of several words waits for one of their banks (R65). -/
def State.banksBusy (s : State) (l : ScratchLoc) (n : Nat) : Bool := (l.words n).any fun w => s.bankWait w != 0

/-- An access of several words takes its turns at their banks. -/
def State.useBanks (s : State) (l : ScratchLoc) (n : Nat) : State := (l.words n).foldl State.useBank s

/-- A read for core `c` that meets an uncorrectable word on chip makes a class-3 record (R322); its VAL is the level in bits 63:62, as
class 4 lays it out, and the word's offset there (log entry 93, DESIGN CHOICE). -/
def State.noteChip (s : State) (part c : Nat) (l : ScratchLoc) (n : Nat) : State :=
  if s.chipWorst l n == .bad then
    s.present c (.saiga (BitVec.ofNat 64 (l.spot.1 * 2 ^ 62 + l.spot.2 / 8 * 8)) part 3 0 0 0 0 c)
  else s

/-- Adds a written granule of core `c` (R341). -/
def State.noteGranule (s : State) (c g : Nat) : State :=
  s.modCore c fun k => if k.granules.contains g then k else { k with granules := k.granules ++ [g] }

/-- A barrier object after a program's store (R33, R7): COUNT and SCOPE take what is stored; GEN, ARRIVED and the reserved bits do
not; BROKEN is cleared by a 1 stored to it. `low`: the store covers BROKEN. -/
def barStored (old new : Nat) (low : Bool) : Nat :=
  let broken := bitOf old 0 && !(low && bitOf new 0)
  fieldOf old 127 96 * 2 ^ 96 + fieldOf new 95 64 * 2 ^ 64 + fieldOf old 63 32 * 2 ^ 32 + fieldOf new 7 4 * 16 + bit01 broken

/-- Shared memory after a program's store: the barrier objects it touches follow their access codes (R33, log entry 86,
DEDUCED). -/
def Cluster.storeBytes (k : Cluster) (o : Nat) (bs : List Byte) (psn : Bool) : Cluster :=
  let hit := k.objects.filter fun b => decide (b < o + bs.length) && decide (o < b + 16)
  let m := k.cm.store o bs psn
  { k with
    cm := hit.foldl (fun m b => m.write b (toBytes 16 (barStored (k.cm.num b 16) (m.num b 16) (decide (o ≤ b))))) m
    banks := k.banks.stored 2 o bs.length }

/-- Writes bytes with one poison bit at a place on chip, and notes the granule (R341). -/
def State.bankStore (s : State) (l : ScratchLoc) (bs : List Byte) (psn : Bool) : State :=
  match l with
  | .core c o => (s.modCore c fun k => { k with scratch := k.scratch.store o bs psn, banks := k.banks.stored 1 o bs.length }).noteGranule c (o / 65536)
  | .cm k o =>
    (s.modCluster k fun cl => cl.storeBytes o bs psn).noteGranule (coreAt k (o / 983040))
      (45 + o % 983040 / 65536)
  | .cp a => { s with cp := s.cp.store a bs psn, cpBanks := s.cpBanks.stored 3 a bs.length }
  | _ => s

/-- R72: bytes [a, b) of level `level` (1 to 3) are ready against channel `ch` of core `c`. -/
def State.ready (s : State) (c level ch a b : Nat) : Bool :=
  let w := Store.get 0xC000000000000000 (s.getCore c).wp ch
  w.fld 63 62 + 1 == level && decide (w.fld 55 28 ≤ a) && decide (b ≤ w.fld 27 0)

/-- The reset value of a write pointer (R71): SPACE 0b11. -/
def wpReset : Word := 0xC000000000000000

/-- A leaf as an access to spill space takes it: of type CO, whatever type the page has (R75). -/
def asCo (leaf : Word) : Word := leaf.put 61 59 0

/-- A load of the sequencer from spill space: an access of type CO (R75). -/
def seqSpillLoad (rd : Reg) (va : Word) (n : Nat) (s : State) : Result :=
  seqAccess va n 0 s fun s leaf pa => loadFrom rd false va n 4 none id s (asCo leaf) pa

/-- A store of the sequencer to spill space (R75). -/
def seqSpillStore (va : Word) (n : Nat) (v : GReg) (s : State) : Result :=
  seqAccess va n 1 s fun s leaf pa => storeOut true va n v.val v.psn s (asCo leaf) pa fun s => s.advance 4

/-- A scratch load of the sequencer (R202), once its bank serves it (R65): zero-extended, delivered under R77 for the kernel's class; what
it reads outside its own scratchpad enters the member (R399). -/
def seqScratchLoad (level n : Nat) (rd : Reg) (off : Word) (s : State) : Result :=
  if off.toNat % n ≠ 0 then .next (s.trap (alignTrap off)) else
  match s.scratchLoc s.core s.me.part level off with
  | .bad => .next (s.trap (scratchTrap off))
  | .spill va => seqSpillLoad rd va n s
  | l =>
    if s.bankWait l ≠ 0 then (s.useBank l).poll else
    let s := s.useBank l
    let (ram, a) := s.bank l
    let d := deliver true 0 s.kclass (s.chipWorst l n) false
    let s := (s.noteChip s.me.part s.core l n).charge s.me.part d.charge s.core
    if d.fault then .next (s.trap (dataTrap off))
    else
      let v := BitVec.ofNat 64 (ram.num a n)
      let (v, s) := if level = 1 then (v, s) else s.enter s.core v
      .next (s.result rd v d.psn)

/-- A scratch store of the sequencer (R202), once its bank serves it (R65); on chip the kernel's class stands for the region's (R76, R78). -/
def seqScratchStore (level n : Nat) (v : GReg) (off : Word) (s : State) : Result :=
  if off.toNat % n ≠ 0 then .next (s.trap (alignTrap off)) else
  match s.scratchLoc s.core s.me.part level off with
  | .bad => .next (s.trap (scratchTrap off))
  | .spill va => seqSpillStore va n v s
  | l =>
    if s.replays s.core && level != 1 then .next (s.advance 4)
    else if s.bankWait l ≠ 0 then (s.useBank l).poll
    else .next (((s.useBank l).bankStore l (toBytes n v.val.toNat) (v.psn && s.kclass == 1)).advance 4)

end Sys2Proof.Machine
end

