-- ==== Sys2Proof/Machine/LoadStore.lean ====
section
/-!
DEFINITION. Plain loads and stores of the sequencer, to device memory (R201) and to scratch (R202).
-/

namespace Sys2Proof.Machine

/-- A plain load: a poisoned address register raises the data-error fault in a class-D kernel (R195); the address is
ga + sext(imm16) (R201). -/
def plainLoad (signed : Bool) (n : Nat) (d a : Reg) (imm : BitVec 16) (s : State) : Result :=
  match s.needClean (s.g a).psn with
  | .error t => .next (s.trap t)
  | .ok _ => seqLoad d signed ((s.g a).val + sext16 imm) n 4 none id s

/-- A plain store of register `v` (R201). -/
def plainStore (n : Nat) (v a : Reg) (imm : BitVec 16) (s : State) : Result :=
  match s.needClean (s.g a).psn with
  | .error t => .next (s.trap t)
  | .ok _ => seqStore true ((s.g a).val + sext16 imm) n (s.g v).val (s.g v).psn (fun s => s.advance 4) s

/-- R201: `LD.B`. -/
def execLdB (d a : Reg) (imm : BitVec 16) (s : State) : Result := plainLoad true 1 d a imm s
/-- R201: `LD.H`. -/
def execLdH (d a : Reg) (imm : BitVec 16) (s : State) : Result := plainLoad true 2 d a imm s
/-- R201: `LD.W`. -/
def execLdW (d a : Reg) (imm : BitVec 16) (s : State) : Result := plainLoad true 4 d a imm s
/-- R201: `LD.D`. -/
def execLdD (d a : Reg) (imm : BitVec 16) (s : State) : Result := plainLoad true 8 d a imm s
/-- R201: `LD.BU`. -/
def execLdBu (d a : Reg) (imm : BitVec 16) (s : State) : Result := plainLoad false 1 d a imm s
/-- R201: `LD.HU`. -/
def execLdHu (d a : Reg) (imm : BitVec 16) (s : State) : Result := plainLoad false 2 d a imm s
/-- R201: `LD.WU`. -/
def execLdWu (d a : Reg) (imm : BitVec 16) (s : State) : Result := plainLoad false 4 d a imm s
/-- R201: `ST.B`. -/
def execStB (v a : Reg) (imm : BitVec 16) (s : State) : Result := plainStore 1 v a imm s
/-- R201: `ST.H`. -/
def execStH (v a : Reg) (imm : BitVec 16) (s : State) : Result := plainStore 2 v a imm s
/-- R201: `ST.W`. -/
def execStW (v a : Reg) (imm : BitVec 16) (s : State) : Result := plainStore 4 v a imm s
/-- R201: `ST.D`. -/
def execStD (v a : Reg) (imm : BitVec 16) (s : State) : Result := plainStore 8 v a imm s

/-- Bytes of a size (R138, R140). -/
def sizeBytes : Size → Nat
  | .b => 1
  | .h => 2
  | .w => 4
  | .d => 8

/-- Number of a level: 1 `.SP`, 2 `.CM`, 3 `.CP` (R140). -/
def levelNo : Level → Nat
  | .sp => 1
  | .cm => 2
  | .cp => 3

/-- The offset of a scratch access: g[ga] + sext(imm16[11:0]) (R202). -/
def scratchOff (a : Word) (off : BitVec 12) : Word := a + off.signExtend 64

/-- R202: the scratch loads. -/
def execScratchLoad (lv : Level) (z : Size) (d a : Reg) (off : BitVec 12) (s : State) : Result :=
  match s.needClean (s.g a).psn with
  | .error t => .next (s.trap t)
  | .ok _ => seqScratchLoad (levelNo lv) (sizeBytes z) d (scratchOff (s.g a).val off) s

/-- R202: the scratch stores. -/
def execScratchStore (lv : Level) (z : Size) (v a : Reg) (off : BitVec 12) (s : State) : Result :=
  match s.needClean (s.g a).psn with
  | .error t => .next (s.trap t)
  | .ok _ => seqScratchStore (levelNo lv) (sizeBytes z) (s.g v) (scratchOff (s.g a).val off) s

end Sys2Proof.Machine
end

