-- ==== Sys2Proof/Machine/Order.lean ====
section
/-!
DEFINITION. Ordered accesses, fences and atomics of the sequencer (R203 to R206, R268, R273, R277, R280).
-/

namespace Sys2Proof.Machine

/-! ### Scopes -/

/-- Whether a scope is device or system, at which CC bytes are pushed and clean copies invalidated (R68, R277). -/
def wideScope : Scope → Bool
  | .dev => true
  | .sys => true
  | _ => false

/-- Whether an instruction at this scope is performed at tenant scope (R206, R268, R364): system scope in a partition
bound to a virtual function whose policy demotes it. -/
def State.demotes (s : State) (sc : Scope) : Bool :=
  let p := s.getPart s.me.part
  sc == .sys && p.ppol.bit 63 && p.prect.fld 57 52 != 0

/-- Whether a demoted instruction raises the scope-policy trap (R206, R364). -/
def State.strapOn (s : State) (sc : Scope) : Bool := s.demotes sc && (s.getPart s.me.part).ppol.bit 62

/-- A release at a scope by a member of cluster `cl`: at device or system scope the cluster's dirty CC bytes are pushed
(R277). -/
def State.release (s : State) (cl : Nat) (sc : Scope) : State := if wideScope sc then s.push cl fun _ => true else s

/-- An acquire of core `c` at a scope: nothing that it reads later was read early (R272), and at device or system scope the cluster's
clean CC lines are invalidated (R68). -/
def State.acquire (s : State) (c : Nat) (sc : Scope) : State :=
  let s := s.noEarly c
  if wideScope sc then s.dropClean (clusterOf c) else s

/-- Sets DEMOTED in the pending status (R206). -/
def State.noteDemoted (s : State) (sc : Scope) : State :=
  if s.demotes sc then s.modQ fun q => { q with post := { q.post with demoted := true } } else s

/-- Whether a store on its way is to device memory. -/
def toHbm (st : StoreReq) : Bool := placeOf st.pa == .hbm

/-- Whether a store is one of a member of core `c`: of its sequencer, its regions or its engines. -/
def storeOf (st : StoreReq) (c : Nat) : Bool :=
  st.core == c && match st.src with
    | .sequencer => true
    | .region .. => true
    | .engine _ => true
    | _ => false

/-- Whether no store of core `c` that satisfies `p` is on its way or held at its home. -/
def State.noneOut (s : State) (c : Nat) (p : StoreReq → Bool) : Bool :=
  (s.way.all fun st => !(storeOf st c && p st)) && s.held.all fun h => match h with
    | .store st => !(storeOf st c && p st)
    | _ => true

/-- Whether the member's earlier accesses are performed at the scope (R205, R273, R276). At core scope a store on its way counts as
performed, since the core's own reads wait for it, unless it is a base store, which is performed when its message is applied. At every
wider scope each store is acknowledged and none is on its way or held, those to host memory included unless the instruction is demoted
(R268); at system scope every store posted on a channel is settled too. -/
def State.settled (s : State) (sc : Scope) : Bool :=
  if sc = .core then
    decide (s.q.unacked ≤ (s.way.filter fun st =>
      toHbm st && st.src == .sequencer && st.core == s.core && !s.inBase st.pa st.data.length).length)
  else
    s.q.unacked == 0 && s.noneOut s.core (fun st => toHbm st || !s.demotes sc)
      && (sc != .sys || s.posted.all fun p => p.st.core != s.core)

/-- A release at a scope, then `k` (R205, R277): it waits until the member's earlier accesses are performed there and, at device or system
scope, until the pushes of its cluster's dirty bytes have reached the L2. -/
def State.releasing (s : State) (sc : Scope) (k : State → Result) : Result :=
  if s.settled sc then
    let s := s.release s.cluster sc
    if wideScope sc && s.pushing s.cluster then s.poll else k s
  else s.poll

/-- Raises the scope-policy trap after the instruction has completed (R206). -/
def State.strap (s : State) (on : Bool) : State := if on then s.policyTrap s.core else s

/-! ### LD.ACQ, ST.REL -/

/-- R203: `LD.ACQ` sign-extends, and is an acquire at its scope; an acquire at system scope is demoted as R206 states. -/
def execLdAcq (sc : Scope) (z : Size) (d a : Reg) (s : State) : Result :=
  match s.needClean (s.g a).psn with
  | .error t => .next (s.trap t)
  | .ok _ => seqLoad d true (s.g a).val (sizeBytes z) 4 (some sc) (fun t => ((t.acquire t.core sc).noteDemoted sc).strap (s.strapOn sc)) s

/-- R203: `ST.REL` is a release at its scope: it waits until every earlier access is performed there, then stores. -/
def execStRel (sc : Scope) (z : Size) (a b : Reg) (s : State) : Result :=
  match s.needClean (s.g a).psn with
  | .error t => .next (s.trap t)
  | .ok _ =>
    if (s.g a).val.toNat % sizeBytes z ≠ 0 then .next (s.trap (alignTrap (s.g a).val))
    else
      let strap := s.strapOn sc
      s.releasing sc fun s =>
        seqStore false (s.g a).val (sizeBytes z) (s.g b).val (s.g b).psn (fun t => (((t.noteDemoted sc).advance 4).strap strap)) s

/-! ### FENCE -/

/-- The status word of a `FENCE.SYS` (R205). -/
def PostStatus.word (p : PostStatus) (demoted : Bool) : Word :=
  BitVec.ofNat 64 (p.failCnt * 2 ^ 56 + bit01 p.dead * 2 ^ 55 + bit01 p.refused * 2 ^ 54
    + bit01 (p.demoted || demoted) * 2 ^ 53 + (if p.failCnt = 0 then 0 else p.fva % 2 ^ 48))

/-- R205, R206: `FENCE` waits until the member's earlier accesses are performed at its scope, pushes and invalidates CC
bytes at device and system scope, and writes the status word, zero below system scope; `FENCE.SYS` reports and clears
the pending status. -/
def execFence (sc : Scope) (d : Reg) (s : State) : Result :=
  s.releasing sc fun s =>
    let strap := s.strapOn sc
    let w := if sc = .sys then s.q.post.word (s.demotes sc) else 0
    let s := s.acquire s.core sc
    let s := if sc = .sys then s.modQ fun q => { q with post := {} } else s
    .next ((s.result d w false).strap strap)

/-! ### Atomics -/

/-- Where an atomic executes (R280): in the issuing core's L1, or at the L2 home. CO pages at core and cluster scope use
the L1 unless the line is host-coherent or a derived base; CC pages at core and cluster scope use the cluster's copy. -/
def State.inL1 (s : State) (sc : Scope) (leaf : Word) (pa n : Nat) : Bool :=
  !wideScope sc && ((leafType leaf == 0 && !leafHc leaf && !s.inBase pa n) || leafType leaf == 1)

/-- An atomic in the L1 (R280, R281): the update is indivisible, on a CC page within the cluster's copy. -/
def atomInL1 (a : AtomReq) (leaf : Word) (s : State) : Result :=
  let n := if a.word then 4 else 8
  let cls := leafClass leaf
  let m := s.seenRam s.cluster leaf a.pa n
  let s := (s.noteBad s.me.part s.core (m.worst a.pa n) a.pa n).dropEarly s.core a.pa n |>.dropSlots s.core
  match s.atomRun a cls s.kclass (m.num a.pa n) (m.worst a.pa n) with
  | (none, charge) => .next ((s.charge s.me.part charge s.core).trap (dataTrap a.va))
  | (some (old, new, rpsn, wpsn), charge) =>
    let s := s.charge s.me.part charge s.core
    let v := atomResult a.op (8 * n) old
    let s := if s.lost.contains (a.pa / 128) then s.charge s.me.part 64 s.core
      else if leafType leaf == 1 then s.writeDirty s.cluster s.me.part s.me.task a.pa (toBytes n new) wpsn
      else s.homeWrite s.me.part s.me.task a.pa (toBytes n new) wpsn
    .next (s.complete a v rpsn)

/-- R204, R280: an atomic: its checks, its release side, then its way to the place where it executes. -/
def atomic (op : AmoOp) (o : AmoOrd) (sc : Scope) (word : Bool) (d a b : Reg) (s : State) : Result :=
  let n := if word then 4 else 8
  let va := (s.g a).val
  match s.needClean (s.g a).psn with
  | .error t => .next (s.trap t)
  | .ok _ =>
    if va.toNat % n ≠ 0 then .next (s.trap (alignTrap va))
    else (fun k => if o.rel then s.releasing sc k else k s) fun s =>
      let ordered := o.acq || o.rel
      seqAccess va n 3 s fun s leaf pa =>
        let psn := (s.g b).psn || (op == .cas && (s.g d).psn)
        let req : AtomReq :=
          { core := s.core, op := op, word := word, va := va, pa := pa, operand := (s.g b).val, compare := (s.g d).val
            psn := psn, rd := d, acq := o.acq, inval := o.acq && wideScope sc, demoted := ordered && s.demotes sc
            strap := ordered && s.strapOn sc }
        let bad := psn && s.kclass == 1
        let wait (ch : Nat) : PeerWait :=
          { ch := ch, rd := d, size := n, signed := true, float := op == .fadd, acq := if ordered then some sc else none
            inval := req.inval, len := 4, va := va, sent := s.tick, psn := bad }
        if s.replays s.core then .next (if (s.replayed s.core 0).isSome then s.complete req 0 false else s.replayOver s.core) else
        match placeOf pa with
        | .none => .next (s.trap (accessTrap va))
        | .peer ch =>
          if s.channelOpen ch s.me.part then
            .next ((s.setWait (.peer (wait ch))).send
              (.atom ch (s.farVa ch va) op word req.operand req.compare s.core s.tick))
          else .next (s.trap (accessTrap va))
        | .host =>
          if s.hostDead then .next (s.trap (accessTrap va))
          else if s.heldOwn s.core pa n then s.poll
          else if s.halvesReady leaf pa n true then
            let w := 8 * n
            let old := s.host.num pa n
            let new := atomNew op w old req.operand.toNat req.compare.toNat
            let s := ((s.touch s.core s.me.part leaf pa true).writeHost pa (toBytes n new) (leafHc leaf)).send (.hostStore pa (toBytes n new))
            let s := s.makeIrrevocable s.me.part s.me.task
            .next (s.complete req (atomResult op w old) bad)
          else (s.askHalves .host true (halvesOf pa n)).poll
        | .hbm =>
          if s.inFootprint pa n then .next (s.trap { code := 14, tval := va })
          else if psn && s.kclass == 1 && leafClass leaf == 0 then .next (s.trap (dataTrap va))
          else if s.lost.contains (pa / 128) && s.kclass == 0 then .next ((s.charge s.me.part 64 s.core).trap (dataTrap va))
          else if s.wayBy (fun d => d == s.core) pa n then s.poll
          else if s.halvesReady leaf pa n true then
            if leafType leaf == 3 && s.homePkg pa != s.pkgNo then
              .next ((s.setWait (.peer (wait (256 + s.homePkg pa)))).send
                (.atom (256 + s.homePkg pa) pa op word req.operand req.compare s.core s.tick))
            else if s.inL1 sc leaf pa n then
              if s.heldAt pa n || s.sealWaits s.me.part pa then s.poll else atomInL1 req leaf (s.touch s.core s.me.part leaf pa true)
            else
              let s := (s.dropEarly s.core pa n).dropSlots s.core
              let s := if leafType leaf == 1 then s.push s.cluster fun x => x / 128 == pa / 128 else s
              .next (((s.touchHome s.core s.me.part leaf pa true).setWait .home).soon [.event (.atomicAtHome req)])
          else (s.askHalves .hbm true (halvesOf pa n)).poll

/-- R204: `AMO.ADD`. -/
def execAmoAdd (o : AmoOrd) (sc : Scope) (w : Bool) (d a b : Reg) (s : State) : Result := atomic .add o sc w d a b s
/-- R204: `AMO.AND`. -/
def execAmoAnd (o : AmoOrd) (sc : Scope) (w : Bool) (d a b : Reg) (s : State) : Result := atomic .and o sc w d a b s
/-- R204: `AMO.OR`. -/
def execAmoOr (o : AmoOrd) (sc : Scope) (w : Bool) (d a b : Reg) (s : State) : Result := atomic .or o sc w d a b s
/-- R204: `AMO.XOR`. -/
def execAmoXor (o : AmoOrd) (sc : Scope) (w : Bool) (d a b : Reg) (s : State) : Result := atomic .xor o sc w d a b s
/-- R204: `AMO.MIN`. -/
def execAmoMin (o : AmoOrd) (sc : Scope) (w : Bool) (d a b : Reg) (s : State) : Result := atomic .min o sc w d a b s
/-- R204: `AMO.MAX`. -/
def execAmoMax (o : AmoOrd) (sc : Scope) (w : Bool) (d a b : Reg) (s : State) : Result := atomic .max o sc w d a b s
/-- R204: `AMO.MINU`. -/
def execAmoMinu (o : AmoOrd) (sc : Scope) (w : Bool) (d a b : Reg) (s : State) : Result := atomic .minu o sc w d a b s
/-- R204: `AMO.MAXU`. -/
def execAmoMaxu (o : AmoOrd) (sc : Scope) (w : Bool) (d a b : Reg) (s : State) : Result := atomic .maxu o sc w d a b s
/-- R204: `AMO.SWAP`. -/
def execAmoSwap (o : AmoOrd) (sc : Scope) (w : Bool) (d a b : Reg) (s : State) : Result := atomic .swap o sc w d a b s
/-- R204: `AMO.CAS`. -/
def execAmoCas (o : AmoOrd) (sc : Scope) (w : Bool) (d a b : Reg) (s : State) : Result := atomic .cas o sc w d a b s
/-- R204: `AMO.FADD`. -/
def execAmoFadd (o : AmoOrd) (sc : Scope) (w : Bool) (d a b : Reg) (s : State) : Result := atomic .fadd o sc w d a b s

/-! ### Joins -/

/-- Whether every engine operation the member has issued has retired, and the stores of those that a fault stopped are performed (R207, R271). -/
def Core.joined (k : Core) : Bool := k.cmds.all fun c => c.retired && c.out == 0

/-- The retired commands are joined and forgotten. -/
def Core.dropJoined (k : Core) : Core := { k with cmds := k.cmds.filter fun c => !c.retired }

/-- The member waits in an instruction that puts it in the Waiting state (R30). -/
def State.await (s : State) (w : Wait) : State := (s.modCur fun k => { k with mstate := .waiting }).setWait w

/-- The member leaves such a wait. -/
def State.awake (s : State) : State := (s.modCur fun k => { k with mstate := .running }).setWait .none

/-- R207: `EJOIN` waits until every engine operation of the member has retired. -/
def execEjoin (s : State) : Result :=
  if s.cur.joined then .next ((((s.modCur Core.dropJoined).noEarly s.core).awake).advance 4) else .next (s.await .join)

end Sys2Proof.Machine
end

