-- ==== Sys2Proof/Machine/System.lean ====
section
/-!
DEFINITION. System registers of a member (R223 to R226), the trap instructions (R230), the delivery of asynchronous
traps (R229), illegal instructions (R143) and `LINE.RESET` (R222).
-/

namespace Sys2Proof.Machine

/-! ### Member registers -/

/-- MID (R225): CORE is that of the member's first bind (R362). -/
def State.midWord (s : State) : Word :=
  BitVec.ofNat 64 (s.me.firstCore % 256 * 2 ^ 32 + s.me.pkg % 4096 * 2 ^ 20 + s.me.memb % 2 ^ 19)

/-- TASKID (R225). -/
def State.taskidWord (s : State) : Word :=
  BitVec.ofNat 64 (s.me.task % 2 ^ 32 * 2 ^ 32 + s.me.depth % 8 * 2 ^ 29 + s.me.kclass % 4 * 2 ^ 27 + s.me.part % 2 ^ 16)

/-- The value of a member register (R224); none for an unlisted number. -/
def State.readSys (s : State) (n : Nat) : Option Word :=
  let q := s.q
  match n with
  | 0 => some q.fpctl
  | 1 => some q.mcc
  | 2 => some (BitVec.ofNat 64 s.tick)
  | 3 => some q.drstat
  | 4 => some (s.getPart s.me.part).ebud
  | 5 => some s.midWord
  | 6 => some s.taskidWord
  | 0x30 => some q.tvec
  | 0x31 => some q.tepc
  | 0x32 => some q.tcause
  | 0x33 => some q.tval
  | n =>
    if 0x10 ≤ n ∧ n < 0x20 then some (Store.get wpReset s.cur.wp (n - 0x10))
    else if 0x20 ≤ n ∧ n < 0x28 then some (Store.get 0 q.spm (n - 0x20))
    else none

/-- Whether the value of a register enters the member from outside it, and is recorded (R399). -/
def outsideReg (n : Nat) : Bool := n == 1 || n == 2 || n == 3 || n == 4 || (decide (0x10 ≤ n) && decide (n < 0x20))

/-- The first word of an `SRR` or `SRW` (R140). -/
def sysWord (major : Nat) (d a : Reg) (n : BitVec 12) : BitVec 32 :=
  BitVec.ofNat 32 (major * 2 ^ 26 + d.toNat * 2 ^ 21 + a.toNat * 2 ^ 16 + n.toNat)

/-- R223: `SRR`. -/
def execSrr (d : Reg) (n : BitVec 12) (s : State) : Result :=
  if 0x400 ≤ n.toNat then .next (s.trap privTrap) else
  match s.readSys n.toNat with
  | none => .next (s.trap (illegalTrap (sysWord 0x1E d 0 n)))
  | some v =>
    let e := if outsideReg n.toNat then s.enter s.core v else (v, s)
    .next (e.2.result d e.1 false)

/-- Whether a phase of the executing member runs (R216). -/
def State.phaseRuns (s : State) : Bool :=
  s.stamps.any fun kv => kv.2.task == s.me.task && kv.2.memb == s.me.memb && kv.2.state == .running && !kv.2.held

/-- TVEC after a write: bit 1 is reserved; setting EN leaves the handler (R227, R229). -/
def Seq.writeTvec (q : Seq) (v : Word) : Seq :=
  { q with tvec := v.put 1 1 0, inHandler := if v.bit 0 then false else q.inHandler }

/-- A write of a member register (R223, R224); a write of a read-only one is ignored. -/
def Seq.writeSys (q : Seq) (n : Nat) (v : Word) : Seq :=
  match n with
  | 0 => { q with fpctl := writeFpctl q.fpctl v }
  | 0x30 => q.writeTvec v
  | 0x31 => { q with tepc := v.put 1 0 0 }
  | n => if 0x20 ≤ n ∧ n < 0x28 then { q with spm := Store.set 0 q.spm (n - 0x20) v } else q

/-- R223, R216: `SRW`; one of SPM0 to SPM7 while a phase of the member runs raises the region-busy trap, before a poisoned value raises
the data-error fault (log entry 111, DESIGN CHOICE). -/
def execSrw (n : BitVec 12) (a : Reg) (s : State) : Result :=
  if 0x400 ≤ n.toNat then .next (s.trap privTrap) else
  match s.readSys n.toNat with
  | none => .next (s.trap (illegalTrap (sysWord 0x1F 0 a n)))
  | some _ =>
    if decide (0x20 ≤ n.toNat) && decide (n.toNat < 0x28) && s.phaseRuns then
      .next (s.trap { code := 18, detail := 1 })
    else
      match s.needClean (s.g a).psn with
      | .error t => .next (s.trap t)
      | .ok _ => .next ((s.modQ fun q => q.writeSys n.toNat (s.g a).val).advance 4)

/-! ### Trap instructions -/

/-- R230: `TRAP n` raises cause 1 with DETAIL n. -/
def execTrap (code : BitVec 5) (s : State) : Result := .next (s.trap { code := 1, detail := code.toNat })

/-- R230: `TRET` sets EN and continues at TEPC; with EN already 1 it raises the illegal-instruction trap. -/
def execTret (s : State) : Result :=
  if s.q.tvec.bit 0 then .next (s.trap (illegalTrap 0x080000A0)) else .next s.trapReturn

/-- R230, R397: `BRK` stops the gang of a task launched with debugging, after the `BRK`; else it has no effect. -/
def execBrk (s : State) : Result :=
  if s.me.dbg then .next ((s.advance 4).soon [.event (.debugStop s.core .brk)]) else .next (s.advance 4)

/-- R143: a fetched word that encodes no instruction raises the illegal-instruction trap and has no effect. -/
def execEvIllegalInstruction (w : BitVec 32) (s : State) : Result := .next (s.trap (illegalTrap w))

/-! ### Asynchronous traps -/

/-- Whether a phase of a stamp is not over: it runs, or, where it has faulted, a round of it is still committing (R213, R271). -/
def Stamp.phaseOn (st : Stamp) : Bool := st.state == .running || (st.state != .idle && st.copies.any fun c => c.committing.isSome)

/-- The stamp that a waiting `PWAIT` waits on has ended its phase: the `PWAIT` completes (R213). -/
def State.phaseEnded (s : State) (stamp : Nat) : Bool := !(s.getStamp stamp).phaseOn

/-- Whether the oldest asynchronous trap of core `c` can be delivered now (R229): the member is at an instruction
boundary, or in a wait that the trap interrupts. With EN = 1 the trap of an engine command is delivered once `EJOIN` completes
(R207); with EN = 0 outside the handler it is not held, and the member is Faulted before `EJOIN` completes (R229, R21, R264, R300). -/
def State.canDeliver (s : State) (c : Nat) : Bool :=
  let k := s.getCore c
  match k.seq.traps with
  | [] => false
  | t :: _ =>
    (k.mstate == .running || k.mstate == .waiting) && (k.seq.tvec.bit 0 || !k.seq.inHandler) &&
      match k.seq.wait with
      | .none => true
      | .join => t.trap.src != 2 || !k.seq.tvec.bit 0
      | .exit => true
      | .phase i => (s.getStamp i).state == .running || s.phaseEnded i
      | .engine => true
      | _ => false

/-- R229: an asynchronous trap is delivered at the member's next instruction boundary. In its handler with EN = 0 it
stays held; with EN = 0 outside the handler the member is Faulted. -/
def execEvAsyncTrapDelivery (core : Nat) (s : State) : Result :=
  if s.canDeliver core then
    match (s.getCore core).seq.traps with
    | [] => .next s
    | t :: rest =>
      let k := s.getCore core
      let done := match k.seq.wait with
        | .phase st => s.phaseEnded st
        | _ => false
      let epc := if done then k.seq.pc + 4 else k.seq.pc
      let s := s.setCore core { k with seq := { k.seq with traps := rest } }
      .next (s.trapAt core t.trap epc)
  else .next s

/-! ### LINE.RESET -/

/-- R222: `LINE.RESET` writes the line as one full-line store of zero bytes, and completes when the store is acknowledged; the
recovery permission is PPOL.RECOV (R364), asked after the alignment (log entry 111, DESIGN CHOICE); the action is audited, and waits
while the log is short (R378). -/
def execLineReset (a : Reg) (s : State) : Result :=
  let va := (s.g a).val
  match s.needClean (s.g a).psn with
  | .error t => .next (s.trap t)
  | .ok _ =>
    if va.toNat % 128 ≠ 0 then .next (s.trap (alignTrap va))
    else if !(s.getPart s.me.part).ppol.bit 61 then .next (s.trap privTrap)
    else if s.auditRoom ≤ 4096 then s.poll
    else
      seqAccess va 128 1 s fun s leaf pa =>
        let st : StoreReq :=
          { src := .sequencer, core := s.core, task := s.me.task, part := s.me.part, va := va, pa := pa
            data := List.replicate 128 0, psn := false }
        let held (s : State) : State :=
          ((s.modQ fun q => { q with unacked := q.unacked + 1 }).setWait .home).present s.core (.audit 11 s.me.part 3 va.toNat)
        if s.replays s.core then .next (s.advance 4) else
        match placeOf pa with
        | .none => .next (s.trap (accessTrap va))
        | .peer ch =>
          if s.channelOpen ch s.me.part then
            let s := { s with posted := s.posted ++ [(⟨ch, s.tick, st⟩ : Posted)] }
            .next ((held s).send (.store ch (s.farVa ch va) st.data s.tick))
          else .next (((s.failStore s.core va false).present s.core (.audit 11 s.me.part 3 va.toNat)).advance 4)
        | .host =>
          if s.hostDead then .next (((s.failStore s.core va false).present s.core (.audit 11 s.me.part 3 va.toNat)).advance 4)
          else .next ((held (s.makeIrrevocable s.me.part s.me.task)).postHost leaf st)
        | .hbm =>
          if s.inFootprint pa 128 then .next (s.trap { code := 14, tval := va })
          else if s.wayBy (fun d => d == s.core) pa 128 then s.poll
          else if s.halvesReady leaf pa 128 true then
            let s := (s.touchHome s.core s.me.part leaf pa true).dropEarly s.core pa 128 |>.dropSlots s.core
            let s := s.modCluster s.cluster fun k =>
              { k with
                dirty := k.dirty.filter fun x => x.1 / 128 != pa / 128
                dirtyPsn := k.dirtyPsn.filter fun x => x / 128 != pa / 128
                dirtyBy := k.dirtyBy.filter fun x => x.1 / 128 != pa / 128
                clean := k.clean.filter fun x => x.1 / 128 != pa / 128 }
            .next (if leafType leaf == 3 then (held s).sendReplica st else (held s).soon [.event (.storeAtHome st)])
          else (s.askHalves .hbm true (halvesOf pa 128)).poll

end Sys2Proof.Machine
end

