-- ==== Sys2Proof/Machine/Barrier.lean ====
section
/-!
DEFINITION. Barriers (R33, R34, R208 to R210): handles, the object in cluster-shared memory, arrivals at the home,
leaving, and BROKEN.
-/

namespace Sys2Proof.Machine

/-! ### Rectangles -/

/-- Whether cluster `cl` lies in the rectangle of a PRECT value (R361). -/
def inRect (prect : Word) (cl : Nat) : Bool :=
  let x := cl / 3 % 2 * 3 + cl % 3
  let y := cl / 6
  decide (cl < 12) && decide (prect.fld 15 13 ≤ x) && decide (x ≤ prect.fld 12 10) && decide (prect.fld 9 9 ≤ y)
    && decide (y ≤ prect.fld 8 8)

/-- The physical cluster of a cluster number that a program of partition `p` names (R362). -/
def State.remap (s : State) (p cl : Nat) : Nat := (s.getPart p).cremap.fld (4 * cl + 3) (4 * cl)

/-! ### Handles -/

/-- The most members a gang has (R32). -/
def maxMembers : Nat := 294912

/-- Packages that the gang of a task may span (R327): NPKG + 1, counted from 0. -/
def Task.packages (t : Task) : Nat := fieldOf t.record.toNat 163 152 + 1

/-- Where a barrier handle leads (R208): another package, with the handle to send there, or a cluster of this one with the
offset. -/
inductive BarPlace where
  | far (pkg : Nat) (handle : Word) | here (cluster off : Nat)
  deriving DecidableEq, Repr

/-- A barrier handle as a message to another package carries it: CLUS rewritten through CREMAP (R362). -/
def handleFor (h : Word) (phys : Nat) : Word := h.put 27 24 phys

/-- Checks a handle of the member of core `c` in the order of R208, with the CLUS check of R362; `bad` is a further
operand-range failure of the instruction. -/
def State.barPlace (s : State) (c : Nat) (h : Word) (bad : Bool) : Except Trap BarPlace :=
  let b := (s.getCore c).binding
  let pkg := h.fld 40 28
  let cl := h.fld 27 24
  let off := h.fld 22 0
  let own := pkg == 0x1FFF || pkg == b.pkg
  let phys := if cl = 15 then clusterOf c else s.remap b.part cl
  if bad || h.fld 63 41 != 0 || h.bit 23 || (decide (12 ≤ cl) && decide (cl < 15))
      || (!own && decide ((s.getTask b.task).packages ≤ pkg))
      || (cl != 15 && !inRect (s.getPart b.part).prect phys) then .error rangeTrap
  else if off % 16 ≠ 0 then .error (alignTrap h)
  else if 0x5A0000 ≤ off then .error (scratchTrap h)
  else if own then .ok (.here phys off) else .ok (.far pkg (handleFor h phys))

/-- Number of a scope (R33). -/
def scopeNo : Scope → Nat
  | .core => 0
  | .clus => 1
  | .dev => 2
  | .sys => 3

/-- The scope a barrier object's SCOPE names; 4 to 15 never arrive. -/
def scopeOf (n : Nat) : Scope :=
  match n with
  | 0 => .core
  | 1 => .clus
  | 2 => .dev
  | _ => .sys

/-! ### The object -/

/-- The 16 bytes of a barrier object (R33). -/
def State.barObj (s : State) (cl off : Nat) : Nat := (s.getCluster cl).cm.num off 16

/-- GEN. -/
def barGen (w : Nat) : Nat := fieldOf w 127 96
/-- COUNT. -/
def barCount (w : Nat) : Nat := fieldOf w 95 64
/-- ARRIVED. -/
def barArrived (w : Nat) : Nat := fieldOf w 63 32
/-- SCOPE. -/
def barScope (w : Nat) : Nat := fieldOf w 7 4
/-- BROKEN. -/
def barBroken (w : Nat) : Bool := bitOf w 0

/-- An arrival that traps at once (R210). -/
def barBad (w : Nat) : Bool :=
  barCount w == 0 || decide (maxMembers < barCount w) || decide (4 ≤ barScope w) || barBroken w

/-- A member's mark in the home's record. -/
def memberKey (b : Binding) : Nat := b.task * 2 ^ 19 + b.memb

/-- The home's record of the object at `off`. -/
def Cluster.arrivals (k : Cluster) (off : Nat) : List (Nat × Nat) :=
  ((k.participants.find? fun p => p.1 == off).map Prod.snd).getD []

/-- The record replaced. -/
def Cluster.setArrivals (k : Cluster) (off : Nat) (l : List (Nat × Nat)) : Cluster :=
  { k with participants :=
      (k.participants.filter fun p => p.1 != off) ++ (if l.isEmpty then [] else [(off, l)]) }

/-- Writes bytes of a barrier object, as its home does, and notes the granule (R341). -/
def State.barWrite (s : State) (cl off : Nat) (bs : List Byte) : State :=
  (s.modCluster cl fun k => { k with cm := k.cm.store off bs false, banks := k.banks.stored 2 off bs.length }).noteGranule
    (coreAt cl (off / 983040)) (45 + off % 983040 / 65536)

/-- The members of other packages that wait at an object are told a value, and wait no more (R34). -/
def State.tellFar (s : State) (cl off : Nat) (v : Option Word) : State :=
  let go := (s.getCluster cl).farWaits.filter fun x => x.1 == off
  let s := s.modCluster cl fun k => { k with farWaits := k.farWaits.filter fun x => x.1 != off }
  go.foldl (fun s x => s.send (.barrierReply x.2.1 x.2.2.1 x.2.2.2 v)) s

/-- What a release tells a member on another package: GEN as it waited for, and SCOPE above it (log entry 87, DESIGN CHOICE). -/
def releaseWord (w : Nat) : Word := BitVec.ofNat 64 (barScope w * 2 ^ 32 + barGen w)

/-- A barrier's home reads the object's words for an arrival (R64, R77): their errors are charged and recorded; the read fails where it
faults, or delivers poison, for a kernel of class `k`. -/
def State.barRead (s : State) (part k c cl off : Nat) : Bool × State :=
  let x := (wordParts off 16).foldl (fun (x : Bool × Nat) w =>
    let d := deliver true 0 k (s.chipWorst (.cm cl w.1) w.2) false
    (x.1 || d.fault || d.psn, x.2 + d.charge)) (false, 0)
  (x.1, (s.noteChip part c (.cm cl off) 16).charge part x.2 c)

/-- Counts one arrival (R34): the generation advances on the arrival that makes ARRIVED equal to COUNT, and releases those who
wait on other packages. -/
def State.countArrival (s : State) (cl off key : Nat) : State :=
  let w := s.barObj cl off
  let last := barArrived w + 1 == barCount w
  let arrived := if last then 0 else barArrived w + 1
  let gen := if last then (barGen w + 1) % 2 ^ 32 else barGen w
  let s := (s.barWrite cl (off + 4) (toBytes 4 arrived)).barWrite cl (off + 12) (toBytes 4 gen)
  let s := s.modCluster cl fun k =>
    k.setArrivals off (((k.arrivals off).filter fun p => p.1 != key) ++ [(key, barGen w)])
  if last then s.tellFar cl off (some (releaseWord w)) else s

/-- The barrier-broken trap. -/
def brokenTrap : Trap := { code := 19 }

/-- The member of core `c` runs again and waits for nothing. -/
def State.wake (s : State) (c : Nat) : State :=
  s.modCore c fun k => { k with mstate := .running, seq := { k.seq with wait := .none } }

/-- The member of core `c` arrives at the home (R34, R210): the data-error fault of a bad word (R77), the trap at once, or the count and
the wait. -/
def State.arrive (s : State) (c cl off : Nat) : State :=
  let b := (s.getCore c).binding
  let r := s.barRead b.part b.kclass c cl off
  let s := r.2
  let w := s.barObj cl off
  if r.1 then (s.wake c).trapAt c (dataTrap (BitVec.ofNat 64 off)) (s.getCore c).seq.pc
  else if barBad w then (s.wake c).trapAt c brokenTrap (s.getCore c).seq.pc
  else
    let s := s.modCore c fun k =>
      { k with mstate := .waiting, seq := { k.seq with wait := .barrier cl off (barGen w) } }
    s.countArrival cl off (memberKey (s.getCore c).binding)

/-- A stream of the record log that holds the barrier leaves of a member: their cycles, marked where the leave is the barrier-broken trap
(R399). -/
def barStream : Nat := 998

/-- Records a leave of the executing member (R399). -/
def State.recordLeave (s : State) (broken : Bool) : State := s.recordOn s.core barStream (2 ^ 64 - 1) s.q.mcc broken

/-- R210, R34: leaving a barrier of the executing core: when GEN has moved past the value seen, an acquire at the
scope; when BROKEN was set, the barrier-broken trap; else the wait goes on. -/
def State.leaveBar (s : State) (h : Word) (cl off gen : Nat) : Result :=
  let w := s.barObj cl off
  if barGen w ≠ gen then
    let sc := scopeOf (barScope w)
    let strap := s.strapOn sc
    let s := (s.trace s.core 10 0 0 h (BitVec.ofNat 64 gen) 0 0).recordLeave false
    .next (((s.acquire s.core sc).awake.advance 4).strap strap)
  else if barBroken w then .next ((s.recordLeave true).awake.trap brokenTrap)
  else .next (s.await (.barrier cl off gen))

/-- Leaving a barrier of another package (R34, R210): with the SCOPE and GEN that its home has told, or broken. -/
def State.leaveFar (s : State) (h : Word) (value : Option Word) : Result :=
  let s := s.modQ fun q => { q with barReply := none }
  match value with
  | none => .next ((s.recordLeave true).awake.trap brokenTrap)
  | some w =>
    let sc := scopeOf (w.fld 35 32)
    let strap := s.strapOn sc
    let s := (s.trace s.core 10 0 0 h (BitVec.ofNat 64 (w.fld 31 0)) 0 0).recordLeave false
    .next ((((s.acquire s.core sc).noteDemoted sc).awake.advance 4).strap strap)

/-- A `BAR` in a replay (R400): it arrives nowhere, and leaves on its recorded cycle. -/
def State.replayBar (s : State) (h : Word) : Result :=
  match s.replayed s.core barStream with
  | none => .next (s.replayOver s.core)
  | some r =>
    if s.q.mcc.toNat < r.1.1.toNat then .next (s.await (.remoteBarrier s.pkgNo h))
    else if r.1.2 then .next (r.2.awake.trap brokenTrap)
    else .next (r.2.awake.advance 4)

/-- R210: `BAR`: the arrival, a release at the object's scope, then the wait. In a replay it only takes the recorded
leave (R400). -/
def execBar (a : Reg) (s : State) : Result :=
  match s.q.wait with
  | .barrier _ off gen =>
    match s.barPlace s.core (s.g a).val false with
    | .ok (.here cl _) => s.leaveBar (s.g a).val cl off gen
    | _ => .next (s.await s.q.wait)
  | .remoteBarrier _ h =>
    if s.replays s.core then s.replayBar h else
    match s.q.barReply with
    | some v => s.leaveFar h v
    | none => .next (s.await s.q.wait)
  | .barInit => .next s
  | _ =>
    match s.needClean (s.g a).psn with
    | .error t => .next (s.trap t)
    | .ok _ =>
      match s.barPlace s.core (s.g a).val false with
      | .error t => .next (s.trap t)
      | .ok p =>
        if s.replays s.core then s.replayBar (s.g a).val else
        match p with
        | .here cl off =>
          let w := s.barObj cl off
          let sc := scopeOf (barScope w)
          if barBad w then .next (s.trap brokenTrap)
          else s.releasing sc fun s =>
            let s := s.noteDemoted sc
            if cl = s.cluster then .next (s.arrive s.core cl off)
            else .next ((s.await (.remoteBarrier s.pkgNo (s.g a).val)).soon
              [.event (.barrierArrivalMessage (.core s.core) (s.g a).val)])
        | .far pkg h => s.releasing .sys fun s =>
          .next ((s.await (.remoteBarrier pkg (s.g a).val)).send (.barrier pkg h s.me.task s.me.memb))

/-- Whether a cluster and offset that a message of another package names are a place that a member of a task may use here: those of a
task that is known here and has not ended, in a cluster of its partition's rectangle, and an object of shared memory (R3, R208, R362). -/
def State.farPlace (s : State) (task : Nat) (h : Word) : Bool :=
  let t := s.getTask task
  let prect := (s.getPart t.part).prect
  t.state != .retired && t.state != .aborted && prect.bit 63 && inRect prect (h.fld 27 24)
    && h.fld 22 0 % 16 == 0 && decide (h.fld 22 0 < 0x5A0000)

/-- R34, R210: an arrival from outside the home cluster reaches the home. That of a member of another package is answered at once
where the object is broken or names no place of its partition, and waits there for its release. -/
def execEvBarrierArrivalMessage (who : Arriver) (handle : Word) (s : State) : Result :=
  match who with
  | .core core =>
    match (s.getCore core).seq.wait with
    | .remoteBarrier pkg h =>
      if pkg = s.pkgNo ∧ h = handle then
        match s.barPlace core handle false with
        | .ok (.here cl off) => .next (s.arrive core cl off)
        | _ => .next s
      else .next s
    | _ => .next s
  | .far pkg task memb =>
    let cl := handle.fld 27 24
    let off := handle.fld 22 0
    let t := s.getTask task
    if !s.farPlace task handle then .next (s.send (.barrierReply pkg task memb none)) else
    let r := s.barRead t.part (fieldOf t.record.toNat 148 147) 0xFF cl off
    let s := r.2
    if !r.1 && !barBad (s.barObj cl off) then
      .next ((s.modCluster cl fun k => { k with farWaits := k.farWaits ++ [(off, pkg, task, memb)] }).countArrival cl off
        (task * 2 ^ 19 + memb))
    else .next (s.send (.barrierReply pkg task memb none))

/-- Writes a barrier object with the values of R33 and empties the home's record of participants (R209). -/
def State.initBar (s : State) (cl off scope count : Nat) : State :=
  (s.barWrite cl off (toBytes 16 (count * 2 ^ 64 + scope * 16))).modCluster cl fun k =>
    { k.setArrivals off [] with objects := if k.objects.contains off then k.objects else k.objects ++ [off] }

/-- R209, R302: a `BAR.INIT` of a member of another package reaches the object's home, which answers when it is written. -/
def execEvFarBarInit (pkg task memb : Nat) (handle : Word) (scope count : Nat) (s : State) : Result :=
  if s.farPlace task handle then
    .next ((s.initBar (handle.fld 27 24) (handle.fld 22 0) scope count).send (.barInitDone pkg task memb))
  else .next (s.send (.barInitDone pkg task memb))

/-- R209: `BAR.INIT` writes the object and empties the home's record of participants. -/
def execBarInit (sc : Scope) (a b : Reg) (s : State) : Result :=
  match s.q.wait with
  | .barInit => .next s
  | _ =>
    let count := (s.g b).val.toNat
    match s.needClean ((s.g a).psn || (s.g b).psn) with
    | .error t => .next (s.trap t)
    | .ok _ =>
      match s.barPlace s.core (s.g a).val (decide (count = 0) || decide (maxMembers < count)) with
      | .error t => .next (s.trap t)
      | .ok p =>
        if s.cur.replay.isSome then .next (s.advance 4) else
        match p with
        | .here cl off => .next ((s.initBar cl off (scopeNo sc) count).advance 4)
        | .far pkg h => .next ((s.setWait .barInit).send (.barrierInit pkg h (scopeNo sc) count s.me.task s.me.memb))

/-! ### BROKEN -/

/-- Sets BROKEN in the object at `off` of a cluster; those who wait on other packages leave with the trap (R34). -/
def State.breakBar (s : State) (cl off : Nat) : State :=
  (s.barWrite cl off [BitVec.ofNat 8 (s.barObj cl off % 256 / 2 * 2 + 1)]).tellFar cl off none

/-- A counted participant retires or faults: every object at which it has not arrived in the current generation is
broken (R33). -/
def State.breakFor (s : State) (key : Nat) : State :=
  (List.range 12).foldl (fun s cl =>
    (s.getCluster cl).participants.foldl (fun s p =>
      if p.2.any fun x => x.1 == key && x.2 != barGen (s.barObj cl p.1) then s.breakBar cl p.1 else s) s) s

/-- The other packages of a gang are told of a member here. -/
def State.tell (s : State) (task memb : Nat) (n : GangNews) : State :=
  if (s.getTask task).packages = 1 then s else s.send (.gangNews task memb n)

/-- A member retires or faults, having issued the collectives of `coll`: the barriers here that it was counted in break, and what it has
issued is kept for the other parts (R31, R33, R258). -/
def State.noteGone (s : State) (task memb : Nat) (coll : List ((Nat × Nat) × Nat)) : State :=
  (s.breakFor (task * 2 ^ 19 + memb)).modTask task fun t =>
    { t with gone := if t.gone.any fun g => g.1 == memb then t.gone else t.gone ++ [(memb, coll)] }

/-- R33, R258: a member of this package has faulted. -/
def execEvMemberGone (task memb : Nat) (s : State) : Result :=
  let coll := match allCores.find? fun c => (s.getCore c).bind.isSome && (s.getCore c).binding.task == task && (s.getCore c).binding.memb == memb with
    | some c => (s.getCore c).collSeq
    | none => []
  .next ((s.noteGone task memb coll).tell task memb (.faulted coll))

end Sys2Proof.Machine
end

