-- ==== Sys2Proof/Machine/Tasks.lean ====
section
/-!
DEFINITION. Members' retirement and the scrub (R31, R373, R374), tasks: completion objects and signals (R35 to R39),
submission and acceptance (R327 to R330), `TRIG`, `LAUNCH` (R218, R219) and aborts (R331, R353).
-/

namespace Sys2Proof.Machine

/-! ### Releasing stamps and cores -/

/-- Frees the handle `h` of core `c`, where it names stamp `i`. -/
def State.freeHandle (s : State) (i c h : Nat) : State :=
  s.modCore c fun k =>
    match Store.get none k.handles h with
    | some r => if r.stamp = i then { k with handles := Store.set none k.handles h none } else k
    | none => k

/-- Releases every region of a stamp, on every core, and its handles (R213). -/
def State.freeStamp (s : State) (i : Nat) : State :=
  let st := s.getStamp i
  let s := st.copies.foldl (fun s c => s.freeHandle i c.core c.handle) (s.freeHandle i st.core st.handle)
  { s with stamps := Store.erase s.stamps i }

/-- The stamps that satisfy `p`. -/
def State.stampsWhere (s : State) (p : Stamp → Bool) : List Nat := Store.keysWhere (fun _ st => p st) s.stamps

/-- Frees the stamps of a member. -/
def State.freeStampsOf (s : State) (task memb : Nat) : State :=
  (s.stampsWhere fun st => st.task == task && st.memb == memb).foldl State.freeStamp s

/-- A copy whose core is scrubbed: nothing of its region is left (R373). -/
def Copy.scrubbed (c : Copy) : Copy := { c with reg := {}, captures := [], buffers := [], buses := [], done := true, gone := true }

/-- Whether a copy still runs frames or rounds of its stamp's phase (R28). -/
def Stamp.runsOn (st : Stamp) (c : Nat) : Bool :=
  !st.held && st.copies.any fun x => x.core == c && !x.gone && ((st.state == .running && !x.done) || x.committing.isSome)

/-- Scrubs the copies on core `c` of stamps that other members loaded, but those whose phase still runs: they go on until it retires
(R28, log entry 90, DESIGN CHOICE). -/
def State.scrubCopies (s : State) (c : Nat) : State :=
  { s with stamps := s.stamps.map fun (kv : Nat × Stamp) =>
    if kv.2.held || kv.2.runsOn c then kv
    else (kv.1, { kv.2 with copies := kv.2.copies.map fun (x : Copy) => if x.core == c then x.scrubbed else x }) }

/-- An out-of-service bit that takes effect (R320): a class-4 record (R322). -/
def State.applyOos (s : State) (c : Nat) : State :=
  match (s.getCore c).oosWanted with
  | some b =>
    let k := s.getCore c
    if (b && k.bind.isSome) || (!b && k.scrub) then s
    else
      let s := s.setCore c { k with oos := b, oosWanted := none }
      if b && !k.oos then s.present orderSaiga (.saiga 0 0xFFFF 4 0 4 0 0 c) else s
  | none => s

/-- A directory line after core `c`'s L1 has written back and dropped it (R373, R384). -/
def LineState.without (c : Nat) : LineState → LineState
  | .excl d => if d = c then .inv else .excl d
  | .modified d => if d = c then .inv else .modified d
  | l => l

/-- The core of a member that is released (R373): everything of it is zeroed, its TLBs are empty, the cluster's dirty CC
bytes are written back and its L1 is empty; SCRUB is set. The failures of its banks stay (R64). -/
def State.releaseCore (s : State) (c : Nat) (m : MState) : State :=
  let s := ((s.push (clusterOf c) fun _ => true).dropClean (clusterOf c)).scrubCopies c
  let s := { s with lines := s.lines.map fun (kv : Nat × LineState) => (kv.1, kv.2.without c) }
  let k := s.getCore c
  let s := s.setCore c
    { mstate := m, fused := k.fused, oos := k.oos, oosWanted := k.oosWanted, bkpt := k.bkpt, dumpBase := k.dumpBase
      dumpBusy := k.dumpBusy, shadow := k.shadow, scrub := true, scrubTask := k.binding.task
      banks := { k.banks with errs := [] } }
  s.applyOos c

/-- Bytes of a cluster share (R341). -/
def shareBytes : Nat := 983040

/-- Whether an offset lies in the share that begins at `lo`. -/
def inShare (lo off : Nat) : Bool := decide (lo ≤ off) && decide (off < lo + shareBytes)

/-- The share of a core is zeroed, with the records of the barrier objects in it (R33, R374). -/
def State.clearShare (s : State) (c : Nat) : State :=
  let lo := withinOf c * shareBytes
  s.modCluster (clusterOf c) fun x => { x with
    cm := x.cm.clear lo shareBytes, banks := x.banks.stored 2 lo shareBytes
    participants := x.participants.filter fun p => !inShare lo p.1
    objects := x.objects.filter fun o => !inShare lo o
    farWaits := x.farWaits.filter fun w => !inShare lo w.1 }

/-- R373, R374: the scrub of a released core ends and SCRUB clears; the cluster share is zeroed then, and not while
another member of the same task stays bound in the cluster, nor while a copy of another member's stamp still runs here. -/
def execEvCoreScrubComplete (core : Nat) (s : State) : Result :=
  let k := s.getCore core
  let waits := (coresOf (clusterOf core)).any fun c =>
    match (s.getCore c).bind with
    | some b => b.task == k.scrubTask
    | none => false
  if k.scrub && !waits && s.stamps.all fun kv => !kv.2.runsOn core then
    let s := (s.clearShare core).scrubCopies core
    .next ((s.setCore core { k with scrub := false, mstate := .unbound, scrubTask := 0 }).applyOos core)
  else .next s

/-! ### Tasks and their records -/

/-- A field of a launch record (R327). -/
def Task.fld (t : Task) (hi lo : Nat) : Nat := fieldOf t.record.toNat hi lo
/-- NMEMB. -/
def Task.nmemb (t : Task) : Nat := t.fld 258 240
/-- The address of the completion object. -/
def Task.comp (t : Task) : Nat := t.fld 479 436 * 16
/-- The non-zero dependences. -/
def Task.deps (t : Task) : List Nat :=
  ([t.fld 435 392, t.fld 391 348, t.fld 347 304, t.fld 303 260].filter fun d => d != 0).map fun d => d * 16
/-- PRIO. -/
def Task.prio (t : Task) : Nat := t.fld 151 149
/-- Bits 47:16 of BASEVA, times 2^16. -/
def Task.image (t : Task) : Nat := t.fld 511 480 * 65536

/-- The leaf and physical address of a virtual address of partition `p`, where its page table translates it with read
permission, and with write permission when `wr`; no TLB takes part. -/
def State.leafOf (s : State) (p va : Nat) (wr : Bool) : Option (Word × Nat) :=
  match s.walk p va with
  | some (l, size) => if l.bit 55 && (!wr || l.bit 54) then some (l, leafPa l + va % size) else none
  | none => none

/-- That physical address. -/
def State.homeOf (s : State) (p va : Nat) (wr : Bool) : Option Nat := (s.leafOf p va wr).map Prod.snd

/-- The place of a completion object at a virtual address of a partition: in HBM or host memory; an address on a page that leads to a
Lomid channel names none (log entry 91, DESIGN CHOICE). -/
def State.compPlace (s : State) (p va : Nat) (wr : Bool) : Option (Word × Nat) :=
  (s.leafOf p va wr).filter fun x => placeOf x.2 == .hbm || placeOf x.2 == .host

/-- The 16 bytes of a completion object at a virtual address of a partition. -/
def State.compObj (s : State) (p va : Nat) (wr : Bool) : Option (Nat × Nat) :=
  (s.compPlace p va wr).map fun x => (x.2, if placeOf x.2 = .hbm then s.hbm.num x.2 16 else s.host.num x.2 16)

/-- A completion object after a signal (R35, R36). -/
def signalled (w task : Nat) (k : SignalKind) : Nat :=
  let target := fieldOf w 127 96
  let signals := min (fieldOf w 95 64 + 1) (2 ^ 32 - 1)
  let done := bitOf w 63 || decide (target ≤ signals)
  let abort := bitOf w 62 || k == .abort
  let early := bitOf w 61 || k == .trig
  target * 2 ^ 96 + signals * 2 ^ 64 + bit01 done * 2 ^ 63 + bit01 abort * 2 ^ 62 + bit01 early * 2 ^ 61 + task % 2 ^ 32

/-- The `TRIG` of a task whose signal is performed completes (R218). -/
def State.signalEnds (s : State) (task : Nat) : State :=
  match allCores.find? fun c => (s.getCore c).binding.task == task && (s.getCore c).seq.wait == .signal with
  | some c => s.modCore c fun k => { k with seq := { k.seq with pc := k.seq.pc + 4, wait := .none } }
  | none => s

/-- A signal is performed: its `TRIG` completes, here or on the package that it came from (R218). -/
def State.signalDone (s : State) (task : Nat) (pkg : Option Nat) : State :=
  match pkg with
  | none => s.signalEnds task
  | some p => s.send (.signalDone p task)

/-- A signal is applied to a completion object at its home (R36, R280): an atomic of 16 bytes, whose messages follow; to host memory
through the port. What its read finds in error is charged and recorded (R77, R81), and poison stays with the object (log entry 113,
DESIGN CHOICE). One to a derived footprint or a lost line writes nothing (R124, R357). -/
def State.signalHere (s : State) (pa task : Nat) (k : SignalKind) (hc : Bool) : State :=
  let part := (s.getTask task).part
  let slice := orderSlice (Config.homeSlice (pa / 128))
  if placeOf pa = .host then
    if s.hostDead then s
    else
      let bs := toBytes 16 (signalled (s.host.num pa 16) task k)
      (s.writeHost pa bs hc).send (.hostStore pa bs)
  else if s.inFootprint pa 16 then s
  else
    let x := s.homeRange (s.blockClass pa) 1 pa 16
    let s := (s.noteBad part 0xFF (s.hbm.worst pa 16) pa 16).charge part x.2.charge slice
    if s.lost.contains (pa / 128) then s.charge part 64 slice
    else
      let old := s.hbm
      let bs := toBytes 16 (signalled (s.hbm.num pa 16) task k)
      let psn := x.2.psn && s.blockClass pa == 1
      let s := (s.dropL1 (fun _ => true) fun x => x.line == pa / 128).homeWrite part 0 pa bs psn
      let s := match s.holdersOf pa with
        | [] => s
        | holders => s.cast ⟨.undo, 0, 0, part, 0, pa, bs, psn, false⟩ holders
      s.soon (s.messages old s.hbm pa 16)

/-- A task's signal is performed at its home, once: a later one of the same task, from whichever package, changes nothing (R36). -/
def State.signalOnce (s : State) (pa task : Nat) (k : SignalKind) (hc : Bool) (pkg : Option Nat) : State :=
  let s := if s.signalsHere.contains task then s
    else State.signalHere { s with signalsHere := s.signalsHere ++ [task] } pa task k hc
  s.signalDone task pkg

/-- A signal reaches the home of its object: held as a store is, and until the halves of a host-coherent line are there; one to a
replica goes on to its home package (R36, R118, R280, R392). `pkg` is the package that it came from, if another. -/
def State.signalHome (s : State) (leaf : Word) (pa task : Nat) (k : SignalKind) (pkg : Option Nat) : State :=
  let part := (s.getTask task).part
  let hc := leafHc leaf
  let h := Held.signal pa task k hc pkg
  if placeOf pa = .host then
    if s.hostReady pa 16 hc && !h.behind s.held then s.signalOnce pa task k hc pkg else s.hold h part 0 0
  else if s.homePkg pa ≠ s.pkgNo then s.send (.signal (s.homePkg pa) pa task k)
  else
    let s := s.touchL2 part leaf pa
    if s.canApply part pa 16 && !h.behind s.held then s.signalOnce pa task k hc pkg else s.hold h part 0 0

/-- A task has signalled; a `TRIG`'s signal makes it irrevocable (R36, R39). -/
def State.noteSignal (s : State) (task : Nat) (trig : Bool) : State :=
  let s := s.modTask task fun t => { t with signalled := true }
  if trig then s.makeIrrevocable (s.getTask task).part task else s

/-- A task signals, where it has not: its gang's other packages are told, and the signal goes to its object's home (R36, R39). A signal
whose object's page no longer translates, or lets it be written no more, changes nothing, and counts as this package's signal of the
task (log entry 91, DESIGN CHOICE). -/
def State.signalTask (s : State) (task : Nat) (k : SignalKind) : State :=
  let t := s.getTask task
  if t.signalled || task = 0 then s
  else
    let s := s.noteSignal task (k == .trig)
    match s.compPlace t.part t.comp true with
    | none => s.signalEnds task
    | some (leaf, pa) => (s.tell task 0 (.signalled (k == .trig))).signalHome leaf pa task k none

/-- R36, R39: a task's one signal updates its completion object at its home; that of a `TRIG` makes the task
irrevocable. Later occurrences do not signal. -/
def execEvCompletionSignal (task : Nat) (k : SignalKind) (s : State) : Result := .next (s.signalTask task k)

/-- A leaf of a replicated page. -/
def rpLeaf : Word := 0x1800000000000000

/-- R36, R39, R278: a signal from another package to an object on a replicated page homed here. It is the task's signal for its members
here too. -/
def execEvFarSignal (pkg pa task : Nat) (k : SignalKind) (s : State) : Result :=
  if placeOf pa ≠ .hbm ∨ s.homePkg pa ≠ s.pkgNo then .next s
  else .next ((s.noteSignal task (k == .trig)).signalHome rpLeaf pa task k (some pkg))

/-- R218: another package's home has performed the signal of a task here. -/
def execEvSignalDone (task : Nat) (s : State) : Result := .next (s.signalEnds task)

/-- Whether a task's dependences are all DONE, and whether one has ABORT set (R37). One whose page no longer translates counts as not
DONE (log entry 91, DESIGN CHOICE). -/
def State.depsDone (s : State) (t : Task) : Bool × Bool :=
  let ws := t.deps.map fun d => (s.compObj t.part d false).map Prod.snd
  (ws.all fun w => match w with
    | some w => bitOf w 63
    | none => false,
   ws.any fun w => match w with
    | some w => bitOf w 62
    | none => false)

/-- A bind record's word `k` of record `n`. -/
def State.bindWord (s : State) (n k : Nat) : Word := Store.get 0 s.slotTab (4 * n + k)
/-- OP of record `n`. -/
def State.bindOp (s : State) (n : Nat) : Nat := (s.bindWord n 0).fld 2 0
/-- STATUS. -/
def State.bindStatus (s : State) (n : Nat) : Nat := (s.bindWord n 0).fld 7 6
/-- CORE. -/
def State.bindCore (s : State) (n : Nat) : Nat := (s.bindWord n 1).fld 16 10
/-- PKG. -/
def State.bindPkg (s : State) (n : Nat) : Nat := (s.bindWord n 1).fld 28 17
/-- MEMB. -/
def State.bindMemb (s : State) (n : Nat) : Nat := (s.bindWord n 1).fld 47 29
/-- SAVE. -/
def State.bindSave (s : State) (n : Nat) : Nat := (s.bindWord n 1).fld 63 48 + (s.bindWord n 2).fld 31 0 * 2 ^ 16
/-- TASK. -/
def State.bindTask (s : State) (n : Nat) : Nat := (s.bindWord n 2).fld 63 32
/-- TICK. -/
def State.bindTick (s : State) (n : Nat) : Nat := (s.bindWord n 3).toNat
/-- The 256 records. -/
def bindNums : List Nat := List.range 256
/-- Record `n` with another STATUS. -/
def State.setBindStatus (s : State) (n st : Nat) : State :=
  { s with slotTab := Store.set 0 s.slotTab (4 * n) ((s.bindWord n 0).put 7 6 st) }
/-- Record `n` emptied: OP and STATUS 0. -/
def State.emptyBind (s : State) (n : Nat) : State :=
  { s with slotTab := Store.set 0 s.slotTab (4 * n) (((s.bindWord n 0).put 7 6 0).put 2 0 0) }

/-- The records of a gang's members on this package with an OP and a tick, armed, or carried out on it for a core that holds the
member. -/
def State.gangRecords (s : State) (task op tick : Nat) : List Nat :=
  bindNums.filter fun n => s.bindOp n == op && s.bindTask n == task && s.bindTick n == tick
    && (s.bindStatus n == 1 || (s.bindStatus n == 2 && match (s.getCore (s.bindCore n)).bind with
      | some b => b.task == task && b.memb == s.bindMemb n
      | none => false))

/-- How many members of a gang have a BIND or RESUME armed for a tick, on this package and, as they have told, on others. -/
def State.gangCount (s : State) (task op tick : Nat) : Nat :=
  let t := s.getTask task
  (nub (((s.gangRecords task op tick).map fun n => s.bindMemb n)
    ++ (t.far.filter fun f => f.armed == some (op, tick)).map fun f => f.memb) |>.filter fun m => decide (m < t.nmemb)).length

/-- An Eligible gang whose every member has an armed BIND with one tick, on every package, is Bound (R338, R38). -/
def State.noteBound (s : State) (task : Nat) : State :=
  let t := s.getTask task
  let ticks := nub ((bindNums.filter fun n => s.bindStatus n == 1 && s.bindOp n == 1 && s.bindTask n == task).map fun n => s.bindTick n)
  if t.state == .eligible && ticks.any fun k => s.gangCount task 1 k == t.nmemb then
    let s := s.modTask task fun t => { t with state := .bound }
    if t.packages = 1 then s else s.send (.startTick task (ticks.headD 0))
  else s

/-- R37: all of a queued task's dependences are DONE: it becomes Eligible, or is aborted with its abort signal. -/
def execEvDependencesComplete (task : Nat) (s : State) : Result :=
  let t := s.getTask task
  let d := s.depsDone t
  if t.state == .queued && d.1 then
    if d.2 then
      .next ((s.modTask task fun t => { t with state := .aborted }).soon [.event (.completionSignal task .abort)])
    else .next ((s.modTask task fun t =>
      { t with state := .eligible, eligible := some (t.eligible.getD s.tick) }).noteBound task)
  else .next s

/-! ### Retirement -/

/-- Releases the write-log records of a task (R355). -/
def State.dropLog (s : State) (part task : Nat) : State :=
  s.modPart part fun p => { p with wlog := p.wlog.filter fun r => r.task != task }

/-- Whether a phase of the member runs, or a round of one that faulted still commits (R271). -/
def State.phaseOf (s : State) (task memb : Nat) : Bool :=
  s.stamps.any fun kv => kv.2.task == task && kv.2.memb == memb
    && (kv.2.state == .running || kv.2.copies.any fun c => c.committing.isSome)

/-- Whether everything a member waits for in `EXIT` is done (R31): its phases retired, its engine operations joined, its
stores performed, and no asynchronous trap to take first (R217). -/
def State.mayRetire (s : State) (c : Nat) : Bool :=
  let k := s.getCore c
  !s.phaseOf k.binding.task k.binding.memb && k.joined && k.seq.unacked == 0 && s.noneOut c (fun _ => true)
    && (k.seq.traps.isEmpty || (!k.seq.tvec.bit 0 && k.seq.inHandler))

/-- R217, R31: `EXIT` waits; the member then retires. -/
def execExit (s : State) : Result :=
  if s.mayRetire s.core then .next ((s.await .exit).soon [.event (.memberRetire s.core)])
  else .next (s.await .exit)

/-- One member of a task more has retired; with the last the task retires and signals (R36, R38). -/
def State.countRetired (s : State) (task : Nat) : State :=
  let t := s.getTask task
  let n := t.retiredCount + 1
  if n = t.nmemb then
    ((s.modTask task fun t => { t with retiredCount := n, state := .retired }).dropLog t.part task).soon
      [.event (.completionSignal task .retire)]
  else s.modTask task fun t => { t with retiredCount := n }

/-- R31: a member's waits in `EXIT` have ended: it retires, a barrier it was counted in is marked broken, its regions are
released and its core is scrubbed. With the last member, on whichever package, the task retires and signals (R36, R38). -/
def execEvMemberRetire (core : Nat) (s : State) : Result :=
  let k := s.getCore core
  let b := k.binding
  if k.seq.wait == .exit && k.mstate == .waiting && s.mayRetire core then
    if k.replay.isSome then .next ((s.freeStampsOf b.task b.memb).releaseCore core .retired) else
    let s := (s.noteGone b.task b.memb k.collSeq).tell b.task b.memb (.retired k.collSeq)
    .next (((s.freeStampsOf b.task b.memb).releaseCore core .retired).countRetired b.task)
  else .next s

/-! ### Aborts -/

/-- Cancels the armed records of a task. -/
def State.cancelArmed (s : State) (task : Nat) : State :=
  (bindNums.filter fun n => s.bindStatus n == 1 && s.bindTask n == task).foldl State.emptyBind s

/-- The cores that hold a member of a task; a replay's is none. -/
def State.coresOfTask (s : State) (task : Nat) : List Nat :=
  allCores.filter fun c => match (s.getCore c).bind with
    | some b => b.task == task && (s.getCore c).replay.isNone
    | none => false

/-- Whether the record of a core's Faulted member is still held at its source (R325). -/
def State.faultHeld (s : State) (c : Nat) : Bool :=
  (s.getCore c).mstate == .faulted && s.pending.any fun p => match p.ev with
    | .saiga _ _ cls _ _ _ _ core => cls == 1 && core == c
    | _ => false

/-- A member's core is released with its task; one whose Faulted record is held stays Faulted until the arbiter takes the record, and is
no member of the task any more (R325). -/
def State.dropMember (s : State) (c : Nat) : State :=
  if s.faultHeld c then s.modCore c fun k => { k with bind := some { k.binding with task := 0 } } else s.releaseCore c .retired

/-- Aborts an unretired task in its present state (R331, R353): its members stop, its regions and cores are released, its
saved contexts and log records are discarded, its armed records are cancelled, and it sends its abort signal. -/
def State.abortHere (s : State) (task : Nat) : State :=
  let t := s.getTask task
  if t.state == .retired || t.state == .aborted || task = 0 then s
  else
    let cs := s.coresOfTask task
    let s := (s.stampsWhere fun st => st.task == task).foldl State.freeStamp s
    let s := cs.foldl (fun s c => s.dropMember c) s
    let s := { s with
      launching := s.launching.filter fun l => !cs.contains l.core
      pageReqs := s.pageReqs.filter fun r => !(cs.contains r.core && r.part == t.part) }
    let s := (s.cancelArmed task).dropLog t.part task
    let s := s.modTask task fun t =>
      { t with
        state := .aborted, saves := [], stop := .none, stopAt := none, freezeAt := none, ckptDue := none, ckptAt := none, ckpts := []
        recorded := [] }
    s.soon [.event (.completionSignal task .abort)]

/-- An abort decided here: the gang's other packages are told (R331). -/
def State.abortTask (s : State) (task : Nat) : State :=
  let t := s.getTask task
  if t.state == .retired || t.state == .aborted || task = 0 then s else (s.tell task 0 .aborted).abortHere task

/-- The abort that a write of TASKABORT or TABORT asks for (R331). -/
def State.abortWrite (s : State) (v : Word) : State :=
  let task := v.fld 31 0
  let t := s.getTask task
  if v.fld 63 48 == 0 && t.part == v.fld 47 32 then s.abortTask task else s

/-- R331: a host write of TASKABORT. -/
def execEvTaskabort (v : Word) (s : State) : Result := .next (s.abortWrite v)
/-- R331, R353: a Saiga write of TABORT, or the abort that follows a Faulted member. -/
def execEvTabort (v : Word) (s : State) : Result := .next (s.abortWrite v)

/-- Aborts every task of a partition. -/
def State.abortPart (s : State) (p : Nat) : State :=
  ((s.tasks.map Prod.fst).filter fun n => (s.getTask n).part == p).foldl State.abortTask s

/-! ### Early trigger -/

/-- `TRIG` once its join, if it has one, is done (R218): a release at device scope, then the signal, and the wait until it is performed at
its home. -/
def trigger (s : State) : Result :=
  if s.q.wait = .signal then .next s
  else if (s.getTask s.me.task).signalled || s.cur.replay.isSome then .next (s.advance 4)
  else s.releasing .dev fun s => .next ((s.setWait .signal).signalTask s.me.task .trig)

/-- R218: `TRIG`. -/
def execTrig (s : State) : Result := trigger s
/-- R218: `TRIG.J` joins as `EJOIN` does before it signals. -/
def execTrigJ (s : State) : Result :=
  if s.q.wait = .signal then .next s
  else if s.cur.joined then trigger ((s.modCur Core.dropJoined).noEarly s.core) else s.poll

/-! ### Submission and acceptance -/

/-- The low bits of SUBSTAT (R329). -/
def substatWord (task drop busy code : Nat) : Word := BitVec.ofNat 64 (task * 2 ^ 32 + drop * 512 + busy * 256 + code)

/-- A 64-byte write of SUBREG (R329): discarded with DROP while BUSY is 1 or BOOTST.STATE is not 3. An accepted write
ends the package's gated state (R408). -/
def State.submit (s : State) (rec : BitVec 512) : State :=
  if s.substat.bit 8 || s.bootst.fld 3 0 ≠ 3 then { s with substat := s.substat.put 9 9 1 }
  else { s with
    subreg := some rec, substat := s.substat.put 8 8 1, pkgctl := false, gating := false, exiting := s.exiting || s.pkgctl }

/-- R329: a write of SUBREG arrives; it does not pass the physical function's writes that are held at their homes (R270). -/
def execEvSubreg (rec : BitVec 512) (s : State) : Result :=
  if (Held.subreg 0 rec).behind s.held then .next { s with held := s.held ++ [.subreg 0 rec] } else .next (s.submit rec)

/-- R329: a host write of SUBSTAT clears DROP where bit 9 is 1. -/
def execEvSubstat (v : Word) (s : State) : Result :=
  .next (if v.bit 9 then { s with substat := s.substat.put 9 9 0 } else s)

/-- The record as a task of partition `part` at a depth. -/
def recordTask (rec : BitVec 512) (part depth : Nat) : Task :=
  { part := part, record := rec, state := .queued, depth := depth }

/-- Check 1 of R330. -/
def State.recordOk (s : State) (t : Task) : Bool :=
  let header := match s.homeOf t.part t.image false with
    | some pa => if placeOf pa = .hbm then s.hbm.num pa 4 else s.host.num pa 4
    | none => 0
  t.fld 15 0 == 0x3C5D && t.fld 31 16 == 1 && t.fld 142 32 == 0 && t.fld 259 259 == 0
    && decide (1 ≤ t.nmemb) && decide (t.nmemb ≤ maxMembers) && t.fld 148 147 != 3
    && decide (1 ≤ t.fld 145 143) && decide (t.fld 145 143 ≤ 6)
    && header == 0x17E6A && (s.getPart t.part).prect.bit 63

/-- Whether an allow-list entry matches a record (R332); a debug record needs PPOL.DBGOK (R364). -/
def allows (e : Word) (t : Task) : Bool :=
  e.bit 63 && e.fld 47 32 == t.fld 239 224 && e.fld 31 0 == t.fld 511 480 && decide (t.prio ≤ e.fld 62 60)
    && e.bit (57 + t.fld 148 147)

/-- Check 3 of R330. -/
def State.allowed (s : State) (t : Task) : Bool :=
  let p := s.getPart t.part
  (t.fld 146 146 == 0 || p.ppol.bit 60) && (List.range 128).any fun i => allows (Store.get 0 p.allow i) t

/-- Whether an address names a completion object (check 5 of R330). -/
def State.isComp (s : State) (p va : Nat) (wr : Bool) : Bool :=
  va != 0 && match s.compObj p va wr with
    | some (_, w) => fieldOf w 127 96 != 0
    | none => false

/-- How many tasks of a partition are queued or eligible. -/
def State.queuedIn (s : State) (p : Nat) : Nat :=
  (Store.keysWhere (fun _ (t : Task) => t.part == p && (t.state == .queued || t.state == .eligible)) s.tasks).length

/-- The code of the first check of R330 that fails; 0 accepts. -/
def State.acceptCode (s : State) (t : Task) : Nat :=
  let p := s.getPart t.part
  if !s.recordOk t then 6
  else if 8 ≤ t.depth then 1
  else if !s.allowed t then 2
  else if decide (p.psched.fld 63 45 < t.nmemb) || decide (72 * t.packages < t.nmemb) then 3
  else if !(s.isComp t.part t.comp true && t.deps.all fun d => s.isComp t.part d false) then 4
  else if 256 ≤ s.queuedIn t.part then 5
  else 0

/-- Queues an accepted task under the next number (R330). -/
def State.queueTask (s : State) (t : Task) : State :=
  { s with tasks := Store.insert (Store.erase s.tasks s.nextTask) s.nextTask t, nextTask := s.nextTask + 1 }

/-- The audit entry of a debug launch (R377). -/
def State.auditDebug (s : State) (order actor : Nat) (t : Task) : State :=
  if t.fld 146 146 == 1 then s.present order (.audit 10 t.part actor (Config.auditLayout 0 0 s.nextTask false)) else s

/-- The decision on a `LAUNCH` (R219): its status word, the launcher's irrevocability (R355), the class-6 event of a
refusal (R322). -/
def State.decideLaunch (s : State) (l : LaunchReq) : State :=
  let b := (s.getCore l.core).binding
  let t := recordTask l.record b.part (b.depth + 1)
  let code := s.acceptCode t
  let task := if code = 0 then s.nextTask else 0
  let s := if code = 0 then
      ((s.auditDebug l.core 3 t).queueTask t).makeIrrevocable b.part b.task
    else if code = 2 || code = 3 || code = 6 then s.present l.core (.saiga 0 b.part 6 0 0 0 0 l.core)
    else s
  s.modCore l.core fun k => { k with seq := { (k.seq.setReg l.rd ⟨substatWord task 0 0 code, false⟩) with
    pc := k.seq.pc + 4, wait := .none } }

/-- Whether the oldest `LAUNCH` waits for room in the audit log (R378). -/
def State.launchWaits (s : State) (l : LaunchReq) : Bool := fieldOf l.record.toNat 146 146 == 1 && decide (s.auditRoom ≤ 4096)

/-- The decision on the record in SUBREG, if there is one (R329, R330); that on one with DBG = 1 waits for a free entry of the audit log
(R378). -/
def State.decideSub (s : State) : State :=
  match s.subreg with
  | none => s
  | some rec =>
    if bitOf rec.toNat 146 && s.auditRoom = 0 then s else
    let t := recordTask rec (fieldOf rec.toNat 223 208) 0
    let code := s.acceptCode t
    let task := if code = 0 then s.nextTask else 0
    let s := if code = 0 then (s.auditDebug orderHost 2 t).queueTask t else s
    { s with subreg := none, substat := substatWord task (s.substat.fld 9 9) 0 code }

/-- R330: the device decides acceptance of records: of the oldest `LAUNCH`, and of the one in SUBREG, which waits for no more (R329). -/
def execEvLaunchAcceptance (s : State) : Result :=
  .next <| State.decideSub <| match s.launching.find? fun l => !s.launchWaits l with
    | some l => State.decideLaunch { s with launching := s.launching.erase l } l
    | none => s

/-- R219: `LAUNCH`: a release at device scope, the read of the record as a load reads, word by word (R77, R78, R81, R390), then the
wait for the decision. In a replay nothing is launched and the status is a free value (R400, log entry 4, DESIGN CHOICE). -/
def execLaunch (d a : Reg) (s : State) : Result :=
  let va := (s.g a).val
  match s.q.wait with
  | .launch => .next s
  | _ =>
    match s.needClean (s.g a).psn with
    | .error t => .next (s.trap t)
    | .ok _ =>
      if va.toNat % 64 ≠ 0 then .next (s.trap (alignTrap va))
      else if s.cur.replay.isSome then .next (s.free.2.result d s.free.1 false)
      else s.releasing .dev fun s =>
        seqAccess va 64 0 s fun s leaf pa =>
          let go (s : State) (bs : List Byte) : Result :=
            let l : LaunchReq := ⟨s.core, d, BitVec.ofNat 512 (ofBytes bs)⟩
            .next (State.setWait { s with launching := s.launching ++ [l] } .launch)
          match s.readWaits va leaf pa 64 with
          | some r => r
          | none =>
            match s.readNow va leaf pa 64 with
            | .error r => r
            | .ok (bs, s) => go s bs

end Sys2Proof.Machine
end

