-- ==== Sys2Proof/Machine/DerivedOps.lean ====
section
/-!
DEFINITION. `DDECL`, `DFREE` and `DREAD` (R110 to R125, R220, R221).
-/

namespace Sys2Proof.Machine

/-! ### Descriptors -/

/-- The kind of a KIND code (R110). -/
def kindOf (n : Nat) : Option DKind :=
  match n with
  | 0 => some .rowsum
  | 1 => some .rowsq
  | 2 => some .rowmax
  | 3 => some .hist
  | 4 => some .bscale
  | _ => none

/-- A region as its descriptor (a 512-bit number) declares it; its pages are filled in later. -/
def descRegion (id part : Nat) (va : Word) (d : Nat) (k : DKind) : DRegion :=
  { id := id, part := part, desc := va, base := BitVec.ofNat 64 (fieldOf d 511 448), rows := fieldOf d 447 416
    cols := fieldOf d 415 384, pitch := fieldOf d 383 352, hlo := fieldOf d 351 320, hwid := fieldOf d 319 288
    qexp := sextInt 12 (fieldOf d 287 276), nbin := fieldOf d 275 265, kind := k, fmt := fieldOf d 261 258
    g := 32 * 2 ^ fieldOf d 257 256, wide := bitOf d 255, basePages := [], footPages := [] }

/-- The base formats of R110. -/
def derivedFmts : List Nat := [1, 3, 4, 5, 6, 7, 8]

/-- Check 2 of R112. -/
def descReserved (d : Nat) (k : DKind) : Bool :=
  fieldOf d 254 0 == 0 && derivedFmts.contains (fieldOf d 261 258) && fieldOf d 257 256 != 3
    && (k == .hist || (fieldOf d 351 288 == 0 && fieldOf d 275 265 == 0))
    && (k == .rowsum || k == .rowsq || fieldOf d 287 276 == 0)
    && (k == .bscale || (fieldOf d 257 256 == 0 && !bitOf d 255))

/-- Check 3 of R112. -/
def DRegion.rangeOk (r : DRegion) : Bool :=
  let z := fmtBytes r.fmt
  r.base.toNat % z == 0 && decide (1 ≤ r.rows) && decide (r.rows ≤ 1048576) && decide (1 ≤ r.cols)
    && decide (r.cols ≤ 65535) && decide (r.cols * z ≤ 65536) && r.pitch % z == 0 && decide (r.cols * z ≤ r.pitch)
    && decide (-1074 ≤ r.qexp) && decide (r.qexp ≤ 1023)
    && (r.kind != .bscale || r.fmt == 4 || r.fmt == 5 || r.fmt == 6 || r.fmt == 7 || r.fmt == 8)

/-- Check 4 of R112. -/
def DRegion.histOk (r : DRegion) : Bool :=
  r.kind != .hist ||
    (decide (1 ≤ r.nbin) && decide (r.nbin ≤ 1024) &&
      (match Fp.decode Fp.f32 r.hlo with
        | .num _ _ _ => true
        | _ => false) &&
      match Fp.decode Fp.f32 r.hwid with
        | .num n m _ => !n && m != 0
        | _ => false)

/-- The first of checks 1 to 4 and the slot limit of check 8 that a descriptor fails; 0 for none (R112). -/
def descCheck (placeOk : Bool) (d : Nat) (r : DRegion) : Nat :=
  if !placeOk then 1
  else if (kindOf (fieldOf d 264 262)).isNone || !descReserved d r.kind then 2
  else if !r.rangeOk then 3
  else if !r.histOk then 4
  else if 1048576 < r.nslots then 8
  else 0

/-! ### Pages -/

/-- What a placeholder page, between the base's rows, has for an address: none that exists. -/
def noPage : Nat := 2 ^ 60

/-- Whether the 64 KiB page at virtual page number `v` holds a byte of the base. -/
def DRegion.touchesPage (r : DRegion) (v : Nat) : Bool :=
  let lo := v * 65536
  let b := r.base.toNat
  let w := r.cols * fmtBytes r.fmt
  let first := if b + w ≤ lo then (lo - (b + w)) / r.pitch + 1 else 0
  decide (first < r.rows) && decide (b + first * r.pitch < lo + 65536)

/-- Bytes from the first to the last of the base. -/
def DRegion.baseLen (r : DRegion) : Nat := (r.rows - 1) * r.pitch + r.cols * fmtBytes r.fmt

/-- The virtual page numbers of `n` bytes at `va`. -/
def pagesOf (va n : Nat) : List Nat := (List.range ((va + n - 1) / 65536 - va / 65536 + 1)).map fun i => va / 65536 + i

/-- Translates pages in order, each as a load (R112 step 3); `none` where a page is only a placeholder. The result is the
leaves and addresses, or the outcome that stops the instruction. -/
def translatePages (s : State) : List (Nat × Bool) → Except Result (List (Word × Nat) × State)
  | [] => .ok ([], s)
  | (v, used) :: rest =>
    if !used then
      match translatePages s rest with
      | .error e => .error e
      | .ok (l, s) => .ok ((0, noPage) :: l, s)
    else
      let va := BitVec.ofNat 64 (v * 65536)
      match s.xlate s.core .seq s.me.part va 0 with
      | (.conflict, s1) => .error (s.seqConflict s1 va false)
      | (.missing, s1) =>
        .error (.next ((s1.pageRequest (.sequencer s.core) va s.me.part s.core 0 0).setWait (.page s1.nextReq)))
      | (.ok leaf pa, s1) =>
        if s.frameOk s.me.part leaf pa then
          match translatePages s1 rest with
          | .error e => .error e
          | .ok (l, s) => .ok ((leaf, pa) :: l, s)
        else .error (.next (s.trap (accessTrap va)))

/-- A page that may hold a base or a footprint (checks 1 and 5): HBM, of type CO, PN or UC. -/
def derivedPage (leaf : Word) (pa : Nat) : Bool :=
  placeOf pa == .hbm && (leafType leaf == 0 || leafType leaf == 2 || leafType leaf == 4)

/-! ### Checks 5 to 8 -/

/-- The physical lines of the footprint. -/
def DRegion.footLines (r : DRegion) : List Nat :=
  (List.range (r.footLen / 128)).filterMap fun i =>
    (pagePhys r.footPages r.desc.toNat (r.desc.toNat + 128 * i)).map fun pa => pa / 128

/-- Whether a physical line holds a byte of the base. -/
def DRegion.feedsFrom (r : DRegion) (line : Nat) : Bool := !(r.elemsOf (line * 128) 128).isEmpty

/-- The physical lines that hold base bytes. -/
def DRegion.baseLines (r : DRegion) : List Nat :=
  (r.basePages.filter fun p => p != noPage).flatMap fun p =>
    ((List.range 512).map fun i => p / 128 + i).filter fun l => r.feedsFrom l

/-- Check 6 of R112. -/
def State.overlapFree (s : State) (r : DRegion) : Bool :=
  let all := r :: s.derived
  (r.baseLines.all fun l => all.all fun x =>
    (r.elemsOf (l * 128) 128).all fun e => !x.inFoot (r.elemPa e.1 e.2))
  && r.footLines.all fun l => !(all.any fun x => x.feedsFrom l) && !(s.derived.any fun x => x.inFoot (l * 128))

/-- Check 7 of R112. -/
def State.feedOk (s : State) (r : DRegion) : Bool :=
  r.baseLines.all fun l => decide ((s.derived.filter fun x => x.feedsFrom l).length < 4)

/-- The L2 sets of a footprint's lines, with the leaves of its pages (R67). -/
def footKeys (r : DRegion) (leaves : List Word) : List (Nat × Nat) :=
  r.footLines.map fun l => (l2Key (leaves.getD ((r.footPages.findIdx fun p => p == l * 128 / 65536 * 65536)) 0) l, l)

/-- Room for the footprint in the two derived ways of each set (check 8, R128). -/
def State.roomOk (s : State) (keys : List (Nat × Nat)) : Bool :=
  keys.all fun k =>
    let have' := ((Store.get [] s.l2 k.1).filter fun l => l.locked).length
    decide (have' + (keys.filter fun x => x.1 == k.1).length ≤ 2)

/-- Locks a footprint line in its home set (R113). -/
def State.lockLine (s : State) (key line lpi : Nat) : State :=
  let ls := (Store.get [] s.l2 key).filter fun l => l.line != line
  let way := ((List.range 16).find? fun w => ls.all fun l => l.way != w).getD
    (((ls.reverse.find? fun l => !l.locked).map fun l => l.way).getD 0)
  { s with l2 := Store.set [] s.l2 key (⟨way, line, lpi, true⟩ :: ls.filter fun l => l.way != way) }

/-- Unlocks the lines of a footprint. -/
def State.unlockLines (s : State) (ls : List Nat) : State :=
  { s with l2 := s.l2.map fun (kv : Nat × List L2Line) =>
      (kv.1, kv.2.map fun (l : L2Line) => if ls.contains l.line then { l with locked := false } else l) }

/-! ### DDECL and DFREE -/

/-- The derived-declare fault with its check code. -/
def declareTrap (code : Nat) (va : Word) : Trap := { code := 15, detail := code, tval := va }

/-- A directory line after its recall: no core owns it, and those that hold it do so read-only (R113). -/
def LineState.recalled : LineState → LineState
  | .excl c => .shared (1 <<< clusterOf c)
  | .modified c => .shared (1 <<< clusterOf c)
  | l => l

/-- Declares a region whose checks passed (R113): footprint lines are locked, base lines recalled, and every slot is to be built. Until
then a slot's bytes are zero but for BUILD (log entry 114, DESIGN CHOICE). -/
def State.declare (s : State) (r : DRegion) (keys : List (Nat × Nat)) : State :=
  let s := keys.foldl (fun s k => s.lockLine k.1 k.2 ((s.getPart r.part).prect.fld 62 59)) s
  let s := { s with
    hbm := r.footLines.foldl (fun m l => m.clear (l * 128) 128) s.hbm
    lines := s.lines.map fun (kv : Nat × LineState) => if r.feedsFrom kv.1 then (kv.1, kv.2.recalled) else kv
    derived := s.derived ++ [r], nextRegion := s.nextRegion + 1 }
  let s := s.askHalves .hbm true (r.baseLines.flatMap fun l => [2 * l, 2 * l + 1])
  s.startBuild ((List.range r.nslots).map fun n => (r.id, n))

/-- The rest of `DDECL` once the descriptor is read: checks, translations and the declaration, in the order of R112. -/
def declareFrom (va : Word) (placeOk : Bool) (d : Nat) (s : State) : Result :=
  let r := descRegion s.nextRegion s.me.part va d ((kindOf (fieldOf d 264 262)).getD .rowsum)
  let c := descCheck placeOk d r
  if c ≠ 0 then .next (s.trap (declareTrap c va)) else
  let bps := (pagesOf r.base.toNat r.baseLen).map fun v => (v, r.touchesPage v)
  let fps := (pagesOf va.toNat r.footLen).map fun v => (v, true)
  match translatePages s (bps ++ fps) with
  | .error e => e
  | .ok (l, s) =>
    let bl := l.take bps.length
    let fl := l.drop bps.length
    let r := { r with basePages := bl.map Prod.snd, footPages := fl.map Prod.snd }
    let keys := footKeys r (fl.map Prod.fst)
    let p := s.getPart r.part
    let mine := (s.derived.filter fun x => x.part == r.part).length
    let t := s.setWait .none
    if !(bl.all (fun x => x.2 == noPage || (derivedPage x.1 x.2 && x.1.bit 54))
        && fl.all fun x => derivedPage x.1 x.2) then .next (t.trap (declareTrap 5 va))
    else if !s.overlapFree r then .next (t.trap (declareTrap 6 va))
    else if !s.feedOk r then .next (t.trap (declareTrap 7 va))
    else if decide (4096 ≤ s.derived.length) || decide (p.ppol.fld 43 32 ≤ mine) || !s.roomOk keys then
      .next (t.trap (declareTrap 8 va))
    else .next (((s.declare r keys).dropSlots s.core).setWait (.ddecl r.id))

/-- R220: `DDECL` declares a region and holds the sequencer until every slot is built. Its descriptor is read as a load reads it,
word by word (R77, R81); a poisoned one faults, as a poisoned operand does (R78). In a replay it declares nothing (R400). -/
def execDdecl (a : Reg) (s : State) : Result :=
  let va := (s.g a).val
  match s.q.wait with
  | .ddecl id =>
    match s.region id with
    | some r => if r.pending.isEmpty then .next ((s.setWait .none).advance 4) else .next s
    | none => .next ((s.setWait .none).advance 4)
  | _ =>
    match s.needClean (s.g a).psn with
    | .error t => .next (s.trap t)
    | .ok _ =>
      if s.replays s.core then .next (s.advance 4) else
      seqAccess va 1 0 s fun s leaf pa =>
        if va.toNat % 128 ≠ 0 || !derivedPage leaf pa then declareFrom va false 0 s
        else
          match s.readWaits va leaf pa 64 with
          | some r => r
          | none =>
            match s.readNow va leaf pa 64 with
            | .error r => r
            | .ok (bs, s) => declareFrom va true (ofBytes bs) s

/-- The derived-region fault. -/
def derivedTrap (va : Word) : Trap := { code := 16, tval := va }

/-- Ends a declaration (R113): its footprint is ordinary memory from then on. -/
def State.undeclare (s : State) (id : Nat) : State :=
  match s.region id with
  | none => s
  | some r => { s.unlockLines r.footLines with derived := s.derived.filter fun x => x.id != id }

/-- Whether the region is quiet: no rescan or rebuild runs, no accepted store waits to send it a message, and none of the member's
own is on its way (R220). -/
def State.quiet (s : State) (r : DRegion) : Bool :=
  r.pending.isEmpty && (s.held.all fun h => (r.elemsOf h.span.1 h.span.2).isEmpty)
    && s.way.all fun st => st.core != s.core || (r.elemsOf st.pa st.data.length).isEmpty

/-- Whether a region is quiet, whoever issued the stores to its base (R374). -/
def State.quietAll (s : State) (r : DRegion) : Bool :=
  r.pending.isEmpty && (s.held.all fun h => (r.elemsOf h.span.1 h.span.2).isEmpty)
    && s.way.all fun st => (r.elemsOf st.pa st.data.length).isEmpty

/-- The declarations of released partitions end, as `DFREE` ends one, once they are quiet (R374). -/
def State.endRegions (s : State) : State :=
  (s.derived.filter fun r => r.ending && s.quietAll r).foldl (fun s r => s.undeclare r.id) s

/-- R220: `DFREE`; in a replay it ends nothing (R400). -/
def execDfree (a : Reg) (s : State) : Result :=
  let va := (s.g a).val
  match s.needClean (s.g a).psn with
  | .error t => .next (s.trap t)
  | .ok _ =>
    if s.replays s.core then .next (s.advance 4) else
    match s.derived.find? fun r => r.desc == va && r.part == s.me.part with
    | none =>
      match s.q.wait with
      | .dfree _ => .next ((s.setWait .none).advance 4)
      | _ => .next (s.trap (derivedTrap va))
    | some r =>
      if s.quiet r then .next ((((s.undeclare r.id).dropSlots s.core).setWait .none).advance 4) else .next (s.setWait (.dfree r.id))

/-! ### DREAD -/

/-- The float format of a result suffix. -/
def drFp : DrFmt → Fp.Fmt
  | .f64 => Fp.f64
  | .f32 => Fp.f32
  | .bf16 => Fp.bf16
  | _ => Fp.f16

/-- Whether the suffix is listed for the kind (R121). -/
def suffixOk (k : DKind) (f : DrFmt) : Bool :=
  match k with
  | .hist => f == .f64 || f == .f32 || f == .i64
  | .bscale => f == .i64
  | _ => true

/-- The result of a read of a slot (R121). -/
def DRegion.readSlot (r : DRegion) (d : DSlot) (f : DrFmt) : Word :=
  match r.kind with
  | .bscale => BitVec.ofNat 64 (d.loWord * 2 ^ 32 + d.param)
  | .rowmax =>
    let v := Fp.decode Fp.f64 d.hi
    if f = .i64 then wrap64 (Fp.toInt 64 1 v).1 else BitVec.ofNat 64 (Fp.convert (drFp f) 0 0 false v).bits
  | k =>
    if f = .i64 then wrap64 (satInt 64 d.acc)
    else if k = .hist then BitVec.ofNat 64 (Fp.roundInt (drFp f) 0 false d.acc 0).bits
    else if decide (0 < d.nanc) || (decide (0 < d.pinfc) && decide (0 < d.ninfc)) then BitVec.ofNat 64 (drFp f).nanBits
    else if 0 < d.pinfc then BitVec.ofNat 64 (Fp.infRes (drFp f) false).bits
    else if 0 < d.ninfc then BitVec.ofNat 64 (Fp.infRes (drFp f) true).bits
    else BitVec.ofNat 64 (Fp.roundInt (drFp f) 0 false d.acc r.qexp).bits

/-- Code of a result suffix in imm16 (R140). -/
def drCode : DrFmt → Nat
  | .f64 => 0
  | .f32 => 1
  | .bf16 => 2
  | .f16 => 3
  | .i64 => 4

/-- The first word of a `DREAD` (R140). -/
def dreadWord (f : DrFmt) (nb : Bool) (d a : Reg) (off : BitVec 12) : BitVec 32 :=
  BitVec.ofNat 32 (29 * 2 ^ 26 + d.toNat * 2 ^ 21 + a.toNat * 2 ^ 16 + drCode f * 8192 + bit01 nb * 4096 + off.toNat)

/-- The slots of a footprint line are rebuilt where slot `n` of it is found in error, which is charged and recorded (R119, R127). -/
def State.repairSlot (s : State) (r : DRegion) (n : Nat) : State :=
  let pa := r.slotPa n
  if s.hbm.worst pa 16 == .bad then (s.slotBad r n).rebuildLine (pa / 128) else s

/-- Whether a base store of its own sequencer that a `DREAD` of slot `n` comes after is held at its home, not yet applied (R125). A read
that waits at the slot's home is behind none: it is answered before the held stores are applied (R118). -/
def State.baseWaits (s : State) (r : DRegion) (n : Nat) : Bool :=
  let es := r.elemsOfSlot n
  s.q.wait != .dread r.id n && s.held.any fun h => match h with
    | .store st => st.src == .sequencer && st.core == s.core && (r.elemsOf st.pa st.data.length).any es.contains
    | _ => false

/-- The declared region of a partition that has a slot at an address (R221). -/
def State.regionAt (s : State) (part : Nat) (va : Word) : Option DRegion :=
  s.derived.find? fun r => r.part == part && decide (r.desc.toNat ≤ va.toNat) && decide (va.toNat < r.desc.toNat + 16 * r.nslots)

/-- The slot of a region at an address. -/
def DRegion.slotAt (r : DRegion) (va : Word) : Nat := (va.toNat - r.desc.toNat) / 16

/-- The answer to a `DREAD` of slot `n`, as the region `r` holds it (R121, R122, R123). -/
def slotAnswer (f : DrFmt) (d : Reg) (va : Word) (r : DRegion) (n : Nat) (s : State) : Result :=
  let x := r.slot n
  let st := x.statusWord r.kind
  let psn := bitOf st stPsn || bitOf st stLost
  if psn && s.kclass == 0 then .next ((s.setWait .none).trap (dataTrap va))
  else
    let e := s.enterAs s.core 0 (r.readSlot x f) (psn && s.kclass == 1)
    let t := (e.2.setWait .none).modQ fun q => { q with drstat := BitVec.ofNat 64 st }
    .next (t.result d e.1.1 e.1.2)

/-- What an early read has found at an address (R272). -/
def Core.earlySlot (k : Core) (va : Word) : Option (Option DRegion) := (k.early.slots.find? fun x => x.1 == va.toNat).map Prod.snd

/-- Whether a `DREAD` of a slot is answered at once: neither stale nor being built, in no error, and behind no base store of its core. -/
def State.slotReady (s : State) (r : DRegion) (n : Nat) : Bool :=
  !(r.slot n).bit stStale && !(r.slot n).bit stBuild && s.hbm.worst (r.slotPa n) 16 != .bad && !s.baseWaits r n

/-- R125, R272: a `DREAD` of a core that is still to come is performed: it has found at an address the slot of a region, ready to be read,
or no region. Nothing but the core's own base stores, and what its acquires and joins order, comes before it. -/
def execEvEarlyDread (core : Nat) (va : Word) (s : State) : Result :=
  let k := s.getCore core
  let r := s.regionAt k.binding.part va
  if 72 ≤ core || k.bind.isNone || s.replays core || r.any fun r => !State.slotReady { s with core := core } r (r.slotAt va) then .next s
  else
    .next (s.modCore core fun k => { k with early := { k.early with slots := (k.early.slots.filter fun x => x.1 != va.toNat) ++ [(va.toNat, r)] } })

/-- R221, R121 to R123: a read of one slot. One that was performed early gives what it found then (R272). -/
def derivedRead (nb : Bool) (f : DrFmt) (d a : Reg) (off : BitVec 12) (s : State) : Result :=
  let va := (s.g a).val + off.signExtend 64
  match s.needClean (s.g a).psn with
  | .error t => .next (s.trap t)
  | .ok _ =>
    if va.toNat % 16 ≠ 0 then .next (s.trap (alignTrap va)) else
    if s.replays s.core then
      match s.replayed s.core 0 with
      | some x => .next (x.2.result d x.1.1 x.1.2)
      | none => .next (s.replayOver s.core)
    else
    let early := s.cur.earlySlot va
    match early.getD (s.regionAt s.me.part va) with
    | none => .next ((if early.isSome then s.dropSlots s.core else s).trap (derivedTrap va))
    | some r =>
      let n := r.slotAt va
      if !suffixOk r.kind f then .next (s.trap (illegalTrap (dreadWord f nb d a off)))
      else if early.isSome then slotAnswer f d va r n (s.dropSlots s.core)
      else if !nb && s.baseWaits r n then s.poll
      else
        let s := s.repairSlot r n
        let r := (s.region r.id).getD r
        if !nb && ((r.slot n).bit stStale || (r.slot n).bit stBuild) then .next (s.setWait (.dread r.id n)) else slotAnswer f d va r n s

/-- R221: `DREAD`, which waits while the slot is stale or being built. -/
def execDread (f : DrFmt) (d a : Reg) (off : BitVec 12) (s : State) : Result := derivedRead false f d a off s
/-- R221: `DREAD.NB`, which never waits. -/
def execDreadNb (f : DrFmt) (d a : Reg) (off : BitVec 12) (s : State) : Result := derivedRead true f d a off s

end Sys2Proof.Machine
end

