-- ==== Sys2Proof/Machine/Region.lean ====
section
/-!
DEFINITION. A copy's rounds: frame and round numbers (R24, R25), capture (R53), void and replay (R54), the fault of a
region (R147, R213).
-/

namespace Sys2Proof.Machine

/-- Round size RS. -/
def Hdr.rs (h : Hdr) : Nat := 2 ^ h.rsLog

/-- The number of the last round of a phase (R54). -/
def Stamp.lastRound (st : Stamp) : Nat := (st.trip - 1) / st.hdr.rs

/-- The round in progress in wave `w` (R54). -/
def Stamp.roundAt (st : Stamp) (w : Nat) : Nat := min (w / st.hdr.rs) st.lastRound

/-- The wave that follows the phase's last: trip + KMAX (R44). -/
def Stamp.endWave (st : Stamp) : Nat := st.trip + st.hdr.kmax

/-- Local time of a copy: cycles that its row counter has counted in this phase. -/
def Stamp.lt (st : Stamp) (c : Copy) : Nat := c.reg.wave * st.hdr.ii + c.reg.slot

/-- What row files keep of the last cycle's writes (R50). -/
def Copy.foldRows (c : Copy) : Copy :=
  { c with
    reg := { c.reg with rowfile := c.rowWrites.foldl (fun m kv => Store.set {} m kv.1 kv.2) c.reg.rowfile }, rowWrites := [] }

/-- Takes the capture of round `n`, unless it is held already or two earlier ones are (R53). -/
def Copy.capture (c : Copy) (n : Nat) : Copy :=
  if c.captures.any (fun k => k.1 == n) || decide (2 ≤ c.captures.length) then c
  else { c.foldRows with captures := c.captures ++ [(n, c.foldRows.reg)] }

/-- What the copy is restored to when round `n` is voided: its capture, or, at its start with none taken, the region as it stands. -/
def Copy.captureOf (c : Copy) (n : Nat) : RegCore :=
  match c.captures.find? fun k => k.1 == n with
  | some k => k.2
  | none => c.foldRows.reg

/-- Restores the capture of round `n` and drops what the ports received since (R54). `ii` is the region's. -/
def Copy.restore (c : Copy) (n ii : Nat) : Copy :=
  let r := c.captureOf n
  let t := r.wave * ii + r.slot
  { c with
    reg := r
    buffers := c.buffers.filter fun b => decide (b.time < t) || c.committing == some b.round
    captures := c.captures.filter fun k => decide (k.1 ≤ n)
    replies := c.replies.filter fun x => decide (x.time < t)
    buses := [], rowWrites := [], stall := none, loadStall := false, landed := none }

/-- Whether an entry of the agenda belongs to a stamp's copy: what a void takes out of the cycle. -/
def Action.ofCopy (i : Nat) (p : Nat → Bool) : Action → Bool
  | .elem x => x.stamp == i && p x.copy
  | .event (.rowCounterStep a b) => a == i && p b
  | .event (.waveAdvance a b) => a == i && p b
  | .event (.resultLands a b _) => a == i && p b
  | .event (.stallGraceExpiry a b) => a == i && p b
  | _ => false

/-- Takes the rest of this cycle's steps of some copies out of the agenda. -/
def State.dropSteps (s : State) (i : Nat) (p : Nat → Bool) : State :=
  { s with agenda := s.agenda.filter fun a => !a.ofCopy i p }

/-- A count that saturates (R396). -/
def countUp (n k : Nat) : Nat := min (n + k) (2 ^ 32 - 1)

/-- Voids the round in progress of a copy (R54) with a cause, a faulting address and a source node, for the trace (R395, R396). -/
def State.voidCopy (s : State) (i j cause : Nat) (va : Word) (node : Nat := 0) : State :=
  let st := s.getStamp i
  let c := st.copy j
  let n := st.roundAt c.reg.wave
  let mcc := (s.getCore st.core).seq.mcc
  let s := s.dropSteps i fun k => k == j
  let s := s.trace c.core 3 c.handle node (BitVec.ofNat 64 n) (BitVec.ofNat 64 cause) va 0
  s.modCopy i j fun c =>
    let w := c.reg.wave
    let c := c.restore n st.hdr.ii
    { c with voidsAt := c.voidsAt ++ [(w, mcc)], counts := { c.counts with voids := countUp c.counts.voids 1 } }

/-- A copy of a stamp whose region faults: its uncommitted rounds are discarded, a committing one goes on (R213). -/
def Copy.stopPhase (c : Copy) : Copy :=
  { c with
    done := true, loadStall := false, landed := none, replies := [], page := none, conflicts := [], stall := none, voidsAt := [], captures := []
    reg := { c.reg with inflight := [] }, buses := [], rowWrites := []
    buffers := c.buffers.filter fun b => c.committing == some b.round }

/-- Whether a core holds the member of a stamp, its context not yet captured. -/
def State.residentOf (s : State) (st : Stamp) : Bool :=
  let k := s.getCore st.core
  k.bind.isSome && !k.captured && k.binding.task == st.task && k.binding.memb == st.memb

/-- A region faults (R213, R147): the rounds are voided, its phase ends at once in every copy, the stamp is faulted, and
the trap goes to the member, or to its saved context. -/
def State.faultRegion (s : State) (i j : Nat) (t : Trap) (node : Nat := 0) : State :=
  let s := (s.voidCopy i j t.code t.tval node).dropSteps i fun _ => true
  let st := s.getStamp i
  let s := s.modStamp i fun st => { st with state := .faulted t.code, copies := st.copies.map Copy.stopPhase }
  let t := { t with src := 1, unit := (st.copy j).handle }
  if st.held && !s.residentOf st then
    s.modTask st.task fun k => { k with saves := k.saves.map fun x => if x.memb == st.memb then x.holdTrap (s.trapKey st.core) t else x }
  else s.holdTrap st.core st.core t

/-- A page request of a region: the rounds are voided and the region is held (R350). -/
def State.pageRegion (s : State) (i j : Nat) (va : Word) (kind node : Nat) : State :=
  let c := (s.getStamp i).copy j
  let part := (s.getTask (s.getStamp i).task).part
  let s := s.voidCopy i j 5 va node
  let id := s.nextReq
  (s.pageRequest (.region i j) va part c.core c.handle kind).modCopy i j fun c => { c with page := some id }

/-- A range conflict of a region at a page, met through a lane (R348, R351): the round is voided and replayed, after a fresh walk or, while
an invalidation of the page is in progress, when its DONE returns; where the conflict remains on the replay the region faults with cause 22. -/
def State.conflictRegion (s : State) (i j lane : Nat) (va : Word) (node : Nat) : State :=
  let c := (s.getStamp i).copy j
  let part := (s.getTask (s.getStamp i).task).part
  let page := va.toNat / 65536
  if c.conflicts.contains ⟨lane, page, true⟩ then s.faultRegion i j { code := 22, tval := va } node
  else
    let hits := ((s.getCore c.core).tlb (.port lane)).filter fun e => e.covers part va.toNat
    let waits := s.invalidates part va.toNat hits
    let s := (s.voidCopy i j 22 va node).modCopy i j fun c =>
      { c with conflicts := c.conflicts.filter (fun x => x.lane != lane || x.page != page) ++ [⟨lane, page, !waits⟩] }
    if waits then s
    else s.modCore c.core fun k =>
      k.setTlb ((k.tlb (.port lane)).filter fun e => !e.covers part va.toNat) (.port lane)

/-- An access through a lane to a page meets no conflict: one that it met before is over (R348). -/
def Copy.noConflict (c : Copy) (lane page : Nat) : Copy :=
  { c with conflicts := c.conflicts.filter fun x => x.lane != lane || x.page != page }

end Sys2Proof.Machine
end

