-- ==== Sys2Proof/Machine/Operands.lean ====
section
/-!
DEFINITION. The element that issues: whether its entry takes effect (R45), every operand form (R130, R131), tag checks
(R83), poison (R410) and the delivery of a result (R146).
-/

namespace Sys2Proof.Machine

/-! ### Values -/

/-- A value placed in a format (R82): the bits outside the format's range are rewritten. -/
def place (tag v : Nat) : Word :=
  match tag with
  | 1 => wrap64 (sextInt 32 v)
  | 4 => BitVec.ofNat 64 (v % 2 ^ 32)
  | 5 => BitVec.ofNat 64 (v % 2 ^ 16)
  | 6 => BitVec.ofNat 64 (v % 2 ^ 16)
  | 7 => BitVec.ofNat 64 (v % 2 ^ 8)
  | 8 => BitVec.ofNat 64 (v % 2 ^ 8)
  | 12 => BitVec.ofNat 64 (v % 2 ^ 32)
  | 13 => BitVec.ofNat 64 (v % 2)
  | _ => BitVec.ofNat 64 v

/-- An integer as a value of a format, for the immediate and for `one` (R130, R131); integers, floats and, for 1, the
moment formats. -/
def intIn (tag : Nat) (i : Int) : Word :=
  match tag with
  | 0 => wrap64 i
  | 1 => wrap64 i
  | 2 => wrap64 i
  | 14 => wrap64 i
  | 11 => BitVec.ofNat 64 ((Fp.ofInt Fp.f32 0 i).bits * 2 ^ 32)
  | 12 => BitVec.ofNat 64 ((Fp.ofInt Fp.bf16 0 i).bits * 2 ^ 16)
  | 13 => BitVec.ofNat 64 (wrapNat 1 i)
  | t => BitVec.ofNat 64 (Fp.ofInt (Fp.ofCode t) 0 i).bits

/-- The immediate of an entry (R131): sext(AUX) in FMT; in PRED it is AUX[0]. -/
def entryImm (e : Entry) : Word := intIn e.fmt.toNat e.aux.toInt

/-! ### The element -/

/-- The stamp of the entry that issues. -/
def State.xStamp (s : State) : Stamp := s.getStamp s.issue.stamp
/-- Its copy. -/
def State.xCopy (s : State) : Copy := s.xStamp.copy s.issue.copy
/-- That copy changed. -/
def State.modX (s : State) (f : Copy → Copy) : State := s.modCopy s.issue.stamp s.issue.copy f
/-- Elements in a row of the region. -/
def Stamp.width (st : Stamp) : Nat := 4 * st.hdr.w
/-- Number of the element at a row and column. -/
def Stamp.elemNo (st : Stamp) (row col : Nat) : Nat := st.width * row + col
/-- The number of the element that issues. -/
def State.xElem (s : State) : Nat := s.xStamp.elemNo s.issue.row s.issue.col
/-- The core whose tiles the copy uses. -/
def State.xCore (s : State) : Nat := s.xCopy.core
/-- The kernel class of a task (R78). -/
def Task.kclass (t : Task) : Nat := fieldOf t.record.toNat 148 147
/-- The kernel class of the region's task. -/
def State.xClass (s : State) : Nat := (s.getTask s.xStamp.task).kclass
/-- The partition of its task. -/
def State.xPart (s : State) : Nat := (s.getTask s.xStamp.task).part
/-- Local time of the issue. -/
def State.xTime (s : State) : Nat := s.issue.wave * s.xStamp.hdr.ii + s.issue.slot
/-- The frame of an entry: wave - stage (R45). -/
def State.xFrame (s : State) (e : Entry) : Nat := s.issue.wave - e.stg.toNat
/-- The iteration index of the frame (R24). -/
def State.xIter (s : State) (e : Entry) : Nat := (s.xCopy.phItoff + s.xFrame e) % 2 ^ 32
/-- The own latch. -/
def State.xLatch (s : State) : Tagged := Store.get {} s.xCopy.reg.latch s.xElem

/-- The tag fault. -/
def tagTrap : Trap := { code := 9 }
/-- The timing fault. -/
def timingTrap : Trap := { code := 10 }
/-- The moment fault. -/
def momentTrap : Trap := { code := 11 }

/-- The data-error fault of a poisoned address, condition or count in a class-D kernel (R410). -/
def State.xClean (s : State) (psn : Bool) : Except Trap Unit :=
  if psn && s.xClass == 1 then .error (dataTrap 0) else .ok ()

/-- Whether the entry takes effect (R45): the frame exists and the predicate holds; PR 01 and 10 need a PRED latch. -/
def State.takesEffect (s : State) (e : Entry) : Except Trap Bool :=
  let f := s.xFrame e
  if s.issue.wave < e.stg.toNat || s.xStamp.trip ≤ f then .ok false
  else
    match e.pr.toNat with
    | 0 => .ok true
    | 3 => .ok (decide (f < s.xCopy.phPlim))
    | p => do
      let l := s.xLatch
      if l.tag ≠ 13 then .error tagTrap
      s.xClean l.psn
      .ok (l.val.bit 0 == (p == 1))

/-- Whether the issue names a copy of a stamp whose phase runs. -/
def State.xLive (s : State) : Bool :=
  s.xStamp.state == .running && decide (s.issue.copy < s.xStamp.copies.length)

/-- A lane-slice word of the element with its error state: words are numbered by 512 × element + word. -/
def State.laneWord (s : State) (w : Nat) : Word × Mark :=
  let k := 512 * s.xElem + w
  (Store.get 0 s.xCopy.reg.lane k, Store.get .clean s.xCopy.reg.laneMarks k)

/-- What a read of lane-slice word `w`, in error state `m`, leaves beside its value (R66): its charge (R81) and, where it is
uncorrectable, a class-3 record with level 0 and the word's place in the element's lane slices (R322; log entry 93, DESIGN CHOICE). -/
def State.tellLane (s : State) (w : Nat) (m : Mark) : State :=
  let s := if m == .bad then
      s.present s.xCore (.saiga (BitVec.ofNat 64 (8 * (512 * s.xElem + w))) s.xPart 3 0 0 0 0 s.xCore)
    else s
  s.charge s.xPart (deliver true 0 s.xClass m false).charge s.xCore

/-- The lane-slice word among an entry's operands (R130). -/
def laneOperand (e : Entry) : Option Nat :=
  if e.sa = 14 || e.sb = 14 || e.sc = 14 then some (e.aux.toNat % 4 * 128 + e.wi.toNat) else none

/-- Its error state. -/
def State.laneMark (s : State) (e : Entry) : Mark :=
  match laneOperand e with
  | some w => (s.laneWord w).2
  | none => .clean

/-- The source node of the entry that issues (R395). The configuration's index in its source file is a free value (log entry 116, DESIGN
CHOICE). -/
def Stamp.node (i row col slot : Nat) : Nat :=
  Config.configIndex i % 4096 * 2 ^ 20 + row % 16 * 2 ^ 16 + col % 16 * 2 ^ 12 + slot % 32 * 2 ^ 7

/-- The source node of the entry that issues. -/
def State.xNode (s : State) : Nat := Stamp.node s.issue.stamp s.issue.row s.issue.col s.issue.slot

/-- The region of the entry that issues faults (R147). -/
def State.xFault (s : State) (t : Trap) : State := s.faultRegion s.issue.stamp s.issue.copy t s.xNode

/-- An element entry: nothing where it does not take effect (R45); a fault voids the round and faults the region
(R147). -/
def elem (e : Entry) (s : State) (body : Except Trap State) : Result :=
  if s.xLive then
    match s.takesEffect e with
    | .error t => .next (s.xFault t)
    | .ok false => .next s
    | .ok true =>
      let ch (s' : State) : State := match laneOperand e with
        | some w => s'.tellLane w (s.laneMark e)
        | none => s'
      match body with
      | .ok s' => .next (ch s')
      | .error t => .next ((ch s).xFault t)
  else .next s

/-! ### Operands -/

/-- The latch of a neighbour. -/
def State.neighbour (s : State) (code : Nat) : Tagged :=
  let r := s.issue.row
  let c := s.issue.col
  let at' (r c : Nat) : Tagged := Store.get {} s.xCopy.reg.latch (s.xStamp.elemNo r c)
  match code with
  | 1 => if r = 0 then {} else at' (r - 1) c
  | 2 => if c + 1 < s.xStamp.width then at' r (c + 1) else {}
  | 3 => at' (r + 1) c
  | _ => if c = 0 then {} else at' r (c - 1)

/-- Row-file read port `n` in the slot (R49, R50). -/
def State.rowPort (s : State) (n : Nat) : Tagged :=
  let w := Store.get 0 s.xStamp.ctx (32 * s.issue.row + s.issue.slot)
  if bitOf w (39 + 8 * n) then
    Store.get {} s.xCopy.reg.rowfile (128 * s.issue.row + fieldOf w (38 + 8 * n) (32 + 8 * n))
  else {}

/-- A lane-slice word delivered under R77 for the kernel's class (R66). -/
def State.readLane (s : State) (w : Nat) : Except Trap (Word × Bool) :=
  let x := s.laneWord w
  let d := deliver true 0 s.xClass x.2 false
  if d.fault then .error (dataTrap (BitVec.ofNat 64 (8 * w))) else .ok (x.1, d.psn)

/-- Writes a lane-slice word in the issue cycle (R165). -/
def State.writeLane (s : State) (w : Nat) (v : Word) : State :=
  let k := 512 * s.xElem + w
  s.modX fun c => { c with reg := { c.reg with
    lane := Store.set 0 c.reg.lane k v, laneMarks := Store.set .clean c.reg.laneMarks k .clean } }

/-- The operand of a source code (R130). -/
def State.source (s : State) (e : Entry) (code : BitVec 5) : Except Trap Tagged :=
  let c := s.xCopy
  let n := code.toNat
  if n = 0 then .ok s.xLatch
  else if n < 5 then .ok (s.neighbour n)
  else if n < 7 then .ok (Store.get {} c.buses (4 * s.issue.row + (n - 5)))
  else if n < 9 then .ok (Store.get {} c.buses (1000 + 4 * s.issue.col + (n - 7)))
  else if n < 13 then .ok (s.rowPort (n - 9))
  else match n with
    | 13 => .ok ⟨(entryImm e), e.fmt, false⟩
    | 14 => do
      let x ← s.readLane (e.aux.toNat % 4 * 128 + e.wi.toNat)
      .ok ⟨x.1, e.fmt, x.2⟩
    | 17 => .ok ⟨intIn e.fmt.toNat 1, e.fmt, false⟩
    | 18 => .ok ⟨BitVec.ofNat 64 (s.xIter e), 2, false⟩
    | 19 => .ok ⟨BitVec.ofNat 64 s.issue.copy, 2, false⟩
    | _ => .ok ⟨0, e.fmt, false⟩

/-- An operand whose tag must be one of a list (R83). -/
def State.operand (s : State) (e : Entry) (code : BitVec 5) (tags : List Nat) : Except Trap Tagged := do
  let x ← s.source e code
  if tags.contains x.tag.toNat then .ok x else .error tagTrap

/-- An operand that carries FMT. -/
def State.fmtOperand (s : State) (e : Entry) (code : BitVec 5) : Except Trap Tagged := s.operand e code [e.fmt.toNat]

/-- A value operand: under FMT RAW any tag, else FMT (R148). -/
def State.valueOperand (s : State) (e : Entry) (code : BitVec 5) : Except Trap Tagged :=
  if e.fmt = 0 then s.source e code else s.fmtOperand e code

/-- An integer operand: I32 or I64 (R152, R158). -/
def State.intOperand (s : State) (e : Entry) (code : BitVec 5) : Except Trap Tagged := s.operand e code [1, 2]

/-! ### Delivery -/

/-- deliver of R146: the result lands in cycle issue + L with its destinations. -/
def State.deliverAs (s : State) (e : Entry) (lat : Nat) (v : Word) (tag : Nat) (psn we : Bool) : State :=
  let fl (id : Nat) : Flight :=
    { id := id, due := s.xTime + lat, elem := s.xElem, val := some ⟨place tag v.toNat, BitVec.ofNat 4 tag, psn⟩, we := we
      wi := e.wi.toNat, dr := e.dr.toNat, dc := e.dc.toNat, slot := s.issue.slot }
  s.modX fun c => { c with
    reg := { c.reg with inflight := c.reg.inflight ++ [fl c.nextId] }, nextId := c.nextId + 1 }

/-- The usual delivery. -/
def State.give (s : State) (e : Entry) (lat : Nat) (v : Word) (tag : Nat) (psn : Bool) : State :=
  s.deliverAs e lat v tag psn e.we

/-- An operation of one operand that carries FMT; `tag` is the result's. -/
def elem1 (e : Entry) (lat tag : Nat) (s : State) (f : Word → Word) : Result :=
  elem e s do
    let a ← s.fmtOperand e e.sa
    .ok (s.give e lat (f a.val) tag a.psn)

/-- Of two. -/
def elem2 (e : Entry) (lat tag : Nat) (s : State) (f : Word → Word → Word) : Result :=
  elem e s do
    let a ← s.fmtOperand e e.sa
    let b ← s.fmtOperand e e.sb
    .ok (s.give e lat (f a.val b.val) tag (a.psn || b.psn))

/-- Of three. -/
def elem3 (e : Entry) (lat tag : Nat) (s : State) (f : Word → Word → Word → Word) : Result :=
  elem e s do
    let a ← s.fmtOperand e e.sa
    let b ← s.fmtOperand e e.sb
    let c ← s.fmtOperand e e.sc
    .ok (s.give e lat (f a.val b.val c.val) tag (a.psn || b.psn || c.psn))

end Sys2Proof.Machine
end

