-- ==== Sys2Proof/Machine/ElemInt.lean ====
section
/-!
DEFINITION. Element operations that move, build and test values, and the integer, logic, shift and predicate operations
(R148 to R157).
-/

namespace Sys2Proof.Machine

/-- The width w of an integer operation (R152, R157): 32 for I32, else 64. -/
def entryWidth (e : Entry) : Nat := if e.fmt = 1 then 32 else 64

/-- The low w bits of an operand. -/
def entryBits (e : Entry) (v : Word) : Nat := v.toNat % 2 ^ (entryWidth e)

/-! ### Moves, constants -/

/-- `NOP` (R148). -/
def execENop (e : Entry) (s : State) : Result := elem e s (.ok s)

/-- A move with latency `lat` (R148). -/
def elemMove (e : Entry) (lat : Nat) (s : State) : Result :=
  elem e s do
    let a ← s.valueOperand e e.sa
    .ok (s.give e lat a.val a.tag.toNat a.psn)

/-- `MOV` (R148). -/
def execEMov (e : Entry) (s : State) : Result := elemMove e 1 s

/-- `DLY` (R148): AUX holds n - 1. -/
def execEDly (e : Entry) (s : State) : Result := elemMove e (e.aux.toNat + 1) s

/-- `SEL` (R148): A if bit 0 of C is 1, else B. -/
def execESel (e : Entry) (s : State) : Result :=
  elem e s do
    let a ← s.valueOperand e e.sa
    let b ← s.valueOperand e e.sb
    let c ← s.operand e e.sc [13]
    let r := if c.val.bit 0 then a else b
    .ok (s.give e 1 r.val r.tag.toNat (c.psn || r.psn))

/-- `RETAG` (R149). -/
def execERetag (e : Entry) (s : State) : Result :=
  elem e s do
    let a ← s.source e e.sa
    if e.aux.getLsbD 0 && a.tag ≠ 0 then .error tagTrap
    else .ok (s.give e 1 a.val e.fmt.toNat a.psn)

/-- The constant of `KSET` (R150). -/
def ksetValue (fmt k : Nat) : Word :=
  match fmt with
  | 3 => BitVec.ofNat 64 (k * 2 ^ 41)
  | 4 => BitVec.ofNat 64 (k * 2 ^ 9)
  | 5 => BitVec.ofNat 64 (k % 2 ^ 16)
  | 6 => BitVec.ofNat 64 (k % 2 ^ 16)
  | 7 => BitVec.ofNat 64 (k % 2 ^ 8)
  | 8 => BitVec.ofNat 64 (k % 2 ^ 8)
  | 13 => BitVec.ofNat 64 (k % 2)
  | _ => wrap64 (sextInt 23 k)

/-- `KSET` (R150). -/
def execEKset (e : Entry) (s : State) : Result :=
  elem e.constant s (.ok (s.deliverAs e 1 (ksetValue e.fmt.toNat e.k) e.fmt.toNat false false))

/-- `KINS` (R151): halfword K[17:16] of the own latch becomes K[15:0]. -/
def execEKins (e : Entry) (s : State) : Result :=
  elem e.constant s do
    let l := s.xLatch
    if l.tag ≠ e.fmt then .error tagTrap
    else
      let h := e.k / 2 ^ 16 % 4
      .ok (s.deliverAs e 1 (l.val.put (16 * h + 15) (16 * h) e.k) e.fmt.toNat l.psn false)

/-! ### Integer arithmetic -/

/-- The operand B of an integer operation: under FMT ADDR an I64 or I32 value or the immediate (R152). -/
def State.intSecond (s : State) (e : Entry) : Except Trap Tagged :=
  if e.fmt = 14 then (if e.sb = 13 then s.source e e.sb else s.intOperand e e.sb) else s.fmtOperand e e.sb

/-- An operation on the w-bit values of A and B (R152): `f w x y`. -/
def elemInt2 (e : Entry) (lat : Nat) (s : State) (f : Nat → Nat → Nat → Nat) : Result :=
  elem e s do
    let a ← s.fmtOperand e e.sa
    let b ← s.intSecond e
    .ok (s.give e lat (BitVec.ofNat 64 (f (entryWidth e) (entryBits e a.val) (entryBits e b.val) % 2 ^ (entryWidth e))) e.fmt.toNat
      (a.psn || b.psn))

/-- An operation on the w-bit value of A. -/
def elemInt1 (e : Entry) (lat : Nat) (s : State) (f : Nat → Nat → Nat) : Result :=
  elem1 e lat e.fmt.toNat s fun a => BitVec.ofNat 64 (f (entryWidth e) (entryBits e a) % 2 ^ (entryWidth e))

/-- `IADD` (R152). -/
def execEIadd (e : Entry) (s : State) : Result := elemInt2 e 2 s fun _ x y => x + y
/-- `ISUB` (R152). -/
def execEIsub (e : Entry) (s : State) : Result := elemInt2 e 2 s fun w x y => x + (2 ^ w - y)
/-- `IMUL` (R152). -/
def execEImul (e : Entry) (s : State) : Result := elemInt2 e 4 s fun _ x y => x * y
/-- `IMULH` (R152). -/
def execEImulh (e : Entry) (s : State) : Result :=
  elemInt2 e 4 s fun w x y => wrapNat w (sextInt w x * sextInt w y / (2 ^ w : Nat))
/-- `IMULHU` (R152). -/
def execEImulhu (e : Entry) (s : State) : Result := elemInt2 e 4 s fun w x y => x * y / 2 ^ w
/-- `IMAC` (R152). -/
def execEImac (e : Entry) (s : State) : Result :=
  elem3 e 4 e.fmt.toNat s fun a b c =>
    BitVec.ofNat 64 ((entryBits e a * entryBits e b + entryBits e c) % 2 ^ (entryWidth e))
/-- `INEG` (R152). -/
def execEIneg (e : Entry) (s : State) : Result := elemInt1 e 2 s fun w x => 2 ^ w - x
/-- `IABS` (R152). -/
def execEIabs (e : Entry) (s : State) : Result := elemInt1 e 2 s fun w x => (sextInt w x).natAbs
/-- `IMIN` (R152). -/
def execEImin (e : Entry) (s : State) : Result :=
  elemInt2 e 2 s fun w x y => if sextInt w x ≤ sextInt w y then x else y
/-- `IMAX` (R152). -/
def execEImax (e : Entry) (s : State) : Result :=
  elemInt2 e 2 s fun w x y => if sextInt w x ≤ sextInt w y then y else x
/-- `IMINU` (R152). -/
def execEIminu (e : Entry) (s : State) : Result := elemInt2 e 2 s fun _ x y => min x y
/-- `IMAXU` (R152). -/
def execEImaxu (e : Entry) (s : State) : Result := elemInt2 e 2 s fun _ x y => max x y
/-- `IADDS` (R152, R95). -/
def execEIadds (e : Entry) (s : State) : Result :=
  elemInt2 e 2 s fun w x y => wrapNat w (satInt w (sextInt w x + sextInt w y))
/-- `ISUBS` (R152, R95). -/
def execEIsubs (e : Entry) (s : State) : Result :=
  elemInt2 e 2 s fun w x y => wrapNat w (satInt w (sextInt w x - sextInt w y))

/-! ### Logic, shifts, counts -/

/-- A bitwise operation (R153): under RAW on all 64 bits of values of any tag. -/
def elemLogic (e : Entry) (s : State) (f : Word → Word → Word) : Result :=
  elem e s do
    let a ← s.valueOperand e e.sa
    let b ← s.valueOperand e e.sb
    .ok (s.give e 1 (f a.val b.val) e.fmt.toNat (a.psn || b.psn))

/-- `AND` (R153). -/
def execEAnd (e : Entry) (s : State) : Result := elemLogic e s fun x y => x &&& y
/-- `OR` (R153). -/
def execEOr (e : Entry) (s : State) : Result := elemLogic e s fun x y => x ||| y
/-- `XOR` (R153). -/
def execEXor (e : Entry) (s : State) : Result := elemLogic e s fun x y => x ^^^ y
/-- `ANDN` (R153). -/
def execEAndn (e : Entry) (s : State) : Result := elemLogic e s fun x y => x &&& ~~~y
/-- `NOT` (R153). -/
def execENot (e : Entry) (s : State) : Result :=
  elem e s do
    let a ← s.valueOperand e e.sa
    .ok (s.give e 1 (~~~a.val) e.fmt.toNat a.psn)

/-- A shift (R154): the amount is B modulo w, from an I32 or I64 value or the immediate. -/
def elemShift (e : Entry) (s : State) (f : Nat → Nat → Nat → Nat) : Result :=
  elem e s do
    let a ← s.fmtOperand e e.sa
    let b ← s.intOperand e e.sb
    .ok (s.give e 1 (BitVec.ofNat 64 (f (entryWidth e) (entryBits e a.val) (b.val.toNat % (entryWidth e)) % 2 ^ (entryWidth e))) e.fmt.toNat
      (a.psn || b.psn))

/-- `SHL` (R154). -/
def execEShl (e : Entry) (s : State) : Result := elemShift e s fun _ x n => x <<< n
/-- `SHR` (R154). -/
def execEShr (e : Entry) (s : State) : Result := elemShift e s fun _ x n => x >>> n
/-- `SRA` (R154). -/
def execESra (e : Entry) (s : State) : Result := elemShift e s fun w x n => wrapNat w (sextInt w x / (2 ^ n : Nat))
/-- `ROT` (R154). -/
def execERot (e : Entry) (s : State) : Result := elemShift e s fun w x n => rotl w x n
/-- `CLZ` (R155). -/
def execEClz (e : Entry) (s : State) : Result := elemInt1 e 2 s fun w x => leadingZeros w x
/-- `POPC` (R155). -/
def execEPopc (e : Entry) (s : State) : Result := elemInt1 e 2 s fun w x => popCount w x

/-! ### Compares and predicates -/

/-- A condition code of R156 on two integers. -/
def intCond (cc : Nat) (x y : Int) : Bool :=
  match cc with
  | 0 => decide (x = y)
  | 1 => decide (x ≠ y)
  | 2 => decide (x < y)
  | 3 => decide (x ≤ y)
  | 4 => decide (y < x)
  | _ => decide (y ≤ x)

/-- A predicate as a value. -/
def predWord (b : Bool) : Word := BitVec.ofNat 64 (bit01 b)

/-- `ICMP` (R156), signed. -/
def execEIcmp (e : Entry) (s : State) : Result :=
  elem2 e 2 13 s fun a b =>
    predWord (intCond e.aux.toNat (sextInt (entryWidth e) (entryBits e a)) (sextInt (entryWidth e) (entryBits e b)))
/-- `ICMPU` (R156), unsigned. -/
def execEIcmpu (e : Entry) (s : State) : Result :=
  elem2 e 2 13 s fun a b => predWord (intCond e.aux.toNat (entryBits e a : Int) (entryBits e b : Int))

/-- `PAND` (R157). -/
def execEPand (e : Entry) (s : State) : Result := elem2 e 1 13 s fun a b => predWord (a.bit 0 && b.bit 0)
/-- `POR` (R157). -/
def execEPor (e : Entry) (s : State) : Result := elem2 e 1 13 s fun a b => predWord (a.bit 0 || b.bit 0)
/-- `PXOR` (R157). -/
def execEPxor (e : Entry) (s : State) : Result := elem2 e 1 13 s fun a b => predWord (a.bit 0 != b.bit 0)
/-- `PNOT` (R157). -/
def execEPnot (e : Entry) (s : State) : Result := elem1 e 1 13 s fun a => predWord (!a.bit 0)
/-- `PTST` (R157). -/
def execEPtst (e : Entry) (s : State) : Result :=
  elem e s do
    let a ← s.valueOperand e e.sa
    let b ← s.valueOperand e e.sb
    .ok (s.give e 1 (predWord (decide (entryBits e (a.val &&& b.val) ≠ 0))) 13 (a.psn || b.psn))

end Sys2Proof.Machine
end

