-- ==== Sys2Proof/Machine/Exact.lean ====
section
/-!
DEFINITION. Sums of products formed exactly and rounded once (R94, R103, R109).
-/

namespace Sys2Proof.Fp

/-- A product formed exactly: NaN where an operand is NaN or the product is 0 × ∞. -/
def Val.mul (x y : Val) : Val :=
  match x, y with
  | .nan s, _ => .nan s
  | _, .nan s => .nan s
  | .inf a, y => if y.isZero then .nan false else .inf (a != y.sign)
  | x, .inf b => if x.isZero then .nan false else .inf (x.sign != b)
  | .num n1 m1 e1, .num n2 m2 e2 => .num (n1 != n2) (m1 * m2) (e1 + e2)

/-- A sum formed exactly: NaN where an operand is NaN or infinities of both signs meet; an exact zero is +0 unless both
are −0. -/
def Val.add (x y : Val) : Val :=
  match x, y with
  | .nan s, _ => .nan s
  | _, .nan s => .nan s
  | .inf a, .inf b => if a == b then .inf a else .nan false
  | .inf a, _ => .inf a
  | _, .inf b => .inf b
  | .num n1 m1 e1, .num n2 m2 e2 =>
    let r := sumAt n1 m1 e1 n2 m2 e2
    if r.1 = 0 then .num (n1 && n2 && m1 == 0 && m2 == 0) 0 r.2 else .num (decide (r.1 < 0)) r.1.natAbs r.2

/-- A value as a binary32. -/
def v32 (b : Nat) : Val := decode f32 b

/-- A value rounded RNE to a format. -/
def rn (f : Fmt) (x : Val) : Nat := (convert f 0 0 false x).bits

/-- −0 as the start of a sum: it changes no sum. -/
def negZero : Val := .num true 0 0

/-- The exact sum of a list. -/
def sumV (l : List Val) : Val := l.foldl Val.add negZero

end Sys2Proof.Fp
end

