-- ==== Sys2Proof/Machine/Special.lean ====
section
/-!
DEFINITION. The special functions of R97 to R99, R104 and R107: the true value to far more places than binary32 has, the
results the bounds allow, and the choice among them, which the specification leaves open (log entry 4, DESIGN CHOICE).
-/

namespace Sys2Proof.Fp

/-! ### True values, in units of 2^-p -/

/-- Sum of a series whose term n is `t n` divided by `d n`, with t (n+1) = `next n (t n)`. -/
def series (next : Nat → Int → Int) (d : Nat → Int) : Nat → Nat → Int → Int
  | 0, _, _ => 0
  | fuel + 1, n, t => if t = 0 then 0 else t / d n + series next d fuel (n + 1) (next n t)

/-- e^r for 0 ≤ r < 1. -/
def expFix (p : Nat) (r : Int) : Int := series (fun n t => t * r / (2 ^ p : Nat) / (n + 1 : Nat)) (fun _ => 1) 400 0 (2 ^ p : Nat)

/-- atanh z for small z. -/
def atanhFix (p : Nat) (z : Int) : Int :=
  series (fun _ t => t * z / (2 ^ p : Nat) * z / (2 ^ p : Nat)) (fun n => (2 * n + 1 : Nat)) 600 0 z

/-- arctan of 1 / k. -/
def atanInv (p k : Nat) : Int :=
  series (fun _ t => -t / (k * k : Nat)) (fun n => (2 * n + 1 : Nat)) 600 0 ((2 ^ p : Nat) / (k : Int))

/-- ln 2. -/
def ln2Fix (p : Nat) : Int := 2 * atanhFix p ((2 ^ p : Nat) / 3)
/-- π. -/
def piFix (p : Nat) : Int := 16 * atanInv p 5 - 4 * atanInv p 239
/-- √x. -/
def sqrtFix (p : Nat) (x : Nat) : Nat := isqrt (x * 2 ^ p)

/-- e^x. -/
def expOf (p : Nat) (x : Int) : Nat :=
  let l := ln2Fix p
  let k := x / l
  let y := (expFix p (x - k * l)).toNat
  if 0 ≤ k then y * 2 ^ k.toNat else y / 2 ^ (-k).toNat

/-- ln of m × 2^e, m > 0. -/
def lnOf (p : Nat) (m : Nat) (e : Int) : Int :=
  let n := bitLen m - 1
  let y : Int := (m : Int) * (2 ^ p : Nat) / (2 ^ n : Nat)
  let one : Int := (2 ^ p : Nat)
  2 * atanhFix p ((y - one) * one / (y + one)) + (e + n) * ln2Fix p

/-- sin r for small r. -/
def sinFix (p : Nat) (r : Int) : Int :=
  series (fun n t => -(t * r / (2 ^ p : Nat) * r / (2 ^ p : Nat)) / ((2 * n + 2) * (2 * n + 3) : Nat)) (fun _ => 1) 300 0 r

/-- cos r for small r. -/
def cosFix (p : Nat) (r : Int) : Int :=
  series (fun n t => -(t * r / (2 ^ p : Nat) * r / (2 ^ p : Nat)) / ((2 * n + 1) * (2 * n + 2) : Nat)) (fun _ => 1) 300 0
    (2 ^ p : Nat)

/-- sin x, or cos x with `q` = 1, by reduction to the nearest quarter turn. -/
def circular (p : Nat) (q : Int) (x : Int) : Int :=
  let h := piFix p / 2
  let n := (x + h / 2) / h
  let r := x - n * h
  match ((n + q) % 4).toNat with
  | 0 => sinFix p r
  | 1 => cosFix p r
  | 2 => -sinFix p r
  | _ => -cosFix p r

/-- erf x for |x| at most 12. -/
def erfFix (p : Nat) (x : Int) : Int :=
  let y := series (fun n t => -(t * x / (2 ^ p : Nat) * x / (2 ^ p : Nat)) / (n + 1 : Nat)) (fun n => (2 * n + 1 : Nat)) 1200 0 x
  2 * y * (2 ^ p : Nat) / (sqrtFix p (piFix p).toNat : Nat)

/-- 1 / (1 + e^-x). -/
def sigmoidFix (p : Nat) (x : Int) : Int :=
  let y : Int := expOf p x
  y * (2 ^ p : Nat) / (y + (2 ^ p : Nat))

/-- The standard normal distribution function. -/
def cdfFix (p : Nat) (x : Int) : Int :=
  ((2 ^ p : Nat) + erfFix p (x * (2 ^ p : Nat) / (sqrtFix p (2 * 2 ^ p) : Nat))) / 2

/-- The standard normal quantile of u by halving lo to hi. -/
def invFix (p : Nat) (u : Int) : Nat → Int → Int → Int
  | 0, lo, _ => lo
  | n + 1, lo, hi =>
    let m := (lo + hi) / 2
    if cdfFix p m ≤ u then invFix p u n m hi else invFix p u n lo m

/-! ### Allowed results -/

/-- The places kept. -/
def places : Nat := 640

/-- m × 2^e in units of 2^-places, e at least -149. -/
def fixed (neg : Bool) (m : Nat) (e : Int) : Int := signed neg (m * 2 ^ (places + e).toNat)

/-- Limits a value to -b..b. -/
def within (b : Nat) (x : Int) : Int := clampInt (-(b * 2 ^ places : Nat)) (b * 2 ^ places : Nat) x

/-- The binary32 value numbered `i` away from zero, with sign `neg` for i ≥ 0. -/
def f32At (neg : Bool) (i : Int) : Nat := bit01 (neg != decide (i < 0)) * 2 ^ 31 + i.natAbs

/-- Its magnitude with sign, in units of 2^-places; infinity counts as 2^128. -/
def f32Mag (i : Int) : Int :=
  match decode f32 i.natAbs with
  | .num _ m e => signed (decide (i < 0)) (m * 2 ^ (places + e).toNat)
  | _ => (2 ^ (places + 128) : Nat)

/-- The results within `b` ulp of a true magnitude; with b = 0 the two values that bracket it (R97). -/
def allowed (b : Nat) (neg : Bool) (n : Nat) : List Nat :=
  let t : Int := (round f32 1 0 false false n (-places) false).bits
  if b = 0 then [f32At neg t, f32At neg (t + 1)]
  else
    let ulp : Int := 2 ^ (max (bitLen n - 1 - 23) (places - 149))
    let is := (List.range (8 * b + 1)).map fun (k : Nat) => t + (k : Int) - (4 * b : Nat)
    let is := is.filter fun i => decide (i ≤ (f32.infBits : Int)) && decide ((f32Mag i - (n : Int)).natAbs ≤ b * ulp.natAbs)
    is.flatMap fun i => if i = 0 then [0, 2 ^ 31] else [f32At neg i]

/-- The result chosen for function `fn` on operand bits `x`. -/
def choose (fn x : Nat) (l : List Nat) : Nat := l.getD (Config.special fn x % l.length) f32.nanBits

/-- A true value too large for binary32 gives infinity. -/
def nearTrue (fn x b : Nat) (v : Int) : Nat :=
  if 2 ^ (places + 128) ≤ v.natAbs then f32At (decide (v < 0)) f32.infBits
  else choose fn x (allowed b (decide (v < 0)) v.natAbs)

/-- The place of binary32 bits in numeric order. -/
def orderOf (x : Nat) : Nat := if x / 2 ^ 31 % 2 = 1 then 2 ^ 31 - x % 2 ^ 31 else 2 ^ 31 + x % 2 ^ 31

/-- The result of a function of R97, which rises with its operand: of the two values that bracket a true one, the upper from some
operand on that the specification leaves open (log entry 7), so that the function is monotonic. -/
def risingTrue (fn x : Nat) (v : Int) : Nat :=
  if 2 ^ (places + 128) ≤ v.natAbs then f32At (decide (v < 0)) f32.infBits
  else
    let l := allowed 0 (decide (v < 0)) v.natAbs
    let lo := if v < 0 then l.getD 1 0 else l.getD 0 0
    let hi := if v < 0 then l.getD 0 0 else l.getD 1 0
    if Config.rises fn lo ≤ orderOf x then hi else lo

/-- 1.0. -/
def one32 : Nat := 0x3F800000
/-- -∞. -/
def negInf32 : Nat := 0xFF800000

/-- `EXP2` (R97). -/
def exp2F (x : Nat) : Nat :=
  match decode f32 x with
  | .nan _ => f32.nanBits
  | .inf n => if n then 0 else f32.infBits
  | .num n m e =>
    let i := toInteger 1 n m e
    if 128 ≤ i.1 then f32.infBits
    else if !i.2 ∧ -149 ≤ i.1 then (round f32 0 0 false false 1 i.1 false).bits
    else risingTrue 0 x (expOf places (within 200 (fixed n m e) * ln2Fix places / (2 ^ places : Nat)))

/-- `LOG2` (R97). -/
def log2F (x : Nat) : Nat :=
  match decode f32 x with
  | .nan _ => f32.nanBits
  | .inf n => if n then f32.nanBits else f32.infBits
  | .num n m e =>
    if m = 0 then negInf32 else if n then f32.nanBits
    else if m = 2 ^ (bitLen m - 1) then (ofInt f32 0 (e + bitLen m - 1)).bits
    else risingTrue 1 x (lnOf places m e * (2 ^ places : Nat) / ln2Fix places)

/-- `EXP` (R97). -/
def expF (x : Nat) : Nat :=
  match decode f32 x with
  | .nan _ => f32.nanBits
  | .inf n => if n then 0 else f32.infBits
  | .num n m e => if m = 0 then one32 else risingTrue 2 x (expOf places (within 200 (fixed n m e)))

/-- `LN` (R97). -/
def lnF (x : Nat) : Nat :=
  match decode f32 x with
  | .nan _ => f32.nanBits
  | .inf n => if n then f32.nanBits else f32.infBits
  | .num n m e =>
    if m = 0 then negInf32 else if n then f32.nanBits else if x % 2 ^ 32 = one32 then 0
    else risingTrue 3 x (lnOf places m e)

/-- `RCP` (R98). -/
def rcpF (x : Nat) : Nat :=
  match decode f32 x with
  | .nan _ => f32.nanBits
  | .inf n => bit01 n * 2 ^ 31
  | .num n m e =>
    if m = 0 then bit01 n * 2 ^ 31 + f32.infBits
    else nearTrue 4 x 1 (signed n (2 ^ (2 * places) / (m * 2 ^ (places + e).toNat)))

/-- `RSQRT` (R98). -/
def rsqrtF (x : Nat) : Nat :=
  match decode f32 x with
  | .nan _ => f32.nanBits
  | .inf n => if n then f32.nanBits else 0
  | .num n m e =>
    if m = 0 then bit01 n * 2 ^ 31 + f32.infBits
    else if n then f32.nanBits
    else nearTrue 5 x 1 (isqrt (2 ^ (3 * places) / (m * 2 ^ (places + e).toNat)))

/-- `SIN`, and with q = 1 `COS` (R98). -/
def circularF (fn : Nat) (q : Int) (x : Nat) : Nat :=
  match decode f32 x with
  | .num n m e => nearTrue fn x 2 (circular places q (fixed n m e))
  | _ => f32.nanBits

/-- `SIN` (R98). -/
def sinF (x : Nat) : Nat := circularF 6 0 x
/-- `COS` (R98). -/
def cosF (x : Nat) : Nat := circularF 7 1 x

/-- `TANH` (R98). -/
def tanhF (x : Nat) : Nat :=
  match decode f32 x with
  | .nan _ => f32.nanBits
  | .inf n => bit01 n * 2 ^ 31 + one32
  | .num n m e =>
    let y := sigmoidFix places (2 * within 128 (fixed false m e))
    nearTrue 8 x 2 (signed n (2 * y - (2 ^ places : Nat)).natAbs)

/-- `SIGMOID` (R98). -/
def sigmoidF (x : Nat) : Nat :=
  match decode f32 x with
  | .nan _ => f32.nanBits
  | .inf n => if n then 0 else one32
  | .num n m e => nearTrue 9 x 2 (sigmoidFix places (within 128 (fixed n m e)))

/-- `ERF` (R98). -/
def erfF (x : Nat) : Nat :=
  match decode f32 x with
  | .nan _ => f32.nanBits
  | .inf n => bit01 n * 2 ^ 31 + one32
  | .num n m e => nearTrue 10 x 2 (signed n (erfFix places (within 12 (fixed false m e))).natAbs)

/-- norm_pdf (R104). -/
def pdfF (x : Nat) : Nat :=
  match decode f32 x with
  | .nan _ => f32.nanBits
  | .inf _ => 0
  | .num n m e =>
    let y := within 40 (fixed n m e)
    nearTrue 11 x 2 (expOf places (-(y * y / (2 ^ (places + 1) : Nat))) * 2 ^ places / (sqrtFix places (2 * (piFix places).toNat) : Nat))

/-- norm_cdf (R104). -/
def cdfF (x : Nat) : Nat :=
  match decode f32 x with
  | .nan _ => f32.nanBits
  | .inf n => if n then 0 else one32
  | .num n m e => nearTrue 12 x 2 (cdfFix places (within 16 (fixed n m e)))

/-- norm_inv of (r + 0.5) / 65536 (R107). -/
def invF (r : Nat) : Nat :=
  let p := 160
  let one : Int := (2 ^ p : Nat)
  nearTrue 13 r 2 (invFix p ((2 * (r : Int) + 1) * one / (2 ^ 17 : Nat)) 150 (-5 * one) (5 * one) * (2 ^ (places - p) : Nat))

/-- A special function in F32, BF16 or F16 (R99): the binary32 result on the widened input, rounded once more. -/
def specialIn (f : Fmt) (g : Nat → Nat) (x : Nat) : Nat :=
  if f = f32 then g (x % 2 ^ 32)
  else (convert f 0 0 false (decode f32 (g (convert f32 0 0 false (decode f x)).bits))).bits

end Sys2Proof.Fp
end

