-- ==== Sys2Proof/Machine/ElemFloat.lean ====
section
/-!
DEFINITION. Element operations on floats: arithmetic, compares, conversion, special functions and the quantizer chain
(R172 to R185).
-/

namespace Sys2Proof.Machine

/-- The format of an entry. -/
def entryFp (e : Entry) : Fp.Fmt := Fp.ofCode e.fmt.toNat
/-- An operand's value in it. -/
def entryVal (e : Entry) (w : Word) : Fp.Val := Fp.decode (entryFp e) w.toNat
/-- A result's bits. -/
def resWord (r : Fp.Res) : Word := BitVec.ofNat 64 r.bits
/-- A latency: `d` for F64, else `n` (R173). -/
def lat2 (e : Entry) (d n : Nat) : Nat := if e.fmt = 3 then d else n

/-! ### Arithmetic (R173) -/

/-- An operation of two operands, rounded RNE. -/
def elemFloat2 (e : Entry) (lat : Nat) (s : State) (f : Fp.Fmt → Fp.Val → Fp.Val → Fp.Res) : Result :=
  elem2 e lat e.fmt.toNat s fun a b => resWord (f (entryFp e) (entryVal e a) (entryVal e b))

/-- A fused operation: the product's and the addend's signs are changed where `np` and `nc` say so. -/
def elemFused (e : Entry) (s : State) (np nc : Bool) : Result :=
  elem3 e (lat2 e 10 8) e.fmt.toNat s fun a b c =>
    let x := entryVal e a
    let z := entryVal e c
    resWord (Fp.fmaV (entryFp e) 0 (if np then x.neg else x) (entryVal e b) (if nc then z.neg else z))

/-- `ADD`. -/
def execEAdd (e : Entry) (s : State) : Result := elemFloat2 e (lat2 e 6 4) s fun f x y => Fp.addV f 0 x y
/-- `SUB`. -/
def execESub (e : Entry) (s : State) : Result := elemFloat2 e (lat2 e 6 4) s fun f x y => Fp.addV f 0 x y.neg
/-- `MUL`. -/
def execEMul (e : Entry) (s : State) : Result := elemFloat2 e (lat2 e 6 4) s fun f x y => Fp.mulV f 0 x y
/-- `FMA`. -/
def execEFma (e : Entry) (s : State) : Result := elemFused e s false false
/-- `FMS`. -/
def execEFms (e : Entry) (s : State) : Result := elemFused e s false true
/-- `FNMA`. -/
def execEFnma (e : Entry) (s : State) : Result := elemFused e s true false
/-- `FNMS`. -/
def execEFnms (e : Entry) (s : State) : Result := elemFused e s true true
/-- `DIV`. -/
def execEDiv (e : Entry) (s : State) : Result := elemFloat2 e (lat2 e 40 24) s fun f x y => Fp.divV f 0 x y
/-- `SQRT`. -/
def execESqrt (e : Entry) (s : State) : Result :=
  elem1 e (lat2 e 40 24) e.fmt.toNat s fun a => resWord (Fp.sqrtV (entryFp e) 0 (entryVal e a))
/-- `MIN`. -/
def execEMin (e : Entry) (s : State) : Result :=
  elem2 e 2 e.fmt.toNat s fun a b => resWord (Fp.minMax (entryFp e) false a.toNat b.toNat)
/-- `MAX`. -/
def execEMax (e : Entry) (s : State) : Result :=
  elem2 e 2 e.fmt.toNat s fun a b => resWord (Fp.minMax (entryFp e) true a.toNat b.toNat)
/-- `ABS`. -/
def execEAbs (e : Entry) (s : State) : Result :=
  elem1 e 1 e.fmt.toNat s fun a => BitVec.ofNat 64 (Fp.setSign (entryFp e) a.toNat false)
/-- The sign bit of a value of the entry's format. -/
def entrySign (e : Entry) (w : Word) : Bool := w.bit ((entryFp e).eb + (entryFp e).fb)
/-- `NEG`. -/
def execENeg (e : Entry) (s : State) : Result :=
  elem1 e 1 e.fmt.toNat s fun a => BitVec.ofNat 64 (Fp.setSign (entryFp e) a.toNat !entrySign e a)
/-- `CPYSGN`. -/
def execECpysgn (e : Entry) (s : State) : Result :=
  elem2 e 1 e.fmt.toNat s fun a b => BitVec.ofNat 64 (Fp.setSign (entryFp e) a.toNat (entrySign e b))

/-- A value rounded to an integral one in the format (R174). -/
def roundIntegral (f : Fp.Fmt) (mode b : Nat) : Nat :=
  match Fp.decode f b with
  | .nan _ => f.nanBits
  | .inf _ => b % 2 ^ f.width
  | .num n m e => (Fp.round f 0 0 false n (Fp.toInteger mode n m e).1.natAbs 0 false).bits

/-- `FRND` (R174). -/
def execEFrnd (e : Entry) (s : State) : Result :=
  elem1 e 4 e.fmt.toNat s fun a => BitVec.ofNat 64 (roundIntegral (entryFp e) (e.aux.toNat % 8) a.toNat)

/-! ### Compares -/

/-- A condition of R175. -/
def floatCond (cc : Nat) (x y : Fp.Val) : Bool :=
  let un := x.isNan || y.isNan
  match cc with
  | 0 => Fp.eqV x y
  | 1 => !Fp.eqV x y
  | 2 => Fp.ltV x y
  | 3 => Fp.ltV x y || Fp.eqV x y
  | 4 => Fp.ltV y x
  | 5 => Fp.ltV y x || Fp.eqV x y
  | 6 => un
  | _ => !un

/-- `FCMP` (R175). -/
def execEFcmp (e : Entry) (s : State) : Result :=
  elem2 e 2 13 s fun a b => predWord (floatCond e.aux.toNat (entryVal e a) (entryVal e b))

/-- `FCLASS` (R176): the mask, or the test of one class. -/
def execEFclass (e : Entry) (s : State) : Result :=
  elem1 e 2 (if e.aux = 15 then 1 else 13) s fun a =>
    let m := Fp.classMask (entryFp e) a.toNat
    if e.aux = 15 then BitVec.ofNat 64 m else predWord (bitOf m e.aux.toNat)

/-! ### Conversion -/

/-- The random bits of an entry (R178). -/
def State.srOf (s : State) (e : Entry) : Nat :=
  Fp.srBits s.xStamp.seed (BitVec.ofNat 32 (s.xIter e)) s.issue.copy s.issue.row s.issue.col s.issue.slot

/-- The conversion of a value of tag `src` to format `dst` (R89, R90, R177). -/
def convertTags (src dst mode sr : Nat) (sat : Bool) (v : Nat) : Word :=
  if src < 3 then
    let i := sextInt (if src = 1 then 32 else 64) v
    if dst < 3 then wrap64 (if dst = 1 then satInt 32 i else i)
    else if i = 0 then 0
    else BitVec.ofNat 64 (Fp.round (Fp.ofCode dst) mode sr sat (decide (i < 0)) i.natAbs 0 false).bits
  else if dst < 3 then wrap64 (Fp.toInt (if dst = 1 then 32 else 64) mode (Fp.decode (Fp.ofCode src) v)).1
  else if src = dst then
    let f := Fp.ofCode src
    BitVec.ofNat 64 (if (Fp.decode f v).isNan then f.nanBits else v % 2 ^ f.width)
  else BitVec.ofNat 64 (Fp.convert (Fp.ofCode dst) mode sr sat (Fp.decode (Fp.ofCode src) v)).bits

/-- `CVT` (R177, R178). -/
def execECvt (e : Entry) (s : State) : Result :=
  elem e s do
    let a ← s.operand e e.sa [1, 2, 3, 4, 5, 6, 7, 8]
    let v := convertTags a.tag.toNat e.fmt.toNat (e.aux.toNat % 8) (s.srOf e) (e.aux.getLsbD 3) a.val.toNat
    .ok (s.give e 4 v e.fmt.toNat a.psn)

/-! ### Special functions (R179) -/

/-- A special function. -/
def elemSpecial (e : Entry) (lat : Nat) (g : Nat → Nat) (s : State) : Result :=
  elem1 e lat e.fmt.toNat s fun a => BitVec.ofNat 64 (Fp.specialIn (entryFp e) g a.toNat)

/-- `EXP2`. -/
def execEExp2 (e : Entry) (s : State) : Result := elemSpecial e 12 Fp.exp2F s
/-- `LOG2`. -/
def execELog2 (e : Entry) (s : State) : Result := elemSpecial e 12 Fp.log2F s
/-- `EXP`. -/
def execEExp (e : Entry) (s : State) : Result := elemSpecial e 14 Fp.expF s
/-- `LN`. -/
def execELn (e : Entry) (s : State) : Result := elemSpecial e 14 Fp.lnF s
/-- `RCP`. -/
def execERcp (e : Entry) (s : State) : Result := elemSpecial e 10 Fp.rcpF s
/-- `RSQRT`. -/
def execERsqrt (e : Entry) (s : State) : Result := elemSpecial e 10 Fp.rsqrtF s
/-- `SIN`. -/
def execESin (e : Entry) (s : State) : Result := elemSpecial e 20 Fp.sinF s
/-- `COS`. -/
def execECos (e : Entry) (s : State) : Result := elemSpecial e 20 Fp.cosF s
/-- `TANH`. -/
def execETanh (e : Entry) (s : State) : Result := elemSpecial e 16 Fp.tanhF s
/-- `SIGMOID`. -/
def execESigmoid (e : Entry) (s : State) : Result := elemSpecial e 16 Fp.sigmoidF s
/-- `ERF`. -/
def execEErf (e : Entry) (s : State) : Result := elemSpecial e 16 Fp.erfF s

/-! ### The quantizer chain -/

/-- A value widened exactly to binary32. -/
def widen32 (f : Fp.Fmt) (v : Word) : Nat :=
  if f = Fp.f32 then (if (Fp.decode f v.toNat).isNan then Fp.f32.nanBits else v.toNat % 2 ^ 32)
  else (Fp.convert Fp.f32 0 0 false (Fp.decode f v.toNat)).bits

/-- Tells of the read of lane-slice word `w` where the entry takes effect. -/
def elemLane (e : Entry) (s : State) (w : Option Nat) (body : Except Trap State) : Result :=
  match elem e s body, w, s.takesEffect e with
  | .next s', some w, .ok true => .next (if s.xLive then s'.tellLane w (s.laneWord w).2 else s')
  | r, _, _ => r

/-- The group size or depth an entry's AUX[1:0] names. -/
def groupSize (e : Entry) : Nat := 32 * 2 ^ (e.aux.toNat % 4)
/-- The code width an entry's AUX[2] names. -/
def codeWidth (e : Entry) : Nat := if e.aux.getLsbD 2 then 8 else 4

/-- The range after one more value (R180). -/
def rangeStep (h l x : Nat) : Nat × Nat :=
  let hv := Fp.v32 h
  let xv := Fp.v32 x
  if hv.isNan || xv.isNan || xv.isInf then (Fp.f32.nanBits, l)
  else ((Fp.minMax Fp.f32 true h x).bits, (Fp.minMax Fp.f32 false l x).bits)

/-- `QMAX` (R180, R181). -/
def execEQmax (e : Entry) (s : State) : Result :=
  elemLane e s (some 511) do
    let a ← s.fmtOperand e e.sa
    let b ← s.intOperand e e.sb
    s.xClean b.psn
    let w ← s.readLane 511
    s.xClean (a.psn || w.2)
    let j := b.val.toNat % groupSize e
    let h := w.1.fld 63 32
    let l := w.1.fld 31 0
    let s := if j = 0 then
        s.give e 8 (BitVec.ofNat 64 (blockParamWord (Fp.v32 h).isNan h l (codeWidth e))) 0 false
      else s
    let r := if j = 0 then rangeStep 0 0 (widen32 (entryFp e) a.val) else rangeStep h l (widen32 (entryFp e) a.val)
    .ok (s.writeLane 511 (BitVec.ofNat 64 (r.1 * 2 ^ 32 + r.2)))

/-- The lane word of a `QFIFO` at position `b`. -/
def fifoWord (e : Entry) (b : Word) : Nat := 128 * (e.aux.toNat / 4) + b.toNat % groupSize e

/-- The word a `QFIFO` reads, if its position can be read. -/
def State.fifoAt (s : State) (e : Entry) : Option Nat :=
  match s.intOperand e e.sb with
  | .ok b => some (fifoWord e b.val)
  | .error _ => none

/-- `QFIFO` (R181). -/
def execEQfifo (e : Entry) (s : State) : Result :=
  elemLane e s (s.fifoAt e) do
    let a ← s.fmtOperand e e.sa
    let b ← s.intOperand e e.sb
    s.xClean (a.psn || b.psn)
    let w ← s.readLane (fifoWord e b.val)
    .ok ((s.give e 2 w.1 e.fmt.toNat w.2).writeLane (fifoWord e b.val) a.val)

/-- The code of a value under a parameter word (R182). -/
def quantCode (par : Word) (x : Nat) (b : Nat) : Nat :=
  let s := Fp.decode Fp.f16 (par.fld 15 0)
  let z := if b = 8 then par.fld 23 16 else par.fld 19 16
  let vv := Fp.v32 x
  if s.isNan || vv.isNan || vv.isInf || s.isZero then 0
  else
    let q := (Fp.toInt 32 0 (Fp.v32 (Fp.divV Fp.f32 0 vv s).bits)).1
    (clampInt 0 ((2 ^ b : Nat) - 1) (q + z)).toNat

/-- `QCONV` (R182). -/
def execEQconv (e : Entry) (s : State) : Result :=
  elem e s do
    let a ← s.fmtOperand e e.sa
    let b ← s.operand e e.sb [0, 1]
    .ok (s.give e 12 (BitVec.ofNat 64 (quantCode b.val (widen32 (entryFp e) a.val) (codeWidth e))) 1 (a.psn || b.psn))

/-- The value of a code under a parameter word, as an exact value (R92, R184). -/
def codeValue (par : Word) (b code : Nat) : Fp.Val :=
  let s := Fp.decode Fp.f16 (par.fld 15 0)
  let z := if b = 8 then par.fld 23 16 else par.fld 19 16
  let d : Int := (code % 2 ^ b : Nat) - (z : Nat)
  if s.isNan || s.isInf then .nan false else s.mul (.num (decide (d < 0)) d.natAbs 0)

/-- `DEQ` (R184). -/
def execEDeq (e : Entry) (s : State) : Result :=
  elem e s do
    let a ← s.operand e e.sa [1]
    let b ← s.operand e e.sb [0, 1]
    let v := codeValue b.val (codeWidth e) a.val.toNat
    .ok (s.give e 4 (BitVec.ofNat 64 (Fp.rn (entryFp e) v)) e.fmt.toNat (a.psn || b.psn))

/-- Bits of a packed code: 8 for G8, 4 for G4. -/
def packBits (e : Entry) : Nat := if e.fmt = 9 then 8 else 4

/-- `GEXT` (R185). -/
def execEGext (e : Entry) (s : State) : Result :=
  elem e s do
    let a ← s.fmtOperand e e.sa
    let b ← s.intOperand e e.sb
    let n := packBits e
    let i := b.val.toNat % (64 / n)
    .ok (s.give e 1 (BitVec.ofNat 64 (a.val.fld (n * i + n - 1) (n * i))) 1 (a.psn || b.psn))

/-- `GINS` (R185). -/
def execEGins (e : Entry) (s : State) : Result :=
  elem e s do
    let a ← s.fmtOperand e e.sa
    let b ← s.operand e e.sb [1]
    let c ← s.intOperand e e.sc
    let n := packBits e
    let i := c.val.toNat % (64 / n)
    .ok (s.give e 1 (a.val.put (n * i + n - 1) (n * i) b.val.toNat) e.fmt.toNat (a.psn || b.psn || c.psn))

end Sys2Proof.Machine
end

