-- ==== Sys2Proof/Machine/ElemMoment.lean ====
section
/-!
DEFINITION. Moment operations (R100 to R107, R186 to R190). Both halves are computed as binary32.
-/

namespace Sys2Proof.Machine

/-- A moment value with both halves as binary32 bits. -/
structure Moment where
  mu : Nat
  v : Nat
  deriving DecidableEq, Repr

/-- Whether bits of a binary32 are a NaN. -/
def nan32b (b : Nat) : Bool := (Fp.v32 b).isNan

/-- Whether a variance is negative (R100): its sign bit set, its value neither zero nor NaN. -/
def negVar (b : Nat) : Bool := bitOf b 31 && !(Fp.v32 b).isZero && !nan32b b

/-- A variance of −0 as +0 (R100, R106). -/
def plusZero (b : Nat) : Nat := if (Fp.v32 b).isZero then 0 else b

/-- The canonical NaN for any NaN. -/
def canon32 (b : Nat) : Nat := if nan32b b then Fp.f32.nanBits else b

/-- The halves of a moment latch, widened exactly (R82, R100). -/
def momentOf (fmt : BitVec 4) (w : Word) : Moment :=
  if fmt = 11 then ⟨canon32 (w.fld 63 32), canon32 (w.fld 31 0)⟩
  else ⟨widen32 Fp.bf16 (BitVec.ofNat 64 (w.fld 31 16)), widen32 Fp.bf16 (BitVec.ofNat 64 (w.fld 15 0))⟩

/-- The operand case of R106: a negative variance faults, or is taken as +0. -/
def checkVar (clamp : Bool) (m : Moment) : Except Trap Moment :=
  if negVar m.v then (if clamp then .ok ⟨m.mu, 0⟩ else .error momentTrap) else .ok ⟨m.mu, plusZero m.v⟩

/-- A moment operand. -/
def State.momentOperand (s : State) (e : Entry) (code : BitVec 5) : Except Trap (Moment × Bool) := do
  let a ← s.fmtOperand e code
  let m ← checkVar s.xStamp.hdr.vclamp (momentOf e.fmt a.val)
  .ok (m, a.psn)

/-- A binary32 rounded to the half of format `fmt`. -/
def halfBits (fmt : BitVec 4) (b : Nat) : Nat := if fmt = 11 then b else Fp.rn Fp.bf16 (Fp.v32 b)

/-- A moment value placed in a latch. -/
def packMoment (fmt : BitVec 4) (mu v : Nat) : Word :=
  if fmt = 11 then BitVec.ofNat 64 (mu * 2 ^ 32 + v) else BitVec.ofNat 64 (mu * 2 ^ 16 + v)

/-- Whether a half is a negative variance after the final rounding. -/
def negHalf (fmt : BitVec 4) (b : Nat) : Bool := negVar (if fmt = 11 then b else b * 2 ^ 16)

/-- The half of a moment format, −0 as +0 (R106). -/
def plusZeroHalf (fmt : BitVec 4) (b : Nat) : Nat := if fmt = 12 then (if b % 2 ^ 15 = 0 then 0 else b) else plusZero b

/-- Delivers a moment result (R106, R186): a negative variance is written as +0, or faults in cycle issue + L and is not
delivered. -/
def State.giveMoment (s : State) (e : Entry) (lat : Nat) (m : Moment) (psn : Bool) : State :=
  let mu := halfBits e.fmt m.mu
  let v := halfBits e.fmt (plusZero m.v)
  if negHalf e.fmt v then
    if s.xStamp.hdr.vclamp then s.give e lat (packMoment e.fmt mu 0) e.fmt.toNat psn
    else
      s.modX fun c => { c with
        reg := { c.reg with inflight := c.reg.inflight ++
          [{ id := c.nextId, due := s.xTime + lat, elem := s.xElem, val := none, fault := true, slot := s.issue.slot }] }
        nextId := c.nextId + 1 }
  else s.give e lat (packMoment e.fmt mu (plusZeroHalf e.fmt v)) e.fmt.toNat psn

/-- The canonical NaN in both halves (R105). -/
def nanMoment : Moment := ⟨Fp.f32.nanBits, Fp.f32.nanBits⟩

/-- Whether a half is a NaN. -/
def Moment.nan (m : Moment) : Bool := nan32b m.mu || nan32b m.v

/-- The covariance c of R101. -/
def covariance (cm : Nat) (rho : BitVec 32) (va vb : Nat) : Fp.Val :=
  let f := Fp.f32
  let root := (Fp.sqrtV f 0 (Fp.v32 (Fp.mulV f 0 (Fp.v32 va) (Fp.v32 vb)).bits)).bits
  match cm with
  | 0 => .num false 0 0
  | 1 => Fp.v32 (Fp.mulV f 0 (Fp.v32 rho.toNat) (Fp.v32 root)).bits
  | _ => Fp.v32 root

/-- A binary moment operation: exact formulas for both halves (R103), each rounded once. Its operands are taken in turn, the tag
before the variance of each, so that the first bad one names the fault (log entry 100, DESIGN CHOICE). -/
def elemMoment2 (e : Entry) (lat : Nat) (s : State)
    (f : (ma va mb vb c : Fp.Val) → Fp.Val × Fp.Val) : Result :=
  elem e s do
    let a ← s.momentOperand e e.sa
    let b ← s.momentOperand e e.sb
    let c := covariance (e.aux.toNat % 4) s.xCopy.phRho a.1.v b.1.v
    let r := f (Fp.v32 a.1.mu) (Fp.v32 a.1.v) (Fp.v32 b.1.mu) (Fp.v32 b.1.v) c
    let m : Moment := if a.1.nan || b.1.nan then nanMoment else ⟨Fp.rn Fp.f32 r.1, Fp.rn Fp.f32 r.2⟩
    .ok (s.giveMoment e lat m (a.2 || b.2))

/-- 2 as an exact value. -/
def two : Fp.Val := .num false 2 0

/-- `MADD` (R103). -/
def execEMadd (e : Entry) (s : State) : Result :=
  elemMoment2 e 6 s fun ma va mb vb c => (ma.add mb, Fp.sumV [va, vb, two.mul c])
/-- `MSUB` (R103). -/
def execEMsub (e : Entry) (s : State) : Result :=
  elemMoment2 e 6 s fun ma va mb vb c => (ma.add mb.neg, Fp.sumV [va, vb, (two.mul c).neg])
/-- `MMUL` (R103). -/
def execEMmul (e : Entry) (s : State) : Result :=
  elemMoment2 e 10 s fun ma va mb vb c =>
    ((ma.mul mb).add c,
      Fp.sumV [va.mul vb, va.mul (mb.mul mb), vb.mul (ma.mul ma), c.mul c, (two.mul c).mul (ma.mul mb)])

/-- A scalar of `MSCALE` as binary32 bits: F32, or BF16 widened (R187). -/
def State.scalar (s : State) (e : Entry) (code : BitVec 5) : Except Trap (Nat × Bool) := do
  let x ← s.operand e code (if e.fmt = 11 then [4] else [4, 5])
  .ok (if x.tag = 4 then canon32 (x.val.fld 31 0) else widen32 Fp.bf16 x.val, x.psn)

/-- `MSCALE` (R103, R187). -/
def execEMscale (e : Entry) (s : State) : Result :=
  elem e s do
    let a ← s.momentOperand e e.sa
    let k ← s.scalar e e.sb
    let d ← s.scalar e e.sc
    let kv := Fp.v32 k.1
    let m : Moment := if a.1.nan || nan32b k.1 || nan32b d.1 then nanMoment
      else ⟨Fp.rn Fp.f32 ((kv.mul (Fp.v32 a.1.mu)).add (Fp.v32 d.1)), Fp.rn Fp.f32 ((kv.mul kv).mul (Fp.v32 a.1.v))⟩
    .ok (s.giveMoment e 8 m (a.2 || k.2 || d.2))

/-! ### Non-linear operations (R104): every operation written rounds RNE in binary32 -/

/-- x + y -/
def fadd32 (x y : Nat) : Nat := (Fp.addV Fp.f32 0 (Fp.v32 x) (Fp.v32 y)).bits
/-- x − y -/
def fsub32 (x y : Nat) : Nat := (Fp.addV Fp.f32 0 (Fp.v32 x) (Fp.v32 y).neg).bits
/-- x × y -/
def fmul32 (x y : Nat) : Nat := (Fp.mulV Fp.f32 0 (Fp.v32 x) (Fp.v32 y)).bits
/-- x / y -/
def fdiv32 (x y : Nat) : Nat := (Fp.divV Fp.f32 0 (Fp.v32 x) (Fp.v32 y)).bits
/-- x × y + z, rounded once -/
def fma32 (x y z : Nat) : Nat := (Fp.fmaV Fp.f32 0 (Fp.v32 x) (Fp.v32 y) (Fp.v32 z)).bits
/-- √x -/
def fsqrt32 (x : Nat) : Nat := (Fp.sqrtV Fp.f32 0 (Fp.v32 x)).bits
/-- −x -/
def fneg32 (x : Nat) : Nat := Fp.setSign Fp.f32 x !(bitOf x 31)

/-- relu_m -/
def reluM (mu v : Nat) : Moment :=
  let sd := fsqrt32 v
  let a := fdiv32 mu sd
  let p := Fp.cdfF a
  let d := Fp.pdfF a
  let m := fma32 mu p (fmul32 sd d)
  let e2 := fma32 (fma32 mu mu v) p (fmul32 (fmul32 mu sd) d)
  ⟨m, fma32 (fneg32 m) m e2⟩

/-- exp_m -/
def expM (mu v : Nat) : Moment :=
  ⟨Fp.expF (fma32 v 0x3F000000 mu), fmul32 (fsub32 (Fp.expF v) Fp.one32) (Fp.expF (fma32 0x40000000 mu v))⟩

/-- sig_m -/
def sigM (mu v : Nat) : Moment :=
  let k := Fp.rsqrtF (fma32 v 0x3EC90FDB Fp.one32)
  let m := Fp.sigmoidF (fmul32 mu k)
  ⟨m, fmul32 (fmul32 m (fsub32 Fp.one32 m)) (fsub32 Fp.one32 k)⟩

/-- tanh_m -/
def tanhM (mu v : Nat) : Moment :=
  let k := Fp.rsqrtF (fma32 v 0x3FC90FDB Fp.one32)
  let g := Fp.sigmoidF (fmul32 (fmul32 0x40000000 mu) k)
  ⟨fma32 0x40000000 g 0xBF800000,
    fmul32 (fmul32 (fmul32 0x40800000 g) (fsub32 Fp.one32 g)) (fsub32 Fp.one32 k)⟩

/-- A non-linear operation: with a zero variance f of the mean, else the closure (R104). -/
def elemMoment1 (e : Entry) (lat : Nat) (s : State) (f : Nat → Nat) (g : Nat → Nat → Moment) : Result :=
  elem e s do
    let a ← s.momentOperand e e.sa
    let m : Moment := if a.1.nan then nanMoment
      else if (Fp.v32 a.1.v).isZero then ⟨f a.1.mu, 0⟩ else g a.1.mu a.1.v
    .ok (s.giveMoment e lat m a.2)

/-- `MRELU` (R188). -/
def execEMrelu (e : Entry) (s : State) : Result := elemMoment1 e 28 s (fun m => (Fp.minMax Fp.f32 true m 0).bits) reluM
/-- `MEXP` (R188). -/
def execEMexp (e : Entry) (s : State) : Result := elemMoment1 e 24 s Fp.expF expM
/-- `MSIG` (R188). -/
def execEMsig (e : Entry) (s : State) : Result := elemMoment1 e 24 s Fp.sigmoidF sigM
/-- `MTANH` (R188). -/
def execEMtanh (e : Entry) (s : State) : Result := elemMoment1 e 24 s Fp.tanhF tanhM

/-- The ordinary format of a moment format's halves (R107, R189). -/
def plainFmt (fmt : BitVec 4) : Nat := if fmt = 11 then 4 else 5

/-- `MCOL` (R107, R189). -/
def execEMcol (e : Entry) (s : State) : Result :=
  elem e s do
    let a ← s.momentOperand e e.sa
    let var := e.aux.toNat % 8
    let k : Nat × Bool ←
      if var = 3 ∨ var = 4 then do
        let x ← s.operand e e.sb [plainFmt e.fmt]
        pure (if e.fmt = 11 then canon32 (x.val.fld 31 0) else widen32 Fp.bf16 x.val, x.psn)
      else pure (0, false)
    let sd := fsqrt32 a.1.v
    let r := match var with
      | 0 => a.1.mu
      | 1 => a.1.v
      | 2 => sd
      | 3 => fma32 (fneg32 k.1) sd a.1.mu
      | 4 => fma32 k.1 sd a.1.mu
      | _ => fma32 sd (Fp.invF (s.srOf e)) a.1.mu
    let r := if decide (2 ≤ var) && a.1.nan then Fp.f32.nanBits else r
    .ok (s.give e 16 (BitVec.ofNat 64 (halfBits e.fmt r)) (plainFmt e.fmt) (a.2 || k.2))

/-- `MMAKE` (R190). -/
def execEMmake (e : Entry) (s : State) : Result :=
  elem e s do
    let a ← s.operand e e.sa [plainFmt e.fmt]
    let b ← s.operand e e.sb [plainFmt e.fmt]
    let w (x : Tagged) : Nat := if e.fmt = 11 then canon32 (x.val.fld 31 0) else widen32 Fp.bf16 x.val
    .ok (s.giveMoment e 2 ⟨w a, w b⟩ (a.psn || b.psn))

end Sys2Proof.Machine
end

