-- ==== Sys2Proof/Machine/ElemPort.lean ====
section
/-!
DEFINITION. Element operations at the memory ports: streams (R158 to R161), address generators (R162, R163), reductions
(R164), lane slices (R165), scratch memories (R166 to R168) and accumulator cells (R169, R170).
-/

namespace Sys2Proof.Machine

/-! ### Streams -/

/-- The stream an entry names. -/
def State.streamOf (s : State) (e : Entry) : Stream := s.xStamp.streams.getD e.aux.toNat {}

/-- Its element size. -/
def Stream.size (t : Stream) : Nat := fmtBytes t.fmt.toNat

/-- Its step d. -/
def Stream.step (t : Stream) : Int := if t.stride = 0 then t.size else t.stride.toInt

/-- The address of element i, modulo 2^64. -/
def Stream.addr (t : Stream) (i : Nat) : Word := t.va + wrap64 ((i : Int) * t.step)

/-- Whether an index is in the stream. -/
def Stream.index (t : Stream) (i : Int) : Option Nat := if 0 ≤ i ∧ i < t.count then some i.toNat else none

/-- The index of an address: of an element whose address it is (R159). -/
def Stream.locate (t : Stream) (a : Word) : Option Nat :=
  let diff := (a - t.va).toInt
  if t.step = 0 then none
  else if diff % t.step = 0 then t.index (diff / t.step) else none

/-- The port lane of a stream on the core: 0 to 15 south, 16 to 31 east. -/
def State.laneOf (s : State) (t : Stream) : Nat :=
  if t.east then 16 + (4 * s.xCopy.oty + t.lane) % 16 else (4 * s.xCopy.otx + t.lane) % 16

/-- The south lane of the element. -/
def State.southLane (s : State) : Nat := (4 * s.xCopy.otx + s.issue.col) % 16

/-- The path of a fabric access (R348). -/
inductive FabricPath where
  | ok (leaf : Word) (pa : Nat) (s : State)
  | hold (s : State)
  | trap (t : Trap)
  deriving Repr

/-- Whether a range entry holds an address (R347). -/
def Range.holds (r : Range) (va : Nat) : Bool := decide (r.va ≤ va) && decide (va < r.va + r.npg * 65536)

/-- The checks and the translation of a fabric access of KIND `kind` through a port lane (R347, R348). -/
def State.fabricPath (s : State) (lane : Nat) (va : Word) (kind : Nat) : FabricPath :=
  match s.xStamp.ranges.find? fun r => r.holds va.toNat with
  | none => .trap (accessTrap va)
  | some r =>
    if kind = 1 ∧ !r.st then .trap (accessTrap va) else
    match s.xlate s.xCore (.port lane) s.xPart va kind with
    | (.missing, s1) => .hold (s1.pageRegion s.issue.stamp s.issue.copy va kind s.xNode)
    | (.conflict, s1) => .hold (s1.conflictRegion s.issue.stamp s.issue.copy lane va s.xNode)
    | (.ok leaf pa, s1) =>
      if leafType leaf ≠ r.typ ∨ leafClass leaf ≠ r.cls then .hold (s1.conflictRegion s.issue.stamp s.issue.copy lane va s.xNode)
      else if s1.frameOk s.xPart leaf pa then .ok leaf pa (s1.modX fun c => c.noConflict lane (va.toNat / 65536))
      else .trap (accessTrap va)

/-- The path of an access to spill space (R75): that of a stream access, taken as one of type CO. -/
def State.spillPath (s : State) (lane : Nat) (va : Word) (kind : Nat) : FabricPath :=
  match s.fabricPath lane va kind with
  | .ok leaf pa s1 => .ok (asCo leaf) pa s1
  | p => p

/-- The stream of the record log that takes the replies of round `n` in copy `c` of handle `h`, and the one of how late they were (R399). -/
def fabStream (h c n : Nat) : Nat := 2 ^ 45 + 512 * n + 32 * h + c
/-- The second. -/
def lateStream (h c n : Nat) : Nat := 2 ^ 45 + fabStream h c n

/-- Replies with one more, in the order of issue. -/
def insertReply (x : FabReply) : List FabReply → List FabReply
  | [] => [x]
  | y :: ys => if y.time < x.time ∨ (y.time = x.time ∧ y.id ≤ x.id) then y :: insertReply x ys else x :: y :: ys

/-- A load reply of copy `j` of stamp `i` is kept with its round for the record log (R399). -/
def State.keepReply (s : State) (i j : Nat) (x : FabReply) : State :=
  if s.records (s.getStamp i).core then s.modCopy i j fun c => { c with replies := insertReply x c.replies } else s

/-- Delivers a load whose reply comes `late` member cycles after its due cycle (R52). -/
def State.giveLate (s : State) (e : Entry) (lat : Nat) (v : Word) (psn : Bool) (late : Nat) : State :=
  let id := s.xCopy.nextId
  (s.give e lat v e.fmt.toNat psn).modX fun c => { c with reg := { c.reg with
    inflight := c.reg.inflight.map fun f =>
      if f.id == id && decide (late ≠ 0) then { f with late := some (s.stampMcc s.xStamp + lat + late) } else f } }

/-- Delivers a load: its reply may come late by the oracle's choice, and no sooner than its bank serves it (R52, R65). -/
def State.giveLoad (s : State) (e : Entry) (lat : Nat) (v : Word) (psn : Bool) (wait : Nat := 0) : State :=
  let late := max s.choice wait
  let s := s.chosen.keepReply s.issue.stamp s.issue.copy ⟨s.xFrame e, s.xTime, s.xCopy.nextId, v, psn, late⟩
  s.giveLate e lat v psn late

/-- A load of a replay: the recorded value, as late as it was (R400); where what was recorded is at its end, the replay stops. -/
def State.replayLoad (s : State) (e : Entry) (lat : Nat) : State :=
  let st := s.xStamp
  let n := s.xFrame e / st.hdr.rs
  match s.replayed st.core (fabStream st.handle s.issue.copy n) with
  | none => s.replayOver st.core
  | some (v, s) =>
    match s.replayed st.core (lateStream st.handle s.issue.copy n) with
    | none => s.giveLate e lat v.1 v.2 0
    | some (k, s) => s.giveLate e lat v.1 v.2 k.1.toNat

/-- Reads device or host memory for a fabric load: the value, its poison, and the state; none where R77 faults it. -/
def State.fabricRead (s : State) (xCore part k : Nat) (leaf : Word) (pa n : Nat) : Option (Word × Bool) × State :=
  if placeOf pa = .host then (some (BitVec.ofNat 64 (s.host.num pa n), false), s.touch xCore part leaf pa false)
  else
    let cl := clusterOf xCore
    let d := s.readDelivery cl leaf k pa n
    let v := ofBytes (s.readHbm cl leaf pa n)
    let s := (s.noteBad part xCore ((s.seenRam cl leaf pa n).worst pa n) pa n).charge part d.charge xCore
    if d.fault then (none, s) else (some (BitVec.ofNat 64 (if d.zero then 0 else v), d.psn), s.touch xCore part leaf pa false)

/-- A load whose value is not there yet: it waits at `pa`, or was sent through a channel on a tick. -/
def State.giveOut (s : State) (e : Entry) (lat : Nat) (va leaf : Word) (pa n : Nat) (sent : Option Nat) : State :=
  let id := s.xCopy.nextId
  let h : HeldRead := ⟨leaf, pa, n, s.xFrame e, s.xTime, s.stampMcc s.xStamp + lat⟩
  (s.give e lat 0 e.fmt.toNat false).modX fun c => { c with reg := { c.reg with
    inflight := c.reg.inflight.map fun f =>
      if f.id == id then { f with val := none, va := va, tag := e.fmt, held := some h, sent := sent } else f } }

/-- Delivers a load of device or host memory (R159): the value as it stands at issue; or, while a store to its bytes by the
cluster is on its way or held at its home, or a half is not there, as it stands once that is done (R271, R272, R386). -/
def State.giveHeld (s : State) (e : Entry) (lat : Nat) (va leaf : Word) (pa n : Nat) : State :=
  if s.heldFor (clusterOf s.xCore) pa n || !s.halvesReady leaf pa n false then s.giveOut e lat va leaf pa n none
  else
    match s.fabricRead s.xCore s.xPart s.xClass leaf pa n with
    | (none, s) => s.xFault (dataTrap va)
    | (some x, s) => s.giveLoad e lat x.1 x.2

/-- A load of `n` bytes on a checked path (R159): the value as it stands at issue, its poison under R77; through a Lomid
channel the value comes with the reply (R390). In a replay it is the recorded one, and nothing is read (R400). -/
def State.fabricLoad (s : State) (e : Entry) (lat : Nat) (va : Word) (n : Nat) : FabricPath → Except Trap State
  | .trap t => .error t
  | .hold s1 => if s.replays s.xStamp.core then .ok (s.replayLoad e lat) else .ok s1
  | .ok leaf pa s1 =>
    if s.replays s.xStamp.core then .ok (s.replayLoad e lat) else
    match placeOf pa with
    | .none => .error (accessTrap va)
    | .peer ch =>
      if s1.channelOpen ch s.xPart then
        let id := s1.xCopy.nextId
        .ok ((s1.send (.fabricLoad ch (s1.farVa ch va) n s.issue.stamp s.issue.copy id s.tick)).giveOut e lat va leaf pa n (some s.tick))
      else .error (accessTrap va)
    | .host =>
      if s1.hostDead then .error (accessTrap va)
      else
        let s1 := s1.askHalves .host false (if leafHc leaf then halvesOf pa n else [])
        .ok (s1.giveHeld e lat va leaf pa n)
    | .hbm =>
      .ok ((s1.askHalves .hbm false (if leafHc leaf then halvesOf pa n else [])).giveHeld e lat va leaf pa n)

/-- The checks on a store's address and value in its issue cycle (R160, R124, R78, R357); a reduction meets a lost line at its home
(R164). -/
def State.storeChecks (s : State) (va : Word) (leaf : Word) (pa n : Nat) (psn red : Bool) : Except Trap Unit :=
  match placeOf pa with
  | .none => .error (accessTrap va)
  | .hbm =>
    if s.inFootprint pa n then .error { code := 14, tval := va }
    else if psn && s.xClass == 1 && leafClass leaf == 0 then .error (dataTrap va)
    else if s.lost.contains (pa / 128) && s.xClass == 0 && !red then .error (dataTrap va)
    else .ok ()
  | _ => .ok ()

/-- Puts a store or reduction in the lane's round buffer, unless its round has committed or is committing (R51, R54). -/
def State.buffer (s : State) (e : Entry) (b : BufEntry) : State :=
  let n := s.xFrame e / s.xStamp.hdr.rs
  s.modX fun c =>
    if n < c.committed ∨ c.committing = some n then c
    else { c with buffers := c.buffers ++
      [{ b with round := n, frame := s.xFrame e, time := s.xTime, elem := s.xElem }] }

/-- A store of the low `n` bytes of a value on a checked path (R160). In a replay none enters a buffer (R400). -/
def State.fabricStore (s : State) (e : Entry) (lane : Nat) (va : Word) (n : Nat) (v : Tagged)
    (red : Option (RedOp × BitVec 4)) : FabricPath → Except Trap State
  | .trap t => .error t
  | .hold s1 => if s.replays s.xStamp.core then .ok s else .ok s1
  | .ok leaf pa s1 => do
    if s.replays s.xStamp.core then return s
    s1.storeChecks va leaf pa n v.psn red.isSome
    let s1 := if leafHc leaf then
        match placeOf pa with
        | .hbm => s1.askHalves .hbm true (halvesOf pa n)
        | .host => s1.askHalves .host true (halvesOf pa n)
        | _ => s1
      else s1
    .ok (s1.buffer e
      { round := 0, frame := 0, lane := lane, time := 0, elem := 0, va := va, pa := pa, typ := leafType leaf, leaf := leaf
        data := toBytes n v.val.toNat, psn := v.psn && s.xClass == 1, red := red, val := v.val })

/-- An index operand, clean in a class-D kernel (R158, R410). -/
def State.indexOperand (s : State) (e : Entry) (code : BitVec 5) : Except Trap Int := do
  let a ← s.intOperand e code
  s.xClean a.psn
  .ok a.val.toInt

/-- An address operand aligned to `n`. -/
def State.addrOperand (s : State) (e : Entry) (code : BitVec 5) (n : Nat) : Except Trap Word := do
  let a ← s.operand e code [14]
  s.xClean a.psn
  if a.val.toNat % n ≠ 0 then .error (alignTrap a.val) else .ok a.val

/-- Loads stream element `i`; out of stream the result is 0 (R159). -/
def State.streamLoad (s : State) (e : Entry) (i : Option Nat) : Except Trap State :=
  let t := s.streamOf e
  match i with
  | none => .ok (s.give e 12 0 e.fmt.toNat false)
  | some i => s.fabricLoad e 12 (t.addr i) t.size (s.fabricPath (s.laneOf t) (t.addr i) 0)

/-- `LDS` (R159). -/
def execELds (e : Entry) (s : State) : Result :=
  elem e s do
    let i ← s.indexOperand e e.sa
    s.streamLoad e ((s.streamOf e).index i)

/-- `LDX` (R159). -/
def execELdx (e : Entry) (s : State) : Result :=
  elem e s do
    let a ← s.addrOperand e e.sa (s.streamOf e).size
    s.streamLoad e ((s.streamOf e).locate a)

/-- Stores a value to stream element `i`; out of stream it is discarded (R160). -/
def State.streamStore (s : State) (e : Entry) (v : Tagged) (red : Option (RedOp × BitVec 4)) (i : Option Nat) :
    Except Trap State :=
  let t := s.streamOf e
  match i with
  | none => .ok s
  | some i => s.fabricStore e (s.laneOf t) (t.addr i) t.size v red (s.fabricPath (s.laneOf t) (t.addr i) 1)

/-- `STS` (R160). -/
def execESts (e : Entry) (s : State) : Result :=
  elem e s do
    let v ← s.valueOperand e e.sa
    let i ← s.indexOperand e e.sb
    s.streamStore e v none ((s.streamOf e).index i)

/-- `STX` (R160). -/
def execEStx (e : Entry) (s : State) : Result :=
  elem e s do
    let v ← s.valueOperand e e.sa
    let a ← s.addrOperand e e.sb (s.streamOf e).size
    s.streamStore e v none ((s.streamOf e).locate a)

/-- A no-return reduction (R164). -/
def elemReduce (op : RedOp) (e : Entry) (s : State) : Result :=
  elem e s do
    let v ← s.valueOperand e e.sa
    let i ← s.indexOperand e e.sb
    s.streamStore e v (some (op, e.fmt)) ((s.streamOf e).index i)

/-- `RADD`. -/
def execERadd (e : Entry) (s : State) : Result := elemReduce .add e s
/-- `RMIN`. -/
def execERmin (e : Entry) (s : State) : Result := elemReduce .min e s
/-- `RMAX`. -/
def execERmax (e : Entry) (s : State) : Result := elemReduce .max e s
/-- `RAND`. -/
def execERand (e : Entry) (s : State) : Result := elemReduce .and e s
/-- `ROR`. -/
def execERor (e : Entry) (s : State) : Result := elemReduce .or e s
/-- `RXOR`. -/
def execERxor (e : Entry) (s : State) : Result := elemReduce .xor e s

/-! ### Address generators -/

/-- The generator of the entry's stream (R162). -/
def State.genOf (s : State) (e : Entry) : Gen := Store.get {} s.xCopy.reg.gens e.aux.toNat

/-- The mathematical remainder in 0 to count - 1. -/
def posMod (count : Nat) (i : Int) : Nat := (i % (count : Int)).toNat

/-- A generator operation (R163): `f` gives the position delivered and the generator after it. -/
def State.generate (s : State) (e : Entry) (psn : Bool) (f : Nat → Gen → Nat × Gen) : State :=
  let t := s.streamOf e
  if t.count = 0 then
    (s.modX fun c => { c with reg := { c.reg with gens := Store.set {} c.reg.gens e.aux.toNat {} } }).give e 2 t.va 14 psn
  else
    let r := f t.count (s.genOf e)
    (s.modX fun c => { c with reg := { c.reg with gens := Store.set {} c.reg.gens e.aux.toNat r.2 } }).give e 2
      (t.addr r.1) 14 psn

/-- An operand of a generator. -/
def State.genOperand (s : State) (e : Entry) (code : BitVec 5) : Except Trap Tagged := do
  let a ← s.intOperand e code
  s.xClean a.psn
  .ok a

/-- `AGEN` (R163). -/
def execEAgen (e : Entry) (s : State) : Result :=
  elem e s (.ok (s.generate e false fun n g => (g.pos, { g with pos := (g.pos + 1) % n })))

/-- `AGEN2` (R163). INNER + 1 and POS + INNER are formed without a limit, so that INNER reaches an n of 2^32, and so
is POS + B (log entry 105, DESIGN CHOICE). -/
def execEAgen2 (e : Entry) (s : State) : Result :=
  elem e s do
    let a ← s.genOperand e e.sa
    let b ← s.genOperand e e.sb
    let lim := if a.val.fld 31 0 = 0 then 2 ^ 32 else a.val.fld 31 0
    .ok (s.generate e (a.psn || b.psn) fun n g =>
      ((g.pos + g.inner) % n,
        if lim ≤ g.inner + 1 then ⟨posMod n (g.pos + b.val.toInt), 0⟩ else { g with inner := g.inner + 1 }))

/-- `ABUMP` (R163); POS + A is formed without a limit (log entry 105, DESIGN CHOICE). -/
def execEAbump (e : Entry) (s : State) : Result :=
  elem e s do
    let a ← s.genOperand e e.sa
    .ok (s.generate e a.psn fun n g => (posMod n (g.pos + a.val.toInt), ⟨posMod n (g.pos + a.val.toInt), 0⟩))

/-- `AMOD` (R163). -/
def execEAmod (e : Entry) (s : State) : Result :=
  elem e s do
    let a ← s.genOperand e e.sa
    .ok (s.generate e a.psn fun n _ => (posMod n a.val.toInt, ⟨posMod n a.val.toInt, 0⟩))

/-! ### Lane slices -/

/-- The lane word of `LSLD` or `LSST` (R165). -/
def State.laneAddr (s : State) (e : Entry) (code : BitVec 5) : Except Trap Nat := do
  let a ← s.intOperand e code
  s.xClean a.psn
  let w := (a.val + BitVec.ofNat 64 e.aux.toNat).toNat
  if 511 < w then .error (scratchTrap (BitVec.ofNat 64 w)) else .ok w

/-- That word, if it can be formed. -/
def State.laneAt (s : State) (e : Entry) : Option Nat :=
  match s.laneAddr e e.sa with
  | .ok w => some w
  | .error _ => none

/-- `LSLD` (R165). -/
def execELsld (e : Entry) (s : State) : Result :=
  elemLane e s (s.laneAt e) do
    let w ← s.laneAddr e e.sa
    let x ← s.readLane w
    .ok (s.give e 2 x.1 e.fmt.toNat x.2)

/-- `LSST` (R165). -/
def execELsst (e : Entry) (s : State) : Result :=
  elem e s do
    let v ← s.valueOperand e e.sa
    let w ← s.laneAddr e e.sb
    s.xClean v.psn
    .ok (s.writeLane w v.val)

/-! ### Scratch memories -/

/-- A scratch address word (R166), its reserved bits zero. -/
def State.scratchWord (s : State) (e : Entry) (code : BitVec 5) : Except Trap Word := do
  let a ← s.operand e code [2, 14]
  s.xClean a.psn
  if a.val.fld 63 33 ≠ 0 then .error (scratchTrap a.val) else .ok a.val

/-- The level of `SPLD` and `SPST`. -/
def entryLevel (e : Entry) : Nat := e.aux.toNat % 4

/-- The latency of `SPLD` by level (R167). -/
def spldLat (level : Nat) : Nat :=
  match level with
  | 1 => 10
  | 2 => 20
  | _ => 48

/-- The place of an `SPLD` (R167): its alignment and range are checked in its issue cycle. -/
def State.spldPlace (s : State) (e : Entry) : Except Trap (Word × ScratchLoc) := do
  let a ← s.scratchWord e e.sa
  let off := BitVec.ofNat 64 (a.fld 27 0)
  if off.toNat % fmtBytes e.fmt.toNat ≠ 0 then .error (alignTrap off)
  else
    match s.scratchLoc s.xCore s.xPart (entryLevel e) off with
    | .bad => .error (scratchTrap off)
    | loc => .ok (a, loc)

/-- Whether an `SPLD` that its checks let pass must wait for its channel (R167, R52). -/
def State.spldWaits (s : State) (e : Entry) : Bool :=
  match s.takesEffect e, s.spldPlace e with
  | .ok true, .ok (a, _) =>
    let off := a.fld 27 0
    a.bit 32 && !s.ready s.xCore (entryLevel e) (a.fld 31 28) off (off + fmtBytes e.fmt.toNat)
  | _, _ => false

/-- `SPLD` (R167). -/
def execESpld (e : Entry) (s : State) : Result :=
  elem e s do
    let (a, loc) ← s.spldPlace e
    let n := fmtBytes e.fmt.toNat
    let off := BitVec.ofNat 64 (a.fld 27 0)
    let lv := entryLevel e
    if s.spldWaits e then
      if s.xStamp.hdr.grace = 0 then .error timingTrap
      else .ok (s.modX fun c => { c with stall := some { elem := s.xElem } })
    else if s.replays s.xStamp.core then .ok (s.replayLoad e (spldLat lv))
    else
      match loc with
      | .spill va => s.fabricLoad e (spldLat lv) va n (s.spillPath s.southLane va 0)
      | _ =>
        let (ram, x) := s.bank loc
        let d := deliver true 0 s.xClass (s.chipWorst loc n) false
        let s1 := (s.noteChip s.xPart s.xCore loc n).charge s.xPart d.charge s.xCore
        if d.fault then .ok (s1.xFault (dataTrap off))
        else .ok ((s1.giveLoad e (spldLat lv) (BitVec.ofNat 64 (ram.num x n)) d.psn (s.bankWait loc)).useBank loc)

/-- `SPST` (R167). -/
def execESpst (e : Entry) (s : State) : Result :=
  elem e s do
    let v ← s.valueOperand e e.sa
    let a ← s.scratchWord e e.sb
    let n := fmtBytes e.fmt.toNat
    let off := BitVec.ofNat 64 (a.fld 27 0)
    let lv := entryLevel e
    if a.fld 32 28 ≠ 0 then .error (scratchTrap a)
    else if off.toNat % n ≠ 0 then .error (alignTrap off)
    else
      match s.scratchLoc s.xCore s.xPart lv off with
      | .bad => .error (scratchTrap off)
      | .spill va => s.fabricStore e s.southLane va n v none (s.spillPath s.southLane va 1)
      | _ =>
        .ok (s.buffer e
          { round := 0, frame := 0, lane := s.southLane, time := 0, elem := 0, va := off, pa := off.toNat, level := lv
            data := toBytes n v.val.toNat, psn := v.psn && s.xClass == 1, val := v.val })

/-- An integer taken unsigned: of an I32 its low 32 bits, extended with zeros; sums of such values are formed modulo 2^64 (R168; log entry
117, DESIGN CHOICE). -/
def Tagged.unsigned (t : Tagged) : Nat := if t.tag = 1 then t.val.fld 31 0 else t.val.toNat

/-- `WPCHK` (R168): it reads the write pointer as it stood at the start of the cycle. -/
def execEWpchk (e : Entry) (s : State) : Result :=
  elem e s do
    let a ← s.intOperand e e.sa
    let b ← s.intOperand e e.sb
    s.xClean (a.psn || b.psn)
    let w := Store.get wpReset (s.getCore s.xCore).wpOld e.aux.toNat
    let ok := decide (w.fld 63 62 ≠ 3) && decide (w.fld 55 28 ≤ a.unsigned)
      && decide ((a.unsigned + b.unsigned) % 2 ^ 64 ≤ w.fld 27 0)
    .ok (s.give e 2 (predWord ok) 13 (a.psn || b.psn))

/-! ### Accumulator cells -/

/-- The slots that an engine command feeds (R170): what it is, and its slots. -/
def Cmd.feeds (c : Cmd) : Option (Bool × List Nat) :=
  let pair (l : Long) (p : Bool) : List Nat := if p then [l.slot.toNat / 2 * 2, l.slot.toNat / 2 * 2 + 1] else [l.slot.toNat]
  match c.instr with
  | .mstep l => some (true, pair l (l.fmt == 0))
  | .momstep l => some (true, pair l true)
  | .accZero l => some (false, pair l (l.fmt == 0 || l.fmt == 5))
  | .accLd l => some (false, pair l (l.fmt == 0 || l.fmt == 5))
  | _ => none

/-- The cycle on which a command begins (R233). -/
def Cmd.begins (c : Cmd) : Nat := max c.due.toNat c.arrive.toNat

/-- Whether a command has reached its start cycle and has not retired. -/
def Cmd.active (c : Cmd) (mcc : Word) : Bool := decide (c.begins ≤ mcc.toNat) && !c.retired

/-- A cell of a slot, and of its pair for F64 and M32 (R108, R169): bits and poison. -/
def Core.cell (k : Core) (fmt slot i : Nat) : Word × Bool :=
  let at' (n : Nat) : AccCell := Store.get {} ((Store.get {} k.slots n).cells) i
  let lo := slot / 2 * 2
  match fmt with
  | 3 => (BitVec.ofNat 64 ((at' lo).bits.toNat + (at' (lo + 1)).bits.toNat * 2 ^ 32), (at' lo).psn || (at' (lo + 1)).psn)
  | 11 => (BitVec.ofNat 64 ((at' lo).bits.toNat * 2 ^ 32 + (at' (lo + 1)).bits.toNat), (at' lo).psn || (at' (lo + 1)).psn)
  | 1 => (wrap64 (at' slot).bits.toInt, (at' slot).psn)
  | _ => (BitVec.ofNat 64 (at' slot).bits.toNat, (at' slot).psn)

/-- `ACCR` (R169, R170). -/
def execEAccr (e : Entry) (s : State) : Result :=
  elem e s do
    let b ← s.intOperand e e.sb
    s.xClean b.psn
    let k := s.getCore s.xCore
    let slot := e.wi.toNat % 64
    let mine := if e.fmt = 3 ∨ e.fmt = 11 then [slot / 2 * 2, slot / 2 * 2 + 1] else [slot]
    let fed := k.cmds.filterMap fun c => if c.active k.seq.mcc then c.feeds else none
    let fed := fed.filter fun f => f.2.any mine.contains
    let bad := if e.aux.getLsbD 0 then fed.any fun f => !f.1 else !fed.isEmpty
    if bad then .error timingTrap
    else if (Store.get {} k.slots slot).tag ≠ e.fmt then .error tagTrap
    else
      let x := k.cell e.fmt.toNat slot (b.val.toNat % 1024)
      .ok (s.deliverAs e 6 x.1 e.fmt.toNat x.2 false)

end Sys2Proof.Machine
end

