-- ==== Sys2Proof/Machine/Fabric.lean ====
section
/-!
DEFINITION. The steps of a region: the row counter (R44), landing results (R46, R47, R50), late replies and stalls (R52),
round capture and commit (R53, R25, R161) and the end of a phase (R28).
-/

namespace Sys2Proof.Machine

/-- Whether a copy's region lies on its core: not after its core's release (R373), nor while its gang is saved and spilled (R341). -/
def State.occupies (s : State) (st : Stamp) (k : Copy) : Bool :=
  !k.gone && (!st.held || match (s.getCore k.core).bind with
    | some b => b.task == st.task
    | none => false)

/-- Whether a copy runs in this cycle: its phase has begun for it, and nothing but its stall wire may hold it. -/
def State.copyRuns (s : State) (i j : Nat) : Bool :=
  let st := s.getStamp i
  let c := st.copy j
  st.state == .running && !st.held && decide (j < st.copies.length) && !c.done && c.page.isNone && c.conflicts.all Conflict.again
    && decide (st.start + c.stoff ≤ s.stampMcc st) && !(s.getCore st.core).stopHold && !(s.getCore c.core).stopHold

/-- The round that begins with a wave: one whose first frame issues stage 0 in it (R53). -/
def Stamp.roundStart (st : Stamp) (slot wave : Nat) : Option Nat :=
  if slot = 0 ∧ wave % st.hdr.rs = 0 ∧ wave < st.trip then some (wave / st.hdr.rs) else none

/-- Whether a flight's value is not there in a member cycle: a late reply (R52), or a read that waits for a store. -/
def Flight.missing (now : Nat) (f : Flight) : Bool :=
  (f.val.isNone && !f.fault) || (match f.late with | some t => decide (now < t) | none => false)

/-- The elements of a region by row and column. -/
def Stamp.places (st : Stamp) : List (Nat × Nat) :=
  (List.range (4 * st.hdr.h)).flatMap fun r => (List.range st.width).map fun c => (r, c)

/-- A schedule entry's 48 bits. -/
def Stamp.entry (st : Stamp) (row col slot : Nat) : Nat := Store.get 0 st.entries (32 * st.elemNo row col + slot)

/-- The issues of a slot in a wave. -/
def Stamp.issues (st : Stamp) (i j slot wave : Nat) : List Issue :=
  (st.places.filter fun p => st.entry p.1 p.2 slot != 0).map fun p => ⟨i, j, p.1, p.2, slot, wave⟩

/-- Whether an operation puts an entry in its lane's round buffer: a stream store, a reduction or `SPST` (R51). -/
def buffersOp (op : Nat) : Bool := op == 0x69 || op == 0x6B || op == 0x73 || (decide (0x78 ≤ op) && decide (op ≤ 0x7D))

/-- Whether a round that is due to begin must wait (R52): both buffers of the lanes that the stamp stores to hold uncommitted
rounds. A round that committed in this cycle still holds its buffers. -/
def State.buffersFull (s : State) (st : Stamp) (c : Copy) : Bool :=
  match st.roundStart c.reg.slot c.reg.wave with
  | some n =>
    st.entries.any (fun kv => buffersOp (kv.2 / 2 ^ 41))
      && decide ((if c.commitAt = s.stampMcc st then c.commitOld else c.committed) + 2 ≤ n)
  | none => false

/-- A frame breakpoint of the copy's core names its handle, and this round start is the first at or after the frame
(R397). -/
def State.frameStop (s : State) (c : Copy) (wave : Nat) : Bool :=
  let k := s.getCore c.core
  let f := Store.get 0 k.bkpt 4
  k.binding.dbg && f.bit 63 && f.fld 35 32 == c.handle && decide (f.fld 31 0 ≤ wave) && !c.fstop

/-- The start of a cycle of a copy: row-file writes of the last cycle become readable, the buses carry nothing, and the results due
land. -/
def State.beginSlot (s : State) (i j : Nat) : State :=
  let st := s.getStamp i
  let c := st.copy j
  let lt := st.lt c
  let s := s.modCopy i j fun c => { c.foldRows with buses := [], landed := some lt }
  s.soon (((c.reg.inflight.filter fun f => decide (f.due ≤ lt)).map fun f => .event (.resultLands i j f.id))
    ++ [.event (.rowCounterStep i j)])

/-- The issue of a slot: its entries issue and SLOT advances (R44). -/
def State.issueSlot (s : State) (i j : Nat) : State :=
  let st := s.getStamp i
  let c := st.copy j
  let slot := c.reg.slot
  let wave := c.reg.wave
  let mcc := s.stampMcc st
  let s := s.modCopy i j fun c =>
    let gone := c.voidsAt.filter fun v => v.1 == wave
    let lost := gone.foldl (fun n v => n + (mcc - v.2.toNat)) 0
    { c with
      stall := none, landed := none, voidsAt := c.voidsAt.filter fun v => v.1 != wave
      counts := { c.counts with lost := countUp c.counts.lost lost }
      reg := if slot + 1 < st.hdr.ii then { c.reg with slot := slot + 1 } else c.reg }
  let xs := if wave < st.endWave then (st.issues i j slot wave).map Action.elem else []
  s.soon (xs ++ if slot + 1 < st.hdr.ii then [] else [.event (.waveAdvance i j)])

/-- The scratch reads of a slot that must wait for their channel (R52, R167). -/
def State.waitingReads (s : State) (i j : Nat) : List Nat :=
  let st := s.getStamp i
  let c := st.copy j
  if st.endWave ≤ c.reg.wave then [] else
  (st.issues i j c.reg.slot c.reg.wave).filterMap fun x =>
    let w := st.entry x.row x.col x.slot
    if w / 2 ^ 41 = 0x72 ∧ ({ s with issue := x }).spldWaits (entryOf w) then some (st.elemNo x.row x.col) else none

/-- The buses that a result drives (R47): the row buses of DR and the column buses of DC, with their keys. -/
def driven (row col dr dc : Nat) : List Nat :=
  (if dr % 2 = 1 then [4 * row] else []) ++ (if dr / 2 = 1 then [4 * row + 1] else [])
    ++ (if dc % 2 = 1 then [1000 + 4 * col] else []) ++ (if dc / 2 = 1 then [1000 + 4 * col + 1] else [])

/-- A result lands in a copy of width `w` (R46): in the latch, on the buses it drives, in the row-file entry it writes, readable
there from the next cycle (R50). -/
def Copy.land (c : Copy) (w : Nat) (f : Flight) (v : Tagged) : Copy :=
  let row := f.elem / w
  { c with
    reg := { c.reg with latch := Store.set {} c.reg.latch f.elem v, inflight := c.reg.inflight.filter fun x => x.id != f.id }
    buses := (driven row (f.elem % w) f.dr f.dc).foldl (fun m k => Store.set {} m k v) c.buses
    rowWrites := if f.we then Store.set {} c.rowWrites (128 * row + f.wi) v else c.rowWrites }

/-- The scratch reads that wait while a late reply freezes the region: those whose operands are there once the results due have
landed, a missing one delivering no value that an address could have (R52). -/
def State.lateReads (s : State) (i j : Nat) : List Nat :=
  let st := s.getStamp i
  let lt := st.lt (st.copy j)
  (s.modCopy i j fun c => (c.reg.inflight.filter fun f => decide (f.due ≤ lt)).foldl (fun c f =>
    c.land st.width f (if f.missing (s.stampMcc (s.getStamp i)) then { tag := 15 } else f.val.getD {})) { c.foldRows with buses := [] }).waitingReads i j

/-- The GRACE count of a scratch read that waits for its channel (R52): it counts every cycle in which the region is frozen since the
read froze it, whatever else freezes it (log entry 88, DEDUCED); at GRACE the read faults. -/
def State.freezeReads (s : State) (i j : Nat) (reads : List Nat) : State :=
  let st := s.getStamp i
  match reads with
  | [] => s
  | x :: _ =>
    let w : ScratchStall := (st.copy j).stall.getD { elem := x }
    if st.hdr.grace ≤ w.frozen then s.soon [.event (.stallGraceExpiry i j)]
    else s.modCopy i j fun c => { c with
      stall := some { w with frozen := w.frozen + 1 }, counts := { c.counts with scratch := countUp c.counts.scratch 1 } }

/-- The source node of the element of a result in flight (R395). -/
def Stamp.flightNode (st : Stamp) (i : Nat) (f : Flight) : Nat := Stamp.node i (f.elem / st.width) (f.elem % st.width) f.slot

/-- Whether a load sent through a channel has had no reply for 50 µs (R390). -/
def State.replyLost (s : State) (f : Flight) : Bool :=
  f.val.isNone && match f.sent with
    | some t => decide (t + usTicks 50 ≤ s.tick)
    | none => false

/-- A copy at the start of a round takes its capture, in the wave's first cycle, whatever freezes the region in it (R53). -/
def Copy.captureAt (st : Stamp) (c : Copy) : Copy :=
  match st.roundStart c.reg.slot c.reg.wave with
  | some n => c.capture n
  | none => c

/-- R44: a cycle of a region. A late reply or full round buffers (R52) freeze it before anything lands, and so does, in the cycle in which
it arrives, a reply that was late; an unready scratch read freezes it before anything issues; else the slot's entries issue. -/
def execEvRowCounterStep (stamp copy : Nat) (s : State) : Result :=
  let st := s.getStamp stamp
  let c := st.copy copy
  let lt := st.lt c
  let past := decide (st.endWave ≤ c.reg.wave)
  if !s.copyRuns stamp copy then .next s
  else if c.redFault.isSome && (!past || c.committing.isNone) then
    .next (s.faultRegion stamp copy (dataTrap (c.redFault.getD 0)))
  else if c.landed ≠ some lt then
    let s := s.modCopy stamp copy (Copy.captureAt st)
    let due := c.reg.inflight.filter fun f => decide (f.due ≤ lt) && f.missing (s.stampMcc st)
    match due.find? s.replyLost with
    | some f => .next (s.faultRegion stamp copy (accessTrap f.va) (st.flightNode stamp f))
    | none =>
      let late := !due.isEmpty || decide (s.stampMcc st < c.freeAt)
      let full := s.buffersFull st c
      if past && c.reg.inflight.isEmpty then
        if c.committed = st.lastRound + 1 then .next (s.modCopy stamp copy fun c => { c.foldRows with done := true })
        else .next s
      else if late || full then
        let reads := s.lateReads stamp copy
        .next ((s.modCopy stamp copy fun c => { c with
          loadStall := !due.isEmpty
          counts := { c.counts with
            late := countUp c.counts.late (bit01 late), buffer := countUp c.counts.buffer (bit01 full) } }).freezeReads stamp copy reads)
      else if (st.roundStart c.reg.slot c.reg.wave).isSome && s.frameStop c c.reg.wave then
        .next ((s.modCopy stamp copy fun c => { c with fstop := true }).soon [.event (.debugStop c.core .frame)])
      else .next (s.beginSlot stamp copy)
  else
    match s.waitingReads stamp copy with
    | [] => .next (s.issueSlot stamp copy)
    | reads => .next (s.freezeReads stamp copy reads)

/-- R44: SLOT passes II − 1: it returns to 0 and WAVE is incremented. -/
def execEvWaveAdvance (stamp copy : Nat) (s : State) : Result :=
  if (s.getStamp stamp).state == .running then
    .next (s.modCopy stamp copy fun c => { c with reg := { c.reg with slot := 0, wave := c.reg.wave + 1 } })
  else .next s

/-- R46: a result lands: in the latch, on the buses it drives, in the row-file entry it writes, readable there from the
next cycle (R50). A moment result with a negative variance faults instead (R186). -/
def execEvResultLands (stamp copy id : Nat) (s : State) : Result :=
  let st := s.getStamp stamp
  let c := st.copy copy
  match c.reg.inflight.find? fun f => f.id == id with
  | none => .next s
  | some f =>
    if f.fault then .next (s.faultRegion stamp copy momentTrap (st.flightNode stamp f))
    else
      match f.val with
      | none => .next s
      | some v =>
        .next (s.modCopy stamp copy fun c => c.land st.width f v)

/-- A flight whose value has come. -/
def Flight.filled (f : Flight) (id : Nat) (v : Tagged) : Flight :=
  if f.id == id then { f with val := some v, late := none, held := none, sent := none } else f

/-- The stall wire of a copy is released in the cycle after a late reply arrives (R52). -/
def State.release' (s : State) (i j : Nat) : State :=
  s.modCopy i j fun c => if c.loadStall then { c with loadStall := false, freeAt := s.stampMcc (s.getStamp i) + 1 } else c

/-- A flight of a copy: one in flight, or one that a capture holds. -/
def Copy.flight (c : Copy) (id : Nat) : Option Flight :=
  (c.reg.inflight ++ c.captures.flatMap fun k => k.2.inflight).find? fun f => f.id == id

/-- The value of a fabric load comes after its issue: it fills the flight wherever a capture holds it too, it is kept for the record log
(R399), and the stall wire is released. -/
def State.fillLoad (s : State) (i j : Nat) (f : Flight) (v : Word) (psn : Bool) : State :=
  let fill (r : RegCore) : RegCore :=
    { r with inflight := r.inflight.map fun g => g.filled f.id ⟨place f.tag.toNat v.toNat, f.tag, psn⟩ }
  let s := match f.held with
    | some h => s.keepReply i j ⟨h.frame, h.time, f.id, v, psn, s.stampMcc (s.getStamp i) - h.due⟩
    | none => s
  (s.modCopy i j fun c => { c with reg := fill c.reg, captures := c.captures.map fun k => (k.1, fill k.2) }).release' i j

/-- What a member is told that waits for a peer's reply, once it has come (R390): a load or atomic completes with its value, a read of
several words goes on; a refused one ends with the access fault, which a Frozen member takes when it runs again. -/
def State.peerReply (s : State) (core : Nat) (value : Option Word) : Result :=
  let s := { s with core := core }
  match s.q.wait with
  | .peer p =>
    match value with
    | none => .next ((s.setWait .none).trapLate core (accessTrap p.va) s.q.pc)
    | some v =>
      if p.many then .next (s.setWait .peerDone) else
      let n := 8 * p.size
      let v := if p.float then BitVec.ofNat 64 (v.toNat % 2 ^ n)
        else if p.signed then wrap64 (sextInt n v.toNat) else BitVec.ofNat 64 (v.toNat % 2 ^ n)
      let r := s.enterAs core 0 v p.psn
      let s := (r.2.setWait .none).result p.rd r.1.1 r.1.2 p.len
      match p.acq with
      | some sc =>
        let on := s.strapOn sc
        .next (((if p.inval then s.acquire core sc else s.noEarly core).noteDemoted sc).strap on)
      | none => .next s
  | .barInit => .next ((s.setWait .none).advance 4)
  | _ => .next s

/-- What the home of a barrier tells a member of this package that waits there (R34, R210): it is kept until the member takes it, with its
saved context where it is spilled. -/
def State.barrierReply (s : State) (task memb : Nat) (value : Option Word) : State :=
  let tell (q : Seq) : Seq := match q.wait with
    | .remoteBarrier _ _ => { q with barReply := some value }
    | _ => q
  let mine (b : Binding) : Bool := b.task == task && b.memb == memb
  let s := allCores.foldl (fun s c =>
    if (s.getCore c).bind.isSome && mine (s.getCore c).binding then s.modCore c fun k => { k with seq := tell k.seq } else s) s
  s.modTask task fun t => { t with saves := t.saves.map fun x => if x.memb == memb then { x with seq := tell x.seq } else x }

/-- R52: a load reply reaches its port lane; the stall wire is released in the next cycle. A reply of a channel that does not come (R390)
faults the region. -/
def execEvLoadReplyArrives (r : Reply) (s : State) : Result :=
  match r with
  | .peer core value => s.peerReply core value
  | .barrier task memb value => .next (s.barrierReply task memb value)
  | .fabric i j id value =>
    let st := s.getStamp i
    match (st.copy j).flight id with
    | none => .next s
    | some f =>
      if f.val.isSome then .next (s.release' i j)
      else
        match value with
        | none => .next (s.faultRegion i j (accessTrap f.va) (st.flightNode i f))
        | some w => .next (s.fillLoad i j f w false)

/-- R271, R272: a fabric load that waited for a store to its bytes, or for the half of a host-coherent line, reads them. -/
def execEvHeldReadAnswered (stamp copy id : Nat) (s : State) : Result :=
  let st := s.getStamp stamp
  let c := st.copy copy
  match c.flight id with
  | none => .next s
  | some f =>
    match f.held with
    | none => .next s
    | some h =>
      if f.sent.isSome || s.heldFor (clusterOf c.core) h.pa h.size then .next s
      else if placeOf h.pa = .host ∧ s.hostDead then .next (s.faultRegion stamp copy (accessTrap f.va) (st.flightNode stamp f))
      else if !s.halvesReady h.leaf h.pa h.size false then .next (s.askHalves (placeOf h.pa) false (halvesOf h.pa h.size))
      else
        let t := s.getTask st.task
        match s.fabricRead c.core t.part t.kclass h.leaf h.pa h.size with
        | (none, s) => .next (s.faultRegion stamp copy (dataTrap f.va) (st.flightNode stamp f))
        | (some x, s) => .next (s.fillLoad stamp copy f x.1 x.2)

/-- R52: a scratch read frozen for GRACE cycles raises a timing fault. -/
def execEvStallGraceExpiry (stamp copy : Nat) (s : State) : Result :=
  let st := s.getStamp stamp
  let c := st.copy copy
  let x := ((c.stall.map ScratchStall.elem).getD 0)
  if s.copyRuns stamp copy then
    .next (s.faultRegion stamp copy timingTrap (Stamp.node stamp (x / st.width) (x % st.width) c.reg.slot))
  else .next s

/-! ### Commit -/

/-- The order of R161 within a round: frame, issue cycle, element. -/
def BufEntry.before (a b : BufEntry) : Bool :=
  decide (a.frame < b.frame) || (a.frame == b.frame && (decide (a.time < b.time) || (a.time == b.time && decide (a.elem ≤ b.elem))))

/-- Inserts an entry in order. -/
def insertEntry (b : BufEntry) : List BufEntry → List BufEntry
  | [] => [b]
  | x :: rest => if x.before b then x :: insertEntry b rest else b :: x :: rest

/-- The entries of a round in the order of R161. -/
def Copy.roundEntries (c : Copy) (n : Nat) : List BufEntry :=
  (c.buffers.filter fun b => b.round == n).foldl (fun l b => insertEntry b l) []

/-- One store more of the committing round is out. -/
def State.outOne (s : State) (i j : Nat) : State := s.modCopy i j fun c => { c with outstanding := c.outstanding + 1 }

/-- A store or reduction leaves its port, in the order of the round (R25, R161): to the scratch level, the cluster's CC bytes, the
host port, a Lomid channel, or its home. On a CC page a reduction first pushes the line's dirty bytes (R277). It goes through the core's L1
as its sequencer's stores do, a reduction to the L2 (R67, R164). -/
def State.leavePort (s : State) (i j n : Nat) (b : BufEntry) : State :=
  let st := s.getStamp i
  let c := st.copy j
  let task := s.getTask st.task
  let replay := s.replays st.core
  if b.level ≠ 0 then
    let l := s.scratchLoc c.core task.part b.level b.va
    if replay && b.level != 1 then s else (s.useBank l).bankStore l b.data b.psn
  else if replay then s
  else
    let len := b.data.length
    let cls := s.blockClass b.pa
    let req (psn : Bool) : StoreReq := ⟨.region i j n, st.core, st.task, task.part, b.va, b.pa, b.data, psn, b.typ == 0⟩
    match placeOf b.pa with
    | .none => s
    | .peer ch =>
      if s.channelOpen ch task.part then
        let s := { s with posted := s.posted ++ [(⟨ch, s.tick, { req false with data := [] }⟩ : Posted)] }
        let far := s.farVa ch b.va
        (s.outOne i j).send (match b.red with
          | none => .store ch far b.data s.tick
          | some (op, fmt) => .red ch far op fmt b.val s.tick)
      else s.failStore st.core b.va false
    | .host =>
      if s.hostDead then s.failStore st.core b.va false
      else
        let s := ((s.makeIrrevocable task.part st.task).outOne i j).touch c.core task.part b.leaf b.pa true
        match b.red with
        | none => s.onWay (req false)
        | some (op, fmt) => s.redArrive ⟨i, j, op, fmt, b.va, b.pa, b.val, false, b.typ == 0⟩
    | .hbm =>
      let s := if b.red.isSome then s.touchHome c.core task.part b.leaf b.pa true else s.touch c.core task.part b.leaf b.pa true
      let s := (if b.psn && cls == 2 then s.charge task.part (64 * wordsTouched b.pa len) c.core else s).outOne i j
      let psn := b.psn && cls == 1
      match b.red with
      | some (op, fmt) =>
        if b.typ == 3 && s.homePkg b.pa != s.pkgNo then s.send (.red (256 + s.homePkg b.pa) b.pa op fmt b.val s.tick)
        else
          let first : List Action := if b.typ = 1 then [.event (.ccEvictionPush (clusterOf c.core) (b.pa / 128))] else []
          s.later (first ++ [.event (.reductionAtHome ⟨i, j, op, fmt, b.va, b.pa, b.val, psn, b.typ == 0⟩)])
      | none =>
        if b.typ = 1 then s.later [.event (.ccStore (req psn))]
        else if b.typ = 3 then
          if s.homePkg b.pa = s.pkgNo then s.later [.event (.replicaWriteAtHome ⟨req psn, 0⟩)] else s.sendReplica (req psn)
        else s.later [.event (.storeAtHome (req psn))]

/-- R69, R161: a committed store to a CC page reaches its cluster's L1s, and is one less of its round; one to part of a lost line is
discarded and charged (R357). -/
def execEvCcStore (st : StoreReq) (s : State) : Result :=
  let s := if s.lost.contains (st.pa / 128) then s.charge st.part 64 st.core
    else s.writeDirty (clusterOf st.core) st.part st.task st.pa st.data st.psn
  .next (match st.src with
    | .region i j _ => s.tellIssuer (.red i j)
    | _ => s)

/-- Whether round `n` of a copy is ready to commit: the earlier rounds have, its last frame has retired (R25), and no store of the
cluster to its bytes is on its way. -/
def State.commitReady (s : State) (i j n : Nat) : Bool :=
  let st := s.getStamp i
  let c := st.copy j
  st.state == .running && decide (j < st.copies.length) && n == c.committed && c.committing.isNone
    && decide (n ≤ st.lastRound) && decide (st.trip ≠ 0)
    && decide (min ((n + 1) * st.hdr.rs) st.trip + st.hdr.kmax ≤ c.reg.wave)
    && c.buffers.all fun b => b.round != n || b.level != 0 || !s.wayAt (clusterOf c.core) b.pa b.data.length

/-- How late a reply came takes its place beside its value (R52, R399). -/
def State.noteLate (s : State) (c stream late : Nat) : State :=
  if s.records c then
    let b := (s.getCore c).binding
    s.modTask b.task fun t => { t with recorded := t.recorded ++ [(memberStreams * b.memb + stream, BitVec.ofNat 64 late)] }
  else s

/-- R25: a round commits: its stores leave the ports in order, and its replies are recorded (R399). It has committed when
every store has been acknowledged. They leave in the order of R161, and the homes receive them in the order they leave, which R161
does not promise (log entry 104, DESIGN CHOICE). -/
def execEvRoundCommit (stamp copy round : Nat) (s : State) : Result :=
  if s.commitReady stamp copy round then
    let st := s.getStamp stamp
    let c := st.copy copy
    let mine (x : FabReply) : Bool := decide (x.frame / st.hdr.rs ≤ round)
    let s := (c.replies.filter mine).foldl (fun s x =>
      (s.recordOn st.core (fabStream st.handle copy (x.frame / st.hdr.rs)) x.frame x.val x.psn).noteLate st.core
        (lateStream st.handle copy (x.frame / st.hdr.rs)) x.late) s
    let s := s.modCopy stamp copy fun c => { c with
      committing := some round, outstanding := 1, replies := c.replies.filter fun x => !mine x }
    let rest := s.agenda
    let s := (c.roundEntries round).foldl (fun s b => s.leavePort stamp copy round b) { s with agenda := [] }
    .next (({ s with agenda := s.agenda ++ rest }).modCopy stamp copy (Copy.ack (s.stampMcc (s.getStamp stamp))))
  else .next s

/-- R28: the phase retires: every copy's frames have retired, its results have landed and its last round has committed.
A copy whose last commit read a bad word faults instead (R164). -/
def execEvPhaseRetire (stamp : Nat) (s : State) : Result :=
  let st := s.getStamp stamp
  if st.state == .running && !st.held && st.copies.all Copy.done then
    match (List.range st.copies.length).find? fun j => (st.copy j).redFault.isSome with
    | some j => .next (s.faultRegion stamp j (dataTrap ((st.copy j).redFault.getD 0)))
    | none =>
      let sum (f : RegCount → Nat) : Nat := st.copies.foldl (fun n c => countUp n (f c.counts)) 0
      let s := s.modStamp stamp fun st => { st with state := .idle }
      .next (s.trace st.core 2 st.handle 0 (BitVec.ofNat 64 (s.stampMcc st - st.start)) (BitVec.ofNat 64 (sum RegCount.lost))
        (BitVec.ofNat 64 (sum RegCount.late * 2 ^ 32 + sum RegCount.scratch))
        (BitVec.ofNat 64 (sum RegCount.buffer * 2 ^ 32 + sum RegCount.voids)))
  else .next s

end Sys2Proof.Machine
end

