-- ==== Sys2Proof/Machine/Engines.lean ====
section
/-!
DEFINITION. Engine commands: issue (R233, R234), stops and retirement (R235), write pointers (R71, R236), and the reads
and writes of memory by an engine (R63, R77 to R79, R240).
-/

namespace Sys2Proof.Machine

/-! ### Commands -/

/-- The long form of an engine command. -/
def longOf : Instr → Option Long
  | .scopy l => some l
  | .sstrd l => some l
  | .sgath l => some l
  | .sscat l => some l
  | .sxcopy l => some l
  | .mstep l => some l
  | .momstep l => some l
  | .accZero l => some l
  | .accLd l => some l
  | .accSt l => some l
  | .tmv l => some l
  | .tsel l => some l
  | .tred l => some l
  | .collAr l => some l
  | .collRs l => some l
  | .collAg l => some l
  | .collBc l => some l
  | .collA2a l => some l
  | _ => none

/-- The engines. -/
inductive Engine where
  | serow | markhor | accum | tahr | collect
  deriving DecidableEq, Repr

/-- The engine of a command. -/
def Cmd.engine (m : Cmd) : Engine :=
  match m.instr with
  | .mstep _ => .markhor
  | .momstep _ => .markhor
  | .accZero _ => .accum
  | .accLd _ => .accum
  | .accSt _ => .accum
  | .tmv _ => .tahr
  | .tsel _ => .tahr
  | .tred _ => .tahr
  | .collAr _ => .collect
  | .collRs _ => .collect
  | .collAg _ => .collect
  | .collBc _ => .collect
  | .collA2a _ => .collect
  | _ => .serow

/-- The fields of a command's long form. -/
def Cmd.long (m : Cmd) : Long := (longOf m.instr).getD ⟨0, 0, 0, false, 0, 0, 0, 0, 0⟩

/-- Whether CH is the channel the command delivers through (R236). -/
def Cmd.delivers (m : Cmd) : Bool :=
  m.long.chv && match m.instr with
    | .mstep _ => false
    | .momstep _ => false
    | .accLd _ => false
    | .accZero _ => false
    | _ => true

/-- Its channel number. -/
def Cmd.chan (m : Cmd) : Nat := m.long.ch.toNat

/-- Command `id` of a core, if it has not retired. -/
def Core.cmd (k : Core) (id : Nat) : Option Cmd := k.cmds.find? fun m => m.id == id && !m.retired

/-- A core with a command changed. -/
def Core.modCmd (k : Core) (id : Nat) (f : Cmd → Cmd) : Core :=
  { k with cmds := k.cmds.map fun m => if m.id == id then f m else m }

/-- `s` with a command changed. -/
def State.modCmd (s : State) (c id : Nat) (f : Cmd → Cmd) : State := s.modCore c fun k => k.modCmd id f

/-- Commands issued and not started (R233). -/
def Core.pendingCmds (k : Core) : Nat := (k.cmds.filter fun m => m.started.isNone && !m.retired).length

/-! ### Issue -/

/-- The group of a collective: the first member F and the member count P (R257). -/
def groupOfWord (gc : Word) : Nat × Nat := (gc.fld 38 20, gc.fld 57 39)

/-- The collectives the member has issued on a group. -/
def Core.collCount (k : Core) (g : Nat × Nat) : Nat := ((k.collSeq.find? fun x => x.1 == g).map Prod.snd).getD 0

/-- The core with one collective more on a group. -/
def Core.countColl (k : Core) (g : Nat × Nat) : Core :=
  { k with collSeq := (k.collSeq.filter fun x => x.1 != g) ++ [(g, k.collCount g + 1)] }

/-- R233, R234: the sequencer issues an engine command: its encoding, the limit of 64 pending commands, the poison of the
registers it names, the limits of their values; then it is forked. `uses` are the registers it reads beside g[GOB]. -/
def issueCmd (i : Instr) (l : Long) (uses : List Reg) (inLimits : Word → Word → Word → Bool) (s : State) : Result :=
  let k := s.cur
  let ra := (s.g l.ga).val
  let rb := (s.g l.gb).val
  let rc := (s.g l.gc).val
  if !longOk i then .next (s.trap (illegalTrap (firstWord i)))
  else if 64 ≤ k.pendingCmds then .next (s.setWait .engine)
  else if s.kclass == 1 && (l.gob :: uses).any fun r => (s.g r).psn then .next (s.trap (dataTrap 0))
  else if !inLimits ra rb rc then .next (s.trap rangeTrap)
  else
    let due := (s.g l.gob).val + BitVec.ofNat 64 l.ofs.toNat
    let arrive := s.q.mcc.toNat + 4
    let e := s.enterAs s.core 1000 (BitVec.ofNat 64 (max due.toNat arrive)) false
    let m : Cmd :=
      { id := k.nextCmd, instr := i, va := s.q.pc, ra := ra, rb := rb, rc := rc, due := due, arrive := e.1.1 }
    let coll := m.engine == .collect
    let m := { m with seqNo := if coll then k.collCount (groupOfWord rc) else 0 }
    let s := e.2.modCur fun k =>
      let k := { k with cmds := k.cmds ++ [m], nextCmd := k.nextCmd + 1 }
      if coll then k.countColl (groupOfWord rc) else k
    .next ((s.setWait .none).advance 8)

/-- A length of at most 2^28 − 1 bytes (R237). -/
def lengthOk (rc : Word) : Bool := decide (rc.toNat < 2 ^ 28)
/-- The limits of the stride word (R238). -/
def strideOk (rc : Word) : Bool :=
  decide (1 ≤ rc.fld 39 20) && decide (1 ≤ rc.fld 19 0) && decide (rc.fld 39 20 * rc.fld 19 0 < 2 ^ 28)
/-- The limits of the index word (R238). -/
def indexOk (rc : Word) : Bool := rc.fld 63 51 == 0 && rc.fld 1 0 == 0
/-- M and N of the shape word (R241). -/
def shapeOk (rc : Word) : Bool :=
  decide (1 ≤ rc.fld 15 0) && decide (rc.fld 15 0 ≤ 32) && decide (1 ≤ rc.fld 31 16) && decide (rc.fld 31 16 ≤ 32)
/-- The shape word of a tile-step (R241). -/
def tileOk (rc : Word) : Bool := shapeOk rc && rc.fld 63 56 == 0
/-- The vector word of a Tahr command (R252); XOFF is zero but for `TMV`. -/
def vectorOk (x : Bool) (rb : Word) : Bool := rb.fld 63 60 == 0 && rb.fld 31 28 == 0 && (x || rb.fld 27 0 == 0)

/-- Bits of an element of an operand format of R142. -/
def fmtBits (f : Nat) : Nat :=
  match f with
  | 0 => 64
  | 1 => 32
  | 2 => 16
  | 3 => 16
  | 7 => 4
  | _ => 8

/-- The shape of `TMV` (R253): M and K at least 1; the pitch covers K elements. -/
def tmvOk (f : Nat) (rc : Word) : Bool :=
  decide (1 ≤ rc.fld 23 0) && decide (1 ≤ rc.fld 39 24) && decide (ceilDiv (rc.fld 39 24 * fmtBits f) 8 ≤ 16 * rc.fld 63 40)
/-- The shape of `TSEL` (R254). -/
def tselOk (rc : Word) : Bool := decide (rc.fld 26 24 < 6) && rc.fld 31 27 == 0
/-- The shape of `TRED` (R255). -/
def tredOk (rc : Word) : Bool := decide (1 ≤ rc.fld 23 0) && decide (1 ≤ rc.fld 47 24) && rc.fld 63 50 == 0

/-- What replays add to the index of the member that they run (R400, log entry 18, DESIGN CHOICE): above every real one. -/
def maxReplay : Nat := 2 ^ 19

/-- The limits of a collective (R257): address words, the group word, and a group in the gang that contains the issuer. -/
def State.collLimits (s : State) (ra rb rc : Word) : Bool :=
  let t := s.getTask s.me.task
  let memb := s.me.memb % maxReplay
  let f := rc.fld 38 20
  let p := rc.fld 57 39
  ra.fld 63 29 == 0 && rb.fld 63 29 == 0 && rc.fld 63 58 == 0 && decide (1 ≤ rc.fld 19 0) && decide (1 ≤ p)
    && decide (p ≤ maxMembers) && decide (f + p ≤ t.nmemb) && decide (f ≤ memb) && decide (memb < f + p)

/-- `SCOPY` (R237). -/
def execScopy (l : Long) (s : State) : Result := issueCmd (.scopy l) l [l.ga, l.gb, l.gc] (fun _ _ rc => lengthOk rc) s
/-- `SSTRD` (R237, R238). -/
def execSstrd (l : Long) (s : State) : Result := issueCmd (.sstrd l) l [l.ga, l.gb, l.gc] (fun _ _ rc => strideOk rc) s
/-- `SGATH` (R237, R238). -/
def execSgath (l : Long) (s : State) : Result := issueCmd (.sgath l) l [l.ga, l.gb, l.gc] (fun _ _ rc => indexOk rc) s
/-- `SSCAT` (R237, R238). -/
def execSscat (l : Long) (s : State) : Result := issueCmd (.sscat l) l [l.ga, l.gb, l.gc] (fun _ _ rc => indexOk rc) s
/-- `SXCOPY` (R237). -/
def execSxcopy (l : Long) (s : State) : Result := issueCmd (.sxcopy l) l [l.ga, l.gb, l.gc] (fun _ _ rc => lengthOk rc) s
/-- `MSTEP` (R241, R243). -/
def execMstep (l : Long) (s : State) : Result := issueCmd (.mstep l) l [l.ga, l.gb, l.gc] (fun _ _ rc => tileOk rc) s
/-- `MOMSTEP` (R241, R246). -/
def execMomstep (l : Long) (s : State) : Result := issueCmd (.momstep l) l [l.ga, l.gb, l.gc] (fun _ _ rc => tileOk rc) s
/-- `ACC.ZERO` (R248). -/
def execAccZero (l : Long) (s : State) : Result := issueCmd (.accZero l) l [] (fun _ _ _ => true) s
/-- `ACC.LD` (R248). -/
def execAccLd (l : Long) (s : State) : Result := issueCmd (.accLd l) l [l.ga, l.gc] (fun _ _ rc => shapeOk rc) s
/-- `ACC.ST` (R248). -/
def execAccSt (l : Long) (s : State) : Result := issueCmd (.accSt l) l [l.ga, l.gc] (fun _ _ rc => shapeOk rc) s
/-- `TMV` (R252, R253). -/
def execTmv (l : Long) (s : State) : Result :=
  issueCmd (.tmv l) l [l.ga, l.gb, l.gc] (fun _ rb rc => vectorOk true rb && tmvOk l.fmt rc) s
/-- `TSEL` (R252, R254). -/
def execTsel (l : Long) (s : State) : Result :=
  issueCmd (.tsel l) l [l.ga, l.gb, l.gc] (fun _ rb rc => vectorOk false rb && tselOk rc) s
/-- `TRED` (R252, R255). -/
def execTred (l : Long) (s : State) : Result :=
  issueCmd (.tred l) l [l.ga, l.gb, l.gc] (fun _ rb rc => vectorOk false rb && tredOk rc) s
/-- `COLL.AR` (R257, R259). -/
def execCollAr (l : Long) (s : State) : Result := issueCmd (.collAr l) l [l.ga, l.gb, l.gc] s.collLimits s
/-- `COLL.RS` (R257, R259). -/
def execCollRs (l : Long) (s : State) : Result := issueCmd (.collRs l) l [l.ga, l.gb, l.gc] s.collLimits s
/-- `COLL.AG` (R257, R259). -/
def execCollAg (l : Long) (s : State) : Result := issueCmd (.collAg l) l [l.ga, l.gb, l.gc] s.collLimits s
/-- `COLL.BC` (R257, R259). -/
def execCollBc (l : Long) (s : State) : Result := issueCmd (.collBc l) l [l.ga, l.gb, l.gc] s.collLimits s
/-- `COLL.A2A` (R257, R259). -/
def execCollA2a (l : Long) (s : State) : Result := issueCmd (.collA2a l) l [l.ga, l.gb, l.gc] s.collLimits s

/-- Issues an engine command by its instruction. -/
def issueAny (i : Instr) (s : State) : Result :=
  match i with
  | .scopy l => execScopy l s
  | .sstrd l => execSstrd l s
  | .sgath l => execSgath l s
  | .sscat l => execSscat l s
  | .sxcopy l => execSxcopy l s
  | .mstep l => execMstep l s
  | .momstep l => execMomstep l s
  | .accZero l => execAccZero l s
  | .accLd l => execAccLd l s
  | .accSt l => execAccSt l s
  | .tmv l => execTmv l s
  | .tsel l => execTsel l s
  | .tred l => execTred l s
  | .collAr l => execCollAr l s
  | .collRs l => execCollRs l s
  | .collAg l => execCollAg l s
  | .collBc l => execCollBc l s
  | .collA2a l => execCollA2a l s
  | _ => .next s

/-- R233: a command held at issue is accepted once fewer than 64 are pending; it issues in this cycle. -/
def execEvHeldCommandAccepted (core : Nat) (s : State) : Result :=
  let k := s.getCore core
  if k.seq.wait == .engine && decide (k.pendingCmds < 64) then
    match decodeWords (k.seq.ir.fld 31 0) (k.seq.ir.fld 63 32) with
    | .ok i => issueAny i { s with core := core }
    | .error _ => .next s
  else .next s

/-! ### Write pointers, retirement and stops -/

/-- A write pointer as a starting copy sets it (R71, R236): SPACE is the space code less one; 0 is device memory. -/
def wpStart (space base : Nat) : Word :=
  if space = 0 then BitVec.ofNat 64 (3 * 2 ^ 62 + 2 ^ 61)
  else BitVec.ofNat 64 ((space - 1) * 2 ^ 62 + 2 ^ 61 + base % 2 ^ 28 * 2 ^ 28 + base % 2 ^ 28)

/-- `s` with a write pointer changed. -/
def State.modWp (s : State) (c ch : Nat) (f : Word → Word) : State :=
  s.modCore c fun k => { k with wp := Store.modify wpReset k.wp ch f }

/-- A write pointer after bytes up to offset `p` have landed; with the last, ACT returns to 0. -/
def wpLand (p : Nat) (last : Bool) (w : Word) : Word :=
  let w := w.put 27 0 p
  if last then w.put 61 61 0 else w

/-- Bytes up to offset `p` have landed, for a command that delivers to a scratch level. -/
def State.landed (s : State) (c : Nat) (m : Cmd) (p : Nat) (last : Bool) : State :=
  if m.delivers then s.modWp c m.chan (wpLand p last) else s

/-- A command retires (R233): its channel is no longer active; a kind-5 record (R396). -/
def State.retireCmd (s : State) (c id : Nat) : State :=
  match (s.getCore c).cmd id with
  | none => s
  | some m =>
    let s := s.modCmd c id fun m => { m with retired := true, data := [], reps := [] }
    let s := if m.delivers then s.modWp c m.chan fun w => w.put 61 61 0 else s
    s.trace c 5 0 0 m.va (s.getCore c).seq.mcc 0 0

/-- A command stops on a fault (R234, R235): ERR is set on the channel it has taken, its trap is delivered to the member,
and it counts as retired. `chan` says whether it had taken its channel. -/
def State.stopCmd (s : State) (c id : Nat) (t : Trap) (chan : Bool := true) : State :=
  match (s.getCore c).cmd id with
  | none => s
  | some m =>
    let s := s.modCmd c id fun m => { m with retired := true, data := [], reps := [] }
    let s := if m.delivers && chan then s.modWp c m.chan fun w => (w.put 61 61 0).put 60 60 1 else s
    let s := s.trace c 5 0 0 m.va (s.getCore c).seq.mcc (BitVec.ofNat 64 t.code) 0
    s.holdTrap c c { t with src := 2, tval := m.va }

/-- The class fault (R79). -/
def classTrap : Trap := { code := 13 }

/-! ### Accesses of an engine -/

/-- What an access of an engine gives: a value; a pause (R240, R350, R351), which leaves nothing but what it asks for, so that what was
read before it is read and charged once (R81); or a stop. -/
inductive Eng (α : Type) where
  | ok (v : α) (s : State)
  | hold (ask : State → State)
  | stop (t : Trap) (s : State)

/-- Goes on with the value. -/
def Eng.andThen {α β : Type} (e : Eng α) (f : α → State → Eng β) : Eng β :=
  match e with
  | .ok v s => f v s
  | .hold f => .hold f
  | .stop t s => .stop t s

/-- What the access of command `id` of core `c` leaves of `s`, in which it is made: the stop carried out, or the state. -/
def Eng.finish {α : Type} (e : Eng α) (s : State) (c id : Nat) : State :=
  match e with
  | .ok _ s => s
  | .hold f => f s
  | .stop t s => s.stopCmd c id t

/-- An access whose words on chip must find their banks free of earlier uses (R65): else it pauses. -/
def State.engBanks {α : Type} (s : State) (run : State → Eng α) : Eng α :=
  match run { s with bankUse := [] } with
  | .ok v t =>
    let waits (u : (Nat × Nat × Nat × Nat) × Nat) : Bool := match s.bankUse.find? fun x => x.1 == u.1 with
      | some x => x.2 != u.2
      | none => false
    if t.bankUse.any fun u => waits u || s.bankLag u.1 != 0 then .hold id
    else .ok v { t with bankUse := s.bankUse ++ t.bankUse.filter fun u => !s.bankUse.contains u }
  | .hold f => .hold f
  | .stop x t => .stop x { t with bankUse := s.bankUse }

/-- Whether a load that the command sent through a channel is still within the 50 µs of its reply (R390). -/
def State.replyComing (s : State) (m : Cmd) : Bool :=
  match m.lost with
  | some t => decide (s.tick < t + usTicks 50)
  | none => false

/-- Whether the command waits for a page request (R350), for DONE (R351), or for a reply (R390). -/
def State.cmdWaits (s : State) (c : Nat) (m : Cmd) : Bool :=
  (m.conflicts.any fun x => !x.again) || s.replyComing m || s.pageReqs.any fun r => r.src == .engine c m.id

/-- Translates a device address for a command, KIND 0 read or 1 write (R240). -/
def State.engXlate (s : State) (c id : Nat) (va : Word) (kind : Nat) : Eng (Word × Nat) :=
  let b := (s.getCore c).binding
  let page := va.toNat / 65536
  match s.xlate c .eng b.part va kind with
  | (.ok leaf pa, s1) =>
    let s1 := s1.modCmd c id fun m => { m with conflicts := m.conflicts.filter fun x => x.page != page }
    if s1.frameOk b.part leaf pa then .ok (leaf, pa) s1 else .stop (accessTrap va) s1
  | (.missing, _) => .hold fun t => t.pageRequest (.engine c id) va b.part c 0 kind
  | (.conflict, s1) =>
    match (s.getCore c).cmd id with
    | some m =>
      if m.conflicts.contains ⟨0, page, true⟩ then .stop { code := 22, tval := va } s1
      else .hold fun t => t.modCmd c id fun m => { m with conflicts := m.conflicts ++ [⟨0, page, false⟩] }
    | none => .hold fun t => t

/-- Where a byte of an engine access lies; in a replay, outside the core scratchpad, nowhere (R400). -/
inductive Spot' where
  | device (va leaf : Word) (pa : Nat)
  | chip (l : ScratchLoc)
  | away

/-- Finds the place of address `a` of a space: 0 device, 1 to 3 the scratch levels; spill space is taken as of type CO (R75). -/
def State.engPlace (s : State) (c id space : Nat) (a : Word) (kind : Nat) : Eng Spot' :=
  let device (va : Word) (f : Word → Word) : Eng Spot' :=
    if s.replays c then .ok .away s else (s.engXlate c id va kind).andThen fun x s => .ok (.device va (f x.1) x.2) s
  if space = 0 then device a (fun l => l)
  else
    match s.scratchLoc c (s.getCore c).binding.part space a with
    | .bad => .stop (scratchTrap a) s
    | .spill va => device va asCo
    | .core d o => .ok (.chip (.core d o)) s
    | l => .ok (if s.replays c then .away else .chip l) s

/-- A value that an engine operation reads, with its poison, in its command's stream: recorded, or in a replay the recorded one (R399,
R400). -/
def State.engEnter (s : State) (c id v : Nat) (psn : Bool) : (Nat × Bool) × State :=
  let e := s.enterAs c (1001 + id) (BitVec.ofNat 64 v) psn
  ((e.1.1.toNat, e.1.2), e.2)

/-- Reads `n` bytes within one word: the value and its poison, as R77 delivers it. A value read through a Lomid channel is
the peer's: a free value here (log entry 4, DESIGN CHOICE), or by the oracle's choice none comes, and the access fault is raised 50 µs after
it was sent (R390). -/
def State.engRead (s : State) (c id n : Nat) (p : Spot') : Eng (Nat × Bool) :=
  let b := (s.getCore c).binding
  let give (s : State) (v : Nat) (psn : Bool) : Eng (Nat × Bool) :=
    let e := s.engEnter c id v psn
    .ok e.1 e.2
  match p with
  | .away => give s 0 false
  | .chip l =>
    let (ram, x) := s.bank l
    let d := deliver true 0 b.kclass (s.chipWorst l n) false
    let s := ((s.useBank l).noteChip b.part c l n).charge b.part d.charge c
    if d.fault then .stop (dataTrap 0) s else give s (ram.num x n) d.psn
  | .device va leaf pa =>
    match placeOf pa with
    | .none => .stop (accessTrap va) s
    | .peer ch =>
      let send (t : State) : State := t.send (.engineLoad ch (t.farVa ch va) n c id t.tick)
      if ((s.getCore c).cmd id).any fun m => m.lost.isSome then .stop (accessTrap va) s
      else if !s.channelOpen ch b.part then .stop (accessTrap va) s
      else if s.choice ≠ 0 then .hold fun t => (send t.chosen).modCmd c id fun m => { m with lost := some t.tick }
      else
        let s := send s.chosen
        give s.free.2 (s.free.1.toNat % 2 ^ (8 * n)) false
    | .host =>
      if s.hostDead then .stop (accessTrap va) s
      else if s.heldFor (clusterOf c) pa n then .hold fun t => t
      else if s.halvesReady leaf pa n false then give (s.touchHome c b.part leaf pa false) (s.host.num pa n) false
      else .hold fun t => t.askHalves .host false (halvesOf pa n)
    | .hbm =>
      if s.heldFor (clusterOf c) pa n then .hold fun t => t
      else if s.halvesReady leaf pa n false then
        let d := s.readDelivery (clusterOf c) leaf b.kclass pa n
        let s := (s.noteBad b.part c ((s.seenRam (clusterOf c) leaf pa n).worst pa n) pa n).charge b.part d.charge c
        if d.fault then .stop (dataTrap va) s
        else
          let v := ofBytes (s.readHbm (clusterOf c) leaf pa n)
          give (s.touchHome c b.part leaf pa false) (if d.zero then 0 else v) d.psn
      else .hold fun t => t.askHalves .hbm false (halvesOf pa n)

/-- Checks a store of `n` bytes with a poison bit at a place, and pauses it where a host-coherent half is not ready
(R124, R78, R357, R386). -/
def State.engCheck (s : State) (c n : Nat) (psn : Bool) (p : Spot') : Eng Unit :=
  let b := (s.getCore c).binding
  match p with
  | .chip _ => .ok () s
  | .away => .ok () s
  | .device va leaf pa =>
    match placeOf pa with
    | .none => .stop (accessTrap va) s
    | .peer _ => .ok () s
    | .host => if s.hostDead || s.halvesReady leaf pa n true then .ok () s else .hold fun t => t.askHalves .host true (halvesOf pa n)
    | .hbm =>
      if s.inFootprint pa n then .stop { code := 14, tval := va } s
      else if psn && leafClass leaf == 0 then .stop (dataTrap va) s
      else if s.lost.contains (pa / 128) && b.kclass == 0 && !(pa % 128 == 0 && n == 128) then .stop (dataTrap va) s
      else if s.wayAt (clusterOf c) pa n then .hold fun t => t
      else if s.halvesReady leaf pa n true then .ok () s
      else .hold fun t => t.askHalves .hbm true (halvesOf pa n)

/-- One store of the command is out (R239). -/
def State.cmdOut (s : State) (c id : Nat) : State := s.modCmd c id fun m => { m with out := m.out + 1 }

/-- Performs a checked store of an engine command: a store of the issuing member (R240, R275). In a replay only the core
scratchpad is written (R400). -/
def State.engWrite (s : State) (c id : Nat) (bs : List Byte) (psn : Bool) (p : Spot') : State :=
  let b := (s.getCore c).binding
  let n := bs.length
  match p with
  | .away => s
  | .chip l => (s.useBanks l n).bankStore l bs psn
  | .device va leaf pa =>
    let bad := psn && leafClass leaf == 1
    let st : StoreReq := ⟨.engine id, c, b.task, b.part, va, pa, bs, bad, leafHc leaf⟩
    match placeOf pa with
    | .none => s
    | .peer ch =>
      if s.channelOpen ch b.part then
        let s := { s with posted := s.posted ++ [(⟨ch, s.tick, { st with data := [], psn := false }⟩ : Posted)] }
        (s.cmdOut c id).send (.store ch (s.farVa ch va) bs s.tick)
      else s.failStore c va false
    | .host =>
      if s.hostDead then s.failStore c va false
      else (((s.makeIrrevocable b.part b.task).cmdOut c id).touchHome c b.part leaf pa true).postHost leaf { st with psn := false }
    | .hbm =>
      let s := if psn && leafClass leaf == 2 then s.charge b.part (64 * wordsTouched pa n) c else s
      let s := s.touchHome c b.part leaf pa true
      if leafType leaf == 1 then
        if s.lost.contains (pa / 128) && !(pa % 128 == 0 && n == 128) then s.charge b.part 64 c
        else s.writeDirty (clusterOf c) b.part b.task pa bs bad
      else
        let s := s.cmdOut c id
        if leafType leaf == 3 then s.sendReplica st else s.soon [.event (.storeAtHome st)]

/-- Folds an engine access over a list. -/
def engFold {α β : Type} (f : β → α → State → Eng β) : List α → β → State → Eng β
  | [], b, s => .ok b s
  | x :: rest, b, s => (f b x s).andThen fun b s => engFold f rest b s

/-- Reads `n` bytes from address `a`, word by word with `word`: the bytes, each with its word's poison. `fuel` bounds the words. -/
def State.engWords (s : State) (word : Word → Nat → State → Eng (Nat × Bool)) : Nat → Word → Nat → Eng (List (Byte × Bool))
  | 0, _, _ => .ok [] s
  | fuel + 1, a, n =>
    if n = 0 then .ok [] s
    else
      let k := min n (8 - a.toNat % 8)
      (word a k s).andThen fun v s =>
        (s.engWords word fuel (a + BitVec.ofNat 64 k) (n - k)).andThen fun rest s =>
          .ok ((toBytes k v.1).map (fun b => (b, v.2)) ++ rest) s

/-- Reads `n` bytes from an address of a space for command `id` of core `c`; the space is that of core `d`. -/
def State.engBytes (s : State) (c d id space : Nat) (a : Word) (n : Nat) : Eng (List (Byte × Bool)) :=
  s.engWords (fun a k s => (s.engPlace d id space a 0).andThen fun p s => s.engRead c id k p) (n / 8 + 2) a n

/-- Whether `n` bytes from offset `off` of a scratch level lie in it, spill space as its map serves it (R63, R75); device memory has
no such check. -/
def State.rangeOk (s : State) (c space : Nat) (off : Word) (n : Nat) : Bool :=
  let o := off.toNat
  space == 0 || n == 0 || (List.range ((o + n - 1) / 65536 - o / 65536 + 1)).all fun i =>
    s.scratchLoc c (s.getCore c).binding.part space (BitVec.ofNat 64 (max o (65536 * (o / 65536 + i)))) != .bad

/-- Elements of one row of bytes: bits and poison (R91 for packed INT4). -/
def unpack (w n : Nat) (bs : List (Byte × Bool)) : List (Nat × Bool) :=
  (List.range n).map fun k =>
    let piece := (bs.drop (k * w / 8)).take (max 1 (w / 8))
    let v := ofBytes (piece.map Prod.fst)
    (if w = 4 then v / 2 ^ (4 * (k % 2)) % 16 else v, piece.any Prod.snd)

/-- A run of bytes to be stored: where, the bytes, the poison. -/
structure Run where
  addr : Word
  data : List Byte
  psn : Bool
  deriving DecidableEq, Repr

/-- Adds bytes to a list of runs (latest first), joining them to the last where they follow it with the same poison within
one line. -/
def addRun (rs : List Run) (r : Run) : List Run :=
  match rs with
  | x :: rest =>
    if x.addr + BitVec.ofNat 64 x.data.length = r.addr ∧ x.psn = r.psn ∧ r.addr.toNat % 128 ≠ 0 then
      { x with data := x.data ++ r.data } :: rest
    else r :: x :: rest
  | [] => [r]

/-- Bytes from an address on as runs, a run for each stretch of one poison bit within a line. -/
def runsOf (a : Word) (bs : List (Byte × Bool)) : List Run :=
  ((List.range bs.length).zip bs).foldl (fun rs x => addRun rs ⟨a + BitVec.ofNat 64 x.1, [x.2.1], x.2.2⟩) [] |>.reverse

/-- Stores runs to a space: every run is placed and checked before any is written (R235, R240), so that a granule with a byte that
may not be stored, in a footprint (R124) or elsewhere, is not stored at all (log entry 102, DESIGN CHOICE). -/
def State.engStore (s : State) (c id space : Nat) (rs : List Run) : Eng Unit :=
  (engFold (fun l r s =>
    (s.engPlace c id space r.addr 1).andThen fun p s =>
      (s.engCheck c r.data.length r.psn p).andThen fun _ s => .ok (l ++ [(r, p)]) s) rs ([] : List (Run × Spot')) s).andThen
    fun l s =>
      let rest := s.agenda
      let s := l.foldl (fun s x =>
        let t := State.engWrite { s with agenda := [] } c id x.1.data x.1.psn x.2
        { t with agenda := s.agenda ++ t.agenda }) { s with agenda := [] }
      .ok () { s with agenda := s.agenda ++ rest }

end Sys2Proof.Machine
end

