-- ==== Sys2Proof/Machine/Markhor.lean ====
section
/-!
DEFINITION. Tile-steps (R241 to R246, R94, R95, R109) and the accumulator commands (R247 to R250).
-/

namespace Sys2Proof.Machine

/-! ### Tiles -/

/-- Tag of a tile-step's tile (R243, R246) or of an accumulator command's (R249). -/
def Cmd.tileTag (m : Cmd) : BitVec 4 :=
  match m.instr with
  | .momstep _ => 11
  | .mstep l => if l.fmt = 0 then 3 else if 6 ≤ l.fmt then 1 else 4
  | _ =>
    match m.long.fmt with
    | 0 => 3
    | 4 => 1
    | 5 => 11
    | _ => 4

/-- Whether a tag takes a pair of slots (R108, R243). -/
def pairTag (t : BitVec 4) : Bool := t == 3 || t == 11

/-- The slots of a command's tile. -/
def Cmd.tileSlots (m : Cmd) : List Nat :=
  let n := m.long.slot.toNat
  if pairTag m.tileTag then [n, n + 1] else [n]

/-- A slot of a core. -/
def Core.slot (k : Core) (n : Nat) : AccSlot := Store.get {} k.slots n

/-- A core with a slot replaced. -/
def Core.setSlot (k : Core) (n : Nat) (x : AccSlot) : Core := { k with slots := Store.set {} k.slots n x }

/-- The other slot of a pair that a one-slot tile breaks: zero, tagged F32 (R245, R249). -/
def Core.breakPair (k : Core) (n : Nat) (t : BitVec 4) : Core :=
  if !pairTag t && pairTag (k.slot n).tag then k.setSlot (n / 2 * 2 + (1 - n % 2)) {} else k

/-- A tile whose every cell is zero, with its tag. -/
def Core.zeroTile (k : Core) (m : Cmd) : Core :=
  m.tileSlots.foldl (fun k n => k.setSlot n { tag := m.tileTag, cells := [] }) (k.breakPair m.long.slot.toNat m.tileTag)

/-- The commands that feed a slot of a tile in the present cycle (R170). -/
def Core.feeders (k : Core) (slots : List Nat) : List Cmd :=
  k.cmds.filter fun m => m.started.isSome && m.active k.seq.mcc && match m.feeds with
    | some f => f.2.any slots.contains
    | none => false

/-- What a running command leaves of the tag of slot `n`: its tile's tag where the slot is in its tile; F32 on the other slot of a pair
that its one-slot tile breaks (R245, R249). -/
def Cmd.tagAfter (m : Cmd) (n : Nat) (t : BitVec 4) : BitVec 4 :=
  if m.tileSlots.contains n then m.tileTag else if pairTag t && !pairTag m.tileTag then 4 else t

/-- Commands in the order of their starts, with one more. -/
def insertCmd (m : Cmd) : List Cmd → List Cmd
  | [] => [m]
  | x :: rest => if x.begins ≤ m.begins then x :: insertCmd m rest else m :: x :: rest

/-! ### Tile-steps -/

/-- M, N, K and the number of repetitions (R241). -/
def Cmd.rows (m : Cmd) : Nat := m.rc.fld 15 0
/-- N. -/
def Cmd.cols (m : Cmd) : Nat := m.rc.fld 31 16
/-- K. -/
def Cmd.depth (m : Cmd) : Nat := m.rc.fld 47 32
/-- REP + 1. -/
def Cmd.repeats (m : Cmd) : Nat := m.rc.fld 55 48 + 1

/-- Bytes of an element of the memory image (R248). -/
def Cmd.imageElem (m : Cmd) : Nat :=
  match m.long.fmt with
  | 0 => 8
  | 5 => 8
  | 2 => 2
  | 3 => 2
  | _ => 4

/-- Whether it is `ACC.ZERO`, and whether it is `ACC.ST`. -/
def Cmd.isZero (m : Cmd) : Bool :=
  match m.instr with
  | .accZero _ => true
  | _ => false
/-- `ACC.ST` -/
def Cmd.isSt (m : Cmd) : Bool :=
  match m.instr with
  | .accSt _ => true
  | _ => false

/-- B of R250. -/
def Cmd.imageLen (m : Cmd) : Nat := if m.isZero then 0 else m.rows * m.cols * m.imageElem

/-- d of R250. -/
def Cmd.accCycles (m : Cmd) : Nat := 8 + ceilDiv m.imageLen 256

/-- Whether it is a `MOMSTEP`. -/
def Cmd.moment (m : Cmd) : Bool :=
  match m.instr with
  | .momstep _ => true
  | _ => false

/-- Slice length S (R243, R246). -/
def Cmd.sliceLen (m : Cmd) : Nat :=
  if m.moment then 2 else
  match m.long.fmt with
  | 0 => 1
  | 1 => 2
  | 2 => 8
  | 3 => 8
  | 7 => 32
  | _ => 16

/-- Cycles per slice. -/
def Cmd.pace (m : Cmd) : Nat := if m.moment then 2 else 1

/-- Slices per repetition. -/
def Cmd.slices (m : Cmd) : Nat := ceilDiv m.depth m.sliceLen

/-- Element widths of A and B in bits (R242). -/
def Cmd.widthA (m : Cmd) : Nat := if m.moment then 64 else fmtBits m.long.fmt
/-- wB. -/
def Cmd.widthB (m : Cmd) : Nat := if m.moment then 32 else fmtBits m.long.fmt

/-- Row pitch of A in bytes. -/
def Cmd.pitchA (m : Cmd) : Nat := ceilDiv (m.depth * m.widthA) 8
/-- Row pitch of B in bytes. -/
def Cmd.pitchB (m : Cmd) : Nat := ceilDiv (m.cols * m.widthB) 8

/-- Where repetition `i` reads A. -/
def Cmd.offA (m : Cmd) (i : Nat) : Nat := m.ra.toNat + i * m.rows * m.pitchA
/-- Where repetition `i` reads B. -/
def Cmd.offB (m : Cmd) (i : Nat) : Nat := m.rb.toNat + i * m.depth * m.pitchB

/-- The cycle s(i) of a tile-step that began on `start` (R244). -/
def Cmd.repCycle (m : Cmd) (start i : Nat) : Nat := start + m.pace * i * m.slices

/-- The cycle on which the tile-step retires. -/
def Cmd.tileEnd (m : Cmd) (start : Nat) : Nat := start + m.pace * m.repeats * m.slices + 16

/-- The cycle on which slice `j` of repetition `i` retires. -/
def Cmd.sliceCycle (m : Cmd) (start i j : Nat) : Nat := m.repCycle start i + m.pace * j + m.pace - 1 + 16

/-- An operand range lies below 0x2D_0000, aligned to its elements (R242). -/
def operandCheck (off n w top : Nat) : Option Trap :=
  if top < off + n then some (scratchTrap (BitVec.ofNat 64 off))
  else if off % max 1 (w / 8) ≠ 0 then some (alignTrap (BitVec.ofNat 64 off))
  else none

/-- `n` bytes of a scratch level, word by word, each with its word's poison or, in class P, its error (R77, R81). -/
def State.tileBytes (s : State) (c id level off n : Nat) : List (Byte × Bool) × State :=
  let b := (s.getCore c).binding
  (wordParts off n).foldl (fun x w =>
    let l := x.2.scratchLoc c b.part level (BitVec.ofNat 64 w.1)
    let r := x.2.bank l
    let d := deliver true 0 b.kclass (x.2.chipWorst l w.2) false
    let e := ((x.2.noteChip b.part c l w.2).charge b.part d.charge c).engEnter c id (r.1.num r.2 w.2) (d.psn || d.fault)
    (x.1 ++ (toBytes w.2 e.1.1).map (fun v => (v, e.1.2)), e.2)) ([], s)

/-- The elements of `rows` rows of `n`, row by row. -/
def State.tileOperand (s : State) (c id level off rows pitch w n : Nat) : List (Nat × Bool) × State :=
  let r := s.tileBytes c id level off (rows * pitch)
  ((List.range rows).flatMap fun y => unpack w n ((r.1.drop (y * pitch)).take pitch), r.2)

/-- Repetition `i` starts: its readiness and its ranges are checked and its operands read (R242, R244). -/
def State.startRep (s : State) (c : Nat) (m : Cmd) (i : Nat) : State :=
  let a := m.offA i
  let b := m.offB i
  let na := m.rows * m.pitchA
  let nb := m.depth * m.pitchB
  if m.long.chv && !(s.ready c 1 m.chan a (a + na) && s.ready c 1 m.chan b (b + nb)) then s.stopCmd c m.id timingTrap
  else
    match operandCheck a na m.widthA 0x2D0000, operandCheck b nb m.widthB 0x2D0000 with
    | some t, _ => s.stopCmd c m.id t
    | _, some t => s.stopCmd c m.id t
    | none, none =>
      let x := s.tileOperand c m.id 1 a m.rows m.pitchA m.widthA m.depth
      let y := x.2.tileOperand c m.id 1 b m.depth m.pitchB m.widthB m.cols
      y.2.modCmd c m.id fun m => { m with reps := Store.set {} m.reps i ⟨x.1, y.1⟩ }

/-- The tag that a slot will carry when the first slice of a tile-step is applied in cycle `first`, once the running commands on its pair
have acted, in the order of their starts (R245); an accumulator command whose cells come no sooner has not. -/
def Core.comingTag (k : Core) (n first : Nat) : BitVec 4 :=
  let fs := (k.feeders [n / 2 * 2, n / 2 * 2 + 1]).filter fun m =>
    m.engine != .accum || decide (m.started.getD 0 + m.accCycles - 1 < first)
  (fs.foldl (fun l m => insertCmd m l) []).foldl (fun t m => m.tagAfter n t) (k.slot n).tag

/-- A tile-step starts (R244, R245): the array busy, a slot fed by the accumulator engine, the tag; then repetition 0. -/
def State.startTile (s : State) (c : Nat) (m : Cmd) : State :=
  let k := s.getCore c
  let now := k.seq.mcc.toNat
  if decide (now < k.arrayFree) || (k.feeders m.tileSlots).any fun x => x.id != m.id && x.engine == .accum then
    s.stopCmd c m.id timingTrap
  else if !m.long.z && (State.getCore (s.modCmd c m.id fun x => { x with started := none }) c).comingTag m.long.slot.toNat (m.sliceCycle now 0 0) != m.tileTag then
    s.stopCmd c m.id { code := 9 }
  else (s.modCore c fun k => { k with arrayFree := now + m.pace * m.repeats * m.slices }).startRep c m 0

/-- R244, R245: `.Z` zeroes the tile in cycle start + 15. -/
def execEvMstepZeroing (core cmd : Nat) (s : State) : Result :=
  match (s.getCore core).cmd cmd with
  | none => .next s
  | some m =>
    if m.engine == .markhor && m.long.z && m.started.isSome then .next (s.modCore core fun k => k.zeroTile m) else .next s

/-- The operand format's floating-point format (R243). -/
def tileFp (f : Nat) : Fp.Fmt := Fp.ofCode (f + 3)

/-- Elements `lo` to `hi - 1` of the products of a cell: the pairs of A and B. -/
def RepData.pairs (d : RepData) (m : Cmd) (lo hi y x : Nat) : List ((Nat × Bool) × (Nat × Bool)) :=
  (List.range (hi - lo)).map fun i =>
    (d.a.getD (y * m.depth + lo + i) (0, false), d.b.getD ((lo + i) * m.cols + x) (0, false))

/-- An integer operand code (R243). -/
def tileCode (m : Cmd) (v : Nat) : Int := if m.long.x then sextInt m.widthA v else (v : Int)

/-- One plane's sum: the accumulator plus the products, formed exactly and rounded once (R94). -/
def sliceSum (f : Fp.Fmt) (acc : Nat) (ps : List Fp.Val) : Nat := Fp.rn f (Fp.sumV (Fp.decode f acc :: ps))

/-- What a slice does to a cell: the new values of the even and odd slot (R94, R95, R109), or a moment fault (R106). -/
def sliceCell (m : Cmd) (lo hi : Nat) (ps : List (Nat × Nat)) : Option (Nat × Nat) :=
  match m.tileTag with
  | 1 => some (wrapNat 32 (satInt 32 (sextInt 32 lo + (ps.map fun p => tileCode m p.1 * tileCode m p.2).foldl (· + ·) 0)), hi)
  | 3 =>
    let r := sliceSum Fp.f64 (lo + hi * 2 ^ 32) (ps.map fun p => (Fp.decode Fp.f64 p.1).mul (Fp.decode Fp.f64 p.2))
    some (r % 2 ^ 32, r / 2 ^ 32)
  | 11 =>
    let xs := ps.map fun p => (checkVar m.long.x (momentOf 11 (BitVec.ofNat 64 p.1)), Fp.v32 p.2)
    if xs.any fun x => match x.1 with
      | .ok _ => false
      | .error _ => true then none
    else
      let ys := xs.map fun x => (match x.1 with
        | .ok y => y
        | .error _ => ⟨0, 0⟩, x.2)
      let mu := sliceSum Fp.f32 lo (ys.map fun y => (Fp.v32 y.1.mu).mul y.2)
      let v := plusZero (sliceSum Fp.f32 hi (ys.map fun y => (Fp.v32 y.1.v).mul (y.2.mul y.2)))
      if negVar v then (if m.long.x then some (mu, 0) else none) else some (mu, v)
  | _ =>
    let f := tileFp m.long.fmt
    some (sliceSum Fp.f32 lo (ps.map fun p => (Fp.decode f p.1).mul (Fp.decode f p.2)), hi)

/-- R244: slice `j` of repetition `i` retires: every cell takes its update. A bad element in class P, or a moment fault,
stops the command with none of the slice applied (R235, R246); where one slice meets both, the data error is raised (log entry 101,
DESIGN CHOICE). -/
def execEvTileStepSliceRetire (core cmd rep slice : Nat) (s : State) : Result :=
  match (s.getCore core).cmd cmd with
  | none => .next s
  | some m =>
    if m.engine != .markhor || m.started.isNone then .next s
    else
      let k := s.getCore core
      let d := Store.get {} m.reps rep
      let lo := slice * m.sliceLen
      let hi := min m.depth (lo + m.sliceLen)
      let n := m.long.slot.toNat
      let even := k.slot n
      let odd := if pairTag m.tileTag then k.slot (n + 1) else {}
      let cells := (List.range m.rows).flatMap fun y => (List.range m.cols).map fun x =>
        let ps := d.pairs m lo hi y x
        let i := 32 * y + x
        (i, ps.any (fun p => p.1.2 || p.2.2),
          sliceCell m (Store.get {} even.cells i).bits.toNat (Store.get {} odd.cells i).bits.toNat
            (ps.map fun p => (p.1.1, p.2.1)))
      if k.binding.kclass == 0 && cells.any fun x => x.2.1 then .next (s.stopCmd core cmd (dataTrap 0))
      else if cells.any fun x => x.2.2.isNone then .next (s.stopCmd core cmd momentTrap)
      else
        let put (pick : Nat × Nat → Nat) (sl : AccSlot) : AccSlot :=
          { sl with cells := cells.foldl (fun st x =>
              let old := Store.get {} st x.1
              Store.set {} st x.1 ⟨BitVec.ofNat 32 (pick (x.2.2.getD (0, 0))), old.psn || x.2.1⟩) sl.cells }
        let k := k.setSlot n (put Prod.fst even)
        .next (s.setCore core (if pairTag m.tileTag then k.setSlot (n + 1) (put Prod.snd odd) else k))

/-- R244: a tile-step retires. -/
def execEvTileStepRetire (core cmd : Nat) (s : State) : Result :=
  match (s.getCore core).cmd cmd with
  | none => .next s
  | some m => if m.engine == .markhor && m.started.isSome then .next (s.retireCmd core cmd) else .next s

/-! ### Accumulator commands -/

/-- Top of a level's banks. -/
def levelTop (level : Nat) : Nat := if level = 1 then 0x2D0000 else 0x5A0000

/-- The bits an element of the image has for a cell (R249): with the two planes of the pair. -/
def cellOut (fmt lo hi : Nat) : Nat :=
  match fmt with
  | 0 => lo + hi * 2 ^ 32
  | 5 => lo * 2 ^ 32 + hi
  | 2 => Fp.rn Fp.bf16 (Fp.v32 lo)
  | 3 => Fp.rn Fp.f16 (Fp.v32 lo)
  | _ => lo

/-- The cells an element of the image gives. -/
def cellIn (fmt v : Nat) : Nat × Nat :=
  match fmt with
  | 0 => (v % 2 ^ 32, v / 2 ^ 32)
  | 5 => (v / 2 ^ 32, v % 2 ^ 32)
  | 2 => (widen32 Fp.bf16 (BitVec.ofNat 64 v), 0)
  | 3 => (widen32 Fp.f16 (BitVec.ofNat 64 v), 0)
  | _ => (v, 0)

/-- The tile as the image of `ACC.ST`: elements row by row, with their poison. -/
def Core.tileImage (k : Core) (m : Cmd) : List (Nat × Bool) :=
  let n := m.long.slot.toNat
  let odd := if pairTag m.tileTag then k.slot (n + 1) else {}
  (List.range m.rows).flatMap fun y => (List.range m.cols).map fun x =>
    let a := Store.get {} (k.slot n).cells (32 * y + x)
    let b := Store.get {} odd.cells (32 * y + x)
    (cellOut m.long.fmt a.bits.toNat b.bits.toNat, a.psn || b.psn)

/-- An accumulator command starts (R248 to R250). -/
def State.startAcc (s : State) (c : Nat) (m : Cmd) : State :=
  let k := s.getCore c
  let off := m.ra.toNat
  let lv := m.long.low
  if (k.feeders m.tileSlots).any fun x => x.id != m.id then s.stopCmd c m.id timingTrap false
  else if m.isZero then s
  else if m.isSt && m.delivers && (Store.get wpReset k.wp m.chan).bit 61 then s.stopCmd c m.id timingTrap false
  else if !m.isSt && m.long.chv && !s.ready c lv m.chan off (off + m.imageLen) then s.stopCmd c m.id timingTrap false
  else
    let s := if m.delivers then s.modWp c m.chan fun _ => wpStart lv off else s
    match operandCheck off m.imageLen (8 * m.imageElem) (levelTop lv) with
    | some t => s.stopCmd c m.id t
    | none =>
      if m.isSt then
        if (k.slot m.long.slot.toNat).tag != m.tileTag then s.stopCmd c m.id { code := 9 }
        else s.modCmd c m.id fun x => { x with data := k.tileImage m }
      else
        let x := s.tileOperand c m.id lv off m.rows (m.cols * m.imageElem) (8 * m.imageElem) m.cols
        if k.binding.kclass == 0 && x.1.any fun v => v.2 then x.2.stopCmd c m.id (dataTrap 0)
        else x.2.modCmd c m.id fun y => { y with data := x.1 }

/-- The tile after `ACC.LD` (R249): when the tag changes, the other cells become zero. -/
def Core.loadTile (k : Core) (m : Cmd) : Core :=
  let n := m.long.slot.toNat
  let k := if (k.slot n).tag = m.tileTag then k else k.zeroTile m
  let put (k : Core) (n i : Nat) (v : Nat) (psn : Bool) : Core :=
    k.setSlot n { k.slot n with cells := Store.set {} (k.slot n).cells i ⟨BitVec.ofNat 32 v, psn⟩ }
  ((List.range m.data.length).zip m.data).foldl (fun k x =>
    let i := 32 * (x.1 / m.cols) + x.1 % m.cols
    let v := cellIn m.long.fmt x.2.1
    let k := put k n i v.1 x.2.2
    if pairTag m.tileTag then put k (n + 1) i v.2 x.2.2 else k) k

/-- R250: in cycle start + d − 1 the cells of `ACC.ZERO` and `ACC.LD` take their values, and the last granules of `ACC.ST`
land. -/
def execEvAccCellsWritten (core cmd : Nat) (s : State) : Result :=
  match (s.getCore core).cmd cmd with
  | none => .next s
  | some m =>
    if m.engine != .accum || m.started.isNone then .next s
    else if m.isZero then .next (s.modCore core fun k => k.zeroTile m)
    else if m.isSt then
      let bs := m.data.flatMap fun v => (toBytes m.imageElem v.1).map fun b => (b, v.2)
      match s.engStore core cmd m.long.low (runsOf m.ra bs) with
      | .hold f => .next (f s)
      | .stop t s => .next (s.stopCmd core cmd t)
      | .ok _ s => .next (s.landed core m (m.ra.toNat + m.imageLen) true)
    else .next (s.modCore core fun k => k.loadTile m)

/-- R250: an accumulator command retires in cycle start + d. -/
def execEvAccCommandRetire (core cmd : Nat) (s : State) : Result :=
  match (s.getCore core).cmd cmd with
  | none => .next s
  | some m => if m.engine == .accum && m.started.isSome then .next (s.retireCmd core cmd) else .next s

end Sys2Proof.Machine
end

