-- ==== Sys2Proof/Machine/Serow.lean ====
section
/-!
DEFINITION. Serow copies (R237 to R240): addresses, the pages their registers fix, granules and retirement.
-/

namespace Sys2Proof.Machine

/-- Space of the destination: 0 device, 1 to 3 the scratch levels. -/
def Cmd.dst (m : Cmd) : Nat := m.long.dstSpace
/-- Space of the source. -/
def Cmd.src (m : Cmd) : Nat := m.long.srcSpace

/-- Whether the copy goes through an index list, and whether the list names the destination. -/
def Cmd.indexed (m : Cmd) : Option Bool :=
  match m.instr with
  | .sgath _ => some false
  | .sscat _ => some true
  | _ => none

/-- Bytes of an indexed element (R238). -/
def Cmd.elemSize (m : Cmd) : Nat := 2 ^ m.rc.fld 50 48

/-- Bytes that the copy moves (R239). -/
def Cmd.total (m : Cmd) : Nat :=
  match m.instr with
  | .sstrd _ => m.rc.fld 39 20 * m.rc.fld 19 0
  | .sgath _ => m.rc.fld 47 28 * m.elemSize
  | .sscat _ => m.rc.fld 47 28 * m.elemSize
  | _ => m.rc.toNat

/-- The source pitch of the stride word, signed. -/
def stridePitch (rc : Word) : Int := sextInt 24 (rc.fld 63 40)

/-- Word `i` of the index list, in the core scratchpad; a poisoned one is a data error (R78). -/
def State.copyIndex (s : State) (c : Nat) (m : Cmd) (i : Nat) : Eng Nat :=
  let off := BitVec.ofNat 64 (m.rc.fld 27 0 + 4 * i)
  (s.engPlace c m.id 1 off 0).andThen fun p s =>
    (s.engRead c m.id 4 p).andThen fun v s => if v.2 then .stop (dataTrap 0) s else .ok v.1 s

/-- Byte `k` of the copy: its source and destination addresses, and how many bytes follow on both sides. -/
def State.copyByte (s : State) (c : Nat) (m : Cmd) (k : Nat) : Eng (Word × Word × Nat) :=
  let wd (n : Nat) : Word := BitVec.ofNat 64 n
  match m.indexed with
  | none =>
    match m.instr with
    | .sstrd _ =>
      let rb := m.rc.fld 19 0
      .ok (m.rb + wrap64 ((k / rb : Nat) * stridePitch m.rc) + wd (k % rb), m.ra + wd k, rb - k % rb) s
    | _ => .ok (m.rb + wd k, m.ra + wd k, m.total - k) s
  | some scatter =>
    let e := m.elemSize
    (s.copyIndex c m (k / e)).andThen fun i s =>
      let far := wd (i * e + k % e)
      if scatter then .ok (m.rb + wd k, m.ra + far, e - k % e) s else .ok (m.rb + far, m.ra + wd k, e - k % e) s

/-- The pages, as (address, KIND), of `n` bytes of device memory. -/
def pagesFrom (a : Word) (n kind : Nat) : List (Word × Nat) :=
  (List.range (if n = 0 then 0 else (a.toNat % 65536 + n + 65535) / 65536)).map fun i =>
    (if i = 0 then a else BitVec.ofNat 64 ((a.toNat / 65536 + i) * 65536), kind)

/-- The device pages that the registers fix (R240). -/
def Cmd.fixedPages (m : Cmd) : List (Word × Nat) :=
  let n := m.total
  let src := if m.src ≠ 0 ∨ m.indexed = some false then [] else
    match m.instr with
    | .sstrd _ => (List.range (m.rc.fld 39 20)).flatMap fun (r : Nat) =>
        pagesFrom (m.rb + wrap64 (r * stridePitch m.rc)) (m.rc.fld 19 0) 0
    | _ => pagesFrom m.rb n 0
  let dst := if m.dst ≠ 0 ∨ m.indexed = some true then [] else pagesFrom m.ra n 1
  (src ++ dst).foldl (fun l p => if l.any fun q => q.1.toNat / 65536 == p.1.toNat / 65536 && q.2 == p.2 then l else l ++ [p]) []

/-- Translates pages, making the request of each that is missing; the classes of those in HBM, and whether every page is
there (R240). -/
def State.engPages (s : State) (c id : Nat) : List (Word × Nat) → List Nat → Bool → Eng (List Nat × Bool)
  | [], cs, all => .ok (cs, all) s
  | (va, kind) :: rest, cs, all =>
    match s.engXlate c id va kind with
    | .ok x s =>
      s.engPages c id rest (if placeOf x.2 = .hbm && !cs.contains (leafClass x.1) then cs ++ [leafClass x.1] else cs) all
    | .hold f => if s.replays c then s.engPages c id rest cs all else (f s).engPages c id rest cs false
    | .stop t s => .stop t s

/-- Whether the form raises class faults (R79): a copy between two device ranges that is not class-crossing. -/
def Cmd.classChecked (m : Cmd) : Bool :=
  m.src == 0 && m.dst == 0 && match m.instr with
    | .sxcopy _ => false
    | _ => true

/-- The fixed pages of a copy are translated, and their classes checked before any byte is written (R240). -/
def State.copyPages (s : State) (c : Nat) (m : Cmd) : Eng Bool :=
  if m.checked then .ok true s else
  (s.engPages c m.id m.fixedPages [] true).andThen fun r s =>
    if !r.2 then .ok false s
    else if m.classChecked && decide (1 < r.1.length) then .stop classTrap s
    else .ok true (s.modCmd c m.id fun m => { m with checked := true, classes := r.1 })

/-- The class check of the pages that `n` bytes of an indexed element lie in (R240). -/
def State.reachedClass (s : State) (c : Nat) (m : Cmd) (a : Word) (n : Nat) (scatter : Bool) : Eng Unit :=
  if m.classChecked && !s.replays c then
    let cs := match (s.getCore c).cmd m.id with
      | some m => m.classes
      | none => []
    engFold (fun _ p s => (s.engXlate c m.id p.1 p.2).andThen fun x s =>
      if placeOf x.2 = .hbm && !cs.isEmpty && cs != [leafClass x.1] then .stop classTrap s else .ok () s)
      (pagesFrom a n (if scatter then 1 else 0)) () s
  else .ok () s

/-- The bytes of a copy from the k-th up to `k1`, as runs; `fuel` bounds the pieces. -/
def State.copyRuns' (s : State) (c : Nat) (m : Cmd) (k1 : Nat) : Nat → Nat → List Run → Eng (List Run)
  | 0, _, rs => .ok rs s
  | fuel + 1, k, rs =>
    if k1 ≤ k then .ok rs s
    else
      (s.copyByte c m k).andThen fun x s =>
        let n := min x.2.2 (k1 - k)
        let checked : Eng Unit := match m.indexed with
          | some scatter => s.reachedClass c m (if scatter then x.2.1 else x.1) n scatter
          | none => .ok () s
        checked.andThen fun _ s =>
          (s.engBytes c c m.id m.src x.1 n).andThen fun bs s =>
            let rs := ((List.range bs.length).zip bs).foldl
              (fun rs b => addRun rs ⟨x.2.1 + BitVec.ofNat 64 b.1, [b.2.1], b.2.2⟩) rs
            s.copyRuns' c m k1 fuel (k + n) rs

/-- One granule of a copy, with bytes `k` up to `k1` (R70, R239), once the banks that it uses serve it (R65). -/
def State.copyGranule (s : State) (c : Nat) (m : Cmd) (k k1 : Nat) : Eng Unit :=
  s.engBanks fun s => (s.copyRuns' c m k1 130 k []).andThen fun rs s => s.engStore c m.id m.dst rs.reverse

/-- Whether the scratch ranges that the registers fix lie in their levels: the list of indices, and each side that no index reaches
(R63). -/
def State.copyRange (s : State) (c : Nat) (m : Cmd) : Bool :=
  (m.indexed.isNone || s.rangeOk c 1 (BitVec.ofNat 64 (m.rc.fld 27 0)) (4 * m.rc.fld 47 28))
    && (m.indexed == some true || s.rangeOk c m.dst m.ra m.total)
    && (m.indexed == some false || match m.instr with
      | .sstrd _ => m.src == 0 || (List.range (m.rc.fld 39 20)).all fun (r : Nat) =>
          s.rangeOk c m.src (m.rb + wrap64 (r * stridePitch m.rc)) (m.rc.fld 19 0)
      | _ => s.rangeOk c m.src m.rb m.total)

/-- A copy starts (R70, R71, R236): a busy channel is a timing fault; the pointer is set; a copy of no bytes retires; a range outside
its level is a scratch-range fault, with nothing written (R63). An offset that an index gives is checked when the copy reaches it
(R239; log entry 22). -/
def State.startCopy (s : State) (c : Nat) (m : Cmd) : State :=
  if (Store.get wpReset (s.getCore c).wp m.chan).bit 61 then s.stopCmd c m.id timingTrap false
  else
    let s := s.modWp c m.chan fun _ => wpStart m.dst m.ra.toNat
    if m.total = 0 then s.retireCmd c m.id
    else if !s.copyRange c m then s.stopCmd c m.id (scratchTrap 0)
    else (s.copyPages c m).finish s c m.id

/-- R239: a copy retires: its last byte is written and, in device memory, acknowledged and performed at device scope
(R275). -/
def execEvCopyRetire (core cmd : Nat) (s : State) : Result :=
  match (s.getCore core).cmd cmd with
  | none => .next s
  | some m =>
    if m.engine == .serow && m.started.isSome && m.done == m.total && m.out == 0 then
      let s := if m.dst = 0 then s.push (clusterOf core) fun _ => true else s
      .next (s.retireCmd core cmd)
    else .next s

/-- R70, R71: a granule of a copy lands, in increasing order, unless a page request or a range conflict pauses the copy or
the oracle puts it off: copy rates are not fixed (R240). -/
def execEvCopyGranuleLands (core cmd : Nat) (s : State) : Result :=
  match (s.getCore core).cmd cmd with
  | none => .next s
  | some m =>
    if m.engine != .serow || m.started.isNone || s.cmdWaits core m || decide (m.total ≤ m.done) then .next s
    else if s.choice ≠ 0 then .next s.chosen
    else
      match s.chosen.copyPages core m with
      | .hold f => .next (f s.chosen)
      | .stop t s => .next (s.stopCmd core cmd t)
      | .ok false s => .next s
      | .ok true s =>
        let k1 := min m.total (m.done + 128)
        match s.copyGranule core m m.done k1 with
        | .hold f => .next (f s)
        | .stop t s => .next (s.stopCmd core cmd t)
        | .ok _ s =>
          let s := s.modCmd core cmd fun m => { m with done := k1 }
          let s := if m.dst = 0 then s else s.landed core m (m.ra.toNat + k1) (k1 == m.total)
          .next (if k1 = m.total then s.later [.event (.copyRetire core cmd)] else s)

end Sys2Proof.Machine
end

