-- ==== Sys2Proof/Machine/Tahr.lean ====
section
/-!
DEFINITION. Tahr commands (R251 to R255): the source pages, `TMV`, `TSEL`, `TRED`, and the landing of their results.
-/

namespace Sys2Proof.Machine

/-- Destination offset of the results (R252). -/
def Cmd.yoff (m : Cmd) : Nat := m.rb.fld 59 32
/-- Offset of the vector x in the chip scratchpad (R252). -/
def Cmd.xoff (m : Cmd) : Nat := m.rb.fld 27 0

/-- Bytes of `n` packed elements of the source format. -/
def Cmd.packed (m : Cmd) (n : Nat) : Nat := ceilDiv (n * fmtBits m.long.fmt) 8

/-- The rows of the source: their number, their elements, and their pitch in bytes. -/
def Cmd.source (m : Cmd) : Nat × Nat × Nat :=
  match m.instr with
  | .tmv _ => (m.rc.fld 23 0, m.rc.fld 39 24, 16 * m.rc.fld 63 40)
  | .tsel _ => (1, m.rc.fld 23 0, m.packed (m.rc.fld 23 0))
  | _ => (m.rc.fld 47 24, m.rc.fld 23 0, m.packed (m.rc.fld 23 0))

/-- Bytes of one result. -/
def Cmd.resultSize (m : Cmd) : Nat :=
  match m.instr with
  | .tmv _ => 4
  | .tsel _ => 8
  | _ => if m.long.fmt = 0 ∨ m.long.fmt = 6 then 8 else 4

/-- Bytes of the header before the results. -/
def Cmd.headerSize (m : Cmd) : Nat :=
  match m.instr with
  | .tsel _ => 16
  | _ => 0

/-- Reads a word of the source at its home: no older than the last store performed at device scope (R251), under its page's class
(R77). -/
def State.tahrWord (s : State) (c id : Nat) (a : Word) (n : Nat) : Eng (Nat × Bool) :=
  let b := (s.getCore c).binding
  if s.replays c then
    let e := s.engEnter c id 0 false
    .ok e.1 e.2
  else
  (s.engXlate c id a 0).andThen fun x s =>
    let leaf := x.1
    let pa := x.2
    if s.heldFor (clusterOf c) pa n then .hold fun t => t
    else if !s.halvesReady leaf pa n false then .hold fun t => t.askHalves .hbm false (halvesOf pa n)
    else
      let r := s.homeRange (leafClass leaf) b.kclass pa n
      let s := ((s.noteBad b.part c (s.hbm.worst pa n) pa n).charge b.part r.2.charge c).touchLine false 0 0 leaf (pa / 128)
      if r.2.fault then .stop (dataTrap a) s
      else
        let e := s.engEnter c id (ofBytes r.1) r.2.psn
        .ok e.1 e.2

/-- The rows of the source (R251). -/
def State.tahrSource (s : State) (c : Nat) (m : Cmd) : Eng (List (List (Nat × Bool))) :=
  let (rows, n, pitch) := m.source
  engFold (fun l y s =>
    let len := m.packed n
    (s.engWords (fun a k s => s.tahrWord c m.id a k) (len / 8 + 2) (m.ra + BitVec.ofNat 64 (y * pitch)) len).andThen fun bs s =>
      .ok (l ++ [unpack (fmtBits m.long.fmt) n bs]) s) (List.range rows) [] s

/-- Cuts a list into slices of `n`. -/
def slicesOf {α : Type} (n : Nat) : Nat → List α → List (List α)
  | 0, _ => []
  | fuel + 1, l => if l.isEmpty then [] else l.take n :: slicesOf n fuel (l.drop n)

/-- Elements in 128 bytes of the source format (R253). -/
def Cmd.lineElems (m : Cmd) : Nat := 1024 / fmtBits m.long.fmt

/-- A value of the source format, widened exactly. -/
def Cmd.value (m : Cmd) (v : Nat) : Fp.Val := Fp.decode (tileFp' m.long.fmt) v
where
  /-- The float format of an operand code. -/
  tileFp' (f : Nat) : Fp.Fmt := Fp.ofCode (f + 3)

/-- A signed integer code of the source format. -/
def Cmd.code (m : Cmd) (v : Nat) : Int := sextInt (fmtBits m.long.fmt) v

/-- One element of `TMV`'s result (R253). -/
def Cmd.dot (m : Cmd) (row x : List (Nat × Bool)) : Nat :=
  let ps := slicesOf m.lineElems (row.length + 1) (row.zip x)
  if 6 ≤ m.long.fmt then
    wrapNat 32 (ps.foldl (fun y sl =>
      satInt 32 (y + (sl.map fun p => m.code p.1.1 * m.code p.2.1).foldl (· + ·) 0)) 0)
  else
    ps.foldl (fun y sl => Fp.rn Fp.f32 (Fp.sumV (Fp.v32 y :: sl.map fun p => (m.value p.1.1).mul (m.value p.2.1)))) 0

/-- A source element of `TSEL` or `TRED` as binary32 bits, or an I32 (R254). An F32 element is its own bits, a NaN's payload with it;
a NaN of another format becomes the canonical one (log entry 99, DESIGN CHOICE). -/
def Cmd.wide (m : Cmd) (v : Nat) : Nat :=
  if m.long.fmt = 6 then wrapNat 32 (m.code v)
  else if m.long.fmt = 1 then v
  else Fp.rn Fp.f32 (m.value v)

/-- Whether "v cond t" holds (R254, R175). -/
def Cmd.selects (m : Cmd) (v : Nat) : Bool :=
  let t := m.rc.fld 63 32
  let cc := m.rc.fld 26 24
  if m.long.fmt = 6 then
    let x := sextInt 32 v
    let y := sextInt 32 t
    match cc with
    | 0 => x == y
    | 1 => x != y
    | 2 => decide (x < y)
    | 3 => decide (x ≤ y)
    | 4 => decide (y < x)
    | _ => decide (y ≤ x)
  else floatCond cc (Fp.v32 v) (Fp.v32 t)

/-- A reduced row (R255): SUM, MAX, MIN or SUMSQ. -/
def Cmd.reduce (m : Cmd) (row : List (Nat × Bool)) : Nat :=
  let op := m.rc.fld 49 48
  let vs := row.map Prod.fst
  if m.long.fmt = 6 then
    let is := vs.map m.code
    let first := is.headD 0
    wrapNat 64 (match op with
      | 0 => is.foldl (· + ·) 0
      | 1 => is.foldl max first
      | 2 => is.foldl min first
      | _ => (is.map fun i => i * i).foldl (· + ·) 0)
  else
    let f := if m.long.fmt = 0 then Fp.f64 else Fp.f32
    if op = 1 ∨ op = 2 then
      let bits := vs.map fun v => if m.long.fmt = 0 then v else m.wide v
      if bits.any fun b => (Fp.decode f b).isNan then f.nanBits
      else bits.foldl (fun a b =>
        let lt := Fp.totalLt (Fp.decode f a) (Fp.decode f b)
        if op = 1 then (if lt then b else a) else (if lt then a else b)) (bits.headD 0)
    else
      (slicesOf m.lineElems (vs.length + 1) vs).foldl (fun y sl =>
        Fp.rn f (Fp.sumV (Fp.decode f y :: sl.map fun v =>
          if op = 0 then m.value v else (m.value v).mul (m.value v)))) 0

/-- The results of a Tahr command from its source, and for `TMV` its vector; those of `TSEL` are its records. -/
def Cmd.results (m : Cmd) (rows : List (List (Nat × Bool))) (x : List (Nat × Bool)) : List (Nat × Bool) :=
  match m.instr with
  | .tmv _ => rows.map fun r => (m.dot r x, (r ++ x).any Prod.snd)
  | .tsel _ =>
    let row := rows.headD []
    ((List.range row.length).zip row).filterMap fun e =>
      let v := m.wide e.2.1
      if m.selects v then some (e.1 + v * 2 ^ 32, e.2.2) else none
  | _ => rows.map fun r => (m.reduce r, r.any Prod.snd)

/-- The device pages of the source. -/
def Cmd.tahrPages (m : Cmd) : List (Word × Nat) :=
  let (rows, n, pitch) := m.source
  ((List.range rows).flatMap fun y => pagesFrom (m.ra + BitVec.ofNat 64 (y * pitch)) (m.packed n) 0).foldl
    (fun l p => if l.any fun q => q.1.toNat / 65536 == p.1.toNat / 65536 then l else l ++ [p]) []

/-- Every source page is homed in the device's own HBM, or the access fault (R251). -/
def State.ownPages (s : State) (c id : Nat) : List (Word × Nat) → Bool → Eng Bool
  | [], all => .ok all s
  | (va, kind) :: rest, all =>
    match s.engXlate c id va kind with
    | .ok x s => if placeOf x.2 = .hbm then s.ownPages c id rest all else .stop (accessTrap va) s
    | .hold f => if s.replays c then s.ownPages c id rest all else (f s).ownPages c id rest false
    | .stop t s => .stop t s

/-- The Tahr slices that a command needs: those of its source's stacks, by their islands (R406). -/
def State.tahrSlices (s : State) (c : Nat) (m : Cmd) : List Nat :=
  let (rows, n, pitch) := m.source
  let len := (rows - 1) * pitch + m.packed n
  (List.range (len / 65536 + 2)).filterMap fun i =>
    (s.walk (s.getCore c).binding.part (m.ra.toNat + min (65536 * i) len)).map fun x =>
      52 + Config.stackOf ((leafPa x.1 + (m.ra.toNat + min (65536 * i) len) % x.2) / 2 ^ 21) % 8

/-- The gated Tahr slices that a command needs begin to ungate (R406); the wait is part of its duration (R251). -/
def State.wakeTahr (s : State) (c : Nat) (m : Cmd) : State :=
  (s.tahrSlices c m).foldl (fun s i =>
    if (s.isl i).fld 31 30 = 1 then s.setIsl i (((s.isl i).put 0 0 0).put 31 30 2) else s) s

/-- Whether every slice that a command needs is on, and none is changing. -/
def State.tahrAwake (s : State) (c : Nat) (m : Cmd) : Bool :=
  (s.tahrSlices c m).all fun i => (s.isl i).fld 31 30 != 1 && (s.isl i).fld 31 30 != 2

/-- The source is translated, then read once its slices are on, and the results formed, none of which is stored where they do not all fit
in their level (R63, R251; log entry 22). -/
def State.tahrRead (s : State) (c : Nat) (m : Cmd) : Eng Bool :=
  if m.checked then .ok (s.tahrAwake c m) (s.wakeTahr c m) else
  (s.ownPages c m.id m.tahrPages true).andThen fun all s =>
    if !all then .ok false s
    else if !s.tahrAwake c m then .ok false (s.wakeTahr c m)
    else
      let vector : Eng (List (Nat × Bool)) := match m.instr with
        | .tmv _ =>
          let k := m.rc.fld 39 24
          let len := m.packed k
          (s.engBytes c c m.id 3 (BitVec.ofNat 64 m.xoff) len).andThen fun bs s =>
            .ok (unpack (fmtBits m.long.fmt) k bs) s
        | _ => .ok [] s
      vector.andThen fun x s => (s.tahrSource c m).andThen fun rows s =>
        let rs := m.results rows x
        let head : List (Nat × Bool) := match m.instr with
          | .tsel _ => [(rs.length, (rows.headD []).any Prod.snd), (0, false)]
          | _ => []
        if !s.rangeOk c m.long.low (BitVec.ofNat 64 m.yoff) (m.headerSize + rs.length * m.resultSize) then .stop (scratchTrap 0) s
        else .ok true (s.modCmd c m.id fun m => { m with checked := true, data := rs ++ head })

/-- A Tahr command starts: its channel, its destination range where that is known, the vector's range, its source pages. -/
def State.startTahr (s : State) (c : Nat) (m : Cmd) : State :=
  if m.delivers && (Store.get wpReset (s.getCore c).wp m.chan).bit 61 then s.stopCmd c m.id timingTrap false
  else
    let s := if m.delivers then s.modWp c m.chan fun _ => wpStart m.long.low m.yoff else s
    let known := match m.instr with
      | .tsel _ => 16
      | _ => m.source.1 * m.resultSize
    let vector := match m.instr with
      | .tmv _ => m.packed (m.rc.fld 39 24)
      | _ => 0
    if !(s.rangeOk c m.long.low (BitVec.ofNat 64 m.yoff) known && s.rangeOk c 3 (BitVec.ofNat 64 m.xoff) vector) then
      s.stopCmd c m.id (scratchTrap 0)
    else (s.tahrRead c m).finish s c m.id

/-- R251: a Tahr command retires when its last result has landed. -/
def execEvTahrRetire (core cmd : Nat) (s : State) : Result :=
  match (s.getCore core).cmd cmd with
  | none => .next s
  | some m =>
    if m.engine == .tahr && m.started.isSome && m.checked && m.done == m.data.length && m.out == 0 then
      .next (s.retireCmd core cmd)
    else .next s

/-- R251, R254: results land in increasing order, a granule of 128 bytes at a time, and the header of `TSEL` last: PTR stays
at BASE until then. The oracle may put a landing off: the duration is not fixed. -/
def execEvTahrResultLands (core cmd : Nat) (s : State) : Result :=
  match (s.getCore core).cmd cmd with
  | none => .next s
  | some m =>
    if m.engine != .tahr || m.started.isNone || s.cmdWaits core m || (m.checked && m.done == m.data.length) then .next s
    else if s.choice ≠ 0 then .next s.chosen
    else
      match s.chosen.tahrRead core m with
      | .hold f => .next (f s.chosen)
      | .stop t s => .next (s.stopCmd core cmd t)
      | .ok false s => .next s
      | .ok true s =>
        match (s.getCore core).cmd cmd with
        | none => .next s
        | some m =>
          let z := m.resultSize
          let body := m.data.length - m.headerSize / 8
          let header := decide (body ≤ m.done)
          let n := if header then m.data.length - m.done else min (128 / z) (body - m.done)
          let at' := if header then m.yoff else m.yoff + m.headerSize + m.done * z
          let bs := ((m.data.drop m.done).take n).flatMap fun v => (toBytes z v.1).map fun b => (b, v.2)
          match s.engBanks fun s => s.engStore core cmd m.long.low (runsOf (BitVec.ofNat 64 at') bs) with
          | .hold f => .next (f s)
          | .stop t s => .next (s.stopCmd core cmd t)
          | .ok _ s =>
            let last := m.done + n == m.data.length
            let s := s.modCmd core cmd fun m => { m with done := m.done + n }
            let s := if m.headerSize ≠ 0 ∧ !last then s
              else s.landed core m (m.yoff + m.headerSize + (min (m.done + n) body) * z) last
            .next (if last then s.later [.event (.tahrRetire core cmd)] else s)

end Sys2Proof.Machine
end

