-- ==== Sys2Proof/Machine/Collect.lean ====
section
/-!
DEFINITION. Collectives (R257 to R261): groups, matched parts, landings and retirement; and the start of every engine
command (R233).
-/

namespace Sys2Proof.Machine

/-! ### Groups and parts -/

/-- n, the elements of a block. -/
def Cmd.blockLen (m : Cmd) : Nat := m.rc.fld 19 0
/-- F and P. -/
def Cmd.group (m : Cmd) : Nat × Nat := groupOfWord m.rc

/-- Bytes of a source element of format f (R142). -/
def collBytes (f : Nat) : Nat :=
  match f with
  | 0 => 8
  | 5 => 8
  | 2 => 2
  | 3 => 2
  | _ => 4

/-- The tag code of a combining landing's format (R260). -/
def landCode (f : Nat) : Nat :=
  match f with
  | 0 => 3
  | 4 => 1
  | 5 => 2
  | _ => 4

/-- The combining operation of a landing code; none overwrites. -/
def landOp (low : Nat) : Option RedOp :=
  match low with
  | 1 => some .add
  | 2 => some .max
  | 3 => some .min
  | _ => none

/-- Bytes of a destination element (R260). -/
def Cmd.landBytes (m : Cmd) : Nat :=
  if m.long.low = 0 then collBytes m.long.fmt else fmtBytes (landCode m.long.fmt)

/-- Whether source and destination have P blocks (R259), and whether every source lands in one place. -/
def Cmd.blocks (m : Cmd) : Bool × Bool :=
  match m.instr with
  | .collRs _ => (true, false)
  | .collAg _ => (false, true)
  | .collA2a _ => (true, true)
  | _ => (false, false)

/-- Whether it is `COLL.AR` or `COLL.RS`, whose own contribution is written first (R260). -/
def Cmd.reduces (m : Cmd) : Bool :=
  match m.instr with
  | .collAr _ => true
  | .collRs _ => true
  | _ => false

/-- Whether it is `COLL.BC`. -/
def Cmd.broadcast (m : Cmd) : Bool :=
  match m.instr with
  | .collBc _ => true
  | _ => false

/-- Ranks whose contributions a destination receives. -/
def Cmd.ranks (m : Cmd) : List Nat := if m.broadcast then [0] else List.range m.group.2

/-- The rank of the member of a core in a group. -/
def State.rankOf (s : State) (c : Nat) (m : Cmd) : Nat := (s.getCore c).binding.memb % maxReplay - m.group.1

/-- The space code of an address word: 2 cluster-shared memory, 3 chip scratchpad (R257). -/
def collSpace (a : Word) : Nat := if a.bit 28 then 3 else 2

/-- Bytes of a part's source and destination. -/
def Cmd.srcLen (m : Cmd) : Nat := (if m.blocks.1 then m.group.2 else 1) * m.blockLen * collBytes m.long.fmt
/-- The destination's. -/
def Cmd.dstLen (m : Cmd) : Nat := (if m.blocks.2 then m.group.2 else 1) * m.blockLen * m.landBytes

/-- The core of this package that holds member `memb` of a task. -/
def State.coreOfMember (s : State) (task memb : Nat) : Option Nat :=
  allCores.find? fun c => match (s.getCore c).bind with
    | some b => b.task == task && b.memb == memb
    | none => false

/-- The collectives of the member on core `c` that match part `m`: on the same group, the same in order (R258). -/
def State.partOn (s : State) (c : Nat) (m : Cmd) : Option Cmd :=
  (s.getCore c).cmds.find? fun x => x.engine == .collect && x.group == m.group && x.seqNo == m.seqNo

/-- The matched part of a rank, with its core. -/
def State.partOf (s : State) (c : Nat) (m : Cmd) (rank : Nat) : Option (Nat × Cmd) :=
  match s.coreOfMember (s.getCore c).binding.task (m.group.1 + rank) with
  | none => none
  | some d => (s.partOn d m).map fun x => (d, x)

/-- Whether the member of a rank is on another package. -/
def State.foreignRank (s : State) (c : Nat) (m : Cmd) (rank : Nat) : Bool :=
  let t := s.getTask (s.getCore c).binding.task
  let memb := m.group.1 + rank
  t.packages != 1 && (s.coreOfMember (s.getCore c).binding.task memb).isNone && !(t.gone.any fun g => g.1 == memb)

/-- Whether the member of a rank has retired without issuing its matched part (R258). -/
def State.rankGone (s : State) (c : Nat) (m : Cmd) (rank : Nat) : Bool :=
  (s.getTask (s.getCore c).binding.task).gone.any fun g =>
    g.1 == m.group.1 + rank && decide ((((g.2.find? fun x => x.1 == m.group).map Prod.snd).getD 0) ≤ m.seqNo)

/-- Whether some member of the group has. -/
def State.anyGone (s : State) (c : Nat) (m : Cmd) : Bool := (List.range m.group.2).any fun r => s.rankGone c m r

/-- Whether two parts agree in fn, MOD and n. -/
def Cmd.agrees (m x : Cmd) : Bool :=
  m.long.mod == x.long.mod && m.blockLen == x.blockLen &&
    match m.instr, x.instr with
    | .collAr _, .collAr _ => true
    | .collRs _, .collRs _ => true
    | .collAg _, .collAg _ => true
    | .collBc _, .collBc _ => true
    | .collA2a _, .collA2a _ => true
    | _, _ => false

/-- The cores of this package whose members are in the group, and their parts. -/
def State.groupParts (s : State) (c : Nat) (m : Cmd) : List (Nat × Cmd) :=
  (s.coresOfTask (s.getCore c).binding.task).filterMap fun d => (s.partOn d m).map fun x => (d, x)

/-! ### Start -/

/-- Whether `n` bytes from a collective address word lie in its level (R63). -/
def State.collRange (s : State) (c : Nat) (a : Word) (n : Nat) : Bool := s.rangeOk c (collSpace a) (BitVec.ofNat 64 (a.fld 27 0)) n

/-- A part starts (R236, R258): a busy channel, a member gone, a disagreement, the ranges. In a replay it has no effect
(R400). Its source leaves for the members on other packages. -/
def State.startColl (s : State) (c : Nat) (m : Cmd) : State :=
  let task := (s.getCore c).binding.task
  let key := (m.group.1, m.group.2, m.seqNo)
  if s.replays c then s.retireCmd c m.id
  else if m.delivers && (Store.get wpReset (s.getCore c).wp m.chan).bit 61 then s.stopCmd c m.id timingTrap false
  else
    let s := if m.delivers then s.modWp c m.chan fun _ => wpStart (collSpace m.rb) (m.rb.fld 27 0) else s
    let bad := (s.getTask task).badColl.contains key || (s.groupParts c m).any fun x => !m.agrees x.2
    if bad then
      let s := s.modTask task fun t => { t with badColl := if t.badColl.contains key then t.badColl else t.badColl ++ [key] }
      (s.groupParts c m).foldl (fun s x => if x.2.started.isSome then s.stopCmd x.1 x.2.id rangeTrap else s) s
    else if s.anyGone c m then s.stopCmd c m.id timingTrap
    else if !(s.collRange c m.ra m.srcLen && s.collRange c m.rb m.dstLen) then s.stopCmd c m.id (scratchTrap 0)
    else if (s.getTask task).packages ≠ 1 then
      match s.engBytes c c m.id (collSpace m.ra) (BitVec.ofNat 64 (m.ra.fld 27 0)) m.srcLen with
      | .ok bs s => s.send (.collPart task m.group.1 m.group.2 m.seqNo (s.rankOf c m) (bs.map Prod.fst))
      | .hold f => f s
      | .stop t s => s.stopCmd c m.id t
    else s

/-! ### Landings -/

/-- The elements that rank `rank` contributes to the part `m` of core `c`, in the source format with their poison: from the
matched part's source, or free values where that member is on another package (log entry 4, DESIGN CHOICE). -/
def State.contribution (s : State) (c : Nat) (m : Cmd) (rank : Nat) : Eng (List (Nat × Bool)) :=
  let w := collBytes m.long.fmt
  if s.foreignRank c m rank then
    let r := (List.range m.blockLen).foldl (fun (x : List (Nat × Bool) × State) _ =>
      (x.1 ++ [(x.2.free.1.toNat % 2 ^ (8 * w), false)], x.2.free.2)) ([], s)
    .ok r.1 r.2
  else
    match s.partOf c m rank with
    | none => .hold fun t => t
    | some (d, x) =>
      let block := if m.blocks.1 then s.rankOf c m else 0
      let off := BitVec.ofNat 64 (x.ra.fld 27 0 + block * m.blockLen * w)
      (s.engBytes c d m.id (collSpace x.ra) off (m.blockLen * w)).andThen fun bs s => .ok (unpack (8 * w) m.blockLen bs) s

/-- An element after a landing (R260): the value, combined with the destination's, or written. -/
def Cmd.land (m : Cmd) (first : Bool) (old v : Nat) : Nat :=
  let f := m.long.fmt
  let x := match f with
    | 1 => v
    | 2 => widen32 Fp.bf16 (BitVec.ofNat 64 v)
    | 3 => widen32 Fp.f16 (BitVec.ofNat 64 v)
    | _ => v
  match landOp m.long.low with
  | none => v
  | some op => if first then x else combine op (landCode f) old x

/-- Writes a contribution at the destination, element by element (R260). -/
def State.landAll (s : State) (c : Nat) (m : Cmd) (base : Nat) (first : Bool) (vs : List (Nat × Bool)) : Eng Unit :=
  let w := m.landBytes
  engFold (fun _ x s =>
    let a := BitVec.ofNat 64 (base + x.1 * w)
    (s.engPlace c m.id (collSpace m.rb) a 1).andThen fun p s =>
      let old : Eng (Nat × Bool) := if first || m.long.low == 0 then .ok (0, false) s else s.engRead c m.id w p
      old.andThen fun o s =>
        let psn := x.2.2 || o.2
        .ok () (s.engWrite c m.id (toBytes w (m.land first o.1 x.2.1)) psn p))
    ((List.range vs.length).zip vs) () s

/-- The destination bytes that every contribution has reached (R261). -/
def Cmd.complete (m : Cmd) (landed : List Nat) : Nat :=
  if m.blocks.2 then
    ((List.range m.group.2).takeWhile fun r => landed.contains r).length * m.blockLen * m.landBytes
  else if m.ranks.all landed.contains then m.dstLen else 0

/-- Whether the part of core `c` may take rank `rank`'s landing now: both parts have started, the own contribution of a
reducing collective comes first, and it has not landed. -/
def State.mayLand (s : State) (c : Nat) (m : Cmd) (rank : Nat) : Bool :=
  m.engine == .collect && m.started.isSome && m.ranks.contains rank && !m.landed.contains rank
    && (!m.reduces || rank == s.rankOf c m || m.landed.contains (s.rankOf c m))
    && (s.foreignRank c m rank || match s.partOf c m rank with
      | some x => x.2.started.isSome
      | none => false)

/-- R260: a contribution lands at a destination's home; the oracle may put it off. -/
def execEvCollectiveLanding (core cmd rank : Nat) (s : State) : Result :=
  match (s.getCore core).cmd cmd with
  | none => .next s
  | some m =>
    if !s.mayLand core m rank then .next s
    else if s.choice ≠ 0 then .next s.chosen
    else
      let base := m.rb.fld 27 0 + (if m.blocks.2 then rank * m.blockLen * m.landBytes else 0)
      match s.chosen.engBanks fun s => (s.contribution core m rank).andThen fun vs s =>
          s.landAll core m base (m.reduces && rank == s.rankOf core m) vs with
      | .hold f => .next (f s.chosen)
      | .stop t s => .next (s.stopCmd core cmd t)
      | .ok _ s =>
        let landed := m.landed ++ [rank]
        let s := s.modCmd core cmd fun m => { m with landed := landed }
        let done := m.complete landed
        let all := done == m.dstLen
        .next (s.landed core m (m.rb.fld 27 0 + if all then done else done / 128 * 128) all)

/-- Whether every part that receives this part's source has it (R261). -/
def State.sourceSent (s : State) (c : Nat) (m : Cmd) : Bool :=
  let me := s.rankOf c m
  let issued (r : Nat) : Bool :=
    match s.coreOfMember (s.getCore c).binding.task (m.group.1 + r) with
    | some d => decide (m.seqNo < (s.getCore d).collCount m.group)
    | none => true
  (m.broadcast && me != 0) || (List.range m.group.2).all fun r =>
    match s.partOf c m r with
    | some x => x.2.retired || x.2.landed.contains me
    | none => issued r

/-- R261: a part retires when its destination is complete and its source has been sent. One that has started stops when a member of
its group is gone without having issued its own (R258). -/
def execEvCollectivePartRetire (core cmd : Nat) (s : State) : Result :=
  match (s.getCore core).cmd cmd with
  | none => .next s
  | some m =>
    if m.engine != .collect || m.started.isNone then .next s
    else if s.anyGone core m then .next (s.stopCmd core cmd timingTrap)
    else if (m.ranks.all fun r => m.landed.contains r) && s.sourceSent core m then .next (s.retireCmd core cmd)
    else .next s

/-! ### The start of a command -/

/-- Whether a command may start in this cycle (R233): its member is Running or Waiting (R30). -/
def Core.mayStart (k : Core) (m : Cmd) : Bool :=
  m.started.isNone && !m.retired && (k.mstate == .running || k.mstate == .waiting) && decide (m.begins ≤ k.seq.mcc.toNat)

/-- R233: a command begins on its start cycle, or on its arrival where that is later; a kind-4 record (R396). For a
tile-step, `rep` above 0 is the start of that repetition (R244). -/
def execEvEngineCommandStart (core cmd rep : Nat) (s : State) : Result :=
  match (s.getCore core).cmd cmd with
  | none => .next s
  | some m =>
    if rep ≠ 0 then
      if m.engine == .markhor && m.started.isSome && decide (rep < m.repeats) then .next (s.startRep core m rep) else .next s
    else if !(s.getCore core).mayStart m then .next s
    else
      let now := (s.getCore core).seq.mcc
      let s := s.trace core 4 0 0 m.va m.due now 0
      let s := s.modCmd core cmd fun m => { m with started := some now.toNat }
      let m := { m with started := some now.toNat }
      .next <| match m.engine with
        | .serow => s.startCopy core m
        | .markhor => s.startTile core m
        | .accum => s.startAcc core m
        | .tahr => s.startTahr core m
        | .collect => s.startColl core m

end Sys2Proof.Machine
end

