-- ==== Sys2Proof/Machine/Schedule.lean ====
section
/-!
DEFINITION. The slot table and its records (R336 to R338, R342, R343), binding (R328), pre-emption, forced freeze, capture,
spill and resumption (R339 to R343, R41, R60).
-/

namespace Sys2Proof.Machine

/-! ### Arming records -/

/-- A member's saved context. -/
def State.savedCtx (s : State) (task memb : Nat) : Option SavedCtx := (s.getTask task).saves.find? fun x => x.memb == memb

/-- The restore time of a record in ticks (R342): a member that a debug stop left on its core has nothing in its save area to restore
(R397). -/
def State.restoreTime (s : State) (op core task memb : Nat) : Nat :=
  match op with
  | 1 => usTicks 1
  | 2 =>
    let fast := (s.getCore core).shadow == some (task, memb)
    let n := match s.savedCtx task memb with
      | some x => if x.spilled then x.granules.length else 0
      | none => 0
    (if fast then 500 else usTicks 2) + 300 * n
  | _ => 0

/-- Whether core `c` holds a member of a task. -/
def State.holdsMember (s : State) (c task memb : Nat) : Bool :=
  match (s.getCore c).bind with
  | some b => b.task == task && b.memb == memb
  | none => false

/-- Whether another armed BIND or RESUME claims a core (R337). -/
def State.claimed (s : State) (n core : Nat) : Bool :=
  bindNums.any fun k => k != n && s.bindStatus k == 1 && (s.bindOp k == 1 || s.bindOp k == 2) && s.bindCore k == core

/-- Whether a RESUME continues a gang stopped by a debug stop on the core that still holds its member (R337, R397). -/
def State.continues (s : State) (core task memb : Nat) : Bool :=
  s.holdsMember core task memb && (s.getCore core).captured && match (s.getTask task).stop with
    | .spilling => false
    | .freezing .. => false
    | _ => true

/-- Whether Saiga's firmware runs: the complex is neither failing over nor out of service (R326). -/
def State.saigaRuns (s : State) : Bool := !s.failingOver && !s.saigaOut

/-- Whether record `n`, as it stands, is refused (R337, R406). -/
def State.recordRefused (s : State) (n : Nat) : Bool :=
  let op := s.bindOp n
  let c := s.bindCore n
  let task := s.bindTask n
  let memb := s.bindMemb n
  let k := s.getCore c
  op == 0 || decide (4 < op) || decide (72 ≤ c)
    || decide (s.bindTick n < s.tick + usTicks 10 + s.restoreTime op c task memb)
    || (decide (op ≤ 2) && (s.isl (c / 2)).fld 31 30 == 1)
    || (decide (op ≤ 2) && (k.oos || k.scrub || s.claimed n c
      || (k.bind.isSome && !(op == 2 && s.continues c task memb))))
    || (decide (3 ≤ op) && !s.holdsMember c task memb)

/-! ### The order of a partition's tasks -/

/-- Whether a task stands in its partition's order: Eligible, or Saved after a pre-emption (R334). -/
def Task.ordered (t : Task) : Bool := t.state == .eligible || (t.state == .saved && t.stop != .debugStop)

/-- Ticks since a task became Eligible (R334). -/
def State.waited (s : State) (t : Task) : Nat := s.tick - t.eligible.getD s.tick

/-- EPRI (R334): PRIO, raised by one for each AGE that the task has waited. -/
def State.epri (s : State) (t : Task) : Nat :=
  let age := (s.getPart t.part).psched.fld 25 14
  if age = 0 then t.prio else min 7 (t.prio + s.waited t / usTicks (100 * age))

/-- Whether a task is starved (R333, R334). -/
def State.starved (s : State) (t : Task) : Bool :=
  let n := (s.getPart t.part).psched.fld 13 2
  n != 0 && decide (usTicks (1000 * n) ≤ s.waited t)

/-- Whether task `a` stands before task `b` in the order of R334. -/
def State.before (s : State) (a b : Nat) : Bool :=
  let t := s.getTask a
  let u := s.getTask b
  decide (s.epri u < s.epri t) || (s.epri t == s.epri u && (decide (s.waited u < s.waited t) || (s.waited t == s.waited u && decide (a < b))))

/-- Whether every unretired member of a saved task has a RESUME armed for one tick. -/
def State.resumed (s : State) (task : Nat) : Bool :=
  (nub ((bindNums.filter fun n => s.bindStatus n == 1 && s.bindOp n == 2 && s.bindTask n == task).map fun n => s.bindTick n)).any fun k =>
    s.gangCount task 2 k + (s.getTask task).retiredCount == (s.getTask task).nmemb

/-- Whether a task waits in its partition's order: it stands there, and the records of its members are not all armed (R334). -/
def State.queues (s : State) (task : Nat) : Bool := (s.getTask task).ordered && !s.resumed task

/-- The first of a partition's tasks that wait in the order (R334). -/
def State.headOf (s : State) (p : Nat) : Option Nat :=
  (Store.keysWhere (fun k (t : Task) => t.part == p && s.queues k) s.tasks).foldl
    (fun h a => match h with
      | none => some a
      | some b => if s.before a b then some a else h) none

/-- The free cores of a partition's rectangle, those whose scrub still runs among them. -/
def State.freeCores (s : State) (p : Nat) : List Nat :=
  allCores.filter fun c =>
    let k := s.getCore c
    inRect (s.getPart p).prect (clusterOf c) && k.bind.isNone && !k.oos && k.oosWanted != some true

/-- The cores that an armed BIND or RESUME claims for a gang that waits no more in the order (R337): one that does keeps none from the
head. -/
def State.claimedCores (s : State) : List Nat :=
  (bindNums.filter fun k => s.bindStatus k == 1 && (s.bindOp k == 1 || s.bindOp k == 2) && !s.queues (s.bindTask k)).map s.bindCore

/-- A partition's free cores, as its head may have them (R334). -/
def State.openCores (s : State) (p : Nat) : List Nat :=
  let taken := s.claimedCores
  (s.freeCores p).filter fun c => islCur (s.isl (c / 2)) != 1 && !taken.contains c

/-- Whether `m` members, in groups of `g` on one cluster each, fit a set of cores (R327). -/
def groupsFit (g m : Nat) (cs : List Nat) : Bool :=
  let free := (List.range 12).map fun cl => (cs.filter fun c => clusterOf c == cl).length
  let room := (free.map fun f => f / g).sum
  decide (m / g < room) || (room == m / g && (m % g == 0 || free.any fun f => decide (m % g ≤ f % g)))

/-- Whether a core's fused tile lies in a member's region on the core that stands for the region's in that cluster (R343). -/
def State.tileClash (s : State) (task memb cl : Nat) : Bool :=
  s.stamps.any fun kv => kv.2.task == task && kv.2.memb == memb && kv.2.copies.any fun x =>
    match (s.getCore (coreAt cl (withinOf x.core))).fused with
    | some t => !x.gone && decide (x.oty ≤ t.toNat / 4) && decide (t.toNat / 4 < x.oty + kv.2.hdr.h)
      && decide (x.otx ≤ t.toNat % 4) && decide (t.toNat % 4 < x.otx + kv.2.hdr.w)
    | none => false

/-- Whether a saved member may resume in a cluster (R343). -/
def State.resumesIn (s : State) (task : Nat) (x : SavedCtx) (cl : Nat) : Bool :=
  clusterOf x.core == cl || !s.tileClash task x.memb cl

/-- Whether each of some clusters finds one of its own among others, by `ok`. -/
def matchClusters (ok : Nat → Nat → Bool) : List Nat → List Nat → Bool
  | [], _ => true
  | o :: os, cs => cs.any fun c => ok o c && matchClusters ok os (cs.erase c)

/-- How many free cores a task's gang may take on other packages: a free value (R327, R334, log entry 92, DESIGN CHOICE). -/
def State.farRoom (s : State) (task : Nat) : Nat :=
  if (s.getTask task).packages = 1 then 0 else min (Config.farFree task s.tick) (72 * ((s.getTask task).packages - 1))

/-- Whether a task's members fit a set of cores with those that its gang may take elsewhere (R327, R334, R343); a saved member resumes
on its package. -/
def State.fits (s : State) (task : Nat) (cs : List Nat) : Bool :=
  let t := s.getTask task
  let far := s.farRoom task
  let g := max 1 (t.fld 145 143)
  if t.state == .saved then
    let ok (o c : Nat) : Bool := (t.saves.filter fun x => clusterOf x.core == o).all fun x =>
      cs.contains (coreAt c (withinOf x.core)) && s.resumesIn task x c
    decide (t.nmemb ≤ t.saves.length + t.retiredCount + far)
      && matchClusters ok (nub (t.saves.map fun x => clusterOf x.core)) (List.range 12)
  else groupsFit g (t.nmemb - (if t.nmemb ≤ far then t.nmemb else far / g * g)) cs

/-- Whether a gang's BIND or RESUME may be armed now (R334, R38): an Eligible or pre-empted gang's where it is the head, or the head does
not fit and is not starved; one of a gang that is bound already or restarts (R356). -/
def State.mayPlace (s : State) (task : Nat) : Bool :=
  let t := s.getTask task
  if s.queues task then
    match s.headOf t.part with
    | none => true
    | some h => h == task || (!s.fits h (s.openCores t.part) && !s.starved (s.getTask h))
  else t.state == .bound || t.state == .running || t.ordered

/-- Whether a gang is being stopped for the head of its partition: PREEMPT records of it are armed, or its save is under way. -/
def State.stopping (s : State) (task : Nat) : Bool :=
  (match (s.getTask task).stop with
    | .none => false
    | .debugStop => false
    | _ => true)
    || bindNums.any fun k => s.bindStatus k == 1 && s.bindOp k == 3 && s.bindTask k == task

/-- Whether a running gang qualifies as a victim for a head (R335). -/
def State.victimFor (s : State) (g h : Nat) : Bool :=
  let t := s.getTask g
  let u := s.getTask h
  t.state == .running && (decide (t.prio < s.epri u) || (t.prio == s.epri u && s.starved u))
    && decide (t.boundAt + usTicks (100 * (s.getPart t.part).psched.fld 44 36) ≤ s.tick)

/-- Whether a gang may be pre-empted (R335): it is being stopped already, or it is the first, by PRIO and the latest bind, of the gangs
that qualify for a head that does not fit, which with the free cores free enough for it, and no other is being stopped. -/
def State.mayPreempt (s : State) (task : Nat) : Bool :=
  let t := s.getTask task
  s.stopping task || match s.headOf t.part with
    | none => false
    | some h =>
      let gangs := Store.keysWhere (fun _ (u : Task) => u.part == t.part) s.tasks
      let able := gangs.filter fun g => s.victimFor g h
      let opened := s.openCores t.part
      let held := allCores.filter fun c => match (s.getCore c).bind with
        | some b => able.contains b.task && !(s.getCore c).oos && (s.getCore c).oosWanted != some true
        | none => false
      able.contains task && gangs.all (fun g => !s.stopping g) && !s.fits h opened && s.fits h (opened ++ held)
        && able.all fun g => decide (t.prio < (s.getTask g).prio)
          || (t.prio == (s.getTask g).prio && decide ((s.getTask g).boundAt ≤ t.boundAt))

/-- Whether the groups of R327 stay whole with BIND record `n`: each armed for one cluster, and none of its members on another package. -/
def State.groupOk (s : State) (n : Nat) : Bool :=
  let task := s.bindTask n
  let g := max 1 ((s.getTask task).fld 145 143)
  ((s.getTask task).far.all fun f => f.armed.isNone || f.memb / g != s.bindMemb n / g) && bindNums.all fun k => k == n || s.bindStatus k != 1 || s.bindOp k != 1 || s.bindTask k != task
    || s.bindMemb k / g != s.bindMemb n / g || clusterOf (s.bindCore k) == clusterOf (s.bindCore n)

/-- Whether RESUME record `n` is for a core where its member may resume (R343): the same number within its cluster, to which every
member of the old cluster goes. -/
def State.resumeOk (s : State) (n : Nat) : Bool :=
  let task := s.bindTask n
  match s.savedCtx task (s.bindMemb n) with
  | none => true
  | some x =>
    let c := s.bindCore n
    withinOf c == withinOf x.core && s.resumesIn task x (clusterOf c)
      && bindNums.all fun k => k == n || s.bindStatus k != 1 || s.bindOp k != 2 || s.bindTask k != task
        || match s.savedCtx task (s.bindMemb k) with
          | some y => clusterOf y.core != clusterOf x.core || clusterOf (s.bindCore k) == clusterOf c
          | none => true

/-- Whether the PREEMPT records of a gang keep to one tick with record `n` (R339). -/
def State.oneTick (s : State) (n : Nat) : Bool :=
  let task := s.bindTask n
  (match (s.getTask task).stop with
    | .points f => s.bindTick n == f
    | _ => true)
    && bindNums.all fun k => s.bindStatus k != 1 || s.bindOp k != 3 || s.bindTask k != task || s.bindTick k == s.bindTick n

/-- Whether Saiga's firmware arms record `n`, as it stands: it keeps to R327, R334, R335, R339 and R343 (log entry 92, DESIGN CHOICE: a
write that would break them does not occur). -/
def State.saigaArms (s : State) (n : Nat) : Bool :=
  let task := s.bindTask n
  match s.bindOp n with
  | 1 => s.groupOk n && s.mayPlace task
  | 2 => s.continues (s.bindCore n) task (s.bindMemb n) || (s.resumeOk n && s.mayPlace task)
  | 3 => s.oneTick n && s.mayPreempt task
  | 4 => s.mayPreempt task
  | _ => true

/-! ### Writing records -/

/-- A write of bits 63:0 of record `n` (R337): OP ≠ 0 arms or refuses it; OP 0 cancels it before its tick and only empties it once it
has been carried out, which it waits for from its tick on; any other write of an armed record is ignored. Saiga writes it. The gang's
other packages are told (R338). -/
def State.writeRecord (s : State) (n : Nat) (v : Word) : State :=
  let armed := s.bindStatus n == 1
  if !s.saigaRuns then s
  else if v.fld 2 0 = 0 then
    if armed && decide (s.bindTick n ≤ s.tick) then { s with inputs := s.inputs ++ [.cancelBindRecord n] } else
    let s1 := { s with slotTab := Store.set 0 s.slotTab (4 * n) 0 }
    let c := s.bindCore n
    let task := s.bindTask n
    if armed && s.bindOp n == 1 && (s.getCore c).mstate == .bound then
      ((s1.modCore c fun k => { k with mstate := .unbound }).modTask task fun t =>
        if t.state == .bound then { t with state := .eligible } else t).tell task (s.bindMemb n) .cancelled
    else s1
  else if armed then s
  else
    let s1 := { s with slotTab := Store.set 0 s.slotTab (4 * n) (BitVec.ofNat 64 (v.fld 2 0)) }
    if s1.recordRefused n then s1.setBindStatus n 3
    else if !s1.saigaArms n then s
    else
      let s := s1.setBindStatus n 1
      let s := if s.bindOp n = 1 then s.modCore (s.bindCore n) fun k => { k with mstate := .bound } else s
      (s.tell (s.bindTask n) (s.bindMemb n) (.armed (s.bindOp n) (s.bindTick n))).noteBound (s.bindTask n)

/-- R337: a write that arms a BIND. -/
def execEvArmBind (n : Nat) (v : Word) (s : State) : Result :=
  .next (if n < 256 ∧ v.fld 2 0 = 1 then s.writeRecord n v else s)
/-- R337: a write that arms a RESUME. -/
def execEvArmResume (n : Nat) (v : Word) (s : State) : Result :=
  .next (if n < 256 ∧ v.fld 2 0 = 2 then s.writeRecord n v else s)
/-- R337: a write that arms a PREEMPT. -/
def execEvArmPreempt (n : Nat) (v : Word) (s : State) : Result :=
  .next (if n < 256 ∧ v.fld 2 0 = 3 then s.writeRecord n v else s)
/-- R337: a write that arms a FREEZE. -/
def execEvArmFreeze (n : Nat) (v : Word) (s : State) : Result :=
  .next (if n < 256 ∧ v.fld 2 0 = 4 then s.writeRecord n v else s)
/-- R337: a write of OP = 0. -/
def execEvCancelBindRecord (n : Nat) (s : State) : Result := .next (if n < 256 then s.writeRecord n 0 else s)

/-- Whether record `n` is armed with an OP, for a core of the device, and its tick has come. -/
def State.recordDue (s : State) (n op : Nat) : Bool :=
  decide (n < 256) && s.bindStatus n == 1 && s.bindOp n == op && decide (s.bindTick n ≤ s.tick) && decide (s.bindCore n < 72)

/-! ### Losing a gang's member -/

/-- CORECTL of core `c` (R320). -/
def State.corectl (s : State) (c : Nat) : Word :=
  let k := s.getCore c
  let f := match k.fused with
    | some t => 512 + 32 * t.toNat
    | none => 0
  BitVec.ofNat 64 (f + 4 * bit01 k.scrub + 2 * bit01 k.oos + bit01 k.bind.isSome)

/-- A written OOS bit, which takes effect at once or waits (R320). -/
def State.wantOos (s : State) (c : Nat) (b : Bool) : State := (s.modCore c fun k => { k with oosWanted := some b }).applyOos c

/-- Undoes the records of a task in the reverse of the order written, then releases them (R356). The messages go out in that
order. -/
def State.undoTask (s : State) (part task : Nat) : State :=
  let recs := ((s.getPart part).wlog.filter fun r => r.task == task).reverse
  let s := recs.foldl (fun s r =>
    let rest := s.agenda
    let s := State.undoLine { s with agenda := [] } r part
    { s with agenda := rest ++ s.agenda }) s
  s.dropLog part task

/-- A task as it stands before its restart: nothing of its first run is left (R356). -/
def Task.restarted (t : Task) (st : TaskState) : Task :=
  { t with
    state := st, retiredCount := 0, stop := .none, stopAt := none, freezeAt := none, saves := [], ckpt := 0, ckptDue := none, ckptAt := none
    recorded := [], ckpts := [], gone := [], badColl := [], far := [] }

/-- A cluster without the dirty CC bytes that a task stored: no home has them yet. -/
def Cluster.forget (k : Cluster) (task : Nat) : Cluster :=
  let mine (a : Nat) : Bool := k.dirtyBy.any fun x => x.1 == a && x.2.2 == task
  { k with
    dirty := k.dirty.filter fun c => !mine c.1, dirtyPsn := k.dirtyPsn.filter fun a => !mine a
    dirtyBy := k.dirtyBy.filter fun x => !mine x.1 }

/-- A push without the bytes that a task stored. -/
def Push.forget (x : Push) (task : Nat) : Push :=
  let mine (a : Nat) : Bool := x.by'.any fun y => y.1 == a && y.2.2 == task
  { x with cells := x.cells.filter fun c => !mine c.1, psn := x.psn.filter fun a => !mine a, by' := x.by'.filter fun y => y.2.2 != task }

/-- What a task's members have issued and no home has performed is dropped. -/
def State.dropIssued (s : State) (task : Nat) : State :=
  let cs := s.coresOfTask task
  { s with
    clusters := s.clusters.map fun (kv : Nat × Cluster) => (kv.1, kv.2.forget task)
    way := s.way.filter fun st => st.task != task
    held := (s.held.filter fun h => match h with
      | .store st => st.task != task
      | .atom a => !cs.contains a.core
      | .red r => (s.getStamp r.stamp).task != task
      | .peer _ a => a.task != task
      | .push x => !(x.forget task).cells.isEmpty
      | _ => true).map fun h => match h with
        | .push x => .push (x.forget task)
        | h => h
    launching := s.launching.filter fun l => !cs.contains l.core
    pageReqs := s.pageReqs.filter fun r => !(cs.contains r.core && r.part == (s.getTask task).part) }

/-- The rollback of a revocable task on this package (R356): its members stop, what they have issued is dropped, the task's records are
undone, its cores are released. Whether the partition has cores enough here for the members that were here, or are nowhere else. -/
def State.rollbackHere (s : State) (task : Nat) : Bool × State :=
  let t := s.getTask task
  let s := s.dropIssued task
  let cs := s.coresOfTask task
  let s := (s.stampsWhere fun st => st.task == task).foldl State.freeStamp s
  let s := s.undoTask t.part task
  let s := (cs.foldl State.dropMember s).cancelArmed task
  (decide (t.nmemb - t.far.length ≤ (s.freeCores t.part).length), s)

/-- The task waits for its new bind records, or is Eligible where free cores are too few, on whichever package (R38, R356). -/
def State.restartTask (s : State) (task : Nat) (enough : Bool) : State :=
  s.modTask task fun t => t.restarted (if enough then .running else .eligible)

/-- A task's gang has lost a member (R356): it is rolled back on every package, or aborted where it is irrevocable. -/
def State.loseMember (s : State) (task : Nat) : State :=
  if (s.getTask task).irrevocable then s.abortTask task
  else
    let r := s.rollbackHere task
    (r.2.tell task 0 (.rollback r.1)).restartTask task r.1

/-! ### Binding -/

/-- Bytes of a partition's memory as a number, read with no TLB; unreadable ones are zero. -/
def State.peek (s : State) (p va n : Nat) : Nat :=
  match s.homeOf p va false with
  | some pa => if placeOf pa = .hbm then s.hbm.num pa n else s.host.num pa n
  | none => 0

/-- The first program counter of member `memb` (R328, R315): the member table is read at BASEVA + MEMBOFF. -/
def State.entryPc (s : State) (t : Task) (memb : Nat) : Word :=
  let h := s.peek t.part t.image 64
  let n := max 1 (fieldOf h 399 384)
  BitVec.ofNat 64 (t.image + s.peek t.part (t.image + fieldOf h 351 320 + 8 * (memb % n)) 8)

/-- A member's binding from its record and its task. -/
def State.bindingOf (s : State) (n : Nat) : Binding :=
  let t := s.getTask (s.bindTask n)
  { task := s.bindTask n, memb := s.bindMemb n, pkg := s.bindPkg n, part := t.part, kclass := t.fld 148 147
    depth := t.depth, dbg := t.fld 146 146 == 1, firstCore := s.bindCore n, startTick := s.bindTick n, save := s.bindSave n }

/-- The tick of the first checkpoint of a task that records (R399). -/
def State.firstCkpt (s : State) (t : Task) : Option Nat :=
  let d := (s.getPart t.part).dbgcfg
  if t.fld 146 146 == 1 && d.bit 0 && d.fld 47 32 != 0 then some (s.tick + usTicks (1000 * d.fld 47 32)) else none

/-- Whether every record of a gang for its tick is there, on every package, and each core here can take its member (R32, R320). -/
def State.gangReady (s : State) (task op tick : Nat) : Bool :=
  let t := s.getTask task
  s.gangCount task op tick + (if op = 2 then t.retiredCount else 0) == t.nmemb
    && (s.gangRecords task op tick).all fun k => s.bindStatus k != 1
      || ((s.getCore (s.bindCore k)).bind.isNone && !(s.getCore (s.bindCore k)).oos)
      || (op == 2 && s.continues (s.bindCore k) task (s.bindMemb k))

/-- Whether a core that an armed record of a gang names has failed since (R338). -/
def State.coreLost (s : State) (task op tick : Nat) : Bool :=
  (s.gangRecords task op tick).any fun k => s.bindStatus k == 1 && (s.getCore (s.bindCore k)).oos

/-- Whether a gang has begun on its tick, or may: a record of it for the tick is carried out, or it is whole (R32, R338). -/
def State.gangStarts (s : State) (task op tick : Nat) : Bool :=
  ((s.gangRecords task op tick).any fun k => s.bindStatus k == 2) || s.gangReady task op tick

/-- A record is carried out without effect: its core is claimed no more. -/
def State.spendRecord (s : State) (n : Nat) : State :=
  (s.setBindStatus n 2).modCore (s.bindCore n) fun k => if k.mstate == .bound then { k with mstate := .unbound } else k

/-- R338, R328: a BIND record acts, in a cycle of its core (R29): with the whole gang bound (R32) the member is bound to its core with its
start state and begins on this cycle, its member cycle count 0. Its start is an acquire at device scope (R270). A core that has failed is
a gang member lost; a gang that is not whole on its tick waits for new records. -/
def execEvBindExecute (n : Nat) (s : State) : Result :=
  let c := s.bindCore n
  if !s.recordDue n 1 || !s.ticks (c / 2) then .next s
  else
    let b := s.bindingOf n
    let t := s.getTask b.task
    if !(t.state == .bound || t.state == .running) then .next (s.spendRecord n)
    else if s.coreLost b.task 1 (s.bindTick n) then
      .next (((s.gangRecords b.task 1 (s.bindTick n)).foldl State.spendRecord s).loseMember b.task)
    else if !s.gangStarts b.task 1 (s.bindTick n) then .next (s.spendRecord n)
    else
      let s := s.setBindStatus n 2
      let k := s.getCore c
      let q : Seq := { pc := s.entryPc t b.memb, regs := Store.set {} [] 1 ⟨BitVec.ofNat 64 (t.fld 207 164 * 16), false⟩ }
      let s := (s.dropClean (clusterOf c)).clearShare c
      let s := s.setCore c
        { mstate := .running, bind := some b, seq := q, fused := k.fused, oos := k.oos, oosWanted := k.oosWanted, bkpt := k.bkpt
          dumpBase := k.dumpBase, dumpBusy := k.dumpBusy, shadow := k.shadow, banks := k.banks }
      let s := s.modTask b.task fun t =>
        if t.state == .bound then { t with state := .running, boundAt := s.tick, ckptDue := s.firstCkpt t }
        else { t with boundAt := s.tick }
      .next (s.later [.seq c])

/-! ### Points -/

/-- Whether a phase of the member of core `c` runs. -/
def State.phaseOn (s : State) (c : Nat) : Bool := s.phaseOf (s.getCore c).binding.task (s.getCore c).binding.memb

/-- Whether a wait is one of `BAR`, `EJOIN` or `EXIT`. -/
def Wait.isPoint : Wait → Bool
  | .barrier .. => true
  | .remoteBarrier .. => true
  | .join => true
  | .exit => true
  | _ => false

/-- Whether a member is at its pre-emption point (R339): no phase of it runs, or it waits in `BAR`, `EJOIN` or `EXIT`. -/
def State.atPoint (s : State) (c : Nat) : Bool :=
  !s.phaseOn c || ((s.getCore c).mstate == .waiting && (s.getCore c).seq.wait.isPoint)

/-- Whether a member at its point can be saved with no round voided: no phase of it runs (R41). -/
def State.pointSave (s : State) (c : Nat) : Bool := s.atPoint c && !s.phaseOn c

/-- Whether an engine command of a core has started and not retired. -/
def Core.engineRuns (k : Core) : Bool := k.cmds.any fun m => m.started.isSome && !m.retired

/-- Whether the accesses that a member has issued are complete (R340): nothing of it is out at a home or on a channel. -/
def Core.quiet (k : Core) : Bool :=
  k.seq.unacked == 0 && k.cmds.all (fun m => m.out == 0) && match k.seq.wait with
    | .peer _ => false
    | .home => false
    | .launch => false
    | .barInit => false
    | .signal => false
    | _ => true

/-- Nothing of the member is outstanding, posted stores included (R340). -/
def State.quietCore (s : State) (c : Nat) : Bool :=
  (s.getCore c).quiet && s.posted.all (fun p => p.st.core != c) && s.noneOut c fun _ => true

/-- R339: a PREEMPT record acts: its member issues no further `PHASE`. With PLIM 0 it is a freeze. -/
def execEvPreemptExecute (n : Nat) (s : State) : Result :=
  if !s.recordDue n 3 then .next s
  else
    let task := s.bindTask n
    let s := s.setBindStatus n 2
    if !s.holdsMember (s.bindCore n) task (s.bindMemb n) then .next s
    else
      let s := s.modCore (s.bindCore n) fun k => { k with preempt := true }
      let s := s.modTask task fun t => if t.stop == .none then { t with stop := .points (s.bindTick n) } else t
      .next (if (s.getPart (s.getTask task).part).psched.fld 35 26 = 0 then s.soon [.event (.preemptTimeout task)] else s)

/-- Ticks that PSCHED.PLIM names (R333). -/
def State.plimTicks (s : State) (part : Nat) : Nat := usTicks (10 * (s.getPart part).psched.fld 35 26)

/-! ### Freeze and capture -/

/-- A region as its readout leaves it (R60): a class of state whose RMASK bit is clear is not carried. -/
def RegCore.masked (r : RegCore) (rmask : Nat) : RegCore :=
  { r with
    rowfile := if bitOf rmask 1 then r.rowfile else []
    lane := if bitOf rmask 2 then r.lane else []
    laneMarks := if bitOf rmask 2 then r.laneMarks else [] }

/-- The rounds in progress of a member's stamps are voided and the stamps are held (R340, R41). -/
def State.freezeStamps (s : State) (task memb : Nat) : State :=
  (s.stampsWhere fun st => st.task == task && st.memb == memb).foldl (fun s i =>
    let n := (s.getStamp i).copies.length
    let s := (List.range n).foldl (fun s j =>
      let st := s.getStamp i
      let s := if st.state == .running && !(st.copy j).done then s.voidCopy i j 0 0 else s
      s.modCopy i j fun c => { c with
        reg := c.reg.masked st.hdr.rmask, captures := c.captures.map fun k => (k.1, k.2.masked st.hdr.rmask) }) s
    s.modStamp i fun st => { st with held := true }) s

/-- A stream of the record log that holds the freezes of a member: their cycle, then their length in ticks (R399). -/
def freezeStream : Nat := 999

/-- The members of a task that are on this package stop, their rounds voided (R340). -/
def State.freezeMembers (s : State) (task : Nat) : State :=
  (s.coresOfTask task).foldl (fun s c =>
    let k := s.getCore c
    if k.mstate == .running || k.mstate == .waiting then
      let s := s.recordOn c freezeStream (2 ^ 64 - 1) k.seq.mcc
      (s.freezeStamps task k.binding.memb).modCore c fun k => { k with mstate := .frozen, stopHold := false }
    else s) s

/-- Freezes the members of a task that are on this package, to be captured (R340). -/
def State.freezeHere (s : State) (task : Nat) (debug : Bool) : State :=
  (s.freezeMembers task).modTask task fun t => { t with stop := .freezing s.tick debug, stopAt := none, freezeAt := none, ckptAt := none }

/-- A freeze that begins here: the gang's other packages are told (R340, R41). -/
def State.freezeGang (s : State) (task : Nat) (debug : Bool) : State :=
  (s.tell task 0 (.freeze s.tick debug)).freezeHere task debug

/-- Whether PLIM has ended for a gang that is asked to stop at its points (R339): a member here is not at its point; with PLIM 0 every
PREEMPT is a freeze. -/
def State.pointsOver (s : State) (task : Nat) : Bool :=
  let t := s.getTask task
  match t.stop with
  | .points f => decide (f + s.plimTicks t.part ≤ s.tick)
    && (decide (s.plimTicks t.part = 0) || (s.coresOfTask task).any fun c => !s.atPoint c)
  | _ => false

/-- Whether a FREEZE record of a task acts now. -/
def State.freezeDue (s : State) (task : Nat) : Bool := bindNums.any fun n => s.recordDue n 4 && s.bindTask n == task

/-- Whether a gang may still be frozen. -/
def Task.mayFreeze (t : Task) : Bool :=
  t.state == .running && match t.stop with
    | .none => true
    | .points _ => true
    | _ => false

/-- R339: a member has not reached its point PLIM after the tick: the gang is frozen. -/
def execEvPreemptTimeout (task : Nat) (s : State) : Result :=
  .next (if s.pointsOver task then s.soon [.event (.forcedFreeze task)] else s)

/-- R340: a forced freeze acts, from FREEZE records or at the end of PLIM; or, after a debug stop, on its tick F (R397); or as another
package has told. -/
def execEvForcedFreeze (task : Nat) (s : State) : Result :=
  let t := s.getTask task
  let debug := match t.stopAt with
    | some f => decide (f ≤ s.tick)
    | none => false
  let told := t.freezeAt.any fun f => decide (f.1 ≤ s.tick)
  let real := s.freezeDue task || s.pointsOver task
  if !real && !debug && !told then .next s
  else
    let s := (bindNums.filter fun n => s.recordDue n 4 && s.bindTask n == task).foldl (fun s n => s.setBindStatus n 2) s
    if !t.mayFreeze then .next (s.modTask task fun t => { t with freezeAt := none })
    else if real || debug then .next (s.freezeGang task (debug && !real))
    else .next (s.freezeHere task (t.freezeAt.any Prod.snd))

/-- Whether a wait is one of the Waiting state (R30). -/
def Wait.waits : Wait → Bool
  | .barrier .. => true
  | .remoteBarrier .. => true
  | .phase _ => true
  | .join => true
  | .exit => true
  | _ => false

/-- The context of the member of a core (R341), without what its core still holds of scratch memory. -/
def Core.context (k : Core) (c frozen : Nat) : SavedCtx :=
  { memb := k.binding.memb, core := c, bind := k.binding, seq := k.seq, slots := k.slots, arrayFree := k.arrayFree, cmds := k.cmds
    nextCmd := k.nextCmd, collSeq := k.collSeq, wp := k.wp, handles := k.handles, waiting := k.seq.wait.waits
    granules := nub (k.savedGranules ++ k.granules), frozenAt := frozen }

/-- Whether a page request is of the sequencer or an engine command of core `c`. -/
def ReqSrc.ofCore (r : ReqSrc) (c : Nat) : Bool :=
  match r with
  | .sequencer d => d == c
  | .region .. => false
  | .engine d _ => d == c

/-- The member of a core is captured, its page requests are nobody's from then on (a retry makes new ones): its fast context is in the shadow (R340). -/
def State.captureMember (s : State) (c : Nat) : State :=
  let k := s.getCore c
  let b := k.binding
  let s := s.modTask b.task fun t => { t with saves := t.saves ++ [k.context c s.tick] }
  let s := { s with pageReqs := s.pageReqs.map fun (r : PageReq) => if r.src.ofCore c then { r with src := .engine 72 0 } else r }
  s.setCore c { k with mstate := .saved, captured := true, shadow := some (b.task, b.memb) }

/-- Whether every member of a gang is captured, on each of its packages (R41). -/
def Task.allSaved (t : Task) : Bool :=
  t.packages == 1 || t.saves.length + (t.far.filter fun f => f.saved && !f.retired).length + t.retiredCount == t.nmemb

/-- Once every member here is captured they are spilled, or stay on their cores after a debug stop, and the gang's other packages are
told; once every member everywhere is, the gang is Saved. -/
def State.noteSaved (s : State) (task : Nat) : State :=
  let debug := match (s.getTask task).stop with
    | .freezing _ d => d
    | _ => false
  let cs := s.coresOfTask task
  if cs.all fun c => (s.getCore c).captured then
    let s := cs.foldl (fun s c => s.tell task (s.getCore c).binding.memb .saved) s
    s.modTask task fun t => { t with
      state := if t.allSaved then .saved else t.state, stop := if debug then .debugStop else .spilling }
  else s

/-- Whether a gang is frozen for its members to be captured; one that is frozen for a checkpoint is not (R340, R399). -/
def Task.capturing (t : Task) : Bool :=
  match t.stop with
  | .freezing .. => true
  | _ => false

/-- R340: the fast context of a frozen member, whose accesses are complete, is in its shadow. A replay's is nobody's (R400). -/
def execEvFastContextCaptured (core : Nat) (s : State) : Result :=
  let k := s.getCore core
  if k.mstate == .frozen && k.bind.isSome && k.replay.isNone && (s.getTask k.binding.task).capturing && s.quietCore core then
    let task := k.binding.task
    .next ((s.captureMember core).noteSaved task)
  else .next s

/-- Whether the members of a gang on other packages are at their points, with `n` members here (R41). -/
def Task.farAtPoint (t : Task) (n : Nat) : Bool :=
  t.packages == 1 || n + (t.far.filter fun f => f.point && !f.retired).length + t.retiredCount == t.nmemb

/-- The gang's other packages are told, once, of the members here that are at their points (R41). -/
def State.tellPoints (s : State) (task : Nat) (cs : List Nat) : State :=
  (cs.filter fun c => (s.getCore c).preempt && !(s.getCore c).pointTold).foldl (fun s c =>
    (s.modCore c fun k => { k with pointTold := true }).tell task (s.getCore c).binding.memb .point) s

/-- R339, R41: every member is at its point and the engine operations that have started are complete: the gang is saved with
no round voided. -/
def execEvGangSaveAtPoints (task : Nat) (s : State) : Result :=
  let t := s.getTask task
  let cs := s.coresOfTask task
  let ready := cs.filter fun c => s.pointSave c && !(s.getCore c).engineRuns && s.quietCore c && (s.getCore c).live
  let s := s.tellPoints task ready
  match t.stop with
  | .points _ =>
    if t.state == .running && !cs.isEmpty && ready.length == cs.length && t.farAtPoint cs.length then
      let s := cs.foldl (fun s c =>
        let b := (s.getCore c).binding
        let s := s.recordOn c freezeStream (2 ^ 64 - 1) (s.getCore c).seq.mcc
        let s := (s.stampsWhere fun st => st.task == task && st.memb == b.memb).foldl
          (fun s i => s.modStamp i fun st => { st with held := true }) s
        s.captureMember c) s
      .next (s.noteSaved task)
    else .next s
  | _ => .next s

/-- A memory of which the errors in granules that the member never wrote are forgotten: those are zero after resumption (R342). Granule
`g` of its address is number g + `base`. -/
def Ram.written (r : Ram) (gs : List Nat) (base : Int) : Ram :=
  { r with marks := r.marks.filter fun kv => gs.any fun g => (g : Int) == ((kv.1 / 8192 : Nat) : Int) + base }

/-- R341: the spill of a captured member is complete: its scratchpad and its share, error states included, are in the save
area, and its core is released (R373). -/
def execEvSpillComplete (core : Nat) (s : State) : Result :=
  let k := s.getCore core
  let b := k.binding
  let lo := withinOf core * shareBytes
  let cl := s.getCluster (clusterOf core)
  if k.captured && k.bind.isSome && (s.getTask b.task).stop == .spilling then
    let s := s.modTask b.task fun t => { t with saves := t.saves.map fun x =>
      if x.memb == b.memb then
        { x with
          scratch := (k.scratch.withBanks k.banks 1 1024).written x.granules 0
          share := ((cl.cm.withBanks cl.banks 2 1024).slice lo shareBytes).written x.granules (45 - lo / 65536)
          spilled := true, bars := cl.participants.filter fun p => inShare lo p.1
          objects := cl.objects.filter fun o => inShare lo o, farWaits := cl.farWaits.filter fun w => inShare lo w.1 }
      else x }
    let s := s.modCluster (clusterOf core) fun x => { x with
      participants := x.participants.filter fun p => !inShare lo p.1
      objects := x.objects.filter fun o => !inShare lo o
      farWaits := x.farWaits.filter fun w => !inShare lo w.1 }
    let s := s.releaseCore core .unbound
    .next (if (s.coresOfTask b.task).isEmpty then s.modTask b.task fun t => { t with stop := .none } else s)
  else .next s

/-! ### Resumption -/

/-- A memory with its words' errors as the restore leaves them: an uncorrectable word reads poisoned (R341). -/
def Ram.restored (r : Ram) : Ram :=
  { r with marks := r.marks.map fun kv => (kv.1, if kv.2 == .bad then .poisoned 0xFF else kv.2) }

/-- A memory moved by an offset in bytes, a multiple of 8. -/
def Ram.moved (r : Ram) (src dst : Nat) : Ram :=
  { bytes := r.bytes.map fun c => (c.1 - src + dst, c.2), marks := r.marks.map fun c => (c.1 - src / 8 + dst / 8, c.2) }

/-- The stamps of a resumed member: on its new core and cluster, and no longer held (R343). -/
def State.resumeStamps (s : State) (task memb c : Nat) : State :=
  (s.stampsWhere fun st => st.task == task && st.memb == memb).foldl (fun s i => s.modStamp i fun st => { st with
    core := c, held := false, copies := st.copies.map fun x => { x with core := coreAt (clusterOf c) (withinOf x.core) } }) s

/-- Restores a saved member on a core, where it is Running (R30, R342, R343): its granules, and every other byte zero. What it reads
next is newest (R272). -/
def State.resumeMember (s : State) (c : Nat) (x : SavedCtx) (save : Nat) : State :=
  let task := x.bind.task
  let k := s.getCore c
  let s := if x.spilled then
      (s.clearShare c).modCluster (clusterOf c) fun cl => { cl with
        cm := cl.cm.merge (x.share.restored.moved (withinOf x.core * shareBytes) (withinOf c * shareBytes))
        participants := cl.participants ++ x.bars, objects := cl.objects ++ x.objects, farWaits := cl.farWaits ++ x.farWaits }
    else s
  let s := s.dropClean (clusterOf c)
  let wait := match x.seq.wait with
    | .page _ => Wait.retry
    | w => w
  let s := s.setCore c { k with
    mstate := .running, bind := some { x.bind with save := save }
    seq := { x.seq with wait := wait }
    slots := x.slots, arrayFree := x.arrayFree, cmds := x.cmds, nextCmd := x.nextCmd, collSeq := x.collSeq, wp := x.wp
    handles := x.handles, scratch := if x.spilled then x.scratch.restored else k.scratch
    granules := if x.spilled then [] else k.granules, savedGranules := if x.spilled then x.granules else k.savedGranules
    early := {}, preempt := false, pointTold := false, captured := false, stopHold := false }
  let s := s.resumeStamps task x.memb c
  let s := s.modTask task fun t => { t with
    state := .running, boundAt := s.tick, stop := .none
    far := t.far.map fun f => { f with point := false, saved := false }, saves := t.saves.filter fun y => y.memb != x.memb }
  s.recordOn c freezeStream (2 ^ 64 - 1) (BitVec.ofNat 64 (s.tick - x.frozenAt))

/-- Whether a gang's save is still under way: members to be captured, or spills. -/
def Task.saving (t : Task) : Bool :=
  match t.stop with
  | .freezing .. => true
  | .spilling => true
  | _ => false

/-- Whether every member of a gang resumes where it may (R343): on the core that still holds it, or on one that R343 allows. -/
def State.resumesOk (s : State) (task tick : Nat) : Bool :=
  (s.gangRecords task 2 tick).all fun k => s.bindStatus k != 1 || s.continues (s.bindCore k) task (s.bindMemb k) || s.resumeOk k

/-- R342: a RESUME record acts, in a cycle of its core (R29): with the records of the whole gang (R32), each for a core where its member
may resume (R343), the member runs again from its saved state, once its gang's save is complete. A core that has failed is a gang member
lost (R338). -/
def execEvResumeExecute (n : Nat) (s : State) : Result :=
  let c := s.bindCore n
  let task := s.bindTask n
  let tick := s.bindTick n
  if !s.recordDue n 2 || (s.getTask task).saving || !s.ticks (c / 2) then .next s
  else if s.coreLost task 2 tick then .next (((s.gangRecords task 2 tick).foldl State.spendRecord s).loseMember task)
  else
    let go := s.gangStarts task 2 tick && s.resumesOk task tick
    let s := s.setBindStatus n 2
    match s.savedCtx task (s.bindMemb n) with
    | some x => .next (if go then (s.resumeMember c x (s.bindSave n)).later [.seq c] else s)
    | none => .next s

/-! ### What other packages tell -/

/-- What is known of a member on another package, changed by `f`. -/
def Task.modFar (t : Task) (memb : Nat) (f : FarMember → FarMember) : Task :=
  let x := (t.far.find? fun y => y.memb == memb).getD { memb := memb }
  { t with far := (t.far.filter fun y => y.memb != memb) ++ [f x] }

end Sys2Proof.Machine
end

