-- ==== Sys2Proof/Machine/Shake.lean ====
section
/-!
DEFINITION. SHAKE256 with 512 bits of output, which measurements and the audit chain use (R375, R377), and SHA3-512 (R376). Bytes are given
lowest address first (R6, log entry 12, DEDUCED).
-/

namespace Sys2Proof.Shake

/-- Rotation of a lane to the left. -/
def rot (w : Word) (k : Nat) : Word := w.rotateLeft k

/-- Rotation amounts by lane x + 5 y. -/
def offsets : List Nat := [0, 1, 62, 28, 27, 36, 44, 6, 55, 20, 3, 10, 43, 25, 39, 41, 45, 15, 21, 8, 18, 2, 61, 56, 14]

/-- Round constants. -/
def constants : List Word :=
  [0x1, 0x8082, 0x800000000000808A, 0x8000000080008000, 0x808B, 0x80000001, 0x8000000080008081, 0x8000000000008009,
   0x8A, 0x88, 0x80008009, 0x8000000A, 0x8000808B, 0x800000000000008B, 0x8000000000008089, 0x8000000000008003,
   0x8000000000008002, 0x8000000000000080, 0x800A, 0x800000008000000A, 0x8000000080008081, 0x8000000000008080,
   0x80000001, 0x8000000080008008]

/-- Lane (x, y) of a state of 25 lanes. -/
def lane (a : List Word) (x y : Nat) : Word := a.getD (x % 5 + 5 * (y % 5)) 0

/-- The column parities spread to every lane. -/
def theta (a : List Word) : List Word :=
  let c := (List.range 5).map fun x => lane a x 0 ^^^ lane a x 1 ^^^ lane a x 2 ^^^ lane a x 3 ^^^ lane a x 4
  (List.range 25).map fun i => a.getD i 0 ^^^ c.getD ((i + 4) % 5) 0 ^^^ rot (c.getD ((i + 1) % 5) 0) 1

/-- Lanes rotated and moved: lane (x, y) goes to (y, 2 x + 3 y). -/
def rhoPi (a : List Word) : List Word :=
  (List.range 25).map fun i =>
    let x := (i % 5 + 3 * (i / 5)) % 5
    let j := x + 5 * (i % 5)
    rot (a.getD j 0) (offsets.getD j 0)

/-- The row mixing. -/
def chi (b : List Word) : List Word :=
  (List.range 25).map fun i => lane b i (i / 5) ^^^ (~~~ (lane b (i % 5 + 1) (i / 5)) &&& lane b (i % 5 + 2) (i / 5))

/-- One round. -/
def round (a : List Word) (rc : Word) : List Word :=
  match chi (rhoPi (theta a)) with
  | [] => []
  | x :: rest => (x ^^^ rc) :: rest

/-- The permutation of 24 rounds. -/
def permute (a : List Word) : List Word := constants.foldl round a

/-- Bytes of a block: 1088 bits of SHAKE256. -/
def rate : Nat := 136

/-- Bytes of a block of SHA3-512: 576 bits. -/
def shaRate : Nat := 72

/-- The lanes of one block's bytes. -/
def lanesOf (bs : List Byte) : List Word :=
  (List.range 25).map fun i => BitVec.ofNat 64 (ofBytes ((bs.drop (8 * i)).take 8))

/-- Absorbs `n` whole blocks of `r` bytes. -/
def absorb (r : Nat) : Nat → List Byte → List Word → List Word
  | 0, _, a => a
  | n + 1, bs, a => absorb r n (bs.drop r) (permute (List.zipWith (fun x y => x ^^^ y) a (lanesOf (bs.take r))))

/-- The message with its padding to blocks of `r` bytes, which begins with the bits of `suffix`. -/
def padded (r : Nat) (suffix : Byte) (bs : List Byte) : List Byte :=
  let n := (bs.length / r + 1) * r
  let k := n - bs.length
  if k = 1 then bs ++ [suffix ||| 0x80] else bs ++ [suffix] ++ List.replicate (k - 2) 0 ++ [0x80]

/-- The first 512 bits that the sponge gives for a message. -/
def sponge (r : Nat) (suffix : Byte) (bs : List Byte) : BitVec 512 :=
  let p := padded r suffix bs
  let a := absorb r (p.length / r) p (List.replicate 25 0)
  BitVec.ofNat 512 (ofBytes ((a.take 8).flatMap fun w => toBytes 8 w.toNat))

/-- The first 512 bits of SHAKE256 of a message. -/
def shake256 (bs : List Byte) : BitVec 512 := sponge rate 0x1F bs

/-- SHA3-512 of a message (R376). -/
def sha3 (bs : List Byte) : BitVec 512 := sponge shaRate 0x06 bs

/-- SHAKE256 of two 512-bit values, one after the other. -/
def join (a b : BitVec 512) : BitVec 512 := shake256 (toBytes 64 a.toNat ++ toBytes 64 b.toNat)

end Sys2Proof.Shake
end

