-- ==== Sys2Proof/Machine/Audit.lean ====
section
/-!
DEFINITION. The event arbiter (R322 to R325) with the trace ring (R395) and the audit log (R377, R378): taking an event,
checkpoints, freeing, firmware notes; measurements (R375) and the SPDM responder (R376).
-/

namespace Sys2Proof.Machine

/-! ### Audited writes -/

/-- AUDSTAT.FULL (R378). -/
def State.auditFull (s : State) : Bool := decide (s.auditFree ≤ 256)

/-- AUDSTAT (R378). -/
def State.audstat (s : State) : Word := BitVec.ofNat 64 (bit01 s.auditFull * 2 ^ 63 + s.auditFree)

/-- An audited Saiga write of register `reg` (R377): with `ok` it takes effect by `f`, else it is refused; either way it makes
its entry. While the log is full it is ignored and makes none (R378). -/
def State.auditedWrite (s : State) (reg kind part : Nat) (old v : Word) (ok : Bool) (f : State → State) : State :=
  if !s.saigaRuns || s.auditFull then s
  else (if ok then f s else s).present orderSaiga (.audit kind part 1 (Config.auditLayout reg old.toNat v.toNat (!ok)))

/-! ### The arbiter -/

/-- Records in a queue of `n` places between a head and a tail. -/
def queued (n head tail : Nat) : Nat := (tail + n - head % n) % n

/-- The place of record `i` of the event queue in Saiga SRAM (R323). What would lie past the SRAM's end is nowhere (log entry 94, DESIGN
CHOICE). -/
def State.evPlace (s : State) (i : Nat) : Nat := s.evcfg.fld 31 12 * 4096 + 32 * i

/-- Whether the event queue is full (R325). -/
def State.evFull (s : State) : Bool := queued (queueSize s.evcfg) s.evhead s.evtail == queueSize s.evcfg - 1

/-- Unconsumed records that concern partition `p` (R325). -/
def State.evOf (s : State) (p : Nat) : Nat :=
  let n := queueSize s.evcfg
  ((List.range (queued n s.evhead s.evtail)).filter fun i =>
    s.saiga.num (s.evPlace ((s.evhead + i) % n) + 6) 2 == p).length

/-- Whether a partition has its share of the queue (R325). -/
def State.evShare (s : State) (p : Nat) : Bool := decide (queueSize s.evcfg / 16 ≤ s.evOf p)

/-- Whether a class's events concern one partition (R325). -/
def ownClass (cls : Nat) : Bool := cls == 1 || cls == 2 || cls == 6

/-- Whether the arbiter may take an event now (R325, R378); the queue is not full. -/
def State.takes (s : State) (e : Event) : Bool :=
  match e with
  | .saiga _ part cls .. => !(ownClass cls && s.evShare part)
  | .audit _ _ actor _ => decide ((if actor = 3 then 4096 else 0) < s.auditFree)
  | .trace .. => true

/-- A class-6 event that its partition's share would hold is merged into the partition's count (R325). -/
def State.mergeOne (s : State) (p : Pending) : State :=
  match p.ev with
  | .saiga _ part 6 .. =>
    if s.evShare part then
      { (s.modPart part fun x => { x with merged6 := min 65535 (x.merged6 + 1) }) with pending := s.pending.erase p }
    else s
  | _ => s

/-- The first of the events with the least source (R324). -/
def firstPending : List Pending → Option Pending
  | [] => none
  | p :: rest =>
    match firstPending rest with
    | none => some p
    | some q => if q.order < p.order then some q else some p

/-- The 32 bytes of a record (R323). -/
def recordBits (seq tick val part cls code detail unit src core : Nat) : Nat :=
  seq % 2 ^ 64 * 2 ^ 192 + tick % 2 ^ 64 * 2 ^ 128 + val % 2 ^ 64 * 2 ^ 64 + part % 2 ^ 16 * 2 ^ 48 + cls % 256 * 2 ^ 40
    + code % 256 * 2 ^ 32 + detail % 256 * 2 ^ 24 + unit % 16 * 2 ^ 20 + src % 4 * 2 ^ 18 + core % 256 * 2 ^ 10

/-- The 64 bytes of a trace record (R395). -/
def traceBits (seq tick mcc kind core unit node d0 d1 d2 d3 : Nat) : Nat :=
  seq % 2 ^ 64 * 2 ^ 448 + tick % 2 ^ 64 * 2 ^ 384 + mcc * 2 ^ 320 + kind % 256 * 2 ^ 312 + core % 256 * 2 ^ 304
    + unit % 16 * 2 ^ 300 + node % 2 ^ 32 * 2 ^ 264 + d3 * 2 ^ 192 + d2 * 2 ^ 128 + d1 * 2 ^ 64 + d0

/-- Bits 1023:512 of an audit entry (R377). -/
def auditBody (seq tick kind part actor payload : Nat) : BitVec 512 :=
  BitVec.ofNat 512 (seq % 2 ^ 64 * 2 ^ 448 + tick % 2 ^ 64 * 2 ^ 384 + kind % 2 ^ 16 * 2 ^ 368 + part % 2 ^ 16 * 2 ^ 352
    + actor % 256 * 2 ^ 344 + payload % 2 ^ 320)

/-- MRi (R375). -/
def State.mrOf (s : State) (i : Nat) : BitVec 512 := Store.get 0 s.mr i

/-- Appends an entry to the audit log, with its CHAIN (R377). -/
def State.appendAudit (s : State) (kind part actor payload : Nat) : State :=
  let body := auditBody s.evseq s.tick kind part actor payload
  let chain := Shake.join (s.chain.getD (s.mrOf 0)) body
  { s with
    audit := Store.insert (Store.erase s.audit s.evseq) s.evseq ⟨body, chain⟩
    chain := some chain, lastAudit := s.evseq, sinceCkpt := s.sinceCkpt + 1 }

/-- Takes an event: its record in Saiga's queue, its audit entry, or its place in the trace ring (R323, R377, R395). -/
def State.takeEvent (s : State) (e : Event) : State :=
  let s := match e with
    | .saiga val part cls code detail unit src core =>
      let v := if cls = 6 then (s.getPart part).merged6 else val.toNat
      let bits := recordBits s.evseq s.tick v part cls code detail unit src core
      let s := if cls = 6 then s.modPart part fun x => { x with merged6 := 0 } else s
      { s with
        saiga := s.saiga.store (s.evPlace s.evtail) ((toBytes 32 bits).take (sramBytes - s.evPlace s.evtail)) false, evtail := (s.evtail + 1) % queueSize s.evcfg }
    | .audit kind part actor payload => s.appendAudit kind part actor payload
    | .trace part mcc kind core unit node d0 d1 d2 d3 =>
      let p := s.getPart part
      let cap := 2 ^ p.dbgcfg.fld 31 24 / 64
      let bits := traceBits s.evseq s.tick mcc.toNat kind core unit node d0.toNat d1.toNat d2.toNat d3.toNat
      let s := s.modPart part fun p => { p with traceCount := p.traceCount + 1 }
      { s with hbm := s.hbm.store (p.trbase.fld 51 12 * 4096 + 64 * (p.traceCount % cap)) (toBytes 64 bits) false }
  { s with evseq := s.evseq + 1 }

/-- What follows a record that the arbiter has taken: the abort of the task of the Faulted member that a class-1 record reports (R325,
R353), or the release of its core where the task is gone already; the recovery of the member that a class-3 record reports struck
(R356). -/
def State.followUp (s : State) (e : Event) : State :=
  match e with
  | .saiga _ part cls _ _ _ _ core =>
    let k := s.getCore core
    if cls = 1 && decide (core < 72) && k.mstate == .faulted && k.bind.isSome && k.binding.task == 0 then s.releaseCore core .retired
    else if cls = 1 && decide (core < 72) && k.mstate == .faulted && k.replay.isNone && k.binding.part == part then
      s.soon [.event (.tabort (abortWord part k.binding.task))]
    else if cls = 3 && decide (core < 72) && k.struck then s.soon [.event (.recover core)]
    else s
  | _ => s

/-- R324, R325: the arbiter takes one event, that of the first source in its order which it may take; with the queue full it
takes none and HELD is set. A Faulted member stays so until its record is taken. -/
def execEvEventTaken (s : State) : Result :=
  if s.evFull then .next (if s.pending.isEmpty then s else { s with sgstat := s.sgstat.put 7 7 1 })
  else
    let s := s.pending.foldl State.mergeOne s
    match firstPending (s.pending.filter fun p => s.takes p.ev) with
    | none => .next s
    | some p =>
      let s := (State.takeEvent { s with pending := s.pending.erase p } p.ev).followUp p.ev
      .next (if s.evFull then { s with sgstat := s.sgstat.put 7 7 1 } else s)

/-- R319, R325: a write of EVHEAD: ignored outside the interval from its value to EVTAIL; an advance clears HELD. -/
def execEvEvhead (v : Word) (s : State) : Result :=
  let n := queueSize s.evcfg
  if !s.saigaRuns || n ≤ v.toNat || queued n s.evhead s.evtail < queued n s.evhead v.toNat then .next s
  else .next { s with evhead := v.toNat, sgstat := if v.toNat = s.evhead then s.sgstat else s.sgstat.put 7 7 0 }

/-- EVCFG or PRQCFG after a write (R321): LOG keeps its value where the written one is outside 6 to 12. -/
def writeQueueCfg (old v : Word) : Word :=
  let log := v.fld 3 0
  let keep := decide (log < 6) || decide (12 < log)
  BitVec.ofNat 64 (v.fld 31 12 * 2 ^ 12 + if keep then old.fld 3 0 else log)

/-- R321: a write of EVCFG: ignored while records stand in the queue. -/
def execEvEvcfg (v : Word) (s : State) : Result :=
  if !s.saigaRuns || s.evhead ≠ s.evtail then .next s
  else
    let cfg := writeQueueCfg s.evcfg v
    .next { s with evcfg := cfg, evhead := s.evhead % queueSize cfg, evtail := s.evtail % queueSize cfg }

/-! ### The audit log -/

/-- The seed of the device identity key (R375). -/
def identitySeed : BitVec 512 := Config.fusedSecret
/-- The seed of the alias key: SHAKE256 of the fused secret, MR0 and MR1 (R375). -/
def State.aliasSeed (s : State) : BitVec 512 :=
  Shake.shake256 (toBytes 64 Config.fusedSecret.toNat ++ toBytes 64 (s.mrOf 0).toNat ++ toBytes 64 (s.mrOf 1).toNat)
/-- A signature with the alias key. -/
def State.sign (s : State) (m : Nat) : Nat := Config.ed448 s.aliasSeed m

/-- R378: after 1,024 entries, or when the host asks, Addax signs (SEQ, CHAIN) of the last entry. -/
def execEvAuditCheckpoint (s : State) : Result :=
  match s.chain with
  | none => .next s
  | some c =>
    .next { s with ckpt := some (s.lastAudit, c, s.sign (s.lastAudit * 2 ^ 512 + c.toNat)), sinceCkpt := 0 }

/-- R378: the host frees, in an SPDM session, the entries up to the SEQ of a delivered checkpoint. -/
def execEvAuditFree (seq : Nat) (s : State) : Result :=
  if s.spdmSession && s.delivered.contains seq then
    .next { s with audit := Store.dropWhere (fun k => decide (k ≤ seq)) s.audit }
  else .next s

/-- R378: a write of AUDW4 appends a firmware note of AUDW0 to AUDW4. -/
def execEvAudw4 (v : Word) (s : State) : Result :=
  if !s.saigaRuns || s.auditFull then .next s
  else
    let s := { s with audw := Store.set 0 s.audw 4 v }
    let note := ((List.range 5).map fun i => (Store.get 0 s.audw i).toNat * 2 ^ (64 * i)).sum
    .next (s.present orderSaiga (.audit 15 0xFFFF 1 note))

/-- R375: a write of MRGO extends MR3 to MR7 by the digest in MREXT0 to MREXT7; other numbers are ignored. Each is audited. -/
def execEvMrgo (v : Word) (s : State) : Result :=
  let i := v.toNat
  let d : BitVec 512 := BitVec.ofNat 512 ((List.range 8).map fun k => (Store.get 0 s.mrext k).toNat * 2 ^ (64 * k)).sum
  .next (s.auditedWrite 0x8B0 7 0xFFFF 0 v (decide (3 ≤ i) && decide (i ≤ 7)) fun s =>
    { s with mr := Store.set 0 s.mr i (Shake.join (s.mrOf i) d) })

/-! ### SPDM -/

/-- Measurement block 9: SEQ and CHAIN of the latest checkpoint (R376). -/
def State.block9 (s : State) : List (BitVec 512) :=
  match s.ckpt with
  | some (seq, c, _) => [BitVec.ofNat 512 seq, c]
  | none => []

/-- The blocks that a measurement request names: 0 all of them, 1 to 9 one (R376). -/
def State.measured (s : State) (block : Nat) : List (BitVec 512) :=
  let mrs := (List.range 8).map s.mrOf
  if block = 0 then mrs ++ s.block9
  else if block ≤ 8 then (mrs.drop (block - 1)).take 1
  else if block = 9 then s.block9
  else []

/-- The number of an SPDM request's kind, and what it carries. -/
def spdmParts : SpdmReq → Nat × List Nat
  | .version => (0, [])
  | .capabilities => (1, [])
  | .certificate => (2, [])
  | .endSession => (3, [])
  | .measurement b => (4, [b])
  | .challenge n => (5, [n])
  | .checkpoint => (6, [])
  | .auditEntry q => (7, [q])
  | .keyExchange => (8, [])

/-- The messages of an exchange, which the next signature covers. -/
def State.hear (s : State) (q : SpdmReq) (body : List (BitVec 512)) : State :=
  let p := spdmParts q
  { s with transcript := s.transcript ++ Config.spdmBytes p.1 p.2 ++ body.flatMap fun b => toBytes 64 b.toNat }

/-- An answer signed with the alias key over the SHA3-512 of the transcript, which begins anew (R376). -/
def State.answerSigned (s : State) (q : SpdmReq) (body : List (BitVec 512)) : State :=
  let s := s.hear q body
  State.send { s with transcript := [] } (.spdm body (s.sign (Shake.sha3 s.transcript).toNat))

/-- The capabilities of the responder (R376). -/
def spdmCaps : List String := ["CERT", "CHAL", "MEAS_SIG", "KEY_EX", "ENCRYPT", "MAC"]

/-- R376, R378: the physical function answers an SPDM request: versions 1.2 and 1.3, capabilities, the certificate chain, signed
measurements, a challenge, a key exchange, which opens a session; and in a session the latest checkpoint (signed at the host's asking)
and an audit entry. What the messages look like is the SPDM standard's (log entry 119, PRESUMED). -/
def execEvSpdmRequest (q : SpdmReq) (s : State) : Result :=
  match q with
  | .version => .next ((State.hear { s with transcript := [] } q []).send (.spdmVersions [12, 13]))
  | .capabilities => .next ((s.hear q []).send (.spdmCapabilities spdmCaps))
  | .certificate =>
    let identity := Config.publicKey identitySeed
    let key := Config.publicKey s.aliasSeed
    .next ((s.hear q []).send (.spdmCertificate identity (Config.vendorSign identity) key (Config.ed448 identitySeed key)))
  | .measurement block => .next (s.answerSigned q (s.measured block))
  | .challenge _ => .next (s.answerSigned q [])
  | .keyExchange => .next (State.answerSigned { s with spdmSession := true } q [])
  | .endSession => .next { s with spdmSession := false }
  | .auditEntry seq =>
    if !s.spdmSession then .next (s.send .spdmError) else
    match (s.audit.find? fun kv => kv.1 == seq).map Prod.snd with
    | some e => .next (s.send (.spdm [e.chain, e.body] 0))
    | none => .next (s.send (.spdm [] 0))
  | .checkpoint =>
    if !s.spdmSession then .next (s.send .spdmError) else
    match s.chain with
    | none => .next (s.send (.spdm [] 0))
    | some c =>
      let sig := s.sign (s.lastAudit * 2 ^ 512 + c.toNat)
      let s := { s with
        ckpt := some (s.lastAudit, c, sig), sinceCkpt := 0
        delivered := if s.delivered.contains s.lastAudit then s.delivered else s.delivered ++ [s.lastAudit] }
      .next (s.send (.spdm [BitVec.ofNat 512 s.lastAudit, c] sig))

end Sys2Proof.Machine
end

