-- ==== Sys2Proof/Machine/Saiga.lean ====
section
/-!
DEFINITION. What Saiga does to the device: fail-over of its pair (R326), CORECTL (R320), answers to page requests (R349,
R350), invalidations (R351), write-log requests (R354), and the error budget (R80).
-/

namespace Sys2Proof.Machine

/-! ### Boot state and the pair -/

/-- BOOTST with a code and a state; the alert output is asserted when STATE becomes 4 (R403). -/
def State.setBoot (s : State) (code st : Nat) : State :=
  let s := { s with bootst := BitVec.ofNat 64 (code * 2 ^ 24 + st) }
  if st = 4 then ({ s with alert := true }).send .alert else s

/-- SGSTAT.SPARE. -/
def State.spare (s : State) : Nat := s.sgstat.fld 5 4

/-- R317: the pair has retired an instruction alike: both stand with the same architectural state. -/
def execEvHartsRetire (h : Hart) (s : State) : Result :=
  .next (if s.saigaRuns then { s with harts := s.pair.foldl (fun m i => Store.set {} m i h) s.harts } else s)

/-- R326: the lockstep comparison fails, or a pair core reports an error in its state: both stop; with the faulty core identified and a
spare left the fail-over begins; else the complex is out of service. -/
def execEvLockstepFailure (faulty : Option Nat) (s : State) : Result :=
  if s.failingOver || s.saigaOut then .next s
  else
    match faulty.filter fun i => s.pair.contains i && s.spare != 3 with
    | some i => .next { s with failingOver := true, failFrom := s.tick, failedHart := i }
    | none => .next (({ s with saigaOut := true }).setBoot 4 4)

/-- R326: the healthy core's architectural state is copied to the spare, and the two resume in lockstep: SPARE is 3, FOCNT counts, a
class-5 record and an audit entry are made, for which it waits (R378). -/
def execEvFailoverComplete (s : State) : Result :=
  if !s.failingOver || s.auditRoom = 0 then .next s
  else
    let old := s.sgstat
    let v := (old.put 5 4 3).put 1 0 (min 3 (old.fld 1 0 + 1))
    let healthy := (s.pair.filter fun i => i != s.failedHart).headD 0
    let s := { s with
      failingOver := false, sgstat := v, pair := [healthy, s.spare]
      harts := Store.set {} s.harts s.spare (Store.get {} s.harts healthy) }
    .next ((s.present orderSaiga (.saiga 0 0xFFFF 5 0 0 0 0 0xFF)).present orderSaiga
      (.audit 8 0xFFFF 0 (Config.auditLayout 0x810 old.toNat v.toNat false)))

/-! ### CORECTL -/

/-- R320: a write of CORECTL: OOS, which takes effect once the core holds no member (set) or is scrubbed (cleared). Setting it
is audited (R377). -/
def execEvCorectl (core : Nat) (v : Word) (s : State) : Result :=
  if 72 ≤ core || !s.saigaRuns then .next s
  else if v.bit 1 then .next (s.auditedWrite (core * 4096 + 0x400) 8 0xFFFF (s.corectl core) v true fun s => s.wantOos core true)
  else .next (s.wantOos core false)

/-! ### Parts that fail -/

/-- R76, R77: a word of device memory has an error, which its code corrects or does not. -/
def execEvWordError (pa : Nat) (bad : Bool) (s : State) : Result :=
  .next (if placeOf pa = .hbm then { s with hbm := s.hbm.setMark (pa / 8) (if bad then .bad else .corrected) } else s)

/-- The banks of a scratch memory changed by `f`: level 1 core scratchpad, 2 cluster-shared memory, 3 chip scratchpad. -/
def State.modBanks (s : State) (level idx : Nat) (f : Banks → Banks) : State :=
  match level with
  | 1 => if idx < 72 then s.modCore idx fun k => { k with banks := f k.banks } else s
  | 2 => if idx < 12 then s.modCluster idx fun k => { k with banks := f k.banks } else s
  | 3 => { s with cpBanks := f s.cpBanks }
  | _ => s

/-- R64: the local code of a bank finds an error in its word at a row. -/
def execEvBankError (level idx group bank row : Nat) (s : State) : Result :=
  .next (s.modBanks level idx fun b => { b with errs := if b.errs.contains (group, bank, row) then b.errs else b.errs ++ [(group, bank, row)] })

/-- R64, R322: Saiga marks a bank failed: a class-4 record. -/
def execEvBankFailed (level idx group bank : Nat) (s : State) : Result :=
  if !s.saigaRuns then .next s else
  let s := s.modBanks level idx fun b => { b with failed := if b.failed.contains (group, bank) then b.failed else b.failed ++ [(group, bank)] }
  let val := level % 4 * 2 ^ 62 + (if level = 3 then 0 else idx % 256) * 2 ^ 32 + group % 1024 * 2 ^ 16 + bank % 32
  .next (s.present orderSaiga (.saiga (BitVec.ofNat 64 val) 0xFFFF 4 0 1 0 0 0xFF))

/-- R322: Saiga disables an L2 slice: a class-4 record. What else changes the manual does not say (log entry 95, DESIGN CHOICE). -/
def execEvSliceOff (slice : Nat) (s : State) : Result :=
  if !s.saigaRuns || s.slicesOff.contains (slice % 4096) then .next s else
  .next ({ s with slicesOff := s.slicesOff ++ [slice % 4096] }.present orderSaiga
    (.saiga (BitVec.ofNat 64 (slice % 4096)) 0xFFFF 4 0 2 0 0 0xFF))

/-! ### Page requests -/

/-- The request that holds a place in the queue, taken out: it is answered. -/
def State.answer (s : State) (idx : Nat) : Option (PageReq × State) :=
  match s.pageReqs.find? fun r => r.index == some idx with
  | some r => some (r, { s with pageReqs := s.pageReqs.filter fun q => q.id != r.id })
  | none => none

/-- R349, R350: Saiga answers a request with retry: the instruction restarts, the region replays from its capture, or the
command resumes at its granule. -/
def execEvPrrespRetry (idx : Nat) (s : State) : Result :=
  if !s.saigaRuns then .next s else
  match s.answer idx with
  | none => .next s
  | some (r, s) =>
    match r.src with
    | .sequencer c =>
      .next (if (s.getCore c).seq.wait == .page r.id then s.modCore c fun k => { k with seq := { k.seq with wait := .retry } } else s)
    | .region i j =>
      .next (if ((s.getStamp i).copy j).page == some r.id then s.modCopy i j fun c => { c with page := none } else s)
    | .engine _ _ => .next s

/-- R349, R350: Saiga answers with refuse: the access fault, precise for a sequencer
(a fetch gives the fetch fault, R143, R200); the region faults; the command stops. -/
def execEvPrrespRefuse (idx : Nat) (s : State) : Result :=
  if !s.saigaRuns then .next s else
  match s.answer idx with
  | none => .next s
  | some (r, s) =>
    match r.src with
    | .sequencer c =>
      if (s.getCore c).seq.wait == .page r.id then
        let s := s.modCore c fun k => { k with seq := { k.seq with wait := .none } }
        let pc := (s.getCore c).seq.pc
        .next (s.trapLate c (if r.kind = 2 then fetchTrap pc else accessTrap r.va) pc)
      else .next s
    | .region i j =>
      .next (if ((s.getStamp i).copy j).page == some r.id then s.faultRegion i j (accessTrap r.va) else s)
    | .engine c m => .next (if c < 72 then s.stopCmd c m (accessTrap r.va) else s)

/-- R349, R319: a write of PRQHEAD: requests are consumed, and those held back enter the queue. -/
def execEvPrqhead (v : Word) (s : State) : Result :=
  let n := queueSize s.prqcfg
  if !s.saigaRuns || n ≤ v.toNat || queued n s.prqhead s.prqtail < queued n s.prqhead v.toNat then .next s
  else .next (s.pageReqs.foldl (fun s _ => s.queueOne) { s with prqhead := v.toNat })

/-! ### Invalidation -/

/-- R351: a write of TLBINV; ignored while DONE is 0. -/
def execEvTlbinv (v : Word) (s : State) : Result :=
  if !s.saigaRuns || !s.tlbinv.bit 63 then .next s
  else .next { s with tlbinv := BitVec.ofNat 64 (v.fld 47 16 * 2 ^ 16 + v.fld 15 0) }

/-- The cached translations of the range that is invalidated, in every TLB. -/
def State.invEntries (s : State) : List TlbEntry :=
  (s.cores.flatMap fun kv => kv.2.seqTlb ++ kv.2.engTlb ++ kv.2.portTlb.flatMap Prod.snd).filter s.invHits

/-- Whether an access to an address may have used an entry of the range (R351): the range holds it, or a translation of it that is cached. -/
def State.invSpans (s : State) (va : Nat) : Bool :=
  (s.invRange :: s.invEntries.map fun e => (e.va, e.size)).any fun r => decide (r.1 ≤ va) && decide (va < r.1 + r.2)

/-- Whether a held request may have used an entry of the range. -/
def State.invHeld (s : State) (h : Held) : Bool :=
  let p := s.tlbinv.fld 15 0
  match h with
  | .store st => st.part == p && s.invSpans st.va.toNat
  | .atom a => (s.getCore a.core).binding.part == p && s.invSpans a.va.toNat
  | .red r => (s.getCore (s.getStamp r.stamp).core).binding.part == p && s.invSpans r.va.toNat
  | .hostRead _ part _ _ => part == p
  | _ => false

/-- Whether what core `c` has issued may have used an entry of the range and is not complete. -/
def State.invCoreBusy (s : State) (c : Nat) : Bool :=
  let k := s.getCore c
  k.bind.isSome && k.binding.part == s.tlbinv.fld 15 0 && (k.seq.unacked != 0 || (k.cmds.any fun m => m.out != 0) || match k.seq.wait with
    | .peer x => s.invSpans x.va.toNat
    | .home => true
    | _ => false)

/-- Whether an access that may have used an entry of the range is neither performed nor voided (R351): an entry of a round
buffer, a fabric load whose value is out, a store on its way or posted, a request held at its home, an access that the sequencer or an
engine waits for. -/
def State.invBusy (s : State) : Bool :=
  let p := s.tlbinv.fld 15 0
  (s.stamps.any fun kv => (s.getTask kv.2.task).part == p && kv.2.copies.any fun c =>
    (c.buffers.any fun b => b.level == 0 && s.invSpans b.va.toNat)
      || c.reg.inflight.any fun f => (f.held.isSome || f.sent.isSome) && f.val.isNone && s.invSpans f.va.toNat)
  || (s.way.any fun st => st.part == p && s.invSpans st.va.toNat)
  || (s.posted.any fun x => x.st.part == p && s.invSpans x.st.va.toNat)
  || s.held.any s.invHeld || allCores.any s.invCoreBusy

/-- A page whose conflict waited for DONE is accessed again. -/
def Conflict.retry (x : Conflict) : Conflict := { x with again := true }

/-- A core without the entries of the range; what waits for DONE is retried. -/
def State.invCore (s : State) (c : Nat) (k : Core) : Core :=
  let keep (l : List TlbEntry) : List TlbEntry := l.filter fun e => !s.invHits e
  let mine := (s.getCore c).binding.part == s.tlbinv.fld 15 0
  { k with
    seqTlb := keep k.seqTlb, engTlb := keep k.engTlb
    portTlb := (k.portTlb.map fun kv => (kv.1, keep kv.2)).filter fun kv => !kv.2.isEmpty
    seq := match k.seq.wait with
      | .conflict x => if mine then { k.seq with wait := .conflict x.retry } else k.seq
      | _ => k.seq
    cmds := if mine then k.cmds.map fun m => { m with conflicts := m.conflicts.map Conflict.retry } else k.cmds }

/-- A page's class lasts until its translations are invalidated (R384): those of the range are forgotten, and the classes that no other
translation keeps. -/
def State.declassify (s : State) : State :=
  let kept := s.classified.filter fun x => !s.invHits ⟨x.1, x.2.1, x.2.2.1, 0⟩
  let gone := (s.classified.filter fun x => s.invHits ⟨x.1, x.2.1, x.2.2.1, 0⟩).map fun x => x.2.2.2
  { s with
    classified := kept
    pageClass := Store.dropWhere (fun k => gone.contains k && kept.all fun x => x.2.2.2 != k) s.pageClass }

/-- The page of a region's base at virtual page `v`, if its translation now gives another frame (R352). -/
def State.movedPage (s : State) (r : DRegion) (v : Nat) : Option Nat :=
  match r.basePages[v - r.base.toNat / 65536]?, s.walk r.part (v * 65536) with
  | some old, some (leaf, size) =>
    let pa := leafPa leaf + v * 65536 % size
    if old = noPage || old = pa then none else some pa
  | _, _ => none

/-- A page of a base has migrated: it lies in frame `pa`, and the rows or groups on it are rebuilt (R127, R352). -/
def State.rebase (s : State) (r : DRegion) (v pa : Nat) : State :=
  let s := { s with derived := s.derived.map fun (x : DRegion) =>
    if x.id == r.id then { x with basePages := x.basePages.set (v - r.base.toNat / 65536) pa } else x }
  s.startBuild (((List.range 512).flatMap fun i => s.unitsOfLine (pa / 128 + i)).filter fun u => u.1 == r.id)

/-- The bases of a partition's regions after its translations of the range have changed. -/
def State.rebaseAll (s : State) (p : Nat) : State :=
  (s.derived.filter fun r => r.part == p).foldl (fun s r =>
    ((pagesOf r.base.toNat r.baseLen).filter fun v =>
      decide (s.invRange.1 ≤ v * 65536) && decide (v * 65536 < s.invRange.1 + s.invRange.2)).foldl (fun s v =>
        match s.movedPage r v with
        | some pa => s.rebase r v pa
        | none => s) s) s

/-- R351: every TLB has dropped the range, and what used it is performed or voided: DONE is 1, and the accesses with a range
conflict are retried. A derived base whose page has moved is rebuilt there (R127, R352). -/
def execEvTlbinvDone (s : State) : Result :=
  if s.tlbinv.bit 63 || s.invBusy then .next s
  else
    let p := s.tlbinv.fld 15 0
    .next <| State.rebaseAll (p := p) { s.declassify with
      tlbinv := s.tlbinv.put 63 63 1
      cores := s.cores.map fun kv => (kv.1, s.invCore kv.1 kv.2)
      stamps := s.stamps.map fun (kv : Nat × Stamp) => if (s.getTask kv.2.task).part == p then
        (kv.1, { kv.2 with copies := kv.2.copies.map fun (c : Copy) => { c with conflicts := c.conflicts.map Conflict.retry } })
        else kv }

/-! ### The write log -/

/-- R317: a word of the SRAM has an error, which its code corrects or does not. -/
def execEvSramError (addr : Nat) (bad : Bool) (s : State) : Result :=
  .next (if addr < sramBytes then { s with saiga := s.saiga.setMark (addr / 8) (if bad then .bad else .corrected) } else s)

/-- Whether a task of a partition runs. -/
def State.partRuns (s : State) (p : Nat) : Bool := s.tasks.any fun kv => kv.2.part == p && kv.2.state == .running

/-- WLSTAT (R354). -/
def Part.wlstat (p : Part) : Word := BitVec.ofNat 64 (p.wlog.length * 2 ^ 32 + bit01 p.wlFull)

/-- R354: a host write of WLREQ: Saiga copies SIZE into the partition's WLCFG, once no task of it is Running. -/
def execEvWlreq (v : Word) (s : State) : Result :=
  let p := v.fld 63 48
  if s.partRuns p || !s.saigaRuns then .next (s.modPart p fun x => { x with wlreq := some (v.fld 11 0) })
  else
    let old := (s.getPart p).wlcfg
    let new := old.put 63 52 (v.fld 11 0)
    .next ((s.modPart p fun x => { x with wlreq := none }).auditedWrite 0x843 5 p old new true fun s =>
      s.modPart p fun x => { x with wlcfg := new })

/-! ### The error budget -/

/-- R80: a write of EBUD of the partition PIDX selects; one with a non-zero WINDOW begins the windows. One that leaves COUNT at or above
LIMIT sets no EXH: the next charge does (log entry 120, DESIGN CHOICE). -/
def execEvEbud (v : Word) (s : State) : Result :=
  let p := s.pidx % 65536
  if !s.saigaRuns then .next s else
  .next (s.modPart p fun x => { x with
    ebud := ((v.put 61 56 0).put 63 63 (if v.bit 63 then 0 else x.ebud.fld 63 63))
    ebudFrom := if v.fld 55 48 = 0 then x.ebudFrom else s.tick })

/-- Whether the present window of a partition's budget has ended. -/
def State.windowEnds (s : State) (p : Nat) : Bool :=
  let x := s.getPart p
  let w := x.ebud.fld 55 48 * 10 ^ 9
  decide (w ≠ 0) && decide (x.ebudFrom + w ≤ s.tick)

/-- R80: COUNT is cleared at the end of each window. -/
def execEvEbudWindowExpiry (part : Nat) (s : State) : Result :=
  .next (if s.windowEnds part then s.modPart part fun x =>
    { x with ebud := x.ebud.put 23 0 0, ebudFrom := x.ebudFrom + x.ebud.fld 55 48 * 10 ^ 9 } else s)

end Sys2Proof.Machine
end

