-- ==== Sys2Proof/Machine/Recovery.lean ====
section
/-!
DEFINITION. Losing a gang member (R356), what a gang's other packages tell, and losing a line (R357).
-/

namespace Sys2Proof.Machine

/-- The rollback of a revocable task whose member on core `c` is lost, on every package (R356); the core goes out of service (R377). -/
def State.rollback (s : State) (c task : Nat) : State :=
  let old := s.corectl c
  let s := (s.wantOos c true).loseMember task
  s.present orderSaiga (.audit 8 0xFFFF 0 (Config.auditLayout (c * 4096 + 0x400) old.toNat (old ||| 2).toNat false))

/-- R30, R33, R356: an uncorrectable error strikes a core's state: its member is Faulted, and its barriers break; the error is charged
(R81), and a class-3 record is made (whose VAL, for state that has no address, is a free value: log entry 4, DESIGN CHOICE), with which
the recovery begins (R325). -/
def execEvUncorrectableError (core : Nat) (s : State) : Result :=
  if 72 ≤ core then .next s
  else
    let val := s.free.1
    let s := s.free.2
    match (s.getCore core).bind with
    | none => .next (s.present core (.saiga val 0xFFFF 3 0 0 0 0 core))
    | some b =>
      let s := s.modCore core fun k => { k with
        struck := true, mstate := if k.mstate == .running || k.mstate == .waiting then .faulted else k.mstate }
      let s := (s.present core (.saiga val b.part 3 0 0 0 0 core)).charge b.part 64 core
      .next (if (s.getCore core).replay.isSome then s else s.soon [.event (.memberGone b.task b.memb)])

/-- The recovery of the member that an error has struck (R356): its task is rolled back while it is revocable, else aborted. -/
def State.recover (s : State) (core : Nat) : State :=
  let k := s.getCore core
  if k.struck && k.bind.isSome && k.replay.isNone then
    if (s.getTask k.binding.task).irrevocable then s.abortTask k.binding.task else s.rollback core k.binding.task
  else s

/-- R356: the recovery of a struck member begins, once the audit log has a free entry for the OOS (R378). -/
def execEvRecover (core : Nat) (s : State) : Result :=
  .next (s.audited (.recover core) fun s => s.recover core)

/-- A gang's rollback that another package tells of (R356): it is rolled back here too; where only this package has too few free cores the
others are told. -/
def State.rollbackTold (s : State) (task : Nat) (enough : Bool) : State :=
  let t := s.getTask task
  if t.irrevocable || !(t.state == .running || t.state == .saved || t.state == .bound || t.state == .eligible) then s
  else
    let r := s.rollbackHere task
    let s := r.2.restartTask task (enough && r.1)
    if enough && !r.1 then s.tell task 0 (.rollback false) else s

/-- R32, R33, R36, R38, R39, R41, R258, R356: another package of a gang tells of a member there. -/
def execEvGangNews (task memb : Nat) (n : GangNews) (s : State) : Result :=
  let t := s.getTask task
  .next <| match n with
  | .armed op tick => (s.modTask task fun t => t.modFar memb fun f => { f with armed := some (op, tick) }).noteBound task
  | .cancelled => s.modTask task fun t =>
    { t.modFar memb fun f => { f with armed := none } with state := if t.state == .bound then .eligible else t.state }
  | .point => s.modTask task fun t => t.modFar memb fun f => { f with point := true }
  | .saved => s.modTask task fun t =>
    let t := t.modFar memb fun f => { f with saved := true }
    if t.state == .running && t.allSaved && (s.coresOfTask task).all (fun c => (s.getCore c).captured) then { t with state := .saved } else t
  | .retired coll =>
    if t.state != .running || t.far.any fun f => f.memb == memb && f.retired then s
    else ((s.modTask task fun t => t.modFar memb fun f => { f with retired := true }).noteGone task memb coll).countRetired task
  | .faulted coll => s.noteGone task memb coll
  | .freeze tick debug => if t.mayFreeze then s.modTask task fun t => { t with freezeAt := some (tick, debug) } else s
  | .aborted => s.abortHere task
  | .signalled trig => s.noteSignal task trig
  | .rollback enough => s.rollbackTold task enough

/-- R357, R127: an agent dies with the only modified copy of a line: the line is marked lost, LOST is set in every slot it
feeds, and a class-3 record is made. -/
def execEvLineLost (pa : Nat) (s : State) : Result :=
  if placeOf pa ≠ .hbm then .next s
  else
    let line := pa / 128
    let e := s.patEntry (pa / 2 ^ 21)
    let part := if e.bit 63 then e.fld 47 32 else 0xFFFF
    let s := { s with
      lost := if s.lost.contains line then s.lost else s.lost ++ [line], lines := Store.set .inv s.lines line .lost }
    let s := (s.unitsOfLine line).foldl (fun s u =>
      match s.region u.1 with
      | none => s
      | some r => s.putSlot u.1 u.2 ((r.slot u.2).setBit stLost true)) s
    .next (s.present (orderSlice (Config.homeSlice line)) (.saiga (BitVec.ofNat 64 pa) part 3 0 0 0 0 0xFF))

end Sys2Proof.Machine
end

