-- ==== Sys2Proof/Machine/Partition.lean ====
section
/-!
DEFINITION. Partitions: their registers (R361, R362, R364, R365, R367, R332), the frames and blocks of HBM (R368, R369),
sealing (R372), release (R374), and the interfaces of the virtual functions (R363, R405).
-/

namespace Sys2Proof.Machine

/-! ### Interfaces -/

/-- Whether a partition's interface refuses Saiga's writes (R363). -/
def Part.locked (p : Part) : Bool := p.tdisp == .locked || p.tdisp == .run

/-- Number of a TDISP state, for the audit entry. -/
def tdispNo : Tdisp → Nat
  | .unlocked => 0
  | .locked => 1
  | .run => 2
  | .error => 3

/-- An interface's state changes, with its audit entry (R363, R377). -/
def State.setTdisp (s : State) (p : Nat) (t : Tdisp) (actor : Nat) : State :=
  let old := (s.getPart p).tdisp
  if old == t then s
  else (s.modPart p fun x => { x with tdisp := t }).present orderHost
    (.audit 9 p actor (Config.auditLayout 0 (tdispNo old) (tdispNo t) false))

/-- The interface moves to ERROR: the partition's tasks are aborted (R363). -/
def State.tdispError (s : State) (p : Nat) : State := (s.setTdisp p .error 0).abortPart p

/-- An audited Saiga write that a locked interface of partition `p` refuses, and which then moves it to ERROR (R363). -/
def State.guardedWrite (s : State) (reg kind p : Nat) (old v : Word) (ok : Bool) (f : State → State) : State :=
  if (s.getPart p).locked && s.saigaRuns && !s.auditFull then (s.auditedWrite reg kind p old v false id).tdispError p
  else s.auditedWrite reg kind p old v ok f

/-- The present partition bound to a virtual function (R363). -/
def State.partOfVf (s : State) (vf : Nat) : Option Nat :=
  if vf = 0 then none
  else (s.parts.find? fun kv => kv.2.prect.bit 63 && kv.2.prect.fld 57 52 == vf).map Prod.fst

/-- The interface's state after a request that changes it: a lock in CONFIG_UNLOCKED, a start in CONFIG_LOCKED, a stop in every other
state (the TDISP standard: log entry 13, PRESUMED). -/
def tdispAfter (q : TdispReq) (t : Tdisp) : Option Tdisp :=
  match q, t with
  | .lock, .unlocked => some .locked
  | .start, .locked => some .run
  | .stop, .unlocked => none
  | .stop, _ => some .unlocked
  | _, _ => none

/-- The IDE keys of a function's stream are programmed, 0 being the physical one, in an SPDM session (R363, R377). -/
def State.programIde (s : State) (vf : Nat) : State :=
  if !s.spdmSession || 12 < vf then s
  else s.audited (.tdispRequest vf .ideKeys) fun s =>
    State.present { s with ideKeys := if s.ideKeys.contains vf then s.ideKeys else s.ideKeys ++ [vf] } orderHost
      (.audit 9 ((s.partOfVf vf).getD 0xFFFF) 2 (Config.auditLayout 0 0 4 false))

/-- R363: a TDISP request of a virtual function, or the programming of a stream's IDE keys, the physical function's among them; what the
interface's state does not provide for has no effect. A function bound to no partition answers that the request is not supported. -/
def execEvTdispRequest (vf : Nat) (q : TdispReq) (s : State) : Result :=
  match q with
  | .ideKeys => .next (s.programIde vf)
  | q =>
    match s.partOfVf vf with
    | none => .next (s.send (.unsupported vf))
    | some p =>
      match tdispAfter q (s.getPart p).tdisp with
      | none => .next s
      | some t => .next (s.audited (.tdispRequest vf q) fun s => s.setTdisp p t 2)

/-- R405: an FLR of a virtual function aborts the tasks of its partition, whose interface leaves RUN for ERROR. -/
def execEvVfFlr (vf : Nat) (s : State) : Result :=
  match s.partOfVf vf with
  | none => .next s
  | some p =>
    .next (if (s.getPart p).tdisp == .run then s.audited (.vfFlr vf) fun s => (s.setTdisp p .error 2).abortPart p else s.abortPart p)

/-! ### The rectangle -/

/-- The clusters of a rectangle (R361). -/
def rectClusters (prect : Word) : List Nat := (List.range 12).filter fun cl => inRect prect cl

/-- The other partitions that are present. -/
def State.others (s : State) (p : Nat) : List (Nat × Part) := s.parts.filter fun kv => kv.1 != p && kv.2.prect.bit 63

/-- Whether a member of a partition is bound. -/
def State.partBound (s : State) (p : Nat) : Bool :=
  allCores.any fun c => match (s.getCore c).bind with
    | some b => b.part == p
    | none => false

/-- Whether a written PRECT is accepted (R361); one whose fields lie outside their ranges is not (log entry 14, DESIGN CHOICE). -/
def State.prectOk (s : State) (p : Nat) (v : Word) : Bool :=
  let old := (s.getPart p).prect
  let same := v.fld 15 8 == old.fld 15 8
  let ranges := decide (v.fld 57 52 ≤ 12) && decide (v.fld 12 10 ≤ 5) && decide (v.fld 15 13 ≤ v.fld 12 10) && decide (v.fld 9 9 ≤ v.fld 8 8)
  let overlap := v.bit 63 && (s.others p).any fun kv => (rectClusters v).any fun cl => inRect kv.2.prect cl
  let vfHeld := v.fld 57 52 != 0 && (s.others p).any fun kv => kv.2.prect.fld 57 52 == v.fld 57 52
  let room := old.bit 63 || !v.bit 63 || decide ((s.others p).length < 12)
  let changes := !same || (old.bit 63 && !v.bit 63)
  ranges && !overlap && !vfHeld && room && !(changes && (s.partBound p || decide (0 < s.queuedIn p)))

/-- The lowest local partition index that is free (R361). -/
def State.freeLpi (s : State) (p : Nat) : Nat :=
  (((List.range 12).map fun i => i + 1).find? fun i => (s.others p).all fun kv => kv.2.prect.fld 62 59 != i).getD 0

/-- Invalidates the L2 lines that satisfy `p`. -/
def State.dropL2 (s : State) (p : L2Line → Bool) : State :=
  let sets := s.l2.map fun kv => (kv.1, kv.2.filter fun l => !p l)
  { s with l2 := sets.filter fun kv => !kv.2.isEmpty }

/-- A partition is released (R374): its declarations end once they are quiet. -/
def State.releasePart (s : State) (p : Nat) : State :=
  let old := (s.getPart p).prect
  let s := State.endRegions { s with derived := s.derived.map fun (r : DRegion) => if r.part == p then { r with ending := true } else r }
  let s := s.dropL2 fun l => l.owner == old.fld 62 59
  let s := s.setTdisp p .unlocked 0
  State.modPart { s with ideKeys := s.ideKeys.filter fun vf => vf == 0 || vf != old.fld 57 52 } p fun x => { x with allow := [], wlog := [] }

/-- R361: a write of PRECT of the partition PIDX selects. Setting V gives the lowest free index; clearing it releases the
partition. -/
def execEvPrect (v : Word) (s : State) : Result :=
  let p := s.pidx % 65536
  let old := (s.getPart p).prect
  .next (s.guardedWrite 0x845 1 p old v (s.prectOk p v) fun s =>
    let lpi := if !v.bit 63 then 0 else if old.bit 63 then old.fld 62 59 else s.freeLpi p
    let s := if old.bit 63 && !v.bit 63 then s.releasePart p else s
    let new := BitVec.ofNat 64 (bit01 (v.bit 63) * 2 ^ 63 + lpi * 2 ^ 59 + v.fld 57 52 * 2 ^ 52 + v.fld 15 8 * 2 ^ 8)
    s.modPart p fun x => { x with prect := new })

/-- R362: a write of CREMAP: ignored when a cluster of the rectangle would go outside it; the other fields keep their own
index. -/
def execEvCremap (v : Word) (s : State) : Result :=
  let p := s.pidx % 65536
  let x := s.getPart p
  let inside := (List.range 12).filter fun c => x.prect.bit 63 && inRect x.prect c
  let ok := inside.all fun c => inRect x.prect (v.fld (4 * c + 3) (4 * c))
  let new := (List.range 12).foldl
    (fun (w : Word) c => w.put (4 * c + 3) (4 * c) (if inside.contains c then v.fld (4 * c + 3) (4 * c) else c)) 0
  .next (s.guardedWrite 0x849 2 p x.cremap v ok fun s => s.modPart p fun x => { x with cremap := new })

/-! ### Policy, ways, window, allow-list -/

/-- R364: a write of PPOL: ignored when it would raise the sum of the quotas of the present partitions above 4,096. -/
def execEvPpol (v : Word) (s : State) : Result :=
  let p := s.pidx % 65536
  let x := s.getPart p
  let new := (v.put 58 44 0).put 31 0 0
  let sum := ((s.others p).map fun kv => kv.2.ppol.fld 43 32).sum
  let raises := x.prect.bit 63 && decide (x.ppol.fld 43 32 < v.fld 43 32)
  .next (s.guardedWrite 0x846 2 p x.ppol v (!raises || decide (sum + v.fld 43 32 ≤ 4096)) fun s => s.modPart p fun x => { x with ppol := new })

/-- The lines that a partition owns in the L2 (R365). -/
def State.occt (s : State) (lpi : Nat) : Nat := ((s.l2.flatMap Prod.snd).filter fun l => lpi != 0 && l.owner == lpi).length

/-- PWAY (R365). -/
def State.pway (s : State) (p : Nat) : Word :=
  BitVec.ofNat 64 (s.occt ((s.getPart p).prect.fld 62 59) % 2 ^ 23 * 2 ^ 16 + (s.getPart p).mask.toNat)

/-- R365: a write of PWAY: MASK, of which 0 is ignored. -/
def execEvPway (v : Word) (s : State) : Result :=
  let p := s.pidx % 65536
  .next (s.guardedWrite 0x847 2 p (s.pway p) v (v.fld 15 0 != 0) fun s =>
    s.modPart p fun x => { x with mask := BitVec.ofNat 16 (v.fld 15 0) })

/-- Whether two windows of MiB overlap (R367). -/
def windowsMeet (a b : Word) : Bool :=
  decide (a.fld 15 8 < b.fld 15 8 + b.fld 7 0) && decide (b.fld 15 8 < a.fld 15 8 + a.fld 7 0)
    && a.fld 7 0 != 0 && b.fld 7 0 != 0

/-- R367: a write of CPWIN: an accepted one zeroes the whole new window. -/
def execEvCpwin (v : Word) (s : State) : Result :=
  let p := s.pidx % 65536
  let ok := decide (v.fld 15 8 + v.fld 7 0 ≤ 240) && !s.partBound p
    && (s.parts.filter fun kv => kv.1 != p).all fun kv => !windowsMeet v kv.2.cpwin
  .next (s.guardedWrite 0x848 2 p (s.getPart p).cpwin v ok fun s =>
    { (s.modPart p fun x => { x with cpwin := BitVec.ofNat 64 (v.fld 15 0) }) with
      cp := s.cp.clear (v.fld 15 8 * 2 ^ 20) (v.fld 7 0 * 2 ^ 20)
      cpBanks := s.cpBanks.stored 3 (v.fld 15 8 * 2 ^ 20) (v.fld 7 0 * 2 ^ 20) })

/-- R332: a write of ALDATA: the allow-list entry that ALIDX names, of a partition that is present. -/
def execEvAldata (v : Word) (s : State) : Result :=
  let p := s.alidx / 128 % 65536
  let i := s.alidx % 128
  let old := Store.get 0 (s.getPart p).allow i
  .next (s.guardedWrite 0x821 4 p old v ((s.getPart p).prect.bit 63) fun s =>
    s.modPart p fun x => { x with allow := Store.set 0 x.allow i (v.put 56 48 0) })

/-! ### Frames and blocks -/

/-- Zeroes physical bytes in every respect: contents, error states, lost lines, directory and cached lines (R368, R369). -/
def State.zeroHbm (s : State) (pa n : Nat) : State :=
  let out (line : Nat) : Bool := decide (line < pa / 128) || decide ((pa + n) / 128 ≤ line)
  { (s.dropL2 fun l => !out l.line) with
    hbm := s.hbm.clear pa n, lost := s.lost.filter out, lines := s.lines.filter fun kv => out kv.1 }

/-- Bytes of a frame. -/
def frameBytes : Nat := 2 ^ 21

/-- Whether a written PAT entry is accepted for frame `f`, given what it makes of it (R368). -/
def State.patOk (s : State) (f : Nat) (new : Word) : Bool :=
  let old := Store.get 0 s.pat f
  let near (g : Nat) : Bool :=
    let e := s.patEntry g
    e.bit 63 && e.fld 47 32 != new.fld 47 32
  !old.bit 60 && !(new.bit 63 && new.bit 62)
    && !(new.bit 63 && ((decide (0 < f) && near (f - 1)) || near (f + 1)))

/-- R368: a write of PAT: the entry of frame PATIDX. A change of OWNV, OWNER or SEAL zeroes the frame, with BUSY set. Of a
check-data frame GUARD and OWNV are not written (R369). -/
def execEvPat (v : Word) (s : State) : Result :=
  let f := s.patidx % 2 ^ 18
  let old := Store.get 0 s.pat f
  let v' := (v.put 60 48 0).put 31 0 0
  let new := if s.checkFrame f then v'.put 63 62 (old.fld 63 62) else v'
  let owner := if old.bit 63 then old.fld 47 32 else if new.bit 63 then new.fld 47 32 else 0xFFFF
  let change := new.bit 63 != old.bit 63 || new.bit 61 != old.bit 61 || new.fld 47 32 != old.fld 47 32
  let f' (s : State) : State :=
    if change then { (s.zeroHbm (f * frameBytes) frameBytes) with pat := Store.set 0 s.pat f (new.put 60 60 1) }
    else { s with pat := Store.set 0 s.pat f new }
  if old.bit 63 then .next (s.guardedWrite 0x891 3 owner old v (s.patOk f new) f')
  else .next (s.auditedWrite 0x891 3 owner old v (s.patOk f new) f')

/-- R368: a frame's zeroing is done: BUSY is clear. -/
def execEvPatZeroingComplete (frame : Nat) (s : State) : Result :=
  .next { s with pat := Store.set 0 s.pat frame ((Store.get 0 s.pat frame).put 60 60 0) }

/-- R369: a write of BLKCLS: the class of block BLKIDX; accepted only while no frame of it is owned. The block is zeroed in
its new layout, with BUSY set. -/
def execEvBlkcls (v : Word) (s : State) : Result :=
  let n := s.blkidx % 2 ^ 13
  let old := Store.get 0 s.blkcls n
  let owned := (List.range 32).any fun i => (Store.get 0 s.pat (32 * n + i)).bit 63
  .next (s.auditedWrite 0x895 3 0xFFFF old v (v.fld 1 0 != 3 && !owned && !old.bit 63) fun s =>
    { (s.zeroHbm (n * 2 ^ 26) (2 ^ 26)) with
      blkcls := Store.set 0 s.blkcls n (BitVec.ofNat 64 (2 ^ 63 + v.fld 1 0)) })

/-- R369: a block's layout is done: BUSY is clear. -/
def execEvBlockLayoutComplete (block : Nat) (s : State) : Result :=
  .next { s with blkcls := Store.set 0 s.blkcls block ((Store.get 0 s.blkcls block).put 63 63 0) }

/-! ### Sealing -/

/-- R372: a write of SEALST: EXH is cleared where bit 63 is 1; REKEY = 1 starts a rekey, which replaces the keys and resets
every counter, and is audited. -/
def execEvSealstRekey (v : Word) (s : State) : Result :=
  let p := s.pidx % 65536
  if !s.saigaRuns then .next s else
  let s := if v.bit 63 then s.modPart p fun x => { x with sealst := x.sealst.put 63 63 0 } else s
  let old := (s.getPart p).sealst
  if v.bit 62 && !old.bit 62 then
    .next (s.auditedWrite 0x84A 6 p old v true fun s => s.modPart p fun x =>
      { x with sealst := x.sealst.put 62 62 1, keyGen := x.keyGen + 1, minor := [], major := [], treeRoot := 0 })
  else .next s

/-- The counter block of the 16 bytes at physical address `b` of a sealed line (R371). -/
def Part.counterBlock (p : Part) (b : Nat) : BitVec 128 :=
  BitVec.ofNat 128 (Store.get 0 p.minor (b / 128) % 2 ^ 7 * 2 ^ 105 + Store.get 0 p.major (groupOf (b / 128)) % 2 ^ 57 * 2 ^ 48
    + b / 16 % 2 ^ 48)

/-- What HBM holds of a line of a sealed frame of partition `p` (R371): its bytes under AES-256 in counter mode. -/
def State.sealedBytes (s : State) (p line : Nat) : List Byte :=
  (List.range 8).flatMap fun i =>
    let b := line * 128 + 16 * i
    let pad := Config.aes256 (Config.sealKey p (s.getPart p).keyGen 0) ((s.getPart p).counterBlock b)
    toBytes 16 ((BitVec.ofNat 128 (s.hbm.num b 16)) ^^^ pad).toNat

/-- The line's tag (R371): the first 64 bits of SHAKE256 of Kmac, address, major and minor counter and the stored bytes. The widths of
the parts are those of the key, a physical address and the counters in whole bytes (log entry 121, DESIGN CHOICE). -/
def State.sealedTag (s : State) (p line : Nat) : Word :=
  let x := s.getPart p
  let m := toBytes 32 (Config.sealKey p x.keyGen 1).toNat ++ toBytes 8 (line * 128)
    ++ toBytes 8 (Store.get 0 x.major (groupOf line)) ++ toBytes 1 (Store.get 0 x.minor line) ++ s.sealedBytes p line
  BitVec.ofNat 64 (Shake.shake256 m).toNat

/-- R371: a read finds that what HBM holds of a sealed line is not what its counters and tag, or the tree over them, say: `tag` is the tag
that it finds. On a mismatch the line is uncorrectable; `tree` says that the tree does not match. -/
def execEvSealMismatch (line : Nat) (tag : Word) (tree : Bool) (s : State) : Result :=
  let e := s.patEntry (line * 128 / 2 ^ 21)
  if placeOf (line * 128) != .hbm || !s.isSealed (line * 128) || (!tree && tag == s.sealedTag (e.fld 47 32) line) then .next s
  else .next { s with hbm := (List.range 16).foldl (fun r i => r.setMark (line * 16 + i) .bad) s.hbm }

/-- R372: a rekey ends: REKEY reads 0 and the waiting accesses go on. -/
def execEvRekeyComplete (part : Nat) (s : State) : Result :=
  if (s.getPart part).sealst.bit 62 then
    .next ((s.modPart part fun x => { x with sealst := x.sealst.put 62 62 0, reencrypting := [] }).soon [.event .heldTurn])
  else .next s

/-- R372: a group's re-encryption ends, and the writes that wait for it go on. -/
def execEvGroupReencryptComplete (part group : Nat) (s : State) : Result :=
  if (s.getPart part).reencrypting.contains group then
    .next ((s.modPart part fun x => { x with reencrypting := x.reencrypting.filter fun g => g != group }).soon [.event .heldTurn])
  else .next s

end Sys2Proof.Machine
end

