-- ==== Sys2Proof/Machine/Lomid.lean ====
section
/-!
DEFINITION. Lomid: channels, their retirement and the far end's windows (R388 to R391), accesses that arrive from peers
(R390), lanes, and replicated pages (R392).
-/

namespace Sys2Proof.Machine

/-! ### Channels -/

/-- LCHAN of a channel. -/
def State.chan (s : State) (n : Nat) : Word := Store.get 0 s.lchan n
/-- STATE: 0 closed, 1 open, 2 retiring, 3 drained, 4 dead (R388). -/
def chanState (w : Word) : Nat := w.fld 62 60
/-- `s` with LCHAN of a channel replaced. -/
def State.setChan (s : State) (n : Nat) (w : Word) : State := { s with lchan := Store.set 0 s.lchan n w }

/-- Lanes of a port (R14). -/
def portLanes : Nat := 16

/-- Whether every lane of every port that a channel may use has failed (R388). -/
def State.allDead (s : State) (w : Word) : Bool :=
  w.fld 58 47 != 0 && (List.range 12).all fun p => !bitOf (w.fld 58 47) p
    || (List.range portLanes).all fun l => s.deadLanes.contains (p, l)

/-- The posted stores on a channel fail with DEAD, in the order sent (R206, R391). -/
def State.failPosted (s : State) (ch : Nat) : State :=
  s.soon ((s.posted.filter fun p => p.ch == ch).map fun p => .event (.storeAcknowledged p.st .dead))

/-- A channel all of whose lanes have failed is dead. -/
def State.noteDead (s : State) (n : Nat) : State :=
  let w := s.chan n
  if (chanState w == 1 || chanState w == 2) && s.allDead w then (s.setChan n (w.put 62 60 4)).failPosted n else s

/-- A write of the entry's fields that neither opens nor retires a channel (log entry 15, DESIGN CHOICE). -/
def chanFields (old v : Word) : Word :=
  let st := if v.bit 63 then chanState old else 0
  BitVec.ofNat 64 (bit01 (v.bit 63) * 2 ^ 63 + st * 2 ^ 60 + v.fld 58 19 * 2 ^ 19 + v.fld 15 0)

/-- R388: a write of V = 1 to a closed or drained entry opens the channel and sends an open message to the peer. -/
def execEvLchanOpen (v : Word) (s : State) : Result :=
  let n := s.lchidx % 256
  let st := chanState (s.chan n)
  if s.saigaRuns && v.bit 63 && (st == 0 || st == 3) then
    let w := (chanFields (s.chan n) v).put 62 60 1
    .next (((s.setChan n w).noteDead n).send (.openMsg n (w.fld 46 35) (w.fld 34 19)))
  else .next s

/-- R391: a write of RET = 1 starts the retirement of an open channel: new accesses find it not open. Its other fields are written with
it (R388). -/
def execEvLchanRetire (v : Word) (s : State) : Result :=
  let n := s.lchidx % 256
  let w := s.chan n
  if s.saigaRuns && v.bit 59 && chanState w == 1 then
    let w := ((chanFields w v).put 63 63 1).put 62 60 2
    .next ({ s.setChan n w with lchRet := Store.set 0 s.lchRet n s.tick }.noteDead n)
  else .next s

/-- Whether a retiring channel's drain is over: nothing posted is left, or 50 µs have passed (R391). -/
def State.drainOver (s : State) (ch : Nat) : Bool :=
  (s.posted.all fun p => p.ch != ch) || decide (Store.get 0 s.lchRet ch + usTicks 50 ≤ s.tick)

/-- R391: the drain ends: stores not acknowledged fail with DEAD, the channel is drained, and its report goes to the peer. -/
def execEvChannelDrainEnd (ch : Nat) (s : State) : Result :=
  let w := s.chan ch
  if chanState w == 2 && s.drainOver ch then
    .next (((s.failPosted ch).setChan ch (w.put 62 60 3)).send (.drained ch (w.fld 46 35) (w.fld 34 19)))
  else .next s

/-- R388, R324: a lane fails: a class-4 record from the port; a channel with no lane left is dead. -/
def execEvLomidLaneFailure (port lane : Nat) (s : State) : Result :=
  if 12 ≤ port || portLanes ≤ lane || s.deadLanes.contains (port, lane) then .next s
  else
    let s := { s with deadLanes := s.deadLanes ++ [(port, lane)] }
    let s := s.present orderLomid (.saiga (BitVec.ofNat 64 (port * 256 + lane)) 0xFFFF 4 0 3 0 0 0xFF)
    .next ((List.range 256).foldl State.noteDead s)

/-! ### Windows -/

/-- Whether a window names a near end's package and channel (R389). -/
def winNames (w : Word) (pkg ch : Nat) : Bool := w.fld 61 50 == pkg && w.fld 49 42 == ch

/-- DRN of the windows of a partition that name a package and channel. -/
def State.setDrn (s : State) (part pkg ch d : Nat) : State :=
  s.modPart part fun p => { p with pwin := p.pwin.map fun kv => (kv.1, if winNames kv.2 pkg ch then kv.2.put 41 41 d else kv.2) }

/-- R391: a drained report sets DRN in every window of the partition that names the channel. -/
def execEvDrainedReport (pkg ch part : Nat) (s : State) : Result := .next (s.setDrn part pkg ch 1)

/-- R388, R389: an open message clears DRN. -/
def execEvOpenMessage (pkg ch part : Nat) (s : State) : Result := .next (s.setDrn part pkg ch 0)

/-- R389: a write of PWIN of the window that PWIDX names; ignored when it clears V while DRN is 0. -/
def execEvPwin (v : Word) (s : State) : Result :=
  let p := s.pwidx % 65536
  let n := s.pwidx / 65536 % 64
  let old := Store.get 0 (s.getPart p).pwin n
  if !s.saigaRuns || (old.bit 63 && !v.bit 63 && !old.bit 41) then .next s
  else .next (s.modPart p fun x => { x with pwin := Store.set 0 x.pwin n ((v.put 41 32 0).put 41 41 (old.fld 41 41)) })

/-! ### Accesses from outside the cores -/

/-- What an access from outside the package leaves of some lines in the directory and the L1s: a write leaves no copy, a read no
owner (R384, R385). CC copies stay (R277). -/
def State.outsideTouch (s : State) (ls : List Nat) (write : Bool) : State :=
  let s := { s with
    lines := s.lines.map fun (kv : Nat × LineState) =>
      if !ls.contains kv.1 || kv.2 == .lost then kv else (kv.1, if write then .inv else kv.2.recalled) }
  if write then s.dropL1 (fun _ => true) fun x => !x.cc && ls.contains x.line else s

/-! ### Accesses from peers -/

/-- Whether a valid window of a partition accepts `n` bytes at `va` from a package and channel (R390). -/
def Part.window (p : Part) (pkg ch va n : Nat) (wr : Bool) : Bool :=
  (List.range 64).any fun i =>
    let w := Store.get 0 p.pwin i
    let first := w.fld 31 0 * 65536
    w.bit 63 && !w.bit 41 && winNames w pkg ch && (!wr || w.bit 62) && decide (first ≤ va)
      && decide (va + n ≤ first + (Store.get 0 p.pwlen i).fld 31 0 * 65536)

/-- Whether a frame is a partition's, and no guard (R370). -/
def State.ownFrame (s : State) (p pa : Nat) : Bool :=
  let e := s.patEntry (pa / 2 ^ 21)
  placeOf pa == .hbm && e.bit 63 && !e.bit 62 && e.fld 47 32 == p

/-- Where an arriving access goes: its physical address, when the port accepts it (R390, R124). An access to a replicated
page from another package (channel 256 and above) comes with its physical address (R392), its frame checked here, the class of its leaf
where it was translated (R370). -/
def State.peerPlace (s : State) (a : PeerAccess) : Option (Word × Nat) :=
  let wr := peerWrites a
  if 256 ≤ a.sch then (if s.ownFrame a.fpart a.va then some (rpLeaf, a.va) else none)
  else if !(s.getPart a.fpart).window a.spkg a.sch a.va a.size wr then none
  else
    match s.walk a.fpart a.va with
    | none => none
    | some (leaf, size) =>
      let pa := leafPa leaf + a.va % size
      if !permits leaf (if wr then 1 else 0) || placeOf pa != .hbm || !s.frameOk a.fpart leaf pa then none
      else if wr && s.inFootprint pa a.size then none
      else some (leaf, pa)

/-- An arriving load reads its words at their home (R77, log entry 16, DEDUCED) and is answered; with a refusal where the read
faults. -/
def State.peerRead (s : State) (a : PeerAccess) (pa : Nat) : State :=
  let x := s.homeRange (s.blockClass pa) 1 pa a.size
  ((s.noteBad a.fpart 0xFF (s.hbm.worst pa a.size) pa a.size).charge a.fpart x.2.charge orderLomid).send
    (.peerReply a.spkg a.sch (if x.2.fault then none else some (BitVec.ofNat 64 (ofBytes x.1))) s.tick)

/-- An access that is refused (R390). -/
def State.refusePeer (s : State) (a : PeerAccess) : State :=
  s.send (if a.data.isSome || a.red.isSome then .peerAck a.spkg a.sch false s.tick else .peerReply a.spkg a.sch none s.tick)

/-- An arriving U event is applied with a new value, its messages after it, and then its answer; on a replicated page once every
replica has confirmed (R125, R392). A partial write of a lost line writes nothing and is charged (R357). -/
def State.peerWrite (s : State) (a : PeerAccess) (pa new : Nat) (psn : Bool) (ans : Answer) (src : StoreSrc) : State :=
  if s.lost.contains (pa / 128) then (s.charge a.fpart 64 orderLomid).tellIssuer ans
  else
    let before := s.hbm
    let bs := toBytes a.size new
    let s := s.homeWrite a.fpart a.task pa bs psn
    let ms := s.messages before s.hbm pa a.size
    match s.holdersOf pa with
    | [] => s.afterMessages ms ans
    | holders => (s.cast ⟨src, 0, a.task, a.fpart, BitVec.ofNat 64 a.va, pa, bs, psn, false⟩ holders).soon ms

/-- An arriving atomic is performed at its home and answered with the old value (R204, R390). -/
def State.peerAtom (s : State) (a : PeerAccess) (op : AmoOp) (x c : Word) (pa : Nat) : State :=
  let s := s.noteBad a.fpart 0xFF (s.hbm.worst pa a.size) pa a.size
  let r : AtomReq :=
    { core := 0, op := op, word := a.size == 4, va := BitVec.ofNat 64 a.va, pa := pa, operand := x, compare := c, psn := false, rd := 0 }
  match s.atomRun r (s.blockClass pa) 1 (s.hbm.num pa a.size) (s.hbm.worst pa a.size) with
  | (none, charge) => (s.charge a.fpart charge orderLomid).refusePeer a
  | (some (old, new, _, wpsn), charge) =>
    let v := BitVec.ofNat 64 (old % 2 ^ (8 * a.size))
    (s.charge a.fpart charge orderLomid).peerWrite a pa new wpsn (.peer a.spkg a.sch v) (.peerAtom a.spkg a.sch v)

/-- An arriving no-return reduction is applied as one update, as one of this package is (R164), and acknowledged. -/
def State.peerRed (s : State) (a : PeerAccess) (op : RedOp) (fmt : Nat) (x : Word) (pa : Nat) : State :=
  let s := s.noteBad a.fpart 0xFF (s.hbm.worst pa a.size) pa a.size
  let d := deliver false (s.blockClass pa) 1 (s.hbm.worst pa a.size) (s.lost.contains (pa / 128))
  let old := if d.zero then 0 else s.hbm.num pa a.size
  (s.charge a.fpart d.charge orderLomid).peerWrite a pa (combine op fmt old x.toNat) (d.psn && s.blockClass pa != 2)
    (.peerAck a.spkg a.sch) (.peer a.spkg a.sch)

/-- An accepted access is performed at its home (R390); one that writes what has become a footprint is refused (R124). -/
def State.peerDo (s : State) (a : PeerAccess) (pa : Nat) : State :=
  if peerWrites a && s.inFootprint pa a.size then s.refusePeer a else
  match a.data, a.red, a.atom with
  | some bs, _, _ => s.storeHere ⟨.peer a.spkg a.sch, 0, a.task, a.fpart, BitVec.ofNat 64 a.va, pa, bs, false, false⟩
  | none, some (op, fmt, x), _ => s.peerRed a op fmt.toNat x pa
  | none, none, some (op, x, c) => s.peerAtom a op x c pa
  | none, none, none => s.peerRead a pa

/-- Whether the home can perform an access of another package now (R118, R372, R386). -/
def State.peerReady (s : State) (a : PeerAccess) (pa : Nat) : Bool :=
  if peerWrites a then s.canApply a.fpart pa a.size
  else !s.rekeys pa && (halvesOf pa a.size).all fun h => halfReady .hbm false (Store.get .inv s.halves h)

/-- A write of another package to a replica here, as it waits until it comes back from its home (R282, R392). -/
def forwardedPeer (a : PeerAccess) (pa : Nat) : Held :=
  .forwarded ⟨.peer a.spkg a.sch, 0, a.task, a.fpart, BitVec.ofNat 64 a.va, pa, List.replicate a.size 0, false, false⟩

/-- R390: an access reaches a stream port: dropped when its flit is more than 40 µs old, refused unless a window, the page
table and the frame check accept it, else performed at its home, or held there; no access passes an earlier one of its channel. A
write to a replica goes on to its home package, and what comes after it waits until it has come back (R282, R392). -/
def execEvPeerAccessArrival (a : PeerAccess) (s : State) : Result :=
  if a.sent.toNat + usTicks 40 < s.tick then .next s
  else
    match s.peerPlace a with
    | none => .next (s.refusePeer a)
    | some (leaf, pa) =>
      let s := (s.touchL2 a.fpart leaf pa).outsideTouch (linesOf pa a.size) (peerWrites a)
      if peerWrites a && s.homePkg pa ≠ s.pkgNo then
        .next (State.send { s with held := s.held ++ [forwardedPeer a pa] } (.peerForward (s.homePkg pa) a pa))
      else if (Held.peer pa a).behind s.held || !s.peerReady a pa then .next (s.hold (.peer pa a) a.fpart 0 (BitVec.ofNat 64 a.va))
      else .next (s.peerDo a pa)

/-- R390: a load or atomic whose reply has not come 50 µs after its issue raises the access fault. -/
def execEvPeerReplyTimeout (core : Nat) (s : State) : Result :=
  match (s.getCore core).seq.wait with
  | .peer p => if p.sent + usTicks 50 ≤ s.tick then s.peerReply core none else .next s
  | _ => .next s

/-- Whether a flit with this send tick is dropped by the port that receives it (R390). -/
def State.tooOld (s : State) (sent : Nat) : Bool := decide (sent + usTicks 40 < s.tick)

/-- R390: an acknowledgement or a reply arrives on a channel, unless its flit is more than 40 µs old. -/
def execEvLomidAck (st : StoreReq) (k : AckKind) (sent : Nat) (s : State) : Result :=
  if s.tooOld sent then .next s else execEvStoreAcknowledged st k s
def execEvLomidReply (r : Reply) (sent : Nat) (s : State) : Result :=
  if s.tooOld sent then .next s else execEvLoadReplyArrives r s

/-! ### Replicated pages -/

/-- Whether a store on its way is the one that has come back as its home's write, whose bytes may be none. -/
def sameStore (a b : StoreReq) : Bool :=
  a.src == b.src && a.core == b.core && a.task == b.task && a.part == b.part && a.va == b.va && a.pa == b.pa

/-- Whether a held entry is for a write that has come back. -/
def Held.cameBack (h : Held) (st : StoreReq) : Bool :=
  match h with
  | .forwarded w => w.pa == st.pa && h.stream == (Held.forwarded st).stream
  | _ => false

/-- A write of the home's sequence is applied to the replica here and confirmed (R392): an access of the L2 (R366), which counts where the
frame is sealed (R372); one of this package's own is on its way no more, nor one that went on from here. -/
def State.replicaHere (s : State) (home : Nat) (st : StoreReq) : State :=
  let whole := st.pa % 128 == 0 && st.data.length == 128
  let s := s.touchL2 st.part rpLeaf st.pa
  let s := if st.data.isEmpty then s else s.sealWrite st.part st.pa
  let s := { s with
    hbm := s.hbm.store st.pa st.data st.psn, way := s.way.eraseP fun w => sameStore w st
    held := s.held.eraseP fun h => h.cameBack st
    rpNext := Store.modify 0 s.rpNext home (· + 1) }
  let s := if whole then s.found (st.pa / 128) else s
  (s.outsideTouch (linesOf st.pa st.data.length) true).send (.replicaConfirm home st)

/-- The writes of a home that came before their turn are applied as their turn comes; `n` bounds how many. -/
def State.replicaDrain (home : Nat) : Nat → State → State
  | 0, s => s
  | n + 1, s =>
    match s.rpWait.find? fun x => x.1 == home && x.2.1 == Store.get 0 s.rpNext home with
    | none => s
    | some x =>
      if s.sealWaits x.2.2.part x.2.2.pa then s
      else State.replicaDrain home n ({ s with rpWait := s.rpWait.erase x }.replicaHere home x.2.2)

/-- The writes of every home whose turn has come are applied. -/
def State.drainAll (s : State) : State :=
  (nub (s.rpWait.map Prod.fst)).foldl (fun s home => State.replicaDrain home s.rpWait.length s) s

/-- R392, R291: a write to a replicated page: at its home it takes its place in seq, is applied, and goes to every replica, to be
acknowledged when all have confirmed; at a replica, where it has a number among those of its home, it is applied after those
before it, once no sealed frame makes it wait (R372), and confirmed. -/
def execEvReplicaWriteAtHome (w : ReplicaWrite) (s : State) : Result :=
  let st := w.st
  let seq := w.seq
  let home := s.homePkg st.pa
  if home = s.pkgNo then execEvStoreAtHome st s
  else
    let next := Store.get 0 s.rpNext home
    if seq < next then .next s
    else
      let s := { s with rpWait := s.rpWait ++ [(home, seq, st)] }
      .next (State.replicaDrain home s.rpWait.length s)

/-- A package has confirmed a write of this home's; with the last of those that are to, the home acknowledges it (R392). -/
def State.confirm (s : State) (seq pkg : Nat) : State :=
  match s.replicas.find? fun r => r.seq == seq with
  | none => s
  | some r =>
    let rest := r.waiting.filter fun p => p != pkg
    if rest.isEmpty then
      State.soon { s with replicas := s.replicas.filter fun x => x.seq != seq } [.event (.storeAcknowledged r.st .done)]
    else { s with
      replicas := s.replicas.map fun (x : Replica) => if x.seq = seq then { x with waiting := rest } else x }

/-- R392: a replica has confirmed a write; with the last the home acknowledges it. -/
def execEvReplicaConfirm (seq pkg : Nat) (s : State) : Result := .next (s.confirm seq pkg)

/-- R392: a package that holds replicas stops confirming: it holds none any more, nothing waits for it, and the gangs that may have a
member there, of the partitions whose replicas it held, have lost one (R356). -/
def execEvReplicaLost (pkg : Nat) (s : State) : Result :=
  let pages := (s.rpHolders.filter fun kv => kv.2.contains pkg).map Prod.fst
  let parts := nub (pages.map fun f => (s.patEntry (f * 65536 / 2 ^ 21)).fld 47 32)
  let s : State := { s with
    rpHolders := (s.rpHolders.map fun (kv : Nat × List Nat) => (kv.1, kv.2.filter fun p => p != pkg)).filter fun kv => !kv.2.isEmpty }
  let s := (s.replicas.map Replica.seq).foldl (fun s q => s.confirm q pkg) s
  .next ((Store.keysWhere (fun _ (t : Task) => t.state == .running && t.packages != 1 && parts.contains t.part) s.tasks).foldl
    State.loseMember s)

/-! ### Held requests -/

/-- A held read of a host function: a word that R77 faults for a class-D reader, or delivers poisoned, answers with no data (log entry
17, DESIGN CHOICE). -/
def State.hostReadHere (s : State) (vf part pa n : Nat) : State :=
  let x := s.homeRange (s.blockClass pa) 1 pa n
  let s := (wordParts pa n).foldl (fun s w => s.noteBad part 0xFF (s.hbm.worst w.1 w.2) w.1 w.2) s
  (s.charge part x.2.charge orderHost).send (.hostRead vf (if x.2.fault || x.2.psn then none else some x.1))

/-- Whether a held request can be performed, as far as its own bytes go (R118, R280, R372, R386). -/
def State.heldReady (s : State) (h : Held) : Bool :=
  match h with
  | .store st => s.storeReady st
  | .atom a => s.canApply (s.getCore a.core).binding.part a.pa (if a.word then 4 else 8)
  | .red r => s.redReady r (s.getCore (s.getStamp r.stamp).core).binding.part
  | .peer pa a => s.peerReady a pa
  | .signal pa task _ hc _ => if placeOf pa = .host then s.hostReady pa 16 hc else s.canApply (s.getTask task).part pa 16
  | .undo r part => s.canApply part (r.line * 128) 128
  | .push x => s.canApply x.part (x.line * 128) 128
  | .forwarded _ => false
  | .hostRead _ _ pa _ => !s.rekeys pa
  | .subreg _ _ => true

/-- Performs a held request. -/
def State.heldDo (s : State) (h : Held) : State :=
  match h with
  | .store st => s.storeDo st
  | .atom a => s.atomHere a
  | .red r => s.redDo r
  | .peer pa a => s.peerDo a pa
  | .signal pa task k hc pkg => s.signalOnce pa task k hc pkg
  | .undo r part => s.undoHere r part
  | .push x => s.pushHere x
  | .forwarded _ => s
  | .hostRead vf part pa n => s.hostReadHere vf part pa n
  | .subreg _ rec => s.submit rec

/-- The first of some held requests that can be performed and stands behind none of those before it, `before` (R118, R282). -/
def State.nextHeld (s : State) : List Held → List Held → Option Held
  | _, [] => none
  | before, h :: rest => if s.heldReady h && !h.behind before then some h else s.nextHeld (before ++ [h]) rest

/-- R118, R372: the first held request that nothing holds any more is performed, its messages after it, and then the next. While none
can be, the halves that they need are asked for (R386), and the writes of other homes whose turn has come are applied (R392). -/
def execEvHeldTurn (s : State) : Result :=
  match s.nextHeld [] s.held with
  | some h =>
    let rest := s.agenda
    let s := State.heldDo { s with held := s.held.erase h, agenda := [] } h
    .next { s with agenda := s.agenda ++ [.event .heldTurn] ++ rest }
  | none => .next (s.held.foldl State.askFor s).drainAll

end Sys2Proof.Machine
end

