-- ==== Sys2Proof/Machine/HostPort.lean ====
section
/-!
DEFINITION. The host: snoops and grants of 64-byte halves (R385 to R387), its reads and writes of device memory (R363, R385,
R126, R124), and a dead link (R206).
-/

namespace Sys2Proof.Machine

/-! ### Halves -/

/-- R386, R387: a host snoop of one half, answered after the L1 copies of it are gone. Of host memory cached here: the answer says
whether the half is held; with `inv` it is given up, else a modified or exclusive half becomes shared. Of HDM: the host takes the half,
owned with `inv`, else shared; a derived base is granted shared only (R126). -/
def execEvHostSnoop (half : Nat) (inv : Bool) (s : State) : Result :=
  let st := Store.get .inv s.halves half
  match placeOf (half * 64) with
  | .hbm =>
    let own := inv && !s.inBase (half * 64) 64
    let s := (s.outsideTouch [half / 2] own).dropL1 (fun _ => true) fun x => !x.cc && x.line == half / 2
    .next ({ s with halves := Store.set .inv s.halves half (if own then .hostOwned else .hostShared) }.send (.snoop half true))
  | _ =>
    let held := st == .shared || st == .excl || st == .modified
    let new := if !held then st else if inv then .inv else .shared
    .next ({ s with halves := Store.set .inv s.halves half new, hostOld := Store.set [] s.hostOld half [] }.send (.snoop half held))

/-- R386: a grant for a half arrives, and the access that waits for it finds it held. -/
def execEvCxlGrant (half : Nat) (own : Bool) (s : State) : Result :=
  if s.cxl.any fun r => r.half == half then
    let new : HalfState := match placeOf (half * 64) with
      | .host => if own then .excl else .shared
      | _ => .inv
    .next { s with cxl := s.cxl.filter fun r => r.half != half, halves := Store.set .inv s.halves half new }
  else .next s

/-! ### Requests of the host -/

/-- Where a host request of `n` bytes goes: through a virtual function, by its partition's page table and the frame check
(R363, R370); through the physical function (`vf` 0), at its physical address (log entry 17, DESIGN CHOICE). None: it completes with an error. -/
def State.hostPlace (s : State) (vf : Nat) (addr : Word) (n : Nat) (wr : Bool) : Option (Nat × Nat) :=
  if vf = 0 then
    if placeOf addr.toNat = .hbm then
      let e := s.patEntry (addr.toNat / 2 ^ 21)
      some (if e.bit 63 then e.fld 47 32 else 0xFFFF, addr.toNat)
    else none
  else
    match s.partOfVf vf with
    | none => none
    | some p =>
      if (s.getPart p).tdisp == .error then none else
      match s.walk p addr.toNat with
      | none => none
      | some (leaf, size) =>
        let pa := leafPa leaf + addr.toNat % size
        if permits leaf (if wr then 1 else 0) && placeOf pa == .hbm && s.frameOk p leaf pa && decide (addr.toNat % size + n ≤ size)
        then some (p, pa) else none

/-- The part of `n` bytes at `pa` in each of the lines that they touch: its address and length. -/
def lineParts (pa n : Nat) : List (Nat × Nat) :=
  (linesOf pa n).map fun l =>
    let lo := max pa (l * 128)
    (lo, min (pa + n) (l * 128 + 128) - lo)

/-- What a request of a host function leaves in the L2 (R365, R366, R379): a line of the function's partition, after the walk that
translates it; of the physical function's, one of owner 0 (log entry 17, DESIGN CHOICE). -/
def State.hostTouch (s : State) (vf p : Nat) (addr : Word) (pa n : Nat) : State :=
  if vf = 0 then (linesOf pa n).foldl (fun s l => s.touchOwn (l * 128)) s
  else
    let leaf := ((s.walk p addr.toNat).map Prod.fst).getD 0
    (linesOf pa n).foldl (fun s l => s.touchL2 p leaf (l * 128)) (s.touchWalk p addr.toNat)

/-- R385, R126, R124: a host write is performed at its home, line by line, with its derived messages before its completion returns; one
that touches a footprint is discarded and completed with an error. -/
def execEvHostWrite (vf : Nat) (addr : Word) (data : List Byte) (s : State) : Result :=
  let n := data.length
  if s.hostDead || n = 0 then .next s else
  match s.hostPlace vf addr n true with
  | none => .next (s.send (if vf ≠ 0 ∧ s.partOfVf vf = none then .unsupported vf else .hostWrite vf false))
  | some (p, pa) =>
    if (linesOf pa n).any fun l => s.inFootprint (l * 128) 128 then .next (s.send (.hostWrite vf false))
    else
      let parts := (lineParts pa n).map fun x =>
        let last := x.1 + x.2 == pa + n
        Action.event (.storeAtHome ⟨if last then .host else .hostPart, vf, 0, p, addr + BitVec.ofNat 64 (x.1 - pa), x.1,
          (data.drop (x.1 - pa)).take x.2, false, false⟩)
      .next (((s.hostTouch vf p addr pa n).outsideTouch (linesOf pa n) true).soon parts)

/-- R385: a host read of device memory; it does not pass its function's earlier writes (R282), and waits where the bytes it reads are
written by a held request. -/
def execEvHostRead (vf : Nat) (addr : Word) (size : Nat) (s : State) : Result :=
  if s.hostDead || size = 0 then .next s else
  match s.hostPlace vf addr size false with
  | none => .next (s.send (if vf ≠ 0 ∧ s.partOfVf vf = none then .unsupported vf else .hostRead vf none))
  | some (p, pa) =>
    let s := (s.hostTouch vf p addr pa size).outsideTouch (linesOf pa size) false
    let h := Held.hostRead vf p pa size
    if h.behind s.held || s.rekeys pa then .next { s with held := s.held ++ [h] } else .next (s.hostReadHere vf p pa size)

/-- R206: the host link dies: requests outstanding on it end, and what is issued to it from then on fails. -/
def execEvHostLinkDead (s : State) : Result :=
  .next { s with hostDead := true, cxl := s.cxl.filter fun r => placeOf (r.half * 64) != .host }

end Sys2Proof.Machine
end

