-- ==== Sys2Proof/Machine/Debug.lean ====
section
/-!
DEFINITION. Oryx: debug stops (R397), dumps (R398), checkpoints and the record log (R399, R401), replay (R400).
-/

namespace Sys2Proof.Machine

/-! ### Stops -/

/-- The reason's number in a kind-7 record (R396). -/
def stopNo : StopReason → Nat
  | .brk => 1
  | .address => 2
  | .frame => 3
  | .host => 4
  | .logFull => 5

/-- R397: a stop is detected: its kind-7 record, the hold of the member that caused it, and, unless the gang is stopping or
stopped, the tick F of its freeze, at most 2 µs later (a choice of the oracle: log entry 5, DESIGN CHOICE). -/
def execEvDebugStop (core : Nat) (r : StopReason) (s : State) : Result :=
  let k := s.getCore core
  if !k.binding.dbg || k.bind.isNone then .next s
  else
    let unit := if r = .frame then (Store.get 0 k.bkpt 4).fld 35 32 else 0
    let s := s.trace core 7 unit 0 (BitVec.ofNat 64 (stopNo r)) k.seq.pc 0 0
    if k.replay.isSome then .next (s.modCore core fun k => { k with mstate := .frozen })
    else
      let t := s.getTask k.binding.task
      let going := t.stopAt.isNone && match t.stop with
        | .none => true
        | .points _ => true
        | _ => false
      if t.state == .running && k.live then
        let s := s.modCore core fun k => { k with stopHold := true }
        if going then
          let d := min s.choice (usTicks 2)
          .next (s.chosen.modTask k.binding.task fun t => { t with stopAt := some (s.tick + d) })
        else .next s
      else .next s

/-- Whether a member is stopped on its core (R398). -/
def State.stoppedHere (s : State) (c : Nat) : Bool :=
  let k := s.getCore c
  k.bind.isSome && (if k.replay.isSome then k.mstate == .frozen else k.captured && (s.getTask k.binding.task).stop == .debugStop)

/-! ### Dumps -/

/-- R398: a write of DUMPCTL: the buffer's address, and with GO the start of a dump; ignored while one runs, or for a core
that is not stopped. -/
def execEvDumpctl (core : Nat) (v : Word) (s : State) : Result :=
  let k := s.getCore core
  if !s.saigaRuns || k.dumpBusy || !s.stoppedHere core then .next s
  else .next (s.setCore core { k with dumpBase := v.fld 51 12 * 4096, dumpBusy := v.bit 0 })

/-- The member registers of R224 that have numbers. -/
def memberNumbers : List Nat := List.range 7 ++ (List.range 16).map (0x10 + ·) ++ (List.range 8).map (0x20 + ·) ++ [0x30, 0x31, 0x32, 0x33]

/-- Section 1: the program counter, g0 to g31 with their poison, and the member registers (R193, R224). -/
def State.dumpRegs (s : State) (c : Nat) : List Nat :=
  let s := { s with core := c }
  s.q.pc.toNat :: ((List.range 32).flatMap fun r => [(s.g (BitVec.ofNat 5 r)).val.toNat, bit01 (s.g (BitVec.ofNat 5 r)).psn])
    ++ memberNumbers.map fun n => ((s.readSys n).getD 0).toNat

/-- A value with its tag and poison. -/
def Tagged.words (t : Tagged) : List Nat := [t.tag.toNat, t.val.toNat, bit01 t.psn]

/-- The elements of a stamp's regions, by tile and element in row-major order (R60). -/
def Stamp.chainElems (st : Stamp) : List Nat :=
  (List.range st.hdr.h).flatMap fun ty => (List.range st.hdr.w).flatMap fun tx =>
    (List.range 4).flatMap fun y => (List.range 4).map fun x => st.elemNo (4 * ty + y) (4 * tx + x)

/-- Section 2: a region's chain in the order of R60: the row counter and the port lanes' generators, the latches, the claimed row
files, the lane slices; then the schedule tables and the context words (R49). -/
def Stamp.dumpChain (st : Stamp) (c : Copy) : List Nat :=
  let r := c.reg
  let rows := if st.hdr.rfclaim then List.range (4 * st.hdr.h) else []
  [r.wave, r.slot]
    ++ ((List.range st.streams.length).flatMap fun n => [(Store.get {} r.gens n).pos, (Store.get {} r.gens n).inner])
    ++ (st.chainElems.flatMap fun n => (Store.get {} r.latch n).words)
    ++ (rows.flatMap fun y => (List.range 128).flatMap fun n => (Store.get {} r.rowfile (128 * y + n)).words)
    ++ (st.chainElems.flatMap fun n => (List.range 512).map fun w => (Store.get 0 r.lane (512 * n + w)).toNat)
    ++ (st.chainElems.flatMap fun n => (List.range 32).map fun t => Store.get 0 st.entries (32 * n + t))
    ++ rows.flatMap fun y => (List.range 32).map fun t => Store.get 0 st.ctx (32 * y + t)

/-- Section 3: the accumulator slots: each its tag, and its cells with their poison. -/
def Core.dumpSlots (k : Core) : List Nat :=
  (List.range 64).flatMap fun n =>
    (k.slot n).tag.toNat :: (List.range 1024).flatMap fun i =>
      [(Store.get {} (k.slot n).cells i).bits.toNat, bit01 (Store.get {} (k.slot n).cells i).psn]

/-- Section 4: the engine commands in place or pending: each its address, registers, cycles and progress. -/
def Core.dumpCmds (k : Core) : List Nat :=
  (k.cmds.filter fun m => !m.retired).flatMap fun m =>
    [m.va.toNat, m.ra.toNat, m.rb.toNat, m.rc.toNat, m.due.toNat, m.arrive.toNat, m.started.getD 0, bit01 m.started.isSome, m.done, m.out]

/-- The sections of a dump in order (R398), each its kind and its bytes: 1 registers, 2 each region's chain, 3 accumulator slots,
4 commands. How a section's words lie in its bytes the manual does not say (log entry 68, DESIGN CHOICE). -/
def State.dumpSections (s : State) (c : Nat) : List (Nat × List Byte) :=
  let k := s.getCore c
  let chains := s.stamps.flatMap fun (kv : Nat × Stamp) =>
    (kv.2.copies.filter fun x => x.core == c && s.occupies kv.2 x).map kv.2.dumpChain
  let words : List (Nat × List Nat) := (1, s.dumpRegs c) :: chains.map (fun ws => (2, ws)) ++ [(3, k.dumpSlots), (4, k.dumpCmds)]
  words.map fun x => (x.1, Config.dumpLayout x.1 x.2)

/-- A dump's descriptors: each section's kind, its offset and its length, and zero (R398). -/
def dumpRows (off : Nat) : List (Nat × List Byte) → List Byte
  | [] => []
  | x :: rest => toBytes 4 x.1 ++ toBytes 4 off ++ toBytes 4 x.2.length ++ toBytes 4 0 ++ dumpRows (off + x.2.length) rest

/-- The bytes of a dump (R398). -/
def State.dumpBytes (s : State) (c : Nat) : List Byte :=
  let xs := s.dumpSections c
  toBytes 2 0x5D0E ++ toBytes 1 xs.length ++ List.replicate 61 0 ++ dumpRows (64 + 16 * xs.length) xs ++ xs.flatMap Prod.snd

/-- R398: the dump is written and BUSY clears. -/
def execEvDumpComplete (core : Nat) (s : State) : Result :=
  let k := s.getCore core
  if !k.dumpBusy then .next s
  else .next { (s.setCore core { k with dumpBusy := false }) with hbm := s.hbm.store k.dumpBase (s.dumpBytes core) false }

/-! ### Checkpoints -/

/-- The context of a member for a checkpoint: with its scratchpad and its stamps (R399, R400). -/
def State.ckptContext (s : State) (c : Nat) : SavedCtx :=
  let k := s.getCore c
  { (k.context c s.tick) with
    scratch := k.scratch
    stamps := s.stamps.filter fun kv => kv.2.task == k.binding.task && kv.2.memb == k.binding.memb }

/-- Releases stamps held for a member that goes on at once. -/
def State.unhold (s : State) (task memb : Nat) : State :=
  (s.stampsWhere fun st => st.task == task && st.memb == memb).foldl (fun s i => s.modStamp i fun st => { st with held := false }) s

/-- Whether a task's checkpoint is due (R399): it runs and no stop is under way. -/
def State.ckptBegins (s : State) (task : Nat) : Bool :=
  let t := s.getTask task
  t.state == .running && t.stop == .none && t.stopAt.isNone && t.freezeAt.isNone && t.ckptAt.isNone && (s.getPart t.part).dbgcfg.bit 0
    && (t.ckptDue.any fun d => decide (d ≤ s.tick)) && (s.coresOfTask task).all fun c => (s.getCore c).live

/-- Whether a checkpoint can be taken: every member here is frozen for it and its accesses are complete (R340, R399). -/
def State.ckptReady (s : State) (task : Nat) : Bool :=
  (s.getTask task).ckptAt.isSome && (s.coresOfTask task).all fun c => s.quietCore c && (s.getCore c).mstate == .frozen

/-- The members of a gang that was frozen for a checkpoint on tick `f` go on (R399). -/
def State.thaw (s : State) (task f : Nat) : State :=
  let s := (s.coresOfTask task).foldl (fun s c =>
    let s := s.recordOn c freezeStream (2 ^ 64 - 1) (BitVec.ofNat 64 (s.tick - f))
    (s.unhold task (s.getCore c).binding.memb).modCore c fun k => { k with mstate := if k.seq.wait.waits then .waiting else .running }) s
  s.modTask task fun t => { t with ckptAt := none }

/-- A checkpoint of a frozen gang: each member's context is recorded, and the gang goes on at once (R399). -/
def State.checkpoint (s : State) (task f : Nat) : State :=
  let t := s.getTask task
  let cs := s.coresOfTask task
  let s := s.thaw task f
  let p := s.getPart t.part
  let ctxs := cs.map s.ckptContext
  let len := Config.ckptBytes t.ckpt % 2 ^ 40
  let off := p.rlPos % 2 ^ p.dbgcfg.fld 23 16
  let s := s.modPart t.part fun p => { p with rlPos := p.rlPos + len }
  let s := s.trace (cs.headD 0) 8 0 0 (BitVec.ofNat 64 t.ckpt) (BitVec.ofNat 64 off) 0 0
  s.modTask task fun t => { t with
    ckpt := t.ckpt + 1, ckptDue := t.ckptDue.map fun d => d + usTicks (1000 * p.dbgcfg.fld 47 32)
    ckpts := t.ckpts ++ [(t.ckpt, p.rlPos, t.recorded.length, ctxs)] }

/-- A task's checkpoint: its gang is frozen when it falls due, and the checkpoint is taken once what its members had issued is complete
(R340, R399). -/
def State.ckptStep (s : State) (task : Nat) : State :=
  let s := if s.ckptBegins task then
      (s.freezeMembers task).modTask task fun t => { t with ckptAt := some s.tick }
    else s
  match (s.getTask task).ckptAt with
  | some f => if s.ckptReady task then s.checkpoint task f else s
  | none => s

/-- R399: the checkpoints of a partition's tasks that are due or under way. -/
def execEvDebugCheckpoint (part : Nat) (s : State) : Result :=
  .next ((Store.keysWhere (fun _ (t : Task) => t.part == part) s.tasks).foldl State.ckptStep s)

/-- A task without the checkpoints older than place `pos` of the log, and without what was recorded before it. -/
def Task.trimLog (t : Task) (pos : Nat) : Task :=
  let keep := t.ckpts.filter fun c => decide (pos ≤ c.2.1)
  let n := match keep with
    | c :: _ => c.2.2.1
    | [] => 0
  { t with recorded := t.recorded.drop n, ckpts := keep.map fun c => (c.1, c.2.1, c.2.2.1 - n, c.2.2.2) }

/-- R401: a write of RLFREE discards every checkpoint older than the one at the offset, and frees its space. -/
def execEvRlfree (v : Word) (s : State) : Result :=
  let p := s.pidx % 65536
  if !s.saigaRuns then .next s else
  let pt := s.getPart p
  let size := 2 ^ pt.dbgcfg.fld 23 16
  let all := (s.tasks.filter fun kv => kv.2.part == p).flatMap fun kv => kv.2.ckpts
  let s := s.modPart p fun x => { x with rlfree := v }
  match all.find? fun c => c.2.1 % size == v.toNat with
  | none => .next s
  | some c =>
    let s := s.modPart p fun x => { x with rlTail := c.2.1, dbgstat := x.dbgstat.put 62 62 0 }
    .next { s with tasks := s.tasks.map fun kv => (kv.1, if kv.2.part == p then kv.2.trimLog c.2.1 else kv.2) }

/-! ### Replay -/

/-- The recorded values of a member, each with its stream, from the `n`th on. -/
def Task.stream (t : Task) (memb n : Nat) : List (Nat × Word) :=
  (t.recorded.drop n).filterMap fun x => if x.1 / memberStreams = memb then some (x.1 % memberStreams, x.2) else none

/-- What replays run under: member indices above every real one, so that nothing else of the task is touched (log entry
18, DESIGN CHOICE). -/
def replayMember (memb : Nat) : Nat := memb + maxReplay

/-- Places the stamps of a checkpoint anew, for a replay on core `c`; the pairs give old and new numbers. -/
def State.placeStamps (s : State) (c : Nat) (x : SavedCtx) : State × List (Nat × Nat) :=
  x.stamps.foldl (fun acc kv =>
    let s := acc.1
    let st := { kv.2 with
      core := c, memb := replayMember x.memb, held := false
      copies := kv.2.copies.map fun y => { y with core := coreAt (clusterOf c) (withinOf y.core) } }
    ({ s with stamps := Store.insert (Store.erase s.stamps s.nextStamp) s.nextStamp st, nextStamp := s.nextStamp + 1 },
      acc.2 ++ [(kv.1, s.nextStamp)])) (s, [])

/-- A stamp's number after the move. -/
def renumber (m : List (Nat × Nat)) (i : Nat) : Nat := ((m.find? fun p => p.1 == i).map Prod.snd).getD i

/-- Whether a core is free for a replay of a partition's member (R400). -/
def State.replayCore (s : State) (c part : Nat) : Bool :=
  let k := s.getCore c
  decide (c < 72) && k.bind.isNone && !k.oos && !k.scrub && inRect (s.getPart part).prect (clusterOf c)

/-- The replies that rounds of the checkpoint had already: recorded at their commit, and not to be read again (R399, R400). -/
def SavedCtx.heard (x : SavedCtx) : List Nat :=
  x.stamps.flatMap fun kv =>
    (List.range kv.2.copies.length).flatMap fun j => (kv.2.copy j).replies.flatMap fun y =>
      [fabStream kv.2.handle j (y.frame / kv.2.hdr.rs), lateStream kv.2.handle j (y.frame / kv.2.hdr.rs)]

/-- Recorded values without the first of each of some streams. -/
def dropHeard (l : List (Nat × Word)) (streams : List Nat) : List (Nat × Word) :=
  streams.foldl (fun l i => l.eraseP fun x => x.1 % psnStream == i) l

/-- The first cycle that a replay of a partition's member may not reach, where recording has stopped (R401). -/
def State.replayLimit (s : State) (part : Nat) : Option Nat :=
  let d := (s.getPart part).dbgstat
  if d.bit 63 then some (d.fld 47 0) else none

/-- The earlier of two ends. -/
def firstEnd : Option Nat → Option Nat → Option Nat
  | some a, some b => some (min a b)
  | some a, none => some a
  | none, e => e

/-- A member's context in a checkpoint. -/
def Task.ckptOf (t : Task) (memb checkpoint : Nat) : Option (SavedCtx × List (Nat × Word)) :=
  match t.ckpts.find? fun c => c.1 == checkpoint with
  | none => none
  | some c => (c.2.2.2.find? fun x => x.memb == memb).map fun x => (x, dropHeard (t.stream memb c.2.2.1) x.heard)

/-- A replay of a member begins on a core from a checkpoint and stops where it reaches cycle `stop` (R400). -/
def State.startReplay (s : State) (core task memb checkpoint : Nat) (stop : Option Nat) : State :=
  let t := s.getTask task
  match t.ckptOf memb checkpoint with
  | none => s
  | some (x, values) =>
      if !s.replayCore core t.part then s
      else
        let r := s.placeStamps core x
        let s := r.1
        let k := s.getCore core
        let stop := firstEnd stop (s.replayLimit t.part)
        let wait := match x.seq.wait with
          | .phase i => Wait.phase (renumber r.2 i)
          | w => w
        s.setCore core { k with
          mstate := if stop.any fun e => decide (e ≤ x.seq.mcc.toNat) then .frozen else if x.waiting then .waiting else .running
          bind := some { x.bind with memb := replayMember memb }
          seq := { x.seq with wait := wait }
          slots := x.slots, arrayFree := x.arrayFree, cmds := x.cmds, nextCmd := x.nextCmd, collSeq := x.collSeq, wp := x.wp
          handles := x.handles.map fun h => (h.1, h.2.map fun y => { y with stamp := renumber r.2 y.stamp })
          scratch := x.scratch, replay := some values, replayEnd := stop }

/-- R400: a replay restores one member's checkpoint onto a core of its partition and runs the member from it, with the
recorded values in place of its reads. -/
def execEvReplay (core task memb checkpoint : Nat) (s : State) : Result := .next (s.startReplay core task memb checkpoint none)

/-- A core on which a replay of a member stands, without it. -/
def State.endReplay (s : State) (core task memb : Nat) : State :=
  let k := s.getCore core
  if k.replay.isSome && k.bind.isSome && k.binding.task == task && k.binding.memb == replayMember memb then
    (s.freeStampsOf task (replayMember memb)).modCore core fun k => { k with mstate := .unbound, bind := none, replay := none, replayEnd := none }
  else s

/-- R400: reverse stepping of a member to a cycle: the latest checkpoint whose cycle is at most that is restored, and replayed up to
it. -/
def execEvReverseStep (core task memb cycle : Nat) (s : State) : Result :=
  let able := (s.getTask task).ckpts.filter fun c => c.2.2.2.any fun x => x.memb == memb && decide (x.seq.mcc.toNat ≤ cycle)
  match able.getLast? with
  | none => .next s
  | some c => .next ((s.endReplay core task memb).startReplay core task memb c.1 (some cycle))

/-- The replays that have reached their end stop (R400, R401). -/
def State.stopReplays (s : State) : State :=
  allCores.foldl (fun s c =>
    if (s.getCore c).replayEnd.any fun e => decide (e ≤ (s.getCore c).seq.mcc.toNat) then s.replayOver c else s) s

/-- A freeze of the first run falls on its recorded cycle in the replay of core `c` (R400): the rounds are voided again. -/
def State.replayFreeze (s : State) (c : Nat) : State :=
  match (s.getCore c).replay with
  | none => s
  | some l =>
    match l.filter fun x => x.1 == freezeStream with
    | at' :: len :: _ =>
      if at'.2.toNat ≤ (s.getCore c).seq.mcc.toNat then
        let b := (s.getCore c).binding
        let s := (s.freezeStamps b.task b.memb).unhold b.task b.memb
        s.modCore c fun k => { k with replay := some ((l.erase at').erase len) }
      else s
    | _ => s

end Sys2Proof.Machine
end

