-- ==== Sys2Proof/Machine/Power.lean ====
section
/-!
DEFINITION. Bring-up (R403, R404), reset entry (R405), power islands (R406), limits and temperatures (R407) and the package's
gated state (R408).
-/

namespace Sys2Proof.Machine

/-! ### Bring-up -/

/-- The Addax ROM's measurements: MR0 of the boot image, MR1 of the firmware, MR2 of the fuse and tile maps (R375). -/
def State.measureBoot (s : State) : State :=
  { s with
    mr := (List.range 3).foldl (fun m i => Store.set 0 m i (Shake.join 0 (Config.imageDigest i))) []
    chain := none }

/-- R404: PWRGD is asserted: the ROM measures the images; STATE is 1. -/
def execEvPowerUp (s : State) : Result :=
  if s.pwrgd then .next s
  else .next (({ s with pwrgd := true }.measureBoot).setBoot 0 1)

/-- The fused tile of a core, from the fuses (R404). -/
def fuseTile (c : Nat) : Option (BitVec 4) :=
  let t := Config.fuseMap c
  if t < 16 then some (BitVec.ofNat 4 t) else none

/-- BOOTST.STATE. -/
def State.boot (s : State) : Nat := s.bootst.fld 3 0

/-- R404: the ROM's checks are passed and the firmware starts: STATE is 2; a complex out of service is CODE 4 (R403). -/
def execEvFirmwareStart (s : State) : Result :=
  .next (if s.pwrgd && s.boot == 1 then (if s.saigaOut then s.setBoot 4 4 else s.setBoot 0 2) else s)

/-- R404, R403: a step of the boot ends. In STATE 1 a failed check is CODE 1 or 2 and the device stops. In STATE 2 a stack that fails is
CODE 3, a complex out of service CODE 4, a thermal trip recorded at the last reset CODE 5; with none of them the fuses are loaded, the L2
and the chip scratchpad are zeroed, no partition is present, every PAT entry is at reset, and STATE is 3. A code that the step cannot give
changes nothing. -/
def execEvDeviceReady (code : BitVec 8) (s : State) : Result :=
  if s.pwrgd && s.boot == 1 && (code == 1 || code == 2) then .next (s.setBoot code.toNat 4)
  else if s.pwrgd && s.boot == 2 && (code == 0 || code == 3) then
    let code := if code = 3 then 3 else if s.saigaOut then 4 else if s.tripped then 5 else 0
    let s := { s with tripped := false }
    if code ≠ 0 then .next (s.setBoot code 4)
    else
      let s := allCores.foldl (fun s c => s.modCore c fun k => { k with fused := fuseTile c }) s
      .next ({ s with l2 := [], cp := {}, cpBanks := { s.cpBanks with errs := [] }, parts := [], pat := [] }.setBoot 0 3)
  else .next s

/-! ### Reset -/

/-- What a reset leaves: every block at its reset values but for what is outside the package, the domain's tick, the model's
own fields, and the record of a thermal trip. -/
def State.cleared (s : State) : State :=
  { State.reset with
    cycle := s.cycle, tick := s.tick, tickFrac := s.tickFrac, freeCount := s.freeCount, oracle := s.oracle, out := s.out, inputs := s.inputs
    nextStamp := s.nextStamp, host := s.host, pkgNo := s.pkgNo, deadLanes := s.deadLanes, hostDead := s.hostDead
    rpHome := s.rpHome, rpHolders := s.rpHolders, rpSent := s.rpSent, rpNext := s.rpNext, tripped := s.tripped || s.thermtrip }

/-- Host memory without what modified halves here have not written back (R402). -/
def State.hostLeft (s : State) : Ram := s.hostOld.foldl (fun m kv => m.store (kv.1 * 64) kv.2 false) s.host

/-- R402: PWRGD is deasserted: the package is reset at once, with no write-back; STATE is 0. -/
def execEvPwrgdDeassert (s : State) : Result := .next { s.cleared with host := s.hostLeft }

/-- The HDM halves that the host owns (R387). -/
def State.hostOwned (s : State) : List Nat := (s.halves.map Prod.fst).filter fun h => Store.get .inv s.halves h == .hostOwned

/-- R405, steps 1 and 2: dispatch stops, and every gang is stopped and discarded with no signal and no undo; HDM halves that the host owns
are recalled, and snoops are answered from the L2 meanwhile (R387). STATE is 0. -/
def State.enterReset (s : State) : State :=
  if !s.pwrgd || s.resetFrom.isSome then s
  else
    let s := s.askHalves .hbm true s.hostOwned
    State.setBoot { s with
      resetFrom := some s.tick, cores := [], clusters := [], stamps := [], tasks := [], slotTab := [], subreg := none, launching := []
      way := [], held := [], agenda := [] } 0 0

/-- R405, steps 3 and 4: once the recalls are answered, 5 ms after they began at the latest, the halves held M are written back, every half
is invalid, and every block but the always-on domain (the Saiga complex with its memory and queues, Addax with the audit log) is reset;
the device restarts at step 1 of R404. -/
def execEvResetEntryEnd (s : State) : Result :=
  match s.resetFrom with
  | none => .next s
  | some t =>
    if !s.hostOwned.isEmpty && decide (s.tick < t + usTicks 5000) then .next s
    else
      .next ((({ s.cleared with
        pwrgd := true, saiga := s.saiga, evcfg := s.evcfg, evhead := s.evhead, evtail := s.evtail, evseq := s.evseq
        sgstat := s.sgstat, harts := s.harts, pair := s.pair, failingOver := s.failingOver, failFrom := s.failFrom, failedHart := s.failedHart
        saigaOut := s.saigaOut, pending := s.pending, prqcfg := s.prqcfg, prqhead := s.prqhead, prqtail := s.prqtail
        mrext := s.mrext, audw := s.audw, audit := s.audit, lastAudit := s.lastAudit, sinceCkpt := s.sinceCkpt
        ckpt := s.ckpt, delivered := s.delivered, spdmSession := s.spdmSession, transcript := s.transcript }).measureBoot).setBoot 0 1)

/-- R405: PERST_N is asserted. -/
def execEvPerst (s : State) : Result := .next s.enterReset

/-- R405: a Function Level Reset of the physical function. -/
def execEvPfFlr (s : State) : Result := .next s.enterReset

/-! ### Islands -/

/-- A core-pair island. -/
def isPair (i : Nat) : Bool := decide (i < 36)
/-- An island of the L2 and the chip scratchpad. -/
def isL2 (i : Nat) : Bool := decide (36 ≤ i) && decide (i < 52)
/-- A Tahr slice's island. -/
def isTahr (i : Nat) : Bool := decide (52 ≤ i) && decide (i < 60)

/-- Whether an armed BIND or RESUME claims a core (R337). -/
def State.claims (s : State) (c : Nat) : Bool :=
  bindNums.any fun k => s.bindStatus k == 1 && (s.bindOp k == 1 || s.bindOp k == 2) && s.bindCore k == c

/-- Whether a write of GATE = 1 to an island is ignored (R406). -/
def State.gateRefused (s : State) (i : Nat) : Bool :=
  if isPair i then [2 * i, 2 * i + 1].any fun c => (s.getCore c).bind.isSome || (s.getCore c).scrub || s.claims c
  else if isL2 i then true
  else if isTahr i then false
  else (List.range 256).any fun n =>
    chanState (s.chan n) == 1 && (List.range 3).any fun k => bitOf ((s.chan n).fld 58 47) (3 * (i - 60) + k)

/-- The shadow stores of a core pair are lost (R406). -/
def State.loseShadows (s : State) (i : Nat) : State :=
  if isPair i then [2 * i, 2 * i + 1].foldl (fun s c => s.modCore c fun k => { k with shadow := none }) s else s

/-- R406: a write of ISLCTL.GATE of the island ISLIDX names: 1 powers it off unless it is ignored, 0 begins to ungate it; in the package's
gated state, and until its exit completes, it stays off (R408). -/
def execEvIslandGate (v : Word) (s : State) : Result :=
  let i := s.islidx % 64
  let w := s.isl i
  if !s.saigaRuns || v.bit 0 == w.bit 0 then .next s
  else if v.bit 0 then
    if s.gateRefused i then .next s else .next ((s.loseShadows i).setIsl i ((w.put 0 0 1).put 31 30 1))
  else .next (s.setIsl i ((w.put 0 0 0).put 31 30 (if s.pkgctl || s.exiting then 1 else 2)))

/-- R406: a write of ISLCTL.FREQ: 8 to 36, of an L2 island 24 to 36; other values are ignored. -/
def execEvIslandFrequency (v : Word) (s : State) : Result :=
  let i := s.islidx % 64
  let w := s.isl i
  let f := islFreq v
  if !s.saigaRuns || f < (if isL2 i then 24 else 8) || 36 < f || f == islFreq w then .next s
  else .next (s.setIsl i ((w.put 15 8 f).put 31 30 (if islCur w = 1 then 1 else 2)))

/-- Whether R407 holds an island's frequency down. -/
def State.heldDown (s : State) (i : Nat) : Bool := s.throttled.contains i || (s.powerLow && (isPair i || isTahr i))

/-- An island is on at the frequency FREQ asks for, halved by its temperature and lowered by the power limit to a value that the manual
leaves open (R406, R407, log entry 4, DESIGN CHOICE). -/
def State.islandOn (s : State) (i : Nat) : State :=
  let w := s.isl i
  let f := if s.throttled.contains i then islFreq w / 2 else islFreq w
  if s.powerLow && (isPair i || isTahr i) then
    s.free.2.setIsl i ((w.put 23 16 (if f = 0 then 0 else s.free.1.toNat % f)).put 31 30 3)
  else s.setIsl i ((w.put 23 16 f).put 31 30 (if s.heldDown i then 3 else 0))

/-- R406: a change of frequency or an ungating completes. -/
def execEvIslandChangeComplete (island : Nat) (s : State) : Result :=
  .next (if islCur (s.isl island) ≠ 2 then s else s.islandOn island)

/-! ### Limits -/

/-- Another frequency in force for an island, which then reads as throttled, unless it is gated or changes (R407). -/
def State.slow (s : State) (i f : Nat) : State :=
  let w := s.isl i
  s.setIsl i ((w.put 23 16 f).put 31 30 (if islCur w = 1 || islCur w = 2 then islCur w else 3))

/-- The frequency of an island once one of the two causes of R407 is gone: FREQ, or half of it while its temperature holds it down, or up to
twice what it was while the power limit does. One that is gated or changes takes its frequency when it is on. -/
def State.restoreIsl (s : State) (i : Nat) : State :=
  let w := s.isl i
  if islCur w = 1 || islCur w = 2 then s
  else if s.powerLow && (isPair i || isTahr i) then s.setIsl i (w.put 23 16 (min (islFreq w) (2 * islNow w)))
  else if s.throttled.contains i then s.setIsl i (w.put 23 16 (islFreq w / 2))
  else s.setIsl i ((w.put 23 16 (islFreq w)).put 31 30 0)

/-- The islands that the power limit lowers. -/
def limited : List Nat := (List.range 64).filter fun i => isPair i || isTahr i

/-- What MEAS and LIM make of the frequencies (R407): while MEAS exceeds LIM those of the core-pair and Tahr islands are lowered, to values
the manual leaves open (log entry 4, DESIGN CHOICE); else they are no longer held down. -/
def State.limitPower (s : State) : State :=
  if s.pwrlim.fld 15 0 < s.pwrlim.fld 31 16 then
    limited.foldl (fun s i =>
      let f := islNow (s.isl i)
      State.slow s.free.2 i (if f = 0 then 0 else s.free.1.toNat % f)) { s with powerLow := true }
  else if s.powerLow then limited.foldl State.restoreIsl { s with powerLow := false }
  else s

/-- R407: the power measured has risen. -/
def execEvPowerLimitThrottle (meas : BitVec 16) (s : State) : Result :=
  .next (State.limitPower { s with pwrlim := s.pwrlim.put 31 16 meas.toNat })

/-- R407: the power measured has fallen. -/
def execEvPowerLimitThrottleEnd (meas : BitVec 16) (s : State) : Result :=
  .next (State.limitPower { s with pwrlim := s.pwrlim.put 31 16 meas.toNat })

/-- A write of PWRLIM.LIM: one above 1,700 is ignored (R407). -/
def State.setLim (s : State) (v : Word) : State :=
  if 1700 < v.fld 15 0 then s else State.limitPower { s with pwrlim := s.pwrlim.put 15 0 (v.fld 15 0) }

/-- R407: an island reaches 105 °C: its frequency is halved. -/
def execEvThermalThrottle (island : Nat) (s : State) : Result :=
  if 64 ≤ island || s.throttled.contains island then .next s
  else .next (State.slow { s with throttled := s.throttled ++ [island] } island (islNow (s.isl island) / 2))

/-- R407: the island's temperature falls below 100 °C. -/
def execEvThermalThrottleEnd (island : Nat) (s : State) : Result :=
  if s.throttled.contains island then
    .next (State.restoreIsl { s with throttled := s.throttled.filter fun i => i != island } island)
  else .next s

/-- R407: an island reaches 115 °C: THERMTRIP_N is asserted. -/
def execEvThermalTrip (island : Nat) (s : State) : Result := .next (if island < 64 then { s with thermtrip := true } else s)

/-! ### The package's gated state -/

/-- The islands gated with the package (R408). -/
def pkgIslands : List Nat := (List.range 64).filter fun i => !isL2 i

/-- Whether the gated state may be entered (R408, R387). -/
def State.mayGate (s : State) : Bool :=
  (allCores.all fun c => (s.getCore c).bind.isNone && !s.claims c) && s.halves.all fun kv => kv.2 != .modified

/-- PKGCTL.GATE. -/
def State.pkgGate (s : State) : Bool := s.pkgctl || s.gating

/-- Whether a write to a host-coherent half is still on its way or held (R387). -/
def State.hostWrites (s : State) : Bool :=
  (s.way.any fun st => st.hc) || s.held.any fun h => match h with
    | .store st => st.hc
    | .red r => r.hc
    | .signal _ _ _ hc _ => hc
    | _ => false

/-- R408: a write of PKGCTL.GATE: 1, where it is not ignored, recalls the HDM halves that the host owns (R387), after which the gated state
is entered; 0 begins the exit. -/
def execEvPkgGate (v : Word) (s : State) : Result :=
  if !s.saigaRuns || v.bit 0 == s.pkgGate then .next s
  else if v.bit 0 then
    .next (if s.mayGate then { s.askHalves .hbm true s.hostOwned with gating := true } else s)
  else .next { s with pkgctl := false, gating := false, exiting := s.exiting || s.pkgctl }

/-- R408, R387: GATE takes effect, once no write to a host-coherent half is under way and the recalls are answered: every core-pair, Tahr and
Lomid island is off. It takes none where the conditions hold no more. -/
def execEvPkgGateEnter (s : State) : Result :=
  if !s.gating then .next s
  else if !s.mayGate then .next { s with gating := false }
  else if s.hostWrites || !s.hostOwned.isEmpty then .next s
  else
    .next (pkgIslands.foldl (fun s i => (s.loseShadows i).setIsl i ((s.isl i).put 31 30 1))
      { s with pkgctl := true, gating := false, exiting := false })

/-- R408: the exit from the gated state completes: an island is on again, at its frequency, unless its own GATE is 1. -/
def execEvPkgGateExitComplete (s : State) : Result :=
  if !s.exiting then .next s
  else .next (pkgIslands.foldl (fun s i => if (s.isl i).bit 0 then s else s.islandOn i) { s with exiting := false })

end Sys2Proof.Machine
end

