-- ==== Sys2Proof/Machine/Window.lean ====
section
/-!
DEFINITION. The control window (R318): writes of system registers that have no row of their own in the table, and what a read
of a system register returns.
-/

namespace Sys2Proof.Machine

/-! ### Core registers -/

/-- A breakpoint register after a write (R397): BKPT0 to BKPT3 by 0 to 3, FBKPT by 4. -/
def bkptWord (i : Nat) (v : Word) : Word :=
  if i < 4 then (v.put 62 48 0).put 1 0 0 else v.put 62 36 0

/-- A write of register `n` of core `c` (R318, R320, R397, R398): a member register that R224 lists only while no Running, Waiting or Frozen
member is there, else WIGN is set; a breakpoint only while the core does not run. -/
def State.writeCoreReg (s : State) (c n : Nat) (v : Word) : Result :=
  let k := s.getCore c
  if n < 0x400 then
    if ({ s with core := c } : State).readSys n |>.isNone then .next s
    else if k.live then .next { s with sgstat := s.sgstat.put 6 6 1 }
    else .next (s.setCore c { k with seq := k.seq.writeSys n v })
  else if n = 0x400 then execEvCorectl c v s
  else if 0x410 ≤ n ∧ n ≤ 0x414 then
    .next (if k.mstate == .running then s else s.setCore c { k with bkpt := Store.set 0 k.bkpt (n - 0x410) (bkptWord (n - 0x410) v) })
  else if n = 0x420 then execEvDumpctl c v s
  else .next s

/-! ### Device registers -/

/-- DBGCFG after a write (R394): a size outside its range stays as it was. -/
def writeDbgcfg (old v : Word) : Word :=
  let keep (hi lo a b : Nat) (w : Word) : Word := if a ≤ v.fld hi lo ∧ v.fld hi lo ≤ b then w else w.put hi lo (old.fld hi lo)
  (((keep 31 24 16 40 (keep 23 16 20 40 v)).put 53 48 0).put 15 2 0)

/-- A register of the partition that PIDX selects. -/
def State.writePart (s : State) (f : Part → Part) : State := s.modPart (s.pidx % 65536) f

/-- A write of word `k` of bind record `n`: word 0 arms or cancels; the others are written only while it is not armed (R337). -/
def State.writeBindWord (s : State) (n k : Nat) (v : Word) : State :=
  if k = 0 then s.writeRecord n v
  else if s.bindStatus n = 1 then s
  else { s with slotTab := Store.set 0 s.slotTab (4 * n + k) (if k = 1 then v.put 9 0 0 else v) }

/-- A write of LCHAN that neither opens nor retires a channel (R388; log entry 15, DESIGN CHOICE). -/
def State.writeChan (s : State) (v : Word) : Result :=
  let n := s.lchidx % 256
  let st := chanState (s.chan n)
  if v.bit 59 && st == 1 then execEvLchanRetire v s
  else if v.bit 63 && (st == 0 || st == 3) then execEvLchanOpen v s
  else .next ((s.setChan n (chanFields (s.chan n) v)).noteDead n)

/-- A write of ISLCTL: its frequency, then its gate (R406). -/
def State.writeIsl (s : State) (v : Word) : Result :=
  match execEvIslandFrequency v s with
  | .next t => execEvIslandGate v t
  | r => r

/-- A write of PTROOT (R345). -/
def ptrootWord (v : Word) : Word := BitVec.ofNat 64 (v.fld 51 12 * 4096 + v.fld 0 0)

/-- A write of device register `n` (R319, R333, R345, R349, R354, R368, R369, R375, R378, R388, R389, R394, R406, R407). One that
no chapter lists, or that is read-only, is ignored (R318). -/
def State.writeDevice (s : State) (n : Nat) (v : Word) : Result :=
  if 0xC00 ≤ n ∧ n < 0x1000 then .next (s.writeBindWord ((n - 0xC00) / 4) ((n - 0xC00) % 4) v)
  else if 0x8A8 ≤ n ∧ n ≤ 0x8AF then .next { s with mrext := Store.set 0 s.mrext (n - 0x8A8) v }
  else if 0x8A0 ≤ n ∧ n ≤ 0x8A3 then .next { s with audw := Store.set 0 s.audw (n - 0x8A0) v }
  else
    match n with
    | 0x800 => execEvEvcfg v s
    | 0x801 => execEvEvhead v s
    | 0x810 => .next (if v.bit 6 then { s with sgstat := s.sgstat.put 6 6 0 } else s)
    | 0x820 => .next { s with alidx := v.fld 22 0 }
    | 0x821 => execEvAldata v s
    | 0x822 => execEvTabort v s
    | 0x840 => .next { s with pidx := v.fld 15 0 }
    | 0x841 => .next (s.writePart fun p => { p with psched := v.put 1 0 0 })
    | 0x842 => .next (s.writePart fun p => { p with ptroot := ptrootWord v })
    | 0x843 =>
      let p := s.pidx % 65536
      .next (s.auditedWrite 0x843 5 p (s.getPart p).wlcfg v true fun s => s.modPart p fun x => { x with wlcfg := v.put 11 0 0 })
    | 0x844 => .next (if v.bit 0 then s.writePart fun p => { p with wlFull := false } else s)
    | 0x845 => execEvPrect v s
    | 0x846 => execEvPpol v s
    | 0x847 => execEvPway v s
    | 0x848 => execEvCpwin v s
    | 0x849 => execEvCremap v s
    | 0x84A => execEvSealstRekey v s
    | 0x84B =>
      .next (if s.partRuns (s.pidx % 65536) then s else s.writePart fun p => { p with dbgcfg := writeDbgcfg p.dbgcfg v })
    | 0x84C => .next (s.writePart fun p => { p with trbase := (v.put 63 52 0).put 11 0 0 })
    | 0x84D => .next (s.writePart fun p => { p with rlbase := (v.put 63 52 0).put 11 0 0 })
    | 0x84E => .next (if v.bit 63 then s.writePart fun p => { p with dbgstat := p.dbgstat.put 63 63 0 } else s)
    | 0x84F => execEvRlfree v s
    | 0x850 => execEvEbud v s
    | 0x880 =>
      if s.prqhead ≠ s.prqtail then .next s
      else
        let cfg := writeQueueCfg s.prqcfg v
        .next { s with prqcfg := cfg, prqhead := s.prqhead % queueSize cfg, prqtail := s.prqtail % queueSize cfg }
    | 0x881 => execEvPrqhead v s
    | 0x883 => if v.bit 12 then execEvPrrespRefuse (v.fld 11 0) s else execEvPrrespRetry (v.fld 11 0) s
    | 0x884 => execEvTlbinv v s
    | 0x885 => .next { s with tlbinvsz := v }
    | 0x890 => .next { s with patidx := v.fld 17 0 }
    | 0x891 => execEvPat v s
    | 0x892 => .next { s with occsel := v.fld 15 0 }
    | 0x894 => .next { s with blkidx := v.fld 12 0 }
    | 0x895 => execEvBlkcls v s
    | 0x8A4 => execEvAudw4 v s
    | 0x8B0 => execEvMrgo v s
    | 0x8C0 => .next { s with lchidx := v.fld 7 0 }
    | 0x8C1 => s.writeChan v
    | 0x8C2 => .next { s with lchoff := Store.set 0 s.lchoff (s.lchidx % 256) (v.put 63 48 0) }
    | 0x8C4 => .next { s with pwidx := v.fld 21 0 }
    | 0x8C5 => execEvPwin v s
    | 0x8C6 =>
      .next (s.modPart (s.pwidx % 65536) fun p =>
        { p with pwlen := Store.set 0 p.pwlen (s.pwidx / 65536 % 64) (v.put 63 32 0) })
    | 0x8D0 => .next { s with islidx := v.fld 5 0 }
    | 0x8D1 => s.writeIsl v
    | 0x8D2 => execEvPkgGate v s
    | 0x8D3 => .next (s.setLim v)
    | _ => .next s

/-- R318: a Saiga write through the control window: unit 0 to 71 a core, unit 72 the device. (A write to a reserved unit
faults in Saiga's core and reaches no register.) -/
def execEvRegisterWrite (unit n : Nat) (v : Word) (s : State) : Result :=
  if !s.saigaRuns then .next s
  else if unit < 72 then s.writeCoreReg unit n v
  else if unit = 72 then s.writeDevice n v
  else .next s

/-! ### Reads -/

/-- What a read of register `n` of core `c` returns; an unlisted number reads as zero (R318). -/
def State.readCoreReg (s : State) (c n : Nat) : Word :=
  let k := s.getCore c
  if n < 0x400 then (State.readSys { s with core := c } n).getD 0
  else if n = 0x400 then s.corectl c
  else if 0x410 ≤ n ∧ n ≤ 0x414 then Store.get 0 k.bkpt (n - 0x410)
  else if n = 0x420 then BitVec.ofNat 64 (k.dumpBase + 2 * bit01 k.dumpBusy)
  else 0

/-- OCC: the lines of a slice that an LPI owns (R366). -/
def State.occ (s : State) : Word :=
  let sl := s.occsel % 4096
  let lpi := s.occsel / 4096 % 16
  BitVec.ofNat 64 (((s.l2.filter fun kv => sliceOf kv.1 == sl).flatMap Prod.snd).filter fun l => l.owner == lpi).length

/-- What a read of device register `n` returns; a write-only or unlisted one reads as zero (R318). -/
def State.readDevice (s : State) (n : Nat) : Word :=
  let p := s.getPart (s.pidx % 65536)
  let w := s.getPart (s.pwidx % 65536)
  if 0xC00 ≤ n ∧ n < 0x1000 then s.bindWord ((n - 0xC00) / 4) ((n - 0xC00) % 4)
  else if 0x8A0 ≤ n ∧ n ≤ 0x8A4 then Store.get 0 s.audw (n - 0x8A0)
  else if 0x8A8 ≤ n ∧ n ≤ 0x8AF then Store.get 0 s.mrext (n - 0x8A8)
  else
    match n with
    | 0x800 => s.evcfg
    | 0x801 => BitVec.ofNat 64 s.evhead
    | 0x802 => BitVec.ofNat 64 s.evtail
    | 0x803 => BitVec.ofNat 64 s.evseq
    | 0x810 => s.sgstat
    | 0x820 => BitVec.ofNat 64 s.alidx
    | 0x821 => Store.get 0 (s.getPart (s.alidx / 128)).allow (s.alidx % 128)
    | 0x840 => BitVec.ofNat 64 s.pidx
    | 0x841 => p.psched
    | 0x842 => p.ptroot
    | 0x843 => p.wlcfg
    | 0x844 => p.wlstat
    | 0x845 => p.prect
    | 0x846 => p.ppol
    | 0x847 => s.pway (s.pidx % 65536)
    | 0x848 => p.cpwin
    | 0x849 => p.cremap
    | 0x84A => p.sealst
    | 0x84B => p.dbgcfg
    | 0x84C => p.trbase
    | 0x84D => p.rlbase
    | 0x84E => p.dbgstat
    | 0x84F => p.rlfree
    | 0x850 => p.ebud
    | 0x880 => s.prqcfg
    | 0x881 => BitVec.ofNat 64 s.prqhead
    | 0x882 => BitVec.ofNat 64 s.prqtail
    | 0x884 => s.tlbinv
    | 0x885 => s.tlbinvsz
    | 0x890 => BitVec.ofNat 64 s.patidx
    | 0x891 => s.patEntry s.patidx
    | 0x892 => BitVec.ofNat 64 s.occsel
    | 0x893 => s.occ
    | 0x894 => BitVec.ofNat 64 s.blkidx
    | 0x895 => Store.get 0 s.blkcls s.blkidx
    | 0x8A5 => s.audstat
    | 0x8C0 => BitVec.ofNat 64 s.lchidx
    | 0x8C1 => s.chan (s.lchidx % 256)
    | 0x8C2 => Store.get 0 s.lchoff (s.lchidx % 256)
    | 0x8C4 => BitVec.ofNat 64 s.pwidx
    | 0x8C5 => Store.get 0 w.pwin (s.pwidx / 65536 % 64)
    | 0x8C6 => Store.get 0 w.pwlen (s.pwidx / 65536 % 64)
    | 0x8D0 => BitVec.ofNat 64 s.islidx
    | 0x8D1 => s.isl (s.islidx % 64)
    | 0x8D2 => BitVec.ofNat 64 (bit01 s.pkgGate)
    | 0x8D3 => s.pwrlim
    | _ => 0

/-- What Saiga reads through the control window (R318). -/
def State.readWindow (s : State) (unit n : Nat) : Word :=
  if unit < 72 then s.readCoreReg unit n else if unit = 72 then s.readDevice n else 0

/-! ### Saiga's own accesses -/

/-- The first address of the control window (R318). -/
def windowBase : Nat := 0x4000000000

/-- The unit and register that an access of `n` bytes at an address of the control window names: none for one that is not 8 bytes and
aligned, or of a reserved unit, which raises the access fault (R318). -/
def windowPlace (addr n : Nat) : Option (Nat × Nat) :=
  let o := addr - windowBase
  if windowBase ≤ addr ∧ o < 128 * 0x8000 ∧ n = 8 ∧ o % 8 = 0 ∧ o / 0x8000 ≤ 72 then some (o / 0x8000, o % 0x8000 / 8) else none

/-- A Saiga core takes an access fault (R318) as its privileged architecture has it, in machine mode: mepc, mcause (5 a load, 7 a store),
mtval, MIE into MPIE and the mode into MPP of mstatus, and mtvec's handler (log entry 94, PRESUMED). -/
def Hart.fault (h : Hart) (store : Bool) (addr : Nat) : Hart :=
  let st := Store.get 0 h.csrs 0x300
  let st := (((st.put 7 7 (st.fld 3 3)).put 3 3 0).put 12 11 (if h.user then 0 else 3))
  let csrs := Store.set 0 (Store.set 0 h.csrs 0x300 st) 0x341 h.pc
  let csrs := Store.set 0 (Store.set 0 csrs 0x342 (if store then 7 else 5)) 0x343 (BitVec.ofNat 64 addr)
  { h with csrs := csrs, user := false, pc := (Store.get 0 h.csrs 0x305).put 1 0 0 }

/-- The pair takes an access fault (R317, R318). -/
def State.hartsFault (s : State) (store : Bool) (addr : Nat) : State :=
  { s with harts := s.pair.foldl (fun m i => Store.modify {} m i fun h => h.fault store addr) s.harts }

/-- R317, R318: a store of Saiga's pair: to its SRAM, here from address 0 (log entry 94, DESIGN CHOICE), or through the control window;
any other raises the access fault. -/
def execEvHartStore (addr : Nat) (data : List Byte) (s : State) : Result :=
  if !s.saigaRuns then .next s
  else if addr + data.length ≤ sramBytes then .next ({ s with saiga := s.saiga.store addr data false }.send (.hartStore true))
  else
    match windowPlace addr data.length with
    | some (u, n) =>
      match execEvRegisterWrite u n (BitVec.ofNat 64 (ofBytes data)) s with
      | .next t => .next (t.send (.hartStore true))
      | r => r
    | none => .next ((s.hartsFault true addr).send (.hartStore false))

/-- R317, R318: a load of Saiga's pair; what a word that the SRAM's code cannot correct gives is a free value (log entry 94, DESIGN
CHOICE). -/
def execEvHartLoad (addr size : Nat) (s : State) : Result :=
  if !s.saigaRuns then .next s
  else if addr + size ≤ sramBytes && s.saiga.worst addr size == .bad then .next (s.free.2.send (.hartLoad (some s.free.1)))
  else if addr + size ≤ sramBytes then .next (s.send (.hartLoad (some (BitVec.ofNat 64 (s.saiga.num addr size)))))
  else
    match windowPlace addr size with
    | some x => .next (s.send (.hartLoad (some (s.readWindow x.1 x.2))))
    | none => .next ((s.hartsFault false addr).send (.hartLoad none))

/-! ### BAR0 -/

/-- What a host read of 8 bytes of a function's BAR0 returns (R7, R329, R331, R354, R403): SUBSTAT and BOOTST of the physical function;
zero from a write-only register, an unlisted offset (log entry 96, DESIGN CHOICE), and through a virtual function. -/
def State.barWord (s : State) (vf off : Nat) : Word :=
  if vf ≠ 0 then 0
  else
    match off with
    | 0x40 => s.substat
    | 0x50 => s.bootst
    | _ => 0

/-- R7: the host reads BAR0. -/
def execEvHostBarRead (vf off : Nat) (s : State) : Result := .next (if s.hostDead then s else s.send (.barRead (s.barWord vf off)))

end Sys2Proof.Machine
end

