-- ==== Sys2Proof/Machine/Cycle.lean ====
section
/-!
DEFINITION. What a cycle consists of (R8, R29): time moves on, and the steps that are due are listed in their order: landings,
retirements and starts of engine commands, regions, slices, the device's other steps, then the sequencers. A device step whose
time the manual leaves open may be put off by the oracle (log entry 5, DESIGN CHOICE).
-/

namespace Sys2Proof.Machine

/-- Whether a core's member takes part in the cycle: Running or Waiting (R29, R30). -/
def Core.moves (k : Core) : Bool := k.bind.isSome && (k.mstate == .running || k.mstate == .waiting)

/-- The cores that do, in this cycle of their island. -/
def State.moving (s : State) : List Nat := allCores.filter fun c => (s.getCore c).moves && s.ticks (c / 2)

/-- One cycle of the 1.8 GHz clock passes: 9 are 5 ticks (R8, log entry 8, DEDUCED); each island goes on by FNOW 36ths of a cycle. -/
def State.advanceTime (s : State) : State :=
  { s with
    cycle := s.cycle + 1, tick := s.tick + (s.tickFrac + 5) / 9, tickFrac := (s.tickFrac + 5) % 9
    islPhase := (List.range 52).foldl (fun m i =>
      let p := Store.get 0 m i + islNow (s.isl i)
      Store.set 0 m i (if 36 ≤ p then p - 36 else p)) s.islPhase }

/-- The members in progress are one cycle further (R29); their write pointers' values at its start are kept (R168). -/
def State.advanceCounts (s : State) : State :=
  s.moving.foldl (fun s c => s.modCore c fun k => { k with wpOld := k.wp, seq := { k.seq with mcc := k.seq.mcc + 1 } }) s

/-- The tasks that may be frozen at the start of a cycle, before any of their members goes on (R29, R340): by FREEZE records, at the end
of PLIM, on a debug stop's tick, or as another package has told. -/
def State.freezing (s : State) : List Nat :=
  nub (((bindNums.filter fun n => s.recordDue n 4).map s.bindTask) ++ ((s.tasks.filter fun kv =>
    kv.2.stopAt.isSome || kv.2.freezeAt.isSome || s.pointsOver kv.1).map Prod.fst))

/-- The partitions with a task that satisfies `p`. -/
def State.partsWith (s : State) (p : Nat → Bool) : List Nat := nub ((s.tasks.filter fun kv => p kv.1).map fun kv => kv.2.part)

/-- The state that a step gives. -/
def stateOr (r : Result) (s : State) : State :=
  match r with
  | .next t => t
  | _ => s

/-- The stops of this cycle's start: PREEMPT records that are freezes, PLIM being 0, the freezes that are due, and those for checkpoints (R339,
R340, R399). -/
def State.freezeNow (s : State) : State :=
  let s := (bindNums.filter fun n => s.recordDue n 3 && s.plimTicks (s.getTask (s.bindTask n)).part == 0).foldl
    (fun s n => stateOr (execEvPreemptExecute n s) s) s
  let s := s.freezing.foldl (fun s t => stateOr (execEvForcedFreeze t s) s) s
  (s.partsWith s.ckptBegins).foldl (fun s p => stateOr (execEvDebugCheckpoint p s) s) s

/-! ### Engines -/

/-- For each command of the cores in progress, what `f` lists, in program order. -/
def State.perCmd (s : State) (f : Nat → Core → Cmd → List Ev) : List Ev :=
  s.moving.flatMap fun c =>
    let k := s.getCore c
    (k.cmds.filter fun m => !m.retired).flatMap fun m => f c k m

/-- Cycles since a command's start. -/
def Cmd.since (m : Cmd) (k : Core) : Option Nat := m.started.map fun t => k.seq.mcc.toNat - t

/-- The landings of started commands. -/
def State.landings (s : State) : List Ev :=
  s.perCmd fun c _ m =>
    if m.started.isNone then [] else
    match m.engine with
    | .serow => [.copyGranuleLands c m.id]
    | .tahr => [.tahrResultLands c m.id]
    | .collect => (m.ranks.filter fun r => s.mayLand c m r).map fun r => .collectiveLanding c m.id r
    | _ => []

/-- The retirements whose cycle has come, and those whose condition may have. -/
def State.retirements (s : State) : List Ev :=
  s.perCmd fun c k m =>
    match m.started with
    | none => []
    | some t =>
      match m.engine with
      | .markhor => if k.seq.mcc.toNat = m.tileEnd t then [.tileStepRetire c m.id] else []
      | .accum => if k.seq.mcc.toNat = t + m.accCycles then [.accCommandRetire c m.id] else []
      | .serow => [.copyRetire c m.id]
      | .tahr => [.tahrRetire c m.id]
      | .collect => [.collectivePartRetire c m.id]

/-- The starts: of commands, and of the repetitions of tile-steps (R233, R244). -/
def State.starts (s : State) : List Ev :=
  s.perCmd fun c k m =>
    match m.started with
    | none => if k.mayStart m then [.engineCommandStart c m.id 0] else []
    | some t =>
      if m.engine == .markhor then
        ((List.range m.repeats).filter fun i => i != 0 && m.repCycle t i == k.seq.mcc.toNat).map fun i =>
          .engineCommandStart c m.id i
      else []

/-- The slices that retire in this cycle (R244). -/
def State.sliceEnds (s : State) : List Ev :=
  s.perCmd fun c k m =>
    match m.since k with
    | some d =>
      let x := d - (m.pace + 15)
      if m.engine == .markhor && decide (m.pace + 15 ≤ d) && decide (x % m.pace = 0) && decide (x / m.pace < m.repeats * m.slices) then
        [.tileStepSliceRetire c m.id (x / m.pace / m.slices) (x / m.pace % m.slices)]
      else []
    | none => []

/-- The zeroings of tile-steps, then the cells of accumulator commands (R244, R250). -/
def State.cellWrites (s : State) : List Ev :=
  (s.perCmd fun c k m => if m.engine == .markhor && m.since k == some 15 then [.mstepZeroing c m.id] else [])
    ++ s.perCmd fun c k m =>
      if m.engine == .accum && m.since k == some (m.accCycles - 1) then [.accCellsWritten c m.id] else []

/-! ### Regions -/

/-- The steps of a stamp whose phase runs: replies that arrive late, the row counters of its copies, each in the cycles of its own core's
island, commits, and the phase's end (R44, R52, R25, R26, R28, R8). -/
def State.regionSteps (s : State) : List Ev :=
  s.stamps.flatMap fun kv =>
    let st := kv.2
    if st.state != .running || st.held || !(s.getCore st.core).moves then [] else
    let js := List.range st.copies.length
    (js.flatMap fun j =>
      let c := st.copy j
      if !s.ticks (c.core / 2) then [] else
      ((c.reg.inflight.filter fun f => f.held.isSome && f.sent.isNone).map fun f => Ev.heldReadAnswered kv.1 j f.id)
        ++ ((c.reg.inflight.filter fun f => f.late == some (s.stampMcc st) && f.val.isSome).map fun f =>
          Ev.loadReplyArrives (.fabric kv.1 j f.id none))
        ++ (if s.copyRuns kv.1 j then [.rowCounterStep kv.1 j] else []) ++ [.roundCommit kv.1 j c.committed])
      ++ (if s.ticks (st.core / 2) then [.phaseRetire kv.1] else [])

/-! ### The device's other steps -/

/-- Bind records whose tick has come (R338, R339, R340, R342). -/
def State.dueRecords (s : State) : List Ev :=
  (bindNums.filter fun n => s.bindStatus n == 1 && decide (s.bindTick n ≤ s.tick)).flatMap fun n =>
    match s.bindOp n with
    | 1 => [.bindExecute n]
    | 2 => [.resumeExecute n]
    | 3 => [.preemptExecute n]
    | 4 => [.forcedFreeze (s.bindTask n)]
    | _ => []

/-- What tasks wait for: dependences (R37), points and their limit (R339), a debug stop's tick (R397). -/
def State.taskSteps (s : State) : List Ev :=
  s.tasks.flatMap fun kv =>
    (if kv.2.state == .queued then [.dependencesComplete kv.1] else [])
      ++ (match kv.2.stop with
        | .points _ => .gangSaveAtPoints kv.1 :: (if s.pointsOver kv.1 then [.preemptTimeout kv.1] else [])
        | _ => [])
      ++ (if kv.2.stopAt.isSome || kv.2.freezeAt.isSome then [.forcedFreeze kv.1] else [])

/-- Steps of cores whose time is bounded but open: captures, spills, scrubs, dumps (R340, R341, R373, R398). -/
def State.coreSteps (s : State) : List Ev :=
  allCores.flatMap fun c =>
    let k := s.getCore c
    (if k.mstate == .frozen && k.replay.isNone && (s.getTask k.binding.task).capturing then [.fastContextCaptured c] else [])
      ++ (if k.captured && k.bind.isSome && (s.getTask k.binding.task).stop == .spilling then [.spillComplete c] else [])
      ++ (if k.scrub then [.coreScrubComplete c] else []) ++ (if k.dumpBusy then [.dumpComplete c] else [])

/-- Steps of memory whose time is bounded but open: pushes of evicted lines, stores on their way, rescans and rebuilds, zeroing, layouts,
rekeys, re-encryption (R277, R201, R118, R119, R368, R369, R372). -/
def State.memorySteps (s : State) : List Ev :=
  (s.evicting.map fun x => Ev.ccEvictionPush x.1 x.2) ++ (s.way.map Ev.storeOnWay) ++ (s.derived.flatMap fun r => r.pending.map fun n =>
      if (r.slot n).bit stBuild then Ev.rebuildComplete r.id n else .rescanComplete r.id n)
    ++ (s.pat.filter fun kv => kv.2.bit 60).map (fun kv => .patZeroingComplete kv.1)
    ++ (s.blkcls.filter fun kv => kv.2.bit 63).map (fun kv => .blockLayoutComplete kv.1)
    ++ s.parts.flatMap fun kv =>
      (if kv.2.sealst.bit 62 then [.rekeyComplete kv.1] else []) ++ kv.2.reencrypting.map fun g => .groupReencryptComplete kv.1 g

/-- Other device steps whose time is open: invalidations, fail-over, islands, the gated state's entry and exit, reset entry, acceptance (R351,
R326, R406, R408, R405, R330). -/
def State.deviceSteps (s : State) : List Ev :=
  (if s.tlbinv.bit 63 then [] else [.tlbinvDone]) ++ (if s.failingOver then [.failoverComplete] else [])
    ++ ((List.range 64).filter fun i => islCur (s.isl i) == 2).map (fun i => .islandChangeComplete i)
    ++ (if s.gating then [.pkgGateEnter] else []) ++ (if s.exiting then [.pkgGateExitComplete] else [])
    ++ (if s.resetFrom.isSome then [.resetEntryEnd] else [])
    ++ (if s.subreg.isSome || !s.launching.isEmpty then [.launchAcceptance] else [])

/-- Steps that time or another step fixes: held commands, timeouts, drains, budget windows, checkpoints, log sizes (R233, R390,
R391, R80, R399, R378, R354). -/
def State.timedSteps (s : State) : List Ev :=
  (allCores.flatMap fun c =>
    match (s.getCore c).seq.wait with
    | .engine => [.heldCommandAccepted c]
    | .peer _ => [.peerReplyTimeout c]
    | _ => [])
    ++ (s.lchan.filter fun kv => chanState kv.2 == 2).map (fun kv => Ev.channelDrainEnd kv.1)
    ++ (s.parts.flatMap fun kv =>
      (if s.windowEnds kv.1 then [Ev.ebudWindowExpiry kv.1] else [])
        ++ (match kv.2.wlreq with
          | some n => if s.partRuns kv.1 then [] else [.wlreq (BitVec.ofNat 64 (kv.1 * 2 ^ 48 + n))]
          | none => []))
    ++ ((s.partsWith s.ckptReady).map fun p => .debugCheckpoint p)
    ++ (if 1024 ≤ s.sinceCkpt then [.auditCheckpoint] else [])

/-- The bound of a rescan or rebuild of a region's row or group, where the manual gives one (R118, R119, R128). -/
def State.unitBound (s : State) (region : Nat) : Option Nat :=
  match s.region region with
  | some x => if x.cols * fmtBytes x.fmt ≤ 65536 then some (usTicks 20) else none
  | none => none

/-- How many ticks an open step may take at most, where the manual gives a bound (R340, R341, R373, R326, R405, R406, R408, R372, R368,
R369, R118, R119, R329). A change of frequency ends with the pause of its island (log entry 97, DESIGN CHOICE). -/
def State.bound (s : State) (e : Ev) : Option Nat :=
  match e with
  | .fastContextCaptured _ => some 500
  | .spillComplete c => some (usTicks 2 + 300 * (s.getCore c).granules.length)
  | .coreScrubComplete _ => some (usTicks 40)
  | .failoverComplete => some (usTicks 10)
  | .islandChangeComplete i => some (usTicks (if islNow (s.isl i) = islFreq (s.isl i) then 50 else 2))
  | .pkgGateExitComplete => some (usTicks 2000)
  | .resetEntryEnd => some (usTicks 5000)
  | .groupReencryptComplete _ _ => some (usTicks 4)
  | .blockLayoutComplete _ => some (usTicks 2000)
  | .patZeroingComplete _ => some (usTicks 100)
  | .launchAcceptance => some (usTicks 2)
  | .rescanComplete r _ => s.unitBound r
  | .rebuildComplete r _ => s.unitBound r
  | _ => none

/-- The tick from which an open step has been possible. -/
def State.openFrom (s : State) (e : Ev) : Nat := ((s.openSince.find? fun x => x.1 == e).map Prod.snd).getD s.tick

/-- Whether an open step's bound is reached. -/
def State.overdue (s : State) (e : Ev) : Bool :=
  match s.bound e with
  | some n => decide (s.openFrom e + n ≤ s.tick)
  | none => false

/-- Events whose time is open: the oracle puts each off with any choice but 0, up to its bound (log entry 5, DESIGN CHOICE). -/
def postpone : List Ev → State → List Ev × State
  | [], s => ([], s)
  | e :: rest, s =>
    let go := s.choice == 0 || s.overdue e
    let r := postpone rest s.chosen
    (if go then e :: r.1 else r.1, r.2)

/-- The next event from outside, unless the oracle puts it off. -/
def State.nextInput (s : State) : List Ev × State :=
  match s.inputs with
  | [] => ([], s)
  | e :: rest => if s.choice = 0 then ([e], { s.chosen with inputs := rest }) else ([], s.chosen)

/-- A new cycle: its steps in their order; requests held at their homes have their turn after what may free them, and the arbiter takes
an event last (R324). -/
def State.beginCycle (s : State) : State :=
  let s := s.serveBanks.advanceTime.endRegions.freezeNow.advanceCounts.stopReplays
  let s := s.moving.foldl State.replayFreeze s
  let r := s.nextInput
  let s := r.2
  let steps := s.coreSteps ++ s.memorySteps ++ s.deviceSteps
  let o := postpone steps s
  let s := { o.2 with openSince := steps.map fun e => (e, s.openFrom e) }
  let evs := r.1 ++ s.landings ++ s.retirements ++ s.starts ++ s.regionSteps ++ s.sliceEnds ++ s.cellWrites ++ s.dueRecords
    ++ s.taskSteps ++ o.1 ++ s.timedSteps ++ (if s.held.isEmpty && s.rpWait.isEmpty then [] else [.heldTurn])
  { s with agenda := s.agenda ++ evs.map Action.event ++ s.moving.map Action.seq ++ [.event .eventTaken] }

end Sys2Proof.Machine
end

