-- ==== Sys2Proof/Machine/Control.lean ====
section
/-!
DEFINITION. Branches and jumps of the sequencer (R134, R143, R195, R200).
-/

namespace Sys2Proof.Machine

/-- A conditional branch: a poisoned operand raises the data-error fault in a class-D kernel (R195); a branch whose
condition holds continues at its own address plus sext(off16) × 4 (R134, R200). -/
def branch (a b : Reg) (off : BitVec 16) (s : State) (cond : Word → Word → Bool) : Result :=
  finish s do
    s.needClean ((s.g a).psn || (s.g b).psn)
    .ok (if cond (s.g a).val (s.g b).val then s.goto (s.q.pc + off.signExtend 64 * 4) else s.advance 4)

/-- R200: `BEQ`. -/
def execBeq (a b : Reg) (off : BitVec 16) (s : State) : Result := branch a b off s fun x y => x == y
/-- R200: `BNE`. -/
def execBne (a b : Reg) (off : BitVec 16) (s : State) : Result := branch a b off s fun x y => x != y
/-- R200: `BLT`, signed. -/
def execBlt (a b : Reg) (off : BitVec 16) (s : State) : Result := branch a b off s fun x y => x.slt y
/-- R200: `BGE`, signed. -/
def execBge (a b : Reg) (off : BitVec 16) (s : State) : Result := branch a b off s fun x y => !x.slt y
/-- R200: `BLTU`, unsigned. -/
def execBltu (a b : Reg) (off : BitVec 16) (s : State) : Result := branch a b off s fun x y => x.ult y
/-- R200: `BGEU`, unsigned. -/
def execBgeu (a b : Reg) (off : BitVec 16) (s : State) : Result := branch a b off s fun x y => !x.ult y

/-- The target of a J-format jump (R134). -/
def jumpTarget (pc : Word) (off : BitVec 26) : Word := pc + off.signExtend 64 * 4

/-- R200: `J`. -/
def execJ (off : BitVec 26) (s : State) : Result := .next (s.goto (jumpTarget s.q.pc off))
/-- R200: `JAL` writes its own address plus 4 to g31. -/
def execJal (off : BitVec 26) (s : State) : Result := .next ((s.setG 31 (s.q.pc + 4) false).goto (jumpTarget s.q.pc off))

/-- R200, R143: `JALR` forms the target from ga as it stood before, then writes its own address plus 4 to gd; a target
with bits 1:0 non-zero raises the alignment fault and writes nothing; a poisoned base raises the data-error fault in a
class-D kernel (R195). -/
def execJalr (d a : Reg) (imm : BitVec 16) (s : State) : Result :=
  finish s do
    s.needClean (s.g a).psn
    let target := (s.g a).val + sext16 imm
    if target.fld 1 0 ≠ 0 then .error (alignTrap target)
    else .ok ((s.setG d (s.q.pc + 4) (s.g a).psn).goto target)

end Sys2Proof.Machine
end

