-- ==== Sys2Proof/Machine/LoaderChecks.lean ====
section
/-!
DEFINITION. The configuration image and the loader's checks (R55 to R58, R183, R294, R347).
-/

namespace Sys2Proof.Machine

/-! ### The image -/

/-- One bit of CRC-32 (IEEE 802.3, reflected). -/
def crcBit (c : BitVec 32) : BitVec 32 := if c.getLsbD 0 then (c >>> 1) ^^^ 0xEDB88320 else c >>> 1

/-- One byte. -/
def crcByte (c : BitVec 32) (b : Byte) : BitVec 32 :=
  crcBit (crcBit (crcBit (crcBit (crcBit (crcBit (crcBit (crcBit (c ^^^ b.setWidth 32))))))))

/-- CRC-32 of bytes. -/
def crc32 (bs : List Byte) : Nat := ((bs.foldl crcByte 0xFFFFFFFF) ^^^ 0xFFFFFFFF).toNat

/-- Bytes a to a + n - 1 of an image. -/
def imageBytes (b : List Byte) (a n : Nat) : List Byte := (b.drop a).take n
/-- Their number. -/
def imageNum (b : List Byte) (a n : Nat) : Nat := ofBytes (imageBytes b a n)

/-- An image read from its header (R56): the header as a number, and its parts. -/
structure Image where
  head : Nat
  bytes : List Byte
  deriving Repr

/-- A header field. -/
def Image.f (m : Image) (hi lo : Nat) : Nat := fieldOf m.head hi lo
/-- IMGLEN. -/
def Image.len (m : Image) : Nat := m.f 223 192
/-- II. -/
def Image.ii (m : Image) : Nat := m.f 64 60 + 1
/-- Height in tiles. -/
def Image.h (m : Image) : Nat := m.f 76 75 + 1
/-- Width in tiles. -/
def Image.w (m : Image) : Nat := m.f 74 73 + 1
/-- Copies. -/
def Image.ncopy (m : Image) : Nat := m.f 81 77 + 1
/-- Offsets of the blocks. -/
def Image.copyOff (m : Image) : Nat := m.f 127 112 * 64
/-- Stream table. -/
def Image.streamOff (m : Image) : Nat := m.f 143 128 * 64
/-- Range entries. -/
def Image.rangeOff (m : Image) : Nat := m.f 159 144 * 64
/-- Context block. -/
def Image.ctxOff (m : Image) : Nat := m.f 175 160 * 64
/-- Tile records. -/
def Image.tileOff (m : Image) : Nat := m.f 191 176 * 64
/-- RFCLAIM. -/
def Image.rfclaim (m : Image) : Bool := m.f 83 83 == 1

/-- Copy-table entry. -/
def Image.copyWord (m : Image) (i : Nat) : Nat := imageNum m.bytes (m.copyOff + 8 * i) 8
/-- Stream-table entry. -/
def Image.streamWord (m : Image) (i : Nat) : Nat := imageNum m.bytes (m.streamOff + 16 * i) 16
/-- Range entry. -/
def Image.rangeWord (m : Image) (i : Nat) : Nat := imageNum m.bytes (m.rangeOff + 16 * i) 16
/-- Context word of an element row and slot. -/
def Image.ctxWord (m : Image) (row slot : Nat) : Nat := imageNum m.bytes (m.ctxOff + 256 * row + 8 * slot) 8
/-- First byte of a tile record. -/
def Image.tile (m : Image) (t : Nat) : Nat := m.tileOff + 3136 * t
/-- The schedule entry of an element. -/
def Image.entry (m : Image) (row col slot : Nat) : Nat :=
  imageNum m.bytes (m.tile (row / 4 * m.w + col / 4) + 192 * (row % 4 * 4 + col % 4) + 6 * slot) 6

/-- The header's lasting fields. -/
def Image.hdr (m : Image) : Hdr :=
  { ii := m.ii, rsLog := m.f 72 69, kmax := m.f 68 65, grace := m.f 100 89, rmask := m.f 88 85, vclamp := m.f 84 84 == 1
    rfclaim := m.rfclaim, reloc := m.f 82 82 == 1, h := m.h, w := m.w }

/-- A stream-table entry's fields. -/
def streamFrom (w : Nat) : Stream :=
  { va := BitVec.ofNat 64 (fieldOf w 127 64), count := fieldOf w 63 32, stride := BitVec.ofNat 16 (fieldOf w 31 16)
    fmt := BitVec.ofNat 4 (fieldOf w 15 12), store := bitOf w 11, east := bitOf w 10, lane := fieldOf w 9 6 }

/-- A range entry's fields. -/
def rangeFrom (w : Nat) : Range :=
  { va := fieldOf w 127 64, npg := fieldOf w 63 32, typ := fieldOf w 31 29, cls := fieldOf w 28 27, st := bitOf w 26 }

/-- The streams. -/
def Image.streams (m : Image) : List Stream := (List.range (m.f 105 101)).map fun i => streamFrom (m.streamWord i)
/-- The ranges. -/
def Image.ranges (m : Image) : List Range := (List.range (m.f 111 106)).map fun i => rangeFrom (m.rangeWord i)

/-! ### Entries under check -/

/-- A schedule entry with its place: row, column, slot, operation, form, and its latency. -/
structure Placed where
  r : Nat
  c : Nat
  t : Nat
  op : Nat
  e : Entry
  form : EntryForm
  lat : Nat
  deriving Repr

/-- The latency L of an operation with its format and AUX; 0 for one without a result. -/
def latency (op : Nat) (e : Entry) : Nat :=
  if op = 0x02 then e.aux.toNat + 1
  else if op < 0x08 then 1
  else if op < 0x0A then 2
  else if op < 0x0E then 4
  else if op < 0x16 then 2
  else if op < 0x20 then 1
  else if op < 0x23 then lat2 e 6 4
  else if op < 0x27 then lat2 e 10 8
  else if op < 0x29 then lat2 e 40 24
  else if op < 0x2B then 2
  else if op < 0x2E then 1
  else if op = 0x2E then 4
  else if op < 0x34 then 2
  else if op < 0x39 then 1
  else if op < 0x3B then 2
  else match op with
    | 0x3B => 1
    | 0x40 => 4
    | 0x41 => 8
    | 0x42 => 2
    | 0x43 => 12
    | 0x44 => 4
    | 0x45 => 1
    | 0x46 => 1
    | 0x48 => 12
    | 0x49 => 12
    | 0x4A => 14
    | 0x4B => 14
    | 0x4C => 10
    | 0x4D => 10
    | 0x4E => 20
    | 0x4F => 20
    | 0x50 => 16
    | 0x51 => 16
    | 0x52 => 16
    | 0x58 => 6
    | 0x59 => 6
    | 0x5A => 10
    | 0x5B => 8
    | 0x5C => 28
    | 0x5D => 24
    | 0x5E => 24
    | 0x5F => 24
    | 0x60 => 16
    | 0x61 => 2
    | 0x68 => 12
    | 0x6A => 12
    | 0x6C => 2
    | 0x6D => 2
    | 0x6E => 2
    | 0x6F => 2
    | 0x70 => 2
    | 0x72 => spldLat (entryLevel e)
    | 0x74 => 2
    | 0x75 => 6
    | _ => 0

/-- An element's entry, where it is legal (check 6) and no `NOP`. -/
def placed (w r c t : Nat) : Option Placed :=
  match decodeEntryWord w with
  | .error _ => none
  | .ok i =>
    match entryForm i with
    | none => none
    | some (form, e) => some ⟨r, c, t, w / 2 ^ 41, e, form, latency (w / 2 ^ 41) e⟩

/-- Every place of the region, by row, column and slot. -/
def Image.slots (m : Image) : List (Nat × Nat × Nat) :=
  (List.range (4 * m.h)).flatMap fun r => (List.range (4 * m.w)).flatMap fun c => (List.range 32).map fun t => (r, c, t)

/-- The entries that are no `NOP`. -/
def Image.entries (m : Image) : List Placed :=
  m.slots.filterMap fun p =>
    let w := m.entry p.1 p.2.1 p.2.2
    if w = 0 then none else placed w p.1 p.2.1 p.2.2

/-- Issue time of frame 0. -/
def Placed.iss (p : Placed) (ii : Nat) : Nat := p.e.stg.toNat * ii + p.t
/-- Landing of frame 0's result. -/
def Placed.land (p : Placed) (ii : Nat) : Nat := p.iss ii + p.lat
/-- Whether the entry's middle bits are a constant. -/
def Placed.const (p : Placed) : Bool := p.op == 5 || p.op == 6
/-- The source codes it reads. -/
def Placed.reads (p : Placed) : List Nat :=
  (if p.form.a then [p.e.sa.toNat] else []) ++ (if p.form.b then [p.e.sb.toNat] else [])
    ++ (if p.form.c then [p.e.sc.toNat] else [])
/-- Whether it writes a row-file entry. -/
def Placed.writes (p : Placed) : Bool := p.e.we && !p.const

/-! ### Checks 1 to 8 -/

/-- Check 1: marks, header CRC, and IMGLEN covers every block; the offset of an empty stream or range block lies within it too (log entry
118, DESIGN CHOICE). -/
def Image.check1 (m : Image) : Bool :=
  m.f 15 0 == 0x7C1A && m.f 23 16 == 1 && crc32 (m.bytes.take 28) == m.f 255 224 && decide (32 ≤ m.len)
    && decide (m.copyOff + 8 * m.ncopy ≤ m.len) && decide (m.streamOff + 16 * m.f 105 101 ≤ m.len)
    && decide (m.rangeOff + 16 * m.f 111 106 ≤ m.len) && (!m.rfclaim || decide (m.ctxOff + 1024 * m.h ≤ m.len))
    && decide (m.tileOff + 3136 * (m.h * m.w) ≤ m.len)

/-- Check 2: reserved fields. -/
def Image.check2 (m : Image) : Bool :=
  m.f 59 24 == 0
    && (List.range m.ncopy).all (fun i => fieldOf (m.copyWord i) 12 0 == 0)
    && (List.range (m.f 105 101)).all (fun i => fieldOf (m.streamWord i) 5 0 == 0)
    && (!m.rfclaim || (List.range (4 * m.h)).all fun r => (List.range 32).all fun t => fieldOf (m.ctxWord r t) 21 0 == 0)
    && (List.range (m.h * m.w)).all fun t => imageNum m.bytes (m.tile t + 3076) 60 == 0

/-- Check 3: RSLOG, NRANGE, NSTREAM, CORE. -/
def Image.check3 (m : Image) : Bool :=
  decide (4 ≤ m.f 72 69) && decide (m.f 72 69 ≤ 10) && decide (m.f 111 106 ≤ 32) && decide (m.f 105 101 ≤ 16)
    && (List.range m.ncopy).all fun i => fieldOf (m.copyWord i) 15 13 != 6

/-- Check 5: the tile records' CRCs. -/
def Image.check5 (m : Image) : Bool :=
  (List.range (m.h * m.w)).all fun t =>
    crc32 (imageBytes m.bytes (m.tile t) 3072) == imageNum m.bytes (m.tile t + 3072) 4

/-- Whether an operation names a stream in AUX. -/
def streamOp (op : Nat) : Bool := (decide (0x68 ≤ op) && decide (op ≤ 0x6F)) || (decide (0x78 ≤ op) && decide (op ≤ 0x7D))
/-- An address generator. -/
def genOp (op : Nat) : Bool := decide (0x6C ≤ op) && decide (op ≤ 0x6F)
/-- A stream load. -/
def loadOp (op : Nat) : Bool := op == 0x68 || op == 0x6A
/-- A stream store or reduction. -/
def storeOp (op : Nat) : Bool := op == 0x69 || op == 0x6B || (decide (0x78 ≤ op) && decide (op ≤ 0x7D))

/-- Check 6: every entry is legal, and names its stream's format (R158). -/
def Image.check6 (m : Image) (es : List Placed) : Bool :=
  m.slots.all (fun p =>
    let w := m.entry p.1 p.2.1 p.2.2
    w == 0 || (placed w p.1 p.2.1 p.2.2).isSome)
    && es.all fun p => !(streamOp p.op && !genOp p.op) ||
      match m.streams[p.e.aux.toNat]? with
      | some t => t.fmt == p.e.fmt
      | none => true

/-- Check 7: no entry at an index of II or more, no stage above KMAX. -/
def Image.check7 (m : Image) (es : List Placed) : Bool :=
  es.all fun p => decide (p.t < m.ii) && decide (p.e.stg.toNat ≤ m.f 68 65)

/-- The place of a neighbour. -/
def neighbourOf (r c code : Nat) : Option (Nat × Nat) :=
  match code with
  | 0 => some (r, c)
  | 1 => if r = 0 then none else some (r - 1, c)
  | 2 => some (r, c + 1)
  | 3 => some (r + 1, c)
  | _ => if c = 0 then none else some (r, c - 1)

/-- Check 8: neighbours inside the region. -/
def Image.check8 (m : Image) (es : List Placed) : Bool :=
  es.all fun p => p.reads.all fun s => decide (4 < s) ||
    match neighbourOf p.r p.c s with
    | some (r, c) => decide (r < 4 * m.h) && decide (c < 4 * m.w)
    | none => false

/-! ### Checks 9 to 11 -/

/-- Of entries whose results go to one place `extra` cycles after landing, the one whose result stands there at cycle
`cyc`, with its frame relative to frame 0; of two that land together the later issued (R46, R58, R294). -/
def latest (ii extra : Nat) (cyc : Nat) (qs : List Placed) : Option (Placed × Int) :=
  qs.foldl (fun best q =>
    let land : Int := q.land ii + extra
    let g : Int := ((cyc : Int) - land) / ii
    let key : Int × Int := (g * ii + land, g * ii + q.iss ii)
    match best with
    | none => some (q, g)
    | some (p, k) =>
      let old : Int × Int := (k * ii + p.land ii + extra, k * ii + p.iss ii)
      if old.1 < key.1 ∨ (old.1 = key.1 ∧ old.2 < key.2) then some (q, g) else best) none

/-- Entries whose results drive a bus: row bus `b` of a row, or column bus of a column. -/
def drivers (es : List Placed) (row : Bool) (n b : Nat) : List Placed :=
  es.filter fun q => q.form.result && (if row then q.r == n && bitOf q.e.dr.toNat b else q.c == n && bitOf q.e.dc.toNat b)

/-- The producers of a source: with the cycles they add, and whether they hold a value for one cycle only. -/
def Image.producers (m : Image) (es : List Placed) (p : Placed) (s : Nat) : List Placed × Nat × Bool :=
  if s < 5 then
    match neighbourOf p.r p.c s with
    | some (r, c) => (es.filter fun q => q.form.result && q.r == r && q.c == c, 0, false)
    | none => ([], 0, false)
  else if s < 7 then (drivers es true p.r (s - 5), 0, true)
  else if s < 9 then (drivers es false p.c (s - 7), 0, true)
  else
    let w := m.ctxWord p.r p.t
    let i := fieldOf w (38 + 8 * (s - 9)) (32 + 8 * (s - 9))
    (es.filter fun q => q.writes && q.r == p.r && q.e.wi.toNat == i, 1, false)

/-- The producing entry of a read, with its frame relative to the reader's. -/
def Image.producer (m : Image) (es : List Placed) (p : Placed) (s cyc : Nat) : Option (Placed × Int) :=
  let x := m.producers es p s
  latest m.ii x.2.1 cyc (if x.2.2 then x.1.filter fun q => (cyc + m.ii * q.land m.ii - q.land m.ii) % m.ii == 0 else x.1)

/-- The sources read that have a window. -/
def Placed.windowed (p : Placed) : List Nat :=
  (p.reads.filter fun s => decide (s < 13)) ++ (if p.e.pr = 1 ∨ p.e.pr = 2 ∨ p.op = 6 then [0] else [])

/-- Check 9: every read lies in the window of an entry of its own frame or an earlier one. A read of a bus that no entry drives is
check 10's, one of a bus driven in other slots only finds no distance (R294); a read through an inactive port is check 11's. -/
def Image.check9 (m : Image) (es : List Placed) : Bool :=
  es.all fun p => p.windowed.all fun s =>
    match m.producer es p s (p.iss m.ii) with
    | some (_, g) => decide (g ≤ 0)
    | none => decide (5 ≤ s) &&
      (if s < 9 then (m.producers es p s).1.isEmpty else !m.rfclaim || !bitOf (m.ctxWord p.r p.t) (39 + 8 * (s - 9)))

/-- No value twice. -/
def distinct (l : List Nat) : Bool := (nub l).length == l.length

/-- Check 10: one driver per bus segment and slot, a driver for every bus read; the accumulator port of a row is such a
segment (R169). -/
def Image.check10 (m : Image) (es : List Placed) : Bool :=
  let segs := (List.range 16).flatMap fun n => [drivers es true n 0, drivers es true n 1, drivers es false n 0, drivers es false n 1]
  segs.all (fun qs => distinct (qs.map fun q => q.land m.ii % m.ii))
    && distinct ((es.filter fun p => p.op == 0x75).map fun p => 32 * p.r + p.t)
    && es.all fun p => p.reads.all fun s => decide (s < 5) || decide (8 < s) || (m.producer es p s (p.iss m.ii)).isSome

/-- Entries that the active read ports of a context word name. -/
def ctxReads (w : Nat) : List Nat :=
  (List.range 4).filterMap fun n => if bitOf w (39 + 8 * n) then some (fieldOf w (38 + 8 * n) (32 + 8 * n)) else none

/-- Check 11: R48 and R50 hold. -/
def Image.check11 (m : Image) (es : List Placed) : Bool :=
  let rf (p : Placed) : List Nat := p.reads.filter fun s => decide (9 ≤ s) && decide (s < 13)
  if !m.rfclaim then es.all fun p => (rf p).isEmpty && !p.writes
  else
    es.all (fun p =>
      (rf p).all (fun s => bitOf (m.ctxWord p.r p.t) (39 + 8 * (s - 9)))
      && (!p.writes ||
        let w := m.ctxWord p.r (p.land m.ii % m.ii)
        (bitOf w 31 && fieldOf w 30 27 == p.c) || (bitOf w 26 && fieldOf w 25 22 == p.c)))
    && (List.range (4 * m.h)).all fun r => (List.range m.ii).all fun t =>
      let rs := nub (ctxReads (m.ctxWord r t))
      let ws := (es.filter fun p => p.writes && p.r == r && p.land m.ii % m.ii == t).map fun p => p.e.wi.toNat
      distinct (rs.map fun i => i % 8) && distinct (ws.map fun i => i % 8)

/-! ### Checks 12 to 16 -/

/-- The lane, region-relative, that an entry stores through. -/
def Image.storeLane (m : Image) (p : Placed) : Option Nat :=
  if p.op = 0x73 then some p.c
  else if storeOp p.op then
    (m.streams[p.e.aux.toNat]?).map fun t => if t.east then 16 + t.lane else t.lane
  else none

/-- Check 12: the streams and their use. -/
def Image.check12 (m : Image) (es : List Placed) : Bool :=
  m.streams.all (fun t => t.fmt != 15 && t.va.toNat % t.size == 0 && t.step % (t.size : Int) == 0)
    && es.all (fun p => !streamOp p.op ||
      match m.streams[p.e.aux.toNat]? with
      | none => false
      | some t => t.lane == (if t.east then p.r else p.c) && (!loadOp p.op || !t.store) && (!storeOp p.op || t.store))
    && distinct ((es.filter fun p => genOp p.op).map fun p => 32 * p.e.aux.toNat + p.t)
    && (List.range 32).all fun l =>
      decide (2 ^ m.f 72 69 * (es.filter fun p => m.storeLane p == some l).length ≤ 1024)

/-- The `QFIFO` or `QMAX` whose result reaches a source, back through `MOV` and `DLY` (R183); a path longer than the configuration has
entries goes round and reaches none. -/
def Image.trace (m : Image) (es : List Placed) (want : Nat) : Nat → Placed → Nat → Nat → Option Placed
  | 0, _, _, _ => none
  | fuel + 1, p, s, cyc =>
    if 13 ≤ s then none
    else
      match m.producer es p s cyc with
      | none => none
      | some (q, g) =>
        if q.op = want then some q
        else if q.op = 1 ∨ q.op = 2 then
          let at' : Int := g * m.ii + q.iss m.ii + 64 * m.ii * (q.iss m.ii + 64)
          m.trace es want fuel q q.e.sa.toNat at'.toNat
        else none

/-- First word after a FIFO. -/
def fifoEnd (p : Placed) : Nat := 128 * (p.e.aux.toNat / 4) + groupSize p.e

/-- Check 13 (R183). -/
def Image.check13 (m : Image) (es : List Placed) : Bool :=
  es.all (fun p => p.op != 0x42 ||
    (decide (fifoEnd p ≤ 512) && (decide (fifoEnd p ≤ 511) || !es.any fun q => q.op == 0x41 && q.r == p.r && q.c == p.c)))
  && es.all fun p => p.op != 0x43 ||
    match m.trace es 0x42 (es.length + 1) p p.e.sa.toNat (p.iss m.ii), m.trace es 0x41 (es.length + 1) p p.e.sb.toNat (p.iss m.ii) with
    | some f, some q => decide (groupSize q.e ≤ groupSize f.e)
    | _, _ => true

/-- Check 14: lane-slice writes of an element in a wave. -/
def Image.check14 (m : Image) (es : List Placed) : Bool :=
  let ws := es.filter fun p => p.op == 0x71 || p.op == 0x41 || p.op == 0x42
  ws.all fun p => decide (2 ^ m.f 72 69 * (ws.filter fun q => q.r == p.r && q.c == p.c).length ≤ 256)

/-- Check 15: range entries (R347). -/
def Image.check15 (m : Image) : Bool :=
  let rs := m.ranges
  (List.range (m.f 111 106)).all (fun i => fieldOf (m.rangeWord i) 25 0 == 0)
    && rs.all (fun r => decide (r.typ ≤ 4) && decide (r.cls ≤ 2) && r.npg != 0 && r.va % 65536 == 0
      && decide (r.va + r.npg * 65536 ≤ 2 ^ 48))
    && (List.range rs.length).all fun i => (List.range i).all fun j =>
      let a := rs.getD i {}
      let b := rs.getD j {}
      decide (a.va + a.npg * 65536 ≤ b.va) || decide (b.va + b.npg * 65536 ≤ a.va)

/-- The lowest-numbered failing check beside placement (R58); 0 with none. `place` is check 4, `claim` R48 against the
regions already loaded. -/
def Image.failing (m : Image) (place claim : Unit → Bool) : Nat :=
  if !m.check1 then 1 else if !m.check2 then 2 else if !m.check3 then 3
  else if !place () then 4
  else if !m.check5 then 5
  else
    let es := m.entries
    if !m.check6 es then 6 else if !m.check7 es then 7 else if !m.check8 es then 8 else if !m.check9 es then 9
    else if !m.check10 es then 10 else if !(m.check11 es && claim ()) then 11 else if !m.check12 es then 12
    else if !m.check13 es then 13 else if !m.check14 es then 14 else if !m.check15 then 15
    else if m.f 85 85 != 1 then 16 else 0

end Sys2Proof.Machine
end

