-- ==== Sys2Proof/Machine/Loader.lean ====
section
/-!
DEFINITION. Loading, freeing and running stamps (R26, R27, R57, R59, R211 to R216).
-/

namespace Sys2Proof.Machine

/-- The configuration-check fault. -/
def configTrap (code : Nat) : Trap := { code := 17, detail := code }
/-- The region-busy trap (R216). -/
def busyTrap (reason : Nat) : Trap := { code := 18, detail := reason }

/-! ### Placement -/

/-- Tiles of core `c` that regions cover, and the fused tile. -/
def State.tilesTaken (s : State) (c : Nat) : List Nat :=
  let of (st : Stamp) : List Nat := (st.copies.filter fun k => k.core == c && s.occupies st k).flatMap fun k =>
    (List.range st.hdr.h).flatMap fun y => (List.range st.hdr.w).map fun x => 4 * (k.oty + y) + k.otx + x
  (match (s.getCore c).fused with | some t => [t.toNat] | none => []) ++ s.stamps.flatMap fun kv => of kv.2

/-- Handles of core `c` that are free. -/
def State.freeHandles (s : State) (c : Nat) : List Nat :=
  (List.range 16).filter fun h => (Store.get none (s.getCore c).handles h).isNone

/-- A copy as placed: its core, handle and origin. -/
structure Spot where
  core : Nat
  handle : Nat
  oty : Nat
  otx : Nat
  deriving DecidableEq, Repr

/-- Tiles of a spot. -/
def Image.tilesAt (m : Image) (y x : Nat) : List Nat :=
  (List.range m.h).flatMap fun i => (List.range m.w).map fun j => 4 * (y + i) + x + j

/-- The origin for a copy on a core: the requested one, else with RELOC the first that fits (R57). -/
def Image.origin (m : Image) (taken : List Nat) (y x : Nat) : Option (Nat × Nat) :=
  let tries := (y, x) :: (if m.f 82 82 = 1 then (List.range 16).map fun o => (o / 4, o % 4) else [])
  tries.find? fun o =>
    decide (o.1 + m.h ≤ 4) && decide (o.2 + m.w ≤ 4) && (m.tilesAt o.1 o.2).all fun t => !taken.contains t

/-- Places the copies from the i-th on, in order (R26, R57); `done` are those placed. -/
def Image.place (m : Image) (s : State) (rg : Nat) : List Nat → List Spot → Option (List Spot)
  | [], spots => some spots
  | i :: rest, spots =>
    let w := m.copyWord i
    let k := fieldOf w 15 13
    let c := if k = 7 then s.core else coreAt s.cluster k
    let b := (s.getCore c).bind
    let mine := match b with
      | some b => b.task == s.me.task && b.pkg == s.me.pkg
      | none => false
    let used := (spots.filter fun p => p.core == c).map Spot.handle
    let free := (s.freeHandles c).filter fun h => !used.contains h
    let h := if c = s.core then
        (let n := rg + used.length
         if free.contains n then some n else none)
      else free.head?
    let tiles := s.tilesTaken c ++ (spots.filter fun p => p.core == c).flatMap fun p => m.tilesAt p.oty p.otx
    if !mine then none
    else
      match h, m.origin tiles (fieldOf w 19 18) (fieldOf w 17 16) with
      | some h, some o => m.place s rg rest (spots ++ [⟨c, h, o.1, o.2⟩])
      | _, _ => none

/-- The element rows a region claims on a core (R48). -/
def rowsOf (h oty : Nat) : List Nat := (List.range (4 * h)).map fun i => 4 * oty + i

/-- No claimed row is claimed twice on a core. -/
def Image.claimsOk (m : Image) (s : State) (spots : List Spot) : Bool :=
  !m.rfclaim ||
    (let old := s.stamps.flatMap fun kv => if kv.2.hdr.rfclaim then (kv.2.copies.filter (s.occupies kv.2)).flatMap fun c =>
        (rowsOf kv.2.hdr.h c.oty).map fun r => 16 * c.core + r else []
     let new := spots.flatMap fun p => (rowsOf m.h p.oty).map fun r => 16 * p.core + r
     distinct new && new.all fun r => !old.contains r)

/-! ### Loading -/

/-- The parts of `n` bytes at virtual address `a`, one for each page of a translation: address, leaf, physical address, length. -/
def pageParts (a n : Nat) : List (Word × Nat) → List (Word × Word × Nat × Nat)
  | [] => []
  | (leaf, pa) :: rest =>
    let m := min n (65536 - a % 65536)
    (BitVec.ofNat 64 a, leaf, pa + a % 65536, m) :: pageParts (a + m) (n - m) rest

/-- What the read of an image's parts waits for. -/
def State.partsWait (s : State) (ps : List (Word × Word × Nat × Nat)) : Option Result :=
  ps.findSome? fun p => s.readWaits p.1 p.2.1 p.2.2.1 p.2.2.2

/-- The bytes of an image's parts, each read once, as a load reads it (R77, R211). -/
def State.readImage (s : State) (ps : List (Word × Word × Nat × Nat)) : Except Result (List Byte × State) :=
  ps.foldl (fun x p =>
    match x with
    | .error r => .error r
    | .ok (bs, s) =>
      match s.readNow p.1 p.2.1 p.2.2.1 p.2.2.2 with
      | .error r => .error r
      | .ok (more, s) => .ok (bs ++ more, s)) (.ok ([], s))

/-- The stamp's context words, as a store. -/
def Image.ctxStore (m : Image) : Store Nat :=
  if m.rfclaim then
    (List.range (4 * m.h)).foldl (fun st r => (List.range 32).foldl (fun st t =>
      Store.set 0 st (32 * r + t) (m.ctxWord r t)) st) []
  else []

/-- The schedule tables, as a store. -/
def Image.entryStore (m : Image) : Store Nat :=
  (m.slots.filterMap fun p =>
    let w := m.entry p.1 p.2.1 p.2.2
    if w = 0 then none else some (32 * (4 * m.w * p.1 + p.2.1) + p.2.2, w))

/-- Loads an image that has passed its checks (R59, R211): the handles are taken, and everything of the regions is zero. -/
def State.loadStamp (s : State) (m : Image) (rg : Nat) (spots : List Spot) : State :=
  let id := s.nextStamp
  let copies := (List.range m.ncopy).map fun i =>
    let w := m.copyWord i
    let p := spots.getD i ⟨0, 0, 0, 0⟩
    ({ core := p.core, handle := p.handle, oty := p.oty, otx := p.otx, itoff := fieldOf w 63 32, stoff := fieldOf w 31 20 } : Copy)
  let st : Stamp :=
    { core := s.core, handle := rg, task := s.me.task, memb := s.me.memb, hdr := m.hdr, streams := m.streams
      ranges := m.ranges, ctx := m.ctxStore, entries := m.entryStore, copies := copies }
  let s := { s with stamps := Store.set {} s.stamps id st, nextStamp := id + 1 }
  let take (s : State) (c h : Nat) (r : HandleRef) : State :=
    s.modCore c fun k => { k with handles := Store.set none k.handles h (some r) }
  let s := take s s.core rg { stamp := id }
  ((List.range m.ncopy).zip spots).foldl (fun s x => take s x.2.core x.2.handle { stamp := id, copy := some x.1 }) s

/-- `CFG.LOAD` once its header is read: the checks, then the load or the fault with the lowest failing check's code (R58, R59). -/
def loadImage (rg : Nat) (m : Image) (s : State) : State :=
  let spots := m.place s rg (List.range m.ncopy) []
  let code := m.failing (fun _ => (s.freeHandles s.core).contains rg && spots.isSome) fun _ => m.claimsOk s (spots.getD [])
  if code = 0 then ((s.loadStamp m rg (spots.getD [])).setWait .none).advance 4 else s.trap (configTrap code)

/-- `CFG.LOAD` (R211): the image is read through the sequencer's translation, each byte once as a load reads it, its header first
(R77, R78, R81, R390); the lowest-numbered failing check rejects it (R58). -/
def execCfgLoad (rg : BitVec 4) (a : Reg) (s : State) : Result :=
  let va := (s.g a).val.toNat
  match s.needClean (s.g a).psn with
  | .error t => .next (s.trap t)
  | .ok _ =>
    if va % 64 ≠ 0 then .next (s.trap (alignTrap (s.g a).val))
    else
      match translatePages s [(va / 65536, true)] with
      | .error r => r
      | .ok (p0, s) =>
        let hp := pageParts va 32 p0
        match s.partsWait hp with
        | some r => r
        | none =>
          match s.readImage hp with
          | .error r => r
          | .ok (hb, s0) =>
            let head : Image := ⟨ofBytes hb, hb⟩
            if !head.check1 then .next (s0.trap (configTrap 1))
            else
              match translatePages s ((pagesOf (va + 32) (head.len - 32)).map fun p => (p, true)) with
              | .error r => r
              | .ok (pages, s1) =>
                let ps := pageParts (va + 32) (head.len - 32) pages
                match s1.partsWait ps with
                | some r => r
                | none =>
                  match s1.readImage (hp ++ ps) with
                  | .error r => r
                  | .ok (bs, s2) => .next (loadImage rg.toNat { head with bytes := bs } s2)

/-! ### Operations on handles -/

/-- Which operations a reason of R216 stops: `idle`, `loaded` and `sound` are reasons 1, 4 and 5. -/
structure HandleNeeds where
  idle : Bool
  loaded : Bool
  sound : Bool
  deriving DecidableEq, Repr

/-- The stamp of a handle, after the checks of R216 in their order; none where the handle is empty and that is allowed. -/
def State.stampAt (s : State) (rg : BitVec 4) (n : HandleNeeds) : Except Trap (Option Nat) :=
  match Store.get none s.cur.handles rg.toNat with
  | none => if n.loaded then .error (busyTrap 4) else .ok none
  | some h =>
    let st := s.getStamp h.stamp
    if st.core ≠ s.core then .error (busyTrap 2)
    else if st.handle ≠ rg.toNat then .error (busyTrap 3)
    else
      match st.state with
      | .faulted _ => if n.sound then .error (busyTrap 5) else .ok (some h.stamp)
      | .running => if n.idle then .error (busyTrap 1) else .ok (some h.stamp)
      | .idle => .ok (some h.stamp)

/-- `CFG.FREE` (R213). -/
def execCfgFree (rg : BitVec 4) (s : State) : Result :=
  match s.stampAt rg ⟨true, false, false⟩ with
  | .error t => .next (s.trap t)
  | .ok none => .next (s.advance 4)
  | .ok (some i) => .next ((s.freeStamp i).advance 4)

/-- `PHASE` (R212, R27): every copy starts on its offset after the eighth member cycle from now. A trip count of 0 leaves
nothing to run. After a PREEMPT record has acted, `PHASE` is held before it issues (R339).
With a trip count too large and a handle that R216 stops, the operand-range fault comes first (log entry 111, DESIGN CHOICE). -/
def execPhase (rg : BitVec 4) (a : Reg) (s : State) : Result :=
  if s.cur.preempt then .next s else
  match s.needClean (s.g a).psn with
  | .error t => .next (s.trap t)
  | .ok _ =>
    if (s.g a).val.fld 63 32 ≠ 0 then .next (s.trap rangeTrap)
    else
      match s.stampAt rg ⟨true, true, true⟩ with
      | .error t => .next (s.trap t)
      | .ok none => .next (s.trap (busyTrap 4))
      | .ok (some i) =>
        let trip := (s.g a).val.fld 31 0
        let start := s.q.mcc.toNat + 8
        let s := s.modStamp i fun st => { st with
          state := .running, trip := trip, start := start, seed := fpSeed s.q.fpctl
          copies := st.copies.map fun c => { c with
            phItoff := c.itoff, phPlim := c.plim, phRho := c.rho
            reg := { c.reg with slot := 0, wave := 0, gens := [], inflight := [] }
            captures := [], committed := 0, committing := none, outstanding := 0, buffers := [], buses := []
            rowWrites := [], stall := none, page := none, conflicts := [], loadStall := false, landed := none, replies := []
            fstop := false, counts := {}, redFault := none, voidsAt := [], done := trip == 0 } }
        .next ((s.trace s.core 1 rg.toNat 0 (BitVec.ofNat 64 trip) (BitVec.ofNat 64 start) 0 0).advance 4)

/-- `PWAIT` (R213): it completes when no phase of the stamp runs. A stamp that faults while it waits ends the wait. -/
def execPwait (rg : BitVec 4) (s : State) : Result :=
  let waiting := match s.q.wait with
    | .phase _ => true
    | _ => false
  match s.stampAt rg ⟨false, true, !waiting⟩ with
  | .error t => .next (s.trap t)
  | .ok none => .next (s.trap (busyTrap 4))
  | .ok (some i) =>
    if (s.getStamp i).phaseOn then .next ((s.modCur fun k => { k with mstate := .waiting }).setWait (.phase i))
    else .next ((((s.modCur fun k => { k with mstate := .running }).noEarly s.core).setWait .none).advance 4)

/-- The word of `CFG.INFO` (R214). -/
def infoWord (st : Stamp) (c : Copy) : Word :=
  let state := match st.state with
    | .idle => 1
    | .running => 2
    | .faulted _ => 3
  let code := match st.state with
    | .faulted n => n % 256
    | _ => 0
  BitVec.ofNat 64 (code * 2 ^ 40 + state * 2 ^ 30 + (st.copies.length - 1) * 2 ^ 25 + c.handle * 2 ^ 21
    + withinOf c.core * 2 ^ 18 + c.oty * 2 ^ 14 + c.otx * 2 ^ 12)

/-- `CFG.INFO` (R214). -/
def execCfgInfo (d a : Reg) (rg : BitVec 4) (s : State) : Result :=
  match s.needClean (s.g a).psn with
  | .error t => .next (s.trap t)
  | .ok _ =>
    match s.stampAt rg ⟨false, false, false⟩ with
    | .error t => .next (s.trap t)
    | .ok none => .next (s.result d 0 (s.g a).psn)
    | .ok (some i) =>
      let st := s.getStamp i
      if st.copies.length ≤ (s.g a).val.toNat then .next (s.trap rangeTrap)
      else .next (s.result d (infoWord st (st.copy (s.g a).val.toNat)) (s.g a).psn)

/-- A write to a register of a copy (R215); it takes effect for the next phase. -/
def copyWrite (rg : BitVec 4) (a b : Reg) (s : State) (f : BitVec 32 → Copy → Copy) : Result :=
  match s.needClean (s.g a).psn with
  | .error t => .next (s.trap t)
  | .ok _ =>
    match s.stampAt rg ⟨true, true, true⟩ with
    | .error t => .next (s.trap t)
    | .ok none => .next (s.trap (busyTrap 4))
    | .ok (some i) =>
      let j := (s.g a).val.toNat
      if (s.getStamp i).copies.length ≤ j then .next (s.trap rangeTrap)
      else .next ((s.modCopy i j (f ((s.g b).val.setWidth 32))).advance 4)

/-- `CFG.ITOFF` (R215). -/
def execCfgItoff (rg : BitVec 4) (a b : Reg) (s : State) : Result := copyWrite rg a b s fun v c => { c with itoff := v.toNat }
/-- `CFG.PLIM` (R215). -/
def execCfgPlim (rg : BitVec 4) (a b : Reg) (s : State) : Result := copyWrite rg a b s fun v c => { c with plim := v.toNat }

/-- The clamping of MCORR.RHO (R102). -/
def clampRho (v : BitVec 32) : BitVec 32 :=
  let x := Fp.v32 v.toNat
  if x.isNan then 0
  else if Fp.ltV (.num false 1 0) x then 0x3F800000
  else if Fp.ltV x (.num true 1 0) then 0xBF800000
  else v

/-- `CFG.RHO` (R215, R102). -/
def execCfgRho (rg : BitVec 4) (a b : Reg) (s : State) : Result := copyWrite rg a b s fun v c => { c with rho := clampRho v }

end Sys2Proof.Machine
end

