-- ==== Sys2Proof/Machine/SeqFloat.lean ====
section
/-!
DEFINITION. The sequencer's float group (R137, R199): one rounding, IEEE flags into FPCTL, no trap on a value.
-/

namespace Sys2Proof.Machine

/-- The format of fn[6:5]. -/
def fmtOf : FpFmt → Fp.Fmt
  | .f64 => Fp.f64
  | .f32 => Fp.f32
  | .bf16 => Fp.bf16
  | .f16 => Fp.f16

/-- The rounding mode: FPCTL.RM with DYN, else RM (R137, R199); code 5 rounds as RNE outside an element conversion, and
no FPCTL holds 6 or 7 (R86, R87). -/
def modeOf (s : State) (r : FpRound) : Nat :=
  let m := if r.dyn then fpRm s.q.fpctl else r.rm.toNat
  if m < 5 then m else 0

/-- Writes a float result, placed as R82 gives, with the flags it raised. -/
def State.floatResult (s : State) (d : Reg) (r : Fp.Res) (psn : Bool) : State :=
  (s.modQ fun q => { q with fpctl := addFlags q.fpctl r.flags }).result d (BitVec.ofNat 64 r.bits) psn

/-- The value of a register in a format: the bits it uses, the others ignored (R193). -/
def State.fval (s : State) (f : FpFmt) (r : Reg) : Fp.Val := Fp.decode (fmtOf f) (s.g r).val.toNat

/-- An operation of two registers that rounds. -/
def float2 (f : FpFmt) (r : FpRound) (d a b : Reg) (s : State) (op : Fp.Fmt → Nat → Fp.Val → Fp.Val → Fp.Res) : Result :=
  .next (s.floatResult d (op (fmtOf f) (modeOf s r) (s.fval f a) (s.fval f b)) ((s.g a).psn || (s.g b).psn))

/-- R199: `FADD`. -/
def execFadd (f : FpFmt) (r : FpRound) (d a b : Reg) (s : State) : Result := float2 f r d a b s Fp.addV
/-- R199: `FSUB`. -/
def execFsub (f : FpFmt) (r : FpRound) (d a b : Reg) (s : State) : Result :=
  float2 f r d a b s fun g m x y => Fp.addV g m x y.neg
/-- R199: `FMUL`. -/
def execFmul (f : FpFmt) (r : FpRound) (d a b : Reg) (s : State) : Result := float2 f r d a b s Fp.mulV
/-- R199: `FDIV`. -/
def execFdiv (f : FpFmt) (r : FpRound) (d a b : Reg) (s : State) : Result := float2 f r d a b s Fp.divV
/-- R199: `FSQRT`. -/
def execFsqrt (f : FpFmt) (r : FpRound) (d a : Reg) (s : State) : Result :=
  .next (s.floatResult d (Fp.sqrtV (fmtOf f) (modeOf s r) (s.fval f a)) (s.g a).psn)
/-- R199: `FMA`, gd := ga × gb + gd with one rounding. -/
def execFma (f : FpFmt) (r : FpRound) (d a b : Reg) (s : State) : Result :=
  .next (s.floatResult d (Fp.fmaV (fmtOf f) (modeOf s r) (s.fval f a) (s.fval f b) (s.fval f d))
    ((s.g a).psn || (s.g b).psn || (s.g d).psn))

/-- FMIN and FMAX: NV only for a signalling NaN (R199). -/
def floatMinMax (max : Bool) (f : FpFmt) (d a b : Reg) (s : State) : Result :=
  .next (s.floatResult d (Fp.minMax (fmtOf f) max (s.g a).val.toNat (s.g b).val.toNat) ((s.g a).psn || (s.g b).psn))
/-- R199: `FMIN`. -/
def execFmin (f : FpFmt) (d a b : Reg) (s : State) : Result := floatMinMax false f d a b s
/-- R199: `FMAX`. -/
def execFmax (f : FpFmt) (d a b : Reg) (s : State) : Result := floatMinMax true f d a b s

/-- A comparison: gd := 0 or 1; NV for a signalling NaN, and with `anyNan` for a quiet one too (R199). -/
def floatCompare (f : FpFmt) (d a b : Reg) (s : State) (anyNan : Bool) (cond : Fp.Val → Fp.Val → Bool) : Result :=
  let x := s.fval f a
  let y := s.fval f b
  let nv := if anyNan then x.isNan || y.isNan else x.snan || y.snan
  .next (s.floatResult d ⟨bit01 (cond x y), { nv := nv }⟩ ((s.g a).psn || (s.g b).psn))
/-- R199: `FEQ`. -/
def execFeq (f : FpFmt) (d a b : Reg) (s : State) : Result := floatCompare f d a b s false Fp.eqV
/-- R199: `FLT`. -/
def execFlt (f : FpFmt) (d a b : Reg) (s : State) : Result := floatCompare f d a b s true Fp.ltV
/-- R199: `FLE`. -/
def execFle (f : FpFmt) (d a b : Reg) (s : State) : Result :=
  floatCompare f d a b s true fun x y => Fp.ltV x y || Fp.eqV x y

/-- R199, R176: `FCLASS`, the class mask as an integer. -/
def execFclass (f : FpFmt) (d a : Reg) (s : State) : Result :=
  .next (s.result d (BitVec.ofNat 64 (Fp.classMask (fmtOf f) (s.g a).val.toNat)) (s.g a).psn)

/-- R199, R90: `FTOI`, to I64. -/
def execFtoi (f : FpFmt) (r : FpRound) (d a : Reg) (s : State) : Result :=
  let i := Fp.toInt 64 (modeOf s r) (s.fval f a)
  .next ((s.modQ fun q => { q with fpctl := addFlags q.fpctl i.2 }).result d (wrap64 i.1) (s.g a).psn)
/-- R199: `ITOF`, from I64. -/
def execItof (f : FpFmt) (r : FpRound) (d a : Reg) (s : State) : Result :=
  .next (s.floatResult d (Fp.ofInt (fmtOf f) (modeOf s r) (s.g a).val.toInt) (s.g a).psn)
/-- R199, R89: `FCVT` from format `src`. -/
def execFcvt (f : FpFmt) (r : FpRound) (d a : Reg) (src : FpFmt) (s : State) : Result :=
  .next (s.floatResult d (Fp.convert (fmtOf f) (modeOf s r) 0 false (s.fval src a)) (s.g a).psn)

/-- R199: `FNEG` changes only the sign; no flag. -/
def execFneg (f : FpFmt) (d a : Reg) (s : State) : Result :=
  let b := (s.g a).val.toNat
  .next (s.result d (BitVec.ofNat 64 (Fp.setSign (fmtOf f) b (!(Fp.decode (fmtOf f) b).sign))) (s.g a).psn)
/-- R199: `FABS` clears the sign; no flag. -/
def execFabs (f : FpFmt) (d a : Reg) (s : State) : Result :=
  .next (s.result d (BitVec.ofNat 64 (Fp.setSign (fmtOf f) (s.g a).val.toNat false)) (s.g a).psn)

end Sys2Proof.Machine
end

