-- ==== Sys2Proof/Machine/Dispatch.lean ====
section
/-!
DEFINITION. The meaning of each instruction: one arm a constructor, one call an arm.
-/

namespace Sys2Proof.Machine

/-- Executes an instruction: a sequencer instruction of core `s.core`, an element entry at `s.issue`, or a step or event of
the device. -/
def exec (i : Instr) (s : State) : Host.Outcome State Fault Refusal :=
  match i with
  | .add d a b => Sys2Proof.Machine.execAdd d a b s
  | .sub d a b => Sys2Proof.Machine.execSub d a b s
  | .mul d a b => Sys2Proof.Machine.execMul d a b s
  | .mulh d a b => Sys2Proof.Machine.execMulh d a b s
  | .mulhu d a b => Sys2Proof.Machine.execMulhu d a b s
  | .div d a b => Sys2Proof.Machine.execDiv d a b s
  | .divu d a b => Sys2Proof.Machine.execDivu d a b s
  | .rem d a b => Sys2Proof.Machine.execRem d a b s
  | .remu d a b => Sys2Proof.Machine.execRemu d a b s
  | .and d a b => Sys2Proof.Machine.execAnd d a b s
  | .or d a b => Sys2Proof.Machine.execOr d a b s
  | .xor d a b => Sys2Proof.Machine.execXor d a b s
  | .andn d a b => Sys2Proof.Machine.execAndn d a b s
  | .sll d a b => Sys2Proof.Machine.execSll d a b s
  | .srl d a b => Sys2Proof.Machine.execSrl d a b s
  | .sra d a b => Sys2Proof.Machine.execSra d a b s
  | .rot d a b => Sys2Proof.Machine.execRot d a b s
  | .slt d a b => Sys2Proof.Machine.execSlt d a b s
  | .sltu d a b => Sys2Proof.Machine.execSltu d a b s
  | .min d a b => Sys2Proof.Machine.execMin d a b s
  | .max d a b => Sys2Proof.Machine.execMax d a b s
  | .minu d a b => Sys2Proof.Machine.execMinu d a b s
  | .maxu d a b => Sys2Proof.Machine.execMaxu d a b s
  | .clz d a => Sys2Proof.Machine.execClz d a s
  | .popc d a => Sys2Proof.Machine.execPopc d a s
  | .fadd f r d a b => Sys2Proof.Machine.execFadd f r d a b s
  | .fsub f r d a b => Sys2Proof.Machine.execFsub f r d a b s
  | .fmul f r d a b => Sys2Proof.Machine.execFmul f r d a b s
  | .fdiv f r d a b => Sys2Proof.Machine.execFdiv f r d a b s
  | .fsqrt f r d a => Sys2Proof.Machine.execFsqrt f r d a s
  | .fma f r d a b => Sys2Proof.Machine.execFma f r d a b s
  | .fmin f d a b => Sys2Proof.Machine.execFmin f d a b s
  | .fmax f d a b => Sys2Proof.Machine.execFmax f d a b s
  | .feq f d a b => Sys2Proof.Machine.execFeq f d a b s
  | .flt f d a b => Sys2Proof.Machine.execFlt f d a b s
  | .fle f d a b => Sys2Proof.Machine.execFle f d a b s
  | .fclass f d a => Sys2Proof.Machine.execFclass f d a s
  | .ftoi f r d a => Sys2Proof.Machine.execFtoi f r d a s
  | .itof f r d a => Sys2Proof.Machine.execItof f r d a s
  | .fcvt f r d a src => Sys2Proof.Machine.execFcvt f r d a src s
  | .fneg f d a => Sys2Proof.Machine.execFneg f d a s
  | .fabs f d a => Sys2Proof.Machine.execFabs f d a s
  | .exit => Sys2Proof.Machine.execExit s
  | .trap code => Sys2Proof.Machine.execTrap code s
  | .brk => Sys2Proof.Machine.execBrk s
  | .fence sc d => Sys2Proof.Machine.execFence sc d s
  | .ejoin => Sys2Proof.Machine.execEjoin s
  | .tret => Sys2Proof.Machine.execTret s
  | .bar a => Sys2Proof.Machine.execBar a s
  | .barInit sc a b => Sys2Proof.Machine.execBarInit sc a b s
  | .trig => Sys2Proof.Machine.execTrig s
  | .trigJ => Sys2Proof.Machine.execTrigJ s
  | .launch d a => Sys2Proof.Machine.execLaunch d a s
  | .cfgLoad rg a => Sys2Proof.Machine.execCfgLoad rg a s
  | .cfgFree rg => Sys2Proof.Machine.execCfgFree rg s
  | .phase rg a => Sys2Proof.Machine.execPhase rg a s
  | .pwait rg => Sys2Proof.Machine.execPwait rg s
  | .cfgInfo d a rg => Sys2Proof.Machine.execCfgInfo d a rg s
  | .cfgItoff rg a b => Sys2Proof.Machine.execCfgItoff rg a b s
  | .cfgPlim rg a b => Sys2Proof.Machine.execCfgPlim rg a b s
  | .cfgRho rg a b => Sys2Proof.Machine.execCfgRho rg a b s
  | .ddecl a => Sys2Proof.Machine.execDdecl a s
  | .dfree a => Sys2Proof.Machine.execDfree a s
  | .lineReset a => Sys2Proof.Machine.execLineReset a s
  | .amoAdd o sc word d a b => Sys2Proof.Machine.execAmoAdd o sc word d a b s
  | .amoAnd o sc word d a b => Sys2Proof.Machine.execAmoAnd o sc word d a b s
  | .amoOr o sc word d a b => Sys2Proof.Machine.execAmoOr o sc word d a b s
  | .amoXor o sc word d a b => Sys2Proof.Machine.execAmoXor o sc word d a b s
  | .amoMin o sc word d a b => Sys2Proof.Machine.execAmoMin o sc word d a b s
  | .amoMax o sc word d a b => Sys2Proof.Machine.execAmoMax o sc word d a b s
  | .amoMinu o sc word d a b => Sys2Proof.Machine.execAmoMinu o sc word d a b s
  | .amoMaxu o sc word d a b => Sys2Proof.Machine.execAmoMaxu o sc word d a b s
  | .amoSwap o sc word d a b => Sys2Proof.Machine.execAmoSwap o sc word d a b s
  | .amoCas o sc word d a b => Sys2Proof.Machine.execAmoCas o sc word d a b s
  | .amoFadd o sc word d a b => Sys2Proof.Machine.execAmoFadd o sc word d a b s
  | .ldAcq sc z d a => Sys2Proof.Machine.execLdAcq sc z d a s
  | .stRel sc z a b => Sys2Proof.Machine.execStRel sc z a b s
  | .jalr d a imm => Sys2Proof.Machine.execJalr d a imm s
  | .addi d a imm => Sys2Proof.Machine.execAddi d a imm s
  | .andi d a imm => Sys2Proof.Machine.execAndi d a imm s
  | .ori d a imm => Sys2Proof.Machine.execOri d a imm s
  | .xori d a imm => Sys2Proof.Machine.execXori d a imm s
  | .slti d a imm => Sys2Proof.Machine.execSlti d a imm s
  | .sltiu d a imm => Sys2Proof.Machine.execSltiu d a imm s
  | .slli d a n => Sys2Proof.Machine.execSlli d a n s
  | .srli d a n => Sys2Proof.Machine.execSrli d a n s
  | .srai d a n => Sys2Proof.Machine.execSrai d a n s
  | .roti d a n => Sys2Proof.Machine.execRoti d a n s
  | .lui d imm => Sys2Proof.Machine.execLui d imm s
  | .ldB d a imm => Sys2Proof.Machine.execLdB d a imm s
  | .ldH d a imm => Sys2Proof.Machine.execLdH d a imm s
  | .ldW d a imm => Sys2Proof.Machine.execLdW d a imm s
  | .ldD d a imm => Sys2Proof.Machine.execLdD d a imm s
  | .ldBu d a imm => Sys2Proof.Machine.execLdBu d a imm s
  | .ldHu d a imm => Sys2Proof.Machine.execLdHu d a imm s
  | .ldWu d a imm => Sys2Proof.Machine.execLdWu d a imm s
  | .scratchLoad lv z d a off => Sys2Proof.Machine.execScratchLoad lv z d a off s
  | .stB v a imm => Sys2Proof.Machine.execStB v a imm s
  | .stH v a imm => Sys2Proof.Machine.execStH v a imm s
  | .stW v a imm => Sys2Proof.Machine.execStW v a imm s
  | .stD v a imm => Sys2Proof.Machine.execStD v a imm s
  | .scratchStore lv z v a off => Sys2Proof.Machine.execScratchStore lv z v a off s
  | .dread f d a off => Sys2Proof.Machine.execDread f d a off s
  | .dreadNb f d a off => Sys2Proof.Machine.execDreadNb f d a off s
  | .srr d n => Sys2Proof.Machine.execSrr d n s
  | .srw n a => Sys2Proof.Machine.execSrw n a s
  | .beq a b off => Sys2Proof.Machine.execBeq a b off s
  | .bne a b off => Sys2Proof.Machine.execBne a b off s
  | .blt a b off => Sys2Proof.Machine.execBlt a b off s
  | .bge a b off => Sys2Proof.Machine.execBge a b off s
  | .bltu a b off => Sys2Proof.Machine.execBltu a b off s
  | .bgeu a b off => Sys2Proof.Machine.execBgeu a b off s
  | .j off => Sys2Proof.Machine.execJ off s
  | .jal off => Sys2Proof.Machine.execJal off s
  | .liw d imm => Sys2Proof.Machine.execLiw d imm s
  | .liwh d imm => Sys2Proof.Machine.execLiwh d imm s
  | .addiw d a imm => Sys2Proof.Machine.execAddiw d a imm s
  | .scopy l => Sys2Proof.Machine.execScopy l s
  | .sstrd l => Sys2Proof.Machine.execSstrd l s
  | .sgath l => Sys2Proof.Machine.execSgath l s
  | .sscat l => Sys2Proof.Machine.execSscat l s
  | .sxcopy l => Sys2Proof.Machine.execSxcopy l s
  | .mstep l => Sys2Proof.Machine.execMstep l s
  | .momstep l => Sys2Proof.Machine.execMomstep l s
  | .accZero l => Sys2Proof.Machine.execAccZero l s
  | .accLd l => Sys2Proof.Machine.execAccLd l s
  | .accSt l => Sys2Proof.Machine.execAccSt l s
  | .tmv l => Sys2Proof.Machine.execTmv l s
  | .tsel l => Sys2Proof.Machine.execTsel l s
  | .tred l => Sys2Proof.Machine.execTred l s
  | .collAr l => Sys2Proof.Machine.execCollAr l s
  | .collRs l => Sys2Proof.Machine.execCollRs l s
  | .collAg l => Sys2Proof.Machine.execCollAg l s
  | .collBc l => Sys2Proof.Machine.execCollBc l s
  | .collA2a l => Sys2Proof.Machine.execCollA2a l s
  | .eNop e => Sys2Proof.Machine.execENop e s
  | .eMov e => Sys2Proof.Machine.execEMov e s
  | .eDly e => Sys2Proof.Machine.execEDly e s
  | .eSel e => Sys2Proof.Machine.execESel e s
  | .eRetag e => Sys2Proof.Machine.execERetag e s
  | .eKset e => Sys2Proof.Machine.execEKset e s
  | .eKins e => Sys2Proof.Machine.execEKins e s
  | .eIadd e => Sys2Proof.Machine.execEIadd e s
  | .eIsub e => Sys2Proof.Machine.execEIsub e s
  | .eImul e => Sys2Proof.Machine.execEImul e s
  | .eImulh e => Sys2Proof.Machine.execEImulh e s
  | .eImulhu e => Sys2Proof.Machine.execEImulhu e s
  | .eImac e => Sys2Proof.Machine.execEImac e s
  | .eIneg e => Sys2Proof.Machine.execEIneg e s
  | .eIabs e => Sys2Proof.Machine.execEIabs e s
  | .eImin e => Sys2Proof.Machine.execEImin e s
  | .eImax e => Sys2Proof.Machine.execEImax e s
  | .eIminu e => Sys2Proof.Machine.execEIminu e s
  | .eImaxu e => Sys2Proof.Machine.execEImaxu e s
  | .eIadds e => Sys2Proof.Machine.execEIadds e s
  | .eIsubs e => Sys2Proof.Machine.execEIsubs e s
  | .eAnd e => Sys2Proof.Machine.execEAnd e s
  | .eOr e => Sys2Proof.Machine.execEOr e s
  | .eXor e => Sys2Proof.Machine.execEXor e s
  | .eAndn e => Sys2Proof.Machine.execEAndn e s
  | .eNot e => Sys2Proof.Machine.execENot e s
  | .eShl e => Sys2Proof.Machine.execEShl e s
  | .eShr e => Sys2Proof.Machine.execEShr e s
  | .eSra e => Sys2Proof.Machine.execESra e s
  | .eRot e => Sys2Proof.Machine.execERot e s
  | .eClz e => Sys2Proof.Machine.execEClz e s
  | .ePopc e => Sys2Proof.Machine.execEPopc e s
  | .eIcmp e => Sys2Proof.Machine.execEIcmp e s
  | .eIcmpu e => Sys2Proof.Machine.execEIcmpu e s
  | .ePand e => Sys2Proof.Machine.execEPand e s
  | .ePor e => Sys2Proof.Machine.execEPor e s
  | .ePxor e => Sys2Proof.Machine.execEPxor e s
  | .ePnot e => Sys2Proof.Machine.execEPnot e s
  | .ePtst e => Sys2Proof.Machine.execEPtst e s
  | .eAdd e => Sys2Proof.Machine.execEAdd e s
  | .eSub e => Sys2Proof.Machine.execESub e s
  | .eMul e => Sys2Proof.Machine.execEMul e s
  | .eFma e => Sys2Proof.Machine.execEFma e s
  | .eFms e => Sys2Proof.Machine.execEFms e s
  | .eFnma e => Sys2Proof.Machine.execEFnma e s
  | .eFnms e => Sys2Proof.Machine.execEFnms e s
  | .eDiv e => Sys2Proof.Machine.execEDiv e s
  | .eSqrt e => Sys2Proof.Machine.execESqrt e s
  | .eMin e => Sys2Proof.Machine.execEMin e s
  | .eMax e => Sys2Proof.Machine.execEMax e s
  | .eAbs e => Sys2Proof.Machine.execEAbs e s
  | .eNeg e => Sys2Proof.Machine.execENeg e s
  | .eCpysgn e => Sys2Proof.Machine.execECpysgn e s
  | .eFrnd e => Sys2Proof.Machine.execEFrnd e s
  | .eFcmp e => Sys2Proof.Machine.execEFcmp e s
  | .eFclass e => Sys2Proof.Machine.execEFclass e s
  | .eCvt e => Sys2Proof.Machine.execECvt e s
  | .eQmax e => Sys2Proof.Machine.execEQmax e s
  | .eQfifo e => Sys2Proof.Machine.execEQfifo e s
  | .eQconv e => Sys2Proof.Machine.execEQconv e s
  | .eDeq e => Sys2Proof.Machine.execEDeq e s
  | .eGext e => Sys2Proof.Machine.execEGext e s
  | .eGins e => Sys2Proof.Machine.execEGins e s
  | .eExp2 e => Sys2Proof.Machine.execEExp2 e s
  | .eLog2 e => Sys2Proof.Machine.execELog2 e s
  | .eExp e => Sys2Proof.Machine.execEExp e s
  | .eLn e => Sys2Proof.Machine.execELn e s
  | .eRcp e => Sys2Proof.Machine.execERcp e s
  | .eRsqrt e => Sys2Proof.Machine.execERsqrt e s
  | .eSin e => Sys2Proof.Machine.execESin e s
  | .eCos e => Sys2Proof.Machine.execECos e s
  | .eTanh e => Sys2Proof.Machine.execETanh e s
  | .eSigmoid e => Sys2Proof.Machine.execESigmoid e s
  | .eErf e => Sys2Proof.Machine.execEErf e s
  | .eMadd e => Sys2Proof.Machine.execEMadd e s
  | .eMsub e => Sys2Proof.Machine.execEMsub e s
  | .eMmul e => Sys2Proof.Machine.execEMmul e s
  | .eMscale e => Sys2Proof.Machine.execEMscale e s
  | .eMrelu e => Sys2Proof.Machine.execEMrelu e s
  | .eMexp e => Sys2Proof.Machine.execEMexp e s
  | .eMsig e => Sys2Proof.Machine.execEMsig e s
  | .eMtanh e => Sys2Proof.Machine.execEMtanh e s
  | .eMcol e => Sys2Proof.Machine.execEMcol e s
  | .eMmake e => Sys2Proof.Machine.execEMmake e s
  | .eLds e => Sys2Proof.Machine.execELds e s
  | .eSts e => Sys2Proof.Machine.execESts e s
  | .eLdx e => Sys2Proof.Machine.execELdx e s
  | .eStx e => Sys2Proof.Machine.execEStx e s
  | .eAgen e => Sys2Proof.Machine.execEAgen e s
  | .eAgen2 e => Sys2Proof.Machine.execEAgen2 e s
  | .eAbump e => Sys2Proof.Machine.execEAbump e s
  | .eAmod e => Sys2Proof.Machine.execEAmod e s
  | .eLsld e => Sys2Proof.Machine.execELsld e s
  | .eLsst e => Sys2Proof.Machine.execELsst e s
  | .eSpld e => Sys2Proof.Machine.execESpld e s
  | .eSpst e => Sys2Proof.Machine.execESpst e s
  | .eWpchk e => Sys2Proof.Machine.execEWpchk e s
  | .eAccr e => Sys2Proof.Machine.execEAccr e s
  | .eRadd e => Sys2Proof.Machine.execERadd e s
  | .eRmin e => Sys2Proof.Machine.execERmin e s
  | .eRmax e => Sys2Proof.Machine.execERmax e s
  | .eRand e => Sys2Proof.Machine.execERand e s
  | .eRor e => Sys2Proof.Machine.execERor e s
  | .eRxor e => Sys2Proof.Machine.execERxor e s
  | .evRowCounterStep stamp copy => Sys2Proof.Machine.execEvRowCounterStep stamp copy s
  | .evWaveAdvance stamp copy => Sys2Proof.Machine.execEvWaveAdvance stamp copy s
  | .evResultLands stamp copy id => Sys2Proof.Machine.execEvResultLands stamp copy id s
  | .evLoadReplyArrives r => Sys2Proof.Machine.execEvLoadReplyArrives r s
  | .evStallGraceExpiry stamp copy => Sys2Proof.Machine.execEvStallGraceExpiry stamp copy s
  | .evRoundCommit stamp copy round => Sys2Proof.Machine.execEvRoundCommit stamp copy round s
  | .evPhaseRetire stamp => Sys2Proof.Machine.execEvPhaseRetire stamp s
  | .evStoreAtHome st => Sys2Proof.Machine.execEvStoreAtHome st s
  | .evSumDeltaMessage m => Sys2Proof.Machine.execEvSumDeltaMessage m s
  | .evMaxDeltaMessage m => Sys2Proof.Machine.execEvMaxDeltaMessage m s
  | .evBscaleDeltaMessage m => Sys2Proof.Machine.execEvBscaleDeltaMessage m s
  | .evRescanComplete region slot => Sys2Proof.Machine.execEvRescanComplete region slot s
  | .evRebuildComplete region slot => Sys2Proof.Machine.execEvRebuildComplete region slot s
  | .evStoreAcknowledged st k => Sys2Proof.Machine.execEvStoreAcknowledged st k s
  | .evAtomicAtHome a => Sys2Proof.Machine.execEvAtomicAtHome a s
  | .evReductionAtHome r => Sys2Proof.Machine.execEvReductionAtHome r s
  | .evCcEvictionPush cluster line => Sys2Proof.Machine.execEvCcEvictionPush cluster line s
  | .evBarrierArrivalMessage core handle => Sys2Proof.Machine.execEvBarrierArrivalMessage core handle s
  | .evCompletionSignal task k => Sys2Proof.Machine.execEvCompletionSignal task k s
  | .evDependencesComplete task => Sys2Proof.Machine.execEvDependencesComplete task s
  | .evSubreg rec => Sys2Proof.Machine.execEvSubreg rec s
  | .evLaunchAcceptance => Sys2Proof.Machine.execEvLaunchAcceptance s
  | .evTaskabort v => Sys2Proof.Machine.execEvTaskabort v s
  | .evTabort v => Sys2Proof.Machine.execEvTabort v s
  | .evAldata v => Sys2Proof.Machine.execEvAldata v s
  | .evArmBind n v => Sys2Proof.Machine.execEvArmBind n v s
  | .evArmResume n v => Sys2Proof.Machine.execEvArmResume n v s
  | .evArmPreempt n v => Sys2Proof.Machine.execEvArmPreempt n v s
  | .evArmFreeze n v => Sys2Proof.Machine.execEvArmFreeze n v s
  | .evCancelBindRecord n => Sys2Proof.Machine.execEvCancelBindRecord n s
  | .evBindExecute n => Sys2Proof.Machine.execEvBindExecute n s
  | .evResumeExecute n => Sys2Proof.Machine.execEvResumeExecute n s
  | .evPreemptExecute n => Sys2Proof.Machine.execEvPreemptExecute n s
  | .evGangSaveAtPoints task => Sys2Proof.Machine.execEvGangSaveAtPoints task s
  | .evPreemptTimeout task => Sys2Proof.Machine.execEvPreemptTimeout task s
  | .evForcedFreeze task => Sys2Proof.Machine.execEvForcedFreeze task s
  | .evFastContextCaptured core => Sys2Proof.Machine.execEvFastContextCaptured core s
  | .evSpillComplete core => Sys2Proof.Machine.execEvSpillComplete core s
  | .evMemberRetire core => Sys2Proof.Machine.execEvMemberRetire core s
  | .evCoreScrubComplete core => Sys2Proof.Machine.execEvCoreScrubComplete core s
  | .evAsyncTrapDelivery core => Sys2Proof.Machine.execEvAsyncTrapDelivery core s
  | .evEbudWindowExpiry part => Sys2Proof.Machine.execEvEbudWindowExpiry part s
  | .evEbud v => Sys2Proof.Machine.execEvEbud v s
  | .evHeldCommandAccepted core => Sys2Proof.Machine.execEvHeldCommandAccepted core s
  | .evEngineCommandStart core cmd rep => Sys2Proof.Machine.execEvEngineCommandStart core cmd rep s
  | .evCopyGranuleLands core cmd => Sys2Proof.Machine.execEvCopyGranuleLands core cmd s
  | .evCopyRetire core cmd => Sys2Proof.Machine.execEvCopyRetire core cmd s
  | .evMstepZeroing core cmd => Sys2Proof.Machine.execEvMstepZeroing core cmd s
  | .evTileStepSliceRetire core cmd rep slice => Sys2Proof.Machine.execEvTileStepSliceRetire core cmd rep slice s
  | .evTileStepRetire core cmd => Sys2Proof.Machine.execEvTileStepRetire core cmd s
  | .evAccCellsWritten core cmd => Sys2Proof.Machine.execEvAccCellsWritten core cmd s
  | .evAccCommandRetire core cmd => Sys2Proof.Machine.execEvAccCommandRetire core cmd s
  | .evTahrResultLands core cmd => Sys2Proof.Machine.execEvTahrResultLands core cmd s
  | .evTahrRetire core cmd => Sys2Proof.Machine.execEvTahrRetire core cmd s
  | .evCollectiveLanding core cmd rank => Sys2Proof.Machine.execEvCollectiveLanding core cmd rank s
  | .evCollectivePartRetire core cmd => Sys2Proof.Machine.execEvCollectivePartRetire core cmd s
  | .evEventTaken => Sys2Proof.Machine.execEvEventTaken s
  | .evEvhead v => Sys2Proof.Machine.execEvEvhead v s
  | .evEvcfg v => Sys2Proof.Machine.execEvEvcfg v s
  | .evLockstepFailure faulty => Sys2Proof.Machine.execEvLockstepFailure faulty s
  | .evFailoverComplete => Sys2Proof.Machine.execEvFailoverComplete s
  | .evCorectl core v => Sys2Proof.Machine.execEvCorectl core v s
  | .evRegisterWrite unit n v => Sys2Proof.Machine.execEvRegisterWrite unit n v s
  | .evPrrespRetry idx => Sys2Proof.Machine.execEvPrrespRetry idx s
  | .evPrrespRefuse idx => Sys2Proof.Machine.execEvPrrespRefuse idx s
  | .evPrqhead v => Sys2Proof.Machine.execEvPrqhead v s
  | .evTlbinv v => Sys2Proof.Machine.execEvTlbinv v s
  | .evTlbinvDone => Sys2Proof.Machine.execEvTlbinvDone s
  | .evWlreq v => Sys2Proof.Machine.execEvWlreq v s
  | .evUncorrectableError core => Sys2Proof.Machine.execEvUncorrectableError core s
  | .evLineLost pa => Sys2Proof.Machine.execEvLineLost pa s
  | .evPrect v => Sys2Proof.Machine.execEvPrect v s
  | .evCremap v => Sys2Proof.Machine.execEvCremap v s
  | .evPpol v => Sys2Proof.Machine.execEvPpol v s
  | .evPway v => Sys2Proof.Machine.execEvPway v s
  | .evCpwin v => Sys2Proof.Machine.execEvCpwin v s
  | .evPat v => Sys2Proof.Machine.execEvPat v s
  | .evPatZeroingComplete frame => Sys2Proof.Machine.execEvPatZeroingComplete frame s
  | .evBlkcls v => Sys2Proof.Machine.execEvBlkcls v s
  | .evBlockLayoutComplete block => Sys2Proof.Machine.execEvBlockLayoutComplete block s
  | .evSealstRekey v => Sys2Proof.Machine.execEvSealstRekey v s
  | .evRekeyComplete part => Sys2Proof.Machine.execEvRekeyComplete part s
  | .evGroupReencryptComplete part group => Sys2Proof.Machine.execEvGroupReencryptComplete part group s
  | .evMrgo v => Sys2Proof.Machine.execEvMrgo v s
  | .evAudw4 v => Sys2Proof.Machine.execEvAudw4 v s
  | .evAuditCheckpoint => Sys2Proof.Machine.execEvAuditCheckpoint s
  | .evAuditFree seq => Sys2Proof.Machine.execEvAuditFree seq s
  | .evSpdmRequest q => Sys2Proof.Machine.execEvSpdmRequest q s
  | .evTdispRequest vf q => Sys2Proof.Machine.execEvTdispRequest vf q s
  | .evLchanOpen v => Sys2Proof.Machine.execEvLchanOpen v s
  | .evLchanRetire v => Sys2Proof.Machine.execEvLchanRetire v s
  | .evChannelDrainEnd ch => Sys2Proof.Machine.execEvChannelDrainEnd ch s
  | .evDrainedReport pkg ch part => Sys2Proof.Machine.execEvDrainedReport pkg ch part s
  | .evOpenMessage pkg ch part => Sys2Proof.Machine.execEvOpenMessage pkg ch part s
  | .evPwin v => Sys2Proof.Machine.execEvPwin v s
  | .evPeerAccessArrival a => Sys2Proof.Machine.execEvPeerAccessArrival a s
  | .evPeerReplyTimeout core => Sys2Proof.Machine.execEvPeerReplyTimeout core s
  | .evLomidLaneFailure port lane => Sys2Proof.Machine.execEvLomidLaneFailure port lane s
  | .evReplicaWriteAtHome w => Sys2Proof.Machine.execEvReplicaWriteAtHome w s
  | .evReplicaConfirm seq pkg => Sys2Proof.Machine.execEvReplicaConfirm seq pkg s
  | .evHostSnoop half inv => Sys2Proof.Machine.execEvHostSnoop half inv s
  | .evHostWrite vf addr data => Sys2Proof.Machine.execEvHostWrite vf addr data s
  | .evHostRead vf addr size => Sys2Proof.Machine.execEvHostRead vf addr size s
  | .evCxlGrant half own => Sys2Proof.Machine.execEvCxlGrant half own s
  | .evDebugStop core r => Sys2Proof.Machine.execEvDebugStop core r s
  | .evDumpctl core v => Sys2Proof.Machine.execEvDumpctl core v s
  | .evDumpComplete core => Sys2Proof.Machine.execEvDumpComplete core s
  | .evDebugCheckpoint part => Sys2Proof.Machine.execEvDebugCheckpoint part s
  | .evRlfree v => Sys2Proof.Machine.execEvRlfree v s
  | .evPowerUp => Sys2Proof.Machine.execEvPowerUp s
  | .evDeviceReady code => Sys2Proof.Machine.execEvDeviceReady code s
  | .evPwrgdDeassert => Sys2Proof.Machine.execEvPwrgdDeassert s
  | .evPerst => Sys2Proof.Machine.execEvPerst s
  | .evPfFlr => Sys2Proof.Machine.execEvPfFlr s
  | .evVfFlr vf => Sys2Proof.Machine.execEvVfFlr vf s
  | .evIslandGate v => Sys2Proof.Machine.execEvIslandGate v s
  | .evIslandFrequency v => Sys2Proof.Machine.execEvIslandFrequency v s
  | .evIslandChangeComplete island => Sys2Proof.Machine.execEvIslandChangeComplete island s
  | .evPkgGate v => Sys2Proof.Machine.execEvPkgGate v s
  | .evPkgGateExitComplete => Sys2Proof.Machine.execEvPkgGateExitComplete s
  | .evPowerLimitThrottle meas => Sys2Proof.Machine.execEvPowerLimitThrottle meas s
  | .evThermalThrottle island => Sys2Proof.Machine.execEvThermalThrottle island s
  | .evThermalTrip island => Sys2Proof.Machine.execEvThermalTrip island s
  | .evIllegalInstruction w => Sys2Proof.Machine.execEvIllegalInstruction w s
  | .evHostLinkDead => Sys2Proof.Machine.execEvHostLinkDead s
  | .evThermalThrottleEnd island => Sys2Proof.Machine.execEvThermalThrottleEnd island s
  | .evPowerLimitThrottleEnd meas => Sys2Proof.Machine.execEvPowerLimitThrottleEnd meas s
  | .evSubstat v => Sys2Proof.Machine.execEvSubstat v s
  | .evReplay core task memb checkpoint => Sys2Proof.Machine.execEvReplay core task memb checkpoint s

end Sys2Proof.Machine
end

