-- ==== Sys2Proof/Machine/Events.lean ====
section
/-!
DEFINITION. The step or event of an agenda entry: the meaning that `exec` gives the instruction of the same name.
-/

namespace Sys2Proof.Machine

/-- Carries out a step of the device or an outside event. -/
def runEv (e : Ev) (s : State) : Result :=
  match e with
  | .rowCounterStep stamp copy => Sys2Proof.Machine.execEvRowCounterStep stamp copy s
  | .waveAdvance stamp copy => Sys2Proof.Machine.execEvWaveAdvance stamp copy s
  | .resultLands stamp copy id => Sys2Proof.Machine.execEvResultLands stamp copy id s
  | .loadReplyArrives r => Sys2Proof.Machine.execEvLoadReplyArrives r s
  | .stallGraceExpiry stamp copy => Sys2Proof.Machine.execEvStallGraceExpiry stamp copy s
  | .roundCommit stamp copy round => Sys2Proof.Machine.execEvRoundCommit stamp copy round s
  | .phaseRetire stamp => Sys2Proof.Machine.execEvPhaseRetire stamp s
  | .storeAtHome st => Sys2Proof.Machine.execEvStoreAtHome st s
  | .sumDeltaMessage m => Sys2Proof.Machine.execEvSumDeltaMessage m s
  | .maxDeltaMessage m => Sys2Proof.Machine.execEvMaxDeltaMessage m s
  | .bscaleDeltaMessage m => Sys2Proof.Machine.execEvBscaleDeltaMessage m s
  | .rescanComplete region slot => Sys2Proof.Machine.execEvRescanComplete region slot s
  | .rebuildComplete region slot => Sys2Proof.Machine.execEvRebuildComplete region slot s
  | .storeAcknowledged st k => Sys2Proof.Machine.execEvStoreAcknowledged st k s
  | .atomicAtHome a => Sys2Proof.Machine.execEvAtomicAtHome a s
  | .reductionAtHome r => Sys2Proof.Machine.execEvReductionAtHome r s
  | .ccEvictionPush cluster line => Sys2Proof.Machine.execEvCcEvictionPush cluster line s
  | .barrierArrivalMessage who handle => Sys2Proof.Machine.execEvBarrierArrivalMessage who handle s
  | .completionSignal task k => Sys2Proof.Machine.execEvCompletionSignal task k s
  | .dependencesComplete task => Sys2Proof.Machine.execEvDependencesComplete task s
  | .subreg rec => Sys2Proof.Machine.execEvSubreg rec s
  | .launchAcceptance => Sys2Proof.Machine.execEvLaunchAcceptance s
  | .taskabort v => Sys2Proof.Machine.execEvTaskabort v s
  | .tabort v => Sys2Proof.Machine.execEvTabort v s
  | .aldata v => Sys2Proof.Machine.execEvAldata v s
  | .armBind n v => Sys2Proof.Machine.execEvArmBind n v s
  | .armResume n v => Sys2Proof.Machine.execEvArmResume n v s
  | .armPreempt n v => Sys2Proof.Machine.execEvArmPreempt n v s
  | .armFreeze n v => Sys2Proof.Machine.execEvArmFreeze n v s
  | .cancelBindRecord n => Sys2Proof.Machine.execEvCancelBindRecord n s
  | .bindExecute n => Sys2Proof.Machine.execEvBindExecute n s
  | .resumeExecute n => Sys2Proof.Machine.execEvResumeExecute n s
  | .preemptExecute n => Sys2Proof.Machine.execEvPreemptExecute n s
  | .gangSaveAtPoints task => Sys2Proof.Machine.execEvGangSaveAtPoints task s
  | .preemptTimeout task => Sys2Proof.Machine.execEvPreemptTimeout task s
  | .forcedFreeze task => Sys2Proof.Machine.execEvForcedFreeze task s
  | .fastContextCaptured core => Sys2Proof.Machine.execEvFastContextCaptured core s
  | .spillComplete core => Sys2Proof.Machine.execEvSpillComplete core s
  | .memberRetire core => Sys2Proof.Machine.execEvMemberRetire core s
  | .coreScrubComplete core => Sys2Proof.Machine.execEvCoreScrubComplete core s
  | .asyncTrapDelivery core => Sys2Proof.Machine.execEvAsyncTrapDelivery core s
  | .ebudWindowExpiry part => Sys2Proof.Machine.execEvEbudWindowExpiry part s
  | .ebud v => Sys2Proof.Machine.execEvEbud v s
  | .heldCommandAccepted core => Sys2Proof.Machine.execEvHeldCommandAccepted core s
  | .engineCommandStart core cmd rep => Sys2Proof.Machine.execEvEngineCommandStart core cmd rep s
  | .copyGranuleLands core cmd => Sys2Proof.Machine.execEvCopyGranuleLands core cmd s
  | .copyRetire core cmd => Sys2Proof.Machine.execEvCopyRetire core cmd s
  | .mstepZeroing core cmd => Sys2Proof.Machine.execEvMstepZeroing core cmd s
  | .tileStepSliceRetire core cmd rep slice => Sys2Proof.Machine.execEvTileStepSliceRetire core cmd rep slice s
  | .tileStepRetire core cmd => Sys2Proof.Machine.execEvTileStepRetire core cmd s
  | .accCellsWritten core cmd => Sys2Proof.Machine.execEvAccCellsWritten core cmd s
  | .accCommandRetire core cmd => Sys2Proof.Machine.execEvAccCommandRetire core cmd s
  | .tahrResultLands core cmd => Sys2Proof.Machine.execEvTahrResultLands core cmd s
  | .tahrRetire core cmd => Sys2Proof.Machine.execEvTahrRetire core cmd s
  | .collectiveLanding core cmd rank => Sys2Proof.Machine.execEvCollectiveLanding core cmd rank s
  | .collectivePartRetire core cmd => Sys2Proof.Machine.execEvCollectivePartRetire core cmd s
  | .eventTaken => Sys2Proof.Machine.execEvEventTaken s
  | .evhead v => Sys2Proof.Machine.execEvEvhead v s
  | .evcfg v => Sys2Proof.Machine.execEvEvcfg v s
  | .lockstepFailure faulty => Sys2Proof.Machine.execEvLockstepFailure faulty s
  | .failoverComplete => Sys2Proof.Machine.execEvFailoverComplete s
  | .corectl core v => Sys2Proof.Machine.execEvCorectl core v s
  | .registerWrite unit n v => Sys2Proof.Machine.execEvRegisterWrite unit n v s
  | .prrespRetry idx => Sys2Proof.Machine.execEvPrrespRetry idx s
  | .prrespRefuse idx => Sys2Proof.Machine.execEvPrrespRefuse idx s
  | .prqhead v => Sys2Proof.Machine.execEvPrqhead v s
  | .tlbinv v => Sys2Proof.Machine.execEvTlbinv v s
  | .tlbinvDone => Sys2Proof.Machine.execEvTlbinvDone s
  | .wlreq v => Sys2Proof.Machine.execEvWlreq v s
  | .uncorrectableError core => Sys2Proof.Machine.execEvUncorrectableError core s
  | .lineLost pa => Sys2Proof.Machine.execEvLineLost pa s
  | .prect v => Sys2Proof.Machine.execEvPrect v s
  | .cremap v => Sys2Proof.Machine.execEvCremap v s
  | .ppol v => Sys2Proof.Machine.execEvPpol v s
  | .pway v => Sys2Proof.Machine.execEvPway v s
  | .cpwin v => Sys2Proof.Machine.execEvCpwin v s
  | .pat v => Sys2Proof.Machine.execEvPat v s
  | .patZeroingComplete frame => Sys2Proof.Machine.execEvPatZeroingComplete frame s
  | .blkcls v => Sys2Proof.Machine.execEvBlkcls v s
  | .blockLayoutComplete block => Sys2Proof.Machine.execEvBlockLayoutComplete block s
  | .sealstRekey v => Sys2Proof.Machine.execEvSealstRekey v s
  | .rekeyComplete part => Sys2Proof.Machine.execEvRekeyComplete part s
  | .groupReencryptComplete part group => Sys2Proof.Machine.execEvGroupReencryptComplete part group s
  | .mrgo v => Sys2Proof.Machine.execEvMrgo v s
  | .audw4 v => Sys2Proof.Machine.execEvAudw4 v s
  | .auditCheckpoint => Sys2Proof.Machine.execEvAuditCheckpoint s
  | .auditFree seq => Sys2Proof.Machine.execEvAuditFree seq s
  | .spdmRequest q => Sys2Proof.Machine.execEvSpdmRequest q s
  | .tdispRequest vf q => Sys2Proof.Machine.execEvTdispRequest vf q s
  | .lchanOpen v => Sys2Proof.Machine.execEvLchanOpen v s
  | .lchanRetire v => Sys2Proof.Machine.execEvLchanRetire v s
  | .channelDrainEnd ch => Sys2Proof.Machine.execEvChannelDrainEnd ch s
  | .drainedReport pkg ch part => Sys2Proof.Machine.execEvDrainedReport pkg ch part s
  | .openMessage pkg ch part => Sys2Proof.Machine.execEvOpenMessage pkg ch part s
  | .pwin v => Sys2Proof.Machine.execEvPwin v s
  | .peerAccessArrival a => Sys2Proof.Machine.execEvPeerAccessArrival a s
  | .peerReplyTimeout core => Sys2Proof.Machine.execEvPeerReplyTimeout core s
  | .lomidLaneFailure port lane => Sys2Proof.Machine.execEvLomidLaneFailure port lane s
  | .replicaWriteAtHome w => Sys2Proof.Machine.execEvReplicaWriteAtHome w s
  | .replicaConfirm seq pkg => Sys2Proof.Machine.execEvReplicaConfirm seq pkg s
  | .hostSnoop half inv => Sys2Proof.Machine.execEvHostSnoop half inv s
  | .hostWrite vf addr data => Sys2Proof.Machine.execEvHostWrite vf addr data s
  | .hostRead vf addr size => Sys2Proof.Machine.execEvHostRead vf addr size s
  | .cxlGrant half own => Sys2Proof.Machine.execEvCxlGrant half own s
  | .debugStop core r => Sys2Proof.Machine.execEvDebugStop core r s
  | .dumpctl core v => Sys2Proof.Machine.execEvDumpctl core v s
  | .dumpComplete core => Sys2Proof.Machine.execEvDumpComplete core s
  | .debugCheckpoint part => Sys2Proof.Machine.execEvDebugCheckpoint part s
  | .rlfree v => Sys2Proof.Machine.execEvRlfree v s
  | .powerUp => Sys2Proof.Machine.execEvPowerUp s
  | .deviceReady code => Sys2Proof.Machine.execEvDeviceReady code s
  | .pwrgdDeassert => Sys2Proof.Machine.execEvPwrgdDeassert s
  | .perst => Sys2Proof.Machine.execEvPerst s
  | .pfFlr => Sys2Proof.Machine.execEvPfFlr s
  | .vfFlr vf => Sys2Proof.Machine.execEvVfFlr vf s
  | .islandGate v => Sys2Proof.Machine.execEvIslandGate v s
  | .islandFrequency v => Sys2Proof.Machine.execEvIslandFrequency v s
  | .islandChangeComplete island => Sys2Proof.Machine.execEvIslandChangeComplete island s
  | .pkgGate v => Sys2Proof.Machine.execEvPkgGate v s
  | .pkgGateExitComplete => Sys2Proof.Machine.execEvPkgGateExitComplete s
  | .powerLimitThrottle meas => Sys2Proof.Machine.execEvPowerLimitThrottle meas s
  | .thermalThrottle island => Sys2Proof.Machine.execEvThermalThrottle island s
  | .thermalTrip island => Sys2Proof.Machine.execEvThermalTrip island s
  | .illegalInstruction w => Sys2Proof.Machine.execEvIllegalInstruction w s
  | .hostLinkDead => Sys2Proof.Machine.execEvHostLinkDead s
  | .thermalThrottleEnd island => Sys2Proof.Machine.execEvThermalThrottleEnd island s
  | .powerLimitThrottleEnd meas => Sys2Proof.Machine.execEvPowerLimitThrottleEnd meas s
  | .substat v => Sys2Proof.Machine.execEvSubstat v s
  | .replay core task memb checkpoint => Sys2Proof.Machine.execEvReplay core task memb checkpoint s
  | .storeOnWay st => Sys2Proof.Machine.execEvStoreOnWay st s
  | .heldTurn => Sys2Proof.Machine.execEvHeldTurn s
  | .answered a => Sys2Proof.Machine.execEvAnswered a s
  | .slotError line => Sys2Proof.Machine.execEvSlotError line s
  | .farBarInit pkg task memb handle scope count => Sys2Proof.Machine.execEvFarBarInit pkg task memb handle scope count s
  | .memberGone task memb => Sys2Proof.Machine.execEvMemberGone task memb s
  | .gangNews task memb n => Sys2Proof.Machine.execEvGangNews task memb n s
  | .farSignal pkg pa task k => Sys2Proof.Machine.execEvFarSignal pkg pa task k s
  | .signalDone task => Sys2Proof.Machine.execEvSignalDone task s
  | .ccStore st => Sys2Proof.Machine.execEvCcStore st s
  | .heldReadAnswered stamp copy id => Sys2Proof.Machine.execEvHeldReadAnswered stamp copy id s
  | .recover core => Sys2Proof.Machine.execEvRecover core s
  | .hartsRetire h => Sys2Proof.Machine.execEvHartsRetire h s
  | .sramError addr bad => Sys2Proof.Machine.execEvSramError addr bad s
  | .hartStore addr data => Sys2Proof.Machine.execEvHartStore addr data s
  | .hartLoad addr size => Sys2Proof.Machine.execEvHartLoad addr size s
  | .hostBarRead vf off => Sys2Proof.Machine.execEvHostBarRead vf off s
  | .wordError pa bad => Sys2Proof.Machine.execEvWordError pa bad s
  | .bankError level idx group bank row => Sys2Proof.Machine.execEvBankError level idx group bank row s
  | .bankFailed level idx group bank => Sys2Proof.Machine.execEvBankFailed level idx group bank s
  | .sliceOff slice => Sys2Proof.Machine.execEvSliceOff slice s
  | .earlyLoad core pa n => Sys2Proof.Machine.execEvEarlyLoad core pa n s
  | .earlyDread core va => Sys2Proof.Machine.execEvEarlyDread core va s
  | .sealMismatch line tag tree => Sys2Proof.Machine.execEvSealMismatch line tag tree s
  | .replicaLost pkg => Sys2Proof.Machine.execEvReplicaLost pkg s
  | .firmwareStart => Sys2Proof.Machine.execEvFirmwareStart s
  | .resetEntryEnd => Sys2Proof.Machine.execEvResetEntryEnd s
  | .pkgGateEnter => Sys2Proof.Machine.execEvPkgGateEnter s
  | .lomidAck st k sent => Sys2Proof.Machine.execEvLomidAck st k sent s
  | .lomidReply r sent => Sys2Proof.Machine.execEvLomidReply r sent s
  | .reverseStep core task memb cycle => Sys2Proof.Machine.execEvReverseStep core task memb cycle s

end Sys2Proof.Machine
end

