-- ==== Sys2Proof/Machine/Fetch.lean ====
section
/-!
DEFINITION. Fetching and carrying out the next instruction of a sequencer (R134, R143, R346), and an element's schedule entry
(R45): the parts of a step.
-/

namespace Sys2Proof.Machine

/-- Fetches the word at `pc` for the executing member: translation with KIND 2, the frame check, the read (R346, R349, R370,
R77); the word, or the state in which nothing is executed. A word that cannot be fetched raises the fetch fault at the first
word's address (R143, R200); so does one behind a Lomid channel (log entry 19, DEDUCED). The word is
the one that memory holds in this step; before `FENCE.CORE` R144 allows the one before it too (log entry 103, DESIGN CHOICE). -/
def State.fetchWord (s : State) (pc : Word) : Except State (Nat × State) :=
  let part := s.me.part
  match s.xlate s.core .seq part pc 2 with
  | (.conflict, s1) => .error (stateOr (s.seqConflict s1 pc true) s)
  | (.missing, s1) =>
    .error ((s1.pageRequest (.sequencer s.core) pc part s.core 0 2).setWait (.page s1.nextReq))
  | (.ok leaf pa, s1) =>
    if !s.frameOk part leaf pa then .error (s.trap (fetchTrap s.q.pc))
    else
      match placeOf pa with
      | .hbm =>
        if s.heldOwn s.core pa 4 then .error s
        else if s.halvesReady leaf pa 4 false then
          let d := s1.readDelivery s.cluster leaf s.kclass pa 4
          let s1 := (s1.noteBad part s.core ((s1.seenRam s.cluster leaf pa 4).worst pa 4) pa 4).charge part d.charge s.core
          if d.fault || d.psn then .error (s1.trap (dataTrap pc))
          else .ok (if d.zero then 0 else ofBytes (s1.readHbm s.cluster leaf pa 4), s1.touch s.core part leaf pa false)
        else .error (s.askHalves .hbm false (halvesOf pa 4))
      | .host =>
        if s.hostDead then .error (s.trap (fetchTrap s.q.pc))
        else if s.heldOwn s.core pa 4 then .error s
        else if s.halvesReady leaf pa 4 false then .ok (s.host.num pa 4, s1.touch s.core part leaf pa false)
        else .error (s.askHalves .host false (halvesOf pa 4))
      | _ => .error (s.trap (fetchTrap s.q.pc))

/-- The sequencer with the words of its instruction, kept for the waits that come back to them; a range conflict of the fetch is over. -/
def Seq.fetched (q : Seq) (w : Nat) : Seq :=
  { q with
    ir := BitVec.ofNat 64 w
    wait := match q.wait with
      | .conflict x => if x.lane = 1 then .none else .conflict x
      | w => w }

/-- Fetches the instruction at the program counter: one word, or two for a major of the W format (R134, R135). -/
def State.fetch (s : State) : Except State State :=
  match s.fetchWord s.q.pc with
  | .error t => .error t
  | .ok (w0, s) =>
    if isLongMajor (w0 / 2 ^ 26 % 64) then
      match s.fetchWord (s.q.pc + 4) with
      | .error t => .error t
      | .ok (w1, s) => .ok (s.modQ fun q => q.fetched (w0 + w1 * 2 ^ 32))
    else .ok (s.modQ fun q => q.fetched w0)

/-- Executes the words that the sequencer holds (R143). -/
def State.execHeld (s : State) : Result :=
  let w := s.q.ir
  match decodeWords (w.fld 31 0) (w.fld 63 32) with
  | .ok i => exec i s
  | .error _ => execEvIllegalInstruction (BitVec.ofNat 32 (w.fld 31 0)) s

/-- Whether a valid breakpoint of the core names the program counter, at which it has not just stopped (R397). -/
def State.atBreakpoint (s : State) : Bool :=
  let k := s.cur
  k.binding.dbg && k.bkptPassed != some s.q.pc.toNat && (List.range 4).any fun i =>
    let b := Store.get 0 k.bkpt i
    b.bit 63 && b.fld 47 2 == s.q.pc.fld 63 2

/-- The breakpoint just stopped at is passed: the next time, it stops again (R397). -/
def State.passBreak (s : State) : State := if s.cur.bkptPassed.isSome then s.modCur fun k => { k with bkptPassed := none } else s

/-- The executing sequencer takes its next instruction: the breakpoint check, the fetch, the meaning. -/
def State.nextInstr (s : State) : Result :=
  if s.atBreakpoint then
    .next ((s.modCur fun k => { k with bkptPassed := some k.seq.pc.toNat }).soon [.event (.debugStop s.core .address)])
  else
    match s.fetch with
    | .error t => .next t
    | .ok t => t.passBreak.execHeld

/-- An instruction restarts after a range conflict (R351). -/
def State.againInstr (s : State) : Result :=
  match s.fetch with
  | .error t => .next t
  | .ok t => t.passBreak.execHeld

/-- An instruction restarts after its page request (R350): the words are fetched again, and it is still the one that waited
until it executes. -/
def State.retryInstr (s : State) : Result :=
  match s.fetch with
  | .error t => .next t
  | .ok t => (t.passBreak.setWait .none).execHeld

/-- The trap that the executing member owes from while it was frozen is taken (R30). -/
def State.payTrap (s : State) (o : OwedTrap) : State :=
  (s.modCur fun k => { k with seq := { k.seq with owed := none } }).trapAt s.core o.trap o.epc

/-- The turn of the sequencer of core `c`: a trap it owes; an asynchronous trap that can be delivered; else the instruction it waits in, tried
again; else its next instruction. -/
def stepSeq (c : Nat) (s : State) : Result :=
  let s := { s with core := c }
  let k := s.cur
  if 72 ≤ c then .fault (.noSuchCore c)
  else if !k.moves || k.stopHold || k.captured then .next s
  else if s.canDeliver c && k.seq.owed.isNone then execEvAsyncTrapDelivery c s
  else
    match k.seq.owed with
    | some o => .next (s.payTrap o)
    | none =>
    match k.seq.wait with
    | .page _ => .next s
    | .conflict x => if x.again then s.againInstr else .next s
    | .peer _ => .next s
    | .home => .next s
    | .engine => .next s
    | .none => s.nextInstr
    | .retry => s.retryInstr
    | .poll => (s.setWait .none).execHeld
    | .peerDone => s.execHeld
    | .signal => s.execHeld
    | .barrier .. => s.execHeld
    | .remoteBarrier .. => s.execHeld
    | .barInit => s.execHeld
    | .phase _ => s.execHeld
    | .join => s.execHeld
    | .exit => s.execHeld
    | .launch => s.execHeld
    | .dread .. => s.execHeld
    | .ddecl _ => s.execHeld
    | .dfree _ => s.execHeld

/-- The issue of a schedule entry (R45). -/
def stepElem (x : Issue) (s : State) : Result :=
  match decodeEntryWord ((s.getStamp x.stamp).entry x.row x.col x.slot) with
  | .ok i => exec i { s with issue := x }
  | .error _ => .next s

/-- Carries out an entry of the agenda. -/
def runAction (a : Action) (s : State) : Result :=
  match a with
  | .event e => runEv e s
  | .elem x => stepElem x s
  | .seq c => stepSeq c s

/-! ### An instruction placed where the next step takes it -/

/-- The leaf of a readable, writable and executable page at physical address `pa`, of a class. -/
def openLeaf (cls pa : Nat) : Word :=
  BitVec.ofNat 64 (2 ^ 63 + 2 ^ 62 + cls * 2 ^ 57 + 2 ^ 55 + 2 ^ 54 + 2 ^ 53 + pa / 65536 * 65536)

/-- A member bound and running on core 0, with nothing that would come before its next instruction. -/
def State.bindHere (s : State) : State :=
  s.modCore 0 fun k => { k with
    mstate := .running, bind := some { task := 1, part := 1 }, captured := false, stopHold := false, replay := none
    bkpt := [], seq := { k.seq with wait := .none, traps := [], owed := none } }

/-- A sequencer's words placed at its program counter. -/
def State.placeWords (s : State) (w : Nat) : State :=
  let s := s.bindHere
  let pc := (s.getCore 0).seq.pc.toNat
  let pa := pc % 65536
  let first := pc / 65536 * 65536
  let page (i : Nat) : TlbEntry := ⟨1, first + 65536 * i, 65536, openLeaf (s.blockClass 0) (65536 * i)⟩
  let s := s.modCore 0 fun k => { k with seqTlb := [page 0, page 1] }
  { s with
    pat := Store.set 0 s.pat 0 (BitVec.ofNat 64 (2 ^ 63 + 2 ^ 32)), lost := [], held := [], way := []
    hbm := s.hbm.store pa (toBytes 8 w) false, agenda := [.seq 0] }

/-- A schedule entry placed in slot 0 of the first element of a running stamp of core 0, at the turn of its issue. -/
def State.placeEntry (s : State) (w : Nat) : State :=
  let st : Stamp :=
    { task := 1, state := .running, trip := 1, entries := Store.set 0 [] 0 w, copies := [{ done := false }] }
  { s.bindHere with
    stamps := Store.insert (Store.erase s.stamps 0) 0 st, agenda := [.elem {}] }

end Sys2Proof.Machine
end

