-- ==== Sys2Proof/Machine/Step.lean ====
section
/-!
DEFINITION. One step of the machine: the next entry of the agenda, or, with nothing left of the present cycle, the next cycle.
-/

namespace Sys2Proof.Machine

/-- One step. -/
def step (s : State) : Host.Outcome State Fault Refusal :=
  match s.agenda with
  | [] => .next s.beginCycle
  | a :: rest => runAction a { s with agenda := rest }

/-- `s` with an instruction stored where the very next step fetches it (log entry 2, DESIGN CHOICE): 48 bits are a schedule entry, anything else
a sequencer's words. -/
def State.withFetchWord (s : State) (nbits w : Nat) : State := if nbits = 48 then s.placeEntry w else s.placeWords w

end Sys2Proof.Machine
end

