-- ==== Sys2Proof/Safety.lean ====
section
/-!
DEFINITION. What counts as a safe state and a safe run, and the other terms in which the claims speak: completion, frames.
-/

namespace Sys2Proof

/-- Every entry of the agenda names a core that the device has (R10). -/
def Machine.Action.named : Machine.Action → Bool
  | .seq c => decide (c < 72)
  | .event _ => true
  | .elem _ => true

/-- An agenda that names only cores of the device. -/
def Machine.State.agendaNamed (s : Machine.State) : Prop := s.agenda.all Machine.Action.named = true

/-- A safe state: its memories are in canonical form and its agenda names only cores of the device. -/
def Safe (s : Machine.State) : Prop := Machine.Memory.wf s = true ∧ s.agendaNamed

/-- A step that ends in a next state. -/
def StepsOn (s : Machine.State) : Prop := ∃ t, Machine.step s = .next t

namespace Machine

/-! ### Completion and frames -/

/-- The instruction answers a next state, and that state is as `P` says. -/
def Completes (i : Instr) (s : State) (P : State → Prop) : Prop := ∃ t, exec i s = .next t ∧ P t

/-- Every byte of every memory reads as before: device memory, host memory, the chip scratchpad, Saiga's memory, each core's
scratchpad, each cluster's shared memory and its CC bytes. -/
structure SameBytes (s t : State) : Prop where
  hbm : ∀ a, t.hbm.byte a = s.hbm.byte a
  host : ∀ a, t.host.byte a = s.host.byte a
  chip : ∀ a, t.cp.byte a = s.cp.byte a
  saiga : ∀ a, t.saiga.byte a = s.saiga.byte a
  core : ∀ c a, (t.getCore c).scratch.byte a = (s.getCore c).scratch.byte a
  shared : ∀ k a, (t.getCluster k).cm.byte a = (s.getCluster k).cm.byte a
  dirty : ∀ k, (t.getCluster k).dirty = (s.getCluster k).dirty

/-- Every memory but device memory and the clusters' CC bytes reads as before. -/
structure SameOtherMemories (s t : State) : Prop where
  host : ∀ a, t.host.byte a = s.host.byte a
  chip : ∀ a, t.cp.byte a = s.cp.byte a
  saiga : ∀ a, t.saiga.byte a = s.saiga.byte a
  core : ∀ c a, (t.getCore c).scratch.byte a = (s.getCore c).scratch.byte a
  shared : ∀ k a, (t.getCluster k).cm.byte a = (s.getCluster k).cm.byte a

/-- Every memory but device memory reads as before. -/
structure SameBytesButHbm (s t : State) : Prop where
  host : ∀ a, t.host.byte a = s.host.byte a
  chip : ∀ a, t.cp.byte a = s.cp.byte a
  saiga : ∀ a, t.saiga.byte a = s.saiga.byte a
  core : ∀ c a, (t.getCore c).scratch.byte a = (s.getCore c).scratch.byte a
  shared : ∀ k a, (t.getCluster k).cm.byte a = (s.getCluster k).cm.byte a
  dirty : ∀ k, (t.getCluster k).dirty = (s.getCluster k).dirty

/-- Of the whole machine only the executing sequencer may differ. -/
structure OnlySeq (s t : State) : Prop where
  core : t.cur = { s.cur with seq := t.q }
  cores : ∀ c, c ≠ s.core → t.getCore c = s.getCore c
  device : { t with cores := s.cores } = s
  bytes : SameBytes s t

/-- Of the general registers only `d` differs: it holds `v` with poison `psn`, unless it is g0, which stays as it is (R193). -/
structure WroteReg (s t : State) (d : Reg) (v : Word) (psn : Bool) : Prop where
  dest : t.g d = if d = 0 then {} else ⟨v, psn⟩
  others : ∀ r, r ≠ d → t.g r = s.g r

/-- The whole effect of an instruction that writes `v` to `d` and flags to FPCTL: the register, the program counter `len` bytes
on, FPCTL; every other register, special register, trap register and wait of the sequencer, every other core, every byte of
memory and all the device as before. -/
structure Wrote (s t : State) (d : Reg) (v : Word) (psn : Bool) (len : Nat) (fpctl : Word) : Prop where
  reg : WroteReg s t d v psn
  seq : t.q = { s.q with regs := t.q.regs, pc := s.q.pc + BitVec.ofNat 64 len, fpctl := fpctl }
  only : OnlySeq s t

/-- The whole effect of an instruction that only moves the program counter to `pc`. -/
structure Went (s t : State) (pc : Word) : Prop where
  seq : t.q = { s.q with pc := pc }
  only : OnlySeq s t

/-- The whole effect of taking a synchronous trap with TVEC.EN = 1 where no trace of it is made (R229): TEPC holds the trapping
instruction's address, TCAUSE and TVAL the trap's, EN is clear, and execution goes on at VEC × 4. -/
structure Trapped (s t : State) (x : Trap) : Prop where
  seq : t.q = { s.q with
    tepc := s.q.pc, tcause := x.cause, tval := x.tval, tvec := s.q.tvec.put 0 0 0, inHandler := true
    pc := BitVec.ofNat 64 (s.q.tvec.fld 63 2 * 4), wait := .none }
  cur : t.cur = { s.cur with mstate := .running, seq := t.q }
  cores : ∀ c, c ≠ s.core → t.getCore c = s.getCore c
  device : { t with cores := s.cores } = s
  bytes : SameBytes s t

/-- Of the cores only the executing sequencer may differ, what the L1s hold (R67), and what the executing member has read early (R272). -/
structure OnlySeqAndL1 (s t : State) : Prop where
  core : t.cur = { s.cur with seq := t.q, l1 := t.cur.l1, early := t.cur.early }
  cores : ∀ c, c ≠ s.core → t.getCore c = { s.getCore c with l1 := (t.getCore c).l1 }

/-- Of the cores only the executing sequencer and its member's state may differ, what the L1s hold, and what the member has read early. -/
structure OnlyMemberAndL1 (s t : State) : Prop where
  core : t.cur = { s.cur with seq := t.q, mstate := t.cur.mstate, l1 := t.cur.l1, early := t.cur.early }
  cores : ∀ c, c ≠ s.core → t.getCore c = { s.getCore c with l1 := (t.getCore c).l1 }

/-- Of the whole machine only the executing sequencer may differ, and what an access leaves in the L1s, the L2 and the directory (R67,
R365, R384); every partition's registers read as before. -/
structure OnlyAccess (s t : State) : Prop where
  cores : OnlySeqAndL1 s t
  parts : ∀ p, t.getPart p = s.getPart p
  device : { t with cores := s.cores, parts := s.parts, l2 := s.l2, lines := s.lines, evicting := s.evicting } = s
  bytes : SameBytes s t

/-- The whole effect of a load that gives `v` to `d`: of the L1s only the executing core's takes the line. -/
structure Loaded (s t : State) (d : Reg) (v : Word) : Prop where
  reg : WroteReg s t d v false
  seq : t.q = { s.q with regs := t.q.regs, pc := s.q.pc + 4 }
  only : OnlyAccess s t
  others : ∀ c, c ≠ s.core → t.getCore c = s.getCore c

/-- What a store changes as it leaves the sequencer, before its home performs it: the sequencer, the caches as any access does, the
agenda, the list of stores on their way, and the oracle of timing that chose between them. No byte of memory changes yet. -/
structure OnlyStore (s t : State) : Prop where
  cores : OnlySeqAndL1 s t
  parts : ∀ p, t.getPart p = s.getPart p
  device : { t with cores := s.cores, parts := s.parts, l2 := s.l2, lines := s.lines, evicting := s.evicting, agenda := s.agenda, way := s.way, oracle := s.oracle } = s
  bytes : SameBytes s t

/-- The bytes of `r` from `a` to `a + n - 1` are those of `v`, lowest first (R6), and every byte outside them is as in `r0`. -/
def StoredAt (r0 r : Ram) (a n v : Nat) : Prop :=
  (∀ i, i < n → (r.byte (a + i)).toNat = v / 256 ^ i % 256) ∧ ∀ x, x < a ∨ a + n ≤ x → r.byte x = r0.byte x

/-- The address of the write-log record that a write of device memory for a task makes (R355): none where the task is none or
irrevocable, or the partition's log is off, full or not in device memory. -/
def State.logAt (s : State) (part task : Nat) : Option Nat :=
  let p := s.getPart part
  let a := p.wlcfg.fld 51 12 * 4096 + 256 * p.freeRecord
  if task = 0 ∨ (s.getTask task).irrevocable = true ∨ p.wlcfg.fld 63 52 = 0 ∨ p.logCapacity ≤ p.wlog.length ∨ placeOf a ≠ .hbm then none
  else some a

/-- An address outside the write-log record that a write for a task makes. -/
def State.outsideLog (s : State) (part task x : Nat) : Prop := ∀ a, s.logAt part task = some a → x < a ∨ a + 256 ≤ x

/-- An address outside every partition's write log (R354). -/
def State.outsideLogs (s : State) (x : Nat) : Prop :=
  ∀ p, let w := (s.getPart p).wlcfg
    x < w.fld 51 12 * 4096 ∨ w.fld 51 12 * 4096 + w.fld 63 52 * 2 ^ 26 ≤ x

/-- The words of a barrier object are sound (R64, R77). -/
def State.barSound (s : State) (cl off : Nat) : Prop :=
  s.chipWorst (.cm cl off) 16 = .clean ∧ ∀ w, w ∈ wordParts off 16 → s.chipWorst (.cm cl w.1) w.2 = .clean

/-- Device memory after a write for a task: the bytes from `a` to `a + n - 1` are those of `v`, lowest first, and every byte outside them
is as before, but for those of the write-log record that the write makes. -/
def StoredLogged (s : State) (part task : Nat) (r : Ram) (a n v : Nat) : Prop :=
  (∀ i, i < n → (r.byte (a + i)).toNat = v / 256 ^ i % 256)
  ∧ ∀ x, x < a ∨ a + n ≤ x → s.outsideLog part task x → r.byte x = s.hbm.byte x

/-- An access of `n` bytes at `va` of KIND `kind` by the executing member that nothing stands in the way of: aligned, translated by
its TLB to `pa` in device memory that its partition owns, on a page that is neither CC nor RP nor host-coherent, with no error,
no lost line, no footprint there, and no store to those bytes held, or on its way from this core. -/
structure Reaches (s : State) (va : Word) (n kind : Nat) (leaf : Word) (pa : Nat) : Prop where
  aligned : va.toNat % n = 0
  cached : s.xlate s.core .seq s.me.part va kind = (.ok leaf pa, s)
  frame : s.frameOk s.me.part leaf pa = true
  place : placeOf pa = .hbm
  plain : leafType leaf ≠ 1 ∧ leafType leaf ≠ 3
  coherent : leafHc leaf = false
  free : s.heldOwn s.core pa n = false ∧ s.mustHold pa n = false
  sound : s.hbm.worst pa n = .clean
  kept : s.lost.contains (pa / 128) = false
  foot : s.inFootprint pa n = false
  open' : s.isSealed pa = false
  goes : s.q.wait = .none

/-- The member is neither debugged nor replayed: no value that enters it is recorded or replaced (R399, R400). -/
def State.unwatched (s : State) : Bool := !s.me.dbg && s.cur.replay.isNone

/-- A trap can be taken by the executing member, and makes no trace record. -/
def State.canTrap (s : State) : Bool := s.q.tvec.bit 0 && !s.traces s.core 6

/-! ### Element operations -/

/-- An element entry that issues and takes effect (R45), no lane-slice word among its operands being in error. -/
structure Issues (s : State) (e : Entry) : Prop where
  live : s.xLive = true
  takes : s.takesEffect e = .ok true
  clean : s.laneMark e = .clean

/-- Of the whole machine only the copy whose element issues may differ; every partition's registers read as before. -/
structure OnlyCopy (s t : State) : Prop where
  device : { t with stamps := s.stamps, parts := s.parts } = s
  parts : ∀ p, t.getPart p = s.getPart p
  stamps : ∀ i, i ≠ s.issue.stamp → t.getStamp i = s.getStamp i
  stamp : t.xStamp = { s.xStamp with copies := t.xStamp.copies }
  copies : ∀ c, c ≠ s.issue.copy → t.xStamp.copy c = s.xStamp.copy c
  bytes : SameBytes s t

/-- Of the whole machine only the copy whose element issues may differ, and what a memory access leaves in the L1s, the L2, the
directory, the banks in use in this cycle and the oracle of timing; every partition's registers read as before. -/
structure OnlyCopyAccess (s t : State) : Prop where
  device : { t with cores := s.cores, stamps := s.stamps, parts := s.parts, l2 := s.l2, lines := s.lines, evicting := s.evicting, bankUse := s.bankUse, oracle := s.oracle } = s
  cores : ∀ c, t.getCore c = { s.getCore c with l1 := (t.getCore c).l1 }
  parts : ∀ p, t.getPart p = s.getPart p
  stamps : ∀ i, i ≠ s.issue.stamp → t.getStamp i = s.getStamp i
  stamp : t.xStamp = { s.xStamp with copies := t.xStamp.copies }
  copies : ∀ c, c ≠ s.issue.copy → t.xStamp.copy c = s.xStamp.copy c
  bytes : SameBytes s t

/-- One result more is in flight (R46, R146): it lands `lat` cycles after the issue in the element's latch as `v` placed in
format `tag` with poison `psn`, and is written to row-file entry WI where `we` and driven on the buses of DR and DC. -/
def InFlight (s t : State) (e : Entry) (lat : Nat) (v : Word) (tag : BitVec 4) (psn we : Bool) : Prop :=
  ∃ f : Flight, t.xCopy.reg.inflight = s.xCopy.reg.inflight ++ [f] ∧ f.due = s.xTime + lat ∧ f.elem = s.xElem
    ∧ f.val = some ⟨place tag.toNat v.toNat, tag, psn⟩ ∧ f.fault = false ∧ f.late = none ∧ f.we = we ∧ f.dr = e.dr.toNat
    ∧ f.dc = e.dc.toNat ∧ (we = true → f.wi = e.wi.toNat)

/-- The whole effect of an entry that delivers a result. -/
structure Delivered (s t : State) (e : Entry) (lat : Nat) (v : Word) (tag : BitVec 4) (psn we : Bool) : Prop where
  flight : InFlight s t e lat v tag psn we
  copy : t.xCopy = { s.xCopy with
    reg := { s.xCopy.reg with inflight := t.xCopy.reg.inflight }, nextId := s.xCopy.nextId + 1 }
  only : OnlyCopy s t

/-- A region faults with `x` (R147, R213): its stamp is faulted with the cause, no copy of it goes on and nothing of it is in
flight, the loading core's sequencer holds the trap with SRC 1 and the copy's handle in its place among the traps it holds (R229, R324), every other core, every other stamp and every
byte of memory is as before. -/
structure RegionFaulted (s t : State) (x : Trap) : Prop where
  cores : ∀ c, c ≠ s.xStamp.core → t.getCore c = s.getCore c
  state : t.xStamp.state = .faulted x.code
  ended : ∀ c, c ∈ t.xStamp.copies → c.done = true ∧ c.reg.inflight = []
  trap : (t.getCore s.xStamp.core).seq.traps
    = insertTrap ⟨s.trapKey s.xStamp.core, { x with src := 1, unit := s.xCopy.handle }⟩ (s.getCore s.xStamp.core).seq.traps
  stamps : ∀ i, i ≠ s.issue.stamp → t.getStamp i = s.getStamp i
  bytes : SameBytes s t

end Machine

/-- A binary32 result `y` lies within `b` units in the last place of a true value `t`, in units of 2^-640, or with b = 0 is one of the two
values that bracket it (R97, R98); a true value beyond the format gives infinity. -/
def Fp.nearBy (b y : Nat) (t : Int) : Prop :=
  if 2 ^ (places + 128) ≤ t.natAbs then y = f32At (decide (t < 0)) f32.infBits
  else if b = 0 then
    let r : Int := (round f32 1 0 false false t.natAbs (-places) false).bits
    f32Mag r ≤ t.natAbs ∧ (t.natAbs : Int) < f32Mag (r + 1) ∧ (y = f32At (decide (t < 0)) r ∨ y = f32At (decide (t < 0)) (r + 1))
  else
    let ulp : Nat := 2 ^ (max (bitLen t.natAbs - 1 - 23) (places - 149))
    ∃ r : Int, (f32Mag r - (t.natAbs : Int)).natAbs ≤ b * ulp ∧ (y = f32At (decide (t < 0)) r ∨ r = 0 ∧ (y = 0 ∨ y = 2 ^ 31))

end Sys2Proof
end

