-- ==== Sys2Proof/Certificates/Slice0/Obligations.lean ====
section
/-!
DEFINITION. The statements for the provers.
-/

section

open Sys2Proof Sys2Proof.Machine

/-! ### The sequencer's integers -/

/-- R196 (all of its table), R195 (the result's poison), R193 (g0): every instruction of the integer group completes on every
operand value, writes its result, and changes nothing else but the program counter. -/
def Obligations.IntegerGroupResults : Prop :=
  ∀ (s : State) (d a b : Reg),
    let x := (s.g a).val
    let y := (s.g b).val
    let gives (i : Instr) (p : Bool) (is : Word → Prop) : Prop :=
      Completes i s fun t => ∃ v, is v ∧ Wrote s t d v p 4 s.q.fpctl
    let two (i : Instr) (is : Word → Prop) : Prop := gives i ((s.g a).psn || (s.g b).psn) is
    two (.add d a b) (fun v => v = x + y) ∧ two (.sub d a b) (fun v => v = x - y) ∧ two (.mul d a b) (fun v => v = x * y)
    ∧ two (.mulh d a b) (fun v => v.toInt = x.toInt * y.toInt / 2 ^ 64)
    ∧ two (.mulhu d a b) (fun v => v.toNat = x.toNat * y.toNat / 2 ^ 64)
    ∧ two (.div d a b) (fun v => if y = 0 then v = BitVec.allOnes 64 else
        if x.toInt = -2 ^ 63 ∧ y.toInt = -1 then v.toInt = -2 ^ 63 else v.toInt = x.toInt.tdiv y.toInt)
    ∧ two (.divu d a b) (fun v => if y = 0 then v = BitVec.allOnes 64 else v.toNat = x.toNat / y.toNat)
    ∧ two (.rem d a b) (fun v => if y = 0 then v = x else v.toInt = x.toInt.tmod y.toInt)
    ∧ two (.remu d a b) (fun v => if y = 0 then v = x else v.toNat = x.toNat % y.toNat)
    ∧ two (.and d a b) (fun v => ∀ i, v.getLsbD i = (x.getLsbD i && y.getLsbD i))
    ∧ two (.or d a b) (fun v => ∀ i, v.getLsbD i = (x.getLsbD i || y.getLsbD i))
    ∧ two (.xor d a b) (fun v => ∀ i, v.getLsbD i = (x.getLsbD i != y.getLsbD i))
    ∧ two (.andn d a b) (fun v => ∀ i, v.getLsbD i = (x.getLsbD i && !y.getLsbD i))
    ∧ two (.sll d a b) (fun v => v.toNat = x.toNat * 2 ^ (y.toNat % 64) % 2 ^ 64)
    ∧ two (.srl d a b) (fun v => v.toNat = x.toNat / 2 ^ (y.toNat % 64))
    ∧ two (.sra d a b) (fun v => v.toInt = x.toInt / 2 ^ (y.toNat % 64))
    ∧ two (.rot d a b) (fun v => v = x.rotateLeft (y.toNat % 64))
    ∧ two (.slt d a b) (fun v => v = if x.toInt < y.toInt then 1 else 0)
    ∧ two (.sltu d a b) (fun v => v = if x.toNat < y.toNat then 1 else 0)
    ∧ two (.min d a b) (fun v => v.toInt = min x.toInt y.toInt) ∧ two (.max d a b) (fun v => v.toInt = max x.toInt y.toInt)
    ∧ two (.minu d a b) (fun v => v.toNat = min x.toNat y.toNat) ∧ two (.maxu d a b) (fun v => v.toNat = max x.toNat y.toNat)
    ∧ gives (.clz d a) (s.g a).psn (fun v => v.toNat ≤ 64 ∧ (∀ i, 64 - v.toNat ≤ i → x.getLsbD i = false)
        ∧ (v.toNat < 64 → x.getLsbD (63 - v.toNat) = true))
    ∧ gives (.popc d a) (s.g a).psn (fun v => v.toNat = ((List.range 64).filter fun i => x.getLsbD i).length)

/-- R197, R142 and R198, with R195 and R193: the I-format immediates, and the long immediates, whose next instruction lies 8 bytes
on; LIWH reads gd, and so its poison. -/
def Obligations.IntegerImmediateResults : Prop :=
  ∀ (s : State) (d a : Reg) (imm : BitVec 16) (n : BitVec 6) (wide : BitVec 32),
    let x := (s.g a).val
    let gives (i : Instr) (is : Word → Prop) : Prop :=
      Completes i s fun t => ∃ v, is v ∧ Wrote s t d v (s.g a).psn 4 s.q.fpctl
    gives (.addi d a imm) (fun v => v = x + imm.signExtend 64)
    ∧ gives (.andi d a imm) (fun v => v = x &&& imm.setWidth 64) ∧ gives (.ori d a imm) (fun v => v = x ||| imm.setWidth 64)
    ∧ gives (.xori d a imm) (fun v => v = x ^^^ imm.setWidth 64)
    ∧ gives (.slti d a imm) (fun v => v = if x.toInt < imm.toInt then 1 else 0)
    ∧ gives (.sltiu d a imm) (fun v => v = if x.toNat < (imm.signExtend 64).toNat then 1 else 0)
    ∧ gives (.slli d a n) (fun v => v.toNat = x.toNat * 2 ^ n.toNat % 2 ^ 64)
    ∧ gives (.srli d a n) (fun v => v.toNat = x.toNat / 2 ^ n.toNat) ∧ gives (.srai d a n) (fun v => v.toInt = x.toInt / 2 ^ n.toNat)
    ∧ gives (.roti d a n) (fun v => v = x.rotateLeft n.toNat)
    ∧ (Completes (.lui d imm) s fun t => ∃ v : Word, v.toInt = imm.toInt * 2 ^ 16 ∧ Wrote s t d v false 4 s.q.fpctl)
    ∧ (Completes (.liw d wide) s fun t => ∃ v : Word, v.toInt = wide.toInt ∧ Wrote s t d v false 8 s.q.fpctl)
    ∧ (Completes (.liwh d wide) s fun t => ∃ v : Word, v.toNat = wide.toNat * 2 ^ 32 + (s.g d).val.toNat % 2 ^ 32
        ∧ Wrote s t d v (s.g d).psn 8 s.q.fpctl)
    ∧ (Completes (.addiw d a wide) s fun t => Wrote s t d ((s.g a).val + wide.signExtend 64) (s.g a).psn 8 s.q.fpctl)

/-! ### The sequencer's floats -/

/-- R199 (results and flags), R87 (the flags are sticky in FPCTL): the instructions that round complete on every operand value;
the result is that of the exact-then-rounded operation on the decoded operands in the mode of DYN and RM, the flags it raises are
added to FPCTL, and nothing else changes. -/
def Obligations.FloatRoundingResults : Prop :=
  ∀ (s : State) (f src : FpFmt) (r : FpRound) (d a b : Reg),
    let m := modeOf s r
    let x := s.fval f a
    let y := s.fval f b
    let gives (i : Instr) (z : Fp.Res) (psn : Bool) : Prop :=
      Completes i s fun t => Wrote s t d (BitVec.ofNat 64 z.bits) psn 4 (addFlags s.q.fpctl z.flags)
    let p2 := (s.g a).psn || (s.g b).psn
    m < 5 ∧ (r.dyn = false → r.rm.toNat < 5 → m = r.rm.toNat) ∧ (r.dyn = true → fpRm s.q.fpctl < 5 → m = fpRm s.q.fpctl)
    ∧ gives (.fadd f r d a b) (Fp.addV (fmtOf f) m x y) p2 ∧ gives (.fsub f r d a b) (Fp.addV (fmtOf f) m x y.neg) p2
    ∧ gives (.fmul f r d a b) (Fp.mulV (fmtOf f) m x y) p2 ∧ gives (.fdiv f r d a b) (Fp.divV (fmtOf f) m x y) p2
    ∧ gives (.fsqrt f r d a) (Fp.sqrtV (fmtOf f) m x) (s.g a).psn
    ∧ gives (.fma f r d a b) (Fp.fmaV (fmtOf f) m x y (s.fval f d)) (p2 || (s.g d).psn)
    ∧ gives (.itof f r d a) (Fp.ofInt (fmtOf f) m (s.g a).val.toInt) (s.g a).psn
    ∧ gives (.fcvt f r d a src) (Fp.convert (fmtOf f) m 0 false (s.fval src a)) (s.g a).psn
    ∧ (Completes (.ftoi f r d a) s fun t => ∃ v : Word, v.toInt = (Fp.toInt 64 m x).1
        ∧ Wrote s t d v (s.g a).psn 4 (addFlags s.q.fpctl (Fp.toInt 64 m x).2))

/-- R199, R176: the float instructions that do not round complete on every operand value. Comparisons write 1 or 0, with NV for a
signalling NaN, and for FLT and FLE for every NaN; FMIN and FMAX give the canonical NaN for a NaN operand, else one of the operands,
−0 below +0; FCLASS writes the class mask of R176, read from the operand's exponent, fraction and sign; FNEG and FABS change the sign
bit only, set no flag, and give the canonical NaN for a NaN. Nothing else changes. -/
def Obligations.FloatSelectResults : Prop :=
  ∀ (s : State) (f : FpFmt) (d a b : Reg),
    let g := fmtOf f
    let x := s.fval f a
    let y := s.fval f b
    let p2 := (s.g a).psn || (s.g b).psn
    let gives (i : Instr) (v : Nat) (psn nv : Bool) : Prop :=
      Completes i s fun t => Wrote s t d (BitVec.ofNat 64 v) psn 4 (addFlags s.q.fpctl { nv := nv })
    let bits (r : Reg) : Nat := (s.g r).val.toNat % 2 ^ g.width
    let one (c : Bool) : Nat := if c then 1 else 0
    let neg := bits a / 2 ^ (g.width - 1) % 2 = 1
    let ex := bits a / 2 ^ g.fb % 2 ^ g.eb
    let fr := bits a % 2 ^ g.fb
    let mask : Nat :=
      if ex = 2 ^ g.eb - 1 then
        if fr = 0 then (if neg then 2 ^ 0 else 2 ^ 7) else if fr / 2 ^ (g.fb - 1) = 0 then 2 ^ 8 else 2 ^ 9
      else if ex = 0 then
        if fr = 0 then (if neg then 2 ^ 3 else 2 ^ 4) else if neg then 2 ^ 2 else 2 ^ 5
      else if neg then 2 ^ 1 else 2 ^ 6
    gives (.feq f d a b) (one (!x.isNan && !y.isNan && Fp.eqV x y)) p2 (x.snan || y.snan)
    ∧ gives (.flt f d a b) (one (!x.isNan && !y.isNan && Fp.ltV x y)) p2 (x.isNan || y.isNan)
    ∧ gives (.fle f d a b) (one (!x.isNan && !y.isNan && (Fp.ltV x y || Fp.eqV x y))) p2 (x.isNan || y.isNan)
    ∧ gives (.fmin f d a b) (if x.isNan || y.isNan then g.nanBits else if Fp.totalLt y x then bits b else bits a) p2
        (x.snan || y.snan)
    ∧ gives (.fmax f d a b) (if x.isNan || y.isNan then g.nanBits else if Fp.totalLt x y then bits b else bits a) p2
        (x.snan || y.snan)
    ∧ (Completes (.fclass f d a) s fun t => Wrote s t d (BitVec.ofNat 64 mask) (s.g a).psn 4 s.q.fpctl)
    ∧ (Completes (.fneg f d a) s fun t => ∃ v : Word,
        (if x.isNan then v.toNat = g.nanBits else v.toNat < 2 ^ g.width
          ∧ ∀ i, i < g.width → v.getLsbD i = ((s.g a).val.getLsbD i != decide (i + 1 = g.width)))
        ∧ Wrote s t d v (s.g a).psn 4 s.q.fpctl)
    ∧ (Completes (.fabs f d a) s fun t => ∃ v : Word,
        (if x.isNan then v.toNat = g.nanBits else v.toNat < 2 ^ g.width
          ∧ ∀ i, i < g.width → v.getLsbD i = ((s.g a).val.getLsbD i && decide (i + 1 ≠ g.width)))
        ∧ Wrote s t d v (s.g a).psn 4 s.q.fpctl)

/-! ### Branches and jumps -/

/-- R200 with R134 (targets): a conditional branch goes to its own address plus sext(off16) × 4 when its condition holds and to
the next instruction otherwise, and changes nothing else. J and JAL go to their own address plus sext(off26) × 4; JAL writes its own
address plus 4 to g31; JALR forms its target from the base before it writes gd. R143: a misaligned JALR target raises the alignment fault and
writes nothing. (A poisoned operand in a class-D kernel is not meant here; R195's fault for it is PoisonedOperandFaults.) -/
def Obligations.BranchesAndJumps : Prop :=
  ∀ (s : State) (d a b : Reg) (imm : BitVec 16) (off : BitVec 26), ((s.g a).psn = false ∧ (s.g b).psn = false ∨ s.kclass ≠ 1) →
    let x := (s.g a).val
    let y := (s.g b).val
    let goes (i : Instr) (c : Prop) : Prop := Completes i s fun t =>
      (c → Went s t (s.q.pc + imm.signExtend 64 * 4)) ∧ (¬ c → Went s t (s.q.pc + 4))
    let target := x + imm.signExtend 64
    let links (i : Instr) (r : Reg) (p : Bool) (pc : Word) : Prop := Completes i s fun t =>
      WroteReg s t r (s.q.pc + 4) p ∧ t.q = { s.q with regs := t.q.regs, pc := pc } ∧ OnlySeq s t
    goes (.beq a b imm) (x = y) ∧ goes (.bne a b imm) (x ≠ y) ∧ goes (.blt a b imm) (x.toInt < y.toInt)
    ∧ goes (.bge a b imm) (y.toInt ≤ x.toInt) ∧ goes (.bltu a b imm) (x.toNat < y.toNat) ∧ goes (.bgeu a b imm) (y.toNat ≤ x.toNat)
    ∧ (Completes (.j off) s fun t => Went s t (s.q.pc + off.signExtend 64 * 4))
    ∧ links (.jal off) 31 false (s.q.pc + off.signExtend 64 * 4)
    ∧ (target.toNat % 4 = 0 → links (.jalr d a imm) d (s.g a).psn target)
    ∧ (target.toNat % 4 ≠ 0 → s.canTrap = true → Completes (.jalr d a imm) s fun t => Trapped s t { code := 4, tval := target })

/-! ### Traps -/

/-- R229, R230, R227: `TRAP n` with EN = 1: TEPC is its own address, TCAUSE has CODE 1, DETAIL n, SRC 0 and UNIT 0, TVAL is 0, EN is
cleared, VEC and every other register stay, and execution goes on at VEC × 4. -/
def Obligations.TrapEntersHandler : Prop :=
  ∀ (s : State) (n : BitVec 5), s.canTrap = true →
    Completes (.trap n) s fun t =>
      t.q.tepc = s.q.pc ∧ t.q.tcause.fld 7 0 = 1 ∧ t.q.tcause.fld 31 24 = n.toNat ∧ t.q.tcause.fld 23 8 = 0
      ∧ t.q.tcause.fld 63 32 = 0 ∧ t.q.tval = 0 ∧ t.q.tvec.bit 0 = false ∧ t.q.tvec.fld 63 1 = s.q.tvec.fld 63 1
      ∧ t.q.pc.toNat = s.q.tvec.fld 63 2 * 4 ∧ t.q.inHandler = true
      ∧ Trapped s t { code := 1, detail := n.toNat }

/-- R229, R30, R322, R325, R353: a synchronous trap with EN = 0 cannot be held, whichever instruction raises it (a `TRAP`, an illegal
word, a system register of the device, a poisoned operand in a class-D kernel, a misaligned target or access, an access that the frame
check refuses): the member enters Faulted with the cause and value kept in TCAUSE and TVAL, and a class-1 record is presented with the
trap's value, code and detail, with which the abort of its task follows once it is taken (SaigaSteps); the barriers it counts in break
next, unless it runs in a replay, whose fault goes no further than its record (R400; log entry 18, DESIGN CHOICE). The program counter,
the general registers, every byte of memory and the rest of the device stay. -/
def Obligations.TrapFaultsMember : Prop :=
  ∀ (s : State) (n : BitVec 5) (w : BitVec 32) (d a b : Reg) (imm : BitVec 16) (k : BitVec 12), s.q.tvec.bit 0 = false →
    let faulted (i : Instr) (x : Trap) : Prop := Completes i s fun t =>
      t.cur = { s.cur with mstate := .faulted, seq := t.q }
      ∧ t.q = { s.q with tcause := x.cause, tval := x.tval, wait := .none } ∧ SameBytes s t
      ∧ t.pending = s.pending ++ [⟨s.core, .saiga x.tval s.me.part 1 x.code x.detail x.unit x.src s.core⟩]
      ∧ t.agenda = (if s.cur.replay = none then [.event (.memberGone s.me.task s.me.memb)] else []) ++ s.agenda
      ∧ { t with cores := s.cores, pending := s.pending, agenda := s.agenda } = s
      ∧ ∀ c, c ≠ s.core → t.getCore c = s.getCore c
    let va := (s.g a).val + imm.signExtend 64
    faulted (.trap n) { code := 1, detail := n.toNat } ∧ faulted (.evIllegalInstruction w) { code := 2, tval := w.setWidth 64 }
    ∧ (0x400 ≤ k.toNat → faulted (.srr d k) { code := 8 } ∧ faulted (.srw k a) { code := 8 })
    ∧ (s.kclass = 1 → (s.g a).psn = true → faulted (.beq a b imm) { code := 12 } ∧ faulted (.jalr d a imm) { code := 12 }
        ∧ faulted (.ldD d a imm) { code := 12 } ∧ faulted (.stD b a imm) { code := 12 })
    ∧ ((s.g a).psn = false ∨ s.kclass ≠ 1 →
        (va.toNat % 4 ≠ 0 → faulted (.jalr d a imm) { code := 4, tval := va })
        ∧ (va.toNat % 8 ≠ 0 → faulted (.ldD d a imm) { code := 4, tval := va } ∧ faulted (.stD b a imm) { code := 4, tval := va })
        ∧ ∀ leaf pa s1, va.toNat % 8 = 0 → s.frameOk s.me.part leaf pa = false →
            (s.xlate s.core .seq s.me.part va 0 = (.ok leaf pa, s1) → faulted (.ldD d a imm) { code := 5, tval := va })
            ∧ (s.xlate s.core .seq s.me.part va 1 = (.ok leaf pa, s1) → faulted (.stD b a imm) { code := 5, tval := va }))

/-- R230, R143, R397: `TRET` with EN = 0 sets EN and goes on at TEPC, out of the handler; with EN = 1 it is an illegal instruction.
`BRK` in a task not launched with debugging has no effect; in one that was it moves on, and the stop is detected next: the member holds
in place, and its gang's freeze is set for a tick no more than 2 µs later (the tick a choice of timing: log entry 5, DESIGN CHOICE). A
word that encodes no instruction raises the illegal-instruction trap with the word in TVAL. -/
def Obligations.TrapReturnAndBreak : Prop :=
  ∀ (s : State) (w : BitVec 32),
    (s.q.tvec.bit 0 = false → Completes .tret s fun t =>
      t.q.pc = s.q.tepc ∧ t.q.tvec.bit 0 = true ∧ t.q.tvec.fld 63 1 = s.q.tvec.fld 63 1
      ∧ t.q = { s.q with tvec := t.q.tvec, inHandler := false, pc := s.q.tepc } ∧ OnlySeq s t)
    ∧ (s.canTrap = true → Completes .tret s fun t => Trapped s t { code := 2, tval := 0x080000A0 })
    ∧ (s.me.dbg = false → Completes .brk s fun t => Went s t (s.q.pc + 4))
    ∧ (s.me.dbg = true → Completes .brk s fun t =>
        t.q = { s.q with pc := s.q.pc + 4 } ∧ t.cur = { s.cur with seq := t.q } ∧ t.agenda = .event (.debugStop s.core .brk) :: s.agenda
        ∧ { t with cores := s.cores, agenda := s.agenda } = s ∧ (∀ c, c ≠ s.core → t.getCore c = s.getCore c) ∧ SameBytes s t
        ∧ (s.cur.replay = none → s.cur.live = true → (s.getTask s.me.task).state = .running → (s.getTask s.me.task).stop = .none →
            (s.getTask s.me.task).stopAt = none → ∃ u f, step t = .next u ∧ u.cur.stopHold = true
              ∧ (u.getTask s.me.task).stopAt = some f ∧ s.tick ≤ f ∧ f ≤ s.tick + 2000 ∧ SameBytes s u))
    ∧ (s.canTrap = true → Completes (.evIllegalInstruction w) s fun t => Trapped s t { code := 2, tval := w.setWidth 64 })

/-- R195: in a class-D kernel a poisoned address register, branch operand, JALR base, trip count, copy index, barrier handle or
SRW value raises the data-error fault, precisely and before any effect. -/
def Obligations.PoisonedOperandFaults : Prop :=
  ∀ (s : State) (d a b : Reg) (imm : BitVec 16) (rg : BitVec 4) (n : BitVec 12) (o : AmoOrd) (sc : Scope) (z : Size) (w : Bool),
    s.canTrap = true → s.kclass = 1 → (s.g a).psn = true → s.q.wait = .none →
    let faults (i : Instr) : Prop := Completes i s fun t => Trapped s t { code := 12 }
    faults (.beq a b imm) ∧ faults (.bltu b a imm) ∧ faults (.jalr d a imm) ∧ faults (.ldD d a imm) ∧ faults (.stD b a imm)
    ∧ faults (.amoAdd o sc w d a b) ∧ faults (.ldAcq sc z d a) ∧ faults (.stRel sc z a b)
    ∧ (s.cur.preempt = false → faults (.phase rg a))
    ∧ faults (.cfgInfo d a rg) ∧ faults (.bar a) ∧ (n.toNat = 0x30 → faults (.srw n a))

/-! ### System registers -/

/-- R223, R224, R225: `SRR` gives each listed member register's value, with MID and TASKID laid out as R225 says, and clears the
poison of gd. -/
def Obligations.SystemRegisterReads : Prop :=
  ∀ (s : State) (d : Reg), s.unwatched = true →
    let gives (n : Nat) (is : Word → Prop) : Prop :=
      Completes (.srr d (BitVec.ofNat 12 n)) s fun t => ∃ v, is v ∧ Wrote s t d v false 4 s.q.fpctl
    gives 0 (fun v => v = s.q.fpctl) ∧ gives 1 (fun v => v = s.q.mcc) ∧ gives 2 (fun v => v = BitVec.ofNat 64 s.tick)
    ∧ gives 3 (fun v => v = s.q.drstat) ∧ gives 4 (fun v => v = (s.getPart s.me.part).ebud)
    ∧ gives 5 (fun v => v.fld 63 40 = 0 ∧ v.fld 39 32 = s.me.firstCore % 2 ^ 8 ∧ v.fld 31 20 = s.me.pkg % 2 ^ 12 ∧ v.fld 19 19 = 0
        ∧ v.fld 18 0 = s.me.memb % 2 ^ 19)
    ∧ gives 6 (fun v => v.fld 63 32 = s.me.task % 2 ^ 32 ∧ v.fld 31 29 = s.me.depth % 8 ∧ v.fld 28 27 = s.me.kclass % 4
        ∧ v.fld 26 16 = 0 ∧ v.fld 15 0 = s.me.part % 2 ^ 16)
    ∧ (∀ i, i < 16 → gives (0x10 + i) (fun v => v = Store.get wpReset s.cur.wp i))
    ∧ (∀ i, i < 8 → gives (0x20 + i) (fun v => v = Store.get 0 s.q.spm i))
    ∧ gives 0x30 (fun v => v = s.q.tvec) ∧ gives 0x31 (fun v => v = s.q.tepc) ∧ gives 0x32 (fun v => v = s.q.tcause)
    ∧ gives 0x33 (fun v => v = s.q.tval)

/-- R223, R87, R227, R7: what `SRW` does to each writable register: FPCTL (W1C flags, RM unchanged by 6 and 7), TVEC (bit 1 stays 0),
TEPC (bits 1:0 zero), SPM0 to SPM7; a read-only register is not changed; and of the sequencer nothing else is. -/
def Obligations.SystemRegisterWrites : Prop :=
  ∀ (s : State) (a : Reg), ((s.g a).psn = false ∨ s.kclass ≠ 1) →
    let v := (s.g a).val
    let makes (n : Nat) (is : State → Prop) : Prop :=
      Completes (.srw (BitVec.ofNat 12 n) a) s fun t => is t ∧ t.q.pc = s.q.pc + 4 ∧ OnlySeq s t
    makes 0 (fun t => (∀ i, t.q.fpctl.getLsbD i = if 32 ≤ i then v.getLsbD i else if 8 ≤ i then s.q.fpctl.getLsbD i
        else if 3 ≤ i then (s.q.fpctl.getLsbD i && !v.getLsbD i)
        else if v.toNat % 8 < 6 then v.getLsbD i else s.q.fpctl.getLsbD i)
      ∧ t.q = { s.q with fpctl := t.q.fpctl, pc := t.q.pc })
    ∧ makes 0x30 (fun t => (∀ i, t.q.tvec.getLsbD i = (v.getLsbD i && decide (i ≠ 1)))
      ∧ t.q = { s.q with tvec := t.q.tvec, pc := t.q.pc, inHandler := s.q.inHandler && !v.getLsbD 0 })
    ∧ makes 0x31 (fun t => (∀ i, t.q.tepc.getLsbD i = (v.getLsbD i && decide (2 ≤ i)))
      ∧ t.q = { s.q with tepc := t.q.tepc, pc := t.q.pc })
    ∧ (s.phaseRuns = false → ∀ i, i < 8 → makes (0x20 + i) fun t =>
        (∀ j, Store.get 0 t.q.spm j = if j = i then v else Store.get 0 s.q.spm j) ∧ t.q = { s.q with spm := t.q.spm, pc := t.q.pc })
    ∧ (∀ n, n ∈ [1, 2, 3, 4, 5, 6, 0x10, 0x1F, 0x32, 0x33] → makes n fun t => t.q = { s.q with pc := t.q.pc })

/-- R223, R216: `SRR` or `SRW` of a number from 0x400 on raises the privilege fault; of an unlisted lower number the
illegal-instruction trap with its own word; `SRW` of an SPM register while a phase of the member runs the region-busy trap with
DETAIL 1. Each has no other effect. -/
def Obligations.SystemRegisterTraps : Prop :=
  ∀ (s : State) (d a : Reg) (n : BitVec 12), s.canTrap = true →
    (0x400 ≤ n.toNat → (Completes (.srr d n) s fun t => Trapped s t { code := 8 })
      ∧ (Completes (.srw n a) s fun t => Trapped s t { code := 8 }))
    ∧ (n.toNat < 0x400 → sysRegOk n = false →
        (Completes (.srr d n) s fun t => Trapped s t { code := 2, tval := BitVec.ofNat 64 (0x1E * 2 ^ 26 + d.toNat * 2 ^ 21 + n.toNat) })
        ∧ (Completes (.srw n a) s fun t => Trapped s t { code := 2, tval := BitVec.ofNat 64 (0x1F * 2 ^ 26 + a.toNat * 2 ^ 16 + n.toNat) }))
    ∧ (0x20 ≤ n.toNat → n.toNat < 0x28 → s.phaseRuns = true →
        Completes (.srw n a) s fun t => Trapped s t { code := 18, detail := 1 })

/-! ### Memory accesses of the sequencer -/

/-- R201, R6, R77: a plain load whose address reaches device memory writes the little-endian number at it, sign-extended by LD.B,
LD.H and LD.W and zero-extended by LD.BU, LD.HU and LD.WU, with poison clear; the program counter moves on, and nothing else changes but what the
access leaves in the L1, the L2 and the directory. LD.ACQ (R203) sign-extends in the same way at every scope; at device and system
scope the cluster's clean copies go, and a demoted one notes it and, where the policy asks for it, raises the scope-policy trap after it
has completed (R206). A load that was performed early gives the bytes that it read then (R272). -/
def Obligations.LoadsDeliverMemory : Prop :=
  ∀ (s : State) (d a : Reg) (imm : BitVec 16) (leaf : Word) (pa : Nat) (sc : Scope),
    s.unwatched = true → ((s.g a).psn = false ∨ s.kclass ≠ 1) →
    let va := (s.g a).val + imm.signExtend 64
    let read (n : Nat) : Nat := match s.cur.earlyBytes pa n with
      | some bs => ofBytes bs
      | none => s.hbm.num pa n
    let signed (i : Instr) (n : Nat) : Prop := Reaches s va n 0 leaf pa →
      Completes i s fun t => ∃ v : Word, v.toInt = sextInt (8 * n) (read n) ∧ Loaded s t d v
    let unsigned (i : Instr) (n : Nat) : Prop := Reaches s va n 0 leaf pa →
      Completes i s fun t => ∃ v : Word, v.toNat = read n ∧ Loaded s t d v
    let wide (i : Instr) (n : Nat) : Prop := Reaches s va n 0 leaf pa →
      let post := { s.q.post with demoted := s.q.post.demoted || s.demotes sc }
      let gives (t : State) : Prop := (t.getCluster s.cluster).clean = [] ∧ OnlySeqAndL1 s t ∧ SameBytes s t
        ∧ ∃ v : Word, v.toInt = sextInt (8 * n) (read n) ∧ WroteReg s t d v false
      (s.strapOn sc = false → Completes i s fun t => gives t
        ∧ t.q = { s.q with regs := t.q.regs, pc := s.q.pc + 4, post := post })
      ∧ (s.strapOn sc = true → s.q.tvec.bit 0 = true → s.cur.mstate = .running → Completes i s fun t => gives t
        ∧ t.q = { s.q with
            regs := t.q.regs, post := post, tepc := s.q.pc + 4, tcause := Trap.cause { code := 21 }, tval := 0
            tvec := s.q.tvec.put 0 0 0, inHandler := true, pc := BitVec.ofNat 64 (s.q.tvec.fld 63 2 * 4) })
    signed (.ldB d a imm) 1 ∧ signed (.ldH d a imm) 2 ∧ signed (.ldW d a imm) 4 ∧ unsigned (.ldD d a imm) 8
    ∧ unsigned (.ldBu d a imm) 1 ∧ unsigned (.ldHu d a imm) 2 ∧ unsigned (.ldWu d a imm) 4
    ∧ (imm = 0 → sc = .core ∨ sc = .clus →
        signed (.ldAcq sc .b d a) 1 ∧ signed (.ldAcq sc .h d a) 2 ∧ signed (.ldAcq sc .w d a) 4 ∧ unsigned (.ldAcq sc .d d a) 8)
    ∧ (imm = 0 → sc = .dev ∨ sc = .sys →
        wide (.ldAcq sc .b d a) 1 ∧ wide (.ldAcq sc .h d a) 2 ∧ wide (.ldAcq sc .w d a) 4 ∧ wide (.ldAcq sc .d d a) 8)

/-- R201, R125, R203: a plain store whose address reaches device memory, on a page without replicas, moves on and sends its low bytes to
the address's home, unacknowledged, with no byte of memory changed yet. It leaves at once, and the machine's next step performs it, or, by
a choice of timing and unless it is a base store, later (log entry 85), and its turn performs it: the stored bytes are those of the
register, lowest first, and every other byte of every memory stays, but for the write-log record that the write makes (R355). ST.REL does
the same once the member's earlier accesses are performed at its scope, and leaves at once; at device and system scope it is stated for a
cluster with no CC byte dirty and no push under way. -/
def Obligations.StoresReachTheirHome : Prop :=
  ∀ (s : State) (v a : Reg) (imm : BitVec 16) (leaf : Word) (pa : Nat) (sc : Scope),
    s.unwatched = true → ((s.g a).psn = false ∨ s.kclass ≠ 1) → ((s.g v).psn = false ∨ s.kclass ≠ 1) →
    s.homePkg pa = s.pkgNo → s.holdersOf pa = [] →
    let va := (s.g a).val + imm.signExtend 64
    let written (n : Nat) (st : StoreReq) (u : State) : Prop := StoredLogged s s.me.part s.me.task u.hbm pa n (s.g v).val.toNat
      ∧ SameBytesButHbm s u ∧ ∃ rest, u.agenda = rest ++ .event (.storeAcknowledged st .done) :: s.agenda
    let sent (n : Nat) (st : StoreReq) (t : State) : Prop := st.pa = pa ∧ st.data.length = n ∧ st.core = s.core ∧ st.src = .sequencer
      ∧ t.agenda = .event (.storeAtHome st) :: s.agenda ∧ t.way = s.way ∧ ∃ u, step t = .next u ∧ written n st u
    let moved (t : State) (p : PostStatus) : Prop := t.q = { s.q with pc := s.q.pc + 4, unacked := s.q.unacked + 1, post := p }
    let stores (i : Instr) (n : Nat) : Prop := Reaches s va n 1 leaf pa → s.homeReady pa n = true →
      (s.choice = 0 ∨ s.inBase pa n = true → Completes i s fun t => moved t s.q.post ∧ OnlyStore s t ∧ ∃ st, sent n st t)
      ∧ (s.choice ≠ 0 → s.inBase pa n = false → Completes i s fun t => moved t s.q.post ∧ OnlyStore s t ∧ t.agenda = s.agenda
          ∧ ∃ st : StoreReq, t.way = s.way ++ [st] ∧ st.pa = pa ∧ st.data.length = n
            ∧ (s.way = [] → ∃ u, runEv (.storeOnWay st) t = .next u ∧ u.way = [] ∧ written n st u))
    let releases (i : Instr) (n : Nat) : Prop := Reaches s va n 1 leaf pa → s.homeReady pa n = true → s.settled sc = true →
      (sc = .core ∨ sc = .clus → Completes i s fun t => moved t s.q.post ∧ OnlyStore s t ∧ ∃ st, sent n st t)
      ∧ (sc = .dev ∨ sc = .sys → (s.getCluster s.cluster).dirty = [] → s.pushing s.cluster = false → s.strapOn sc = false →
          Completes i s fun t => moved t { s.q.post with demoted := s.q.post.demoted || s.demotes sc } ∧ OnlySeqAndL1 s t ∧ SameBytes s t
            ∧ ∃ st, sent n st t)
    stores (.stB v a imm) 1 ∧ stores (.stH v a imm) 2 ∧ stores (.stW v a imm) 4 ∧ stores (.stD v a imm) 8
    ∧ (imm = 0 → releases (.stRel sc .b a v) 1 ∧ releases (.stRel sc .h a v) 2 ∧ releases (.stRel sc .w a v) 4
        ∧ releases (.stRel sc .d a v) 8)

/-- R202, R62, R63, R65: the scratch loads and stores of every size and level at an aligned offset inside the level, once its bank serves
it, until when it is held with no effect: a load is zero-extended; a store, outside the barrier objects of a shared memory (BarriersCountAndRelease), writes its bytes at that offset and no
other byte of any memory, and moves on. -/
def Obligations.ScratchAccesses : Prop :=
  ∀ (s : State) (lv : Level) (z : Size) (d a v : Reg) (off : BitVec 12) (loc : ScratchLoc),
    s.unwatched = true → ((s.g a).psn = false ∨ s.kclass ≠ 1) →
    let o := (s.g a).val + off.signExtend 64
    let n := sizeBytes z
    o.toNat % n = 0 → s.scratchLoc s.core s.me.part (levelNo lv) o = loc → loc ≠ .bad → (∀ x, loc ≠ .spill x) →
    (lv = .sp → loc = .core s.core o.toNat) ∧ (lv = .cm → loc = .cm (clusterOf s.core) o.toNat)
    ∧ (lv = .cp → loc = .cp ((s.getPart s.me.part).cpwin.fld 15 8 * 2 ^ 20 + o.toNat))
    ∧ (s.bankWait loc ≠ 0 → ∀ i, i = .scratchLoad lv z d a off ∨ i = .scratchStore lv z v a off →
        Completes i s fun t => t.q = { s.q with wait := .poll } ∧ SameBytes s t)
    ∧ (s.bankWait loc = 0 → s.chipWorst loc n = .clean → Completes (.scratchLoad lv z d a off) s fun t =>
        ∃ w : Word, w.toNat = (s.bank loc).1.num (s.bank loc).2 n ∧ Loaded (s.useBank loc) t d w)
    ∧ (s.bankWait loc = 0 → (lv = .cm → ∀ b, b ∈ (s.getCluster (clusterOf s.core)).objects → b + 16 ≤ o.toNat ∨ o.toNat + n ≤ b) →
        Completes (.scratchStore lv z v a off) s fun t =>
        t.q = { s.q with pc := s.q.pc + 4 } ∧ (t.bank loc).2 = (s.bank loc).2
        ∧ StoredAt (s.bank loc).1 (t.bank loc).1 (s.bank loc).2 n (s.g v).val.toNat
        ∧ (∀ x, t.hbm.byte x = s.hbm.byte x) ∧ (∀ x, t.host.byte x = s.host.byte x) ∧ (∀ x, t.saiga.byte x = s.saiga.byte x)
        ∧ (∀ x, lv ≠ .cp → t.cp.byte x = s.cp.byte x)
        ∧ (∀ c x, ¬ (lv = .sp ∧ c = s.core) → (t.getCore c).scratch.byte x = (s.getCore c).scratch.byte x)
        ∧ (∀ c, (t.getCore c).seq = if c = s.core then t.q else (s.getCore c).seq)
        ∧ (∀ k x, ¬ (lv = .cm ∧ k = clusterOf s.core) → (t.getCluster k).cm.byte x = (s.getCluster k).cm.byte x)
        ∧ ∀ k, (t.getCluster k).dirty = (s.getCluster k).dirty)

/-- R201, R202, R203, R204, R63: a misaligned load, store or atomic raises the alignment fault with its address (or scratch offset) in TVAL; a scratch
offset outside its level raises the scratch-range fault. Neither has any other effect. -/
def Obligations.MisalignedAccessesFault : Prop :=
  ∀ (s : State) (d a b : Reg) (imm : BitVec 16) (off : BitVec 12) (lv : Level) (z : Size) (o : AmoOrd) (sc : Scope) (w : Bool),
    s.canTrap = true → ((s.g a).psn = false ∨ s.kclass ≠ 1) →
    let va := (s.g a).val + imm.signExtend 64
    let so := (s.g a).val + off.signExtend 64
    let faults (i : Instr) (v : Word) : Prop := Completes i s fun t => Trapped s t { code := 4, tval := v }
    (va.toNat % 2 ≠ 0 → faults (.ldH d a imm) va ∧ faults (.ldHu d a imm) va ∧ faults (.stH b a imm) va)
    ∧ (va.toNat % 4 ≠ 0 → faults (.ldW d a imm) va ∧ faults (.ldWu d a imm) va ∧ faults (.stW b a imm) va)
    ∧ (va.toNat % 8 ≠ 0 → faults (.ldD d a imm) va ∧ faults (.stD b a imm) va)
    ∧ ((s.g a).val.toNat % sizeBytes z ≠ 0 → faults (.ldAcq sc z d a) (s.g a).val ∧ faults (.stRel sc z a b) (s.g a).val)
    ∧ ((s.g a).val.toNat % (if w then 4 else 8) ≠ 0 → faults (.amoAdd o sc w d a b) (s.g a).val ∧ faults (.amoCas o sc w d a b) (s.g a).val)
    ∧ (so.toNat % sizeBytes z ≠ 0 → faults (.scratchLoad lv z d a off) so ∧ faults (.scratchStore lv z b a off) so)
    ∧ (so.toNat % sizeBytes z = 0 → s.scratchLoc s.core s.me.part (levelNo lv) so = .bad →
        (Completes (.scratchLoad lv z d a off) s fun t => Trapped s t { code := 6, tval := so })
        ∧ (Completes (.scratchStore lv z b a off) s fun t => Trapped s t { code := 6, tval := so }))

/-- R348, R349, R350, R370: a load, store or atomic with no valid translation makes a page request of its KIND and waits, with no
other effect on the sequencer and none on memory; one whose frame its partition does not own raises the access fault. -/
def Obligations.UntranslatedAccessesWait : Prop :=
  ∀ (s : State) (d a b : Reg) (imm : BitVec 16) (sc : Scope) (w : Bool),
    ((s.g a).psn = false ∨ s.kclass ≠ 1) →
    let va := (s.g a).val + imm.signExtend 64
    let waits (i : Instr) (x : Word) (kind : Nat) : Prop := ∀ s1, s.xlate s.core .seq s.me.part x kind = (.missing, s1) →
      Completes i s fun t =>
        t.q = { s.q with wait := .page s.nextReq } ∧ t.nextReq = s.nextReq + 1
        ∧ (∃ r, r ∈ t.pageReqs ∧ r.id = s.nextReq ∧ r.va = x ∧ r.kind = kind ∧ r.part = s.me.part ∧ r.src = .sequencer s.core)
        ∧ (∀ y, t.hbm.byte y = s.hbm.byte y) ∧ (∀ c, c ≠ s.core → t.getCore c = s.getCore c) ∧ t.clusters = s.clusters
        ∧ t.agenda = s.agenda
    let faults (i : Instr) (x : Word) (kind : Nat) : Prop := ∀ leaf pa s1, s.canTrap = true →
      s.xlate s.core .seq s.me.part x kind = (.ok leaf pa, s1) → s.frameOk s.me.part leaf pa = false →
      Completes i s fun t => Trapped s t { code := 5, tval := x }
    let both (i : Instr) (x : Word) (n kind : Nat) : Prop := x.toNat % n = 0 → waits i x kind ∧ faults i x kind
    both (.ldB d a imm) va 1 0 ∧ both (.ldH d a imm) va 2 0 ∧ both (.ldW d a imm) va 4 0 ∧ both (.ldD d a imm) va 8 0
    ∧ both (.stB b a imm) va 1 1 ∧ both (.stH b a imm) va 2 1 ∧ both (.stW b a imm) va 4 1 ∧ both (.stD b a imm) va 8 1
    ∧ both (.ldAcq sc .d d a) (s.g a).val 8 0
    ∧ both (.amoAdd ⟨false, false⟩ sc w d a b) (s.g a).val (if w then 4 else 8) 3
    ∧ both (.amoCas ⟨false, false⟩ sc w d a b) (s.g a).val (if w then 4 else 8) 3

/-- R204, R280: an atomic of core or cluster scope on a page of type CO, outside every derived base, executes at once: gd receives
the old value (a word sign-extended, but for FADD.W placed as binary32), memory the new one, and every other byte of every memory
stays, but for the write-log record that the write makes (R355). CAS compares with gd. One of device or system scope goes to the address's home with its operands and waits there, with no byte changed
yet (StepsAtHomes says what the home does). -/
def Obligations.AtomicsUpdateMemory : Prop :=
  ∀ (s : State) (o : AmoOrd) (sc : Scope) (word : Bool) (d a b : Reg) (leaf : Word) (pa : Nat),
    s.unwatched = true → ((s.g a).psn = false ∨ s.kclass ≠ 1) → ((s.g b).psn = false ∨ s.kclass ≠ 1) → leafType leaf = 0 →
    let n := if word then 4 else 8
    Reaches s (s.g a).val n 3 leaf pa → s.inBase pa n = false →
    let w := 8 * n
    let old := s.hbm.num pa n
    let x := (s.g b).val.toNat % 2 ^ w
    let so := sextInt w old
    let sx := sextInt w x
    let f := if word then Fp.f32 else Fp.f64
    let does (i : Instr) (op : AmoOp) (new : Nat) (float : Bool) : Prop :=
      (sc = .core ∨ sc = .clus → o.rel = false ∨ s.settled sc = true → Completes i s fun t =>
        (∃ v : Word, (if word = false then v.toNat = old else if float then v.toNat = old else v.toInt = so) ∧ WroteReg s t d v false)
        ∧ t.q = { s.q with regs := t.q.regs, pc := s.q.pc + 4 } ∧ StoredLogged s s.me.part s.me.task t.hbm pa n new
        ∧ SameBytesButHbm s t ∧ OnlySeqAndL1 s t ∧ t.agenda = s.agenda)
      ∧ (sc = .dev ∨ sc = .sys → o.rel = false → Completes i s fun t =>
        t.q = { s.q with wait := .home } ∧ SameBytes s t ∧ OnlySeqAndL1 s t
        ∧ ∃ r : AtomReq, t.agenda = .event (.atomicAtHome r) :: s.agenda ∧ r.core = s.core ∧ r.op = op ∧ r.word = word ∧ r.pa = pa
            ∧ r.va = (s.g a).val ∧ r.operand = (s.g b).val ∧ r.compare = (s.g d).val ∧ r.rd = d ∧ r.inval = o.acq
            ∧ r.demoted = (o.acq && s.demotes sc))
    does (.amoAdd o sc word d a b) .add ((old + x) % 2 ^ w) false
    ∧ does (.amoAnd o sc word d a b) .and (old &&& x) false ∧ does (.amoOr o sc word d a b) .or (old ||| x) false
    ∧ does (.amoXor o sc word d a b) .xor (old ^^^ x) false
    ∧ does (.amoMin o sc word d a b) .min (if so < sx then old else x) false
    ∧ does (.amoMax o sc word d a b) .max (if so < sx then x else old) false
    ∧ does (.amoMinu o sc word d a b) .minu (min old x) false ∧ does (.amoMaxu o sc word d a b) .maxu (max old x) false
    ∧ does (.amoSwap o sc word d a b) .swap x false
    ∧ ((s.g d).psn = false ∨ s.kclass ≠ 1 →
        does (.amoCas o sc word d a b) .cas (if old = (s.g d).val.toNat % 2 ^ w then x else old) false)
    ∧ does (.amoFadd o sc word d a b) .fadd (Fp.addV f 0 (Fp.decode f old) (Fp.decode f x)).bits true

/-- R205, R206, R68: `FENCE` completes once the member's earlier accesses are performed at its scope, and is held until then. It writes the
status word, zero below system scope; `FENCE.SYS` reports the failed posted stores since the last one and clears them, with DEMOTED
where it or a release counted since was performed at tenant scope. At device and system scope the cluster's dirty CC bytes are pushed and its clean
copies dropped, and the fence waits on while a push has not reached the L2 (stated where none of the bytes is of a lost line, of a footprint or of
a write log, and none waits at the L2: R357, R124, R355, R372, R386). Where the policy asks for a trap, a demoted fence raises the scope-policy trap after it has completed, with TEPC at the next
instruction (a member with EN = 0 is Faulted by it). -/
def Obligations.FencesOrderAndReport : Prop :=
  ∀ (s : State) (sc : Scope) (d : Reg),
    let status (v : Word) : Prop := v.fld 63 56 = s.q.post.failCnt % 256 ∧ v.bit 55 = s.q.post.dead ∧ v.bit 54 = s.q.post.refused
      ∧ v.bit 53 = (s.q.post.demoted || s.demotes .sys) ∧ v.fld 52 48 = 0
      ∧ v.fld 47 0 = if s.q.post.failCnt = 0 then 0 else s.q.post.fva % 2 ^ 48
    let dirty := (s.getCluster s.cluster).dirty
    let pushed (t : State) : Prop := (t.getCluster s.cluster).dirty = [] ∧ (t.getCluster s.cluster).clean = []
      ∧ (∀ k, k ≠ s.cluster → t.getCluster k = s.getCluster k) ∧ SameOtherMemories s t ∧ OnlyMemberAndL1 s t
      ∧ (∀ p, s.outsideLogs p → (∀ x, x ∈ dirty → x.1 ≠ p) → t.hbm.byte p = s.hbm.byte p)
      ∧ ((∀ x y, x ∈ dirty → y ∈ dirty → x.1 = y.1 → x = y) → ∀ x, x ∈ dirty → t.hbm.byte x.1 = x.2)
    let kept := s.pushing s.cluster = false ∧ ∀ x, x ∈ dirty → let a := x.1 / 128 * 128
      s.lost.contains (x.1 / 128) = false ∧ s.inFootprint a 128 = false ∧ s.mustHold a 128 = false ∧ s.isSealed a = false
      ∧ s.homeReady a 128 = true ∧ (s.held.any fun h => h.overlaps a 128) = false ∧ s.outsideLogs x.1
    (s.settled sc = true →
      (sc = .core ∨ sc = .clus → Completes (.fence sc d) s fun t => Wrote (s.noEarly s.core) t d 0 false 4 s.q.fpctl)
      ∧ (sc = .dev ∨ sc = .sys → (s.release s.cluster sc).pushing s.cluster = true → Completes (.fence sc d) s fun t =>
          t.q = { s.q with wait := .poll } ∧ (t.getCluster s.cluster).dirty = [])
      ∧ (sc = .dev → kept → Completes (.fence sc d) s fun t => pushed t ∧ WroteReg s t d 0 false ∧ t.cur.mstate = s.cur.mstate
          ∧ t.q = { s.q with regs := t.q.regs, pc := s.q.pc + 4 })
      ∧ (sc = .sys → kept → s.strapOn sc = false → Completes (.fence sc d) s fun t => pushed t ∧ t.cur.mstate = s.cur.mstate
          ∧ (∃ v, status v ∧ WroteReg s t d v false) ∧ t.q = { s.q with regs := t.q.regs, pc := s.q.pc + 4, post := {} })
      ∧ (sc = .sys → kept → s.strapOn sc = true → s.cur.mstate ≠ .frozen → s.q.tvec.bit 0 = true → Completes (.fence sc d) s fun t => pushed t ∧ t.cur.mstate = .running
          ∧ (∃ v, status v ∧ WroteReg s t d v false)
          ∧ t.q = { s.q with
              regs := t.q.regs, post := {}, tepc := s.q.pc + 4, tcause := Trap.cause { code := 21 }, tval := 0
              tvec := s.q.tvec.put 0 0 0, inHandler := true, pc := BitVec.ofNat 64 (s.q.tvec.fld 63 2 * 4), wait := .none })
      ∧ (sc = .sys → kept → s.strapOn sc = true → s.cur.mstate ≠ .frozen → s.q.tvec.bit 0 = false → Completes (.fence sc d) s fun t => pushed t ∧ t.cur.mstate = .faulted
          ∧ (∃ v, status v ∧ WroteReg s t d v false)
          ∧ t.q = { s.q with regs := t.q.regs, post := {}, tcause := Trap.cause { code := 21 }, tval := 0, pc := s.q.pc + 4, wait := .none }))
    ∧ (s.settled sc = false → Completes (.fence sc d) s fun t => t.q = { s.q with wait := .poll } ∧ OnlySeq s t)

/-! ### Waiting, tasks and barriers -/

/-- R207, R217, R31, R218: `EJOIN` completes once every engine operation of the member has retired, and waits (state Waiting) until then;
`EXIT` puts the member in Waiting and, once what it waits for is done, its retirement follows next. `TRIG`, and `TRIG.J` with the engine
operations joined, of a task that has signalled move on; of one that has not, with the earlier accesses performed at device scope, they
perform the signal, which makes the task irrevocable, and move on once it is performed: at an object in memory homed here that nothing
stands in the way of, at once, with its 16 bytes as R35 and R36 say and no other byte changed (stated for a cluster with no CC byte dirty).
None of them changes a general register. -/
def Obligations.JoinsExitAndTrigger : Prop :=
  ∀ (s : State),
    let moved (t : State) : Prop := t.q.pc = s.q.pc + 4 ∧ t.q.regs = s.q.regs ∧ t.q.fpctl = s.q.fpctl
    (s.cur.joined = true → Completes .ejoin s fun t => moved t ∧ t.cur.mstate = .running ∧ t.q.wait = .none ∧ SameBytes s t
      ∧ t.agenda = s.agenda)
    ∧ (s.cur.joined = false → Completes .ejoin s fun t =>
        t.q = { s.q with wait := .join } ∧ t.cur.mstate = .waiting ∧ t.cur.cmds = s.cur.cmds ∧ SameBytes s t)
    ∧ (s.mayRetire s.core = true → Completes .exit s fun t =>
        t.q = { s.q with wait := .exit } ∧ t.cur.mstate = .waiting ∧ t.agenda = .event (.memberRetire s.core) :: s.agenda ∧ SameBytes s t)
    ∧ (s.mayRetire s.core = false → Completes .exit s fun t =>
        t.q = { s.q with wait := .exit } ∧ t.cur.mstate = .waiting ∧ t.agenda = s.agenda ∧ SameBytes s t)
    ∧ (s.q.wait ≠ .signal → s.cur.replay = none → ∀ i, i = .trig ∨ i = .trigJ ∧ s.cur.joined = true →
        let T := s.getTask s.me.task
        (T.signalled = true → Completes i s fun t => moved t ∧ SameBytes s t ∧ t.agenda = s.agenda)
        ∧ (T.signalled = false → s.me.task ≠ 0 → s.core < 72 → s.settled .dev = true → (s.getCluster s.cluster).dirty = [] →
            s.pushing s.cluster = false →
            (∀ c, c < 72 → c ≠ s.core → (s.getCore c).binding.task = s.me.task → (s.getCore c).seq.wait ≠ .signal) →
            let signals (t : State) : Prop := moved t ∧ t.q.wait = .none
              ∧ (t.getTask s.me.task).signalled = true ∧ (t.getTask s.me.task).irrevocable = true
            (s.compPlace T.part T.comp true = none → Completes i s fun t => signals t ∧ SameBytes s t)
            ∧ (∀ leaf pa, s.compPlace T.part T.comp true = some (leaf, pa) → placeOf pa = .hbm → s.homePkg pa = s.pkgNo →
                s.holdersOf pa = [] → s.canApply T.part pa 16 = true →
                (Held.signal pa s.me.task .trig (leafHc leaf) none).behind s.held = false → s.inFootprint pa 16 = false →
                s.lost.contains (pa / 128) = false → (∀ w, w ∈ wordParts pa 16 → s.hbm.worst w.1 w.2 = .clean) → s.hbm.worst pa 16 = .clean →
                s.signalsHere.contains s.me.task = false →
                Completes i s fun t => signals t ∧ StoredAt s.hbm t.hbm pa 16 (signalled (s.hbm.num pa 16) s.me.task .trig)
                  ∧ SameBytesButHbm s t)))

/-- R209, R33: `BAR.INIT` writes GEN 0, COUNT, ARRIVED 0 and SCOPE with BROKEN clear to the object its handle names in the member's
package, empties the home's record of participants, and moves on; every other byte of that memory stays. R34, R210: `BAR` at an object of the member's own
cluster, with the earlier accesses performed and the object's words sound, waits with the generation seen and counts its arrival: the last one of COUNT sets
ARRIVED to 0 and advances GEN (at device and system scope stated for a cluster with no CC byte dirty and no push under way). When GEN has moved past the generation seen
the member leaves to the next instruction, at device and system scope without clean copies; while it has not, the member waits on; where BROKEN
was set meanwhile it leaves with the barrier-broken trap. An arrival at an object
that is broken, or whose COUNT or SCOPE no member may arrive at, raises that trap at once. R33: a program's store to an initialised object
changes neither GEN nor ARRIVED, sets COUNT where it covers it, and clears BROKEN only by storing a 1 to it. -/
def Obligations.BarriersCountAndRelease : Prop :=
  ∀ (s : State) (sc : Scope) (a b : Reg) (cl off : Nat) (z : Size) (o12 : BitVec 12),
    ((s.g a).psn = false ∧ (s.g b).psn = false ∨ s.kclass ≠ 1) → s.cur.replay = none →
    let h := (s.g a).val
    let count := (s.g b).val.toNat
    let w := s.barObj cl off
    let bsc := Machine.scopeOf (barScope w)
    (s.q.wait = .none → 1 ≤ count → count ≤ maxMembers → s.barPlace s.core h false = .ok (.here cl off) →
      Completes (.barInit sc a b) s fun t =>
        t.q = { s.q with pc := s.q.pc + 4 } ∧ t.barObj cl off = count * 2 ^ 64 + scopeNo sc * 16
        ∧ (∀ x, x < off ∨ off + 16 ≤ x → (t.getCluster cl).cm.byte x = (s.getCluster cl).cm.byte x)
        ∧ (t.getCluster cl).arrivals off = [] ∧ off ∈ (t.getCluster cl).objects ∧ (∀ k, k ≠ cl → t.getCluster k = s.getCluster k)
        ∧ ∀ x, t.hbm.byte x = s.hbm.byte x)
    ∧ (s.q.wait = .none → s.barPlace s.core h false = .ok (.here s.cluster off) → cl = s.cluster → barBad w = false →
        s.settled bsc = true → barScope w < 2 ∨ (s.getCluster s.cluster).dirty = [] ∧ s.pushing s.cluster = false → s.barSound cl off →
        barArrived w + 1 < 2 ^ 32 →
        Completes (.bar a) s fun t =>
          t.q = { s.q with wait := .barrier cl off (barGen w), post := { s.q.post with demoted := s.q.post.demoted || s.demotes bsc } }
          ∧ t.cur.mstate = .waiting
          ∧ (barArrived w + 1 = barCount w → barArrived (t.barObj cl off) = 0 ∧ barGen (t.barObj cl off) = (barGen w + 1) % 2 ^ 32)
          ∧ (barArrived w + 1 ≠ barCount w → barArrived (t.barObj cl off) = barArrived w + 1 ∧ barGen (t.barObj cl off) = barGen w)
          ∧ barCount (t.barObj cl off) = barCount w ∧ ∀ x, t.hbm.byte x = s.hbm.byte x)
    ∧ (∀ gen, s.q.wait = .barrier cl off gen → s.barPlace s.core h false = .ok (.here cl off) → s.unwatched = true →
        (barGen w ≠ gen → s.strapOn bsc = false → Completes (.bar a) s fun t =>
          t.q = { s.q with pc := s.q.pc + 4, wait := .none } ∧ t.cur.mstate = .running ∧ SameBytes s t
          ∧ (2 ≤ barScope w → (t.getCluster s.cluster).clean = []))
        ∧ (barGen w = gen → barBroken w = false → Completes (.bar a) s fun t =>
          t.q = s.q ∧ t.cur.mstate = .waiting ∧ SameBytes s t)
        ∧ (barGen w = gen → barBroken w = true → s.canTrap = true → Completes (.bar a) s fun t => Trapped s t { code := 19 }))
    ∧ (s.q.wait = .none → s.barPlace s.core h false = .ok (.here cl off) → barBad w = true → s.canTrap = true →
        Completes (.bar a) s fun t => Trapped s t { code := 19 })
    ∧ (let o := (h + o12.signExtend 64).toNat
       let n := sizeBytes z
       let v := (s.g b).val
       let k := clusterOf s.core
       let u := s.barObj k off
       o % n = 0 → o < 0x5A0000 → s.unwatched = true → off % 16 = 0 → s.bankWait (.cm k o) = 0 →
       ((s.getCluster k).objects.filter fun x => decide (x < o + n) && decide (o < x + 16)) = [off] →
       Completes (.scratchStore .cm z b a o12) s fun t =>
         let w' := t.barObj k off
         t.q = { s.q with pc := s.q.pc + 4 } ∧ barGen w' = barGen u ∧ barArrived w' = barArrived u
         ∧ barBroken w' = (barBroken u && !(decide (o = off) && v.getLsbD 0))
         ∧ (barCount w' = if o = off + 8 then (if z = .b then barCount u / 2 ^ 8 * 2 ^ 8 + v.toNat % 2 ^ 8
             else if z = .h then barCount u / 2 ^ 16 * 2 ^ 16 + v.toNat % 2 ^ 16 else v.toNat % 2 ^ 32)
             else if off + 8 < o ∧ o < off + 12 then barCount w' else barCount u)
         ∧ ∀ x, x < off ∨ off + 16 ≤ x → x < o ∨ o + n ≤ x → (t.getCluster k).cm.byte x = (s.getCluster k).cm.byte x)

/-- R219, R330, R218: `LAUNCH` of a record that can be read sends it to the device and waits; the device's decision (the event) then
writes the status word to gd and moves on, with the record queued under the next task number when it is accepted. -/
def Obligations.LaunchAndItsDecision : Prop :=
  ∀ (s : State) (d a : Reg) (leaf : Word) (pa : Nat),
    ((s.g a).psn = false ∨ s.kclass ≠ 1) → s.cur.replay = none →
    (Reaches s (s.g a).val 64 0 leaf pa → s.settled .dev = true → (s.getCluster s.cluster).dirty = [] → s.pushing s.cluster = false →
      Completes (.launch d a) s fun t =>
        t.q = { s.q with wait := .launch } ∧ t.launching = s.launching ++ [⟨s.core, d, BitVec.ofNat 512 (s.hbm.num pa 64)⟩]
        ∧ SameBytes s t)
    ∧ (∀ l, s.launching = [l] → s.launchWaits l = false → s.subreg = none → Completes .evLaunchAcceptance s fun t =>
        let b := (s.getCore l.core).binding
        let code := s.acceptCode (recordTask l.record b.part (b.depth + 1))
        t.launching = [] ∧ (t.getCore l.core).seq.pc = (s.getCore l.core).seq.pc + 4 ∧ (t.getCore l.core).seq.wait = .none
        ∧ (l.rd ≠ 0 → ((t.getCore l.core).seq.reg l.rd).val.fld 7 0 = code % 256 ∧ ((t.getCore l.core).seq.reg l.rd).psn = false
            ∧ ((t.getCore l.core).seq.reg l.rd).val.fld 31 8 = 0
            ∧ ((t.getCore l.core).seq.reg l.rd).val.fld 63 32 = if code = 0 then s.nextTask % 2 ^ 32 else 0)
        ∧ (∀ r, r ≠ l.rd → (t.getCore l.core).seq.reg r = (s.getCore l.core).seq.reg r) ∧ (∀ c, c ≠ l.core → t.getCore c = s.getCore c)
        ∧ SameBytes s t ∧ t.nextTask = (if code = 0 then s.nextTask + 1 else s.nextTask)
        ∧ (code = 0 → (t.getTask s.nextTask).record = l.record ∧ (t.getTask s.nextTask).state = .queued
            ∧ (t.getTask s.nextTask).part = b.part ∧ (t.getTask s.nextTask).depth = b.depth + 1))

/-! ### Stamps -/

/-- R212, R213, R214, R215, R216, R26, R102: the operations on a stamp's handle. `PHASE` on an idle stamp sets it running with the trip count, its start on
the eighth member cycle from now and the captured seed, and is held while a PREEMPT has acted on the member (R339); every copy of it takes its registers for this phase and begins at slot 0 of wave 0. `PWAIT`
completes when no phase of the stamp runs and no round of it still commits, and waits until then. `CFG.FREE` of a stamp that does not run releases it with every handle of it, and
does nothing for an empty handle. `CFG.INFO` reports a copy, and zero for an empty handle. `CFG.ITOFF`, `CFG.PLIM` and `CFG.RHO` write the copy's register for the
next phase, RHO clamped to −1 to 1 with 0 for a NaN. A copy index beyond the last, or a trip count of more than 32 bits, raises the operand-range fault; a
state that does not allow the operation raises the region-busy trap with its reason. Nothing else changes. -/
def Obligations.StampInstructions : Prop :=
  ∀ (s : State) (rg : BitVec 4) (d a b : Reg) (i : Nat),
    ((s.g a).psn = false ∨ s.kclass ≠ 1) →
    let slot := Store.get none s.cur.handles rg.toNat
    let x := (s.g a).val
    let traps (y : Instr) (code detail : Nat) : Prop := s.canTrap = true → Completes y s fun t => Trapped s t { code := code, detail := detail }
    let busy (y : Instr) (reason : Nat) : Prop := traps y 18 reason
    let phase (reason : Nat) : Prop := x.fld 63 32 = 0 → s.cur.preempt = false → busy (.phase rg a) reason
    let writes (y : Instr) : Prop := y ∈ [Instr.cfgItoff rg a b, .cfgPlim rg a b, .cfgRho rg a b]
    let others (t : State) : Prop := SameBytes s t ∧ (∀ c, c ≠ s.core → t.getCore c = s.getCore c)
      ∧ { t with cores := s.cores, stamps := s.stamps } = s ∧ ∀ j, j ≠ i → t.getStamp j = s.getStamp j
    (slot = none → (Completes (.cfgFree rg) s fun t => Went s t (s.q.pc + 4))
      ∧ (Completes (.cfgInfo d a rg) s fun t => Wrote s t d 0 (s.g a).psn 4 s.q.fpctl)
      ∧ phase 4 ∧ busy (.pwait rg) 4 ∧ ∀ y, writes y → busy y 4)
    ∧ (∀ r, slot = some r → r.stamp = i →
        let st := s.getStamp i
        let n := x.toNat
        (st.core ≠ s.core → phase 2 ∧ busy (.pwait rg) 2 ∧ busy (.cfgFree rg) 2 ∧ busy (.cfgInfo d a rg) 2 ∧ ∀ y, writes y → busy y 2)
        ∧ (st.core = s.core → st.handle ≠ rg.toNat →
            phase 3 ∧ busy (.pwait rg) 3 ∧ busy (.cfgFree rg) 3 ∧ busy (.cfgInfo d a rg) 3 ∧ ∀ y, writes y → busy y 3)
        ∧ (st.core = s.core → st.handle = rg.toNat →
          (∀ k, st.state = .faulted k → phase 5 ∧ (s.q.wait = .none → busy (.pwait rg) 5) ∧ ∀ y, writes y → busy y 5)
          ∧ (st.state = .running → phase 1 ∧ busy (.cfgFree rg) 1 ∧ (∀ y, writes y → busy y 1)
              ∧ Completes (.pwait rg) s fun t => t.q = { s.q with wait := .phase i } ∧ t.cur = { s.cur with mstate := .waiting, seq := t.q }
                  ∧ others t ∧ t.stamps = s.stamps)
          ∧ (st.state = .idle ∨ (∃ k, st.state = .faulted k) ∧ s.q.wait = .phase i ∧ (∀ c, c ∈ st.copies → c.committing = none) →
              Completes (.pwait rg) s fun t =>
                t.q = { s.q with pc := s.q.pc + 4, wait := .none } ∧ t.cur = { s.cur with mstate := .running, seq := t.q, early := {} }
                ∧ others t ∧ t.stamps = s.stamps)
          ∧ ((∃ k, st.state = .faulted k) → s.q.wait = .phase i → (∃ c, c ∈ st.copies ∧ c.committing ≠ none) → Completes (.pwait rg) s fun t =>
              t.q = s.q ∧ t.cur = { s.cur with mstate := .waiting, seq := t.q } ∧ others t ∧ t.stamps = s.stamps)
          ∧ (st.state ≠ .running → Completes (.cfgFree rg) s fun t =>
              t.q = { s.q with pc := s.q.pc + 4 } ∧ t.getStamp i = {} ∧ (∀ j, j ≠ i → t.getStamp j = s.getStamp j) ∧ SameBytes s t
              ∧ { t with cores := s.cores, stamps := s.stamps } = s
              ∧ (∀ c, t.getCore c = { s.getCore c with seq := (t.getCore c).seq, handles := (t.getCore c).handles })
              ∧ (∀ c, c ≠ s.core → (t.getCore c).seq = (s.getCore c).seq)
              ∧ ∀ c k, let old := Store.get none (s.getCore c).handles k
                  Store.get none (t.getCore c).handles k =
                    if (c = st.core ∧ k = st.handle ∨ ∃ y, y ∈ st.copies ∧ c = y.core ∧ k = y.handle) ∧ (∃ r, old = some r ∧ r.stamp = i)
                    then none else old)
          ∧ (st.copies.length ≤ n → traps (.cfgInfo d a rg) 7 0 ∧ (st.state = .idle → ∀ y, writes y → traps y 7 0))
          ∧ (n < st.copies.length → st.copies.length ≤ 16 → (st.copy n).handle < 16 → (st.copy n).oty < 4 → (st.copy n).otx < 4 →
              Completes (.cfgInfo d a rg) s fun t => ∃ v : Word, Wrote s t d v (s.g a).psn 4 s.q.fpctl
                ∧ v.fld 63 48 = 0 ∧ v.fld 47 40 = (match st.state with | .faulted k => k % 256 | _ => 0) ∧ v.fld 39 32 = 0
                ∧ v.fld 31 30 = (match st.state with | .idle => 1 | .running => 2 | .faulted _ => 3) ∧ v.fld 29 25 = st.copies.length - 1
                ∧ v.fld 24 21 = (st.copy n).handle ∧ v.fld 20 18 = withinOf (st.copy n).core ∧ v.fld 17 16 = 0
                ∧ v.fld 15 14 = (st.copy n).oty ∧ v.fld 13 12 = (st.copy n).otx ∧ v.fld 11 0 = 0)
          ∧ (st.state = .idle → x.fld 63 32 = 0 → s.cur.preempt = false → s.traces s.core 1 = false → Completes (.phase rg a) s fun t =>
              t.q = { s.q with pc := s.q.pc + 4 } ∧ t.cur = { s.cur with seq := t.q } ∧ others t
              ∧ (let u := t.getStamp i
                 u = { st with state := .running, trip := n, start := s.q.mcc.toNat + 8, seed := BitVec.ofNat 32 (s.q.fpctl.fld 63 32), copies := u.copies }
                 ∧ u.copies.length = st.copies.length
                 ∧ ∀ j, j < st.copies.length → let c := st.copy j
                   let y := u.copy j
                   y.phItoff = c.itoff ∧ y.phPlim = c.plim ∧ y.phRho = c.rho ∧ (y.done = true ↔ n = 0)
                   ∧ y.reg = { c.reg with slot := 0, wave := 0, gens := [], inflight := [] } ∧ y.buffers = [] ∧ y.captures = [] ∧ y.committed = 0
                   ∧ y.core = c.core ∧ y.handle = c.handle ∧ y.oty = c.oty ∧ y.otx = c.otx ∧ y.itoff = c.itoff ∧ y.stoff = c.stoff
                   ∧ y.plim = c.plim ∧ y.rho = c.rho))
          ∧ (st.state = .idle → n < st.copies.length →
              let sets (y : Instr) (f : BitVec 32 → Copy → Copy) : Prop := Completes y s fun t =>
                t.q = { s.q with pc := s.q.pc + 4 } ∧ t.cur = { s.cur with seq := t.q } ∧ others t
                ∧ (t.getStamp i) = { st with copies := (t.getStamp i).copies } ∧ (t.getStamp i).copies.length = st.copies.length
                ∧ (t.getStamp i).copy n = f ((s.g b).val.setWidth 32) (st.copy n) ∧ ∀ j, j ≠ n → (t.getStamp i).copy j = st.copy j
              let clamp (v : BitVec 32) : BitVec 32 :=
                let y := Fp.v32 v.toNat
                if y.isNan then 0 else if Fp.ltV (.num false 1 0) y then 0x3F800000 else if Fp.ltV y (.num true 1 0) then 0xBF800000 else v
              sets (.cfgItoff rg a b) (fun v c => { c with itoff := v.toNat }) ∧ sets (.cfgPlim rg a b) (fun v c => { c with plim := v.toNat })
              ∧ sets (.cfgRho rg a b) (fun v c => { c with rho := clamp v }))))
    ∧ (x.fld 63 32 ≠ 0 → s.cur.preempt = false → traps (.phase rg a) 7 0)
    ∧ (s.cur.preempt = true → exec (.phase rg a) s = .next s)

/-- R211, R26, R58, R59: `CFG.LOAD` reads its image's header and then the rest as a load reads them. An image that fails a check raises the
configuration-check fault with the code of the lowest one that it fails, the magic and version first. One that fails none takes its handles:
each copy's on its core, and the stamp's on the loading core, where it names no copy if none holds it; every other handle stays. It makes a new
idle stamp of the member with the image's copies where they are placed, its schedule tables and context words, every register of their
regions zero, PLIM all ones, MCORR zero and ITOFF as the copy table gives it, and moves on; no byte of memory changes. -/
def Obligations.ConfigurationLoads : Prop :=
  ∀ (s s0 s1 s2 s3 : State) (rg : BitVec 4) (a : Reg) (p0 pages : List (Word × Nat)) (hb bs : List Byte),
    ((s.g a).psn = false ∨ s.kclass ≠ 1) →
    let va := (s.g a).val.toNat
    (va % 64 ≠ 0 → s.canTrap = true → Completes (.cfgLoad rg a) s fun t => Trapped s t { code := 4, tval := (s.g a).val })
    ∧ (va % 64 = 0 → translatePages s [(va / 65536, true)] = .ok (p0, s0) →
      let hp := pageParts va 32 p0
      s0.partsWait hp = none → s0.readImage hp = .ok (hb, s1) →
      let head : Image := ⟨ofBytes hb, hb⟩
      (head.check1 = false → s1.canTrap = true → Completes (.cfgLoad rg a) s fun t => Trapped s1 t { code := 17, detail := 1 })
      ∧ (head.check1 = true → translatePages s1 ((pagesOf (va + 32) (head.len - 32)).map fun p => (p, true)) = .ok (pages, s2) →
        let ps := pageParts (va + 32) (head.len - 32) pages
        s2.partsWait ps = none → s2.readImage (hp ++ ps) = .ok (bs, s3) →
        let m : Image := { head with bytes := bs }
        let spots := m.place s3 rg.toNat (List.range m.ncopy) []
        let code := m.failing (fun _ => (s3.freeHandles s3.core).contains rg.toNat && spots.isSome) (fun _ => m.claimsOk s3 (spots.getD []))
        (code ≠ 0 → s3.canTrap = true → Completes (.cfgLoad rg a) s fun t => Trapped s3 t { code := 17, detail := code })
        ∧ (code = 0 → Completes (.cfgLoad rg a) s fun t =>
          t.q = { s3.q with pc := s3.q.pc + 4, wait := .none } ∧ t.nextStamp = s3.nextStamp + 1 ∧ SameBytes s3 t
          ∧ (∀ j, j ≠ s3.nextStamp → t.getStamp j = s3.getStamp j)
          ∧ (let u := t.getStamp s3.nextStamp
             u.state = .idle ∧ u.core = s3.core ∧ u.handle = rg.toNat ∧ u.copies.length = m.ncopy ∧ u.task = s3.me.task ∧ u.memb = s3.me.memb
             ∧ u.hdr = m.hdr ∧ u.streams = m.streams ∧ u.ranges = m.ranges ∧ u.ctx = m.ctxStore ∧ u.entries = m.entryStore
             ∧ ∀ j, j < m.ncopy → let p := (spots.getD []).getD j ⟨0, 0, 0, 0⟩
                 (u.copy j).core = p.core ∧ (u.copy j).handle = p.handle ∧ (u.copy j).oty = p.oty ∧ (u.copy j).otx = p.otx
                 ∧ (u.copy j).itoff = fieldOf (m.copyWord j) 63 32 ∧ (u.copy j).stoff = fieldOf (m.copyWord j) 31 20 ∧ (u.copy j).reg = {}
                 ∧ (u.copy j).plim = 0xFFFFFFFF ∧ (u.copy j).rho = 0)
          ∧ (let at' (j : Nat) : Spot := (spots.getD []).getD j ⟨0, 0, 0, 0⟩
             let handle (c k : Nat) : Option HandleRef := Store.get none (t.getCore c).handles k
             (∀ j, j < m.ncopy → handle (at' j).core (at' j).handle = some { stamp := s3.nextStamp, copy := some j })
             ∧ ((∀ j, j < m.ncopy → ¬ ((at' j).core = s3.core ∧ (at' j).handle = rg.toNat)) →
                 handle s3.core rg.toNat = some { stamp := s3.nextStamp, copy := none })
             ∧ (∀ c k, ¬ (c = s3.core ∧ k = rg.toNat) → (∀ j, j < m.ncopy → ¬ (c = (at' j).core ∧ k = (at' j).handle)) →
                 handle c k = Store.get none (s3.getCore c).handles k)
             ∧ ∀ c, t.getCore c = { s3.getCore c with seq := (t.getCore c).seq, handles := (t.getCore c).handles }
                 ∧ (c ≠ s3.core → (t.getCore c).seq = (s3.getCore c).seq)))))

/-! ### Derived memory -/

/-- R221, R121, R122, R123, R78: a `DREAD` of a slot that is neither stale nor being built writes its value to gd and its status to DRSTAT, poisoned in a class-D
kernel where its status says poisoned or lost, with the data-error fault in a class-P one; `DREAD` of a stale or unbuilt slot waits, where `DREAD.NB` answers at once; it is
stated for a read that was not performed early (R272). R220:
`DFREE` of a quiet region ends its declaration and moves on, one that is not quiet waits, one of an
address that names no region raises the derived-region fault; `DDECL` whose region is built moves on. R222: `LINE.RESET` with its permission sends
128 zero bytes to the line's home, drops the cluster's CC bytes of the line, and is audited; without it, it raises the privilege fault. -/
def Obligations.DerivedInstructions : Prop :=
  ∀ (s : State) (f : DrFmt) (d a : Reg) (off : BitVec 12) (r : DRegion) (leaf : Word) (pa : Nat),
    s.unwatched = true → ((s.g a).psn = false ∨ s.kclass ≠ 1) →
    let va := (s.g a).val + off.signExtend 64
    let n := r.slotAt va
    let y := (s.region r.id).getD r
    let x := y.slot n
    let st := x.statusWord y.kind
    let psn := bitOf st stPsn || bitOf st stLost
    (va.toNat % 16 = 0 → s.regionAt s.me.part va = some r → s.cur.earlySlot va = none →
      suffixOk r.kind f = true → s.hbm.worst (r.slotPa n) 16 ≠ .bad → s.baseWaits r n = false →
      let gives (i : Instr) : Prop :=
        (psn = false ∨ s.kclass ≠ 0 → Completes i s fun t =>
          WroteReg s t d (y.readSlot x f) (psn && s.kclass == 1)
          ∧ t.q = { s.q with regs := t.q.regs, pc := s.q.pc + 4, drstat := BitVec.ofNat 64 st, wait := .none } ∧ OnlySeq s t)
        ∧ (psn = true → s.kclass = 0 → s.canTrap = true → Completes i s fun t => Trapped s t { code := 12, tval := va })
      gives (.dreadNb f d a off) ∧ (x.bit stStale = false → x.bit stBuild = false → gives (.dread f d a off))
      ∧ (x.bit stStale = true ∨ x.bit stBuild = true → Completes (.dread f d a off) s fun t =>
          t.q = { s.q with wait := .dread r.id n } ∧ OnlySeq s t))
    ∧ ((s.derived.find? fun r => r.desc == (s.g a).val && r.part == s.me.part) = some r →
        (s.quiet r = true → s.region r.id = some r → Completes (.dfree a) s fun t => t.q = { s.q with pc := s.q.pc + 4, wait := .none }
          ∧ t.region r.id = none ∧ (∀ y, y ∈ t.derived ↔ y ∈ s.derived ∧ y.id ≠ r.id) ∧ SameBytes s t)
        ∧ (s.quiet r = false → Completes (.dfree a) s fun t => t.q = { s.q with wait := .dfree r.id } ∧ OnlySeq s t))
    ∧ ((s.derived.find? fun r => r.desc == (s.g a).val && r.part == s.me.part) = none → s.q.wait = .none → s.canTrap = true →
        Completes (.dfree a) s fun t => Trapped s t { code := 16, tval := (s.g a).val })
    ∧ (∀ id, s.q.wait = .ddecl id → s.region id = some r → r.pending = [] → Completes (.ddecl a) s fun t =>
        t.q = { s.q with pc := s.q.pc + 4, wait := .none } ∧ OnlySeq s t)
    ∧ ((s.getPart s.me.part).ppol.bit 61 = true → 4096 < s.auditRoom → Reaches s (s.g a).val 128 1 leaf pa →
        Completes (.lineReset a) s fun t =>
          t.q = { s.q with wait := .home, unacked := s.q.unacked + 1 } ∧ (∀ x, t.hbm.byte x = s.hbm.byte x)
          ∧ t.pending = s.pending ++ [⟨s.core, .audit 11 s.me.part 3 (s.g a).val.toNat⟩]
          ∧ (∀ c, c ∈ (t.getCluster s.cluster).dirty ↔ c ∈ (s.getCluster s.cluster).dirty ∧ c.1 / 128 ≠ pa / 128)
          ∧ (∀ c, c ∈ (t.getCluster s.cluster).clean → c.1 / 128 ≠ pa / 128)
          ∧ ∃ q : StoreReq, t.agenda = .event (.storeAtHome q) :: s.agenda ∧ q.pa = pa ∧ q.data = List.replicate 128 0 ∧ q.core = s.core)
    ∧ ((s.g a).val.toNat % 128 = 0 → (s.getPart s.me.part).ppol.bit 61 = false → s.canTrap = true →
        Completes (.lineReset a) s fun t => Trapped s t { code := 8 })

/-- R220, R112, R113: `DDECL` reads its descriptor as a load reads it. One that fails no check, on pages that translate and may hold it, with room for its footprint,
declares a new region of the partition at that address and holds the sequencer until every slot is built. One not at a multiple of 128 bytes on a page that may hold it,
or that fails a check of its fields, raises the derived-declare fault with that check's code. In a replay it declares nothing and moves on (R400). -/
def Obligations.DeclarationBegins : Prop :=
  ∀ (s s1 : State) (a : Reg) (leaf : Word) (pa : Nat) (l : List (Word × Nat)),
    ((s.g a).psn = false ∨ s.kclass ≠ 1) → (∀ id, s.q.wait ≠ .ddecl id) → (s.cur.replay ≠ none → Completes (.ddecl a) s fun t => Went s t (s.q.pc + 4)) ∧
    (s.cur.replay = none →
    let va := (s.g a).val
    let fails (u : State) (check : Nat) : Prop := u.canTrap = true → Completes (.ddecl a) s fun t => Trapped u t { code := 15, detail := check, tval := va }
    (Reaches s va 1 0 leaf pa → va.toNat % 128 ≠ 0 ∨ derivedPage leaf pa = false → fails s 1)
    ∧ (Reaches s va 64 0 leaf pa → va.toNat % 128 = 0 → derivedPage leaf pa = true → ∀ bs s0, (s.setWait .none).readNow va leaf pa 64 = .ok (bs, s0) →
      let num := s.hbm.num pa 64
      let r := descRegion s0.nextRegion s0.me.part va num ((kindOf (fieldOf num 264 262)).getD .rowsum)
      ofBytes bs = num ∧ (descCheck true num r ≠ 0 → fails s0 (descCheck true num r))
      ∧ (descCheck true num r = 0 →
        let bps := (pagesOf r.base.toNat r.baseLen).map fun v => (v, r.touchesPage v)
        let fps := (pagesOf va.toNat r.footLen).map fun v => (v, true)
        translatePages s0 (bps ++ fps) = .ok (l, s1) →
        let bl := l.take bps.length
        let fl := l.drop bps.length
        let r' := { r with basePages := bl.map Prod.snd, footPages := fl.map Prod.snd }
        let pagesOk := (bl.all (fun x => x.2 == noPage || (derivedPage x.1 x.2 && x.1.bit 54)) && fl.all fun x => derivedPage x.1 x.2)
        let room := decide (s1.derived.length < 4096)
          && decide ((s1.derived.filter fun x => x.part == r'.part).length < (s1.getPart r'.part).ppol.fld 43 32) && s1.roomOk (footKeys r' (fl.map Prod.fst))
        (pagesOk = false → fails s1 5) ∧ (pagesOk = true → s1.overlapFree r' = false → fails s1 6)
        ∧ (pagesOk = true → s1.overlapFree r' = true → s1.feedOk r' = false → fails s1 7)
        ∧ (pagesOk = true → s1.overlapFree r' = true → s1.feedOk r' = true → room = false → fails s1 8)
        ∧ (pagesOk = true → s1.overlapFree r' = true → s1.feedOk r' = true → room = true → Completes (.ddecl a) s fun t =>
          t.q = { s1.q with wait := .ddecl s0.nextRegion } ∧ t.nextRegion = s1.nextRegion + 1
          ∧ ∃ x, x ∈ t.derived ∧ x.id = s0.nextRegion ∧ x.desc = va ∧ x.part = s0.me.part ∧ x.kind = r.kind ∧ x.rows = r.rows))))

/-! ### Engine commands -/

/-- R233, R234, R141, R143: an engine command whose fields its encoding accepts, with fewer than 64 pending, clean registers (or a kernel of
another class) and values inside its limits, is forked: it joins the end of the member's commands with the long form's address, the values of
ga, gb and gc, its start cycle g[GOB] + OFS and its arrival no earlier than 4 cycles from now; the sequencer goes on 8 bytes further;
no general register, no other core and no byte of memory changes. With 64 pending it is held at issue; a value outside its limits raises the operand-range fault,
and fields that its encoding does not accept the illegal-instruction trap. -/
def Obligations.EngineCommandsIssue : Prop :=
  ∀ (s : State) (l : Long), s.unwatched = true →
    let rb := (s.g l.gb).val
    let rc := (s.g l.gc).val
    let due := (s.g l.gob).val + BitVec.ofNat 64 l.ofs.toNat
    let clean := s.kclass ≠ 1 ∨ ∀ r, r ∈ [l.gob, l.ga, l.gb, l.gc] → (s.g r).psn = false
    let issues (i : Instr) (ok : Bool) : Prop :=
      (longOk i = true → s.cur.pendingCmds < 64 → clean → ok = true → Completes i s fun t =>
        t.q = { s.q with pc := s.q.pc + 8, wait := .none } ∧ SameBytes s t ∧ (∀ c, c ≠ s.core → t.getCore c = s.getCore c)
        ∧ { t with cores := s.cores } = s
        ∧ ∃ m : Cmd, t.cur.cmds = s.cur.cmds ++ [m] ∧ m.instr = i ∧ m.id = s.cur.nextCmd ∧ t.cur.nextCmd = s.cur.nextCmd + 1
            ∧ m.va = s.q.pc ∧ m.ra = (s.g l.ga).val ∧ m.rb = rb ∧ m.rc = rc ∧ m.due = due
            ∧ m.arrive = BitVec.ofNat 64 (max due.toNat (s.q.mcc.toNat + 4)) ∧ m.started = none ∧ m.retired = false)
      ∧ (longOk i = true → 64 ≤ s.cur.pendingCmds → Completes i s fun t => t.q = { s.q with wait := .engine } ∧ OnlySeq s t)
      ∧ (longOk i = true → s.cur.pendingCmds < 64 → clean → ok = false → s.canTrap = true → Completes i s fun t => Trapped s t { code := 7 })
      ∧ (longOk i = false → s.canTrap = true → Completes i s fun t => Trapped s t { code := 2, tval := (firstWord i).setWidth 64 })
    issues (.scopy l) (lengthOk rc) ∧ issues (.sstrd l) (strideOk rc) ∧ issues (.sgath l) (indexOk rc) ∧ issues (.sscat l) (indexOk rc)
    ∧ issues (.sxcopy l) (lengthOk rc) ∧ issues (.mstep l) (tileOk rc) ∧ issues (.momstep l) (tileOk rc) ∧ issues (.accZero l) true
    ∧ issues (.accLd l) (shapeOk rc) ∧ issues (.accSt l) (shapeOk rc) ∧ issues (.tmv l) (vectorOk true rb && tmvOk l.fmt rc)
    ∧ issues (.tsel l) (vectorOk false rb && tselOk rc) ∧ issues (.tred l) (vectorOk false rb && tredOk rc)
    ∧ issues (.collAr l) (s.collLimits (s.g l.ga).val rb rc) ∧ issues (.collRs l) (s.collLimits (s.g l.ga).val rb rc)
    ∧ issues (.collAg l) (s.collLimits (s.g l.ga).val rb rc) ∧ issues (.collBc l) (s.collLimits (s.g l.ga).val rb rc)
    ∧ issues (.collA2a l) (s.collLimits (s.g l.ga).val rb rc)

/-! ### Element operations -/

/-- R45, R147: an entry takes effect only in a frame of its phase and where its predicate holds; an entry of any of the 104 element
operations that does not take effect changes nothing, whatever its operands; a predicate read from a latch that is no PRED raises the tag fault. -/
def Obligations.ElementEntriesTakeEffect : Prop :=
  ∀ (s : State) (i : Instr) (form : EntryForm) (e : Entry), entryForm i = some (form, e) → s.xLive = true →
    let f := s.issue.wave - e.stg.toNat
    let inPhase := e.stg.toNat ≤ s.issue.wave ∧ f < s.xStamp.trip
    (¬ inPhase → exec i s = .next s)
    ∧ (inPhase → e.pr = 3 → s.xCopy.phPlim ≤ f → exec i s = .next s)
    ∧ (inPhase → e.pr = 1 → s.xLatch.tag = 13 → s.xLatch.psn = false → s.xLatch.val.bit 0 = false → exec i s = .next s)
    ∧ (inPhase → e.pr = 2 → s.xLatch.tag = 13 → s.xLatch.psn = false → s.xLatch.val.bit 0 = true → exec i s = .next s)
    ∧ (inPhase → e.pr = 1 ∨ e.pr = 2 → s.xLatch.tag ≠ 13 → s.xStamp.held = false →
        Completes i s fun t => RegionFaulted s t { code := 9 })
    ∧ (inPhase → e.pr = 0 ∨ (e.pr = 3 ∧ f < s.xCopy.phPlim) ∨
        (s.xLatch.tag = 13 ∧ s.xLatch.psn = false ∧ (e.pr = 1 ∧ s.xLatch.val.bit 0 = true ∨ e.pr = 2 ∧ s.xLatch.val.bit 0 = false)) →
        s.takesEffect e = .ok true)

/-- R148, R149, R150, R151, R146: the moves. Under FMT RAW a value of any tag is copied with its tag; else it must carry FMT. DLY
lands AUX + 1 cycles later. RETAG changes the tag. KSET delivers its constant and KINS its halfword in the own latch's value;
both take bits 36:14 as the constant, so they read no source and write no row-file entry. NOP delivers nothing. -/
def Obligations.ElementMovesDeliver : Prop :=
  ∀ (s : State) (e : Entry) (a b c : Tagged),
    let fits (x : Tagged) : Prop := e.fmt = 0 ∨ x.tag = e.fmt
    let gives (i : Instr) (lat : Nat) (v : Word) (tag : BitVec 4) (p : Bool) : Prop :=
      Completes i s fun t => Delivered s t e lat v tag p e.we
    (Issues s e → s.source e e.sa = .ok a → s.source e e.sb = .ok b → s.source e e.sc = .ok c →
      (Completes (.eNop e) s fun t => OnlyCopy s t ∧ t.stamps = s.stamps)
      ∧ (fits a → gives (.eMov e) 1 a.val a.tag a.psn ∧ gives (.eDly e) (e.aux.toNat + 1) a.val a.tag a.psn)
      ∧ (fits a → fits b → c.tag = 13 →
          (c.val.getLsbD 0 = true → gives (.eSel e) 1 a.val a.tag (c.psn || a.psn))
          ∧ (c.val.getLsbD 0 = false → gives (.eSel e) 1 b.val b.tag (c.psn || b.psn)))
      ∧ (e.aux.getLsbD 0 = false ∨ a.tag = 0 → gives (.eRetag e) 1 a.val e.fmt a.psn)
      ∧ (e.aux.getLsbD 0 = true → a.tag ≠ 0 → s.xStamp.held = false →
          Completes (.eRetag e) s fun t => RegionFaulted s t { code := 9 }))
    ∧ (Issues s e.constant →
        (Completes (.eKset e) s fun t => ∃ v : Word, Delivered s t e 1 v e.fmt false false ∧
          (e.fmt = 0 ∨ e.fmt = 1 ∨ e.fmt = 2 ∨ e.fmt = 14 → v.toInt = sextInt 23 e.k)
          ∧ (e.fmt = 3 → v.toNat = e.k * 2 ^ 41) ∧ (e.fmt = 4 → v.toNat = e.k * 2 ^ 9)
          ∧ (e.fmt = 5 ∨ e.fmt = 6 → v.toNat = e.k % 2 ^ 16) ∧ (e.fmt = 7 ∨ e.fmt = 8 → v.toNat = e.k % 2 ^ 8)
          ∧ (e.fmt = 13 → v.toNat = e.k % 2))
        ∧ (s.xLatch.tag = e.fmt → Completes (.eKins e) s fun t => ∃ v : Word, Delivered s t e 1 v e.fmt s.xLatch.psn false ∧
            ∀ j, v.getLsbD j = if j / 16 = e.k / 2 ^ 16 % 4 then e.k.testBit (j % 16) && decide (j < 64) else s.xLatch.val.getLsbD j))

/-- R152: the integer operations. They compute on the w low bits of their operands, w being 32 for I32 and 64 for I64 and ADDR;
overflow wraps, except that IADDS and ISUBS limit; A carries FMT, and so does B, which under ADDR is an integer or the
immediate. -/
def Obligations.ElementIntegerResults : Prop :=
  ∀ (s : State) (e : Entry) (a b c : Tagged), Issues s e →
    s.source e e.sa = .ok a → s.source e e.sb = .ok b → s.source e e.sc = .ok c → a.tag = e.fmt →
    let w := if e.fmt = 1 then 32 else 64
    let x := a.val.toNat % 2 ^ w
    let y := b.val.toNat % 2 ^ w
    let sx := sextInt w x
    let sy := sextInt w y
    let m : Int := 2 ^ w
    let limit (r : Int) : Int := max (-2 ^ (w - 1)) (min (2 ^ (w - 1) - 1) r)
    let gives (i : Instr) (lat : Nat) (p : Bool) (r : Int) : Prop :=
      Completes i s fun t => ∃ v : Word, (v.toNat : Int) = r % m ∧ Delivered s t e lat v e.fmt p e.we
    let two (i : Instr) (lat : Nat) (r : Int) : Prop :=
      (if e.fmt = 14 then e.sb = 13 ∨ b.tag = 1 ∨ b.tag = 2 else b.tag = e.fmt) → gives i lat (a.psn || b.psn) r
    two (.eIadd e) 2 (x + y) ∧ two (.eIsub e) 2 (x - y) ∧ two (.eImul e) 4 (x * y) ∧ two (.eImulh e) 4 (sx * sy / m)
    ∧ two (.eImulhu e) 4 (x * y / m) ∧ two (.eImin e) 2 (min sx sy) ∧ two (.eImax e) 2 (max sx sy)
    ∧ two (.eIminu e) 2 (min x y : Nat) ∧ two (.eImaxu e) 2 (max x y : Nat)
    ∧ two (.eIadds e) 2 (limit (sx + sy)) ∧ two (.eIsubs e) 2 (limit (sx - sy))
    ∧ gives (.eIneg e) 2 a.psn (-x) ∧ gives (.eIabs e) 2 a.psn sx.natAbs
    ∧ (b.tag = e.fmt → c.tag = e.fmt → gives (.eImac e) 4 (a.psn || b.psn || c.psn) (x * y + c.val.toNat))

/-- R153, R154, R155: logic bit by bit, under FMT RAW on all 64 bits of values of any tag; shifts by B modulo w; leading zeros and
ones counted in the w low bits. -/
def Obligations.ElementLogicAndShifts : Prop :=
  ∀ (s : State) (e : Entry) (a b : Tagged), Issues s e → s.source e e.sa = .ok a → s.source e e.sb = .ok b →
    let w := if e.fmt = 1 then 32 else 64
    let x := a.val.toNat % 2 ^ w
    let n := b.val.toNat % w
    let fits (x : Tagged) : Prop := e.fmt = 0 ∨ x.tag = e.fmt
    let gives (i : Instr) (lat : Nat) (p : Bool) (is : Word → Prop) : Prop :=
      Completes i s fun t => ∃ v, is v ∧ Delivered s t e lat v e.fmt p e.we
    let bits (i : Instr) (f : Bool → Bool → Bool) : Prop :=
      gives i 1 (a.psn || b.psn) fun v => ∀ j, j < 64 → v.getLsbD j = f (a.val.getLsbD j) (b.val.getLsbD j)
    let shift (i : Instr) (is : Word → Prop) : Prop := gives i 1 (a.psn || b.psn) fun v => v.toNat < 2 ^ w ∧ is v
    (fits a → fits b → bits (.eAnd e) (· && ·) ∧ bits (.eOr e) (· || ·) ∧ bits (.eXor e) (· != ·) ∧ bits (.eAndn e) (fun p q => p && !q))
    ∧ (fits a → gives (.eNot e) 1 a.psn fun v => ∀ j, j < 64 → v.getLsbD j = !a.val.getLsbD j)
    ∧ (a.tag = e.fmt → b.tag = 1 ∨ b.tag = 2 →
        shift (.eShl e) (fun v => v.toNat = x * 2 ^ n % 2 ^ w) ∧ shift (.eShr e) (fun v => v.toNat = x / 2 ^ n)
        ∧ shift (.eSra e) (fun v => (v.toNat : Int) = sextInt w x / 2 ^ n % 2 ^ w)
        ∧ shift (.eRot e) (fun v => ∀ j, j < w → v.getLsbD ((j + n) % w) = x.testBit j))
    ∧ (a.tag = e.fmt →
        gives (.eClz e) 2 a.psn (fun v => v.toNat ≤ w ∧ x < 2 ^ (w - v.toNat) ∧ (v.toNat < w → 2 ^ (w - 1 - v.toNat) ≤ x))
        ∧ gives (.ePopc e) 2 a.psn (fun v => v.toNat = ((List.range w).filter fun j => x.testBit j).length))

/-- R156, R157, R175, R176: compares and predicate operations deliver a PRED of 1 or 0; the mask form of FCLASS delivers the ten-bit
class mask as I32. -/
def Obligations.ElementComparesAndPredicates : Prop :=
  ∀ (s : State) (e : Entry) (a b : Tagged), Issues s e → s.source e e.sa = .ok a → s.source e e.sb = .ok b →
    let w := if e.fmt = 1 then 32 else 64
    let x := a.val.toNat % 2 ^ w
    let y := b.val.toNat % 2 ^ w
    let fx := entryVal e a.val
    let fy := entryVal e b.val
    let un := fx.isNan || fy.isNan
    let cond (p q : Int) : Bool := match e.aux.toNat with
      | 0 => p == q | 1 => p != q | 2 => decide (p < q) | 3 => decide (p ≤ q) | 4 => decide (q < p) | _ => decide (q ≤ p)
    let fcond : Bool := match e.aux.toNat with
      | 0 => !un && Fp.eqV fx fy | 1 => un || !Fp.eqV fx fy | 2 => !un && Fp.ltV fx fy | 3 => !un && (Fp.ltV fx fy || Fp.eqV fx fy)
      | 4 => !un && Fp.ltV fy fx | 5 => !un && (Fp.ltV fy fx || Fp.eqV fx fy) | 6 => un | _ => !un
    let tests (i : Instr) (lat : Nat) (p r : Bool) : Prop :=
      Completes i s fun t => Delivered s t e lat (if r then 1 else 0) 13 p e.we
    let p2 := a.psn || b.psn
    (a.tag = e.fmt → b.tag = e.fmt →
      (e.aux.toNat < 6 → tests (.eIcmp e) 2 p2 (cond (sextInt w x) (sextInt w y)) ∧ tests (.eIcmpu e) 2 p2 (cond x y))
      ∧ (e.aux.toNat < 8 → tests (.eFcmp e) 2 p2 fcond)
      ∧ tests (.ePand e) 1 p2 (a.val.getLsbD 0 && b.val.getLsbD 0) ∧ tests (.ePor e) 1 p2 (a.val.getLsbD 0 || b.val.getLsbD 0)
      ∧ tests (.ePxor e) 1 p2 (a.val.getLsbD 0 != b.val.getLsbD 0))
    ∧ (a.tag = e.fmt → tests (.ePnot e) 1 a.psn (!a.val.getLsbD 0)
      ∧ ∃ k, k < 10 ∧ Fp.classMask (entryFp e) a.val.toNat = 2 ^ k
        ∧ (e.aux = 15 → Completes (.eFclass e) s fun t => Delivered s t e 2 (BitVec.ofNat 64 (2 ^ k)) 1 a.psn e.we)
        ∧ (e.aux.toNat < 10 → tests (.eFclass e) 2 a.psn (e.aux.toNat == k)))
    ∧ ((e.fmt = 0 ∨ a.tag = e.fmt) → (e.fmt = 0 ∨ b.tag = e.fmt) → tests (.ePtst e) 1 p2 ((a.val &&& b.val).toNat % 2 ^ w != 0))

/-- R173, R174, R85: element arithmetic on F64, F32, BF16 and F16 rounds once, to nearest with ties to even, and sets no flag; its latencies depend
on the format. -/
def Obligations.ElementFloatResults : Prop :=
  ∀ (s : State) (e : Entry) (a b c : Tagged), Issues s e →
    s.source e e.sa = .ok a → s.source e e.sb = .ok b → s.source e e.sc = .ok c → a.tag = e.fmt →
    let f := entryFp e
    let x := entryVal e a.val
    let y := entryVal e b.val
    let z := entryVal e c.val
    let lat (d n : Nat) : Nat := if e.fmt = 3 then d else n
    let gives (i : Instr) (l : Nat) (p : Bool) (bits : Nat) : Prop :=
      Completes i s fun t => Delivered s t e l (BitVec.ofNat 64 bits) e.fmt p e.we
    let p2 := a.psn || b.psn
    let sign (v : Word) : Bool := v.getLsbD (f.width - 1)
    let signed (v : Word) (neg : Bool) (r : Nat) : Prop := if (Fp.decode f v.toNat).isNan then r = f.nanBits
      else r < 2 ^ f.width ∧ ∀ j, j < f.width → r.testBit j = if j + 1 = f.width then neg else v.getLsbD j
    (b.tag = e.fmt →
      gives (.eAdd e) (lat 6 4) p2 (Fp.addV f 0 x y).bits ∧ gives (.eSub e) (lat 6 4) p2 (Fp.addV f 0 x y.neg).bits
      ∧ gives (.eMul e) (lat 6 4) p2 (Fp.mulV f 0 x y).bits ∧ gives (.eDiv e) (lat 40 24) p2 (Fp.divV f 0 x y).bits
      ∧ gives (.eMin e) 2 p2 (if x.isNan || y.isNan then f.nanBits else if Fp.totalLt y x then b.val.toNat % 2 ^ f.width
          else a.val.toNat % 2 ^ f.width)
      ∧ gives (.eMax e) 2 p2 (if x.isNan || y.isNan then f.nanBits else if Fp.totalLt x y then b.val.toNat % 2 ^ f.width
          else a.val.toNat % 2 ^ f.width)
      ∧ ∃ r, signed a.val (sign b.val) r ∧ gives (.eCpysgn e) 1 p2 r)
    ∧ (b.tag = e.fmt → c.tag = e.fmt →
      let fused (i : Instr) (p q : Fp.Val) : Prop := gives i (lat 10 8) (p2 || c.psn) (Fp.fmaV f 0 p y q).bits
      fused (.eFma e) x z ∧ fused (.eFms e) x z.neg ∧ fused (.eFnma e) x.neg z ∧ fused (.eFnms e) x.neg z.neg)
    ∧ gives (.eSqrt e) (lat 40 24) a.psn (Fp.sqrtV f 0 x).bits
    ∧ (∃ r, signed a.val false r ∧ gives (.eAbs e) 1 a.psn r) ∧ (∃ r, signed a.val (!sign a.val) r ∧ gives (.eNeg e) 1 a.psn r)
    ∧ gives (.eFrnd e) 4 a.psn (match x with
        | .nan _ => f.nanBits
        | .inf _ => a.val.toNat % 2 ^ f.width
        | .num n m k => (Fp.round f 0 0 false n (Fp.toInteger (e.aux.toNat % 8) n m k).1.natAbs 0 false).bits)

/-- R177, R178, R89, R90: `CVT` from the operand's own tag to FMT, in the mode of AUX[2:0], saturating where AUX[3] says so; stochastic rounding
takes its bits from the seed, the iteration, the copy, the element's place and the slot. R184, R182, R185: `DEQ`, `QCONV`, `GEXT`
and `GINS`. -/
def Obligations.ElementConversions : Prop :=
  ∀ (s : State) (e : Entry) (a b c : Tagged), Issues s e →
    s.source e e.sa = .ok a → s.source e e.sb = .ok b → s.source e e.sc = .ok c →
    let gives (i : Instr) (lat : Nat) (tag : BitVec 4) (p : Bool) (is : Word → Prop) : Prop :=
      Completes i s fun t => ∃ v, is v ∧ Delivered s t e lat v tag p e.we
    let isInt (t : BitVec 4) : Prop := t = 1 ∨ t = 2
    let isFp (t : BitVec 4) : Prop := 3 ≤ t.toNat ∧ t.toNat ≤ 8
    let wid (t : BitVec 4) : Nat := if t = 1 then 32 else 64
    let mode := e.aux.toNat % 8
    let sr := Fp.srBits s.xStamp.seed (BitVec.ofNat 32 (s.xIter e)) s.issue.copy s.issue.row s.issue.col s.issue.slot
    let i := sextInt (wid a.tag) a.val.toNat
    let g := Fp.ofCode a.tag.toNat
    let x := Fp.decode g a.val.toNat
    let d := Fp.ofCode e.fmt.toNat
    let cvt (is : Word → Prop) : Prop := gives (.eCvt e) 4 e.fmt a.psn is
    let pb := if e.fmt = 9 then 8 else 4
    let cw := if e.aux.getLsbD 2 then 8 else 4
    (isInt a.tag → isInt e.fmt → cvt fun v => v.toInt = max (-2 ^ (wid e.fmt - 1)) (min (2 ^ (wid e.fmt - 1) - 1) i))
    ∧ (isInt a.tag → isFp e.fmt → cvt fun v => v.toNat = if i = 0 then 0 else
        (Fp.round d mode sr (e.aux.getLsbD 3) (decide (i < 0)) i.natAbs 0 false).bits % 2 ^ 64)
    ∧ (isFp a.tag → isInt e.fmt → cvt fun v => v = BitVec.ofInt 64 (Fp.toInt (wid e.fmt) mode x).1)
    ∧ (isFp a.tag → isFp e.fmt → cvt fun v => v.toNat = if a.tag = e.fmt then (if x.isNan then g.nanBits else a.val.toNat % 2 ^ g.width)
        else (Fp.convert d mode sr (e.aux.getLsbD 3) x).bits % 2 ^ 64)
    ∧ (a.tag = 1 → b.tag = 0 ∨ b.tag = 1 → gives (.eDeq e) 4 e.fmt (a.psn || b.psn) fun v =>
        v = BitVec.ofNat 64 (Fp.rn d (codeValue b.val cw a.val.toNat)))
    ∧ (a.tag = e.fmt → b.tag = 0 ∨ b.tag = 1 → gives (.eQconv e) 12 1 (a.psn || b.psn) fun v =>
        v.toNat = quantCode b.val (widen32 d a.val) cw % 2 ^ 64)
    ∧ (a.tag = e.fmt → isInt b.tag → gives (.eGext e) 1 1 (a.psn || b.psn) fun v =>
        v.toNat = a.val.toNat / 2 ^ (pb * (b.val.toNat % (64 / pb))) % 2 ^ pb)
    ∧ (a.tag = e.fmt → b.tag = 1 → isInt c.tag → gives (.eGins e) 1 e.fmt (a.psn || b.psn || c.psn) fun v =>
        ∀ j, j < 64 → v.getLsbD j = if j / pb = c.val.toNat % (64 / pb) then b.val.getLsbD (j % pb) else a.val.getLsbD j)

/-- R180, R181: `QMAX` keeps its group's largest and smallest value in lane-slice word 511, and at position 0 delivers the finished group's
parameter word and starts the next group; `QFIFO` delivers the word that went in one group earlier and puts its operand in its
place. Each writes no other lane-slice word. -/
def Obligations.QuantizerChain : Prop :=
  ∀ (s : State) (e : Entry) (a b : Tagged), Issues s e → s.source e e.sa = .ok a → s.source e e.sb = .ok b →
    a.tag = e.fmt → b.tag = 1 ∨ b.tag = 2 → a.psn = false → b.psn = false →
    let g := 32 * 2 ^ (e.aux.toNat % 4)
    let j := b.val.toNat % g
    let cw := if e.aux.getLsbD 2 then 8 else 4
    let word (t : State) (w : Nat) : Word := Store.get 0 t.xCopy.reg.lane (512 * s.xElem + w)
    let kept (t : State) (w : Nat) : Prop := ∀ k, k ≠ 512 * s.xElem + w → Store.get 0 t.xCopy.reg.lane k = Store.get 0 s.xCopy.reg.lane k
    let h := (word s 511).fld 63 32
    let l := (word s 511).fld 31 0
    let x := widen32 (entryFp e) a.val
    (Store.get .clean s.xCopy.reg.laneMarks (512 * s.xElem + 511) = .clean →
      Completes (.eQmax e) s fun t =>
        OnlyCopy s t ∧ kept t 511
        ∧ (j = 0 → (word t 511).toNat = (rangeStep 0 0 x).1 * 2 ^ 32 + (rangeStep 0 0 x).2
            ∧ InFlight s t e 8 (BitVec.ofNat 64 (blockParamWord (Fp.v32 h).isNan h l cw)) 0 false e.we)
        ∧ (j ≠ 0 → (word t 511).toNat = (rangeStep h l x).1 * 2 ^ 32 + (rangeStep h l x).2
            ∧ t.xCopy.reg.inflight = s.xCopy.reg.inflight))
    ∧ (let w := 128 * (e.aux.toNat / 4) + j
       Store.get .clean s.xCopy.reg.laneMarks (512 * s.xElem + w) = .clean →
        Completes (.eQfifo e) s fun t =>
          OnlyCopy s t ∧ kept t w ∧ word t w = a.val ∧ InFlight s t e 2 (word s w) e.fmt false e.we)

/-- R179, R97, R98, R99: the special functions deliver the function of the operand with their latencies; in BF16 and F16 the binary32 result on
the widened operand is rounded once more; and each has the special cases of the tables. The binary32 result on a finite operand is a power
of two or an overflow as R97 gives it, or lies within its function's bound of the true value, taken to 640 binary places: one of the two
values that bracket it for EXP2, LOG2, EXP and LN, within 1 ulp for RCP and RSQRT, within 2 ulp for the others. Which of the results
that the bounds allow is delivered is not fixed (log entries 4 and 7). -/
def Obligations.SpecialFunctions : Prop :=
  (∀ (s : State) (e : Entry) (a : Tagged), Issues s e → s.source e e.sa = .ok a → a.tag = e.fmt →
    let f := entryFp e
    let does (i : Instr) (lat : Nat) (g : Nat → Nat) : Prop := Completes i s fun t =>
      ∃ v : Word, Delivered s t e lat v e.fmt a.psn e.we ∧ v = BitVec.ofNat 64 (if f = Fp.f32 then g (a.val.toNat % 2 ^ 32)
        else (Fp.convert f 0 0 false (Fp.v32 (g (Fp.convert Fp.f32 0 0 false (Fp.decode f a.val.toNat)).bits))).bits)
    does (.eExp2 e) 12 Fp.exp2F ∧ does (.eLog2 e) 12 Fp.log2F ∧ does (.eExp e) 14 Fp.expF ∧ does (.eLn e) 14 Fp.lnF
    ∧ does (.eRcp e) 10 Fp.rcpF ∧ does (.eRsqrt e) 10 Fp.rsqrtF ∧ does (.eSin e) 20 Fp.sinF ∧ does (.eCos e) 20 Fp.cosF
    ∧ does (.eTanh e) 16 Fp.tanhF ∧ does (.eSigmoid e) 16 Fp.sigmoidF ∧ does (.eErf e) 16 Fp.erfF)
  ∧ (∀ x : Nat,
    let v := Fp.v32 x
    let sgn (n : Bool) : Nat := if n then 2 ^ 31 else 0
    (v.isNan = true → ∀ g, g ∈ [Fp.exp2F, Fp.log2F, Fp.expF, Fp.lnF, Fp.rcpF, Fp.rsqrtF, Fp.sinF, Fp.cosF, Fp.tanhF, Fp.sigmoidF, Fp.erfF] →
      g x = 0x7FC00000)
    ∧ (∀ n, v = .inf n →
        Fp.exp2F x = (if n then 0 else 0x7F800000) ∧ Fp.expF x = (if n then 0 else 0x7F800000)
        ∧ Fp.log2F x = (if n then 0x7FC00000 else 0x7F800000) ∧ Fp.lnF x = (if n then 0x7FC00000 else 0x7F800000)
        ∧ Fp.rcpF x = sgn n ∧ (n = true → Fp.rsqrtF x = 0x7FC00000) ∧ Fp.sinF x = 0x7FC00000 ∧ Fp.cosF x = 0x7FC00000
        ∧ Fp.tanhF x = sgn n + 0x3F800000 ∧ Fp.erfF x = sgn n + 0x3F800000 ∧ Fp.sigmoidF x = if n then 0 else 0x3F800000)
    ∧ (v.isZero = true → Fp.exp2F x = 0x3F800000 ∧ Fp.expF x = 0x3F800000 ∧ Fp.log2F x = 0xFF800000 ∧ Fp.lnF x = 0xFF800000
        ∧ Fp.rcpF x = sgn v.sign + 0x7F800000 ∧ Fp.rsqrtF x = sgn v.sign + 0x7F800000)
    ∧ (∀ m k, v = .num true m k → m ≠ 0 → Fp.log2F x = 0x7FC00000 ∧ Fp.lnF x = 0x7FC00000 ∧ Fp.rsqrtF x = 0x7FC00000)
    ∧ (∀ n m k, v = .num n m k →
        let X := Fp.fixed n m k
        let unit : Int := (2 ^ Fp.places : Nat)
        let power (r : Nat) (i : Int) : Prop := r = (Fp.round Fp.f32 0 0 false false 1 i false).bits
        Fp.nearBy 2 (Fp.sinF x) (Fp.circular Fp.places 0 X) ∧ Fp.nearBy 2 (Fp.cosF x) (Fp.circular Fp.places 1 X)
        ∧ Fp.nearBy 2 (Fp.sigmoidF x) (Fp.sigmoidFix Fp.places (Fp.within 128 X))
        ∧ Fp.nearBy 2 (Fp.tanhF x) (Fp.signed n (2 * Fp.sigmoidFix Fp.places (2 * Fp.within 128 (Fp.fixed false m k)) - unit).natAbs)
        ∧ Fp.nearBy 2 (Fp.erfF x) (Fp.signed n (Fp.erfFix Fp.places (Fp.within 12 (Fp.fixed false m k))).natAbs)
        ∧ (m ≠ 0 →
            Fp.nearBy 1 (Fp.rcpF x) (Fp.signed n (2 ^ (2 * Fp.places) / (m * 2 ^ (Fp.places + k).toNat)))
            ∧ (n = false → Fp.nearBy 1 (Fp.rsqrtF x) (Fp.isqrt (2 ^ (3 * Fp.places) / (m * 2 ^ (Fp.places + k).toNat)))
                ∧ ((∃ i : Int, m = 2 ^ (Fp.bitLen m - 1) ∧ i = k + Fp.bitLen m - 1 ∧ Fp.log2F x = (Fp.ofInt Fp.f32 0 i).bits)
                  ∨ Fp.nearBy 0 (Fp.log2F x) (Fp.lnOf Fp.places m k * unit / Fp.ln2Fix Fp.places))
                ∧ (x % 2 ^ 32 = 0x3F800000 ∧ Fp.lnF x = 0 ∨ Fp.nearBy 0 (Fp.lnF x) (Fp.lnOf Fp.places m k)))
            ∧ Fp.nearBy 0 (Fp.expF x) (Fp.expOf Fp.places (Fp.within 200 X))
            ∧ ((∃ i : Int, (Fp.toInteger 1 n m k).1 = i ∧ (128 ≤ i ∧ Fp.exp2F x = 0x7F800000
                  ∨ (Fp.toInteger 1 n m k).2 = false ∧ -149 ≤ i ∧ power (Fp.exp2F x) i))
              ∨ Fp.nearBy 0 (Fp.exp2F x) (Fp.expOf Fp.places (Fp.within 200 X * Fp.ln2Fix Fp.places / unit))))))

/-- R103 to R107, R186 to R190: the moment operations. Both operands carry FMT; a NaN in a half gives NaN in both; the formulas of R103 are exact and
rounded once per half; a result whose variance rounds below zero is written as +0 under VCLAMP and else faults on its landing. A
negative variance in an operand faults without VCLAMP (ElementFaults). MMAKE joins a mean and a variance of the plain format. -/
def Obligations.MomentResults : Prop :=
  (∀ (s : State) (e : Entry) (A B : Moment) (pa pb : Bool), Issues s e → s.momentOperand e e.sa = .ok (A, pa) →
    let gives (i : Instr) (lat : Nat) (m : Moment) (p : Bool) : Prop :=
      let mu := halfBits e.fmt m.mu
      let v := halfBits e.fmt (plusZero m.v)
      let d (w : Word) : Prop := Completes i s fun t => Delivered s t e lat w e.fmt p e.we
      (negHalf e.fmt v = false → d (packMoment e.fmt mu (plusZeroHalf e.fmt v)))
      ∧ (negHalf e.fmt v = true → s.xStamp.hdr.vclamp = true → d (packMoment e.fmt mu 0))
      ∧ (negHalf e.fmt v = true → s.xStamp.hdr.vclamp = false → Completes i s fun t => OnlyCopy s t ∧
          ∃ f : Flight, t.xCopy.reg.inflight = s.xCopy.reg.inflight ++ [f] ∧ f.due = s.xTime + lat ∧ f.fault = true ∧ f.val = none)
    let ma := Fp.v32 A.mu
    let va := Fp.v32 A.v
    let mb := Fp.v32 B.mu
    let vb := Fp.v32 B.v
    let c := covariance (e.aux.toNat % 4) s.xCopy.phRho A.v B.v
    let c2 := two.mul c
    let m2 (x y : Fp.Val) : Moment := if A.nan || B.nan then nanMoment else ⟨Fp.rn Fp.f32 x, Fp.rn Fp.f32 y⟩
    let one (i : Instr) (lat : Nat) (f : Nat → Nat) (g : Nat → Nat → Moment) : Prop :=
      gives i lat (if A.nan then nanMoment else if va.isZero then ⟨f A.mu, 0⟩ else g A.mu A.v) pa
    let col (v r : Nat) (k : Bool) : Prop := e.aux.toNat % 8 = v → Completes (.eMcol e) s fun t =>
      Delivered s t e 16 (BitVec.ofNat 64 (halfBits e.fmt r)) (BitVec.ofNat 4 (plainFmt e.fmt)) (pa || k) e.we
    (s.momentOperand e e.sb = .ok (B, pb) →
      gives (.eMadd e) 6 (m2 (ma.add mb) (Fp.sumV [va, vb, c2])) (pa || pb)
      ∧ gives (.eMsub e) 6 (m2 (ma.add mb.neg) (Fp.sumV [va, vb, c2.neg])) (pa || pb)
      ∧ gives (.eMmul e) 10 (m2 ((ma.mul mb).add c)
          (Fp.sumV [va.mul vb, va.mul (mb.mul mb), vb.mul (ma.mul ma), c.mul c, c2.mul (ma.mul mb)])) (pa || pb))
    ∧ (∀ k d kp dp, s.scalar e e.sb = .ok (k, kp) → s.scalar e e.sc = .ok (d, dp) →
        gives (.eMscale e) 8 (if A.nan || nan32b k || nan32b d then nanMoment else
          ⟨Fp.rn Fp.f32 (((Fp.v32 k).mul ma).add (Fp.v32 d)), Fp.rn Fp.f32 (((Fp.v32 k).mul (Fp.v32 k)).mul va)⟩) (pa || kp || dp))
    ∧ one (.eMrelu e) 28 (fun m => (Fp.minMax Fp.f32 true m 0).bits) reluM ∧ one (.eMexp e) 24 Fp.expF expM
    ∧ one (.eMsig e) 24 Fp.sigmoidF sigM ∧ one (.eMtanh e) 24 Fp.tanhF tanhM
    ∧ col 0 A.mu false ∧ col 1 A.v false ∧ col 2 (if A.nan then Fp.f32.nanBits else fsqrt32 A.v) false
    ∧ col 5 (if A.nan then Fp.f32.nanBits else fma32 (fsqrt32 A.v) (Fp.invF (s.srOf e)) A.mu) false
    ∧ (∀ k : Tagged, s.source e e.sb = .ok k → k.tag.toNat = plainFmt e.fmt →
        let kv := if e.fmt = 11 then canon32 (k.val.fld 31 0) else widen32 Fp.bf16 k.val
        col 3 (if A.nan then Fp.f32.nanBits else fma32 (fneg32 kv) (fsqrt32 A.v) A.mu) k.psn
        ∧ col 4 (if A.nan then Fp.f32.nanBits else fma32 kv (fsqrt32 A.v) A.mu) k.psn))
  ∧ ∀ (s : State) (e : Entry) (x y : Tagged), Issues s e → s.source e e.sa = .ok x → s.source e e.sb = .ok y →
    x.tag.toNat = plainFmt e.fmt → y.tag.toNat = plainFmt e.fmt →
    let w (k : Tagged) : Nat := if e.fmt = 11 then canon32 (k.val.fld 31 0) else widen32 Fp.bf16 k.val
    negVar (w y) = false →
    Completes (.eMmake e) s fun t =>
      Delivered s t e 2 (packMoment e.fmt (halfBits e.fmt (w x)) (plusZeroHalf e.fmt (halfBits e.fmt (plusZero (w y))))) e.fmt (x.psn || y.psn) e.we

/-- R159, R158: `LDS` and `LDX`: an element outside the stream gives 0; one inside it, on a path that is checked and translated to sound device memory that no store of the cluster is on its way to, is
read at once and lands 12 cycles later (for a reply in time), as the little-endian number at its address. -/
def Obligations.StreamLoads : Prop :=
  ∀ (s : State) (e : Entry) (a : Tagged) (leaf : Word) (pa : Nat), Issues s e → s.source e e.sa = .ok a →
    (a.psn = false ∨ s.xClass ≠ 1) →
    let T := s.streamOf e
    let reads (i : Instr) (o : Option Nat) : Prop :=
      (o = none → Completes i s fun t => Delivered s t e 12 0 e.fmt false e.we)
      ∧ (∀ n, o = some n → s.fabricPath (s.laneOf T) (T.addr n) 0 = .ok leaf pa s →
          placeOf pa = .hbm → leafType leaf ≠ 1 → leafHc leaf = false → s.hbm.worst pa T.size = .clean → s.lost.contains (pa / 128) = false →
          s.heldFor (clusterOf s.xCore) pa T.size = false → (s.getCore s.xStamp.core).replay = none → s.records s.xStamp.core = false → s.choice = 0 →
          Completes i s fun t => ∃ v : Word, v.toNat = s.hbm.num pa T.size % 2 ^ 64 ∧ InFlight s t e 12 v e.fmt false e.we ∧ OnlyCopyAccess s t)
    (a.tag = 1 ∨ a.tag = 2 → reads (.eLds e) (if 0 ≤ a.val.toInt ∧ a.val.toInt < T.count then some a.val.toInt.toNat else none))
    ∧ (a.tag = 14 → a.val.toNat % T.size = 0 → reads (.eLdx e) (T.locate a.val)
        ∧ ∀ n, T.locate a.val = some n → n < T.count ∧ ((n : Int) * T.step) % 2 ^ 64 = (a.val.toNat - T.va.toNat : Int) % 2 ^ 64)

/-- R160, R164, R51: the stores and reductions of a stream: an element outside the stream is discarded; one inside it, on a path that is checked
and translated to device memory outside every derived footprint, enters the lane's round buffer with its frame's round, its bytes
lowest first and, for a reduction, its operation; memory is not changed yet. One to a derived footprint raises the derived-store fault (R124). -/
def Obligations.StreamStores : Prop :=
  ∀ (s : State) (e : Entry) (v a : Tagged) (leaf : Word) (pa : Nat), Issues s e → s.source e e.sa = .ok v → s.source e e.sb = .ok a →
    (e.fmt = 0 ∨ v.tag = e.fmt) → (a.psn = false ∧ v.psn = false ∨ s.xClass ≠ 1) →
    let T := s.streamOf e
    let c := s.xCopy
    let round := s.xFrame e / 2 ^ s.xStamp.hdr.rsLog
    let puts (i : Instr) (o : Option Nat) (red : Option RedOp) : Prop :=
      (o = none → Completes i s fun t => OnlyCopy s t ∧ t.stamps = s.stamps)
      ∧ (∀ n, o = some n → s.fabricPath (s.laneOf T) (T.addr n) 1 = .ok leaf pa s → placeOf pa = .hbm → leafHc leaf = false →
          (s.getCore s.xStamp.core).replay = none →
          s.inFootprint pa T.size = false → s.lost.contains (pa / 128) = false → c.committed ≤ round → c.committing ≠ some round →
          Completes i s fun t => OnlyCopyAccess s t ∧ t.xCopy = { c with buffers := t.xCopy.buffers }
            ∧ ∃ b : BufEntry, t.xCopy.buffers = c.buffers ++ [b] ∧ b.round = round ∧ b.frame = s.xFrame e ∧ b.lane = s.laneOf T
                ∧ b.va = T.addr n ∧ b.pa = pa ∧ b.level = 0 ∧ b.typ = leafType leaf ∧ b.data.length = T.size
                ∧ ofBytes b.data = v.val.toNat % 256 ^ T.size ∧ b.psn = false ∧ b.red = red.map fun o => (o, e.fmt))
      ∧ (∀ n, o = some n → s.fabricPath (s.laneOf T) (T.addr n) 1 = .ok leaf pa s → placeOf pa = .hbm → s.inFootprint pa T.size = true →
          (s.getCore s.xStamp.core).replay = none → s.xStamp.held = false → Completes i s fun t => RegionFaulted s t { code := 14, tval := T.addr n })
    (a.tag = 1 ∨ a.tag = 2 →
      let o := if 0 ≤ a.val.toInt ∧ a.val.toInt < T.count then some a.val.toInt.toNat else none
      puts (.eSts e) o none ∧ puts (.eRadd e) o (some .add) ∧ puts (.eRmin e) o (some .min) ∧ puts (.eRmax e) o (some .max)
      ∧ puts (.eRand e) o (some .and) ∧ puts (.eRor e) o (some .or) ∧ puts (.eRxor e) o (some .xor))
    ∧ (a.tag = 14 → a.val.toNat % T.size = 0 → puts (.eStx e) (T.locate a.val) none)

/-- R162, R163: the address generators deliver an address of their stream and move on, modulo the stream's count; with an empty stream they deliver
its base address. No other generator changes. -/
def Obligations.AddressGenerators : Prop :=
  ∀ (s : State) (e : Entry) (a b : Tagged), Issues s e → s.source e e.sa = .ok a → s.source e e.sb = .ok b →
    (a.psn = false ∧ b.psn = false ∨ s.xClass ≠ 1) →
    let isInt (x : Tagged) : Prop := x.tag = 1 ∨ x.tag = 2
    let T := s.streamOf e
    let k := e.aux.toNat
    let gen (t : State) (j : Nat) : Gen := Store.get {} t.xCopy.reg.gens j
    let g := gen s k
    let m (i : Int) : Nat := (i % (T.count : Int)).toNat
    let makes (i : Instr) (at' : Word) (g' : Gen) (p : Bool) : Prop := Completes i s fun t =>
      InFlight s t e 2 at' 14 p e.we ∧ gen t k = g' ∧ (∀ j, j ≠ k → gen t j = gen s j) ∧ OnlyCopy s t
    let addr (i : Nat) : Word := T.va + BitVec.ofInt 64 ((i : Int) * T.step)
    let lim := if a.val.toNat % 2 ^ 32 = 0 then 2 ^ 32 else a.val.toNat % 2 ^ 32
    (T.count = 0 → makes (.eAgen e) T.va {} false ∧ (isInt a → isInt b → makes (.eAgen2 e) T.va {} (a.psn || b.psn))
      ∧ (isInt a → makes (.eAbump e) T.va {} a.psn ∧ makes (.eAmod e) T.va {} a.psn))
    ∧ (T.count ≠ 0 →
        makes (.eAgen e) (addr g.pos) { g with pos := (g.pos + 1) % T.count } false
        ∧ (isInt a → isInt b → makes (.eAgen2 e) (addr ((g.pos + g.inner) % T.count))
            (if lim ≤ g.inner + 1 then ⟨m (g.pos + b.val.toInt), 0⟩ else ⟨g.pos, g.inner + 1⟩) (a.psn || b.psn))
        ∧ (isInt a → makes (.eAbump e) (addr (m (g.pos + a.val.toInt))) ⟨m (g.pos + a.val.toInt), 0⟩ a.psn
          ∧ makes (.eAmod e) (addr (m a.val.toInt)) ⟨m a.val.toInt, 0⟩ a.psn))

/-- R165, R168, R169: `LSLD` and `LSST` read and write the element's lane-slice word; `WPCHK` tests a write pointer as it stood at the start of the cycle, its sum modulo 2^64 (R8); `ACCR` reads an
accumulator cell that no command feeds. -/
def Obligations.LaneAndPointerOperations : Prop :=
  ∀ (s : State) (e : Entry) (a b : Tagged), Issues s e → s.source e e.sa = .ok a → s.source e e.sb = .ok b →
    (a.psn = false ∧ b.psn = false ∨ s.xClass ≠ 1) →
    let isInt (t : BitVec 4) : Prop := t = 1 ∨ t = 2
    let lane (t : State) (k : Nat) : Word := Store.get 0 t.xCopy.reg.lane k
    let at' (x : Tagged) : Nat := 512 * s.xElem + (x.val + BitVec.ofNat 64 e.aux.toNat).toNat
    let inside (x : Tagged) : Prop := isInt x.tag ∧ (x.val + BitVec.ofNat 64 e.aux.toNat).toNat < 512
    let uns (x : Tagged) : Nat := if x.tag = 1 then x.val.toNat % 2 ^ 32 else x.val.toNat
    let core := s.getCore s.xCore
    let wp := Store.get wpReset core.wpOld e.aux.toNat
    let slot := e.wi.toNat % 64
    let pair := [slot / 2 * 2, slot / 2 * 2 + 1]
    let mine := if e.fmt = 3 ∨ e.fmt = 11 then pair else [slot]
    let cell (n : Nat) : AccCell := Store.get {} (Store.get {} core.slots n).cells (b.val.toNat % 1024)
    (inside a → Store.get .clean s.xCopy.reg.laneMarks (at' a) = .clean → Completes (.eLsld e) s fun t =>
      Delivered s t e 2 (lane s (at' a)) e.fmt false e.we)
    ∧ (inside b → (e.fmt = 0 ∨ a.tag = e.fmt) → Completes (.eLsst e) s fun t =>
        OnlyCopy s t ∧ lane t (at' b) = a.val ∧ (∀ k, k ≠ at' b → lane t k = lane s k) ∧ t.xCopy.reg.inflight = s.xCopy.reg.inflight)
    ∧ (isInt a.tag → isInt b.tag → Completes (.eWpchk e) s fun t => ∃ v : Word, Delivered s t e 2 v 13 (a.psn || b.psn) e.we
        ∧ (v = 1 ↔ wp.fld 63 62 ≠ 3 ∧ wp.fld 55 28 ≤ uns a ∧ (uns a + uns b) % 2 ^ 64 ≤ wp.fld 27 0) ∧ (v = 1 ∨ v = 0))
    ∧ (isInt b.tag → (∀ c, c ∈ core.cmds → c.active core.seq.mcc = false ∨ ∀ f, c.feeds = some f → ∀ n, n ∈ f.2 → n ∉ mine) →
        (Store.get {} core.slots slot).tag = e.fmt → e.fmt ≠ 3 → e.fmt ≠ 11 → Completes (.eAccr e) s fun t =>
          ∃ v : Word, Delivered s t e 6 v e.fmt (cell slot).psn false
            ∧ (e.fmt = 1 → v.toInt = (cell slot).bits.toInt) ∧ (e.fmt ≠ 1 → v.toNat = (cell slot).bits.toNat))
    ∧ (isInt b.tag → core.cmds = [] → (Store.get {} core.slots slot).tag = e.fmt →
        (e.fmt = 3 → Completes (.eAccr e) s fun t => ∃ v : Word, Delivered s t e 6 v e.fmt ((cell (slot / 2 * 2)).psn || (cell (slot / 2 * 2 + 1)).psn) false
          ∧ v.toNat = (cell (slot / 2 * 2)).bits.toNat + (cell (slot / 2 * 2 + 1)).bits.toNat * 2 ^ 32)
        ∧ (e.fmt = 11 → Completes (.eAccr e) s fun t => ∃ v : Word, Delivered s t e 6 v e.fmt ((cell (slot / 2 * 2)).psn || (cell (slot / 2 * 2 + 1)).psn) false
          ∧ v.toNat = (cell (slot / 2 * 2)).bits.toNat * 2 ^ 32 + (cell (slot / 2 * 2 + 1)).bits.toNat))

/-- R166, R167, R62, R63: `SPLD` of a scratch memory whose channel, if it names one, has reached the value reads it at once and lands 10, 20 or 48
cycles later by level (for a reply in time, from a bank that no access of the cycle uses at another row: R65); `SPST` enters the round buffer with its level and its bytes. -/
def Obligations.ScratchPortOperations : Prop :=
  ∀ (s : State) (e : Entry) (v a b : Tagged) (loc : ScratchLoc), Issues s e →
    s.source e e.sa = .ok a → s.source e e.sb = .ok b →
    let n := fmtBytes e.fmt.toNat
    let lv := e.aux.toNat % 4
    let off (x : Tagged) : Word := BitVec.ofNat 64 (x.val.fld 27 0)
    let word (x : Tagged) : Prop := (x.psn = false ∨ s.xClass ≠ 1) ∧ (x.tag = 2 ∨ x.tag = 14) ∧ x.val.fld 63 33 = 0 ∧ (off x).toNat % n = 0
      ∧ s.scratchLoc s.xCore s.xPart lv (off x) = loc ∧ loc ≠ .bad ∧ ∀ y, loc ≠ .spill y
    let round := s.xFrame e / 2 ^ s.xStamp.hdr.rsLog
    (word a → (a.val.bit 32 = false ∨ s.ready s.xCore lv (a.val.fld 31 28) (a.val.fld 27 0) (a.val.fld 27 0 + n) = true) →
      s.chipWorst loc n = .clean → s.bankWait loc = 0 → (s.getCore s.xStamp.core).replay = none → s.records s.xStamp.core = false → s.choice = 0 →
      Completes (.eSpld e) s fun t => ∃ w : Word, w.toNat = (s.bank loc).1.num (s.bank loc).2 n % 2 ^ 64
        ∧ InFlight s t e (if lv = 1 then 10 else if lv = 2 then 20 else 48) w e.fmt false e.we ∧ OnlyCopyAccess s t)
    ∧ (word b → b.val.fld 32 28 = 0 → s.source e e.sa = .ok v → (e.fmt = 0 ∨ v.tag = e.fmt) → s.xCopy.committed ≤ round →
        s.xCopy.committing ≠ some round → Completes (.eSpst e) s fun t =>
          OnlyCopy s t ∧ ∃ x : BufEntry, t.xCopy.buffers = s.xCopy.buffers ++ [x] ∧ x.round = round ∧ x.level = lv ∧ x.pa = (off b).toNat
            ∧ x.data.length = n ∧ ofBytes x.data = v.val.toNat % 256 ^ n ∧ x.psn = (v.psn && s.xClass == 1) ∧ x.red = none)

/-- R83, R147, R410, R165, R166, R170, R186: the faults of element operations: a tag that the entry does not list (9), a poisoned index in a class-D
kernel (12), a lane-slice index or scratch address out of range (6), a misaligned address (4), a negative variance without VCLAMP
(11), a cell read while a command feeds its slot, or a wait without GRACE (10). Each faults the region and has no other effect. -/
def Obligations.ElementFaults : Prop :=
  ∀ (s : State) (e : Entry) (a : Tagged), Issues s e → s.source e e.sa = .ok a → s.xStamp.held = false →
    let faults (i : Instr) (x : Trap) : Prop := Completes i s fun t => RegionFaulted s t x
    let isInt := a.tag = 1 ∨ a.tag = 2
    (a.tag ≠ e.fmt → ∀ i, i ∈ [Instr.eIadd e, .eImul e, .eIneg e, .eShl e, .eClz e, .eIcmp e, .ePand e, .ePnot e, .eAdd e, .eFma e, .eSqrt e,
      .eMax e, .eFrnd e, .eFcmp e, .eFclass e, .eQconv e, .eGext e, .eExp2 e, .eErf e, .eMadd e, .eMrelu e, .eMscale e] → faults i { code := 9 })
    ∧ (¬ isInt → faults (.eLds e) { code := 9 } ∧ faults (.eAbump e) { code := 9 } ∧ faults (.eWpchk e) { code := 9 })
    ∧ (a.tag ≠ 14 → faults (.eLdx e) { code := 9 }) ∧ (a.tag ≠ 2 → a.tag ≠ 14 → faults (.eSpld e) { code := 9 })
    ∧ (isInt → a.psn = true → s.xClass = 1 → faults (.eLds e) { code := 12 } ∧ faults (.eAbump e) { code := 12 })
    ∧ (a.tag = 14 → a.psn = false → a.val.toNat % (s.streamOf e).size ≠ 0 → faults (.eLdx e) { code := 4, tval := a.val })
    ∧ (a.tag = 14 ∨ a.tag = 2 → a.psn = false → a.val.fld 63 33 ≠ 0 → faults (.eSpld e) { code := 6, tval := a.val })
    ∧ (a.tag = 14 ∨ a.tag = 2 → a.psn = false → a.val.fld 63 32 = 0 → (a.val.fld 27 0) % fmtBytes e.fmt.toNat = 0 →
        s.scratchLoc s.xCore s.xPart (e.aux.toNat % 4) (BitVec.ofNat 64 (a.val.fld 27 0)) = .bad →
        faults (.eSpld e) { code := 6, tval := BitVec.ofNat 64 (a.val.fld 27 0) })
    ∧ (a.tag = e.fmt → negVar (momentOf e.fmt a.val).v = true → s.xStamp.hdr.vclamp = false →
        faults (.eMadd e) { code := 11 } ∧ faults (.eMexp e) { code := 11 } ∧ faults (.eMcol e) { code := 11 })
    ∧ (isInt → a.psn = false → 511 < (a.val + BitVec.ofNat 64 e.aux.toNat).toNat →
        faults (.eLsld e) { code := 6, tval := a.val + BitVec.ofNat 64 e.aux.toNat })
    ∧ (a.tag = 14 ∨ a.tag = 2 → a.psn = false → a.val.fld 63 33 = 0 → a.val.bit 32 = true → (a.val.fld 27 0) % fmtBytes e.fmt.toNat = 0 →
        s.scratchLoc s.xCore s.xPart (e.aux.toNat % 4) (BitVec.ofNat 64 (a.val.fld 27 0)) ≠ .bad → s.xStamp.hdr.grace = 0 →
        s.ready s.xCore (e.aux.toNat % 4) (a.val.fld 31 28) (a.val.fld 27 0) (a.val.fld 27 0 + fmtBytes e.fmt.toNat) = false →
        faults (.eSpld e) { code := 10 })
    ∧ (∀ (b : Tagged) (c : Cmd) (tile : Bool) (l : List Nat) (n : Nat), s.source e e.sb = .ok b → b.tag = 1 ∨ b.tag = 2 → b.psn = false →
        c ∈ (s.getCore s.xCore).cmds → c.active (s.getCore s.xCore).seq.mcc = true → c.feeds = some (tile, l) → n ∈ l →
        n = e.wi.toNat % 64 → e.aux.getLsbD 0 = false ∨ tile = false → faults (.eAccr e) { code := 10 })

/-! ### The device's own steps and its outside events -/

/-- R44, R46, R47, R50, R52, R53, R25, R28: the steps of a region. In an unfrozen cycle the results that are due land first and the row file
keeps what was written to it in the last cycle; then the entries of the slot issue and SLOT advances; SLOT past II − 1 returns to 0 with
WAVE + 1. In a round's first cycle the copy is captured, whatever freezes it. A late reply, one that arrives in this cycle, or full round
buffers freeze the region before anything lands, an unready scratch read before anything issues; a scratch read frozen for GRACE cycles faults the region. A result lands in its element's latch, is driven on the buses it names
and is written to its row-file entry for the next cycle. A late reply fills its flight and releases the stall wire from the next cycle on. A round commits: its stores leave
the ports; without stores it has committed at once. A copy is done when nothing of its phase is left, and the
phase retires when every copy is done. -/
def Obligations.FabricSteps : Prop :=
  ∀ (s : State) (i j n id : Nat) (f : Flight) (v : Tagged) (w : Word),
    let st := s.getStamp i
    let c := st.copy j
    let lt := c.reg.wave * st.hdr.ii + c.reg.slot
    let now := s.stampMcc st
    let only (t : State) : Prop := SameBytes s t ∧ t.cores = s.cores ∧ (∀ k, k ≠ i → t.getStamp k = s.getStamp k)
      ∧ ∀ k, k ≠ j → (t.getStamp i).copy k = st.copy k
    let new (t : State) : Copy := (t.getStamp i).copy j
    let folded (t : State) : Prop := (new t).rowWrites = [] ∧ (∀ k, (∀ x, x ∈ c.rowWrites → x.1 ≠ k) →
        Store.get {} (new t).reg.rowfile k = Store.get {} c.reg.rowfile k)
      ∧ ((∀ x y, x ∈ c.rowWrites → y ∈ c.rowWrites → x.1 = y.1 → x = y) → ∀ x, x ∈ c.rowWrites → Store.get {} (new t).reg.rowfile x.1 = x.2)
    let due := c.reg.inflight.filter fun f => decide (f.due ≤ lt)
    j < st.copies.length →
    let fresh := ∃ n, st.roundStart c.reg.slot c.reg.wave = some n ∧ (∀ k, k ∈ c.captures → k.1 ≠ n) ∧ c.captures.length < 2
    let missing := ∃ f, f ∈ due ∧ f.missing now = true
    (s.copyRuns i j = true → c.redFault = none → c.landed ≠ some lt → ¬ missing → c.freeAt ≤ now → s.buffersFull st c = false →
      c.reg.wave < st.endWave → s.frameStop c c.reg.wave = false → Completes (.evRowCounterStep i j) s fun t =>
        only t ∧ (new t).landed = some lt ∧ (new t).buses = [] ∧ folded t ∧ (new t).reg.slot = c.reg.slot ∧ (new t).reg.wave = c.reg.wave
        ∧ (new t).reg.latch = c.reg.latch ∧ (new t).reg.inflight = c.reg.inflight
        ∧ (∀ n, fresh → st.roundStart c.reg.slot c.reg.wave = some n → (new t).captures = c.captures ++ [(n, (new t).reg)])
        ∧ (¬ fresh → (new t).captures = c.captures)
        ∧ t.agenda = due.map (fun f => Action.event (.resultLands i j f.id)) ++ .event (.rowCounterStep i j) :: s.agenda)
    ∧ (s.copyRuns i j = true → c.redFault = none → c.landed ≠ some lt → c.reg.wave < st.endWave →
        missing ∨ now < c.freeAt ∨ s.buffersFull st c = true → (∀ f, f ∈ due → s.replyLost f = false) →
        (s.modCopy i j (Copy.captureAt st)).lateReads i j = [] → Completes (.evRowCounterStep i j) s fun t =>
          only t ∧ t.agenda = s.agenda ∧ ((new t).loadStall = true ↔ missing)
          ∧ new t = { Copy.captureAt st c with loadStall := (new t).loadStall, counts := (new t).counts })
    ∧ (s.copyRuns i j = true → c.redFault = none → c.landed = some lt → s.waitingReads i j = [] →
        c.reg.wave < st.endWave → Completes (.evRowCounterStep i j) s fun t =>
          only t ∧ (new t).landed = none ∧ (new t).reg = { c.reg with slot := if c.reg.slot + 1 < st.hdr.ii then c.reg.slot + 1 else c.reg.slot }
          ∧ ∃ xs, t.agenda = xs ++ s.agenda ∧ (.event (.waveAdvance i j) ∈ xs ↔ st.hdr.ii ≤ c.reg.slot + 1)
              ∧ ∀ r k, .elem ⟨i, j, r, k, c.reg.slot, c.reg.wave⟩ ∈ xs ↔ r < 4 * st.hdr.h ∧ k < 4 * st.hdr.w ∧ st.entry r k c.reg.slot ≠ 0)
    ∧ (∀ x xs, s.copyRuns i j = true → c.redFault = none → c.landed = some lt → s.waitingReads i j = x :: xs →
        let k := (c.stall.map ScratchStall.frozen).getD 0
        (st.hdr.grace ≤ k → Completes (.evRowCounterStep i j) s fun t => t = { s with agenda := .event (.stallGraceExpiry i j) :: s.agenda })
        ∧ (k < st.hdr.grace → Completes (.evRowCounterStep i j) s fun t => only t ∧ t.agenda = s.agenda
            ∧ new t = { c with stall := (new t).stall, counts := (new t).counts } ∧ (new t).stall.map ScratchStall.frozen = some (k + 1)))
    ∧ (st.state = .running → Completes (.evWaveAdvance i j) s fun t =>
        only t ∧ new t = { c with reg := { c.reg with slot := 0, wave := c.reg.wave + 1 } } ∧ t.agenda = s.agenda)
    ∧ ((c.reg.inflight.find? fun f => f.id == id) = some f → f.fault = false → f.val = some v → Completes (.evResultLands i j id) s fun t =>
        only t ∧ t.agenda = s.agenda ∧ (∀ k, Store.get {} (new t).reg.latch k = if k = f.elem then v else Store.get {} c.reg.latch k)
        ∧ (∀ x, x ∈ (new t).reg.inflight ↔ x ∈ c.reg.inflight ∧ x.id ≠ id) ∧ (new t).reg.rowfile = c.reg.rowfile
        ∧ (∀ k, Store.get {} (new t).rowWrites k =
            if f.we = true ∧ k = 128 * (f.elem / st.width) + f.wi then v else Store.get {} c.rowWrites k)
        ∧ (∀ k, Store.get {} (new t).buses k = if (f.dr % 2 = 1 ∧ k = 4 * (f.elem / st.width)) ∨ (f.dr / 2 = 1 ∧ k = 4 * (f.elem / st.width) + 1)
            ∨ (f.dc % 2 = 1 ∧ k = 1000 + 4 * (f.elem % st.width)) ∨ (f.dc / 2 = 1 ∧ k = 1000 + 4 * (f.elem % st.width) + 1)
            then v else Store.get {} c.buses k))
    ∧ (((c.reg.inflight ++ c.captures.flatMap fun k => k.2.inflight).find? fun f => f.id == id) = some f →
        let released (t : State) : Prop := only t ∧ t.agenda = s.agenda ∧ (new t).loadStall = false
          ∧ (new t).freeAt = if c.loadStall then now + 1 else c.freeAt
        (f.val = some v → Completes (.evLoadReplyArrives (.fabric i j id none)) s fun t => released t ∧ (new t).reg = c.reg)
        ∧ (f.val = none → Completes (.evLoadReplyArrives (.fabric i j id (some w))) s fun t => released t
            ∧ ∀ x, x ∈ (new t).reg.inflight → x.id = id → x.val = some ⟨place f.tag.toNat w.toNat, f.tag, false⟩ ∧ x.late = none))
    ∧ (s.copyRuns i j = true → st.held = false → Completes (.evStallGraceExpiry i j) s fun t =>
        SameBytes s t ∧ (t.getStamp i).state = .faulted 10
        ∧ (t.getCore st.core).seq.traps
          = insertTrap ⟨s.trapKey st.core, { code := 10, src := 1, unit := c.handle }⟩ (s.getCore st.core).seq.traps)
    ∧ (s.commitReady i j n = true → c.replies = [] → (∀ b, b ∈ c.buffers → b.round ≠ n) → Completes (.evRoundCommit i j n) s fun t =>
        only t ∧ t.agenda = s.agenda ∧ (new t).committed = n + 1 ∧ (new t).committing = none ∧ (new t).buffers = c.buffers
        ∧ ∀ k, k ∈ (new t).captures ↔ k ∈ c.captures ∧ n < k.1)
    ∧ (∀ b, s.commitReady i j n = true → c.replies = [] → (c.buffers.filter fun b => b.round == n) = [b] → b.level = 0 → placeOf b.pa = .hbm →
        b.red = none → b.typ = 0 → b.psn = false → (s.getCore st.core).replay = none → Completes (.evRoundCommit i j n) s fun t =>
          SameBytes s t ∧ (∀ k, t.getCore k = { s.getCore k with l1 := (t.getCore k).l1 }) ∧ (∀ k, k ≠ i → t.getStamp k = s.getStamp k)
          ∧ (∀ k, k ≠ j → (t.getStamp i).copy k = st.copy k)
          ∧ (new t).committing = some n ∧ (new t).outstanding = 1 ∧ (new t).committed = c.committed
          ∧ ∃ q : StoreReq, t.agenda = .event (.storeAtHome q) :: s.agenda ∧ q.pa = b.pa ∧ q.data = b.data ∧ q.src = .region i j n)
    ∧ (s.copyRuns i j = true → c.redFault = none → c.landed ≠ some lt → st.endWave ≤ c.reg.wave → c.reg.inflight = [] →
        (c.committed = st.lastRound + 1 → Completes (.evRowCounterStep i j) s fun t =>
          only t ∧ t.agenda = s.agenda ∧ folded t ∧ new t = { c with reg := { c.reg with rowfile := (new t).reg.rowfile }, rowWrites := [], done := true })
        ∧ (c.committed ≠ st.lastRound + 1 → Completes (.evRowCounterStep i j) s fun t => only t ∧ t.agenda = s.agenda ∧ new t = c))
    ∧ (st.state = .running → st.held = false → (∀ x, x ∈ st.copies → x.done = true ∧ x.redFault = none) → Completes (.evPhaseRetire i) s fun t =>
        SameBytes s t ∧ t.agenda = s.agenda ∧ t.getStamp i = { st with state := .idle } ∧ ∀ k, k ≠ i → t.getStamp k = s.getStamp k)

/-- R125, R115, R117, R118, R119, R120, R204, R280, R164, R277: what happens at homes. Of device memory each write changes its bytes and, for a
task that logs, its write-log record (R355), and no other. A store changes its bytes, sends a message to every derived slot it
feeds, and only then is acknowledged; one that a rescan or rebuild concerns is held. A sum message adds the difference of the images,
limited to 96 bits; a maximum or block-scale message gives the slot its new value and starts a rescan where a multiplicity is emptied. A finished rescan or rebuild
replaces the slot by its value computed from memory, no longer stale nor being built, and answers its readers. An acknowledgement counts, that of a `LINE.RESET`
completes it, and one that says refused or dead is noted in the pending status. An
atomic and a reduction are one update each. An eviction pushes the line's CC bytes. -/
def Obligations.StepsAtHomes : Prop :=
  ∀ (s : State) (st : StoreReq) (m : Delta) (r : DRegion) (a : AtomReq) (q : RedReq) (cl line : Nat),
    let n := st.data.length
    let slot := r.slot m.slot
    let gets (i : Instr) (d : DSlot) (rescan : Bool) : Prop := s.region m.region = some r → s.hbm.worst (r.slotPa m.slot) 16 ≠ .bad → Completes i s fun t =>
      ∃ r', t.region m.region = some r' ∧ r'.slot m.slot = d ∧ (∀ k, k ≠ m.slot → r'.slot k = r.slot k)
        ∧ (∀ x, x < r.slotPa m.slot ∨ r.slotPa m.slot + 16 ≤ x → t.hbm.byte x = s.hbm.byte x)
        ∧ t.hbm.num (r.slotPa m.slot) 16 = d.bits r.kind % 2 ^ 128 ∧ t.agenda = s.agenda ∧ SameBytesButHbm s t
        ∧ (rescan = true → m.slot ∈ r'.pending) ∧ (rescan = false → r'.pending = r.pending)
    let done (i : Instr) : Prop := s.region m.region = some r → m.slot ∈ r.pending → s.unitReady r m.slot = true →
      (∀ w, w ∈ r.wordsOf (r.elemsOfSlot m.slot) → s.hbm.worst (8 * w) 8 = .clean) → Completes i s fun t =>
      ∃ r', t.region m.region = some r' ∧ r'.slot m.slot = s.recompute r m.slot ∧ (r'.slot m.slot).bit stStale = false
        ∧ (r'.slot m.slot).bit stBuild = false ∧ m.slot ∉ r'.pending ∧ SameBytesButHbm s t
        ∧ ∃ cs : List Nat, t.agenda = cs.map Action.seq ++ .event .heldTurn :: s.agenda
            ∧ ∀ c, c ∈ cs ↔ c < 72 ∧ (s.getCore c).seq.wait = .dread m.region m.slot
    let local' := placeOf st.pa ≠ .host ∧ s.homePkg st.pa = s.pkgNo
    (0 < n → st.pa / 128 = (st.pa + n - 1) / 128 → local' → s.canApply st.part st.pa n = true → s.behindHeld st = false →
      s.lost.contains (st.pa / 128) = false →
      s.inFootprint st.pa n = false → s.holdersOf st.pa = [] → Completes (.evStoreAtHome st) s fun t =>
        (∀ i (h : i < n), t.hbm.byte (st.pa + i) = st.data[i])
        ∧ (∀ x, x < st.pa ∨ st.pa + n ≤ x → s.outsideLog st.part (if st.src = .undo then 0 else st.task) x → t.hbm.byte x = s.hbm.byte x)
        ∧ SameBytesButHbm s t ∧ t.cores = s.cores
        ∧ ∃ ms, t.agenda = ms ++ .event (.storeAcknowledged st .done) :: s.agenda
            ∧ ∀ d, .event d ∈ ms ↔ ∃ r, r ∈ s.derived ∧ ∃ x, x ∈ s.deltas r s.hbm t.hbm st.pa n ∧ deltaEvent r.kind x = d)
    ∧ (0 < n → local' → s.mustHold st.pa n = true ∨ s.behindHeld st = true → Completes (.evStoreAtHome st) s fun t =>
        t.held = s.held ++ [.store st] ∧ t.hbm = s.hbm ∧ (s.mustHold st.pa n = true ∨ s.sealWaits st.part st.pa = false → SameBytes s t) ∧ t.agenda = s.agenda ∧ t.cores = s.cores)
    ∧ (let total := slot.acc + (m.changes.map fun c => r.weight m.slot c.new - r.weight m.slot c.old).sum
       gets (.evSumDeltaMessage m) (r.applySum m.slot m.changes slot) false
       ∧ (r.applySum m.slot m.changes slot).acc = max (-2 ^ 95) (min (2 ^ 95 - 1) total))
    ∧ gets (.evMaxDeltaMessage m) (r.applyMax m.changes slot).1 (r.applyMax m.changes slot).2
    ∧ gets (.evBscaleDeltaMessage m) (r.applyScale m.changes slot).1 (r.applyScale m.changes slot).2
    ∧ done (.evRescanComplete m.region m.slot) ∧ done (.evRebuildComplete m.region m.slot)
    ∧ (st.src = .sequencer → (s.getCore st.core).binding.task = st.task →
        let z := (s.getCore st.core).seq
        let only (t : State) : Prop := SameBytes s t ∧ t.agenda = s.agenda ∧ ∀ c, c ≠ st.core → t.getCore c = s.getCore c
        (placeOf st.pa = .hbm → n ≠ 128 → Completes (.evStoreAcknowledged st .done) s fun t => only t
          ∧ (t.getCore st.core).seq = { z with unacked := z.unacked - 1 })
        ∧ (n = 128 → z.wait = .home → placeOf st.pa = .hbm → Completes (.evStoreAcknowledged st .done) s fun t => only t
          ∧ (t.getCore st.core).seq = { z with unacked := z.unacked - 1, pc := z.pc + 4, wait := .none })
        ∧ (∀ k, k = .refused ∨ k = .dead → n ≠ 128 → placeOf st.pa ≠ .hbm → s.outPosted st = true → Completes (.evStoreAcknowledged st k) s fun t => only t
          ∧ (t.getCore st.core).seq = { z with post := { z.post with
              failCnt := min 255 (z.post.failCnt + 1), dead := z.post.dead || k == .dead, refused := z.post.refused || k == .refused
              fva := if z.post.failCnt = 0 then st.va.fld 47 0 else z.post.fva } }))
    ∧ (let n' := if a.word then 4 else 8
       let core := s.getCore a.core
       a.pa % n' = 0 → s.canApply core.binding.part a.pa n' = true → (s.held.any fun h => h.overlaps a.pa n') = false → s.isSealed a.pa = false →
       s.hbm.worst a.pa n' = .clean → s.lost.contains (a.pa / 128) = false →
       s.derived = [] → s.holdersOf a.pa = [] → a.psn = false → a.inval = false → a.strap = false → a.demoted = false →
       core.binding.dbg = false → core.replay = none → Completes (.evAtomicAtHome a) s fun t =>
         StoredLogged s core.binding.part core.binding.task t.hbm a.pa n' (atomNew a.op (8 * n') (s.hbm.num a.pa n') a.operand.toNat a.compare.toNat)
         ∧ SameBytesButHbm s t ∧ t.agenda = s.agenda ∧ (∀ c, c ≠ a.core → t.getCore c = { s.getCore c with l1 := (t.getCore c).l1 })
         ∧ (t.getCore a.core).seq.reg a.rd = (if a.rd = 0 then {} else ⟨atomResult a.op (8 * n') (s.hbm.num a.pa n'), false⟩)
         ∧ (t.getCore a.core).seq = { core.seq with regs := (t.getCore a.core).seq.regs, pc := core.seq.pc + 4, wait := .none }
         ∧ ∀ x, x ≠ a.rd → (t.getCore a.core).seq.reg x = core.seq.reg x)
    ∧ (let n' := fmtBytes q.fmt.toNat
       let c := (s.getStamp q.stamp).copy q.copy
       let b := (s.getCore (s.getStamp q.stamp).core).binding
       placeOf q.pa ≠ .host → q.pa % n' = 0 → s.canApply b.part q.pa n' = true → (s.held.any fun h => h.overlaps q.pa n') = false → s.isSealed q.pa = false →
       s.hbm.worst q.pa n' = .clean → s.lost.contains (q.pa / 128) = false →
       s.derived = [] → s.holdersOf q.pa = [] → q.psn = false → q.copy < (s.getStamp q.stamp).copies.length →
       Completes (.evReductionAtHome q) s fun t =>
         StoredLogged s b.part b.task t.hbm q.pa n' (combine q.op q.fmt.toNat (s.hbm.num q.pa n') q.value.toNat) ∧ SameBytesButHbm s t
         ∧ t.agenda = s.agenda
         ∧ ((t.getStamp q.stamp).copy q.copy).outstanding = c.outstanding - 1
         ∧ (∀ k, c.committing = some k → c.outstanding = 1 → ((t.getStamp q.stamp).copy q.copy).committed = k + 1))
    ∧ (let d := (s.getCluster cl).dirty
       let at' := line * 128
       (∀ x y, x ∈ d → y ∈ d → x.1 = y.1 → x = y) → s.lost.contains line = false → s.inFootprint at' 128 = false → s.mustHold at' 128 = false →
       s.isSealed at' = false → s.homeReady at' 128 = true → (s.held.any fun h => h.overlaps at' 128) = false →
       Completes (.evCcEvictionPush cl line) s fun t =>
         (∀ x, x ∈ d → x.1 / 128 = line → t.hbm.byte x.1 = x.2)
         ∧ (∀ p, s.outsideLogs p → (∀ x, x ∈ d → x.1 / 128 = line → x.1 ≠ p) → t.hbm.byte p = s.hbm.byte p)
         ∧ (∀ x, x ∈ (t.getCluster cl).dirty ↔ x ∈ d ∧ x.1 / 128 ≠ line) ∧ (∀ k, k ≠ cl → t.getCluster k = s.getCluster k)
         ∧ (∀ c, t.getCore c = { s.getCore c with l1 := (t.getCore c).l1 }) ∧ t.agenda = s.agenda)

/-- R31, R33, R34, R35 to R39, R77, R270, R280, R329, R331, R353, R373, R374, R229: members and tasks. An arrival counts at the home and waits there. A task signals
once: SIGNALS + 1 (saturating), DONE from TARGET on, ABORT and EARLY kept, LAST the task. A queued task whose dependences are done becomes Eligible (Bound, where
its gang is armed already), or is aborted where one has ABORT. A submission is taken when none is pending and the device is ready, else dropped; it waits behind the physical
function's writes that are held. An abort ends the task, releases and scrubs its cores, cancels its armed records and signals. A member in EXIT with nothing left
retires, the last one with its task. A scrub ends with the core unbound and its share zero. An asynchronous trap enters the handler at an instruction boundary. -/
def Obligations.TaskSteps : Prop :=
  ∀ (s : State) (c task : Nat) (h v : Word) (rec : BitVec 512) (k : SignalKind) (x : HeldTrap) (rest : List HeldTrap),
    let core := s.getCore c
    let tk := s.getTask task
    let b := core.binding
    let released (t : State) (c : Nat) (m : MState) : Prop := (t.getCore c).mstate = m ∧ (t.getCore c).bind = none ∧ (t.getCore c).scrub = true
      ∧ (t.getCore c).seq = {} ∧ (t.getCore c).cmds = [] ∧ (∀ a, (t.getCore c).scratch.byte a = 0)
    (∀ cl off, core.seq.wait = .remoteBarrier s.pkgNo h → s.barPlace c h false = .ok (.here cl off) → barBad (s.barObj cl off) = false → s.barSound cl off →
      barArrived (s.barObj cl off) + 1 < 2 ^ 32 → Completes (.evBarrierArrivalMessage (.core c) h) s fun t =>
        (t.getCore c).seq = { core.seq with wait := .barrier cl off (barGen (s.barObj cl off)) } ∧ (t.getCore c).mstate = .waiting
        ∧ (∀ a, t.hbm.byte a = s.hbm.byte a) ∧ t.agenda = s.agenda
        ∧ (∀ a, a < off ∨ off + 16 ≤ a → (t.getCluster cl).cm.byte a = (s.getCluster cl).cm.byte a) ∧ (∀ k, k ≠ cl → t.getCluster k = s.getCluster k)
        ∧ barCount (t.barObj cl off) = barCount (s.barObj cl off) ∧ barScope (t.barObj cl off) = barScope (s.barObj cl off)
        ∧ (barArrived (s.barObj cl off) + 1 = barCount (s.barObj cl off) →
            barArrived (t.barObj cl off) = 0 ∧ barGen (t.barObj cl off) = (barGen (s.barObj cl off) + 1) % 2 ^ 32)
        ∧ (barArrived (s.barObj cl off) + 1 ≠ barCount (s.barObj cl off) → barArrived (t.barObj cl off) = barArrived (s.barObj cl off) + 1
            ∧ barGen (t.barObj cl off) = barGen (s.barObj cl off)))
    ∧ (∀ leaf pa, task ≠ 0 → tk.signalled = false → s.compPlace tk.part tk.comp true = some (leaf, pa) → placeOf pa = .hbm → s.homePkg pa = s.pkgNo →
        s.canApply tk.part pa 16 = true → (Held.signal pa task k (leafHc leaf) none).behind s.held = false → s.inFootprint pa 16 = false →
        s.lost.contains (pa / 128) = false → s.hbm.worst pa 16 = .clean → (∀ w, w ∈ wordParts pa 16 → s.hbm.worst w.1 w.2 = .clean) →
        s.signalsHere.contains task = false → (∀ d, d < 72 → (s.getCore d).binding.task = task → (s.getCore d).seq.wait ≠ .signal) →
        let w := s.hbm.num pa 16
        Completes (.evCompletionSignal task k) s fun t => ∃ u, StoredAt s.hbm t.hbm pa 16 u ∧ SameBytesButHbm s t
          ∧ (∀ d, t.getCore d = { s.getCore d with l1 := (t.getCore d).l1 })
          ∧ fieldOf u 127 96 = fieldOf w 127 96 ∧ fieldOf u 95 64 = min (fieldOf w 95 64 + 1) (2 ^ 32 - 1)
          ∧ (bitOf u 63 = true ↔ bitOf w 63 = true ∨ fieldOf w 127 96 ≤ fieldOf u 95 64) ∧ (bitOf u 62 = true ↔ bitOf w 62 = true ∨ k = .abort)
          ∧ (bitOf u 61 = true ↔ bitOf w 61 = true ∨ k = .trig) ∧ fieldOf u 31 0 = task % 2 ^ 32 ∧ (t.getTask task).signalled = true
          ∧ (k = .trig → (t.getTask task).irrevocable = true))
    ∧ (tk.signalled = true → Completes (.evCompletionSignal task k) s fun t => t = s)
    ∧ (tk.state = .queued → s.depsDone tk = (true, false) → Completes (.evDependencesComplete task) s fun t => SameBytes s t ∧ t.agenda = s.agenda
        ∧ (let armed := ∃ n, n < 256 ∧ s.bindStatus n = 1 ∧ s.bindOp n = 1 ∧ s.bindTask n = task ∧ s.gangCount task 1 (s.bindTick n) = tk.nmemb
           (armed → t.getTask task = { tk with state := .bound, eligible := some (tk.eligible.getD s.tick) })
           ∧ (¬armed → t.getTask task = { tk with state := .eligible, eligible := some (tk.eligible.getD s.tick) }))
        ∧ ∀ j, j ≠ task → t.getTask j = s.getTask j)
    ∧ (tk.state = .queued → s.depsDone tk = (true, true) → Completes (.evDependencesComplete task) s fun t => SameBytes s t
        ∧ t.getTask task = { tk with state := .aborted } ∧ t.agenda = .event (.completionSignal task .abort) :: s.agenda)
    ∧ (tk.state = .queued → (s.depsDone tk).1 = false → Completes (.evDependencesComplete task) s fun t => t = s)
    ∧ ((Held.subreg 0 rec).behind s.held = false → s.substat.bit 8 = false → s.bootst.fld 3 0 = 3 → Completes (.evSubreg rec) s fun t =>
        t.subreg = some rec ∧ t.substat = s.substat.put 8 8 1 ∧ t.pkgctl = false ∧ t.gating = false
        ∧ { t with subreg := s.subreg, substat := s.substat, pkgctl := s.pkgctl, gating := s.gating, exiting := s.exiting } = s)
    ∧ ((Held.subreg 0 rec).behind s.held = false → s.substat.bit 8 = true ∨ s.bootst.fld 3 0 ≠ 3 → Completes (.evSubreg rec) s fun t =>
        t.substat.bit 9 = true ∧ t = { s with substat := t.substat })
    ∧ ((Held.subreg 0 rec).behind s.held = true → Completes (.evSubreg rec) s fun t => t = { s with held := s.held ++ [.subreg 0 rec] })
    ∧ (v.bit 9 = true → Completes (.evSubstat v) s fun t => t.substat.bit 9 = false ∧ t.substat.fld 63 10 = s.substat.fld 63 10
        ∧ t.substat.fld 8 0 = s.substat.fld 8 0 ∧ t = { s with substat := t.substat })
    ∧ (v.fld 31 0 = task → v.fld 63 48 = 0 → v.fld 47 32 = tk.part → task ≠ 0 → tk.state ≠ .retired → tk.state ≠ .aborted →
        (∀ c, c ∈ s.coresOfTask task → s.faultHeld c = false) → ∀ i, i ∈ [Instr.evTaskabort v, .evTabort v] → Completes i s fun t =>
          (t.getTask task).state = .aborted ∧ (t.getTask task).saves = [] ∧ t.agenda = .event (.completionSignal task .abort) :: s.agenda
          ∧ (∀ c, c ∈ s.coresOfTask task → released t c .retired) ∧ (∀ i st, (i, st) ∈ t.stamps → st.task ≠ task)
          ∧ ∀ n, n < 256 → s.bindStatus n = 1 → s.bindTask n = task → t.bindStatus n = 0 ∧ t.bindOp n = 0)
    ∧ (core.seq.wait = .exit → core.mstate = .waiting → s.mayRetire c = true → core.replay = none →
        let n := (s.getTask b.task).retiredCount + 1
        Completes (.evMemberRetire c) s fun t => released t c .retired ∧ (t.getTask b.task).retiredCount = n
          ∧ (∀ i st, (i, st) ∈ t.stamps → ¬(st.task = b.task ∧ st.memb = b.memb))
          ∧ (n = (s.getTask b.task).nmemb → (t.getTask b.task).state = .retired ∧ t.agenda = .event (.completionSignal b.task .retire) :: s.agenda)
          ∧ (n ≠ (s.getTask b.task).nmemb → (t.getTask b.task).state = (s.getTask b.task).state ∧ t.agenda = s.agenda))
    ∧ (core.seq.wait ≠ .exit ∨ s.mayRetire c = false → Completes (.evMemberRetire c) s fun t => t = s)
    ∧ (core.scrub = true → (∀ d b, d ∈ coresOf (clusterOf c) → (s.getCore d).bind = some b → b.task ≠ core.scrubTask) →
        (∀ kv, kv ∈ s.stamps → kv.2.runsOn c = false) →
        Completes (.evCoreScrubComplete c) s fun t => (t.getCore c).scrub = false ∧ (t.getCore c).mstate = .unbound
          ∧ (∀ a, (t.getCluster (clusterOf c)).cm.byte a = if withinOf c * 983040 ≤ a ∧ a < (withinOf c + 1) * 983040 then 0
              else (s.getCluster (clusterOf c)).cm.byte a)
          ∧ (∀ d, d ≠ c → t.getCore d = s.getCore d) ∧ (∀ a, t.hbm.byte a = s.hbm.byte a) ∧ t.agenda = s.agenda)
    ∧ (s.canDeliver c = true → core.seq.traps = x :: rest → core.seq.tvec.bit 0 = true → Completes (.evAsyncTrapDelivery c) s fun t =>
        let epc : Word := match core.seq.wait with
          | .phase i => if (s.getStamp i).state = .running then core.seq.pc else core.seq.pc + 4
          | _ => core.seq.pc
        (t.getCore c).seq = { core.seq with
          traps := rest, tepc := epc, tcause := x.trap.cause, tval := x.trap.tval, tvec := core.seq.tvec.put 0 0 0, inHandler := true
          pc := BitVec.ofNat 64 (core.seq.tvec.fld 63 2 * 4), wait := .none }
        ∧ (t.getCore c).mstate = .running ∧ SameBytes s t ∧ t.agenda = s.agenda ∧ ∀ d, d ≠ c → t.getCore d = s.getCore d)
    ∧ (s.canDeliver c = true → core.seq.traps = x :: rest → core.seq.tvec.bit 0 = false → core.replay = none → Completes (.evAsyncTrapDelivery c) s fun t =>
        (t.getCore c).mstate = .faulted ∧ (t.getCore c).seq = { core.seq with traps := rest, tcause := x.trap.cause, tval := x.trap.tval, wait := .none }
        ∧ SameBytes s t ∧ t.agenda = .event (.memberGone b.task b.memb) :: s.agenda ∧ ∀ d, d ≠ c → t.getCore d = s.getCore d)

/-- R328, R336 to R343, R30, R32, R38, R41: the slot table. Saiga's write of OP arms a record, or refuses it (too early, a core that is taken, out of service or
being scrubbed, ...); OP 0 empties it. A BIND of a gang that is whole gives the member its start state; one of a gang that is not binds none. A PREEMPT stops its phases;
a gang that does not reach its points is frozen; members at their points, or frozen with their accesses complete, are captured; the spill keeps the
scratchpad and the share and releases the core; a RESUME gives the member its saved state back. (Writes that Saiga does not make: log entry 92.) -/
def Obligations.SchedulingSteps : Prop :=
  ∀ (s : State) (n task c : Nat) (v : Word) (x : SavedCtx),
    let tk := s.getTask task
    let core := s.getCore c
    let mine := s.bindTask n = task ∧ s.bindCore n = c
    let arms (i : Instr) (op : Nat) : Prop := n < 256 → v.fld 2 0 = op → s.bindStatus n ≠ 1 →
      let w : State := { s with slotTab := Store.set 0 s.slotTab (4 * n) (BitVec.ofNat 64 op) }
      let g := s.bindTask n
      (s.bindTick n < s.tick + 10000 → w.recordRefused n = true)
      ∧ (w.recordRefused n = true → Completes i s fun t => t.bindOp n = op ∧ t.bindStatus n = 3 ∧ { t with slotTab := s.slotTab } = s
          ∧ ∀ k, k ≠ 4 * n → Store.get 0 t.slotTab k = Store.get 0 s.slotTab k)
      ∧ (w.recordRefused n = false → w.saigaArms n = true → Completes i s fun t => SameBytes s t ∧ t.agenda = s.agenda
          ∧ t.bindOp n = op ∧ t.bindStatus n = 1 ∧ (∀ k, k ≠ 4 * n → Store.get 0 t.slotTab k = Store.get 0 s.slotTab k)
          ∧ (op = 1 → (t.getCore (s.bindCore n)).mstate = .bound) ∧ (∀ d, op ≠ 1 ∨ d ≠ s.bindCore n → t.getCore d = s.getCore d)
          ∧ (op = 1 → (s.getTask g).state = .eligible → t.gangCount g 1 (s.bindTick n) = (s.getTask g).nmemb → (t.getTask g).state = .bound))
      ∧ (w.recordRefused n = false → w.saigaArms n = false → Completes i s fun t => t = s)
    let undebugged := ∀ c, (s.getCore c).binding.dbg = false
    (s.saigaRuns = true → arms (.evArmBind n v) 1 ∧ arms (.evArmResume n v) 2 ∧ arms (.evArmPreempt n v) 3 ∧ arms (.evArmFreeze n v) 4
      ∧ (n < 256 → s.bindStatus n = 1 → s.bindTick n ≤ s.tick → Completes (.evCancelBindRecord n) s fun t =>
          t = { s with inputs := s.inputs ++ [.cancelBindRecord n] })
      ∧ (n < 256 → ¬(s.bindStatus n = 1 ∧ s.bindTick n ≤ s.tick) → Completes (.evCancelBindRecord n) s fun t => t.bindWord n 0 = 0 ∧ SameBytes s t ∧ t.agenda = s.agenda
          ∧ (∀ k, k ≠ 4 * n → Store.get 0 t.slotTab k = Store.get 0 s.slotTab k)
          ∧ (s.bindStatus n = 1 → s.bindOp n = 1 → (s.getCore (s.bindCore n)).mstate = .bound → (t.getCore (s.bindCore n)).mstate = .unbound
              ∧ ((s.getTask (s.bindTask n)).state = .bound → (t.getTask (s.bindTask n)).state = .eligible))))
    ∧ (s.recordDue n 1 = true → mine → s.ticks (c / 2) = true → tk.state = .bound → s.coreLost task 1 (s.bindTick n) = false →
        (s.gangReady task 1 (s.bindTick n) = true → Completes (.evBindExecute n) s fun t =>
          let k := t.getCore c
          t.bindStatus n = 2 ∧ (t.getTask task).state = .running ∧ (t.getTask task).boundAt = s.tick ∧ k.mstate = .running ∧ k.bind = some (s.bindingOf n)
          ∧ k.seq.pc = s.entryPc tk (s.bindMemb n) ∧ k.seq.mcc = 0 ∧ k.seq.fpctl = 0 ∧ k.seq.tvec = 0 ∧ k.seq.wait = .none
          ∧ (∀ r : Reg, k.seq.reg r = if r = 1 then ⟨BitVec.ofNat 64 (tk.fld 207 164 * 16), false⟩ else {})
          ∧ (∀ d, d ≠ c → t.getCore d = { s.getCore d with l1 := (t.getCore d).l1 }) ∧ t.agenda = (s.later [.seq c]).agenda
          ∧ ∀ a, t.hbm.byte a = s.hbm.byte a)
        ∧ (s.gangStarts task 1 (s.bindTick n) = false → Completes (.evBindExecute n) s fun t =>
          t.bindStatus n = 2 ∧ t.getCore c = { core with mstate := if core.mstate = .bound then .unbound else core.mstate } ∧ SameBytes s t ∧ t.agenda = s.agenda
          ∧ t.getTask task = tk ∧ ∀ d, d ≠ c → t.getCore d = s.getCore d))
    ∧ (s.recordDue n 3 = true → mine → s.holdsMember c task (s.bindMemb n) = true → Completes (.evPreemptExecute n) s fun t =>
        t.bindStatus n = 2 ∧ t.getCore c = { core with preempt := true } ∧ (tk.stop = .none → (t.getTask task).stop = .points (s.bindTick n)) ∧ SameBytes s t
        ∧ t.agenda = (if (s.getPart tk.part).psched.fld 35 26 = 0 then [.event (.preemptTimeout task)] else []) ++ s.agenda)
    ∧ (∀ f, tk.stop = .points f → Completes (.evPreemptTimeout task) s fun t =>
        t = { s with agenda := (if f + 10000 * (s.getPart tk.part).psched.fld 35 26 ≤ s.tick
          ∧ ((s.getPart tk.part).psched.fld 35 26 = 0 ∨ ∃ d, d ∈ s.coresOfTask task ∧ s.atPoint d = false)
          then [.event (.forcedFreeze task)] else []) ++ s.agenda })
    ∧ (s.freezeDue task = true → tk.state = .running → tk.stop = .none → undebugged → Completes (.evForcedFreeze task) s fun t =>
        (t.getTask task).stop = .freezing s.tick false ∧ SameBytes s t
        ∧ (∀ d, d ∈ s.coresOfTask task → (s.getCore d).mstate = .running ∨ (s.getCore d).mstate = .waiting →
            (t.getCore d).mstate = .frozen ∧ (t.getCore d).seq = (s.getCore d).seq
            ∧ ∀ i, (s.getStamp i).task = task → (s.getStamp i).memb = (s.getCore d).binding.memb → i ∈ s.stamps.map Prod.fst → (t.getStamp i).held = true)
        ∧ ∀ d, d ∉ s.coresOfTask task → t.getCore d = s.getCore d)
    ∧ (core.mstate = .frozen → core.bind.isSome = true → s.quietCore c = true → core.binding.task = task → core.replay = none → tk.capturing = true →
        Completes (.evFastContextCaptured c) s fun t =>
        (t.getCore c).mstate = .saved ∧ (t.getCore c).captured = true ∧ (t.getCore c).shadow = some (task, core.binding.memb) ∧ SameBytes s t
        ∧ (∃ y, y ∈ (t.getTask task).saves ∧ y.memb = core.binding.memb ∧ y.seq = core.seq ∧ y.slots = core.slots ∧ y.cmds = core.cmds
            ∧ y.wp = core.wp ∧ y.handles = core.handles) ∧ (∀ d, d ≠ c → t.getCore d = s.getCore d)
        ∧ (∀ f, (∀ d, d ∈ s.coresOfTask task → d ≠ c → (s.getCore d).captured = true) → tk.stop = .freezing f false → tk.packages = 1 →
            (t.getTask task).state = .saved ∧ (t.getTask task).stop = .spilling))
    ∧ (∀ f, tk.stop = .points f → tk.state = .running → tk.packages = 1 → s.coresOfTask task ≠ [] → undebugged →
        (∀ d, d ∈ s.coresOfTask task → s.pointSave d = true ∧ (s.getCore d).engineRuns = false ∧ s.quietCore d = true ∧ (s.getCore d).live = true) →
        Completes (.evGangSaveAtPoints task) s fun t => (t.getTask task).state = .saved ∧ (t.getTask task).stop = .spilling ∧ SameBytes s t
          ∧ (∀ d, d ∈ s.coresOfTask task → (t.getCore d).captured = true ∧ (t.getCore d).mstate = .saved ∧ (t.getCore d).seq = (s.getCore d).seq)
          ∧ ∀ i, (t.getStamp i).copies = (s.getStamp i).copies)
    ∧ (core.captured = true → core.bind.isSome = true → core.binding.task = task → tk.stop = .spilling → Completes (.evSpillComplete c) s fun t =>
        let cl := s.getCluster (clusterOf c)
        (t.getCore c).mstate = .unbound ∧ (t.getCore c).bind = none ∧ (t.getCore c).scrub = true ∧ (t.getCore c).seq = {}
        ∧ (∀ y, y ∈ tk.saves → y.memb = core.binding.memb → ∃ z, z ∈ (t.getTask task).saves ∧ z.memb = y.memb ∧ z.spilled = true
            ∧ z.scratch = (core.scratch.withBanks core.banks 1 1024).written y.granules 0
            ∧ z.share = ((cl.cm.withBanks cl.banks 2 1024).slice (withinOf c * 983040) 983040).written y.granules (45 - 15 * withinOf c)
            ∧ z.seq = y.seq))
    ∧ (s.recordDue n 2 = true → mine → tk.saving = false → s.ticks (c / 2) = true → s.coreLost task 2 (s.bindTick n) = false →
        s.gangReady task 2 (s.bindTick n) = true → s.resumesOk task (s.bindTick n) = true → s.savedCtx task (s.bindMemb n) = some x →
        x.bind.dbg = false → x.bind.task = task → (∀ r, x.seq.wait ≠ .page r) → Completes (.evResumeExecute n) s fun t =>
          t.bindStatus n = 2 ∧ (t.getCore c).seq = x.seq ∧ (t.getCore c).mstate = .running
          ∧ (t.getCore c).bind = some { x.bind with save := s.bindSave n } ∧ (t.getCore c).slots = x.slots ∧ (t.getCore c).cmds = x.cmds
          ∧ (t.getTask task).state = .running ∧ (∀ y, y ∈ (t.getTask task).saves → y.memb ≠ x.memb) ∧ t.agenda = (s.later [.seq c]).agenda
          ∧ ∀ d, d ≠ c → t.getCore d = { s.getCore d with l1 := (t.getCore d).l1 })

/-- R233, R63, R70, R71, R239, R244, R245, R249, R250, R251, R258, R260, R261: the engines' steps. A held command issues once fewer than 64 are pending. A started command
keeps its start cycle; a starting copy sets its channel's pointer. A granule lands its bytes and moves the pointer; the last one lets the command
retire, and a retired command's channel is no longer active. `.Z` makes the tile zero; a slice gives every cell its sum; `ACC.ZERO` and `ACC.LD`
write the cells. Tahr results and collective contributions land in order; a collective part whose group has lost a member before it issued its own stops.
(That no page, channel or oracle holds the access is among the hypotheses.) -/
def Obligations.EngineSteps : Prop :=
  ∀ (s : State) (c id rep slice rank : Nat) (m : Cmd) (i : Instr) (s1 s2 : State),
    let core := s.getCore c
    let mcc := core.seq.mcc.toNat
    let cell (t : State) (n k : Nat) : AccCell := Store.get {} ((t.getCore c).slot n).cells k
    let wp (t : State) : Word := Store.get wpReset (t.getCore c).wp m.chan
    let n := m.long.slot.toNat
    let retires (i : Instr) : Prop := Completes i s fun t => (t.getCore c).cmd id = none ∧ (t.getCore c).seq = core.seq ∧ t.agenda = s.agenda
      ∧ (t.getCore c).slots = core.slots ∧ (m.delivers = true → (wp t).bit 61 = false ∧ (wp t).fld 60 0 = (wp s).fld 60 0 ∧ (wp t).fld 63 62 = (wp s).fld 63 62)
      ∧ ∀ x, x ∈ (t.getCore c).cmds → x.id ≠ id → x ∈ core.cmds
    let alone := ∀ x, x ∈ core.cmds → x.id = id ∨ x.started = none
    (core.seq.wait = .engine → core.pendingCmds < 64 → decodeWords (core.seq.ir.fld 31 0) (core.seq.ir.fld 63 32) = .ok i → (longOf i).isSome = true →
      ∃ t, exec (.evHeldCommandAccepted c) s = .next t ∧ exec i { s with core := c } = .next t)
    ∧ (core.cmd id = some m →
      (m.started = none → core.mstate = .running ∨ core.mstate = .waiting → m.begins ≤ mcc → alone →
        (m.isZero = true → Completes (.evEngineCommandStart c id 0) s fun t =>
          (t.getCore c).cmd id = some { m with started := some mcc } ∧ (t.getCore c).seq = core.seq ∧ SameBytes s t ∧ t.agenda = s.agenda)
        ∧ (m.engine = .markhor → m.long.z = true → core.arrayFree ≤ mcc → Completes (.evEngineCommandStart c id 0) s fun t =>
            (t.getCore c).arrayFree = mcc + m.pace * m.repeats * m.slices ∧ SameBytes s t
            ∧ ∃ x, x ∈ (t.getCore c).cmds ∧ x.id = id ∧ x.started = some mcc)
        ∧ (m.engine = .serow → m.src ≠ 0 → m.dst ≠ 0 → m.total ≠ 0 → m.checked = false → (wp s).bit 61 = false → s.copyRange c m = true → Completes (.evEngineCommandStart c id 0) s fun t =>
            (wp t).fld 63 62 = (m.dst - 1) % 4 ∧ (wp t).bit 61 = true ∧ (wp t).bit 60 = false ∧ (wp t).fld 55 28 = m.ra.toNat % 2 ^ 28
            ∧ (wp t).fld 27 0 = m.ra.toNat % 2 ^ 28 ∧ (∃ x, (t.getCore c).cmd id = some x ∧ x.started = some mcc) ∧ SameBytes s t ∧ t.agenda = s.agenda))
      ∧ (m.started.isSome = true →
        (m.engine = .serow → s.cmdWaits c m = false → m.done < m.total → s.choice = 0 → s.chosen.copyPages c m = .ok true s1 →
          s1.copyGranule c m m.done (min m.total (m.done + 128)) = .ok () s2 → Completes (.evCopyGranuleLands c id) s fun t =>
            (∀ x, x ∈ (t.getCore c).cmds → x.id = id → x.done = min m.total (m.done + 128)) ∧ t.hbm = s2.hbm ∧ (t.getCore c).scratch = (s2.getCore c).scratch
            ∧ (m.delivers = true → m.dst ≠ 0 → (wp t).fld 27 0 = (m.ra.toNat + min m.total (m.done + 128)) % 2 ^ 28)
            ∧ t.agenda = (s2.later (if m.total ≤ m.done + 128 then [.event (.copyRetire c id)] else [])).agenda)
        ∧ (∀ l, m.instr = .scopy l → m.src = 1 → m.dst = 1 → m.checked = true → m.done = 0 → 0 < m.rc.toNat → m.rc.toNat ≤ 8 → m.rb.toNat % 8 = 0 →
            m.ra.toNat % 128 + m.rc.toNat ≤ 128 → s.scratchLoc c core.binding.part 1 m.rb = .core c m.rb.toNat →
            s.scratchLoc c core.binding.part 1 m.ra = .core c m.ra.toNat → s.bankUse = [] → s.chipWorst (.core c m.rb.toNat) m.rc.toNat = .clean →
            core.binding.dbg = false → core.replay = none → s.cmdWaits c m = false → s.choice = 0 → Completes (.evCopyGranuleLands c id) s fun t =>
              StoredAt core.scratch (t.getCore c).scratch m.ra.toNat m.rc.toNat (core.scratch.num m.rb.toNat m.rc.toNat)
              ∧ (∀ a, t.hbm.byte a = s.hbm.byte a) ∧ t.agenda = (s.later [.event (.copyRetire c id)]).agenda)
        ∧ (m.engine = .serow → m.done = m.total → m.out = 0 → (m.dst = 0 → s.lost = []) → retires (.evCopyRetire c id))
        ∧ (m.engine = .markhor → m.long.z = true → pairTag m.tileTag = false → pairTag (core.slot n).tag = false → Completes (.evMstepZeroing c id) s fun t =>
            (t.getCore c).slot n = { tag := m.tileTag, cells := [] } ∧ (∀ k, k ≠ n → (t.getCore c).slot k = core.slot k) ∧ (t.getCore c).seq = core.seq ∧ SameBytes s t)
        ∧ (let lo := slice * m.sliceLen
           let ps (y x : Nat) := (Store.get {} m.reps rep).pairs m lo (min m.depth (lo + m.sliceLen)) y x
           let sum (y x : Nat) := sliceCell m (cell s n (32 * y + x)).bits.toNat (if pairTag m.tileTag then (cell s (n + 1) (32 * y + x)).bits.toNat else 0)
             ((ps y x).map fun p => (p.1.1, p.2.1))
           m.engine = .markhor → m.rows ≤ 32 → m.cols ≤ 32 → (∀ y x, y < m.rows → x < m.cols → (sum y x).isSome = true ∧
             ((ps y x).any fun p => p.1.2 || p.2.2) = false) → Completes (.evTileStepSliceRetire c id rep slice) s fun t =>
               SameBytes s t ∧ t.agenda = s.agenda ∧ (t.getCore c).seq = core.seq
               ∧ (∀ y x r, y < m.rows → x < m.cols → sum y x = some r → cell t n (32 * y + x) = ⟨BitVec.ofNat 32 r.1, (cell s n (32 * y + x)).psn⟩
                   ∧ (pairTag m.tileTag = true → cell t (n + 1) (32 * y + x) = ⟨BitVec.ofNat 32 r.2, (cell s (n + 1) (32 * y + x)).psn⟩))
               ∧ (∀ k, (∀ y x, y < m.rows → x < m.cols → k ≠ 32 * y + x) → cell t n k = cell s n k)
               ∧ ∀ j, j ≠ n → j ≠ n + 1 → (t.getCore c).slot j = core.slot j)
        ∧ (m.engine = .markhor → retires (.evTileStepRetire c id))
        ∧ (m.isZero = true → pairTag m.tileTag = false → pairTag (core.slot n).tag = false → Completes (.evAccCellsWritten c id) s fun t =>
            (t.getCore c).slot n = { tag := m.tileTag, cells := [] } ∧ (∀ k, k ≠ n → (t.getCore c).slot k = core.slot k) ∧ (t.getCore c).seq = core.seq ∧ SameBytes s t)
        ∧ (∀ l, m.instr = .accLd l → pairTag m.tileTag = false → (core.slot n).tag = m.tileTag → 0 < m.cols → m.cols ≤ 32 → m.data.length = m.rows * m.cols →
            Completes (.evAccCellsWritten c id) s fun t => SameBytes s t ∧ ((t.getCore c).slot n).tag = m.tileTag
              ∧ (∀ k (h : k < m.data.length), cell t n (32 * (k / m.cols) + k % m.cols) = ⟨BitVec.ofNat 32 (cellIn m.long.fmt m.data[k].1).1, m.data[k].2⟩)
              ∧ ∀ k, m.cols ≤ k % 32 ∨ m.rows ≤ k / 32 → cell t n k = cell s n k)
        ∧ (m.engine = .accum → retires (.evAccCommandRetire c id))
        ∧ (m.engine = .tahr → m.checked = true → m.done < m.data.length → m.headerSize = 0 → s.cmdWaits c m = false → s.choice = 0 → s.chosen.tahrAwake c m = true →
            let z := m.resultSize
            let k := min (128 / z) (m.data.length - m.done)
            0 < k → s.chosen.engBanks (fun s => s.engStore c id m.long.low (runsOf (BitVec.ofNat 64 (m.yoff + m.done * z))
              (((m.data.drop m.done).take k).flatMap fun v => (toBytes z v.1).map fun b => (b, v.2)))) = .ok () s2 →
            Completes (.evTahrResultLands c id) s fun t => t.hbm = s2.hbm ∧ t.clusters = s2.clusters ∧ t.cp = s2.cp
              ∧ (∀ x, x ∈ (t.getCore c).cmds → x.id = id → ∃ y, y ∈ (s2.getCore c).cmds ∧ y.id = id ∧ x.done = y.done + k)
              ∧ t.agenda = (s2.later (if m.done + k = m.data.length then [.event (.tahrRetire c id)] else [])).agenda)
        ∧ (m.engine = .tahr → m.checked = true → m.done = m.data.length → m.out = 0 → retires (.evTahrRetire c id))
        ∧ (s.mayLand c m rank = true → s.choice = 0 → s.chosen.engBanks (fun s => (s.contribution c m rank).andThen fun vs s =>
              s.landAll c m (m.rb.fld 27 0 + (if m.blocks.2 then rank * m.blockLen * m.landBytes else 0)) (m.reduces && rank == s.rankOf c m) vs) = .ok () s2 →
            Completes (.evCollectiveLanding c id rank) s fun t => t.clusters = s2.clusters ∧ t.cp = s2.cp ∧ t.agenda = s2.agenda
              ∧ ∀ x, x ∈ (t.getCore c).cmds → x.id = id → x.landed = m.landed ++ [rank])
        ∧ (m.engine = .collect → s.anyGone c m = false → (∀ r, r ∈ m.ranks → r ∈ m.landed) → s.sourceSent c m = true → retires (.evCollectivePartRetire c id))
        ∧ (m.engine = .collect → s.anyGone c m = true → Completes (.evCollectivePartRetire c id) s fun t => (t.getCore c).cmd id = none ∧ SameBytes s t
            ∧ (t.getCore c).seq.traps = insertTrap ⟨s.trapKey c, { timingTrap with src := 2, tval := m.va }⟩ core.seq.traps)))

/-- R30, R80, R319, R320, R321, R323, R324, R325, R326, R349, R350, R351, R353, R354, R356, R357, R318, R345: Saiga's events. The arbiter writes a record of 32 bytes at the
tail, with which an abort or a recovery begins. A written head moves only within the queue. A lockstep failure begins a fail-over while a spare is left, else takes the complex out of
service. Saiga's writes set the registers they name; answers restart or fault what waits; an invalidation drops its range's entries, then sets
DONE. Lost state and lost lines are recorded. (Which audit payload is written is the model's own: log entry 4.) -/
def Obligations.SaigaSteps : Prop :=
  ∀ (s : State) (v val : Word) (c n idx pa part cls code detail unit src sc o : Nat) (r : PageReq) (f : Option Nat),
    let core := s.getCore c
    let size := queueSize s.evcfg
    let saigaEv (o : Nat) (val : Word) (part cls code core : Nat) : Pending := ⟨o, .saiga val part cls code 0 0 0 core⟩
    let becomes (i : Instr) (u : State) : Prop := Completes i s fun t => t = u
    let audited (t : State) (kind part : Nat) (more : List Pending) : Prop :=
      ∃ x, t.pending = s.pending ++ more ++ [⟨orderSaiga, .audit kind part 1 x⟩]
    let p := s.pidx % 65536
    let eb := s.getPart p
    (let e : Event := .saiga val part cls code detail unit src sc
     s.evFull = false → s.pending = [⟨o, e⟩] → cls ≠ 6 → s.takes e = true → s.evPlace s.evtail + 32 ≤ 2 ^ 22 →
     (cls = 1 → sc < 72 → (s.getCore sc).mstate = .faulted → (s.getCore sc).bind.isSome = true → (s.getCore sc).binding.task = 0 → Completes .evEventTaken s fun t =>
       (t.getCore sc).mstate = .retired ∧ (t.getCore sc).bind = none ∧ (t.getCore sc).scrub = true ∧ t.evseq = s.evseq + 1)
     ∧ (((s.getCore sc).mstate = .faulted → (s.getCore sc).binding.task ≠ 0) → Completes .evEventTaken s fun t =>
       StoredAt s.saiga t.saiga (s.evPlace s.evtail) 32 (recordBits s.evseq s.tick val.toNat part cls code detail unit src sc)
       ∧ t.evtail = (s.evtail + 1) % size ∧ t.evseq = s.evseq + 1 ∧ t.pending = []
       ∧ t.sgstat = (if t.evFull then s.sgstat.put 7 7 1 else s.sgstat)
       ∧ (let k := s.getCore sc
          t.agenda = (if cls = 1 ∧ sc < 72 ∧ k.mstate = .faulted ∧ k.replay = none ∧ k.binding.part = part then [.event (.tabort (abortWord part k.binding.task))]
            else if cls = 3 ∧ sc < 72 ∧ k.struck = true then [.event (.recover sc)] else []) ++ s.agenda)
       ∧ { t with saiga := s.saiga, evtail := s.evtail, evseq := s.evseq, pending := s.pending, sgstat := s.sgstat, agenda := s.agenda } = s))
    ∧ (s.evFull = true → s.pending ≠ [] → becomes .evEventTaken { s with sgstat := s.sgstat.put 7 7 1 })
    ∧ (s.failingOver = false → s.saigaOut = false →
        (∀ i, f = some i → i ∈ s.pair → s.sgstat.fld 5 4 ≠ 3 →
          becomes (.evLockstepFailure f) { s with failingOver := true, failFrom := s.tick, failedHart := i })
        ∧ ((∀ i, f = some i → i ∉ s.pair) ∨ s.sgstat.fld 5 4 = 3 → Completes (.evLockstepFailure f) s fun t => t.saigaOut = true
            ∧ t.bootst.fld 31 24 = 4 ∧ t.bootst.fld 2 0 = 4 ∧ t.alert = true ∧ t.out = s.out ++ [.alert]
            ∧ { t with saigaOut := s.saigaOut, bootst := s.bootst, alert := s.alert, out := s.out } = s))
    ∧ (s.failingOver = true → s.auditRoom ≠ 0 → Completes .evFailoverComplete s fun t => t.failingOver = false ∧ t.sgstat.fld 5 4 = 3
        ∧ t.sgstat.fld 1 0 = min 3 (s.sgstat.fld 1 0 + 1) ∧ t.sgstat.fld 3 2 = s.sgstat.fld 3 2 ∧ t.sgstat.fld 63 6 = s.sgstat.fld 63 6
        ∧ (∃ x, t.pending = s.pending ++ [saigaEv orderSaiga 0 0xFFFF 5 0 0xFF, ⟨orderSaiga, .audit 8 0xFFFF 0 x⟩])
        ∧ (∀ good bad, s.pair = [good, bad] ∨ s.pair = [bad, good] → good ≠ bad → s.failedHart = bad → t.pair = [good, s.sgstat.fld 5 4]
            ∧ Store.get {} t.harts (s.sgstat.fld 5 4) = Store.get {} s.harts good)
        ∧ { t with failingOver := true, sgstat := s.sgstat, pending := s.pending, pair := s.pair, harts := s.harts } = s)
    ∧ (s.windowEnds part = true → Completes (.evEbudWindowExpiry part) s fun t => (t.getPart part).ebud = (s.getPart part).ebud.put 23 0 0
        ∧ (∀ u, u ≠ part → t.getPart u = s.getPart u) ∧ { t with parts := s.parts } = s)
    ∧ (s.saigaRuns = true →
      (v.toNat < size → queued size s.evhead v.toNat ≤ queued size s.evhead s.evtail →
        becomes (.evEvhead v) { s with evhead := v.toNat, sgstat := if v.toNat = s.evhead then s.sgstat else s.sgstat.put 7 7 0 })
      ∧ (size ≤ v.toNat ∨ queued size s.evhead s.evtail < queued size s.evhead v.toNat → becomes (.evEvhead v) s)
      ∧ (s.evhead ≠ s.evtail → becomes (.evEvcfg v) s)
      ∧ (s.evhead = s.evtail → Completes (.evEvcfg v) s fun t => t.evcfg.fld 31 12 = v.fld 31 12 ∧ t.evcfg.fld 11 4 = 0 ∧ t.evcfg.fld 63 32 = 0
          ∧ t.evcfg.fld 3 0 = (if 6 ≤ v.fld 3 0 ∧ v.fld 3 0 ≤ 12 then v.fld 3 0 else s.evcfg.fld 3 0) ∧ t.evhead = t.evtail
          ∧ { t with evcfg := s.evcfg, evhead := s.evhead, evtail := s.evtail } = s)
      ∧ (c < 72 → v.bit 1 = true → s.auditFull = false → Completes (.evCorectl c v) s fun t => SameBytes s t ∧ t.agenda = s.agenda
          ∧ (core.bind.isSome = true → t.getCore c = { core with oosWanted := some true } ∧ audited t 8 0xFFFF [])
          ∧ (core.bind = none → t.getCore c = { core with oos := true, oosWanted := none }
              ∧ audited t 8 0xFFFF (if core.oos then [] else [⟨orderSaiga, .saiga 0 0xFFFF 4 0 4 0 0 c⟩]))
          ∧ ∀ d, d ≠ c → t.getCore d = s.getCore d)
      ∧ (c < 72 → v.bit 1 = true → s.auditFull = true → becomes (.evCorectl c v) s)
      ∧ (c < 72 → v.bit 1 = false → core.scrub = false → Completes (.evCorectl c v) s fun t =>
          t.getCore c = { core with oos := false, oosWanted := none } ∧ t.pending = s.pending ∧ SameBytes s t ∧ ∀ d, d ≠ c → t.getCore d = s.getCore d)
      ∧ (c < 72 → v.bit 1 = false → core.scrub = true → becomes (.evCorectl c v) (s.setCore c { core with oosWanted := some false }))
      ∧ (c < 72 → n < 0x400 → State.readSys { s with core := c } n = none → becomes (.evRegisterWrite c n v) s)
      ∧ (c < 72 → n < 0x400 → State.readSys { s with core := c } n ≠ none →
          (core.live = true → becomes (.evRegisterWrite c n v) { s with sgstat := s.sgstat.put 6 6 1 })
          ∧ (core.live = false → becomes (.evRegisterWrite c n v) (s.setCore c { core with seq := core.seq.writeSys n v })))
      ∧ becomes (.evRegisterWrite 72 0x840 v) { s with pidx := v.fld 15 0 } ∧ becomes (.evRegisterWrite 72 0x890 v) { s with patidx := v.fld 17 0 }
      ∧ becomes (.evRegisterWrite 72 0x842 v) (s.modPart p fun x => { x with ptroot := BitVec.ofNat 64 (v.fld 51 12 * 4096 + v.fld 0 0) })
      ∧ becomes (.evRegisterWrite 72 0x803 v) s
      ∧ (s.pageReqs.find? (fun q => q.index == some idx) = some r →
          let rest := s.pageReqs.filter fun q => q.id != r.id
          (r.src = .sequencer c → core.seq.wait = .page r.id →
            becomes (.evPrrespRetry idx) ({ s with pageReqs := rest }.modCore c fun k => { k with seq := { k.seq with wait := .retry } })
            ∧ (core.mstate = .frozen → becomes (.evPrrespRefuse idx) ({ s with pageReqs := rest }.modCore c fun k => { k with seq :=
                { k.seq with wait := .none, owed := some ⟨if r.kind = 2 then fetchTrap core.seq.pc else accessTrap r.va, core.seq.pc⟩ } }))
            ∧ (core.mstate ≠ .frozen → core.seq.tvec.bit 0 = true → s.traces c 6 = false → Completes (.evPrrespRefuse idx) s fun t =>
                let x : Trap := if r.kind = 2 then fetchTrap core.seq.pc else accessTrap r.va
                t.pageReqs = rest ∧ SameBytes s t ∧ (t.getCore c).mstate = .running ∧ (∀ d, d ≠ c → t.getCore d = s.getCore d)
                ∧ (t.getCore c).seq = { core.seq with tepc := core.seq.pc, tcause := x.cause, tval := x.tval, tvec := core.seq.tvec.put 0 0 0
                                                      inHandler := true, pc := BitVec.ofNat 64 (core.seq.tvec.fld 63 2 * 4), wait := .none }))
          ∧ (∀ i j, r.src = .region i j → ((s.getStamp i).copy j).page = some r.id → j < (s.getStamp i).copies.length →
              (Completes (.evPrrespRetry idx) s fun t => ((t.getStamp i).copy j).page = none ∧ t.pageReqs = rest ∧ SameBytes s t ∧ t.agenda = s.agenda)
              ∧ Completes (.evPrrespRefuse idx) s fun t => (t.getStamp i).state = .faulted (accessTrap r.va).code ∧ t.pageReqs = rest ∧ SameBytes s t)
          ∧ (∀ m, r.src = .engine c m → becomes (.evPrrespRetry idx) { s with pageReqs := rest }
              ∧ (c < 72 → becomes (.evPrrespRefuse idx) ({ s with pageReqs := rest }.stopCmd c m (accessTrap r.va)))))
      ∧ (v.toNat < queueSize s.prqcfg → queued (queueSize s.prqcfg) s.prqhead v.toNat ≤ queued (queueSize s.prqcfg) s.prqhead s.prqtail →
          (∀ q, q ∈ s.pageReqs → q.index ≠ none) → becomes (.evPrqhead v) { s with prqhead := v.toNat })
      ∧ (s.tlbinv.bit 63 = false → becomes (.evTlbinv v) s)
      ∧ (s.tlbinv.bit 63 = true → Completes (.evTlbinv v) s fun t => t.tlbinv.fld 47 16 = v.fld 47 16 ∧ t.tlbinv.fld 15 0 = v.fld 15 0
          ∧ t.tlbinv.fld 63 48 = 0 ∧ { t with tlbinv := s.tlbinv } = s)
      ∧ (let w := v.fld 63 48
         (s.partRuns w = false → s.auditFull = false → Completes (.evWlreq v) s fun t =>
           (t.getPart w).wlcfg = (s.getPart w).wlcfg.put 63 52 (v.fld 11 0) ∧ (t.getPart w).wlreq = none ∧ audited t 5 w [] ∧ SameBytes s t)
         ∧ (s.partRuns w = true → becomes (.evWlreq v) (s.modPart w fun x => { x with wlreq := some (v.fld 11 0) })))
      ∧ (Completes (.evEbud v) s fun t => let e := (t.getPart p).ebud
          e.fld 55 0 = v.fld 55 0 ∧ e.fld 61 56 = 0 ∧ e.bit 62 = v.bit 62 ∧ (e.bit 63 = (eb.ebud.bit 63 && !v.bit 63))
          ∧ (t.getPart p).ebudFrom = (if v.fld 55 48 = 0 then eb.ebudFrom else s.tick) ∧ SameBytes s t ∧ t.agenda = s.agenda
          ∧ ∀ u, u ≠ p → t.getPart u = s.getPart u))
    ∧ (s.tlbinv.bit 63 = false → s.invBusy = false → Completes .evTlbinvDone s fun t => t.tlbinv = s.tlbinv.put 63 63 1
        ∧ ((∀ r, r ∈ s.derived → r.part ≠ s.tlbinv.fld 15 0) → SameBytes s t ∧ t.agenda = s.agenda)
        ∧ (∀ d e, e ∈ (t.getCore d).seqTlb ↔ e ∈ (s.getCore d).seqTlb ∧ s.invHits e = false)
        ∧ (∀ d e, e ∈ (t.getCore d).engTlb ↔ e ∈ (s.getCore d).engTlb ∧ s.invHits e = false)
        ∧ ∀ d x, (s.getCore d).binding.part = s.tlbinv.fld 15 0 → (s.getCore d).seq.wait = .conflict x →
            (t.getCore d).seq.wait = .conflict { x with again := true })
    ∧ (c < 72 →
      (core.bind = none → Completes (.evUncorrectableError c) s fun t =>
        (∃ w, t.pending = s.pending ++ [saigaEv c w 0xFFFF 3 0 c]) ∧ { t with pending := s.pending, freeCount := s.freeCount } = s)
      ∧ (∀ b, core.bind = some b → core.replay = none →
        (Completes (.evUncorrectableError c) s fun t => (t.getCore c).struck = true ∧ (core.mstate = .running ∨ core.mstate = .waiting → (t.getCore c).mstate = .faulted)
          ∧ SameBytes s t ∧ t.agenda = .event (.memberGone b.task b.memb) :: s.agenda ∧ ∃ w, saigaEv c w b.part 3 0 c ∈ t.pending)
        ∧ (core.struck = true → b.task ≠ 0 → s.auditRoom ≠ 0 →
          ((s.getTask b.task).irrevocable = true → (s.getTask b.task).state = .running → ∃ t, runEv (.recover c) s = .next t ∧ (t.getTask b.task).state = .aborted)
          ∧ ((s.getTask b.task).irrevocable = false → ∃ t, runEv (.recover c) s = .next t
              ∧ ((t.getTask b.task).state = .running ∨ (t.getTask b.task).state = .eligible) ∧ (t.getTask b.task).retiredCount = 0 ∧ (t.getTask b.task).saves = []))))
    ∧ (placeOf pa = .hbm → Completes (.evLineLost pa) s fun t => pa / 128 ∈ t.lost ∧ Store.get .inv t.lines (pa / 128) = .lost ∧ SameBytesButHbm s t
        ∧ (let e := s.patEntry (pa / 2 ^ 21)
           t.pending = s.pending ++ [saigaEv (orderSlice (Config.homeSlice (pa / 128))) (BitVec.ofNat 64 pa) (if e.bit 63 then e.fld 47 32 else 0xFFFF) 3 0 0xFF])
        ∧ (∀ u, u ∈ s.unitsOfLine (pa / 128) → ∃ r', t.region u.1 = some r' ∧ (r'.slot u.2).bit stLost = true)
        ∧ ∀ x, (∀ u r', u ∈ s.unitsOfLine (pa / 128) → s.region u.1 = some r' → x < r'.slotPa u.2 ∨ r'.slotPa u.2 + 16 ≤ x) → t.hbm.byte x = s.hbm.byte x)

/-- R361, R362, R364, R365, R367, R368, R369, R332, R363, R372, R374: partitions. Saiga's write of a partition register is accepted under the conditions its rule gives,
sets the fields the rule names and no other register, and makes its audit entry; one that the rule turns away changes nothing but makes its
entry; one that a locked interface refuses moves it to ERROR. A new partition takes the lowest free index, a released one loses its regions. A
frame or block that changes hands reads as zero, with BUSY until its zeroing is done. A rekey resets the counters; when it or a
re-encryption ends, the held requests go on in their order. (PRECT fields outside their ranges: log entry 14.) -/
def Obligations.PartitionSteps : Prop :=
  ∀ (s : State) (v : Word) (fr part grp : Nat),
    let p := s.pidx % 65536
    let x := s.getPart p
    let others := s.others p
    let entry (k q : Nat) (t : State) : Prop := ∃ e, t.pending = s.pending ++ [⟨orderSaiga, .audit k q 1 e⟩]
    let ignored (i : Instr) (k : Nat) : Prop := ∃ q e, exec i s = .next (s.present orderSaiga (.audit k q 1 e))
    let sets (i : Instr) (k q : Nat) (ok : Prop) (is : Part → Prop) : Prop :=
      (ok → Completes i s fun t => is (t.getPart q) ∧ entry k q t ∧ (∀ u, u ≠ q → t.getPart u = s.getPart u)
        ∧ { t with parts := s.parts, cp := s.cp, cpBanks := s.cpBanks, pending := s.pending } = s) ∧ (¬ok → ignored i k)
    let zeroed (a n : Nat) (t : State) : Prop := (∀ y, a ≤ y → y < a + n → t.hbm.byte y = 0 ∧ y / 128 ∉ t.lost)
      ∧ ∀ y, y < a ∨ a + n ≤ y → t.hbm.byte y = s.hbm.byte y
    let kept (a : Part) : Prop := a.prect = x.prect ∧ a.cremap = x.cremap ∧ a.ppol = x.ppol ∧ a.mask = x.mask ∧ a.cpwin = x.cpwin
    (s.saigaRuns = true → s.auditFull = false →
      (x.locked = true → ∀ i, i = .evPrect v ∨ i = .evCremap v ∨ i = .evPpol v ∨ i = .evPway v ∨ i = .evCpwin v →
        Completes i s fun t => kept (t.getPart p) ∧ (t.getPart p).tdisp = .error)
      ∧ (x.locked = false →
        (let fits := v.fld 57 52 ≤ 12 ∧ v.fld 12 10 ≤ 5 ∧ v.fld 15 13 ≤ v.fld 12 10 ∧ v.fld 9 9 ≤ v.fld 8 8
         let apart := (v.bit 63 = true → ∀ o, o ∈ others → ∀ cl, inRect v cl = true → inRect o.2.prect cl = false)
           ∧ (v.fld 57 52 ≠ 0 → ∀ o, o ∈ others → o.2.prect.fld 57 52 ≠ v.fld 57 52)
         let room := x.prect.bit 63 = true ∨ v.bit 63 = false ∨ others.length < 12
         let idle := (v.fld 15 8 = x.prect.fld 15 8 ∧ (x.prect.bit 63 = true → v.bit 63 = true)) ∨ (s.partBound p = false ∧ s.queuedIn p = 0)
         (fits → apart → room → idle → Completes (.evPrect v) s fun t =>
           let w := (t.getPart p).prect
           w.bit 63 = v.bit 63 ∧ w.fld 57 52 = v.fld 57 52 ∧ w.fld 15 8 = v.fld 15 8 ∧ (v.bit 63 = false → w.fld 62 59 = 0)
           ∧ (v.bit 63 = true → entry 1 p t ∧ SameBytes s t ∧ (x.prect.bit 63 = true → w.fld 62 59 = x.prect.fld 62 59)
             ∧ (x.prect.bit 63 = false → 1 ≤ w.fld 62 59 ∧ w.fld 62 59 ≤ 12 ∧ (∀ o, o ∈ others → o.2.prect.fld 62 59 ≠ w.fld 62 59)
                 ∧ ∀ j, 1 ≤ j → j < w.fld 62 59 → ∃ o, o ∈ others ∧ o.2.prect.fld 62 59 = j))
           ∧ (x.prect.bit 63 = true → v.bit 63 = false → (∀ r, r ∈ t.derived → ∃ r', r' ∈ s.derived ∧ r = { r' with ending := r.ending }
               ∧ (r'.part = p → r.ending = true ∧ s.quietAll r' = false)) ∧ (t.getPart p).allow = []
               ∧ ∀ set l, set ∈ t.l2 → l ∈ set.2 → l.owner ≠ x.prect.fld 62 59)
           ∧ ∀ u, u ≠ p → t.getPart u = s.getPart u)
         ∧ (¬(apart ∧ room ∧ idle) → ignored (.evPrect v) 1))
        ∧ (let inside (c : Nat) : Prop := x.prect.bit 63 = true ∧ inRect x.prect c = true
           sets (.evCremap v) 2 p (∀ c, c < 12 → inside c → inRect x.prect (v.fld (4 * c + 3) (4 * c)) = true) fun y =>
             ∀ c, c < 12 → (inside c → y.cremap.fld (4 * c + 3) (4 * c) = v.fld (4 * c + 3) (4 * c)) ∧ (¬inside c → y.cremap.fld (4 * c + 3) (4 * c) = c))
        ∧ sets (.evPpol v) 2 p (x.prect.bit 63 = true → x.ppol.fld 43 32 < v.fld 43 32 → (others.map fun o => o.2.ppol.fld 43 32).sum + v.fld 43 32 ≤ 4096)
            (fun y => y.ppol.fld 63 59 = v.fld 63 59 ∧ y.ppol.fld 43 32 = v.fld 43 32 ∧ y.ppol.fld 58 44 = 0 ∧ y.ppol.fld 31 0 = 0)
        ∧ sets (.evPway v) 2 p (v.fld 15 0 ≠ 0) (fun y => y = { x with mask := BitVec.ofNat 16 (v.fld 15 0) })
        ∧ (let ok := v.fld 15 8 + v.fld 7 0 ≤ 240 ∧ s.partBound p = false ∧ ∀ o, o ∈ s.parts → o.1 ≠ p → windowsMeet v o.2.cpwin = false
           sets (.evCpwin v) 2 p ok (fun y => y = { x with cpwin := BitVec.ofNat 64 (v.fld 15 0) })
           ∧ (ok → Completes (.evCpwin v) s fun t => let a := v.fld 15 8 * 2 ^ 20
               let n := v.fld 7 0 * 2 ^ 20
               (∀ y, a ≤ y → y < a + n → t.cp.byte y = 0) ∧ ∀ y, y < a ∨ a + n ≤ y → t.cp.byte y = s.cp.byte y)))
      ∧ (let q := s.alidx / 128 % 65536
         (s.getPart q).locked = false → sets (.evAldata v) 4 q ((s.getPart q).prect.bit 63 = true) fun y =>
           (Store.get 0 y.allow (s.alidx % 128)) = v.put 56 48 0 ∧ ∀ i, i ≠ s.alidx % 128 → Store.get 0 y.allow i = Store.get 0 (s.getPart q).allow i)
      ∧ (let f := s.patidx % 2 ^ 18
         let e := Store.get 0 s.pat f
         let ok := e.bit 60 = false ∧ ¬(v.bit 63 = true ∧ v.bit 62 = true)
           ∧ (v.bit 63 = true → ∀ g, g + 1 = f ∨ g = f + 1 → (s.patEntry g).bit 63 = true → (s.patEntry g).fld 47 32 = v.fld 47 32)
         let change := v.bit 63 ≠ e.bit 63 ∨ v.bit 61 ≠ e.bit 61 ∨ v.fld 47 32 ≠ e.fld 47 32
         s.checkFrame f = false → (e.bit 63 = true → (s.getPart (e.fld 47 32)).locked = false) →
         (ok → Completes (.evPat v) s fun t => let w := Store.get 0 t.pat f
           w.fld 63 61 = v.fld 63 61 ∧ w.fld 47 32 = v.fld 47 32 ∧ w.fld 31 0 = 0 ∧ w.fld 59 48 = 0 ∧ (w.bit 60 = true ↔ change) ∧ SameBytesButHbm s t
           ∧ (change → zeroed (f * 2 ^ 21) (2 ^ 21) t) ∧ (¬change → ∀ a, t.hbm.byte a = s.hbm.byte a) ∧ ∀ g, g ≠ f → Store.get 0 t.pat g = Store.get 0 s.pat g)
         ∧ (¬ok → ignored (.evPat v) 3))
      ∧ (let n := s.blkidx % 2 ^ 13
         let ok := v.fld 1 0 ≠ 3 ∧ (∀ i, i < 32 → (Store.get 0 s.pat (32 * n + i)).bit 63 = false) ∧ (Store.get 0 s.blkcls n).bit 63 = false
         (ok → Completes (.evBlkcls v) s fun t => let w := Store.get 0 t.blkcls n
           w.fld 1 0 = v.fld 1 0 ∧ w.bit 63 = true ∧ w.fld 62 2 = 0 ∧ zeroed (n * 2 ^ 26) (2 ^ 26) t ∧ SameBytesButHbm s t ∧ entry 3 0xFFFF t)
         ∧ (¬ok → ignored (.evBlkcls v) 3))
      ∧ (v.bit 62 = true → x.sealst.bit 62 = false → Completes (.evSealstRekey v) s fun t => let y := t.getPart p
          y.sealst.bit 62 = true ∧ y.keyGen = x.keyGen + 1 ∧ y.minor = [] ∧ y.major = [] ∧ y.treeRoot = 0 ∧ y.sealst.bit 63 = (x.sealst.bit 63 && !v.bit 63)
          ∧ entry 6 p t ∧ SameBytes s t)
      ∧ (v.bit 62 = false → Completes (.evSealstRekey v) s fun t =>
          (t.getPart p).sealst = (if v.bit 63 then x.sealst.put 63 63 0 else x.sealst) ∧ (t.getPart p).keyGen = x.keyGen ∧ t.pending = s.pending ∧ SameBytes s t))
    ∧ (Completes (.evPatZeroingComplete fr) s fun t => t = { s with pat := Store.set 0 s.pat fr ((Store.get 0 s.pat fr).put 60 60 0) })
    ∧ (Completes (.evBlockLayoutComplete fr) s fun t => t = { s with blkcls := Store.set 0 s.blkcls fr ((Store.get 0 s.blkcls fr).put 63 63 0) })
    ∧ (let resumes (i : Instr) (y : Part) : Prop := Completes i s fun t => t.getPart part = y ∧ SameBytes s t ∧ t.cores = s.cores
         ∧ (∀ u, u ≠ part → t.getPart u = s.getPart u) ∧ t.held = s.held ∧ t.agenda = .event .heldTurn :: s.agenda
       let z := s.getPart part
       (z.sealst.bit 62 = true → resumes (.evRekeyComplete part) { z with sealst := z.sealst.put 62 62 0, reencrypting := [] })
       ∧ (grp ∈ z.reencrypting → resumes (.evGroupReencryptComplete part grp) { z with reencrypting := z.reencrypting.filter fun g => g != grp }))
    ∧ (∀ st rest, s.held = .store st :: rest → placeOf st.pa ≠ .host → s.canApply st.part st.pa st.data.length = true →
        let u := State.storeHere { s with held := rest, agenda := [] } st
        runEv .heldTurn s = .next { u with agenda := u.agenda ++ .event .heldTurn :: s.agenda })

/-- R363, R374 to R378, R388 to R392: audit, interfaces and Lomid. A measurement write extends its register by SHAKE256 of old value and digest. A checkpoint
signs the last entry; only entries up to a delivered one are freed. An interface moves by its TDISP requests (which request in which state: log entry
13). A channel opens, retires, drains, dies; its reports set and clear DRN. A peer's access is dropped when stale, refused where no window
accepts it, else done at its home, or held there. A replicated page's writes take their places in one order, which every replica follows. -/
def Obligations.AuditAndLomidSteps : Prop :=
  ∀ (s : State) (v : Word) (seq ch pkg part vf p0 port lane core : Nat) (a : PeerAccess) (st : StoreReq) (r : Replica) (block nonce : Nat),
    let becomes (i : Instr) (u : State) : Prop := exec i s = .next u
    let sends (i : Instr) (o : Out) : Prop := becomes i { s with out := s.out ++ [o] }
    let audited (t : State) (k q act x : Nat) : Prop := t.pending = s.pending ++ [⟨orderSaiga, .audit k q act x⟩]
    let k := s.lchidx % 256
    let w := s.chan k
    (s.saigaRuns = true → s.auditFull = false →
      (3 ≤ v.toNat ∧ v.toNat ≤ 7 → Completes (.evMrgo v) s fun t => (∃ x, audited t 7 0xFFFF 1 x) ∧ (∀ i, i ≠ v.toNat → t.mrOf i = s.mrOf i)
        ∧ ∃ d : BitVec 512, (∀ i, i < 8 → d.toNat / 2 ^ (64 * i) % 2 ^ 64 = (Store.get 0 s.mrext i).toNat) ∧ t.mrOf v.toNat = Shake.join (s.mrOf v.toNat) d)
      ∧ (v.toNat < 3 ∨ 7 < v.toNat → ∃ x, becomes (.evMrgo v) (s.present orderSaiga (.audit 7 0xFFFF 1 x)))
      ∧ (Completes (.evAudw4 v) s fun t => Store.get 0 t.audw 4 = v ∧ SameBytes s t ∧ ∃ note, audited t 15 0xFFFF 1 note
          ∧ (∀ i, i < 4 → note / 2 ^ (64 * i) % 2 ^ 64 = (Store.get 0 s.audw i).toNat) ∧ note / 2 ^ 256 = v.toNat))
    ∧ (∀ c, s.chain = some c → ∃ sig, becomes .evAuditCheckpoint { s with ckpt := some (s.lastAudit, c, sig), sinceCkpt := 0 })
    ∧ (s.chain = none → becomes .evAuditCheckpoint s)
    ∧ (s.spdmSession = true → seq ∈ s.delivered → Completes (.evAuditFree seq) s fun t => (∀ e, e ∈ t.audit ↔ e ∈ s.audit ∧ seq < e.1) ∧ { t with audit := s.audit } = s)
    ∧ (seq ∉ s.delivered ∨ s.spdmSession = false → becomes (.evAuditFree seq) s)
    ∧ (let heard (q : SpdmReq) (body : List (BitVec 512)) : List Byte :=
         s.transcript ++ Config.spdmBytes (spdmParts q).1 (spdmParts q).2 ++ body.flatMap fun b => toBytes 64 b.toNat
       let signed (q : SpdmReq) (body : List (BitVec 512)) : Prop := becomes (.evSpdmRequest q)
         { s with transcript := [], out := s.out ++ [.spdm body (s.sign (Shake.sha3 (heard q body)).toNat)] }
       signed (.challenge nonce) []
       ∧ becomes (.evSpdmRequest .keyExchange)
           { s with transcript := [], spdmSession := true, out := s.out ++ [.spdm [] (s.sign (Shake.sha3 (heard .keyExchange [])).toNat)] }
       ∧ becomes (.evSpdmRequest .endSession) { s with spdmSession := false }
       ∧ (1 ≤ block → block ≤ 8 → signed (.measurement block) [s.mrOf (block - 1)])
       ∧ (∀ q c g, s.ckpt = some (q, c, g) → signed (.measurement 9) [BitVec.ofNat 512 q, c])
       ∧ (Completes (.evSpdmRequest .version) s fun t => t.out = s.out ++ [.spdmVersions [12, 13]] ∧ SameBytes s t)
       ∧ (Completes (.evSpdmRequest .capabilities) s fun t => t.transcript = heard .capabilities []
           ∧ t.out = s.out ++ [.spdmCapabilities ["CERT", "CHAL", "MEAS_SIG", "KEY_EX", "ENCRYPT", "MAC"]])
       ∧ (Completes (.evSpdmRequest .certificate) s fun t => t.transcript = heard .certificate []
           ∧ ∃ id x key y, t.out = s.out ++ [.spdmCertificate id x key y] ∧ key = Config.publicKey s.aliasSeed ∧ y = Config.ed448 identitySeed key)
       ∧ (s.spdmSession = false → sends (.evSpdmRequest (.auditEntry seq)) .spdmError ∧ sends (.evSpdmRequest .checkpoint) .spdmError))
    ∧ (s.spdmSession = true →
      (∀ e, (s.audit.find? fun x => x.1 == seq) = some (seq, e) → sends (.evSpdmRequest (.auditEntry seq)) (.spdm [e.chain, e.body] 0))
      ∧ (∀ c, s.chain = some c → Completes (.evSpdmRequest .checkpoint) s fun t => ∃ sig, t.ckpt = some (s.lastAudit, c, sig) ∧ s.lastAudit ∈ t.delivered
        ∧ t.out = s.out ++ [.spdm [BitVec.ofNat 512 s.lastAudit, c] sig]))
    ∧ (let moves (q : TdispReq) (x y : Tdisp) : Prop := (s.getPart p0).tdisp = x → x ≠ y → s.auditRoom ≠ 0 → Completes (.evTdispRequest vf q) s fun t =>
         (t.getPart p0).tdisp = y ∧ (∃ e, t.pending = s.pending ++ [⟨orderHost, .audit 9 p0 2 e⟩]) ∧ { t with parts := s.parts, pending := s.pending } = s
           ∧ ∀ u, u ≠ p0 → t.getPart u = s.getPart u
       s.partOfVf vf = some p0 → moves .lock .unlocked .locked ∧ moves .start .locked .run ∧ ∀ x, moves .stop x .unlocked)
    ∧ (s.partOfVf vf = none → ∀ q, q ≠ .ideKeys → sends (.evTdispRequest vf q) (.unsupported vf))
    ∧ (s.saigaRuns = true →
      (v.bit 63 = true → w.fld 62 60 = 0 ∨ w.fld 62 60 = 3 → Completes (.evLchanOpen v) s fun t => let x := t.chan k
        x.bit 63 = true ∧ x.fld 58 19 = v.fld 58 19 ∧ x.fld 15 0 = v.fld 15 0 ∧ t.out = s.out ++ [.openMsg k (v.fld 46 35) (v.fld 34 19)]
        ∧ (s.allDead v = false → x.fld 62 60 = 1) ∧ ∀ n, n ≠ k → t.chan n = s.chan n)
      ∧ (v.bit 59 = true → w.fld 62 60 = 1 → Completes (.evLchanRetire v) s fun t => let x := t.chan k
        x.bit 63 = true ∧ x.fld 58 19 = v.fld 58 19 ∧ x.fld 15 0 = v.fld 15 0 ∧ Store.get 0 t.lchRet k = s.tick ∧ (∀ n, n ≠ k → t.chan n = s.chan n)
        ∧ (s.allDead v = false → x.fld 62 60 = 2 ∧ { t with lchan := s.lchan, lchRet := s.lchRet } = s))
      ∧ (let q := s.pwidx % 65536
         let n := s.pwidx / 65536 % 64
         let old := Store.get 0 (s.getPart q).pwin n
         (old.bit 63 = true → v.bit 63 = false → old.bit 41 = false → becomes (.evPwin v) s)
         ∧ (old.bit 63 = false ∨ v.bit 63 = true ∨ old.bit 41 = true → Completes (.evPwin v) s fun t => let x := Store.get 0 (t.getPart q).pwin n
             x.fld 63 42 = v.fld 63 42 ∧ x.fld 31 0 = v.fld 31 0 ∧ x.bit 41 = old.bit 41 ∧ SameBytes s t ∧ ∀ u, u ≠ q → t.getPart u = s.getPart u)))
    ∧ (s.spdmSession = true → vf ≤ 12 → s.auditRoom ≠ 0 → Completes (.evTdispRequest vf .ideKeys) s fun t => vf ∈ t.ideKeys
        ∧ (∃ e, t.pending = s.pending ++ [⟨orderHost, .audit 9 ((s.partOfVf vf).getD 0xFFFF) 2 e⟩]) ∧ { t with ideKeys := s.ideKeys, pending := s.pending } = s)
    ∧ (let c := s.chan ch
       (c.fld 62 60 = 2 → s.drainOver ch = true → Completes (.evChannelDrainEnd ch) s fun t => t.chan ch = c.put 62 60 3
         ∧ t.out = s.out ++ [.drained ch (c.fld 46 35) (c.fld 34 19)] ∧ ∀ x, x ∈ s.posted → x.ch = ch → .event (.storeAcknowledged x.st .dead) ∈ t.agenda)
       ∧ (c.fld 62 60 ≠ 2 ∨ s.drainOver ch = false → becomes (.evChannelDrainEnd ch) s))
    ∧ (let marks (i : Instr) (d : Nat) : Prop := Completes i s fun t => ∀ n, let x := Store.get 0 (s.getPart part).pwin n
         x.bit 63 = true → Store.get 0 (t.getPart part).pwin n = if x.fld 61 50 = p0 ∧ x.fld 49 42 = ch then x.put 41 41 d else x
       marks (.evDrainedReport p0 ch part) 1 ∧ marks (.evOpenMessage p0 ch part) 0)
    ∧ (port < 12 → lane < 16 → (port, lane) ∉ s.deadLanes → Completes (.evLomidLaneFailure port lane) s fun t =>
        t.deadLanes = s.deadLanes ++ [(port, lane)] ∧ SameBytes s t ∧ t.cores = s.cores
        ∧ t.pending = s.pending ++ [⟨orderLomid, .saiga (BitVec.ofNat 64 (port * 256 + lane)) 0xFFFF 4 0 3 0 0 0xFF⟩]
        ∧ ∀ n, n < 256 → t.chan n = if ((s.chan n).fld 62 60 = 1 ∨ (s.chan n).fld 62 60 = 2) ∧ t.allDead (s.chan n) = true
            then (s.chan n).put 62 60 4 else s.chan n)
    ∧ (a.sent.toNat + usTicks 40 < s.tick → becomes (.evPeerAccessArrival a) s)
    ∧ (s.tick ≤ a.sent.toNat + usTicks 40 →
      (s.peerPlace a = none → sends (.evPeerAccessArrival a) (if a.data.isSome ∨ a.red.isSome then .peerAck a.spkg a.sch false s.tick else .peerReply a.spkg a.sch none s.tick))
      ∧ (∀ leaf pa, s.peerPlace a = some (leaf, pa) → (peerWrites a = true → s.homePkg pa = s.pkgNo) →
        let free := (Held.peer pa a).behind s.held = false ∧ s.peerReady a pa = true
        let onlyL1 (t : State) : Prop := ∀ c, t.getCore c = { s.getCore c with l1 := (t.getCore c).l1 }
        let old := s.hbm.num pa a.size
        let wrote (t : State) (v : Nat) : Prop := StoredLogged s a.fpart a.task t.hbm pa a.size v ∧ SameBytesButHbm s t ∧ onlyL1 t
        (¬free → Completes (.evPeerAccessArrival a) s fun t => t.held = s.held ++ [.peer pa a] ∧ t.hbm = s.hbm ∧ t.agenda = s.agenda
          ∧ (s.isSealed pa = false → SameBytes s t))
        ∧ (free → s.hbm.worst pa a.size = .clean → s.lost.contains (pa / 128) = false → s.holdersOf pa = [] → s.derived = [] →
          (∀ bs, a.data = some bs → bs.length = a.size → 0 < a.size → pa / 128 = (pa + a.size - 1) / 128 → Completes (.evPeerAccessArrival a) s fun t =>
            SameBytesButHbm s t ∧ onlyL1 t ∧ (∀ i (h : i < bs.length), t.hbm.byte (pa + i) = bs[i])
            ∧ (∀ y, y < pa ∨ pa + bs.length ≤ y → s.outsideLog a.fpart a.task y → t.hbm.byte y = s.hbm.byte y)
            ∧ ∃ x : StoreReq, t.agenda = .event (.storeAcknowledged x .done) :: s.agenda ∧ x.pa = pa ∧ x.data = bs ∧ x.part = a.fpart ∧ x.src = .peer a.spkg a.sch)
          ∧ (a.data = none → a.red = none → a.atom = none → 0 < a.size → pa % 8 + a.size ≤ 8 → Completes (.evPeerAccessArrival a) s fun t =>
            SameBytes s t ∧ onlyL1 t ∧ t.agenda = s.agenda ∧ t.out = s.out ++ [.peerReply a.spkg a.sch (some (BitVec.ofNat 64 old)) s.tick])
          ∧ (∀ op x c, a.data = none → a.red = none → a.atom = some (op, x, c) → a.size = 4 ∨ a.size = 8 → pa % a.size = 0 → s.isSealed pa = false →
            Completes (.evPeerAccessArrival a) s fun t => wrote t (atomNew op (8 * a.size) old x.toNat c.toNat)
              ∧ t.agenda = s.agenda ∧ t.out = s.out ++ [.peerReply a.spkg a.sch (some (BitVec.ofNat 64 old)) s.tick])
          ∧ (∀ op fmt x, a.data = none → a.red = some (op, fmt, x) → a.size = 4 ∨ a.size = 8 → pa % a.size = 0 → s.isSealed pa = false →
            Completes (.evPeerAccessArrival a) s fun t => wrote t (combine op fmt.toNat old x.toNat)
              ∧ t.agenda = s.agenda ∧ t.out = s.out ++ [.peerAck a.spkg a.sch true s.tick]))))
    ∧ (∀ q, (s.getCore core).seq.wait = .peer q →
      let z := (s.getCore core).seq
      (s.tick < q.sent + usTicks 50 → becomes (.evPeerReplyTimeout core) s)
      ∧ (q.sent + usTicks 50 ≤ s.tick → (s.getCore core).mstate ≠ .frozen → z.tvec.bit 0 = true → s.traces core 6 = false → Completes (.evPeerReplyTimeout core) s fun t => SameBytes s t
          ∧ (t.getCore core).seq = { z with tepc := z.pc, tcause := (accessTrap q.va).cause, tval := q.va, tvec := z.tvec.put 0 0 0, inHandler := true
                                            pc := BitVec.ofNat 64 (z.tvec.fld 63 2 * 4), wait := .none }))
    ∧ (let home := s.homePkg st.pa
       let next := Store.get 0 s.rpNext home
       let onlyL1 (t : State) : Prop := ∀ c, t.getCore c = { s.getCore c with l1 := (t.getCore c).l1 }
       let w : ReplicaWrite := ⟨st, seq⟩
       (home ≠ s.pkgNo →
         (seq < next → becomes (.evReplicaWriteAtHome w) s)
         ∧ (next < seq → (∀ x, x ∈ s.rpWait → x.1 = home → x.2.1 ≠ next) → becomes (.evReplicaWriteAtHome w) { s with rpWait := s.rpWait ++ [(home, seq, st)] })
         ∧ (seq = next → s.sealWaits st.part st.pa = false → (∀ x, x ∈ s.rpWait → x.1 ≠ home) → Completes (.evReplicaWriteAtHome w) s fun t =>
           (∀ i (h : i < st.data.length), t.hbm.byte (st.pa + i) = st.data[i])
           ∧ (∀ y, y < st.pa ∨ st.pa + st.data.length ≤ y → t.hbm.byte y = s.hbm.byte y) ∧ SameBytesButHbm s t ∧ onlyL1 t
           ∧ Store.get 0 t.rpNext home = next + 1 ∧ t.out = s.out ++ [.replicaConfirm home st] ∧ t.agenda = s.agenda)
         ∧ (∀ st2, seq = next → s.isSealed st.pa = false → s.isSealed st2.pa = false → s.rpWait = [(home, next + 1, st2)] → Completes (.evReplicaWriteAtHome w) s fun t =>
           t.hbm = (s.hbm.store st.pa st.data st.psn).store st2.pa st2.data st2.psn ∧ t.rpWait = [] ∧ Store.get 0 t.rpNext home = next + 2
           ∧ t.out = s.out ++ [.replicaConfirm home st, .replicaConfirm home st2]))
       ∧ (home = s.pkgNo → exec (.evReplicaWriteAtHome w) s = exec (.evStoreAtHome st) s)
       ∧ (0 < st.data.length → placeOf st.pa = .hbm → home = s.pkgNo → s.holdersOf st.pa ≠ [] → s.canApply st.part st.pa st.data.length = true →
         st.pa / 128 = (st.pa + st.data.length - 1) / 128 → s.behindHeld st = false → s.derived = [] → s.lost.contains (st.pa / 128) = false → Completes (.evReplicaWriteAtHome w) s fun t =>
           (∀ i (h : i < st.data.length), t.hbm.byte (st.pa + i) = st.data[i])
           ∧ (∀ y, y < st.pa ∨ st.pa + st.data.length ≤ y → s.outsideLog st.part (if st.src = .undo then 0 else st.task) y → t.hbm.byte y = s.hbm.byte y)
           ∧ SameBytesButHbm s t ∧ t.cores = s.cores
           ∧ t.nextSeq = s.nextSeq + 1 ∧ t.replicas = s.replicas ++ [⟨s.nextSeq, st, s.holdersOf st.pa⟩] ∧ t.agenda = s.agenda
           ∧ ∃ ns, t.out = s.out ++ [.replicaCast s.nextSeq ns st] ∧ ns.map Prod.fst = s.holdersOf st.pa))
    ∧ (s.replicas.find? (fun x => x.seq == seq) = some r →
      (r.waiting.filter (fun q => q != pkg) = [] → becomes (.evReplicaConfirm seq pkg)
        { s with replicas := s.replicas.filter fun x => x.seq != seq, agenda := .event (.storeAcknowledged r.st .done) :: s.agenda })
      ∧ (r.waiting.filter (fun q => q != pkg) ≠ [] → becomes (.evReplicaConfirm seq pkg)
        { s with replicas := s.replicas.map fun (x : Replica) => if x.seq = seq then { x with waiting := r.waiting.filter fun q => q != pkg } else x }))

/-- R385, R386, R387, R126, R124, R206, R282, R363, R370, R397 to R401: the host and the debugger. A snoop answers and leaves the half as its rule says; a grant gives the
half; a host write goes to its home line by line, a read answers with the bytes or waits for its function's earlier writes, and one that is turned away gives an error (through the physical function by
physical address: log entry 17). A debug stop holds the member and freezes its gang at most 2 µs later; a dump begins only on a stopped core and
ends with BUSY clear; a checkpoint is kept and counted; a replay runs the member from it (under the index log entry 18 gives it). -/
def Obligations.HostAndDebugSteps : Prop :=
  ∀ (s : State) (half vf size c part task memb ck n : Nat) (inv own : Bool) (addr v : Word) (data : List Byte) (r : StopReason) (x : SavedCtx),
    let becomes (i : Instr) (u : State) : Prop := exec i s = .next u
    let sends (i : Instr) (o : Out) : Prop := becomes i { s with out := s.out ++ [o] }
    let core := s.getCore c
    let old := Store.get .inv s.halves half
    let leaves (i : Instr) (h : HalfState) (hit : Bool) : Prop := becomes i
      { s with halves := Store.set .inv s.halves half h, hostOld := Store.set [] s.hostOld half [], out := s.out ++ [.snoop half hit] }
    let unbound := vf ≠ 0 ∧ s.partOfVf vf = none
    let snoop := Instr.evHostSnoop half inv
    let onlyL1 (t : State) : Prop := ∀ c, t.getCore c = { s.getCore c with l1 := (t.getCore c).l1 }
    (placeOf (half * 64) = .hbm →
      Completes snoop s fun t => let own' := inv = true ∧ s.inBase (half * 64) 64 = false
        (own' → Store.get .inv t.halves half = .hostOwned ∧ (Store.get .inv s.lines (half / 2) ≠ .lost → Store.get .inv t.lines (half / 2) = .inv))
        ∧ (¬own' → Store.get .inv t.halves half = .hostShared) ∧ (∀ h, h ≠ half → Store.get .inv t.halves h = Store.get .inv s.halves h)
        ∧ (∀ l, l ≠ half / 2 → Store.get .inv t.lines l = Store.get .inv s.lines l) ∧ onlyL1 t ∧ SameBytes s t ∧ t.out = s.out ++ [.snoop half true]
        ∧ { t with halves := s.halves, lines := s.lines, cores := s.cores, out := s.out } = s)
    ∧ (placeOf (half * 64) ≠ .hbm →
      (old = .shared ∨ old = .excl ∨ old = .modified → leaves snoop (if inv then .inv else .shared) true)
      ∧ (old = .inv ∨ old = .hostShared ∨ old = .hostOwned → leaves snoop old false))
    ∧ ((∃ q, q ∈ s.cxl ∧ q.half = half) → Completes (.evCxlGrant half own) s fun t =>
        Store.get .inv t.halves half = (if placeOf (half * 64) = .host then (if own then .excl else .shared) else .inv) ∧ (∀ q, q ∈ t.cxl ↔ q ∈ s.cxl ∧ q.half ≠ half)
        ∧ (∀ h, h ≠ half → Store.get .inv t.halves h = Store.get .inv s.halves h) ∧ { t with cxl := s.cxl, halves := s.halves } = s)
    ∧ ((∀ q, q ∈ s.cxl → q.half ≠ half) → becomes (.evCxlGrant half own) s)
    ∧ (Completes .evHostLinkDead s fun t => t.hostDead = true ∧ (∀ q, q ∈ t.cxl ↔ q ∈ s.cxl ∧ placeOf (q.half * 64) ≠ .host)
        ∧ { t with hostDead := s.hostDead, cxl := s.cxl } = s)
    ∧ (s.hostDead = true → becomes (.evHostWrite vf addr data) s ∧ becomes (.evHostRead vf addr size) s)
    ∧ (s.hostDead = false →
      (data ≠ [] → (s.hostPlace vf addr data.length true = none → sends (.evHostWrite vf addr data) (if unbound then .unsupported vf else .hostWrite vf false))
        ∧ ∀ p pa, s.hostPlace vf addr data.length true = some (p, pa) →
          ((∃ l, l ∈ linesOf pa data.length ∧ s.inFootprint (l * 128) 128 = true) → sends (.evHostWrite vf addr data) (.hostWrite vf false))
          ∧ ((∀ l, l ∈ linesOf pa data.length → s.inFootprint (l * 128) 128 = false) → Completes (.evHostWrite vf addr data) s fun t =>
            { t with lines := s.lines, agenda := s.agenda, cores := s.cores, l2 := s.l2 } = s ∧ onlyL1 t ∧ SameBytes s t
            ∧ (∃ qs : List StoreReq, t.agenda = qs.map (fun q => .event (.storeAtHome q)) ++ s.agenda
              ∧ (∀ q, q ∈ qs → q.part = p ∧ q.core = vf ∧ q.psn = false ∧ pa ≤ q.pa ∧ q.pa + q.data.length ≤ pa + data.length ∧ 0 < q.data.length
                  ∧ q.pa / 128 = (q.pa + q.data.length - 1) / 128 ∧ ∀ i, i < q.data.length → q.data[i]? = data[q.pa - pa + i]?)
              ∧ ∀ i, i < data.length → ∃ q, q ∈ qs ∧ q.pa ≤ pa + i ∧ pa + i < q.pa + q.data.length)
            ∧ (∀ l, l ∈ linesOf pa data.length → Store.get .inv s.lines l ≠ .lost → Store.get .inv t.lines l = .inv)
            ∧ ∀ l, l ∉ linesOf pa data.length → Store.get .inv t.lines l = Store.get .inv s.lines l))
      ∧ (size ≠ 0 → (s.hostPlace vf addr size false = none → sends (.evHostRead vf addr size) (if unbound then .unsupported vf else .hostRead vf none))
        ∧ ∀ p pa, s.hostPlace vf addr size false = some (p, pa) →
          ((Held.hostRead vf p pa size).behind s.held = true ∨ s.rekeys pa = true → Completes (.evHostRead vf addr size) s fun t =>
            t.held = s.held ++ [.hostRead vf p pa size] ∧ t.out = s.out ∧ SameBytes s t ∧ t.agenda = s.agenda)
          ∧ ((Held.hostRead vf p pa size).behind s.held = false → s.rekeys pa = false → (∀ w, w ∈ wordParts pa size → s.hbm.worst w.1 w.2 = .clean) →
            (∀ l, l ∈ linesOf pa size → l ∉ s.lost) → Completes (.evHostRead vf addr size) s fun t =>
              SameBytes s t ∧ t.agenda = s.agenda ∧ t.cores = s.cores ∧ ∃ bs : List Byte, t.out = s.out ++ [.hostRead vf (some bs)]
                ∧ bs.length = size ∧ ∀ i (h : i < bs.length), bs[i] = s.hbm.byte (pa + i))))
    ∧ (core.bind.isSome = true → core.binding.dbg = true → s.traces c 7 = false →
      (core.replay.isSome = true → becomes (.evDebugStop c r) (s.modCore c fun k => { k with mstate := .frozen }))
      ∧ (let tk := s.getTask core.binding.task
         core.replay = none → tk.state = .running → core.live = true →
         (tk.stopAt = none → tk.stop = .none → Completes (.evDebugStop c r) s fun t =>
           t.getCore c = { core with stopHold := true } ∧ (∀ d, d ≠ c → t.getCore d = s.getCore d) ∧ SameBytes s t ∧ t.agenda = s.agenda
           ∧ ∃ d, d ≤ usTicks 2 ∧ (t.getTask core.binding.task) = { tk with stopAt := some (s.tick + d) })
         ∧ (∀ f, tk.stopAt = some f → becomes (.evDebugStop c r) (s.modCore c fun k => { k with stopHold := true }))))
    ∧ (core.binding.dbg = false ∨ core.bind = none → becomes (.evDebugStop c r) s)
    ∧ (s.saigaRuns = true →
      (core.dumpBusy = false → s.stoppedHere c = true →
        becomes (.evDumpctl c v) (s.setCore c { core with dumpBase := v.fld 51 12 * 4096, dumpBusy := v.bit 0 }))
      ∧ (core.dumpBusy = true ∨ s.stoppedHere c = false → becomes (.evDumpctl c v) s))
    ∧ (core.dumpBusy = true → Completes (.evDumpComplete c) s fun t =>
        let k := (s.stamps.flatMap fun kv => kv.2.copies.filter fun y => y.core == c && s.occupies kv.2 y).length + 3
        t.getCore c = { core with dumpBusy := false } ∧ t.hbm.num core.dumpBase 2 = 0x5D0E ∧ t.hbm.num (core.dumpBase + 2) 1 = k % 256
        ∧ t.hbm.num (core.dumpBase + 64) 4 = 1 ∧ t.hbm.num (core.dumpBase + 68) 4 = (64 + 16 * k) % 2 ^ 32
        ∧ (∀ a, a < core.dumpBase → t.hbm.byte a = s.hbm.byte a) ∧ SameBytesButHbm s t ∧ t.agenda = s.agenda)
    ∧ (core.dumpBusy = false → becomes (.evDumpComplete c) s)
    ∧ (let tk := s.getTask task
       Store.keysWhere (fun _ (y : Task) => y.part == part) s.tasks = [task] → tk.part = part →
       let taken (t : State) : Prop := (t.getTask task).ckpt = tk.ckpt + 1 ∧ (t.getTask task).ckptAt = none ∧ (t.getTask task).state = tk.state
         ∧ (∃ q m l, (t.getTask task).ckpts = tk.ckpts ++ [(tk.ckpt, q, m, l)] ∧ (s.getPart part).rlPos ≤ q)
         ∧ ∀ d, d ∈ s.coresOfTask task → (t.getCore d).seq = (s.getCore d).seq
             ∧ (t.getCore d).mstate = if (s.getCore d).seq.wait.waits then .waiting else .running
       (∀ f, tk.ckptAt = some f → s.ckptReady task = true → Completes (.evDebugCheckpoint part) s fun t => taken t ∧ SameBytes s t)
       ∧ (s.ckptBegins task = true → Completes (.evDebugCheckpoint part) s fun t => SameBytes s t ∧ (taken t
           ∨ ((t.getTask task).ckptAt = some s.tick ∧ ∀ d, d ∈ s.coresOfTask task → (s.getCore d).mstate = .running ∨ (s.getCore d).mstate = .waiting →
               (t.getCore d).mstate = .frozen ∧ (t.getCore d).seq = (s.getCore d).seq)))
       ∧ (s.ckptBegins task = false → tk.ckptAt = none ∨ s.ckptReady task = false → becomes (.evDebugCheckpoint part) s))
    ∧ (s.saigaRuns = true → let p := s.pidx % 65536
       let all := (s.tasks.filter fun kv => kv.2.part == p).flatMap fun kv => kv.2.ckpts
       let at' := all.find? fun k => k.2.1 % 2 ^ (s.getPart p).dbgcfg.fld 23 16 == v.toNat
       (at' = none → becomes (.evRlfree v) (s.modPart p fun y => { y with rlfree := v }))
       ∧ ∀ k, at' = some k → Completes (.evRlfree v) s fun t => (t.getPart p).rlfree = v ∧ (t.getPart p).rlTail = k.2.1 ∧ (t.getPart p).dbgstat.bit 62 = false
           ∧ SameBytes s t ∧ t.cores = s.cores ∧ (∀ m y, (s.getTask m).part = p → y ∈ (t.getTask m).ckpts → k.2.1 ≤ y.2.1)
           ∧ ∀ m, (s.getTask m).part ≠ p → t.getTask m = s.getTask m)
    ∧ (let tk := s.getTask task
       ∀ k, tk.ckpts.find? (fun y => y.1 == ck) = some k → k.2.2.2.find? (fun y => y.memb == memb) = some x →
       (s.replayCore c tk.part = true → (∀ e, s.replayLimit tk.part = some e → x.seq.mcc.toNat < e) → Completes (.evReplay c task memb ck) s fun t => let w := t.getCore c
         w.mstate = (if x.waiting then .waiting else .running) ∧ w.bind = some { x.bind with memb := memb + 2 ^ 19 } ∧ w.replay = some (dropHeard (tk.stream memb k.2.2.1) x.heard)
         ∧ w.seq = { x.seq with wait := w.seq.wait } ∧ ((∀ i, x.seq.wait ≠ .phase i) → w.seq.wait = x.seq.wait) ∧ w.scratch = x.scratch ∧ w.slots = x.slots
         ∧ w.cmds = x.cmds ∧ w.wp = x.wp ∧ (∀ d, d ≠ c → t.getCore d = s.getCore d) ∧ t.tasks = s.tasks ∧ ∀ a, t.hbm.byte a = s.hbm.byte a)
       ∧ (s.replayCore c tk.part = false → becomes (.evReplay c task memb ck) s))

/-- R402 to R408, R387, R363, R375, R326, R377: power and reset. PWRGD begins the measured boot, whose steps end in STATE 2, then 3, or, with a code and the alert, in STATE 4.
Loss of PWRGD leaves every block at its reset values and host memory as it was written back; reset entry stops dispatch, recalls the HDM halves that the host owns, then resets all but the
always-on domain. An FLR of a virtual function aborts its partition's tasks. An island is gated only where its rule allows; a change ends with the frequency asked for, or the
throttled one. A limit or temperature lowers frequencies (by the power limit to values left open: log entry 4), and its end restores them. The gated package is entered only with no
member, no armed record and no modified half, once its recalls are answered. Each leaves everything else as it is. (What a reset leaves of the model's own fields, and of what lies outside the package: log
entries 3 and 106.) -/
def Obligations.PowerSteps : Prop :=
  ∀ (s : State) (v : Word) (code : BitVec 8) (meas : BitVec 16) (i vf : Nat),
    let becomes (i : Instr) (u : State) : Prop := exec i s = .next u
    let does (e : Ev) (P : State → Prop) : Prop := ∃ t, runEv e s = .next t ∧ P t
    let j := s.islidx % 64
    let w := s.isl j
    let pair (i : Nat) : Prop := i < 36
    let l2 (i : Nat) : Prop := 36 ≤ i ∧ i < 52
    let tahr (i : Nat) : Prop := 52 ≤ i ∧ i < 60
    let freq (w : Word) : Nat := w.fld 15 8
    let now (w : Word) : Nat := w.fld 23 16
    let cur (w : Word) : Nat := w.fld 31 30
    let busy (w : Word) : Prop := cur w = 1 ∨ cur w = 2
    let boot := s.bootst.fld 3 0
    let armed (n : Nat) : Prop := n < 256 ∧ s.bindStatus n = 1 ∧ (s.bindOp n = 1 ∨ s.bindOp n = 2)
    let owned (h : Nat) : Prop := Store.get .inv s.halves h = .hostOwned
    let recalled (t : State) : Prop := ∀ h, owned h → ∃ q, q ∈ t.cxl ∧ q.half = h
    let gatedPkg := s.pkgctl = true ∨ s.gating = true
    let may := (∀ c, c < 72 → (s.getCore c).bind = none ∧ ∀ n, armed n → s.bindCore n ≠ c) ∧ ∀ kv, kv ∈ s.halves → kv.2 ≠ HalfState.modified
    -- only island `i` differs, and of it only FNOW, CUR, FREQ and GATE
    let island (t : State) (i f n c g : Nat) : Prop := { t with islctl := s.islctl } = s ∧ (∀ k, k ≠ i → t.isl k = s.isl k)
      ∧ t.isl i = ((((s.isl i).put 15 8 f).put 23 16 n).put 31 30 c).put 0 0 g
    -- island `i` is on: at FREQ, halved by its temperature, lowered by the power limit
    let on (i : Nat) (y : Word) : Prop :=
      let x := s.isl i
      let f := if s.throttled.contains i then freq x / 2 else freq x
      (s.powerLow = true ∧ (pair i ∨ tahr i) → ∃ g, (f ≠ 0 → g < f) ∧ (f = 0 → g = 0) ∧ y = (x.put 23 16 g).put 31 30 3)
      ∧ (¬(s.powerLow = true ∧ (pair i ∨ tahr i)) → y = (x.put 23 16 f).put 31 30 (if s.throttled.contains i then 3 else 0))
    let stops (t : State) (code : Nat) : Prop := t.bootst = BitVec.ofNat 64 (code * 2 ^ 24 + 4) ∧ t.alert = true ∧ t.out = s.out ++ [.alert]
      ∧ { t with bootst := s.bootst, alert := s.alert, out := s.out, tripped := s.tripped } = s
    let cleared : State := { State.reset with
      cycle := s.cycle, tick := s.tick, tickFrac := s.tickFrac, freeCount := s.freeCount, oracle := s.oracle, out := s.out, inputs := s.inputs, nextStamp := s.nextStamp
      host := s.host, pkgNo := s.pkgNo, deadLanes := s.deadLanes, hostDead := s.hostDead, rpHome := s.rpHome, rpHolders := s.rpHolders, rpSent := s.rpSent, rpNext := s.rpNext
      tripped := s.tripped || s.thermtrip }
    let measured (t : State) : Prop := (∀ k, k < 3 → t.mrOf k = Shake.join 0 (Config.imageDigest k)) ∧ (∀ k, 3 ≤ k → t.mrOf k = 0) ∧ t.chain = none
      ∧ t.bootst = 1 ∧ t.pwrgd = true
    (s.pwrgd = false → Completes .evPowerUp s fun t => measured t ∧ { t with pwrgd := s.pwrgd, bootst := s.bootst, mr := s.mr, chain := s.chain } = s)
    ∧ (s.pwrgd = true → becomes .evPowerUp s)
    ∧ (s.pwrgd = true → boot = 1 → (s.saigaOut = false → does .firmwareStart fun t => t = { s with bootst := 2 })
      ∧ (s.saigaOut = true → does .firmwareStart fun t => stops t 4))
    ∧ (s.pwrgd = false ∨ boot ≠ 1 → does .firmwareStart fun t => t = s)
    ∧ (s.pwrgd = true → boot = 1 → (code = 1 ∨ code = 2 → Completes (.evDeviceReady code) s fun t => stops t code.toNat)
      ∧ (code ≠ 1 → code ≠ 2 → becomes (.evDeviceReady code) s))
    ∧ (s.pwrgd = true → boot = 2 →
      (code = 0 → s.saigaOut = false → s.tripped = false → Completes (.evDeviceReady code) s fun t => t.bootst = 3 ∧ t.l2 = [] ∧ (∀ a, t.cp.byte a = 0)
        ∧ t.parts = [] ∧ t.pat = [] ∧ (∀ c, t.getCore c = if c < 72 then { s.getCore c with fused := fuseTile c } else s.getCore c)
        ∧ { t with bootst := s.bootst, l2 := s.l2, cp := s.cp, cpBanks := s.cpBanks, cores := s.cores, parts := s.parts, pat := s.pat } = s)
      ∧ (code = 0 → s.saigaOut = true → Completes (.evDeviceReady code) s fun t => stops t 4)
      ∧ (code = 0 → s.saigaOut = false → s.tripped = true → Completes (.evDeviceReady code) s fun t => stops t 5 ∧ t.tripped = false)
      ∧ (code = 3 → Completes (.evDeviceReady code) s fun t => stops t 3) ∧ (code ≠ 0 → code ≠ 3 → becomes (.evDeviceReady code) s))
    ∧ (s.pwrgd = false ∨ boot = 0 ∨ 3 ≤ boot → becomes (.evDeviceReady code) s)
    ∧ becomes .evPwrgdDeassert { cleared with host := s.hostLeft }
    ∧ (s.hostOld = [] → s.hostLeft = s.host)
    ∧ (∀ h bs, s.hostOld = [(h, bs)] → (∀ k (hk : k < bs.length), s.hostLeft.byte (h * 64 + k) = bs[k])
        ∧ ∀ a, a < h * 64 ∨ h * 64 + bs.length ≤ a → s.hostLeft.byte a = s.host.byte a)
    ∧ (∀ i, i = Instr.evPerst ∨ i = .evPfFlr → (s.pwrgd = false ∨ s.resetFrom ≠ none → becomes i s)
      ∧ (s.pwrgd = true → s.resetFrom = none → Completes i s fun t => t.resetFrom = some s.tick ∧ t.bootst = 0 ∧ recalled t ∧ t.tasks = [] ∧ t.cores = []
        ∧ t.clusters = [] ∧ t.stamps = [] ∧ t.slotTab = [] ∧ t.subreg = none ∧ t.launching = [] ∧ t.way = [] ∧ t.held = [] ∧ t.agenda = []
        ∧ { t with
            resetFrom := s.resetFrom, bootst := s.bootst, cxl := s.cxl, out := s.out, tasks := s.tasks, cores := s.cores, clusters := s.clusters, stamps := s.stamps
            slotTab := s.slotTab, subreg := s.subreg, launching := s.launching, way := s.way, held := s.held, agenda := s.agenda } = s))
    ∧ (s.resetFrom = none → does .resetEntryEnd fun t => t = s)
    ∧ (∀ f, s.resetFrom = some f →
      ((∃ h, owned h) → s.tick < f + usTicks 5000 → does .resetEntryEnd fun t => t = s)
      ∧ ((∀ h, ¬owned h) ∨ f + usTicks 5000 ≤ s.tick → does .resetEntryEnd fun t => measured t
        ∧ { t with mr := [], bootst := 0, pwrgd := false } = { cleared with
          saiga := s.saiga, evcfg := s.evcfg, evhead := s.evhead, evtail := s.evtail, evseq := s.evseq, sgstat := s.sgstat, harts := s.harts, pair := s.pair
          failingOver := s.failingOver, failFrom := s.failFrom, failedHart := s.failedHart, saigaOut := s.saigaOut, pending := s.pending
          prqcfg := s.prqcfg, prqhead := s.prqhead, prqtail := s.prqtail, mrext := s.mrext, audw := s.audw
          audit := s.audit, lastAudit := s.lastAudit, sinceCkpt := s.sinceCkpt, ckpt := s.ckpt, delivered := s.delivered
          spdmSession := s.spdmSession, transcript := s.transcript }))
    ∧ (s.partOfVf vf = none → becomes (.evVfFlr vf) s)
    ∧ (∀ p, s.partOfVf vf = some p →
      ((s.getPart p).tdisp = .run → s.auditRoom = 0 → becomes (.evVfFlr vf) { s with inputs := s.inputs ++ [.vfFlr vf] })
      ∧ ((s.getPart p).tdisp ≠ .run ∨ s.auditRoom ≠ 0 → Completes (.evVfFlr vf) s fun t =>
        (t.getPart p).tdisp = (if (s.getPart p).tdisp = .run then .error else (s.getPart p).tdisp)
        ∧ ((s.getPart p).tdisp = .run → ∃ e, ⟨orderHost, .audit 9 p 2 e⟩ ∈ t.pending)
        ∧ (∀ n, n ∈ s.tasks.map Prod.fst → n ≠ 0 → (s.getTask n).part = p → (s.getTask n).state ≠ .retired → (t.getTask n).state = .aborted)
        ∧ (∀ n, (s.getTask n).part ≠ p → (t.getTask n).state = (s.getTask n).state)
        ∧ (∀ c b, (s.getCore c).bind = some b → (s.getTask b.task).part ≠ p → (t.getCore c).bind = some b ∧ (t.getCore c).mstate = (s.getCore c).mstate)
        ∧ ∀ c b, c < 72 → (s.getCore c).bind = some b → (s.getCore c).replay = none → b.task ∈ s.tasks.map Prod.fst → b.task ≠ 0 → (s.getTask b.task).part = p →
            (s.getTask b.task).state = .running → s.faultHeld c = false →
            (t.getCore c).bind = none ∧ (t.getCore c).mstate = .retired ∧ (t.getCore c).scrub = true))
    ∧ ((s.gateRefused j = true ↔
        (pair j ∧ ∃ c, c / 2 = j ∧ ((s.getCore c).bind.isSome = true ∨ (s.getCore c).scrub = true ∨ ∃ n, armed n ∧ s.bindCore n = c)) ∨ l2 j
        ∨ (60 ≤ j ∧ ∃ n k, n < 256 ∧ (s.chan n).fld 62 60 = 1 ∧ 3 * (j - 60) ≤ k ∧ k < 3 * (j - 60) + 3 ∧ bitOf ((s.chan n).fld 58 47) k = true)))
    ∧ (s.saigaRuns = true →
      (v.bit 0 = w.bit 0 → becomes (.evIslandGate v) s)
      ∧ (v.bit 0 = true → w.bit 0 = false → (s.gateRefused j = true → becomes (.evIslandGate v) s)
        ∧ (s.gateRefused j = false → Completes (.evIslandGate v) s fun t => { t with islctl := s.islctl, cores := s.cores } = s
            ∧ t.isl j = (w.put 0 0 1).put 31 30 1 ∧ (∀ k, k ≠ j → t.isl k = s.isl k)
            ∧ ∀ c, t.getCore c = if pair j ∧ c / 2 = j then { s.getCore c with shadow := none } else s.getCore c))
      ∧ (v.bit 0 = false → w.bit 0 = true → Completes (.evIslandGate v) s fun t =>
          island t j (freq w) (now w) (if s.pkgctl = true ∨ s.exiting = true then 1 else 2) 0)
      ∧ (let ok := freq v ≤ 36 ∧ (if l2 j then 24 else 8) ≤ freq v
         (ok → freq v ≠ freq w → Completes (.evIslandFrequency v) s fun t => island t j (freq v) (now w) (if cur w = 1 then 1 else 2) (w.fld 0 0))
         ∧ (¬ok ∨ freq v = freq w → becomes (.evIslandFrequency v) s))
      ∧ ((v.bit 0 = true ↔ gatedPkg) → becomes (.evPkgGate v) s)
      ∧ (v.bit 0 = true → ¬gatedPkg → (¬may → becomes (.evPkgGate v) s)
        ∧ (may → Completes (.evPkgGate v) s fun t => t.gating = true ∧ recalled t ∧ { t with gating := s.gating, cxl := s.cxl, out := s.out } = s))
      ∧ (v.bit 0 = false → gatedPkg → becomes (.evPkgGate v) { s with pkgctl := false, gating := false, exiting := s.exiting || s.pkgctl })
      ∧ (1700 < v.fld 15 0 → becomes (.evRegisterWrite 72 0x8D3 v) s)
      ∧ (v.fld 15 0 ≤ 1700 → s.pwrlim.fld 31 16 ≤ v.fld 15 0 → s.powerLow = false →
          becomes (.evRegisterWrite 72 0x8D3 v) { s with pwrlim := s.pwrlim.put 15 0 (v.fld 15 0) }))
    ∧ (s.saigaRuns = false → becomes (.evIslandGate v) s ∧ becomes (.evIslandFrequency v) s ∧ becomes (.evPkgGate v) s)
    ∧ (s.gating = true → (¬may → does .pkgGateEnter fun t => t = { s with gating := false })
      ∧ (may → s.hostWrites = true ∨ (∃ h, owned h) → does .pkgGateEnter fun t => t = s)
      ∧ (may → s.hostWrites = false → (∀ h, ¬owned h) → does .pkgGateEnter fun t => t.pkgctl = true ∧ t.gating = false ∧ t.exiting = false
          ∧ (∀ k, t.isl k = if k < 64 ∧ ¬l2 k then (s.isl k).put 31 30 1 else s.isl k)
          ∧ (∀ c, t.getCore c = if c < 72 then { s.getCore c with shadow := none } else s.getCore c)
          ∧ { t with pkgctl := s.pkgctl, gating := s.gating, exiting := s.exiting, islctl := s.islctl, cores := s.cores } = s))
    ∧ (s.gating = false → does .pkgGateEnter fun t => t = s)
    ∧ (s.exiting = true → Completes .evPkgGateExitComplete s fun t => t.exiting = false
        ∧ { t with exiting := s.exiting, islctl := s.islctl, freeCount := s.freeCount } = s
        ∧ ∀ k, (64 ≤ k ∨ l2 k ∨ (s.isl k).bit 0 = true → t.isl k = s.isl k) ∧ (k < 64 → ¬l2 k → (s.isl k).bit 0 = false → on k (t.isl k)))
    ∧ (s.exiting = false → becomes .evPkgGateExitComplete s)
    ∧ (let x := s.isl i
       (cur x = 2 → Completes (.evIslandChangeComplete i) s fun t => on i (t.isl i) ∧ (∀ k, k ≠ i → t.isl k = s.isl k)
         ∧ { t with islctl := s.islctl, freeCount := s.freeCount } = s)
       ∧ (cur x ≠ 2 → becomes (.evIslandChangeComplete i) s)
       ∧ (i < 64 → s.throttled.contains i = false → Completes (.evThermalThrottle i) s fun t => t.throttled = s.throttled ++ [i]
           ∧ island { t with throttled := s.throttled } i (freq x) (now x / 2) (if busy x then cur x else 3) (x.fld 0 0))
       ∧ (64 ≤ i ∨ s.throttled.contains i = true → becomes (.evThermalThrottle i) s)
       ∧ (s.throttled.contains i = true → Completes (.evThermalThrottleEnd i) s fun t => (∀ k, k ∈ t.throttled ↔ k ∈ s.throttled ∧ k ≠ i)
           ∧ (let low := s.powerLow = true ∧ (pair i ∨ tahr i)
              island { t with throttled := s.throttled } i (freq x) (if busy x then now x else if low then min (freq x) (2 * now x) else freq x)
               (if busy x ∨ low then cur x else 0) (x.fld 0 0)))
       ∧ (s.throttled.contains i = false → becomes (.evThermalThrottleEnd i) s)
       ∧ (i < 64 → becomes (.evThermalTrip i) { s with thermtrip := true }) ∧ (64 ≤ i → becomes (.evThermalTrip i) s))
    ∧ (let u : State := { s with pwrlim := s.pwrlim.put 31 16 meas.toNat }
       ∀ e, e = Instr.evPowerLimitThrottle meas ∨ e = .evPowerLimitThrottleEnd meas →
         (s.pwrlim.fld 15 0 < meas.toNat → Completes e s fun t => t.powerLow = true
           ∧ { t with powerLow := u.powerLow, islctl := u.islctl, freeCount := u.freeCount } = u
           ∧ ∀ k, ∃ f, (now (s.isl k) ≠ 0 → f < now (s.isl k)) ∧ (now (s.isl k) = 0 → f = 0)
             ∧ t.isl k = if pair k ∨ tahr k then ((s.isl k).put 23 16 f).put 31 30 (if busy (s.isl k) then cur (s.isl k) else 3) else s.isl k)
         ∧ (meas.toNat ≤ s.pwrlim.fld 15 0 → s.powerLow = true → Completes e s fun t => t.powerLow = false
           ∧ { t with powerLow := u.powerLow, islctl := u.islctl } = u
           ∧ ∀ k, let x := s.isl k
             t.isl k = if (pair k ∨ tahr k) ∧ ¬busy x then
               (if s.throttled.contains k then x.put 23 16 (freq x / 2) else (x.put 23 16 (freq x)).put 31 30 0) else x)
         ∧ (meas.toNat ≤ s.pwrlim.fld 15 0 → s.powerLow = false → becomes e u))

/-! ### Words, steps and the machine as a whole -/

/-- R129, R131, R134 to R142: words written out from the specification's tables decode to the instructions they stand for: each format of a sequencer's word,
a long form of each layout, schedule entries. -/
def Obligations.DecodesSpecWords : Prop :=
  let is (n w : Nat) (i : Instr) : Prop := decodeTableWord n w = some i
  -- Q: 000000 gd=3 ga=1 gb=2 fn=0; 000001 ga=5 DYN=0 RM=0 F32 op=5
  is 32 0b00000000011000010001000000000000 (.add 3 1 2) ∧ is 32 0b00000100100001010011000000100101 (.fma .f32 ⟨false, 0⟩ 4 5 6)
  -- 000010 gd=7, fn 24 with scope 10; 000011 scope 11, word, acquire and release, CAS
  ∧ is 32 0b00001000111000000000000001100010 (.fence .dev 7) ∧ is 32 0b00001100010000110010011111001001 (.amoCas ⟨true, true⟩ .sys true 2 3 4)
  -- I: 001000 gd=5 ga=6 imm=-1; 010011; 011010; 001110 n=63
  ∧ is 32 0b00100000101001101111111111111111 (.addi 5 6 0xFFFF) ∧ is 32 0b01001101111100000000000000001000 (.ldD 15 16 8)
  ∧ is 32 0b01101011110111110000000000000100 (.stW 30 31 4) ∧ is 32 0b00111000001000100000000000111111 (.slli 1 2 63)
  -- B: 100000 ga=1 gb=2 off=-4; J: 100110 off=1
  ∧ is 32 0b10000000001000101111111111111100 (.beq 1 2 0xFFFC) ∧ is 32 0b10011000000000000000000000000001 (.j 1)
  -- W: 111101 fn=0 gd=9, imm32 = 0x80000000; 111000 fn=0 ga=1 gb=2 gc=3 GOB=4, OFS=5, CHV=1 CH=6, MOD=01000
  ∧ is 64 0b1000000000000000000000000000000011110101001000000000000000000000 (.liw 9 0x80000000)
  ∧ is 64 0b0000000100001101000000000000010111100000001000100001100100000000
      (.scopy { slot := 0, mod := 8, ch := 6, chv := true, ofs := 5, ga := 1, gb := 2, gc := 3, gob := 4 })
  -- entries: OP, FMT, SA, SB, SC, WE, WI, DR, DC, PR, STG, AUX: NOP of zeros
  ∧ is 48 0 (.eNop { fmt := 0, sa := 0, sb := 0, sc := 0, we := false, wi := 0, dr := 0, dc := 0, pr := 0, stg := 0, aux := 0 })

/-- R134, R143, R45, R29, R346: a step carries out the first entry of the agenda. A sequencer whose turn it is takes the trap it owes from while it was frozen, or one that can be delivered;
with neither, and nothing it waits for, it fetches
at its program counter and executes what the words decode to, or raises the illegal-instruction exception. Where the bytes there are readable
with no error, those are the words, and the fetch changes nothing but what an access leaves in L2 and directory. A waiting instruction is tried
again with the words it holds. An element's turn executes its schedule entry. (The agenda is the model's own: log entry 1.) -/
def Obligations.StepRunsDecodedInstruction : Prop :=
  ∀ (s : State) (c : Nat) (rest : List Action) (i : Instr) (x : Issue) (e : Ev),
    (s.agenda = .elem x :: rest → decodeEntryWord ((s.getStamp x.stamp).entry x.row x.col x.slot) = .ok i →
      step s = exec i { s with agenda := rest, issue := x })
    ∧ (s.agenda = .event e :: rest → step s = runEv e { s with agenda := rest })
    ∧ (let u : State := { s with agenda := rest, core := c }
       s.agenda = .seq c :: rest → c < 72 → u.cur.moves = true → u.cur.stopHold = false → u.cur.captured = false →
       (u.q.owed = none → u.canDeliver c = true → step s = exec (.evAsyncTrapDelivery c) u)
       ∧ (∀ o, u.q.owed = some o → step s = .next ((u.modQ fun q => { q with owed := none }).trapAt c o.trap o.epc))
       ∧ (u.q.owed = none → u.canDeliver c = false → u.q.wait = .none → u.atBreakpoint = false →
         (∀ t, u.fetch = .error t → step s = .next t)
         ∧ (∀ t, u.fetch = .ok t → decodeWords (t.q.ir.fld 31 0) (t.q.ir.fld 63 32) = .ok i → step s = exec i t.passBreak)
         ∧ (∀ t d, u.fetch = .ok t → decodeWords (t.q.ir.fld 31 0) (t.q.ir.fld 63 32) = .error d →
             step s = execEvIllegalInstruction (BitVec.ofNat 32 (t.q.ir.fld 31 0)) t.passBreak)
         ∧ (let pc := u.q.pc
            let clear (pa : Nat) (leaf : Word) : Prop := placeOf pa = .hbm ∧ u.frameOk u.me.part leaf pa = true ∧ u.heldOwn c pa 4 = false ∧ leafHc leaf = false
              ∧ leafType leaf ≠ 1 ∧ u.hbm.worst pa 4 = .clean ∧ u.lost.contains (pa / 128) = false
            let long (w0 : Nat) : Bool := isLongMajor (w0 / 2 ^ 26 % 64)
            let runs (w : Nat) : Prop := decodeWords (w % 2 ^ 32) (w / 2 ^ 32) = .ok i → ∃ t, t.q = { u.q with ir := BitVec.ofNat 64 w } ∧ OnlyAccess u t
              ∧ step s = exec i t
            let hit (va leaf : Word) (pa : Nat) : Prop :=
              ∀ v : State, (v.getCore c).seqTlb = u.cur.seqTlb → v.xlate c .seq u.me.part va 2 = (.ok leaf pa, v)
            u.cur.bkptPassed = none → ∀ leaf pa, hit pc leaf pa → clear pa leaf →
              (long (u.hbm.num pa 4) = false → runs (u.hbm.num pa 4))
              ∧ ∀ leaf2 pa2, hit (pc + 4) leaf2 pa2 → clear pa2 leaf2 → long (u.hbm.num pa 4) = true →
                  runs (u.hbm.num pa 4 + u.hbm.num pa2 4 * 2 ^ 32)))
       ∧ (u.q.owed = none → u.canDeliver c = false → (∃ k, u.q.wait = .phase k) ∨ u.q.wait = .join ∨ u.q.wait = .exit ∨ u.q.wait = .launch ∨ u.q.wait = .signal →
           decodeWords (u.q.ir.fld 31 0) (u.q.ir.fld 63 32) = .ok i → step s = exec i u))

/-- Decode and encode agree (R129, R131 to R142): every well-formed instruction that has an encoding is what the decoder reads from it, with every operand at
every value the encoding admits. -/
def Obligations.DecodeOfEncodeIsIdentity : Prop :=
  ∀ (i : Instr) (nbits w : Nat), i.wf = true → encode i = some (nbits, w) → decodeTableWord nbits w = some i

/-- R403, R404, R321, R324, R326, R351, R333, R354, R361, R362, R364, R365, R394, R80, R406, R407: what reset leaves, where the specification gives the value. -/
def Obligations.ResetState : Prop :=
  let s := State.reset
  s.bootst = 0 ∧ s.evseq = 0 ∧ s.evhead = 0 ∧ s.evtail = 0 ∧ s.evcfg.fld 3 0 = 6 ∧ s.prqcfg.fld 3 0 = 6 ∧ s.sgstat.fld 5 4 = 2 ∧ s.sgstat.fld 1 0 = 0
  ∧ s.sgstat.bit 7 = false ∧ s.tlbinv.bit 63 = true ∧ s.pidx = 0 ∧ s.pwrlim.fld 15 0 = 1700 ∧ s.pkgctl = false ∧ s.alert = false
  ∧ (∀ i, (s.isl i).fld 23 16 = 36 ∧ (s.isl i).fld 15 8 = 36 ∧ (s.isl i).bit 0 = false ∧ (s.isl i).fld 31 30 = 0)
  ∧ (∀ n, s.bindWord n 0 = 0 ∧ s.chan n = 0 ∧ s.mrOf n = 0)
  ∧ (∀ p, (s.getPart p).prect = 0 ∧ (s.getPart p).mask = 0xFFFF ∧ (s.getPart p).ptroot = 0 ∧ (s.getPart p).psched.fld 63 45 = 0 ∧ (s.getPart p).psched.fld 44 36 = 50 ∧ (s.getPart p).psched.fld 35 26 = 10
      ∧ (s.getPart p).psched.fld 25 14 = 100 ∧ (s.getPart p).psched.fld 13 2 = 1000 ∧ (s.getPart p).dbgcfg.fld 31 24 = 16 ∧ (s.getPart p).dbgcfg.fld 23 16 = 24
      ∧ (s.getPart p).wlcfg.fld 63 52 = 16 ∧ (s.getPart p).tdisp = .unlocked
      ∧ ∀ c, c < 12 → (s.getPart p).cremap.fld (4 * c + 3) (4 * c) = c)
  ∧ (∀ c, (s.getCore c).bind = none ∧ (s.getCore c).mstate = .unbound)

/-- Reset leaves a safe state: every memory in its canonical form, an agenda that names only cores of the device (the form of a memory and the
agenda are the model's own: log entries 1 and 6). -/
def Obligations.SafeAtReset : Prop := Safe State.reset

/-- Every step keeps a state safe: the memories stay in their canonical form, so that equal memories are equal data, and the agenda names only
cores of the device (R10; log entries 1 and 6). -/
def Obligations.StepKeepsSafe : Prop := ∀ s t : State, Safe s → step s = .next t → Safe t

/-- No instruction, device step or outside event ends in a fault or a refusal; a step faults only where the agenda names a core that the device
does not have (R10), which no safe state does. -/
def Obligations.EveryInstructionAnswers : Prop :=
  (∀ (i : Instr) (s : State), ∃ t, exec i s = .next t)
  ∧ (∀ s : State, (∃ t, step s = .next t) ∨ ∃ c rest, 72 ≤ c ∧ s.agenda = .seq c :: rest ∧ step s = .fault (.noSuchCore c))
  ∧ ∀ s : State, Safe s → StepsOn s

end
end

