-- ==== Sys2Proof/Laws/Store.lean ====
section
/-!
SUPPORT. Reading after writing a sparse map, and the canonical form under every operation of Sys2Proof/Machine/Store.lean.
-/

namespace Sys2Proof.Store

variable {α : Type}

theorem get_erase_same (d : α) (m : Store α) (k : Nat) : get d (erase m k) k = d := by
  induction m with
  | nil => rfl
  | cons h t ih =>
    obtain ⟨k', v⟩ := h
    unfold erase
    split
    · exact ih
    · rename_i hne
      simp [get, hne, ih]

theorem get_erase_other (d : α) (m : Store α) {k j : Nat} (h : j ≠ k) : get d (erase m k) j = get d m j := by
  induction m with
  | nil => rfl
  | cons p t ih =>
    obtain ⟨k', v⟩ := p
    unfold erase
    split
    · rename_i he
      subst he
      simp [get, Ne.symm h, ih]
    · simp [get, ih]

theorem get_insert_other (d : α) (m : Store α) {k j : Nat} (v : α) (h : j ≠ k) : get d (insert m k v) j = get d m j := by
  induction m with
  | nil => simp [insert, get, Ne.symm h]
  | cons p t ih =>
    obtain ⟨k', v'⟩ := p
    unfold insert
    split
    · simp [get, Ne.symm h]
    · simp [get, ih]

theorem get_insert_erase (d : α) (m : Store α) (k : Nat) (v : α) : get d (insert (erase m k) k v) k = v := by
  induction m with
  | nil => simp [erase, insert, get]
  | cons p t ih =>
    obtain ⟨k', v'⟩ := p
    by_cases he : k' = k
    · rw [erase, if_pos he]; exact ih
    · rw [erase, if_neg he, insert]
      split
      · simp [get]
      · simp [get, he, ih]

variable [DecidableEq α]

/-- Reading the key just written gives the value written. -/
@[simp] theorem get_set_same (d : α) (m : Store α) (k : Nat) (v : α) : get d (set d m k v) k = v := by
  unfold set
  split
  · rename_i h
    rw [get_erase_same, h]
  · exact get_insert_erase d m k v

/-- Writing a key leaves every other key alone. -/
theorem get_set_other (d : α) (m : Store α) {k j : Nat} (v : α) (h : j ≠ k) : get d (set d m k v) j = get d m j := by
  unfold set
  split
  · exact get_erase_other d m h
  · rw [get_insert_other d _ v h, get_erase_other d m h]

/-- Both at once. -/
theorem get_set (d : α) (m : Store α) (k j : Nat) (v : α) :
    get d (set d m k v) j = if j = k then v else get d m j := by
  split
  · rename_i h
    rw [h, get_set_same]
  · rename_i h
    exact get_set_other d m v h

/-- Writing back what is read changes no reading. -/
theorem get_set_self (d : α) (m : Store α) (k j : Nat) : get d (set d m k (get d m k)) j = get d m j := by
  rw [get_set]
  split
  · rename_i h
    rw [h]
  · rfl

/-! ### The canonical form -/

/-- What an entry of a canonical map must be like, given the entries after it. -/
theorem wf_cons (d : α) (k : Nat) (v : α) (m : Store α) :
    wf d ((k, v) :: m) = true ↔ v ≠ d ∧ wf d m = true ∧ ∀ p ∈ m, k < p.1 := by
  induction m generalizing k v with
  | nil => simp [wf]
  | cons p t ih =>
    obtain ⟨k', v'⟩ := p
    simp only [wf, Bool.and_eq_true, decide_eq_true_eq, List.mem_cons, forall_eq_or_imp]
    constructor
    · rintro ⟨⟨hv, hk⟩, hw⟩
      exact ⟨hv, hw, hk, fun p hp => Nat.lt_trans hk ((ih k' v').1 hw |>.2.2 p hp)⟩
    · rintro ⟨hv, hw, hk, -⟩
      exact ⟨⟨hv, hk⟩, hw⟩

theorem wf_tail {d : α} {p : Nat × α} {m : Store α} (h : wf d (p :: m) = true) : wf d m = true := by
  obtain ⟨k, v⟩ := p
  exact ((wf_cons d k v m).1 h).2.1

omit [DecidableEq α] in
theorem mem_erase {m : Store α} {k : Nat} {p : Nat × α} (h : p ∈ erase m k) : p ∈ m ∧ p.1 ≠ k := by
  induction m with
  | nil => simp [erase] at h
  | cons q t ih =>
    obtain ⟨k', v⟩ := q
    unfold erase at h
    split at h
    · exact ⟨List.mem_cons_of_mem _ (ih h).1, (ih h).2⟩
    · rename_i hne
      cases h with
      | head => exact ⟨List.mem_cons_self, hne⟩
      | tail _ h => exact ⟨List.mem_cons_of_mem _ (ih h).1, (ih h).2⟩

theorem wf_erase (d : α) {m : Store α} (k : Nat) (h : wf d m = true) : wf d (erase m k) = true := by
  induction m with
  | nil => rfl
  | cons p t ih =>
    obtain ⟨k', v⟩ := p
    obtain ⟨hv, hw, hl⟩ := (wf_cons d k' v t).1 h
    unfold erase
    split
    · exact ih hw
    · exact (wf_cons d k' v _).2 ⟨hv, ih hw, fun p hp => hl p (mem_erase hp).1⟩

omit [DecidableEq α] in
theorem mem_insert {m : Store α} {k : Nat} {v : α} {p : Nat × α} (h : p ∈ insert m k v) : p = (k, v) ∨ p ∈ m := by
  induction m with
  | nil => simpa [insert] using h
  | cons q t ih =>
    obtain ⟨k', v'⟩ := q
    unfold insert at h
    split at h
    · simpa using h
    · cases h with
      | head => exact .inr List.mem_cons_self
      | tail _ h => exact (ih h).imp id (List.mem_cons_of_mem _)

theorem wf_insert (d : α) {m : Store α} {k : Nat} {v : α} (hv : v ≠ d) (hk : ∀ p ∈ m, p.1 ≠ k) (h : wf d m = true) :
    wf d (insert m k v) = true := by
  induction m with
  | nil => simpa [insert, wf] using hv
  | cons p t ih =>
    obtain ⟨k', v'⟩ := p
    obtain ⟨hv', hw, hl⟩ := (wf_cons d k' v' t).1 h
    have hne : k' ≠ k := hk (k', v') List.mem_cons_self
    unfold insert
    split
    · rename_i hlt
      refine (wf_cons d k v _).2 ⟨hv, h, fun p hp => ?_⟩
      cases hp with
      | head => exact hlt
      | tail _ hp => exact Nat.lt_trans hlt (hl p hp)
    · rename_i hge
      refine (wf_cons d k' v' _).2 ⟨hv', ih (fun p hp => hk p (List.mem_cons_of_mem _ hp)) hw, fun p hp => ?_⟩
      cases mem_insert hp with
      | inl he => subst he; simp only; omega
      | inr hp => exact hl p hp

/-- A write keeps the canonical form. -/
theorem wf_set (d : α) {m : Store α} (k : Nat) (v : α) (h : wf d m = true) : wf d (set d m k v) = true := by
  unfold set
  split
  · exact wf_erase d k h
  · rename_i hv
    exact wf_insert d hv (fun p hp => (mem_erase hp).2) (wf_erase d k h)

theorem wf_modify (d : α) {m : Store α} (k : Nat) (f : α → α) (h : wf d m = true) : wf d (modify d m k f) = true :=
  wf_set d k _ h

/-- Taking entries out keeps it. -/
theorem wf_filter (d : α) {m : Store α} (q : Nat × α → Bool) (h : wf d m = true) : wf d (m.filter q) = true := by
  induction m with
  | nil => rfl
  | cons p t ih =>
    obtain ⟨k, v⟩ := p
    obtain ⟨hv, hw, hl⟩ := (wf_cons d k v t).1 h
    rw [List.filter_cons]
    split
    · exact (wf_cons d k v _).2 ⟨hv, ih hw, fun p hp => hl p ((List.mem_filter.1 hp).1)⟩
    · exact ih hw

end Sys2Proof.Store
end

