-- ==== Sys2Proof/Laws/Memory.lean ====
section
/-!
SUPPORT. The byte memories: reading a byte after a write, and the canonical form under every operation that makes a memory.
-/

namespace Sys2Proof.Machine

/-! ### Reading after writing -/

@[simp] theorem Ram.byte_setByte (r : Ram) (a b : Nat) (v : Byte) : (r.setByte a v).byte b = if b = a then v else r.byte b :=
  Store.get_set _ _ _ _ _

@[simp] theorem Ram.byte_setMark (r : Ram) (w : Nat) (m : Mark) (a : Nat) : (r.setMark w m).byte a = r.byte a := rfl

/-- A write leaves every byte outside it alone. -/
theorem Ram.byte_write_outside (r : Ram) (a : Nat) (bs : List Byte) (x : Nat) (h : x < a ∨ a + bs.length ≤ x) :
    (r.write a bs).byte x = r.byte x := by
  induction bs generalizing r a with
  | nil => rfl
  | cons b t ih =>
    simp only [List.length_cons] at h
    rw [Ram.write, ih _ _ (by omega), Ram.byte_setByte, if_neg (by omega)]

/-- A write gives each byte inside it the byte written there. -/
theorem Ram.byte_write_inside (r : Ram) (a : Nat) (bs : List Byte) (i : Nat) (h : i < bs.length) :
    (r.write a bs).byte (a + i) = bs[i] := by
  induction bs generalizing r a i with
  | nil => cases h
  | cons b t ih =>
    cases i with
    | zero => rw [Ram.write, Ram.byte_write_outside _ _ _ _ (.inl (by omega))]; simp
    | succ i =>
      have := ih (r.setByte a b) (a + 1) i (by simpa using h)
      rw [Ram.write, List.getElem_cons_succ, ← this]
      congr 1
      omega

@[simp] theorem Ram.byte_markStore (r : Ram) (a n : Nat) (psn : Bool) (w k x : Nat) :
    (r.markStore a n psn w k).byte x = r.byte x := by
  induction k generalizing r w with
  | zero => rfl
  | succ k ih => rw [Ram.markStore, ih, Ram.byte_setMark]

/-- A store leaves every byte outside it alone. -/
theorem Ram.byte_store_outside (r : Ram) (a : Nat) (bs : List Byte) (psn : Bool) (x : Nat) (h : x < a ∨ a + bs.length ≤ x) :
    (r.store a bs psn).byte x = r.byte x := by
  rw [Ram.store, Ram.byte_markStore, Ram.byte_write_outside _ _ _ _ h]

/-- A store gives each byte inside it the byte stored there. -/
theorem Ram.byte_store_inside (r : Ram) (a : Nat) (bs : List Byte) (psn : Bool) (i : Nat) (h : i < bs.length) :
    (r.store a bs psn).byte (a + i) = bs[i] := by
  rw [Ram.store, Ram.byte_markStore, Ram.byte_write_inside _ _ _ _ h]

theorem Ram.length_read (r : Ram) (a n : Nat) : (r.read a n).length = n := by
  induction n generalizing a with
  | zero => rfl
  | succ n ih => simp [Ram.read, ih]

/-- Reads of equal bytes are equal. -/
theorem Ram.read_congr {r t : Ram} {a n : Nat} (h : ∀ i, i < n → t.byte (a + i) = r.byte (a + i)) : t.read a n = r.read a n := by
  induction n generalizing a with
  | zero => rfl
  | succ n ih =>
    rw [Ram.read, Ram.read, ih fun i hi => ?_]
    · have := h 0 (by omega)
      simp only [Nat.add_zero] at this
      rw [this]
    · have := h (i + 1) (by omega)
      rwa [show a + (i + 1) = a + 1 + i by omega] at this

/-! ### The canonical form -/

theorem Ram.wf_iff (r : Ram) : r.wf = true ↔ Store.wf emptyByte r.bytes = true ∧ Store.wf Mark.clean r.marks = true := by
  simp [Ram.wf]

theorem Ram.wf_empty : Ram.wf {} = true := rfl

theorem Ram.wf_setByte {r : Ram} (a : Nat) (b : Byte) (h : r.wf = true) : (r.setByte a b).wf = true := by
  rw [Ram.wf_iff] at *
  exact ⟨Store.wf_set _ _ _ h.1, h.2⟩

theorem Ram.wf_write {r : Ram} (a : Nat) (bs : List Byte) (h : r.wf = true) : (r.write a bs).wf = true := by
  induction bs generalizing r a with
  | nil => exact h
  | cons b t ih => exact ih _ (Ram.wf_setByte a b h)

theorem Ram.wf_setMark {r : Ram} (w : Nat) (m : Mark) (h : r.wf = true) : (r.setMark w m).wf = true := by
  rw [Ram.wf_iff] at *
  exact ⟨h.1, Store.wf_set _ _ _ h.2⟩

theorem Ram.wf_markStore {r : Ram} (a n : Nat) (psn : Bool) (w k : Nat) (h : r.wf = true) :
    (r.markStore a n psn w k).wf = true := by
  induction k generalizing r w with
  | zero => exact h
  | succ k ih => exact ih _ (Ram.wf_setMark w _ h)

theorem Ram.wf_store {r : Ram} (a : Nat) (bs : List Byte) (psn : Bool) (h : r.wf = true) : (r.store a bs psn).wf = true :=
  Ram.wf_markStore _ _ _ _ _ (Ram.wf_write _ _ h)

theorem Ram.wf_clear {r : Ram} (a n : Nat) (h : r.wf = true) : (r.clear a n).wf = true := by
  rw [Ram.wf_iff] at *
  exact ⟨Store.wf_filter _ _ h.1, Store.wf_filter _ _ h.2⟩

theorem Ram.wf_slice {r : Ram} (a n : Nat) (h : r.wf = true) : (r.slice a n).wf = true := by
  rw [Ram.wf_iff] at *
  exact ⟨Store.wf_filter _ _ h.1, Store.wf_filter _ _ h.2⟩

theorem wf_foldl_set {α : Type} [DecidableEq α] (d : α) (l : List (Nat × α)) {m : Store α} (h : Store.wf d m = true) :
    Store.wf d (l.foldl (fun m c => Store.set d m c.1 c.2) m) = true := by
  induction l generalizing m with
  | nil => exact h
  | cons c t ih => exact ih (Store.wf_set d _ _ h)

/-- Whatever is merged into a canonical memory, the result is canonical. -/
theorem Ram.wf_merge {r : Ram} (d : Ram) (h : r.wf = true) : (r.merge d).wf = true := by
  rw [Ram.wf_iff] at *
  exact ⟨wf_foldl_set _ _ h.1, wf_foldl_set _ _ h.2⟩

theorem Ram.wf_setBytes {r : Ram} (cs : List Host.Cell) (h : r.wf = true) : (r.setBytes cs).wf = true := by
  induction cs generalizing r with
  | nil => exact h
  | cons c t ih => exact ih (Ram.wf_setByte _ _ h)

theorem Ram.wf_mergeMarks {r : Ram} (cs : List Host.Cell) (psn ws : List Nat) (h : r.wf = true) : (r.mergeMarks cs psn ws).wf = true := by
  induction ws generalizing r with
  | nil => exact h
  | cons w t ih => exact ih (Ram.wf_setMark _ _ h)

theorem Ram.wf_storeCells {r : Ram} (cs : List Host.Cell) (psn : List Nat) (h : r.wf = true) : (r.storeCells cs psn).wf = true :=
  Ram.wf_mergeMarks _ _ _ (Ram.wf_setBytes _ h)

theorem Ram.wf_withBanks {r : Ram} (b : Banks) (level rows : Nat) (h : r.wf = true) : (r.withBanks b level rows).wf = true := by
  unfold Ram.withBanks
  generalize b.badWords level rows = l
  induction l generalizing r with
  | nil => exact h
  | cons o t ih => exact ih (Ram.wf_setMark _ _ h)

/-- A map of the values that gives no default value keeps the canonical form. -/
theorem Store.wf_map {α : Type} [DecidableEq α] {d : α} (f : α → α) (hf : ∀ v, v ≠ d → f v ≠ d) {m : Store α} (h : Store.wf d m = true) :
    Store.wf d (m.map fun kv => (kv.1, f kv.2)) = true := by
  induction m with
  | nil => rfl
  | cons p t ih =>
    obtain ⟨k, v⟩ := p
    rw [List.map_cons, Store.wf_cons]
    obtain ⟨a, b, c⟩ := (Store.wf_cons d k v t).mp h
    refine ⟨hf _ a, ih b, fun q hq => ?_⟩
    obtain ⟨x, hx, rfl⟩ := List.mem_map.mp hq
    exact c x hx

/-- A memory that forgets the errors of granules never written keeps it (R342). -/
theorem Ram.wf_written {r : Ram} (gs : List Nat) (base : Int) (h : r.wf = true) : (r.written gs base).wf = true := by
  rw [Ram.wf_iff] at *
  exact ⟨h.1, Store.wf_filter _ _ h.2⟩

/-- So does host memory without what was not written back (R402). -/
theorem State.wf_hostLeft {s : State} (h : s.host.wf = true) : s.hostLeft.wf = true := by
  unfold State.hostLeft
  generalize s.host = r at h
  generalize s.hostOld = l
  induction l generalizing r with
  | nil => exact h
  | cons o t ih => exact ih _ (Ram.wf_store _ _ _ h)

theorem Ram.wf_restored {r : Ram} (h : r.wf = true) : r.restored.wf = true := by
  rw [Ram.wf_iff] at *
  refine ⟨h.1, Store.wf_map (fun m : Mark => if m == .bad then .poisoned 0xFF else m) (fun v hv => ?_) h.2⟩
  by_cases e : v = .bad <;> simp [e, hv]

end Sys2Proof.Machine
end

