-- ==== Sys2Proof/Laws/State.lean ====
section
/-!
SUPPORT. What each named update of the state leaves alone: one lemma a field, by `rfl`.
-/

namespace Sys2Proof.Machine.State

/-! ### `setCore` -/

@[simp] theorem setCore_cycle (s : State) (c : Nat) (k : Core) : (s.setCore c k).cycle = s.cycle := rfl
@[simp] theorem setCore_tick (s : State) (c : Nat) (k : Core) : (s.setCore c k).tick = s.tick := rfl
@[simp] theorem setCore_tickFrac (s : State) (c : Nat) (k : Core) : (s.setCore c k).tickFrac = s.tickFrac := rfl
@[simp] theorem setCore_islPhase (s : State) (c : Nat) (k : Core) : (s.setCore c k).islPhase = s.islPhase := rfl
@[simp] theorem setCore_agenda (s : State) (c : Nat) (k : Core) : (s.setCore c k).agenda = s.agenda := rfl
@[simp] theorem setCore_inputs (s : State) (c : Nat) (k : Core) : (s.setCore c k).inputs = s.inputs := rfl
@[simp] theorem setCore_openSince (s : State) (c : Nat) (k : Core) : (s.setCore c k).openSince = s.openSince := rfl
@[simp] theorem setCore_core (s : State) (c : Nat) (k : Core) : (s.setCore c k).core = s.core := rfl
@[simp] theorem setCore_issue (s : State) (c : Nat) (k : Core) : (s.setCore c k).issue = s.issue := rfl
@[simp] theorem setCore_freeCount (s : State) (c : Nat) (k : Core) : (s.setCore c k).freeCount = s.freeCount := rfl
@[simp] theorem setCore_oracle (s : State) (c : Nat) (k : Core) : (s.setCore c k).oracle = s.oracle := rfl
@[simp] theorem setCore_out (s : State) (c : Nat) (k : Core) : (s.setCore c k).out = s.out := rfl
@[simp] theorem setCore_clusters (s : State) (c : Nat) (k : Core) : (s.setCore c k).clusters = s.clusters := rfl
@[simp] theorem setCore_stamps (s : State) (c : Nat) (k : Core) : (s.setCore c k).stamps = s.stamps := rfl
@[simp] theorem setCore_nextStamp (s : State) (c : Nat) (k : Core) : (s.setCore c k).nextStamp = s.nextStamp := rfl
@[simp] theorem setCore_hbm (s : State) (c : Nat) (k : Core) : (s.setCore c k).hbm = s.hbm := rfl
@[simp] theorem setCore_lost (s : State) (c : Nat) (k : Core) : (s.setCore c k).lost = s.lost := rfl
@[simp] theorem setCore_cp (s : State) (c : Nat) (k : Core) : (s.setCore c k).cp = s.cp := rfl
@[simp] theorem setCore_cpBanks (s : State) (c : Nat) (k : Core) : (s.setCore c k).cpBanks = s.cpBanks := rfl
@[simp] theorem setCore_slicesOff (s : State) (c : Nat) (k : Core) : (s.setCore c k).slicesOff = s.slicesOff := rfl
@[simp] theorem setCore_evicting (s : State) (c : Nat) (k : Core) : (s.setCore c k).evicting = s.evicting := rfl
@[simp] theorem setCore_bankUse (s : State) (c : Nat) (k : Core) : (s.setCore c k).bankUse = s.bankUse := rfl
@[simp] theorem setCore_way (s : State) (c : Nat) (k : Core) : (s.setCore c k).way = s.way := rfl
@[simp] theorem setCore_host (s : State) (c : Nat) (k : Core) : (s.setCore c k).host = s.host := rfl
@[simp] theorem setCore_saiga (s : State) (c : Nat) (k : Core) : (s.setCore c k).saiga = s.saiga := rfl
@[simp] theorem setCore_l2 (s : State) (c : Nat) (k : Core) : (s.setCore c k).l2 = s.l2 := rfl
@[simp] theorem setCore_pageClass (s : State) (c : Nat) (k : Core) : (s.setCore c k).pageClass = s.pageClass := rfl
@[simp] theorem setCore_classified (s : State) (c : Nat) (k : Core) : (s.setCore c k).classified = s.classified := rfl
@[simp] theorem setCore_lines (s : State) (c : Nat) (k : Core) : (s.setCore c k).lines = s.lines := rfl
@[simp] theorem setCore_halves (s : State) (c : Nat) (k : Core) : (s.setCore c k).halves = s.halves := rfl
@[simp] theorem setCore_cxl (s : State) (c : Nat) (k : Core) : (s.setCore c k).cxl = s.cxl := rfl
@[simp] theorem setCore_parts (s : State) (c : Nat) (k : Core) : (s.setCore c k).parts = s.parts := rfl
@[simp] theorem setCore_tasks (s : State) (c : Nat) (k : Core) : (s.setCore c k).tasks = s.tasks := rfl
@[simp] theorem setCore_nextTask (s : State) (c : Nat) (k : Core) : (s.setCore c k).nextTask = s.nextTask := rfl
@[simp] theorem setCore_signalsHere (s : State) (c : Nat) (k : Core) : (s.setCore c k).signalsHere = s.signalsHere := rfl
@[simp] theorem setCore_slotTab (s : State) (c : Nat) (k : Core) : (s.setCore c k).slotTab = s.slotTab := rfl
@[simp] theorem setCore_subreg (s : State) (c : Nat) (k : Core) : (s.setCore c k).subreg = s.subreg := rfl
@[simp] theorem setCore_launching (s : State) (c : Nat) (k : Core) : (s.setCore c k).launching = s.launching := rfl
@[simp] theorem setCore_substat (s : State) (c : Nat) (k : Core) : (s.setCore c k).substat = s.substat := rfl
@[simp] theorem setCore_evcfg (s : State) (c : Nat) (k : Core) : (s.setCore c k).evcfg = s.evcfg := rfl
@[simp] theorem setCore_evhead (s : State) (c : Nat) (k : Core) : (s.setCore c k).evhead = s.evhead := rfl
@[simp] theorem setCore_evtail (s : State) (c : Nat) (k : Core) : (s.setCore c k).evtail = s.evtail := rfl
@[simp] theorem setCore_evseq (s : State) (c : Nat) (k : Core) : (s.setCore c k).evseq = s.evseq := rfl
@[simp] theorem setCore_sgstat (s : State) (c : Nat) (k : Core) : (s.setCore c k).sgstat = s.sgstat := rfl
@[simp] theorem setCore_harts (s : State) (c : Nat) (k : Core) : (s.setCore c k).harts = s.harts := rfl
@[simp] theorem setCore_pair (s : State) (c : Nat) (k : Core) : (s.setCore c k).pair = s.pair := rfl
@[simp] theorem setCore_failingOver (s : State) (c : Nat) (k : Core) : (s.setCore c k).failingOver = s.failingOver := rfl
@[simp] theorem setCore_failFrom (s : State) (c : Nat) (k : Core) : (s.setCore c k).failFrom = s.failFrom := rfl
@[simp] theorem setCore_failedHart (s : State) (c : Nat) (k : Core) : (s.setCore c k).failedHart = s.failedHart := rfl
@[simp] theorem setCore_saigaOut (s : State) (c : Nat) (k : Core) : (s.setCore c k).saigaOut = s.saigaOut := rfl
@[simp] theorem setCore_pending (s : State) (c : Nat) (k : Core) : (s.setCore c k).pending = s.pending := rfl
@[simp] theorem setCore_prqcfg (s : State) (c : Nat) (k : Core) : (s.setCore c k).prqcfg = s.prqcfg := rfl
@[simp] theorem setCore_prqhead (s : State) (c : Nat) (k : Core) : (s.setCore c k).prqhead = s.prqhead := rfl
@[simp] theorem setCore_prqtail (s : State) (c : Nat) (k : Core) : (s.setCore c k).prqtail = s.prqtail := rfl
@[simp] theorem setCore_pageReqs (s : State) (c : Nat) (k : Core) : (s.setCore c k).pageReqs = s.pageReqs := rfl
@[simp] theorem setCore_nextReq (s : State) (c : Nat) (k : Core) : (s.setCore c k).nextReq = s.nextReq := rfl
@[simp] theorem setCore_tlbinv (s : State) (c : Nat) (k : Core) : (s.setCore c k).tlbinv = s.tlbinv := rfl
@[simp] theorem setCore_tlbinvsz (s : State) (c : Nat) (k : Core) : (s.setCore c k).tlbinvsz = s.tlbinvsz := rfl
@[simp] theorem setCore_pidx (s : State) (c : Nat) (k : Core) : (s.setCore c k).pidx = s.pidx := rfl
@[simp] theorem setCore_alidx (s : State) (c : Nat) (k : Core) : (s.setCore c k).alidx = s.alidx := rfl
@[simp] theorem setCore_patidx (s : State) (c : Nat) (k : Core) : (s.setCore c k).patidx = s.patidx := rfl
@[simp] theorem setCore_blkidx (s : State) (c : Nat) (k : Core) : (s.setCore c k).blkidx = s.blkidx := rfl
@[simp] theorem setCore_occsel (s : State) (c : Nat) (k : Core) : (s.setCore c k).occsel = s.occsel := rfl
@[simp] theorem setCore_lchidx (s : State) (c : Nat) (k : Core) : (s.setCore c k).lchidx = s.lchidx := rfl
@[simp] theorem setCore_pwidx (s : State) (c : Nat) (k : Core) : (s.setCore c k).pwidx = s.pwidx := rfl
@[simp] theorem setCore_islidx (s : State) (c : Nat) (k : Core) : (s.setCore c k).islidx = s.islidx := rfl
@[simp] theorem setCore_pat (s : State) (c : Nat) (k : Core) : (s.setCore c k).pat = s.pat := rfl
@[simp] theorem setCore_blkcls (s : State) (c : Nat) (k : Core) : (s.setCore c k).blkcls = s.blkcls := rfl
@[simp] theorem setCore_mr (s : State) (c : Nat) (k : Core) : (s.setCore c k).mr = s.mr := rfl
@[simp] theorem setCore_mrext (s : State) (c : Nat) (k : Core) : (s.setCore c k).mrext = s.mrext := rfl
@[simp] theorem setCore_audw (s : State) (c : Nat) (k : Core) : (s.setCore c k).audw = s.audw := rfl
@[simp] theorem setCore_audit (s : State) (c : Nat) (k : Core) : (s.setCore c k).audit = s.audit := rfl
@[simp] theorem setCore_chain (s : State) (c : Nat) (k : Core) : (s.setCore c k).chain = s.chain := rfl
@[simp] theorem setCore_lastAudit (s : State) (c : Nat) (k : Core) : (s.setCore c k).lastAudit = s.lastAudit := rfl
@[simp] theorem setCore_sinceCkpt (s : State) (c : Nat) (k : Core) : (s.setCore c k).sinceCkpt = s.sinceCkpt := rfl
@[simp] theorem setCore_ckpt (s : State) (c : Nat) (k : Core) : (s.setCore c k).ckpt = s.ckpt := rfl
@[simp] theorem setCore_spdmSession (s : State) (c : Nat) (k : Core) : (s.setCore c k).spdmSession = s.spdmSession := rfl
@[simp] theorem setCore_transcript (s : State) (c : Nat) (k : Core) : (s.setCore c k).transcript = s.transcript := rfl
@[simp] theorem setCore_ideKeys (s : State) (c : Nat) (k : Core) : (s.setCore c k).ideKeys = s.ideKeys := rfl
@[simp] theorem setCore_delivered (s : State) (c : Nat) (k : Core) : (s.setCore c k).delivered = s.delivered := rfl
@[simp] theorem setCore_derived (s : State) (c : Nat) (k : Core) : (s.setCore c k).derived = s.derived := rfl
@[simp] theorem setCore_nextRegion (s : State) (c : Nat) (k : Core) : (s.setCore c k).nextRegion = s.nextRegion := rfl
@[simp] theorem setCore_held (s : State) (c : Nat) (k : Core) : (s.setCore c k).held = s.held := rfl
@[simp] theorem setCore_pkgNo (s : State) (c : Nat) (k : Core) : (s.setCore c k).pkgNo = s.pkgNo := rfl
@[simp] theorem setCore_lchan (s : State) (c : Nat) (k : Core) : (s.setCore c k).lchan = s.lchan := rfl
@[simp] theorem setCore_lchoff (s : State) (c : Nat) (k : Core) : (s.setCore c k).lchoff = s.lchoff := rfl
@[simp] theorem setCore_lchRet (s : State) (c : Nat) (k : Core) : (s.setCore c k).lchRet = s.lchRet := rfl
@[simp] theorem setCore_deadLanes (s : State) (c : Nat) (k : Core) : (s.setCore c k).deadLanes = s.deadLanes := rfl
@[simp] theorem setCore_posted (s : State) (c : Nat) (k : Core) : (s.setCore c k).posted = s.posted := rfl
@[simp] theorem setCore_replicas (s : State) (c : Nat) (k : Core) : (s.setCore c k).replicas = s.replicas := rfl
@[simp] theorem setCore_nextSeq (s : State) (c : Nat) (k : Core) : (s.setCore c k).nextSeq = s.nextSeq := rfl
@[simp] theorem setCore_rpSent (s : State) (c : Nat) (k : Core) : (s.setCore c k).rpSent = s.rpSent := rfl
@[simp] theorem setCore_rpNext (s : State) (c : Nat) (k : Core) : (s.setCore c k).rpNext = s.rpNext := rfl
@[simp] theorem setCore_rpWait (s : State) (c : Nat) (k : Core) : (s.setCore c k).rpWait = s.rpWait := rfl
@[simp] theorem setCore_rpHome (s : State) (c : Nat) (k : Core) : (s.setCore c k).rpHome = s.rpHome := rfl
@[simp] theorem setCore_rpHolders (s : State) (c : Nat) (k : Core) : (s.setCore c k).rpHolders = s.rpHolders := rfl
@[simp] theorem setCore_bootst (s : State) (c : Nat) (k : Core) : (s.setCore c k).bootst = s.bootst := rfl
@[simp] theorem setCore_pwrgd (s : State) (c : Nat) (k : Core) : (s.setCore c k).pwrgd = s.pwrgd := rfl
@[simp] theorem setCore_thermtrip (s : State) (c : Nat) (k : Core) : (s.setCore c k).thermtrip = s.thermtrip := rfl
@[simp] theorem setCore_tripped (s : State) (c : Nat) (k : Core) : (s.setCore c k).tripped = s.tripped := rfl
@[simp] theorem setCore_alert (s : State) (c : Nat) (k : Core) : (s.setCore c k).alert = s.alert := rfl
@[simp] theorem setCore_hostDead (s : State) (c : Nat) (k : Core) : (s.setCore c k).hostDead = s.hostDead := rfl
@[simp] theorem setCore_hostOld (s : State) (c : Nat) (k : Core) : (s.setCore c k).hostOld = s.hostOld := rfl
@[simp] theorem setCore_resetFrom (s : State) (c : Nat) (k : Core) : (s.setCore c k).resetFrom = s.resetFrom := rfl
@[simp] theorem setCore_gating (s : State) (c : Nat) (k : Core) : (s.setCore c k).gating = s.gating := rfl
@[simp] theorem setCore_islctl (s : State) (c : Nat) (k : Core) : (s.setCore c k).islctl = s.islctl := rfl
@[simp] theorem setCore_throttled (s : State) (c : Nat) (k : Core) : (s.setCore c k).throttled = s.throttled := rfl
@[simp] theorem setCore_powerLow (s : State) (c : Nat) (k : Core) : (s.setCore c k).powerLow = s.powerLow := rfl
@[simp] theorem setCore_pwrlim (s : State) (c : Nat) (k : Core) : (s.setCore c k).pwrlim = s.pwrlim := rfl
@[simp] theorem setCore_pkgctl (s : State) (c : Nat) (k : Core) : (s.setCore c k).pkgctl = s.pkgctl := rfl
@[simp] theorem setCore_exiting (s : State) (c : Nat) (k : Core) : (s.setCore c k).exiting = s.exiting := rfl

/-! ### `modCore` -/

@[simp] theorem modCore_cycle (s : State) (c : Nat) (f : Core → Core) : (s.modCore c f).cycle = s.cycle := rfl
@[simp] theorem modCore_tick (s : State) (c : Nat) (f : Core → Core) : (s.modCore c f).tick = s.tick := rfl
@[simp] theorem modCore_tickFrac (s : State) (c : Nat) (f : Core → Core) : (s.modCore c f).tickFrac = s.tickFrac := rfl
@[simp] theorem modCore_islPhase (s : State) (c : Nat) (f : Core → Core) : (s.modCore c f).islPhase = s.islPhase := rfl
@[simp] theorem modCore_agenda (s : State) (c : Nat) (f : Core → Core) : (s.modCore c f).agenda = s.agenda := rfl
@[simp] theorem modCore_inputs (s : State) (c : Nat) (f : Core → Core) : (s.modCore c f).inputs = s.inputs := rfl
@[simp] theorem modCore_openSince (s : State) (c : Nat) (f : Core → Core) : (s.modCore c f).openSince = s.openSince := rfl
@[simp] theorem modCore_core (s : State) (c : Nat) (f : Core → Core) : (s.modCore c f).core = s.core := rfl
@[simp] theorem modCore_issue (s : State) (c : Nat) (f : Core → Core) : (s.modCore c f).issue = s.issue := rfl
@[simp] theorem modCore_freeCount (s : State) (c : Nat) (f : Core → Core) : (s.modCore c f).freeCount = s.freeCount := rfl
@[simp] theorem modCore_oracle (s : State) (c : Nat) (f : Core → Core) : (s.modCore c f).oracle = s.oracle := rfl
@[simp] theorem modCore_out (s : State) (c : Nat) (f : Core → Core) : (s.modCore c f).out = s.out := rfl
@[simp] theorem modCore_clusters (s : State) (c : Nat) (f : Core → Core) : (s.modCore c f).clusters = s.clusters := rfl
@[simp] theorem modCore_stamps (s : State) (c : Nat) (f : Core → Core) : (s.modCore c f).stamps = s.stamps := rfl
@[simp] theorem modCore_nextStamp (s : State) (c : Nat) (f : Core → Core) : (s.modCore c f).nextStamp = s.nextStamp := rfl
@[simp] theorem modCore_hbm (s : State) (c : Nat) (f : Core → Core) : (s.modCore c f).hbm = s.hbm := rfl
@[simp] theorem modCore_lost (s : State) (c : Nat) (f : Core → Core) : (s.modCore c f).lost = s.lost := rfl
@[simp] theorem modCore_cp (s : State) (c : Nat) (f : Core → Core) : (s.modCore c f).cp = s.cp := rfl
@[simp] theorem modCore_cpBanks (s : State) (c : Nat) (f : Core → Core) : (s.modCore c f).cpBanks = s.cpBanks := rfl
@[simp] theorem modCore_slicesOff (s : State) (c : Nat) (f : Core → Core) : (s.modCore c f).slicesOff = s.slicesOff := rfl
@[simp] theorem modCore_evicting (s : State) (c : Nat) (f : Core → Core) : (s.modCore c f).evicting = s.evicting := rfl
@[simp] theorem modCore_bankUse (s : State) (c : Nat) (f : Core → Core) : (s.modCore c f).bankUse = s.bankUse := rfl
@[simp] theorem modCore_way (s : State) (c : Nat) (f : Core → Core) : (s.modCore c f).way = s.way := rfl
@[simp] theorem modCore_host (s : State) (c : Nat) (f : Core → Core) : (s.modCore c f).host = s.host := rfl
@[simp] theorem modCore_saiga (s : State) (c : Nat) (f : Core → Core) : (s.modCore c f).saiga = s.saiga := rfl
@[simp] theorem modCore_l2 (s : State) (c : Nat) (f : Core → Core) : (s.modCore c f).l2 = s.l2 := rfl
@[simp] theorem modCore_pageClass (s : State) (c : Nat) (f : Core → Core) : (s.modCore c f).pageClass = s.pageClass := rfl
@[simp] theorem modCore_classified (s : State) (c : Nat) (f : Core → Core) : (s.modCore c f).classified = s.classified := rfl
@[simp] theorem modCore_lines (s : State) (c : Nat) (f : Core → Core) : (s.modCore c f).lines = s.lines := rfl
@[simp] theorem modCore_halves (s : State) (c : Nat) (f : Core → Core) : (s.modCore c f).halves = s.halves := rfl
@[simp] theorem modCore_cxl (s : State) (c : Nat) (f : Core → Core) : (s.modCore c f).cxl = s.cxl := rfl
@[simp] theorem modCore_parts (s : State) (c : Nat) (f : Core → Core) : (s.modCore c f).parts = s.parts := rfl
@[simp] theorem modCore_tasks (s : State) (c : Nat) (f : Core → Core) : (s.modCore c f).tasks = s.tasks := rfl
@[simp] theorem modCore_nextTask (s : State) (c : Nat) (f : Core → Core) : (s.modCore c f).nextTask = s.nextTask := rfl
@[simp] theorem modCore_signalsHere (s : State) (c : Nat) (f : Core → Core) : (s.modCore c f).signalsHere = s.signalsHere := rfl
@[simp] theorem modCore_slotTab (s : State) (c : Nat) (f : Core → Core) : (s.modCore c f).slotTab = s.slotTab := rfl
@[simp] theorem modCore_subreg (s : State) (c : Nat) (f : Core → Core) : (s.modCore c f).subreg = s.subreg := rfl
@[simp] theorem modCore_launching (s : State) (c : Nat) (f : Core → Core) : (s.modCore c f).launching = s.launching := rfl
@[simp] theorem modCore_substat (s : State) (c : Nat) (f : Core → Core) : (s.modCore c f).substat = s.substat := rfl
@[simp] theorem modCore_evcfg (s : State) (c : Nat) (f : Core → Core) : (s.modCore c f).evcfg = s.evcfg := rfl
@[simp] theorem modCore_evhead (s : State) (c : Nat) (f : Core → Core) : (s.modCore c f).evhead = s.evhead := rfl
@[simp] theorem modCore_evtail (s : State) (c : Nat) (f : Core → Core) : (s.modCore c f).evtail = s.evtail := rfl
@[simp] theorem modCore_evseq (s : State) (c : Nat) (f : Core → Core) : (s.modCore c f).evseq = s.evseq := rfl
@[simp] theorem modCore_sgstat (s : State) (c : Nat) (f : Core → Core) : (s.modCore c f).sgstat = s.sgstat := rfl
@[simp] theorem modCore_harts (s : State) (c : Nat) (f : Core → Core) : (s.modCore c f).harts = s.harts := rfl
@[simp] theorem modCore_pair (s : State) (c : Nat) (f : Core → Core) : (s.modCore c f).pair = s.pair := rfl
@[simp] theorem modCore_failingOver (s : State) (c : Nat) (f : Core → Core) : (s.modCore c f).failingOver = s.failingOver := rfl
@[simp] theorem modCore_failFrom (s : State) (c : Nat) (f : Core → Core) : (s.modCore c f).failFrom = s.failFrom := rfl
@[simp] theorem modCore_failedHart (s : State) (c : Nat) (f : Core → Core) : (s.modCore c f).failedHart = s.failedHart := rfl
@[simp] theorem modCore_saigaOut (s : State) (c : Nat) (f : Core → Core) : (s.modCore c f).saigaOut = s.saigaOut := rfl
@[simp] theorem modCore_pending (s : State) (c : Nat) (f : Core → Core) : (s.modCore c f).pending = s.pending := rfl
@[simp] theorem modCore_prqcfg (s : State) (c : Nat) (f : Core → Core) : (s.modCore c f).prqcfg = s.prqcfg := rfl
@[simp] theorem modCore_prqhead (s : State) (c : Nat) (f : Core → Core) : (s.modCore c f).prqhead = s.prqhead := rfl
@[simp] theorem modCore_prqtail (s : State) (c : Nat) (f : Core → Core) : (s.modCore c f).prqtail = s.prqtail := rfl
@[simp] theorem modCore_pageReqs (s : State) (c : Nat) (f : Core → Core) : (s.modCore c f).pageReqs = s.pageReqs := rfl
@[simp] theorem modCore_nextReq (s : State) (c : Nat) (f : Core → Core) : (s.modCore c f).nextReq = s.nextReq := rfl
@[simp] theorem modCore_tlbinv (s : State) (c : Nat) (f : Core → Core) : (s.modCore c f).tlbinv = s.tlbinv := rfl
@[simp] theorem modCore_tlbinvsz (s : State) (c : Nat) (f : Core → Core) : (s.modCore c f).tlbinvsz = s.tlbinvsz := rfl
@[simp] theorem modCore_pidx (s : State) (c : Nat) (f : Core → Core) : (s.modCore c f).pidx = s.pidx := rfl
@[simp] theorem modCore_alidx (s : State) (c : Nat) (f : Core → Core) : (s.modCore c f).alidx = s.alidx := rfl
@[simp] theorem modCore_patidx (s : State) (c : Nat) (f : Core → Core) : (s.modCore c f).patidx = s.patidx := rfl
@[simp] theorem modCore_blkidx (s : State) (c : Nat) (f : Core → Core) : (s.modCore c f).blkidx = s.blkidx := rfl
@[simp] theorem modCore_occsel (s : State) (c : Nat) (f : Core → Core) : (s.modCore c f).occsel = s.occsel := rfl
@[simp] theorem modCore_lchidx (s : State) (c : Nat) (f : Core → Core) : (s.modCore c f).lchidx = s.lchidx := rfl
@[simp] theorem modCore_pwidx (s : State) (c : Nat) (f : Core → Core) : (s.modCore c f).pwidx = s.pwidx := rfl
@[simp] theorem modCore_islidx (s : State) (c : Nat) (f : Core → Core) : (s.modCore c f).islidx = s.islidx := rfl
@[simp] theorem modCore_pat (s : State) (c : Nat) (f : Core → Core) : (s.modCore c f).pat = s.pat := rfl
@[simp] theorem modCore_blkcls (s : State) (c : Nat) (f : Core → Core) : (s.modCore c f).blkcls = s.blkcls := rfl
@[simp] theorem modCore_mr (s : State) (c : Nat) (f : Core → Core) : (s.modCore c f).mr = s.mr := rfl
@[simp] theorem modCore_mrext (s : State) (c : Nat) (f : Core → Core) : (s.modCore c f).mrext = s.mrext := rfl
@[simp] theorem modCore_audw (s : State) (c : Nat) (f : Core → Core) : (s.modCore c f).audw = s.audw := rfl
@[simp] theorem modCore_audit (s : State) (c : Nat) (f : Core → Core) : (s.modCore c f).audit = s.audit := rfl
@[simp] theorem modCore_chain (s : State) (c : Nat) (f : Core → Core) : (s.modCore c f).chain = s.chain := rfl
@[simp] theorem modCore_lastAudit (s : State) (c : Nat) (f : Core → Core) : (s.modCore c f).lastAudit = s.lastAudit := rfl
@[simp] theorem modCore_sinceCkpt (s : State) (c : Nat) (f : Core → Core) : (s.modCore c f).sinceCkpt = s.sinceCkpt := rfl
@[simp] theorem modCore_ckpt (s : State) (c : Nat) (f : Core → Core) : (s.modCore c f).ckpt = s.ckpt := rfl
@[simp] theorem modCore_spdmSession (s : State) (c : Nat) (f : Core → Core) : (s.modCore c f).spdmSession = s.spdmSession := rfl
@[simp] theorem modCore_transcript (s : State) (c : Nat) (f : Core → Core) : (s.modCore c f).transcript = s.transcript := rfl
@[simp] theorem modCore_ideKeys (s : State) (c : Nat) (f : Core → Core) : (s.modCore c f).ideKeys = s.ideKeys := rfl
@[simp] theorem modCore_delivered (s : State) (c : Nat) (f : Core → Core) : (s.modCore c f).delivered = s.delivered := rfl
@[simp] theorem modCore_derived (s : State) (c : Nat) (f : Core → Core) : (s.modCore c f).derived = s.derived := rfl
@[simp] theorem modCore_nextRegion (s : State) (c : Nat) (f : Core → Core) : (s.modCore c f).nextRegion = s.nextRegion := rfl
@[simp] theorem modCore_held (s : State) (c : Nat) (f : Core → Core) : (s.modCore c f).held = s.held := rfl
@[simp] theorem modCore_pkgNo (s : State) (c : Nat) (f : Core → Core) : (s.modCore c f).pkgNo = s.pkgNo := rfl
@[simp] theorem modCore_lchan (s : State) (c : Nat) (f : Core → Core) : (s.modCore c f).lchan = s.lchan := rfl
@[simp] theorem modCore_lchoff (s : State) (c : Nat) (f : Core → Core) : (s.modCore c f).lchoff = s.lchoff := rfl
@[simp] theorem modCore_lchRet (s : State) (c : Nat) (f : Core → Core) : (s.modCore c f).lchRet = s.lchRet := rfl
@[simp] theorem modCore_deadLanes (s : State) (c : Nat) (f : Core → Core) : (s.modCore c f).deadLanes = s.deadLanes := rfl
@[simp] theorem modCore_posted (s : State) (c : Nat) (f : Core → Core) : (s.modCore c f).posted = s.posted := rfl
@[simp] theorem modCore_replicas (s : State) (c : Nat) (f : Core → Core) : (s.modCore c f).replicas = s.replicas := rfl
@[simp] theorem modCore_nextSeq (s : State) (c : Nat) (f : Core → Core) : (s.modCore c f).nextSeq = s.nextSeq := rfl
@[simp] theorem modCore_rpSent (s : State) (c : Nat) (f : Core → Core) : (s.modCore c f).rpSent = s.rpSent := rfl
@[simp] theorem modCore_rpNext (s : State) (c : Nat) (f : Core → Core) : (s.modCore c f).rpNext = s.rpNext := rfl
@[simp] theorem modCore_rpWait (s : State) (c : Nat) (f : Core → Core) : (s.modCore c f).rpWait = s.rpWait := rfl
@[simp] theorem modCore_rpHome (s : State) (c : Nat) (f : Core → Core) : (s.modCore c f).rpHome = s.rpHome := rfl
@[simp] theorem modCore_rpHolders (s : State) (c : Nat) (f : Core → Core) : (s.modCore c f).rpHolders = s.rpHolders := rfl
@[simp] theorem modCore_bootst (s : State) (c : Nat) (f : Core → Core) : (s.modCore c f).bootst = s.bootst := rfl
@[simp] theorem modCore_pwrgd (s : State) (c : Nat) (f : Core → Core) : (s.modCore c f).pwrgd = s.pwrgd := rfl
@[simp] theorem modCore_thermtrip (s : State) (c : Nat) (f : Core → Core) : (s.modCore c f).thermtrip = s.thermtrip := rfl
@[simp] theorem modCore_tripped (s : State) (c : Nat) (f : Core → Core) : (s.modCore c f).tripped = s.tripped := rfl
@[simp] theorem modCore_alert (s : State) (c : Nat) (f : Core → Core) : (s.modCore c f).alert = s.alert := rfl
@[simp] theorem modCore_hostDead (s : State) (c : Nat) (f : Core → Core) : (s.modCore c f).hostDead = s.hostDead := rfl
@[simp] theorem modCore_hostOld (s : State) (c : Nat) (f : Core → Core) : (s.modCore c f).hostOld = s.hostOld := rfl
@[simp] theorem modCore_resetFrom (s : State) (c : Nat) (f : Core → Core) : (s.modCore c f).resetFrom = s.resetFrom := rfl
@[simp] theorem modCore_gating (s : State) (c : Nat) (f : Core → Core) : (s.modCore c f).gating = s.gating := rfl
@[simp] theorem modCore_islctl (s : State) (c : Nat) (f : Core → Core) : (s.modCore c f).islctl = s.islctl := rfl
@[simp] theorem modCore_throttled (s : State) (c : Nat) (f : Core → Core) : (s.modCore c f).throttled = s.throttled := rfl
@[simp] theorem modCore_powerLow (s : State) (c : Nat) (f : Core → Core) : (s.modCore c f).powerLow = s.powerLow := rfl
@[simp] theorem modCore_pwrlim (s : State) (c : Nat) (f : Core → Core) : (s.modCore c f).pwrlim = s.pwrlim := rfl
@[simp] theorem modCore_pkgctl (s : State) (c : Nat) (f : Core → Core) : (s.modCore c f).pkgctl = s.pkgctl := rfl
@[simp] theorem modCore_exiting (s : State) (c : Nat) (f : Core → Core) : (s.modCore c f).exiting = s.exiting := rfl

/-! ### `modCur` -/

@[simp] theorem modCur_cycle (s : State) (f : Core → Core) : (s.modCur f).cycle = s.cycle := rfl
@[simp] theorem modCur_tick (s : State) (f : Core → Core) : (s.modCur f).tick = s.tick := rfl
@[simp] theorem modCur_tickFrac (s : State) (f : Core → Core) : (s.modCur f).tickFrac = s.tickFrac := rfl
@[simp] theorem modCur_islPhase (s : State) (f : Core → Core) : (s.modCur f).islPhase = s.islPhase := rfl
@[simp] theorem modCur_agenda (s : State) (f : Core → Core) : (s.modCur f).agenda = s.agenda := rfl
@[simp] theorem modCur_inputs (s : State) (f : Core → Core) : (s.modCur f).inputs = s.inputs := rfl
@[simp] theorem modCur_openSince (s : State) (f : Core → Core) : (s.modCur f).openSince = s.openSince := rfl
@[simp] theorem modCur_core (s : State) (f : Core → Core) : (s.modCur f).core = s.core := rfl
@[simp] theorem modCur_issue (s : State) (f : Core → Core) : (s.modCur f).issue = s.issue := rfl
@[simp] theorem modCur_freeCount (s : State) (f : Core → Core) : (s.modCur f).freeCount = s.freeCount := rfl
@[simp] theorem modCur_oracle (s : State) (f : Core → Core) : (s.modCur f).oracle = s.oracle := rfl
@[simp] theorem modCur_out (s : State) (f : Core → Core) : (s.modCur f).out = s.out := rfl
@[simp] theorem modCur_clusters (s : State) (f : Core → Core) : (s.modCur f).clusters = s.clusters := rfl
@[simp] theorem modCur_stamps (s : State) (f : Core → Core) : (s.modCur f).stamps = s.stamps := rfl
@[simp] theorem modCur_nextStamp (s : State) (f : Core → Core) : (s.modCur f).nextStamp = s.nextStamp := rfl
@[simp] theorem modCur_hbm (s : State) (f : Core → Core) : (s.modCur f).hbm = s.hbm := rfl
@[simp] theorem modCur_lost (s : State) (f : Core → Core) : (s.modCur f).lost = s.lost := rfl
@[simp] theorem modCur_cp (s : State) (f : Core → Core) : (s.modCur f).cp = s.cp := rfl
@[simp] theorem modCur_cpBanks (s : State) (f : Core → Core) : (s.modCur f).cpBanks = s.cpBanks := rfl
@[simp] theorem modCur_slicesOff (s : State) (f : Core → Core) : (s.modCur f).slicesOff = s.slicesOff := rfl
@[simp] theorem modCur_evicting (s : State) (f : Core → Core) : (s.modCur f).evicting = s.evicting := rfl
@[simp] theorem modCur_bankUse (s : State) (f : Core → Core) : (s.modCur f).bankUse = s.bankUse := rfl
@[simp] theorem modCur_way (s : State) (f : Core → Core) : (s.modCur f).way = s.way := rfl
@[simp] theorem modCur_host (s : State) (f : Core → Core) : (s.modCur f).host = s.host := rfl
@[simp] theorem modCur_saiga (s : State) (f : Core → Core) : (s.modCur f).saiga = s.saiga := rfl
@[simp] theorem modCur_l2 (s : State) (f : Core → Core) : (s.modCur f).l2 = s.l2 := rfl
@[simp] theorem modCur_pageClass (s : State) (f : Core → Core) : (s.modCur f).pageClass = s.pageClass := rfl
@[simp] theorem modCur_classified (s : State) (f : Core → Core) : (s.modCur f).classified = s.classified := rfl
@[simp] theorem modCur_lines (s : State) (f : Core → Core) : (s.modCur f).lines = s.lines := rfl
@[simp] theorem modCur_halves (s : State) (f : Core → Core) : (s.modCur f).halves = s.halves := rfl
@[simp] theorem modCur_cxl (s : State) (f : Core → Core) : (s.modCur f).cxl = s.cxl := rfl
@[simp] theorem modCur_parts (s : State) (f : Core → Core) : (s.modCur f).parts = s.parts := rfl
@[simp] theorem modCur_tasks (s : State) (f : Core → Core) : (s.modCur f).tasks = s.tasks := rfl
@[simp] theorem modCur_nextTask (s : State) (f : Core → Core) : (s.modCur f).nextTask = s.nextTask := rfl
@[simp] theorem modCur_signalsHere (s : State) (f : Core → Core) : (s.modCur f).signalsHere = s.signalsHere := rfl
@[simp] theorem modCur_slotTab (s : State) (f : Core → Core) : (s.modCur f).slotTab = s.slotTab := rfl
@[simp] theorem modCur_subreg (s : State) (f : Core → Core) : (s.modCur f).subreg = s.subreg := rfl
@[simp] theorem modCur_launching (s : State) (f : Core → Core) : (s.modCur f).launching = s.launching := rfl
@[simp] theorem modCur_substat (s : State) (f : Core → Core) : (s.modCur f).substat = s.substat := rfl
@[simp] theorem modCur_evcfg (s : State) (f : Core → Core) : (s.modCur f).evcfg = s.evcfg := rfl
@[simp] theorem modCur_evhead (s : State) (f : Core → Core) : (s.modCur f).evhead = s.evhead := rfl
@[simp] theorem modCur_evtail (s : State) (f : Core → Core) : (s.modCur f).evtail = s.evtail := rfl
@[simp] theorem modCur_evseq (s : State) (f : Core → Core) : (s.modCur f).evseq = s.evseq := rfl
@[simp] theorem modCur_sgstat (s : State) (f : Core → Core) : (s.modCur f).sgstat = s.sgstat := rfl
@[simp] theorem modCur_harts (s : State) (f : Core → Core) : (s.modCur f).harts = s.harts := rfl
@[simp] theorem modCur_pair (s : State) (f : Core → Core) : (s.modCur f).pair = s.pair := rfl
@[simp] theorem modCur_failingOver (s : State) (f : Core → Core) : (s.modCur f).failingOver = s.failingOver := rfl
@[simp] theorem modCur_failFrom (s : State) (f : Core → Core) : (s.modCur f).failFrom = s.failFrom := rfl
@[simp] theorem modCur_failedHart (s : State) (f : Core → Core) : (s.modCur f).failedHart = s.failedHart := rfl
@[simp] theorem modCur_saigaOut (s : State) (f : Core → Core) : (s.modCur f).saigaOut = s.saigaOut := rfl
@[simp] theorem modCur_pending (s : State) (f : Core → Core) : (s.modCur f).pending = s.pending := rfl
@[simp] theorem modCur_prqcfg (s : State) (f : Core → Core) : (s.modCur f).prqcfg = s.prqcfg := rfl
@[simp] theorem modCur_prqhead (s : State) (f : Core → Core) : (s.modCur f).prqhead = s.prqhead := rfl
@[simp] theorem modCur_prqtail (s : State) (f : Core → Core) : (s.modCur f).prqtail = s.prqtail := rfl
@[simp] theorem modCur_pageReqs (s : State) (f : Core → Core) : (s.modCur f).pageReqs = s.pageReqs := rfl
@[simp] theorem modCur_nextReq (s : State) (f : Core → Core) : (s.modCur f).nextReq = s.nextReq := rfl
@[simp] theorem modCur_tlbinv (s : State) (f : Core → Core) : (s.modCur f).tlbinv = s.tlbinv := rfl
@[simp] theorem modCur_tlbinvsz (s : State) (f : Core → Core) : (s.modCur f).tlbinvsz = s.tlbinvsz := rfl
@[simp] theorem modCur_pidx (s : State) (f : Core → Core) : (s.modCur f).pidx = s.pidx := rfl
@[simp] theorem modCur_alidx (s : State) (f : Core → Core) : (s.modCur f).alidx = s.alidx := rfl
@[simp] theorem modCur_patidx (s : State) (f : Core → Core) : (s.modCur f).patidx = s.patidx := rfl
@[simp] theorem modCur_blkidx (s : State) (f : Core → Core) : (s.modCur f).blkidx = s.blkidx := rfl
@[simp] theorem modCur_occsel (s : State) (f : Core → Core) : (s.modCur f).occsel = s.occsel := rfl
@[simp] theorem modCur_lchidx (s : State) (f : Core → Core) : (s.modCur f).lchidx = s.lchidx := rfl
@[simp] theorem modCur_pwidx (s : State) (f : Core → Core) : (s.modCur f).pwidx = s.pwidx := rfl
@[simp] theorem modCur_islidx (s : State) (f : Core → Core) : (s.modCur f).islidx = s.islidx := rfl
@[simp] theorem modCur_pat (s : State) (f : Core → Core) : (s.modCur f).pat = s.pat := rfl
@[simp] theorem modCur_blkcls (s : State) (f : Core → Core) : (s.modCur f).blkcls = s.blkcls := rfl
@[simp] theorem modCur_mr (s : State) (f : Core → Core) : (s.modCur f).mr = s.mr := rfl
@[simp] theorem modCur_mrext (s : State) (f : Core → Core) : (s.modCur f).mrext = s.mrext := rfl
@[simp] theorem modCur_audw (s : State) (f : Core → Core) : (s.modCur f).audw = s.audw := rfl
@[simp] theorem modCur_audit (s : State) (f : Core → Core) : (s.modCur f).audit = s.audit := rfl
@[simp] theorem modCur_chain (s : State) (f : Core → Core) : (s.modCur f).chain = s.chain := rfl
@[simp] theorem modCur_lastAudit (s : State) (f : Core → Core) : (s.modCur f).lastAudit = s.lastAudit := rfl
@[simp] theorem modCur_sinceCkpt (s : State) (f : Core → Core) : (s.modCur f).sinceCkpt = s.sinceCkpt := rfl
@[simp] theorem modCur_ckpt (s : State) (f : Core → Core) : (s.modCur f).ckpt = s.ckpt := rfl
@[simp] theorem modCur_spdmSession (s : State) (f : Core → Core) : (s.modCur f).spdmSession = s.spdmSession := rfl
@[simp] theorem modCur_transcript (s : State) (f : Core → Core) : (s.modCur f).transcript = s.transcript := rfl
@[simp] theorem modCur_ideKeys (s : State) (f : Core → Core) : (s.modCur f).ideKeys = s.ideKeys := rfl
@[simp] theorem modCur_delivered (s : State) (f : Core → Core) : (s.modCur f).delivered = s.delivered := rfl
@[simp] theorem modCur_derived (s : State) (f : Core → Core) : (s.modCur f).derived = s.derived := rfl
@[simp] theorem modCur_nextRegion (s : State) (f : Core → Core) : (s.modCur f).nextRegion = s.nextRegion := rfl
@[simp] theorem modCur_held (s : State) (f : Core → Core) : (s.modCur f).held = s.held := rfl
@[simp] theorem modCur_pkgNo (s : State) (f : Core → Core) : (s.modCur f).pkgNo = s.pkgNo := rfl
@[simp] theorem modCur_lchan (s : State) (f : Core → Core) : (s.modCur f).lchan = s.lchan := rfl
@[simp] theorem modCur_lchoff (s : State) (f : Core → Core) : (s.modCur f).lchoff = s.lchoff := rfl
@[simp] theorem modCur_lchRet (s : State) (f : Core → Core) : (s.modCur f).lchRet = s.lchRet := rfl
@[simp] theorem modCur_deadLanes (s : State) (f : Core → Core) : (s.modCur f).deadLanes = s.deadLanes := rfl
@[simp] theorem modCur_posted (s : State) (f : Core → Core) : (s.modCur f).posted = s.posted := rfl
@[simp] theorem modCur_replicas (s : State) (f : Core → Core) : (s.modCur f).replicas = s.replicas := rfl
@[simp] theorem modCur_nextSeq (s : State) (f : Core → Core) : (s.modCur f).nextSeq = s.nextSeq := rfl
@[simp] theorem modCur_rpSent (s : State) (f : Core → Core) : (s.modCur f).rpSent = s.rpSent := rfl
@[simp] theorem modCur_rpNext (s : State) (f : Core → Core) : (s.modCur f).rpNext = s.rpNext := rfl
@[simp] theorem modCur_rpWait (s : State) (f : Core → Core) : (s.modCur f).rpWait = s.rpWait := rfl
@[simp] theorem modCur_rpHome (s : State) (f : Core → Core) : (s.modCur f).rpHome = s.rpHome := rfl
@[simp] theorem modCur_rpHolders (s : State) (f : Core → Core) : (s.modCur f).rpHolders = s.rpHolders := rfl
@[simp] theorem modCur_bootst (s : State) (f : Core → Core) : (s.modCur f).bootst = s.bootst := rfl
@[simp] theorem modCur_pwrgd (s : State) (f : Core → Core) : (s.modCur f).pwrgd = s.pwrgd := rfl
@[simp] theorem modCur_thermtrip (s : State) (f : Core → Core) : (s.modCur f).thermtrip = s.thermtrip := rfl
@[simp] theorem modCur_tripped (s : State) (f : Core → Core) : (s.modCur f).tripped = s.tripped := rfl
@[simp] theorem modCur_alert (s : State) (f : Core → Core) : (s.modCur f).alert = s.alert := rfl
@[simp] theorem modCur_hostDead (s : State) (f : Core → Core) : (s.modCur f).hostDead = s.hostDead := rfl
@[simp] theorem modCur_hostOld (s : State) (f : Core → Core) : (s.modCur f).hostOld = s.hostOld := rfl
@[simp] theorem modCur_resetFrom (s : State) (f : Core → Core) : (s.modCur f).resetFrom = s.resetFrom := rfl
@[simp] theorem modCur_gating (s : State) (f : Core → Core) : (s.modCur f).gating = s.gating := rfl
@[simp] theorem modCur_islctl (s : State) (f : Core → Core) : (s.modCur f).islctl = s.islctl := rfl
@[simp] theorem modCur_throttled (s : State) (f : Core → Core) : (s.modCur f).throttled = s.throttled := rfl
@[simp] theorem modCur_powerLow (s : State) (f : Core → Core) : (s.modCur f).powerLow = s.powerLow := rfl
@[simp] theorem modCur_pwrlim (s : State) (f : Core → Core) : (s.modCur f).pwrlim = s.pwrlim := rfl
@[simp] theorem modCur_pkgctl (s : State) (f : Core → Core) : (s.modCur f).pkgctl = s.pkgctl := rfl
@[simp] theorem modCur_exiting (s : State) (f : Core → Core) : (s.modCur f).exiting = s.exiting := rfl

/-! ### `modQ` -/

@[simp] theorem modQ_cycle (s : State) (f : Seq → Seq) : (s.modQ f).cycle = s.cycle := rfl
@[simp] theorem modQ_tick (s : State) (f : Seq → Seq) : (s.modQ f).tick = s.tick := rfl
@[simp] theorem modQ_tickFrac (s : State) (f : Seq → Seq) : (s.modQ f).tickFrac = s.tickFrac := rfl
@[simp] theorem modQ_islPhase (s : State) (f : Seq → Seq) : (s.modQ f).islPhase = s.islPhase := rfl
@[simp] theorem modQ_agenda (s : State) (f : Seq → Seq) : (s.modQ f).agenda = s.agenda := rfl
@[simp] theorem modQ_inputs (s : State) (f : Seq → Seq) : (s.modQ f).inputs = s.inputs := rfl
@[simp] theorem modQ_openSince (s : State) (f : Seq → Seq) : (s.modQ f).openSince = s.openSince := rfl
@[simp] theorem modQ_core (s : State) (f : Seq → Seq) : (s.modQ f).core = s.core := rfl
@[simp] theorem modQ_issue (s : State) (f : Seq → Seq) : (s.modQ f).issue = s.issue := rfl
@[simp] theorem modQ_freeCount (s : State) (f : Seq → Seq) : (s.modQ f).freeCount = s.freeCount := rfl
@[simp] theorem modQ_oracle (s : State) (f : Seq → Seq) : (s.modQ f).oracle = s.oracle := rfl
@[simp] theorem modQ_out (s : State) (f : Seq → Seq) : (s.modQ f).out = s.out := rfl
@[simp] theorem modQ_clusters (s : State) (f : Seq → Seq) : (s.modQ f).clusters = s.clusters := rfl
@[simp] theorem modQ_stamps (s : State) (f : Seq → Seq) : (s.modQ f).stamps = s.stamps := rfl
@[simp] theorem modQ_nextStamp (s : State) (f : Seq → Seq) : (s.modQ f).nextStamp = s.nextStamp := rfl
@[simp] theorem modQ_hbm (s : State) (f : Seq → Seq) : (s.modQ f).hbm = s.hbm := rfl
@[simp] theorem modQ_lost (s : State) (f : Seq → Seq) : (s.modQ f).lost = s.lost := rfl
@[simp] theorem modQ_cp (s : State) (f : Seq → Seq) : (s.modQ f).cp = s.cp := rfl
@[simp] theorem modQ_cpBanks (s : State) (f : Seq → Seq) : (s.modQ f).cpBanks = s.cpBanks := rfl
@[simp] theorem modQ_slicesOff (s : State) (f : Seq → Seq) : (s.modQ f).slicesOff = s.slicesOff := rfl
@[simp] theorem modQ_evicting (s : State) (f : Seq → Seq) : (s.modQ f).evicting = s.evicting := rfl
@[simp] theorem modQ_bankUse (s : State) (f : Seq → Seq) : (s.modQ f).bankUse = s.bankUse := rfl
@[simp] theorem modQ_way (s : State) (f : Seq → Seq) : (s.modQ f).way = s.way := rfl
@[simp] theorem modQ_host (s : State) (f : Seq → Seq) : (s.modQ f).host = s.host := rfl
@[simp] theorem modQ_saiga (s : State) (f : Seq → Seq) : (s.modQ f).saiga = s.saiga := rfl
@[simp] theorem modQ_l2 (s : State) (f : Seq → Seq) : (s.modQ f).l2 = s.l2 := rfl
@[simp] theorem modQ_pageClass (s : State) (f : Seq → Seq) : (s.modQ f).pageClass = s.pageClass := rfl
@[simp] theorem modQ_classified (s : State) (f : Seq → Seq) : (s.modQ f).classified = s.classified := rfl
@[simp] theorem modQ_lines (s : State) (f : Seq → Seq) : (s.modQ f).lines = s.lines := rfl
@[simp] theorem modQ_halves (s : State) (f : Seq → Seq) : (s.modQ f).halves = s.halves := rfl
@[simp] theorem modQ_cxl (s : State) (f : Seq → Seq) : (s.modQ f).cxl = s.cxl := rfl
@[simp] theorem modQ_parts (s : State) (f : Seq → Seq) : (s.modQ f).parts = s.parts := rfl
@[simp] theorem modQ_tasks (s : State) (f : Seq → Seq) : (s.modQ f).tasks = s.tasks := rfl
@[simp] theorem modQ_nextTask (s : State) (f : Seq → Seq) : (s.modQ f).nextTask = s.nextTask := rfl
@[simp] theorem modQ_signalsHere (s : State) (f : Seq → Seq) : (s.modQ f).signalsHere = s.signalsHere := rfl
@[simp] theorem modQ_slotTab (s : State) (f : Seq → Seq) : (s.modQ f).slotTab = s.slotTab := rfl
@[simp] theorem modQ_subreg (s : State) (f : Seq → Seq) : (s.modQ f).subreg = s.subreg := rfl
@[simp] theorem modQ_launching (s : State) (f : Seq → Seq) : (s.modQ f).launching = s.launching := rfl
@[simp] theorem modQ_substat (s : State) (f : Seq → Seq) : (s.modQ f).substat = s.substat := rfl
@[simp] theorem modQ_evcfg (s : State) (f : Seq → Seq) : (s.modQ f).evcfg = s.evcfg := rfl
@[simp] theorem modQ_evhead (s : State) (f : Seq → Seq) : (s.modQ f).evhead = s.evhead := rfl
@[simp] theorem modQ_evtail (s : State) (f : Seq → Seq) : (s.modQ f).evtail = s.evtail := rfl
@[simp] theorem modQ_evseq (s : State) (f : Seq → Seq) : (s.modQ f).evseq = s.evseq := rfl
@[simp] theorem modQ_sgstat (s : State) (f : Seq → Seq) : (s.modQ f).sgstat = s.sgstat := rfl
@[simp] theorem modQ_harts (s : State) (f : Seq → Seq) : (s.modQ f).harts = s.harts := rfl
@[simp] theorem modQ_pair (s : State) (f : Seq → Seq) : (s.modQ f).pair = s.pair := rfl
@[simp] theorem modQ_failingOver (s : State) (f : Seq → Seq) : (s.modQ f).failingOver = s.failingOver := rfl
@[simp] theorem modQ_failFrom (s : State) (f : Seq → Seq) : (s.modQ f).failFrom = s.failFrom := rfl
@[simp] theorem modQ_failedHart (s : State) (f : Seq → Seq) : (s.modQ f).failedHart = s.failedHart := rfl
@[simp] theorem modQ_saigaOut (s : State) (f : Seq → Seq) : (s.modQ f).saigaOut = s.saigaOut := rfl
@[simp] theorem modQ_pending (s : State) (f : Seq → Seq) : (s.modQ f).pending = s.pending := rfl
@[simp] theorem modQ_prqcfg (s : State) (f : Seq → Seq) : (s.modQ f).prqcfg = s.prqcfg := rfl
@[simp] theorem modQ_prqhead (s : State) (f : Seq → Seq) : (s.modQ f).prqhead = s.prqhead := rfl
@[simp] theorem modQ_prqtail (s : State) (f : Seq → Seq) : (s.modQ f).prqtail = s.prqtail := rfl
@[simp] theorem modQ_pageReqs (s : State) (f : Seq → Seq) : (s.modQ f).pageReqs = s.pageReqs := rfl
@[simp] theorem modQ_nextReq (s : State) (f : Seq → Seq) : (s.modQ f).nextReq = s.nextReq := rfl
@[simp] theorem modQ_tlbinv (s : State) (f : Seq → Seq) : (s.modQ f).tlbinv = s.tlbinv := rfl
@[simp] theorem modQ_tlbinvsz (s : State) (f : Seq → Seq) : (s.modQ f).tlbinvsz = s.tlbinvsz := rfl
@[simp] theorem modQ_pidx (s : State) (f : Seq → Seq) : (s.modQ f).pidx = s.pidx := rfl
@[simp] theorem modQ_alidx (s : State) (f : Seq → Seq) : (s.modQ f).alidx = s.alidx := rfl
@[simp] theorem modQ_patidx (s : State) (f : Seq → Seq) : (s.modQ f).patidx = s.patidx := rfl
@[simp] theorem modQ_blkidx (s : State) (f : Seq → Seq) : (s.modQ f).blkidx = s.blkidx := rfl
@[simp] theorem modQ_occsel (s : State) (f : Seq → Seq) : (s.modQ f).occsel = s.occsel := rfl
@[simp] theorem modQ_lchidx (s : State) (f : Seq → Seq) : (s.modQ f).lchidx = s.lchidx := rfl
@[simp] theorem modQ_pwidx (s : State) (f : Seq → Seq) : (s.modQ f).pwidx = s.pwidx := rfl
@[simp] theorem modQ_islidx (s : State) (f : Seq → Seq) : (s.modQ f).islidx = s.islidx := rfl
@[simp] theorem modQ_pat (s : State) (f : Seq → Seq) : (s.modQ f).pat = s.pat := rfl
@[simp] theorem modQ_blkcls (s : State) (f : Seq → Seq) : (s.modQ f).blkcls = s.blkcls := rfl
@[simp] theorem modQ_mr (s : State) (f : Seq → Seq) : (s.modQ f).mr = s.mr := rfl
@[simp] theorem modQ_mrext (s : State) (f : Seq → Seq) : (s.modQ f).mrext = s.mrext := rfl
@[simp] theorem modQ_audw (s : State) (f : Seq → Seq) : (s.modQ f).audw = s.audw := rfl
@[simp] theorem modQ_audit (s : State) (f : Seq → Seq) : (s.modQ f).audit = s.audit := rfl
@[simp] theorem modQ_chain (s : State) (f : Seq → Seq) : (s.modQ f).chain = s.chain := rfl
@[simp] theorem modQ_lastAudit (s : State) (f : Seq → Seq) : (s.modQ f).lastAudit = s.lastAudit := rfl
@[simp] theorem modQ_sinceCkpt (s : State) (f : Seq → Seq) : (s.modQ f).sinceCkpt = s.sinceCkpt := rfl
@[simp] theorem modQ_ckpt (s : State) (f : Seq → Seq) : (s.modQ f).ckpt = s.ckpt := rfl
@[simp] theorem modQ_spdmSession (s : State) (f : Seq → Seq) : (s.modQ f).spdmSession = s.spdmSession := rfl
@[simp] theorem modQ_transcript (s : State) (f : Seq → Seq) : (s.modQ f).transcript = s.transcript := rfl
@[simp] theorem modQ_ideKeys (s : State) (f : Seq → Seq) : (s.modQ f).ideKeys = s.ideKeys := rfl
@[simp] theorem modQ_delivered (s : State) (f : Seq → Seq) : (s.modQ f).delivered = s.delivered := rfl
@[simp] theorem modQ_derived (s : State) (f : Seq → Seq) : (s.modQ f).derived = s.derived := rfl
@[simp] theorem modQ_nextRegion (s : State) (f : Seq → Seq) : (s.modQ f).nextRegion = s.nextRegion := rfl
@[simp] theorem modQ_held (s : State) (f : Seq → Seq) : (s.modQ f).held = s.held := rfl
@[simp] theorem modQ_pkgNo (s : State) (f : Seq → Seq) : (s.modQ f).pkgNo = s.pkgNo := rfl
@[simp] theorem modQ_lchan (s : State) (f : Seq → Seq) : (s.modQ f).lchan = s.lchan := rfl
@[simp] theorem modQ_lchoff (s : State) (f : Seq → Seq) : (s.modQ f).lchoff = s.lchoff := rfl
@[simp] theorem modQ_lchRet (s : State) (f : Seq → Seq) : (s.modQ f).lchRet = s.lchRet := rfl
@[simp] theorem modQ_deadLanes (s : State) (f : Seq → Seq) : (s.modQ f).deadLanes = s.deadLanes := rfl
@[simp] theorem modQ_posted (s : State) (f : Seq → Seq) : (s.modQ f).posted = s.posted := rfl
@[simp] theorem modQ_replicas (s : State) (f : Seq → Seq) : (s.modQ f).replicas = s.replicas := rfl
@[simp] theorem modQ_nextSeq (s : State) (f : Seq → Seq) : (s.modQ f).nextSeq = s.nextSeq := rfl
@[simp] theorem modQ_rpSent (s : State) (f : Seq → Seq) : (s.modQ f).rpSent = s.rpSent := rfl
@[simp] theorem modQ_rpNext (s : State) (f : Seq → Seq) : (s.modQ f).rpNext = s.rpNext := rfl
@[simp] theorem modQ_rpWait (s : State) (f : Seq → Seq) : (s.modQ f).rpWait = s.rpWait := rfl
@[simp] theorem modQ_rpHome (s : State) (f : Seq → Seq) : (s.modQ f).rpHome = s.rpHome := rfl
@[simp] theorem modQ_rpHolders (s : State) (f : Seq → Seq) : (s.modQ f).rpHolders = s.rpHolders := rfl
@[simp] theorem modQ_bootst (s : State) (f : Seq → Seq) : (s.modQ f).bootst = s.bootst := rfl
@[simp] theorem modQ_pwrgd (s : State) (f : Seq → Seq) : (s.modQ f).pwrgd = s.pwrgd := rfl
@[simp] theorem modQ_thermtrip (s : State) (f : Seq → Seq) : (s.modQ f).thermtrip = s.thermtrip := rfl
@[simp] theorem modQ_tripped (s : State) (f : Seq → Seq) : (s.modQ f).tripped = s.tripped := rfl
@[simp] theorem modQ_alert (s : State) (f : Seq → Seq) : (s.modQ f).alert = s.alert := rfl
@[simp] theorem modQ_hostDead (s : State) (f : Seq → Seq) : (s.modQ f).hostDead = s.hostDead := rfl
@[simp] theorem modQ_hostOld (s : State) (f : Seq → Seq) : (s.modQ f).hostOld = s.hostOld := rfl
@[simp] theorem modQ_resetFrom (s : State) (f : Seq → Seq) : (s.modQ f).resetFrom = s.resetFrom := rfl
@[simp] theorem modQ_gating (s : State) (f : Seq → Seq) : (s.modQ f).gating = s.gating := rfl
@[simp] theorem modQ_islctl (s : State) (f : Seq → Seq) : (s.modQ f).islctl = s.islctl := rfl
@[simp] theorem modQ_throttled (s : State) (f : Seq → Seq) : (s.modQ f).throttled = s.throttled := rfl
@[simp] theorem modQ_powerLow (s : State) (f : Seq → Seq) : (s.modQ f).powerLow = s.powerLow := rfl
@[simp] theorem modQ_pwrlim (s : State) (f : Seq → Seq) : (s.modQ f).pwrlim = s.pwrlim := rfl
@[simp] theorem modQ_pkgctl (s : State) (f : Seq → Seq) : (s.modQ f).pkgctl = s.pkgctl := rfl
@[simp] theorem modQ_exiting (s : State) (f : Seq → Seq) : (s.modQ f).exiting = s.exiting := rfl

/-! ### `setG` -/

@[simp] theorem setG_cycle (s : State) (r : Reg) (v : Word) (p : Bool) : (s.setG r v p).cycle = s.cycle := rfl
@[simp] theorem setG_tick (s : State) (r : Reg) (v : Word) (p : Bool) : (s.setG r v p).tick = s.tick := rfl
@[simp] theorem setG_tickFrac (s : State) (r : Reg) (v : Word) (p : Bool) : (s.setG r v p).tickFrac = s.tickFrac := rfl
@[simp] theorem setG_islPhase (s : State) (r : Reg) (v : Word) (p : Bool) : (s.setG r v p).islPhase = s.islPhase := rfl
@[simp] theorem setG_agenda (s : State) (r : Reg) (v : Word) (p : Bool) : (s.setG r v p).agenda = s.agenda := rfl
@[simp] theorem setG_inputs (s : State) (r : Reg) (v : Word) (p : Bool) : (s.setG r v p).inputs = s.inputs := rfl
@[simp] theorem setG_openSince (s : State) (r : Reg) (v : Word) (p : Bool) : (s.setG r v p).openSince = s.openSince := rfl
@[simp] theorem setG_core (s : State) (r : Reg) (v : Word) (p : Bool) : (s.setG r v p).core = s.core := rfl
@[simp] theorem setG_issue (s : State) (r : Reg) (v : Word) (p : Bool) : (s.setG r v p).issue = s.issue := rfl
@[simp] theorem setG_freeCount (s : State) (r : Reg) (v : Word) (p : Bool) : (s.setG r v p).freeCount = s.freeCount := rfl
@[simp] theorem setG_oracle (s : State) (r : Reg) (v : Word) (p : Bool) : (s.setG r v p).oracle = s.oracle := rfl
@[simp] theorem setG_out (s : State) (r : Reg) (v : Word) (p : Bool) : (s.setG r v p).out = s.out := rfl
@[simp] theorem setG_clusters (s : State) (r : Reg) (v : Word) (p : Bool) : (s.setG r v p).clusters = s.clusters := rfl
@[simp] theorem setG_stamps (s : State) (r : Reg) (v : Word) (p : Bool) : (s.setG r v p).stamps = s.stamps := rfl
@[simp] theorem setG_nextStamp (s : State) (r : Reg) (v : Word) (p : Bool) : (s.setG r v p).nextStamp = s.nextStamp := rfl
@[simp] theorem setG_hbm (s : State) (r : Reg) (v : Word) (p : Bool) : (s.setG r v p).hbm = s.hbm := rfl
@[simp] theorem setG_lost (s : State) (r : Reg) (v : Word) (p : Bool) : (s.setG r v p).lost = s.lost := rfl
@[simp] theorem setG_cp (s : State) (r : Reg) (v : Word) (p : Bool) : (s.setG r v p).cp = s.cp := rfl
@[simp] theorem setG_cpBanks (s : State) (r : Reg) (v : Word) (p : Bool) : (s.setG r v p).cpBanks = s.cpBanks := rfl
@[simp] theorem setG_slicesOff (s : State) (r : Reg) (v : Word) (p : Bool) : (s.setG r v p).slicesOff = s.slicesOff := rfl
@[simp] theorem setG_evicting (s : State) (r : Reg) (v : Word) (p : Bool) : (s.setG r v p).evicting = s.evicting := rfl
@[simp] theorem setG_bankUse (s : State) (r : Reg) (v : Word) (p : Bool) : (s.setG r v p).bankUse = s.bankUse := rfl
@[simp] theorem setG_way (s : State) (r : Reg) (v : Word) (p : Bool) : (s.setG r v p).way = s.way := rfl
@[simp] theorem setG_host (s : State) (r : Reg) (v : Word) (p : Bool) : (s.setG r v p).host = s.host := rfl
@[simp] theorem setG_saiga (s : State) (r : Reg) (v : Word) (p : Bool) : (s.setG r v p).saiga = s.saiga := rfl
@[simp] theorem setG_l2 (s : State) (r : Reg) (v : Word) (p : Bool) : (s.setG r v p).l2 = s.l2 := rfl
@[simp] theorem setG_pageClass (s : State) (r : Reg) (v : Word) (p : Bool) : (s.setG r v p).pageClass = s.pageClass := rfl
@[simp] theorem setG_classified (s : State) (r : Reg) (v : Word) (p : Bool) : (s.setG r v p).classified = s.classified := rfl
@[simp] theorem setG_lines (s : State) (r : Reg) (v : Word) (p : Bool) : (s.setG r v p).lines = s.lines := rfl
@[simp] theorem setG_halves (s : State) (r : Reg) (v : Word) (p : Bool) : (s.setG r v p).halves = s.halves := rfl
@[simp] theorem setG_cxl (s : State) (r : Reg) (v : Word) (p : Bool) : (s.setG r v p).cxl = s.cxl := rfl
@[simp] theorem setG_parts (s : State) (r : Reg) (v : Word) (p : Bool) : (s.setG r v p).parts = s.parts := rfl
@[simp] theorem setG_tasks (s : State) (r : Reg) (v : Word) (p : Bool) : (s.setG r v p).tasks = s.tasks := rfl
@[simp] theorem setG_nextTask (s : State) (r : Reg) (v : Word) (p : Bool) : (s.setG r v p).nextTask = s.nextTask := rfl
@[simp] theorem setG_signalsHere (s : State) (r : Reg) (v : Word) (p : Bool) : (s.setG r v p).signalsHere = s.signalsHere := rfl
@[simp] theorem setG_slotTab (s : State) (r : Reg) (v : Word) (p : Bool) : (s.setG r v p).slotTab = s.slotTab := rfl
@[simp] theorem setG_subreg (s : State) (r : Reg) (v : Word) (p : Bool) : (s.setG r v p).subreg = s.subreg := rfl
@[simp] theorem setG_launching (s : State) (r : Reg) (v : Word) (p : Bool) : (s.setG r v p).launching = s.launching := rfl
@[simp] theorem setG_substat (s : State) (r : Reg) (v : Word) (p : Bool) : (s.setG r v p).substat = s.substat := rfl
@[simp] theorem setG_evcfg (s : State) (r : Reg) (v : Word) (p : Bool) : (s.setG r v p).evcfg = s.evcfg := rfl
@[simp] theorem setG_evhead (s : State) (r : Reg) (v : Word) (p : Bool) : (s.setG r v p).evhead = s.evhead := rfl
@[simp] theorem setG_evtail (s : State) (r : Reg) (v : Word) (p : Bool) : (s.setG r v p).evtail = s.evtail := rfl
@[simp] theorem setG_evseq (s : State) (r : Reg) (v : Word) (p : Bool) : (s.setG r v p).evseq = s.evseq := rfl
@[simp] theorem setG_sgstat (s : State) (r : Reg) (v : Word) (p : Bool) : (s.setG r v p).sgstat = s.sgstat := rfl
@[simp] theorem setG_harts (s : State) (r : Reg) (v : Word) (p : Bool) : (s.setG r v p).harts = s.harts := rfl
@[simp] theorem setG_pair (s : State) (r : Reg) (v : Word) (p : Bool) : (s.setG r v p).pair = s.pair := rfl
@[simp] theorem setG_failingOver (s : State) (r : Reg) (v : Word) (p : Bool) : (s.setG r v p).failingOver = s.failingOver := rfl
@[simp] theorem setG_failFrom (s : State) (r : Reg) (v : Word) (p : Bool) : (s.setG r v p).failFrom = s.failFrom := rfl
@[simp] theorem setG_failedHart (s : State) (r : Reg) (v : Word) (p : Bool) : (s.setG r v p).failedHart = s.failedHart := rfl
@[simp] theorem setG_saigaOut (s : State) (r : Reg) (v : Word) (p : Bool) : (s.setG r v p).saigaOut = s.saigaOut := rfl
@[simp] theorem setG_pending (s : State) (r : Reg) (v : Word) (p : Bool) : (s.setG r v p).pending = s.pending := rfl
@[simp] theorem setG_prqcfg (s : State) (r : Reg) (v : Word) (p : Bool) : (s.setG r v p).prqcfg = s.prqcfg := rfl
@[simp] theorem setG_prqhead (s : State) (r : Reg) (v : Word) (p : Bool) : (s.setG r v p).prqhead = s.prqhead := rfl
@[simp] theorem setG_prqtail (s : State) (r : Reg) (v : Word) (p : Bool) : (s.setG r v p).prqtail = s.prqtail := rfl
@[simp] theorem setG_pageReqs (s : State) (r : Reg) (v : Word) (p : Bool) : (s.setG r v p).pageReqs = s.pageReqs := rfl
@[simp] theorem setG_nextReq (s : State) (r : Reg) (v : Word) (p : Bool) : (s.setG r v p).nextReq = s.nextReq := rfl
@[simp] theorem setG_tlbinv (s : State) (r : Reg) (v : Word) (p : Bool) : (s.setG r v p).tlbinv = s.tlbinv := rfl
@[simp] theorem setG_tlbinvsz (s : State) (r : Reg) (v : Word) (p : Bool) : (s.setG r v p).tlbinvsz = s.tlbinvsz := rfl
@[simp] theorem setG_pidx (s : State) (r : Reg) (v : Word) (p : Bool) : (s.setG r v p).pidx = s.pidx := rfl
@[simp] theorem setG_alidx (s : State) (r : Reg) (v : Word) (p : Bool) : (s.setG r v p).alidx = s.alidx := rfl
@[simp] theorem setG_patidx (s : State) (r : Reg) (v : Word) (p : Bool) : (s.setG r v p).patidx = s.patidx := rfl
@[simp] theorem setG_blkidx (s : State) (r : Reg) (v : Word) (p : Bool) : (s.setG r v p).blkidx = s.blkidx := rfl
@[simp] theorem setG_occsel (s : State) (r : Reg) (v : Word) (p : Bool) : (s.setG r v p).occsel = s.occsel := rfl
@[simp] theorem setG_lchidx (s : State) (r : Reg) (v : Word) (p : Bool) : (s.setG r v p).lchidx = s.lchidx := rfl
@[simp] theorem setG_pwidx (s : State) (r : Reg) (v : Word) (p : Bool) : (s.setG r v p).pwidx = s.pwidx := rfl
@[simp] theorem setG_islidx (s : State) (r : Reg) (v : Word) (p : Bool) : (s.setG r v p).islidx = s.islidx := rfl
@[simp] theorem setG_pat (s : State) (r : Reg) (v : Word) (p : Bool) : (s.setG r v p).pat = s.pat := rfl
@[simp] theorem setG_blkcls (s : State) (r : Reg) (v : Word) (p : Bool) : (s.setG r v p).blkcls = s.blkcls := rfl
@[simp] theorem setG_mr (s : State) (r : Reg) (v : Word) (p : Bool) : (s.setG r v p).mr = s.mr := rfl
@[simp] theorem setG_mrext (s : State) (r : Reg) (v : Word) (p : Bool) : (s.setG r v p).mrext = s.mrext := rfl
@[simp] theorem setG_audw (s : State) (r : Reg) (v : Word) (p : Bool) : (s.setG r v p).audw = s.audw := rfl
@[simp] theorem setG_audit (s : State) (r : Reg) (v : Word) (p : Bool) : (s.setG r v p).audit = s.audit := rfl
@[simp] theorem setG_chain (s : State) (r : Reg) (v : Word) (p : Bool) : (s.setG r v p).chain = s.chain := rfl
@[simp] theorem setG_lastAudit (s : State) (r : Reg) (v : Word) (p : Bool) : (s.setG r v p).lastAudit = s.lastAudit := rfl
@[simp] theorem setG_sinceCkpt (s : State) (r : Reg) (v : Word) (p : Bool) : (s.setG r v p).sinceCkpt = s.sinceCkpt := rfl
@[simp] theorem setG_ckpt (s : State) (r : Reg) (v : Word) (p : Bool) : (s.setG r v p).ckpt = s.ckpt := rfl
@[simp] theorem setG_spdmSession (s : State) (r : Reg) (v : Word) (p : Bool) : (s.setG r v p).spdmSession = s.spdmSession := rfl
@[simp] theorem setG_transcript (s : State) (r : Reg) (v : Word) (p : Bool) : (s.setG r v p).transcript = s.transcript := rfl
@[simp] theorem setG_ideKeys (s : State) (r : Reg) (v : Word) (p : Bool) : (s.setG r v p).ideKeys = s.ideKeys := rfl
@[simp] theorem setG_delivered (s : State) (r : Reg) (v : Word) (p : Bool) : (s.setG r v p).delivered = s.delivered := rfl
@[simp] theorem setG_derived (s : State) (r : Reg) (v : Word) (p : Bool) : (s.setG r v p).derived = s.derived := rfl
@[simp] theorem setG_nextRegion (s : State) (r : Reg) (v : Word) (p : Bool) : (s.setG r v p).nextRegion = s.nextRegion := rfl
@[simp] theorem setG_held (s : State) (r : Reg) (v : Word) (p : Bool) : (s.setG r v p).held = s.held := rfl
@[simp] theorem setG_pkgNo (s : State) (r : Reg) (v : Word) (p : Bool) : (s.setG r v p).pkgNo = s.pkgNo := rfl
@[simp] theorem setG_lchan (s : State) (r : Reg) (v : Word) (p : Bool) : (s.setG r v p).lchan = s.lchan := rfl
@[simp] theorem setG_lchoff (s : State) (r : Reg) (v : Word) (p : Bool) : (s.setG r v p).lchoff = s.lchoff := rfl
@[simp] theorem setG_lchRet (s : State) (r : Reg) (v : Word) (p : Bool) : (s.setG r v p).lchRet = s.lchRet := rfl
@[simp] theorem setG_deadLanes (s : State) (r : Reg) (v : Word) (p : Bool) : (s.setG r v p).deadLanes = s.deadLanes := rfl
@[simp] theorem setG_posted (s : State) (r : Reg) (v : Word) (p : Bool) : (s.setG r v p).posted = s.posted := rfl
@[simp] theorem setG_replicas (s : State) (r : Reg) (v : Word) (p : Bool) : (s.setG r v p).replicas = s.replicas := rfl
@[simp] theorem setG_nextSeq (s : State) (r : Reg) (v : Word) (p : Bool) : (s.setG r v p).nextSeq = s.nextSeq := rfl
@[simp] theorem setG_rpSent (s : State) (r : Reg) (v : Word) (p : Bool) : (s.setG r v p).rpSent = s.rpSent := rfl
@[simp] theorem setG_rpNext (s : State) (r : Reg) (v : Word) (p : Bool) : (s.setG r v p).rpNext = s.rpNext := rfl
@[simp] theorem setG_rpWait (s : State) (r : Reg) (v : Word) (p : Bool) : (s.setG r v p).rpWait = s.rpWait := rfl
@[simp] theorem setG_rpHome (s : State) (r : Reg) (v : Word) (p : Bool) : (s.setG r v p).rpHome = s.rpHome := rfl
@[simp] theorem setG_rpHolders (s : State) (r : Reg) (v : Word) (p : Bool) : (s.setG r v p).rpHolders = s.rpHolders := rfl
@[simp] theorem setG_bootst (s : State) (r : Reg) (v : Word) (p : Bool) : (s.setG r v p).bootst = s.bootst := rfl
@[simp] theorem setG_pwrgd (s : State) (r : Reg) (v : Word) (p : Bool) : (s.setG r v p).pwrgd = s.pwrgd := rfl
@[simp] theorem setG_thermtrip (s : State) (r : Reg) (v : Word) (p : Bool) : (s.setG r v p).thermtrip = s.thermtrip := rfl
@[simp] theorem setG_tripped (s : State) (r : Reg) (v : Word) (p : Bool) : (s.setG r v p).tripped = s.tripped := rfl
@[simp] theorem setG_alert (s : State) (r : Reg) (v : Word) (p : Bool) : (s.setG r v p).alert = s.alert := rfl
@[simp] theorem setG_hostDead (s : State) (r : Reg) (v : Word) (p : Bool) : (s.setG r v p).hostDead = s.hostDead := rfl
@[simp] theorem setG_hostOld (s : State) (r : Reg) (v : Word) (p : Bool) : (s.setG r v p).hostOld = s.hostOld := rfl
@[simp] theorem setG_resetFrom (s : State) (r : Reg) (v : Word) (p : Bool) : (s.setG r v p).resetFrom = s.resetFrom := rfl
@[simp] theorem setG_gating (s : State) (r : Reg) (v : Word) (p : Bool) : (s.setG r v p).gating = s.gating := rfl
@[simp] theorem setG_islctl (s : State) (r : Reg) (v : Word) (p : Bool) : (s.setG r v p).islctl = s.islctl := rfl
@[simp] theorem setG_throttled (s : State) (r : Reg) (v : Word) (p : Bool) : (s.setG r v p).throttled = s.throttled := rfl
@[simp] theorem setG_powerLow (s : State) (r : Reg) (v : Word) (p : Bool) : (s.setG r v p).powerLow = s.powerLow := rfl
@[simp] theorem setG_pwrlim (s : State) (r : Reg) (v : Word) (p : Bool) : (s.setG r v p).pwrlim = s.pwrlim := rfl
@[simp] theorem setG_pkgctl (s : State) (r : Reg) (v : Word) (p : Bool) : (s.setG r v p).pkgctl = s.pkgctl := rfl
@[simp] theorem setG_exiting (s : State) (r : Reg) (v : Word) (p : Bool) : (s.setG r v p).exiting = s.exiting := rfl

/-! ### `advance` -/

@[simp] theorem advance_cycle (s : State) (n : Nat) : (s.advance n).cycle = s.cycle := rfl
@[simp] theorem advance_tick (s : State) (n : Nat) : (s.advance n).tick = s.tick := rfl
@[simp] theorem advance_tickFrac (s : State) (n : Nat) : (s.advance n).tickFrac = s.tickFrac := rfl
@[simp] theorem advance_islPhase (s : State) (n : Nat) : (s.advance n).islPhase = s.islPhase := rfl
@[simp] theorem advance_agenda (s : State) (n : Nat) : (s.advance n).agenda = s.agenda := rfl
@[simp] theorem advance_inputs (s : State) (n : Nat) : (s.advance n).inputs = s.inputs := rfl
@[simp] theorem advance_openSince (s : State) (n : Nat) : (s.advance n).openSince = s.openSince := rfl
@[simp] theorem advance_core (s : State) (n : Nat) : (s.advance n).core = s.core := rfl
@[simp] theorem advance_issue (s : State) (n : Nat) : (s.advance n).issue = s.issue := rfl
@[simp] theorem advance_freeCount (s : State) (n : Nat) : (s.advance n).freeCount = s.freeCount := rfl
@[simp] theorem advance_oracle (s : State) (n : Nat) : (s.advance n).oracle = s.oracle := rfl
@[simp] theorem advance_out (s : State) (n : Nat) : (s.advance n).out = s.out := rfl
@[simp] theorem advance_clusters (s : State) (n : Nat) : (s.advance n).clusters = s.clusters := rfl
@[simp] theorem advance_stamps (s : State) (n : Nat) : (s.advance n).stamps = s.stamps := rfl
@[simp] theorem advance_nextStamp (s : State) (n : Nat) : (s.advance n).nextStamp = s.nextStamp := rfl
@[simp] theorem advance_hbm (s : State) (n : Nat) : (s.advance n).hbm = s.hbm := rfl
@[simp] theorem advance_lost (s : State) (n : Nat) : (s.advance n).lost = s.lost := rfl
@[simp] theorem advance_cp (s : State) (n : Nat) : (s.advance n).cp = s.cp := rfl
@[simp] theorem advance_cpBanks (s : State) (n : Nat) : (s.advance n).cpBanks = s.cpBanks := rfl
@[simp] theorem advance_slicesOff (s : State) (n : Nat) : (s.advance n).slicesOff = s.slicesOff := rfl
@[simp] theorem advance_evicting (s : State) (n : Nat) : (s.advance n).evicting = s.evicting := rfl
@[simp] theorem advance_bankUse (s : State) (n : Nat) : (s.advance n).bankUse = s.bankUse := rfl
@[simp] theorem advance_way (s : State) (n : Nat) : (s.advance n).way = s.way := rfl
@[simp] theorem advance_host (s : State) (n : Nat) : (s.advance n).host = s.host := rfl
@[simp] theorem advance_saiga (s : State) (n : Nat) : (s.advance n).saiga = s.saiga := rfl
@[simp] theorem advance_l2 (s : State) (n : Nat) : (s.advance n).l2 = s.l2 := rfl
@[simp] theorem advance_pageClass (s : State) (n : Nat) : (s.advance n).pageClass = s.pageClass := rfl
@[simp] theorem advance_classified (s : State) (n : Nat) : (s.advance n).classified = s.classified := rfl
@[simp] theorem advance_lines (s : State) (n : Nat) : (s.advance n).lines = s.lines := rfl
@[simp] theorem advance_halves (s : State) (n : Nat) : (s.advance n).halves = s.halves := rfl
@[simp] theorem advance_cxl (s : State) (n : Nat) : (s.advance n).cxl = s.cxl := rfl
@[simp] theorem advance_parts (s : State) (n : Nat) : (s.advance n).parts = s.parts := rfl
@[simp] theorem advance_tasks (s : State) (n : Nat) : (s.advance n).tasks = s.tasks := rfl
@[simp] theorem advance_nextTask (s : State) (n : Nat) : (s.advance n).nextTask = s.nextTask := rfl
@[simp] theorem advance_signalsHere (s : State) (n : Nat) : (s.advance n).signalsHere = s.signalsHere := rfl
@[simp] theorem advance_slotTab (s : State) (n : Nat) : (s.advance n).slotTab = s.slotTab := rfl
@[simp] theorem advance_subreg (s : State) (n : Nat) : (s.advance n).subreg = s.subreg := rfl
@[simp] theorem advance_launching (s : State) (n : Nat) : (s.advance n).launching = s.launching := rfl
@[simp] theorem advance_substat (s : State) (n : Nat) : (s.advance n).substat = s.substat := rfl
@[simp] theorem advance_evcfg (s : State) (n : Nat) : (s.advance n).evcfg = s.evcfg := rfl
@[simp] theorem advance_evhead (s : State) (n : Nat) : (s.advance n).evhead = s.evhead := rfl
@[simp] theorem advance_evtail (s : State) (n : Nat) : (s.advance n).evtail = s.evtail := rfl
@[simp] theorem advance_evseq (s : State) (n : Nat) : (s.advance n).evseq = s.evseq := rfl
@[simp] theorem advance_sgstat (s : State) (n : Nat) : (s.advance n).sgstat = s.sgstat := rfl
@[simp] theorem advance_harts (s : State) (n : Nat) : (s.advance n).harts = s.harts := rfl
@[simp] theorem advance_pair (s : State) (n : Nat) : (s.advance n).pair = s.pair := rfl
@[simp] theorem advance_failingOver (s : State) (n : Nat) : (s.advance n).failingOver = s.failingOver := rfl
@[simp] theorem advance_failFrom (s : State) (n : Nat) : (s.advance n).failFrom = s.failFrom := rfl
@[simp] theorem advance_failedHart (s : State) (n : Nat) : (s.advance n).failedHart = s.failedHart := rfl
@[simp] theorem advance_saigaOut (s : State) (n : Nat) : (s.advance n).saigaOut = s.saigaOut := rfl
@[simp] theorem advance_pending (s : State) (n : Nat) : (s.advance n).pending = s.pending := rfl
@[simp] theorem advance_prqcfg (s : State) (n : Nat) : (s.advance n).prqcfg = s.prqcfg := rfl
@[simp] theorem advance_prqhead (s : State) (n : Nat) : (s.advance n).prqhead = s.prqhead := rfl
@[simp] theorem advance_prqtail (s : State) (n : Nat) : (s.advance n).prqtail = s.prqtail := rfl
@[simp] theorem advance_pageReqs (s : State) (n : Nat) : (s.advance n).pageReqs = s.pageReqs := rfl
@[simp] theorem advance_nextReq (s : State) (n : Nat) : (s.advance n).nextReq = s.nextReq := rfl
@[simp] theorem advance_tlbinv (s : State) (n : Nat) : (s.advance n).tlbinv = s.tlbinv := rfl
@[simp] theorem advance_tlbinvsz (s : State) (n : Nat) : (s.advance n).tlbinvsz = s.tlbinvsz := rfl
@[simp] theorem advance_pidx (s : State) (n : Nat) : (s.advance n).pidx = s.pidx := rfl
@[simp] theorem advance_alidx (s : State) (n : Nat) : (s.advance n).alidx = s.alidx := rfl
@[simp] theorem advance_patidx (s : State) (n : Nat) : (s.advance n).patidx = s.patidx := rfl
@[simp] theorem advance_blkidx (s : State) (n : Nat) : (s.advance n).blkidx = s.blkidx := rfl
@[simp] theorem advance_occsel (s : State) (n : Nat) : (s.advance n).occsel = s.occsel := rfl
@[simp] theorem advance_lchidx (s : State) (n : Nat) : (s.advance n).lchidx = s.lchidx := rfl
@[simp] theorem advance_pwidx (s : State) (n : Nat) : (s.advance n).pwidx = s.pwidx := rfl
@[simp] theorem advance_islidx (s : State) (n : Nat) : (s.advance n).islidx = s.islidx := rfl
@[simp] theorem advance_pat (s : State) (n : Nat) : (s.advance n).pat = s.pat := rfl
@[simp] theorem advance_blkcls (s : State) (n : Nat) : (s.advance n).blkcls = s.blkcls := rfl
@[simp] theorem advance_mr (s : State) (n : Nat) : (s.advance n).mr = s.mr := rfl
@[simp] theorem advance_mrext (s : State) (n : Nat) : (s.advance n).mrext = s.mrext := rfl
@[simp] theorem advance_audw (s : State) (n : Nat) : (s.advance n).audw = s.audw := rfl
@[simp] theorem advance_audit (s : State) (n : Nat) : (s.advance n).audit = s.audit := rfl
@[simp] theorem advance_chain (s : State) (n : Nat) : (s.advance n).chain = s.chain := rfl
@[simp] theorem advance_lastAudit (s : State) (n : Nat) : (s.advance n).lastAudit = s.lastAudit := rfl
@[simp] theorem advance_sinceCkpt (s : State) (n : Nat) : (s.advance n).sinceCkpt = s.sinceCkpt := rfl
@[simp] theorem advance_ckpt (s : State) (n : Nat) : (s.advance n).ckpt = s.ckpt := rfl
@[simp] theorem advance_spdmSession (s : State) (n : Nat) : (s.advance n).spdmSession = s.spdmSession := rfl
@[simp] theorem advance_transcript (s : State) (n : Nat) : (s.advance n).transcript = s.transcript := rfl
@[simp] theorem advance_ideKeys (s : State) (n : Nat) : (s.advance n).ideKeys = s.ideKeys := rfl
@[simp] theorem advance_delivered (s : State) (n : Nat) : (s.advance n).delivered = s.delivered := rfl
@[simp] theorem advance_derived (s : State) (n : Nat) : (s.advance n).derived = s.derived := rfl
@[simp] theorem advance_nextRegion (s : State) (n : Nat) : (s.advance n).nextRegion = s.nextRegion := rfl
@[simp] theorem advance_held (s : State) (n : Nat) : (s.advance n).held = s.held := rfl
@[simp] theorem advance_pkgNo (s : State) (n : Nat) : (s.advance n).pkgNo = s.pkgNo := rfl
@[simp] theorem advance_lchan (s : State) (n : Nat) : (s.advance n).lchan = s.lchan := rfl
@[simp] theorem advance_lchoff (s : State) (n : Nat) : (s.advance n).lchoff = s.lchoff := rfl
@[simp] theorem advance_lchRet (s : State) (n : Nat) : (s.advance n).lchRet = s.lchRet := rfl
@[simp] theorem advance_deadLanes (s : State) (n : Nat) : (s.advance n).deadLanes = s.deadLanes := rfl
@[simp] theorem advance_posted (s : State) (n : Nat) : (s.advance n).posted = s.posted := rfl
@[simp] theorem advance_replicas (s : State) (n : Nat) : (s.advance n).replicas = s.replicas := rfl
@[simp] theorem advance_nextSeq (s : State) (n : Nat) : (s.advance n).nextSeq = s.nextSeq := rfl
@[simp] theorem advance_rpSent (s : State) (n : Nat) : (s.advance n).rpSent = s.rpSent := rfl
@[simp] theorem advance_rpNext (s : State) (n : Nat) : (s.advance n).rpNext = s.rpNext := rfl
@[simp] theorem advance_rpWait (s : State) (n : Nat) : (s.advance n).rpWait = s.rpWait := rfl
@[simp] theorem advance_rpHome (s : State) (n : Nat) : (s.advance n).rpHome = s.rpHome := rfl
@[simp] theorem advance_rpHolders (s : State) (n : Nat) : (s.advance n).rpHolders = s.rpHolders := rfl
@[simp] theorem advance_bootst (s : State) (n : Nat) : (s.advance n).bootst = s.bootst := rfl
@[simp] theorem advance_pwrgd (s : State) (n : Nat) : (s.advance n).pwrgd = s.pwrgd := rfl
@[simp] theorem advance_thermtrip (s : State) (n : Nat) : (s.advance n).thermtrip = s.thermtrip := rfl
@[simp] theorem advance_tripped (s : State) (n : Nat) : (s.advance n).tripped = s.tripped := rfl
@[simp] theorem advance_alert (s : State) (n : Nat) : (s.advance n).alert = s.alert := rfl
@[simp] theorem advance_hostDead (s : State) (n : Nat) : (s.advance n).hostDead = s.hostDead := rfl
@[simp] theorem advance_hostOld (s : State) (n : Nat) : (s.advance n).hostOld = s.hostOld := rfl
@[simp] theorem advance_resetFrom (s : State) (n : Nat) : (s.advance n).resetFrom = s.resetFrom := rfl
@[simp] theorem advance_gating (s : State) (n : Nat) : (s.advance n).gating = s.gating := rfl
@[simp] theorem advance_islctl (s : State) (n : Nat) : (s.advance n).islctl = s.islctl := rfl
@[simp] theorem advance_throttled (s : State) (n : Nat) : (s.advance n).throttled = s.throttled := rfl
@[simp] theorem advance_powerLow (s : State) (n : Nat) : (s.advance n).powerLow = s.powerLow := rfl
@[simp] theorem advance_pwrlim (s : State) (n : Nat) : (s.advance n).pwrlim = s.pwrlim := rfl
@[simp] theorem advance_pkgctl (s : State) (n : Nat) : (s.advance n).pkgctl = s.pkgctl := rfl
@[simp] theorem advance_exiting (s : State) (n : Nat) : (s.advance n).exiting = s.exiting := rfl

/-! ### `goto` -/

@[simp] theorem goto_cycle (s : State) (a : Word) : (s.goto a).cycle = s.cycle := rfl
@[simp] theorem goto_tick (s : State) (a : Word) : (s.goto a).tick = s.tick := rfl
@[simp] theorem goto_tickFrac (s : State) (a : Word) : (s.goto a).tickFrac = s.tickFrac := rfl
@[simp] theorem goto_islPhase (s : State) (a : Word) : (s.goto a).islPhase = s.islPhase := rfl
@[simp] theorem goto_agenda (s : State) (a : Word) : (s.goto a).agenda = s.agenda := rfl
@[simp] theorem goto_inputs (s : State) (a : Word) : (s.goto a).inputs = s.inputs := rfl
@[simp] theorem goto_openSince (s : State) (a : Word) : (s.goto a).openSince = s.openSince := rfl
@[simp] theorem goto_core (s : State) (a : Word) : (s.goto a).core = s.core := rfl
@[simp] theorem goto_issue (s : State) (a : Word) : (s.goto a).issue = s.issue := rfl
@[simp] theorem goto_freeCount (s : State) (a : Word) : (s.goto a).freeCount = s.freeCount := rfl
@[simp] theorem goto_oracle (s : State) (a : Word) : (s.goto a).oracle = s.oracle := rfl
@[simp] theorem goto_out (s : State) (a : Word) : (s.goto a).out = s.out := rfl
@[simp] theorem goto_clusters (s : State) (a : Word) : (s.goto a).clusters = s.clusters := rfl
@[simp] theorem goto_stamps (s : State) (a : Word) : (s.goto a).stamps = s.stamps := rfl
@[simp] theorem goto_nextStamp (s : State) (a : Word) : (s.goto a).nextStamp = s.nextStamp := rfl
@[simp] theorem goto_hbm (s : State) (a : Word) : (s.goto a).hbm = s.hbm := rfl
@[simp] theorem goto_lost (s : State) (a : Word) : (s.goto a).lost = s.lost := rfl
@[simp] theorem goto_cp (s : State) (a : Word) : (s.goto a).cp = s.cp := rfl
@[simp] theorem goto_cpBanks (s : State) (a : Word) : (s.goto a).cpBanks = s.cpBanks := rfl
@[simp] theorem goto_slicesOff (s : State) (a : Word) : (s.goto a).slicesOff = s.slicesOff := rfl
@[simp] theorem goto_evicting (s : State) (a : Word) : (s.goto a).evicting = s.evicting := rfl
@[simp] theorem goto_bankUse (s : State) (a : Word) : (s.goto a).bankUse = s.bankUse := rfl
@[simp] theorem goto_way (s : State) (a : Word) : (s.goto a).way = s.way := rfl
@[simp] theorem goto_host (s : State) (a : Word) : (s.goto a).host = s.host := rfl
@[simp] theorem goto_saiga (s : State) (a : Word) : (s.goto a).saiga = s.saiga := rfl
@[simp] theorem goto_l2 (s : State) (a : Word) : (s.goto a).l2 = s.l2 := rfl
@[simp] theorem goto_pageClass (s : State) (a : Word) : (s.goto a).pageClass = s.pageClass := rfl
@[simp] theorem goto_classified (s : State) (a : Word) : (s.goto a).classified = s.classified := rfl
@[simp] theorem goto_lines (s : State) (a : Word) : (s.goto a).lines = s.lines := rfl
@[simp] theorem goto_halves (s : State) (a : Word) : (s.goto a).halves = s.halves := rfl
@[simp] theorem goto_cxl (s : State) (a : Word) : (s.goto a).cxl = s.cxl := rfl
@[simp] theorem goto_parts (s : State) (a : Word) : (s.goto a).parts = s.parts := rfl
@[simp] theorem goto_tasks (s : State) (a : Word) : (s.goto a).tasks = s.tasks := rfl
@[simp] theorem goto_nextTask (s : State) (a : Word) : (s.goto a).nextTask = s.nextTask := rfl
@[simp] theorem goto_signalsHere (s : State) (a : Word) : (s.goto a).signalsHere = s.signalsHere := rfl
@[simp] theorem goto_slotTab (s : State) (a : Word) : (s.goto a).slotTab = s.slotTab := rfl
@[simp] theorem goto_subreg (s : State) (a : Word) : (s.goto a).subreg = s.subreg := rfl
@[simp] theorem goto_launching (s : State) (a : Word) : (s.goto a).launching = s.launching := rfl
@[simp] theorem goto_substat (s : State) (a : Word) : (s.goto a).substat = s.substat := rfl
@[simp] theorem goto_evcfg (s : State) (a : Word) : (s.goto a).evcfg = s.evcfg := rfl
@[simp] theorem goto_evhead (s : State) (a : Word) : (s.goto a).evhead = s.evhead := rfl
@[simp] theorem goto_evtail (s : State) (a : Word) : (s.goto a).evtail = s.evtail := rfl
@[simp] theorem goto_evseq (s : State) (a : Word) : (s.goto a).evseq = s.evseq := rfl
@[simp] theorem goto_sgstat (s : State) (a : Word) : (s.goto a).sgstat = s.sgstat := rfl
@[simp] theorem goto_harts (s : State) (a : Word) : (s.goto a).harts = s.harts := rfl
@[simp] theorem goto_pair (s : State) (a : Word) : (s.goto a).pair = s.pair := rfl
@[simp] theorem goto_failingOver (s : State) (a : Word) : (s.goto a).failingOver = s.failingOver := rfl
@[simp] theorem goto_failFrom (s : State) (a : Word) : (s.goto a).failFrom = s.failFrom := rfl
@[simp] theorem goto_failedHart (s : State) (a : Word) : (s.goto a).failedHart = s.failedHart := rfl
@[simp] theorem goto_saigaOut (s : State) (a : Word) : (s.goto a).saigaOut = s.saigaOut := rfl
@[simp] theorem goto_pending (s : State) (a : Word) : (s.goto a).pending = s.pending := rfl
@[simp] theorem goto_prqcfg (s : State) (a : Word) : (s.goto a).prqcfg = s.prqcfg := rfl
@[simp] theorem goto_prqhead (s : State) (a : Word) : (s.goto a).prqhead = s.prqhead := rfl
@[simp] theorem goto_prqtail (s : State) (a : Word) : (s.goto a).prqtail = s.prqtail := rfl
@[simp] theorem goto_pageReqs (s : State) (a : Word) : (s.goto a).pageReqs = s.pageReqs := rfl
@[simp] theorem goto_nextReq (s : State) (a : Word) : (s.goto a).nextReq = s.nextReq := rfl
@[simp] theorem goto_tlbinv (s : State) (a : Word) : (s.goto a).tlbinv = s.tlbinv := rfl
@[simp] theorem goto_tlbinvsz (s : State) (a : Word) : (s.goto a).tlbinvsz = s.tlbinvsz := rfl
@[simp] theorem goto_pidx (s : State) (a : Word) : (s.goto a).pidx = s.pidx := rfl
@[simp] theorem goto_alidx (s : State) (a : Word) : (s.goto a).alidx = s.alidx := rfl
@[simp] theorem goto_patidx (s : State) (a : Word) : (s.goto a).patidx = s.patidx := rfl
@[simp] theorem goto_blkidx (s : State) (a : Word) : (s.goto a).blkidx = s.blkidx := rfl
@[simp] theorem goto_occsel (s : State) (a : Word) : (s.goto a).occsel = s.occsel := rfl
@[simp] theorem goto_lchidx (s : State) (a : Word) : (s.goto a).lchidx = s.lchidx := rfl
@[simp] theorem goto_pwidx (s : State) (a : Word) : (s.goto a).pwidx = s.pwidx := rfl
@[simp] theorem goto_islidx (s : State) (a : Word) : (s.goto a).islidx = s.islidx := rfl
@[simp] theorem goto_pat (s : State) (a : Word) : (s.goto a).pat = s.pat := rfl
@[simp] theorem goto_blkcls (s : State) (a : Word) : (s.goto a).blkcls = s.blkcls := rfl
@[simp] theorem goto_mr (s : State) (a : Word) : (s.goto a).mr = s.mr := rfl
@[simp] theorem goto_mrext (s : State) (a : Word) : (s.goto a).mrext = s.mrext := rfl
@[simp] theorem goto_audw (s : State) (a : Word) : (s.goto a).audw = s.audw := rfl
@[simp] theorem goto_audit (s : State) (a : Word) : (s.goto a).audit = s.audit := rfl
@[simp] theorem goto_chain (s : State) (a : Word) : (s.goto a).chain = s.chain := rfl
@[simp] theorem goto_lastAudit (s : State) (a : Word) : (s.goto a).lastAudit = s.lastAudit := rfl
@[simp] theorem goto_sinceCkpt (s : State) (a : Word) : (s.goto a).sinceCkpt = s.sinceCkpt := rfl
@[simp] theorem goto_ckpt (s : State) (a : Word) : (s.goto a).ckpt = s.ckpt := rfl
@[simp] theorem goto_spdmSession (s : State) (a : Word) : (s.goto a).spdmSession = s.spdmSession := rfl
@[simp] theorem goto_transcript (s : State) (a : Word) : (s.goto a).transcript = s.transcript := rfl
@[simp] theorem goto_ideKeys (s : State) (a : Word) : (s.goto a).ideKeys = s.ideKeys := rfl
@[simp] theorem goto_delivered (s : State) (a : Word) : (s.goto a).delivered = s.delivered := rfl
@[simp] theorem goto_derived (s : State) (a : Word) : (s.goto a).derived = s.derived := rfl
@[simp] theorem goto_nextRegion (s : State) (a : Word) : (s.goto a).nextRegion = s.nextRegion := rfl
@[simp] theorem goto_held (s : State) (a : Word) : (s.goto a).held = s.held := rfl
@[simp] theorem goto_pkgNo (s : State) (a : Word) : (s.goto a).pkgNo = s.pkgNo := rfl
@[simp] theorem goto_lchan (s : State) (a : Word) : (s.goto a).lchan = s.lchan := rfl
@[simp] theorem goto_lchoff (s : State) (a : Word) : (s.goto a).lchoff = s.lchoff := rfl
@[simp] theorem goto_lchRet (s : State) (a : Word) : (s.goto a).lchRet = s.lchRet := rfl
@[simp] theorem goto_deadLanes (s : State) (a : Word) : (s.goto a).deadLanes = s.deadLanes := rfl
@[simp] theorem goto_posted (s : State) (a : Word) : (s.goto a).posted = s.posted := rfl
@[simp] theorem goto_replicas (s : State) (a : Word) : (s.goto a).replicas = s.replicas := rfl
@[simp] theorem goto_nextSeq (s : State) (a : Word) : (s.goto a).nextSeq = s.nextSeq := rfl
@[simp] theorem goto_rpSent (s : State) (a : Word) : (s.goto a).rpSent = s.rpSent := rfl
@[simp] theorem goto_rpNext (s : State) (a : Word) : (s.goto a).rpNext = s.rpNext := rfl
@[simp] theorem goto_rpWait (s : State) (a : Word) : (s.goto a).rpWait = s.rpWait := rfl
@[simp] theorem goto_rpHome (s : State) (a : Word) : (s.goto a).rpHome = s.rpHome := rfl
@[simp] theorem goto_rpHolders (s : State) (a : Word) : (s.goto a).rpHolders = s.rpHolders := rfl
@[simp] theorem goto_bootst (s : State) (a : Word) : (s.goto a).bootst = s.bootst := rfl
@[simp] theorem goto_pwrgd (s : State) (a : Word) : (s.goto a).pwrgd = s.pwrgd := rfl
@[simp] theorem goto_thermtrip (s : State) (a : Word) : (s.goto a).thermtrip = s.thermtrip := rfl
@[simp] theorem goto_tripped (s : State) (a : Word) : (s.goto a).tripped = s.tripped := rfl
@[simp] theorem goto_alert (s : State) (a : Word) : (s.goto a).alert = s.alert := rfl
@[simp] theorem goto_hostDead (s : State) (a : Word) : (s.goto a).hostDead = s.hostDead := rfl
@[simp] theorem goto_hostOld (s : State) (a : Word) : (s.goto a).hostOld = s.hostOld := rfl
@[simp] theorem goto_resetFrom (s : State) (a : Word) : (s.goto a).resetFrom = s.resetFrom := rfl
@[simp] theorem goto_gating (s : State) (a : Word) : (s.goto a).gating = s.gating := rfl
@[simp] theorem goto_islctl (s : State) (a : Word) : (s.goto a).islctl = s.islctl := rfl
@[simp] theorem goto_throttled (s : State) (a : Word) : (s.goto a).throttled = s.throttled := rfl
@[simp] theorem goto_powerLow (s : State) (a : Word) : (s.goto a).powerLow = s.powerLow := rfl
@[simp] theorem goto_pwrlim (s : State) (a : Word) : (s.goto a).pwrlim = s.pwrlim := rfl
@[simp] theorem goto_pkgctl (s : State) (a : Word) : (s.goto a).pkgctl = s.pkgctl := rfl
@[simp] theorem goto_exiting (s : State) (a : Word) : (s.goto a).exiting = s.exiting := rfl

/-! ### `setWait` -/

@[simp] theorem setWait_cycle (s : State) (w : Wait) : (s.setWait w).cycle = s.cycle := rfl
@[simp] theorem setWait_tick (s : State) (w : Wait) : (s.setWait w).tick = s.tick := rfl
@[simp] theorem setWait_tickFrac (s : State) (w : Wait) : (s.setWait w).tickFrac = s.tickFrac := rfl
@[simp] theorem setWait_islPhase (s : State) (w : Wait) : (s.setWait w).islPhase = s.islPhase := rfl
@[simp] theorem setWait_agenda (s : State) (w : Wait) : (s.setWait w).agenda = s.agenda := rfl
@[simp] theorem setWait_inputs (s : State) (w : Wait) : (s.setWait w).inputs = s.inputs := rfl
@[simp] theorem setWait_openSince (s : State) (w : Wait) : (s.setWait w).openSince = s.openSince := rfl
@[simp] theorem setWait_core (s : State) (w : Wait) : (s.setWait w).core = s.core := rfl
@[simp] theorem setWait_issue (s : State) (w : Wait) : (s.setWait w).issue = s.issue := rfl
@[simp] theorem setWait_freeCount (s : State) (w : Wait) : (s.setWait w).freeCount = s.freeCount := rfl
@[simp] theorem setWait_oracle (s : State) (w : Wait) : (s.setWait w).oracle = s.oracle := rfl
@[simp] theorem setWait_out (s : State) (w : Wait) : (s.setWait w).out = s.out := rfl
@[simp] theorem setWait_clusters (s : State) (w : Wait) : (s.setWait w).clusters = s.clusters := rfl
@[simp] theorem setWait_stamps (s : State) (w : Wait) : (s.setWait w).stamps = s.stamps := rfl
@[simp] theorem setWait_nextStamp (s : State) (w : Wait) : (s.setWait w).nextStamp = s.nextStamp := rfl
@[simp] theorem setWait_hbm (s : State) (w : Wait) : (s.setWait w).hbm = s.hbm := rfl
@[simp] theorem setWait_lost (s : State) (w : Wait) : (s.setWait w).lost = s.lost := rfl
@[simp] theorem setWait_cp (s : State) (w : Wait) : (s.setWait w).cp = s.cp := rfl
@[simp] theorem setWait_cpBanks (s : State) (w : Wait) : (s.setWait w).cpBanks = s.cpBanks := rfl
@[simp] theorem setWait_slicesOff (s : State) (w : Wait) : (s.setWait w).slicesOff = s.slicesOff := rfl
@[simp] theorem setWait_evicting (s : State) (w : Wait) : (s.setWait w).evicting = s.evicting := rfl
@[simp] theorem setWait_bankUse (s : State) (w : Wait) : (s.setWait w).bankUse = s.bankUse := rfl
@[simp] theorem setWait_way (s : State) (w : Wait) : (s.setWait w).way = s.way := rfl
@[simp] theorem setWait_host (s : State) (w : Wait) : (s.setWait w).host = s.host := rfl
@[simp] theorem setWait_saiga (s : State) (w : Wait) : (s.setWait w).saiga = s.saiga := rfl
@[simp] theorem setWait_l2 (s : State) (w : Wait) : (s.setWait w).l2 = s.l2 := rfl
@[simp] theorem setWait_pageClass (s : State) (w : Wait) : (s.setWait w).pageClass = s.pageClass := rfl
@[simp] theorem setWait_classified (s : State) (w : Wait) : (s.setWait w).classified = s.classified := rfl
@[simp] theorem setWait_lines (s : State) (w : Wait) : (s.setWait w).lines = s.lines := rfl
@[simp] theorem setWait_halves (s : State) (w : Wait) : (s.setWait w).halves = s.halves := rfl
@[simp] theorem setWait_cxl (s : State) (w : Wait) : (s.setWait w).cxl = s.cxl := rfl
@[simp] theorem setWait_parts (s : State) (w : Wait) : (s.setWait w).parts = s.parts := rfl
@[simp] theorem setWait_tasks (s : State) (w : Wait) : (s.setWait w).tasks = s.tasks := rfl
@[simp] theorem setWait_nextTask (s : State) (w : Wait) : (s.setWait w).nextTask = s.nextTask := rfl
@[simp] theorem setWait_signalsHere (s : State) (w : Wait) : (s.setWait w).signalsHere = s.signalsHere := rfl
@[simp] theorem setWait_slotTab (s : State) (w : Wait) : (s.setWait w).slotTab = s.slotTab := rfl
@[simp] theorem setWait_subreg (s : State) (w : Wait) : (s.setWait w).subreg = s.subreg := rfl
@[simp] theorem setWait_launching (s : State) (w : Wait) : (s.setWait w).launching = s.launching := rfl
@[simp] theorem setWait_substat (s : State) (w : Wait) : (s.setWait w).substat = s.substat := rfl
@[simp] theorem setWait_evcfg (s : State) (w : Wait) : (s.setWait w).evcfg = s.evcfg := rfl
@[simp] theorem setWait_evhead (s : State) (w : Wait) : (s.setWait w).evhead = s.evhead := rfl
@[simp] theorem setWait_evtail (s : State) (w : Wait) : (s.setWait w).evtail = s.evtail := rfl
@[simp] theorem setWait_evseq (s : State) (w : Wait) : (s.setWait w).evseq = s.evseq := rfl
@[simp] theorem setWait_sgstat (s : State) (w : Wait) : (s.setWait w).sgstat = s.sgstat := rfl
@[simp] theorem setWait_harts (s : State) (w : Wait) : (s.setWait w).harts = s.harts := rfl
@[simp] theorem setWait_pair (s : State) (w : Wait) : (s.setWait w).pair = s.pair := rfl
@[simp] theorem setWait_failingOver (s : State) (w : Wait) : (s.setWait w).failingOver = s.failingOver := rfl
@[simp] theorem setWait_failFrom (s : State) (w : Wait) : (s.setWait w).failFrom = s.failFrom := rfl
@[simp] theorem setWait_failedHart (s : State) (w : Wait) : (s.setWait w).failedHart = s.failedHart := rfl
@[simp] theorem setWait_saigaOut (s : State) (w : Wait) : (s.setWait w).saigaOut = s.saigaOut := rfl
@[simp] theorem setWait_pending (s : State) (w : Wait) : (s.setWait w).pending = s.pending := rfl
@[simp] theorem setWait_prqcfg (s : State) (w : Wait) : (s.setWait w).prqcfg = s.prqcfg := rfl
@[simp] theorem setWait_prqhead (s : State) (w : Wait) : (s.setWait w).prqhead = s.prqhead := rfl
@[simp] theorem setWait_prqtail (s : State) (w : Wait) : (s.setWait w).prqtail = s.prqtail := rfl
@[simp] theorem setWait_pageReqs (s : State) (w : Wait) : (s.setWait w).pageReqs = s.pageReqs := rfl
@[simp] theorem setWait_nextReq (s : State) (w : Wait) : (s.setWait w).nextReq = s.nextReq := rfl
@[simp] theorem setWait_tlbinv (s : State) (w : Wait) : (s.setWait w).tlbinv = s.tlbinv := rfl
@[simp] theorem setWait_tlbinvsz (s : State) (w : Wait) : (s.setWait w).tlbinvsz = s.tlbinvsz := rfl
@[simp] theorem setWait_pidx (s : State) (w : Wait) : (s.setWait w).pidx = s.pidx := rfl
@[simp] theorem setWait_alidx (s : State) (w : Wait) : (s.setWait w).alidx = s.alidx := rfl
@[simp] theorem setWait_patidx (s : State) (w : Wait) : (s.setWait w).patidx = s.patidx := rfl
@[simp] theorem setWait_blkidx (s : State) (w : Wait) : (s.setWait w).blkidx = s.blkidx := rfl
@[simp] theorem setWait_occsel (s : State) (w : Wait) : (s.setWait w).occsel = s.occsel := rfl
@[simp] theorem setWait_lchidx (s : State) (w : Wait) : (s.setWait w).lchidx = s.lchidx := rfl
@[simp] theorem setWait_pwidx (s : State) (w : Wait) : (s.setWait w).pwidx = s.pwidx := rfl
@[simp] theorem setWait_islidx (s : State) (w : Wait) : (s.setWait w).islidx = s.islidx := rfl
@[simp] theorem setWait_pat (s : State) (w : Wait) : (s.setWait w).pat = s.pat := rfl
@[simp] theorem setWait_blkcls (s : State) (w : Wait) : (s.setWait w).blkcls = s.blkcls := rfl
@[simp] theorem setWait_mr (s : State) (w : Wait) : (s.setWait w).mr = s.mr := rfl
@[simp] theorem setWait_mrext (s : State) (w : Wait) : (s.setWait w).mrext = s.mrext := rfl
@[simp] theorem setWait_audw (s : State) (w : Wait) : (s.setWait w).audw = s.audw := rfl
@[simp] theorem setWait_audit (s : State) (w : Wait) : (s.setWait w).audit = s.audit := rfl
@[simp] theorem setWait_chain (s : State) (w : Wait) : (s.setWait w).chain = s.chain := rfl
@[simp] theorem setWait_lastAudit (s : State) (w : Wait) : (s.setWait w).lastAudit = s.lastAudit := rfl
@[simp] theorem setWait_sinceCkpt (s : State) (w : Wait) : (s.setWait w).sinceCkpt = s.sinceCkpt := rfl
@[simp] theorem setWait_ckpt (s : State) (w : Wait) : (s.setWait w).ckpt = s.ckpt := rfl
@[simp] theorem setWait_spdmSession (s : State) (w : Wait) : (s.setWait w).spdmSession = s.spdmSession := rfl
@[simp] theorem setWait_transcript (s : State) (w : Wait) : (s.setWait w).transcript = s.transcript := rfl
@[simp] theorem setWait_ideKeys (s : State) (w : Wait) : (s.setWait w).ideKeys = s.ideKeys := rfl
@[simp] theorem setWait_delivered (s : State) (w : Wait) : (s.setWait w).delivered = s.delivered := rfl
@[simp] theorem setWait_derived (s : State) (w : Wait) : (s.setWait w).derived = s.derived := rfl
@[simp] theorem setWait_nextRegion (s : State) (w : Wait) : (s.setWait w).nextRegion = s.nextRegion := rfl
@[simp] theorem setWait_held (s : State) (w : Wait) : (s.setWait w).held = s.held := rfl
@[simp] theorem setWait_pkgNo (s : State) (w : Wait) : (s.setWait w).pkgNo = s.pkgNo := rfl
@[simp] theorem setWait_lchan (s : State) (w : Wait) : (s.setWait w).lchan = s.lchan := rfl
@[simp] theorem setWait_lchoff (s : State) (w : Wait) : (s.setWait w).lchoff = s.lchoff := rfl
@[simp] theorem setWait_lchRet (s : State) (w : Wait) : (s.setWait w).lchRet = s.lchRet := rfl
@[simp] theorem setWait_deadLanes (s : State) (w : Wait) : (s.setWait w).deadLanes = s.deadLanes := rfl
@[simp] theorem setWait_posted (s : State) (w : Wait) : (s.setWait w).posted = s.posted := rfl
@[simp] theorem setWait_replicas (s : State) (w : Wait) : (s.setWait w).replicas = s.replicas := rfl
@[simp] theorem setWait_nextSeq (s : State) (w : Wait) : (s.setWait w).nextSeq = s.nextSeq := rfl
@[simp] theorem setWait_rpSent (s : State) (w : Wait) : (s.setWait w).rpSent = s.rpSent := rfl
@[simp] theorem setWait_rpNext (s : State) (w : Wait) : (s.setWait w).rpNext = s.rpNext := rfl
@[simp] theorem setWait_rpWait (s : State) (w : Wait) : (s.setWait w).rpWait = s.rpWait := rfl
@[simp] theorem setWait_rpHome (s : State) (w : Wait) : (s.setWait w).rpHome = s.rpHome := rfl
@[simp] theorem setWait_rpHolders (s : State) (w : Wait) : (s.setWait w).rpHolders = s.rpHolders := rfl
@[simp] theorem setWait_bootst (s : State) (w : Wait) : (s.setWait w).bootst = s.bootst := rfl
@[simp] theorem setWait_pwrgd (s : State) (w : Wait) : (s.setWait w).pwrgd = s.pwrgd := rfl
@[simp] theorem setWait_thermtrip (s : State) (w : Wait) : (s.setWait w).thermtrip = s.thermtrip := rfl
@[simp] theorem setWait_tripped (s : State) (w : Wait) : (s.setWait w).tripped = s.tripped := rfl
@[simp] theorem setWait_alert (s : State) (w : Wait) : (s.setWait w).alert = s.alert := rfl
@[simp] theorem setWait_hostDead (s : State) (w : Wait) : (s.setWait w).hostDead = s.hostDead := rfl
@[simp] theorem setWait_hostOld (s : State) (w : Wait) : (s.setWait w).hostOld = s.hostOld := rfl
@[simp] theorem setWait_resetFrom (s : State) (w : Wait) : (s.setWait w).resetFrom = s.resetFrom := rfl
@[simp] theorem setWait_gating (s : State) (w : Wait) : (s.setWait w).gating = s.gating := rfl
@[simp] theorem setWait_islctl (s : State) (w : Wait) : (s.setWait w).islctl = s.islctl := rfl
@[simp] theorem setWait_throttled (s : State) (w : Wait) : (s.setWait w).throttled = s.throttled := rfl
@[simp] theorem setWait_powerLow (s : State) (w : Wait) : (s.setWait w).powerLow = s.powerLow := rfl
@[simp] theorem setWait_pwrlim (s : State) (w : Wait) : (s.setWait w).pwrlim = s.pwrlim := rfl
@[simp] theorem setWait_pkgctl (s : State) (w : Wait) : (s.setWait w).pkgctl = s.pkgctl := rfl
@[simp] theorem setWait_exiting (s : State) (w : Wait) : (s.setWait w).exiting = s.exiting := rfl

/-! ### `result` -/

@[simp] theorem result_cycle (s : State) (d : Reg) (v : Word) (p : Bool) (n : Nat) : (s.result d v p n).cycle = s.cycle := rfl
@[simp] theorem result_tick (s : State) (d : Reg) (v : Word) (p : Bool) (n : Nat) : (s.result d v p n).tick = s.tick := rfl
@[simp] theorem result_tickFrac (s : State) (d : Reg) (v : Word) (p : Bool) (n : Nat) : (s.result d v p n).tickFrac = s.tickFrac := rfl
@[simp] theorem result_islPhase (s : State) (d : Reg) (v : Word) (p : Bool) (n : Nat) : (s.result d v p n).islPhase = s.islPhase := rfl
@[simp] theorem result_agenda (s : State) (d : Reg) (v : Word) (p : Bool) (n : Nat) : (s.result d v p n).agenda = s.agenda := rfl
@[simp] theorem result_inputs (s : State) (d : Reg) (v : Word) (p : Bool) (n : Nat) : (s.result d v p n).inputs = s.inputs := rfl
@[simp] theorem result_openSince (s : State) (d : Reg) (v : Word) (p : Bool) (n : Nat) : (s.result d v p n).openSince = s.openSince := rfl
@[simp] theorem result_core (s : State) (d : Reg) (v : Word) (p : Bool) (n : Nat) : (s.result d v p n).core = s.core := rfl
@[simp] theorem result_issue (s : State) (d : Reg) (v : Word) (p : Bool) (n : Nat) : (s.result d v p n).issue = s.issue := rfl
@[simp] theorem result_freeCount (s : State) (d : Reg) (v : Word) (p : Bool) (n : Nat) : (s.result d v p n).freeCount = s.freeCount := rfl
@[simp] theorem result_oracle (s : State) (d : Reg) (v : Word) (p : Bool) (n : Nat) : (s.result d v p n).oracle = s.oracle := rfl
@[simp] theorem result_out (s : State) (d : Reg) (v : Word) (p : Bool) (n : Nat) : (s.result d v p n).out = s.out := rfl
@[simp] theorem result_clusters (s : State) (d : Reg) (v : Word) (p : Bool) (n : Nat) : (s.result d v p n).clusters = s.clusters := rfl
@[simp] theorem result_stamps (s : State) (d : Reg) (v : Word) (p : Bool) (n : Nat) : (s.result d v p n).stamps = s.stamps := rfl
@[simp] theorem result_nextStamp (s : State) (d : Reg) (v : Word) (p : Bool) (n : Nat) : (s.result d v p n).nextStamp = s.nextStamp := rfl
@[simp] theorem result_hbm (s : State) (d : Reg) (v : Word) (p : Bool) (n : Nat) : (s.result d v p n).hbm = s.hbm := rfl
@[simp] theorem result_lost (s : State) (d : Reg) (v : Word) (p : Bool) (n : Nat) : (s.result d v p n).lost = s.lost := rfl
@[simp] theorem result_cp (s : State) (d : Reg) (v : Word) (p : Bool) (n : Nat) : (s.result d v p n).cp = s.cp := rfl
@[simp] theorem result_cpBanks (s : State) (d : Reg) (v : Word) (p : Bool) (n : Nat) : (s.result d v p n).cpBanks = s.cpBanks := rfl
@[simp] theorem result_slicesOff (s : State) (d : Reg) (v : Word) (p : Bool) (n : Nat) : (s.result d v p n).slicesOff = s.slicesOff := rfl
@[simp] theorem result_evicting (s : State) (d : Reg) (v : Word) (p : Bool) (n : Nat) : (s.result d v p n).evicting = s.evicting := rfl
@[simp] theorem result_bankUse (s : State) (d : Reg) (v : Word) (p : Bool) (n : Nat) : (s.result d v p n).bankUse = s.bankUse := rfl
@[simp] theorem result_way (s : State) (d : Reg) (v : Word) (p : Bool) (n : Nat) : (s.result d v p n).way = s.way := rfl
@[simp] theorem result_host (s : State) (d : Reg) (v : Word) (p : Bool) (n : Nat) : (s.result d v p n).host = s.host := rfl
@[simp] theorem result_saiga (s : State) (d : Reg) (v : Word) (p : Bool) (n : Nat) : (s.result d v p n).saiga = s.saiga := rfl
@[simp] theorem result_l2 (s : State) (d : Reg) (v : Word) (p : Bool) (n : Nat) : (s.result d v p n).l2 = s.l2 := rfl
@[simp] theorem result_pageClass (s : State) (d : Reg) (v : Word) (p : Bool) (n : Nat) : (s.result d v p n).pageClass = s.pageClass := rfl
@[simp] theorem result_classified (s : State) (d : Reg) (v : Word) (p : Bool) (n : Nat) : (s.result d v p n).classified = s.classified := rfl
@[simp] theorem result_lines (s : State) (d : Reg) (v : Word) (p : Bool) (n : Nat) : (s.result d v p n).lines = s.lines := rfl
@[simp] theorem result_halves (s : State) (d : Reg) (v : Word) (p : Bool) (n : Nat) : (s.result d v p n).halves = s.halves := rfl
@[simp] theorem result_cxl (s : State) (d : Reg) (v : Word) (p : Bool) (n : Nat) : (s.result d v p n).cxl = s.cxl := rfl
@[simp] theorem result_parts (s : State) (d : Reg) (v : Word) (p : Bool) (n : Nat) : (s.result d v p n).parts = s.parts := rfl
@[simp] theorem result_tasks (s : State) (d : Reg) (v : Word) (p : Bool) (n : Nat) : (s.result d v p n).tasks = s.tasks := rfl
@[simp] theorem result_nextTask (s : State) (d : Reg) (v : Word) (p : Bool) (n : Nat) : (s.result d v p n).nextTask = s.nextTask := rfl
@[simp] theorem result_signalsHere (s : State) (d : Reg) (v : Word) (p : Bool) (n : Nat) : (s.result d v p n).signalsHere = s.signalsHere := rfl
@[simp] theorem result_slotTab (s : State) (d : Reg) (v : Word) (p : Bool) (n : Nat) : (s.result d v p n).slotTab = s.slotTab := rfl
@[simp] theorem result_subreg (s : State) (d : Reg) (v : Word) (p : Bool) (n : Nat) : (s.result d v p n).subreg = s.subreg := rfl
@[simp] theorem result_launching (s : State) (d : Reg) (v : Word) (p : Bool) (n : Nat) : (s.result d v p n).launching = s.launching := rfl
@[simp] theorem result_substat (s : State) (d : Reg) (v : Word) (p : Bool) (n : Nat) : (s.result d v p n).substat = s.substat := rfl
@[simp] theorem result_evcfg (s : State) (d : Reg) (v : Word) (p : Bool) (n : Nat) : (s.result d v p n).evcfg = s.evcfg := rfl
@[simp] theorem result_evhead (s : State) (d : Reg) (v : Word) (p : Bool) (n : Nat) : (s.result d v p n).evhead = s.evhead := rfl
@[simp] theorem result_evtail (s : State) (d : Reg) (v : Word) (p : Bool) (n : Nat) : (s.result d v p n).evtail = s.evtail := rfl
@[simp] theorem result_evseq (s : State) (d : Reg) (v : Word) (p : Bool) (n : Nat) : (s.result d v p n).evseq = s.evseq := rfl
@[simp] theorem result_sgstat (s : State) (d : Reg) (v : Word) (p : Bool) (n : Nat) : (s.result d v p n).sgstat = s.sgstat := rfl
@[simp] theorem result_harts (s : State) (d : Reg) (v : Word) (p : Bool) (n : Nat) : (s.result d v p n).harts = s.harts := rfl
@[simp] theorem result_pair (s : State) (d : Reg) (v : Word) (p : Bool) (n : Nat) : (s.result d v p n).pair = s.pair := rfl
@[simp] theorem result_failingOver (s : State) (d : Reg) (v : Word) (p : Bool) (n : Nat) : (s.result d v p n).failingOver = s.failingOver := rfl
@[simp] theorem result_failFrom (s : State) (d : Reg) (v : Word) (p : Bool) (n : Nat) : (s.result d v p n).failFrom = s.failFrom := rfl
@[simp] theorem result_failedHart (s : State) (d : Reg) (v : Word) (p : Bool) (n : Nat) : (s.result d v p n).failedHart = s.failedHart := rfl
@[simp] theorem result_saigaOut (s : State) (d : Reg) (v : Word) (p : Bool) (n : Nat) : (s.result d v p n).saigaOut = s.saigaOut := rfl
@[simp] theorem result_pending (s : State) (d : Reg) (v : Word) (p : Bool) (n : Nat) : (s.result d v p n).pending = s.pending := rfl
@[simp] theorem result_prqcfg (s : State) (d : Reg) (v : Word) (p : Bool) (n : Nat) : (s.result d v p n).prqcfg = s.prqcfg := rfl
@[simp] theorem result_prqhead (s : State) (d : Reg) (v : Word) (p : Bool) (n : Nat) : (s.result d v p n).prqhead = s.prqhead := rfl
@[simp] theorem result_prqtail (s : State) (d : Reg) (v : Word) (p : Bool) (n : Nat) : (s.result d v p n).prqtail = s.prqtail := rfl
@[simp] theorem result_pageReqs (s : State) (d : Reg) (v : Word) (p : Bool) (n : Nat) : (s.result d v p n).pageReqs = s.pageReqs := rfl
@[simp] theorem result_nextReq (s : State) (d : Reg) (v : Word) (p : Bool) (n : Nat) : (s.result d v p n).nextReq = s.nextReq := rfl
@[simp] theorem result_tlbinv (s : State) (d : Reg) (v : Word) (p : Bool) (n : Nat) : (s.result d v p n).tlbinv = s.tlbinv := rfl
@[simp] theorem result_tlbinvsz (s : State) (d : Reg) (v : Word) (p : Bool) (n : Nat) : (s.result d v p n).tlbinvsz = s.tlbinvsz := rfl
@[simp] theorem result_pidx (s : State) (d : Reg) (v : Word) (p : Bool) (n : Nat) : (s.result d v p n).pidx = s.pidx := rfl
@[simp] theorem result_alidx (s : State) (d : Reg) (v : Word) (p : Bool) (n : Nat) : (s.result d v p n).alidx = s.alidx := rfl
@[simp] theorem result_patidx (s : State) (d : Reg) (v : Word) (p : Bool) (n : Nat) : (s.result d v p n).patidx = s.patidx := rfl
@[simp] theorem result_blkidx (s : State) (d : Reg) (v : Word) (p : Bool) (n : Nat) : (s.result d v p n).blkidx = s.blkidx := rfl
@[simp] theorem result_occsel (s : State) (d : Reg) (v : Word) (p : Bool) (n : Nat) : (s.result d v p n).occsel = s.occsel := rfl
@[simp] theorem result_lchidx (s : State) (d : Reg) (v : Word) (p : Bool) (n : Nat) : (s.result d v p n).lchidx = s.lchidx := rfl
@[simp] theorem result_pwidx (s : State) (d : Reg) (v : Word) (p : Bool) (n : Nat) : (s.result d v p n).pwidx = s.pwidx := rfl
@[simp] theorem result_islidx (s : State) (d : Reg) (v : Word) (p : Bool) (n : Nat) : (s.result d v p n).islidx = s.islidx := rfl
@[simp] theorem result_pat (s : State) (d : Reg) (v : Word) (p : Bool) (n : Nat) : (s.result d v p n).pat = s.pat := rfl
@[simp] theorem result_blkcls (s : State) (d : Reg) (v : Word) (p : Bool) (n : Nat) : (s.result d v p n).blkcls = s.blkcls := rfl
@[simp] theorem result_mr (s : State) (d : Reg) (v : Word) (p : Bool) (n : Nat) : (s.result d v p n).mr = s.mr := rfl
@[simp] theorem result_mrext (s : State) (d : Reg) (v : Word) (p : Bool) (n : Nat) : (s.result d v p n).mrext = s.mrext := rfl
@[simp] theorem result_audw (s : State) (d : Reg) (v : Word) (p : Bool) (n : Nat) : (s.result d v p n).audw = s.audw := rfl
@[simp] theorem result_audit (s : State) (d : Reg) (v : Word) (p : Bool) (n : Nat) : (s.result d v p n).audit = s.audit := rfl
@[simp] theorem result_chain (s : State) (d : Reg) (v : Word) (p : Bool) (n : Nat) : (s.result d v p n).chain = s.chain := rfl
@[simp] theorem result_lastAudit (s : State) (d : Reg) (v : Word) (p : Bool) (n : Nat) : (s.result d v p n).lastAudit = s.lastAudit := rfl
@[simp] theorem result_sinceCkpt (s : State) (d : Reg) (v : Word) (p : Bool) (n : Nat) : (s.result d v p n).sinceCkpt = s.sinceCkpt := rfl
@[simp] theorem result_ckpt (s : State) (d : Reg) (v : Word) (p : Bool) (n : Nat) : (s.result d v p n).ckpt = s.ckpt := rfl
@[simp] theorem result_spdmSession (s : State) (d : Reg) (v : Word) (p : Bool) (n : Nat) : (s.result d v p n).spdmSession = s.spdmSession := rfl
@[simp] theorem result_transcript (s : State) (d : Reg) (v : Word) (p : Bool) (n : Nat) : (s.result d v p n).transcript = s.transcript := rfl
@[simp] theorem result_ideKeys (s : State) (d : Reg) (v : Word) (p : Bool) (n : Nat) : (s.result d v p n).ideKeys = s.ideKeys := rfl
@[simp] theorem result_delivered (s : State) (d : Reg) (v : Word) (p : Bool) (n : Nat) : (s.result d v p n).delivered = s.delivered := rfl
@[simp] theorem result_derived (s : State) (d : Reg) (v : Word) (p : Bool) (n : Nat) : (s.result d v p n).derived = s.derived := rfl
@[simp] theorem result_nextRegion (s : State) (d : Reg) (v : Word) (p : Bool) (n : Nat) : (s.result d v p n).nextRegion = s.nextRegion := rfl
@[simp] theorem result_held (s : State) (d : Reg) (v : Word) (p : Bool) (n : Nat) : (s.result d v p n).held = s.held := rfl
@[simp] theorem result_pkgNo (s : State) (d : Reg) (v : Word) (p : Bool) (n : Nat) : (s.result d v p n).pkgNo = s.pkgNo := rfl
@[simp] theorem result_lchan (s : State) (d : Reg) (v : Word) (p : Bool) (n : Nat) : (s.result d v p n).lchan = s.lchan := rfl
@[simp] theorem result_lchoff (s : State) (d : Reg) (v : Word) (p : Bool) (n : Nat) : (s.result d v p n).lchoff = s.lchoff := rfl
@[simp] theorem result_lchRet (s : State) (d : Reg) (v : Word) (p : Bool) (n : Nat) : (s.result d v p n).lchRet = s.lchRet := rfl
@[simp] theorem result_deadLanes (s : State) (d : Reg) (v : Word) (p : Bool) (n : Nat) : (s.result d v p n).deadLanes = s.deadLanes := rfl
@[simp] theorem result_posted (s : State) (d : Reg) (v : Word) (p : Bool) (n : Nat) : (s.result d v p n).posted = s.posted := rfl
@[simp] theorem result_replicas (s : State) (d : Reg) (v : Word) (p : Bool) (n : Nat) : (s.result d v p n).replicas = s.replicas := rfl
@[simp] theorem result_nextSeq (s : State) (d : Reg) (v : Word) (p : Bool) (n : Nat) : (s.result d v p n).nextSeq = s.nextSeq := rfl
@[simp] theorem result_rpSent (s : State) (d : Reg) (v : Word) (p : Bool) (n : Nat) : (s.result d v p n).rpSent = s.rpSent := rfl
@[simp] theorem result_rpNext (s : State) (d : Reg) (v : Word) (p : Bool) (n : Nat) : (s.result d v p n).rpNext = s.rpNext := rfl
@[simp] theorem result_rpWait (s : State) (d : Reg) (v : Word) (p : Bool) (n : Nat) : (s.result d v p n).rpWait = s.rpWait := rfl
@[simp] theorem result_rpHome (s : State) (d : Reg) (v : Word) (p : Bool) (n : Nat) : (s.result d v p n).rpHome = s.rpHome := rfl
@[simp] theorem result_rpHolders (s : State) (d : Reg) (v : Word) (p : Bool) (n : Nat) : (s.result d v p n).rpHolders = s.rpHolders := rfl
@[simp] theorem result_bootst (s : State) (d : Reg) (v : Word) (p : Bool) (n : Nat) : (s.result d v p n).bootst = s.bootst := rfl
@[simp] theorem result_pwrgd (s : State) (d : Reg) (v : Word) (p : Bool) (n : Nat) : (s.result d v p n).pwrgd = s.pwrgd := rfl
@[simp] theorem result_thermtrip (s : State) (d : Reg) (v : Word) (p : Bool) (n : Nat) : (s.result d v p n).thermtrip = s.thermtrip := rfl
@[simp] theorem result_tripped (s : State) (d : Reg) (v : Word) (p : Bool) (n : Nat) : (s.result d v p n).tripped = s.tripped := rfl
@[simp] theorem result_alert (s : State) (d : Reg) (v : Word) (p : Bool) (n : Nat) : (s.result d v p n).alert = s.alert := rfl
@[simp] theorem result_hostDead (s : State) (d : Reg) (v : Word) (p : Bool) (n : Nat) : (s.result d v p n).hostDead = s.hostDead := rfl
@[simp] theorem result_hostOld (s : State) (d : Reg) (v : Word) (p : Bool) (n : Nat) : (s.result d v p n).hostOld = s.hostOld := rfl
@[simp] theorem result_resetFrom (s : State) (d : Reg) (v : Word) (p : Bool) (n : Nat) : (s.result d v p n).resetFrom = s.resetFrom := rfl
@[simp] theorem result_gating (s : State) (d : Reg) (v : Word) (p : Bool) (n : Nat) : (s.result d v p n).gating = s.gating := rfl
@[simp] theorem result_islctl (s : State) (d : Reg) (v : Word) (p : Bool) (n : Nat) : (s.result d v p n).islctl = s.islctl := rfl
@[simp] theorem result_throttled (s : State) (d : Reg) (v : Word) (p : Bool) (n : Nat) : (s.result d v p n).throttled = s.throttled := rfl
@[simp] theorem result_powerLow (s : State) (d : Reg) (v : Word) (p : Bool) (n : Nat) : (s.result d v p n).powerLow = s.powerLow := rfl
@[simp] theorem result_pwrlim (s : State) (d : Reg) (v : Word) (p : Bool) (n : Nat) : (s.result d v p n).pwrlim = s.pwrlim := rfl
@[simp] theorem result_pkgctl (s : State) (d : Reg) (v : Word) (p : Bool) (n : Nat) : (s.result d v p n).pkgctl = s.pkgctl := rfl
@[simp] theorem result_exiting (s : State) (d : Reg) (v : Word) (p : Bool) (n : Nat) : (s.result d v p n).exiting = s.exiting := rfl

/-! ### `holdTrap` -/

@[simp] theorem holdTrap_cycle (s : State) (c o : Nat) (t : Trap) : (s.holdTrap c o t).cycle = s.cycle := rfl
@[simp] theorem holdTrap_tick (s : State) (c o : Nat) (t : Trap) : (s.holdTrap c o t).tick = s.tick := rfl
@[simp] theorem holdTrap_tickFrac (s : State) (c o : Nat) (t : Trap) : (s.holdTrap c o t).tickFrac = s.tickFrac := rfl
@[simp] theorem holdTrap_islPhase (s : State) (c o : Nat) (t : Trap) : (s.holdTrap c o t).islPhase = s.islPhase := rfl
@[simp] theorem holdTrap_agenda (s : State) (c o : Nat) (t : Trap) : (s.holdTrap c o t).agenda = s.agenda := rfl
@[simp] theorem holdTrap_inputs (s : State) (c o : Nat) (t : Trap) : (s.holdTrap c o t).inputs = s.inputs := rfl
@[simp] theorem holdTrap_openSince (s : State) (c o : Nat) (t : Trap) : (s.holdTrap c o t).openSince = s.openSince := rfl
@[simp] theorem holdTrap_core (s : State) (c o : Nat) (t : Trap) : (s.holdTrap c o t).core = s.core := rfl
@[simp] theorem holdTrap_issue (s : State) (c o : Nat) (t : Trap) : (s.holdTrap c o t).issue = s.issue := rfl
@[simp] theorem holdTrap_freeCount (s : State) (c o : Nat) (t : Trap) : (s.holdTrap c o t).freeCount = s.freeCount := rfl
@[simp] theorem holdTrap_oracle (s : State) (c o : Nat) (t : Trap) : (s.holdTrap c o t).oracle = s.oracle := rfl
@[simp] theorem holdTrap_out (s : State) (c o : Nat) (t : Trap) : (s.holdTrap c o t).out = s.out := rfl
@[simp] theorem holdTrap_clusters (s : State) (c o : Nat) (t : Trap) : (s.holdTrap c o t).clusters = s.clusters := rfl
@[simp] theorem holdTrap_stamps (s : State) (c o : Nat) (t : Trap) : (s.holdTrap c o t).stamps = s.stamps := rfl
@[simp] theorem holdTrap_nextStamp (s : State) (c o : Nat) (t : Trap) : (s.holdTrap c o t).nextStamp = s.nextStamp := rfl
@[simp] theorem holdTrap_hbm (s : State) (c o : Nat) (t : Trap) : (s.holdTrap c o t).hbm = s.hbm := rfl
@[simp] theorem holdTrap_lost (s : State) (c o : Nat) (t : Trap) : (s.holdTrap c o t).lost = s.lost := rfl
@[simp] theorem holdTrap_cp (s : State) (c o : Nat) (t : Trap) : (s.holdTrap c o t).cp = s.cp := rfl
@[simp] theorem holdTrap_cpBanks (s : State) (c o : Nat) (t : Trap) : (s.holdTrap c o t).cpBanks = s.cpBanks := rfl
@[simp] theorem holdTrap_slicesOff (s : State) (c o : Nat) (t : Trap) : (s.holdTrap c o t).slicesOff = s.slicesOff := rfl
@[simp] theorem holdTrap_evicting (s : State) (c o : Nat) (t : Trap) : (s.holdTrap c o t).evicting = s.evicting := rfl
@[simp] theorem holdTrap_bankUse (s : State) (c o : Nat) (t : Trap) : (s.holdTrap c o t).bankUse = s.bankUse := rfl
@[simp] theorem holdTrap_way (s : State) (c o : Nat) (t : Trap) : (s.holdTrap c o t).way = s.way := rfl
@[simp] theorem holdTrap_host (s : State) (c o : Nat) (t : Trap) : (s.holdTrap c o t).host = s.host := rfl
@[simp] theorem holdTrap_saiga (s : State) (c o : Nat) (t : Trap) : (s.holdTrap c o t).saiga = s.saiga := rfl
@[simp] theorem holdTrap_l2 (s : State) (c o : Nat) (t : Trap) : (s.holdTrap c o t).l2 = s.l2 := rfl
@[simp] theorem holdTrap_pageClass (s : State) (c o : Nat) (t : Trap) : (s.holdTrap c o t).pageClass = s.pageClass := rfl
@[simp] theorem holdTrap_classified (s : State) (c o : Nat) (t : Trap) : (s.holdTrap c o t).classified = s.classified := rfl
@[simp] theorem holdTrap_lines (s : State) (c o : Nat) (t : Trap) : (s.holdTrap c o t).lines = s.lines := rfl
@[simp] theorem holdTrap_halves (s : State) (c o : Nat) (t : Trap) : (s.holdTrap c o t).halves = s.halves := rfl
@[simp] theorem holdTrap_cxl (s : State) (c o : Nat) (t : Trap) : (s.holdTrap c o t).cxl = s.cxl := rfl
@[simp] theorem holdTrap_parts (s : State) (c o : Nat) (t : Trap) : (s.holdTrap c o t).parts = s.parts := rfl
@[simp] theorem holdTrap_tasks (s : State) (c o : Nat) (t : Trap) : (s.holdTrap c o t).tasks = s.tasks := rfl
@[simp] theorem holdTrap_nextTask (s : State) (c o : Nat) (t : Trap) : (s.holdTrap c o t).nextTask = s.nextTask := rfl
@[simp] theorem holdTrap_signalsHere (s : State) (c o : Nat) (t : Trap) : (s.holdTrap c o t).signalsHere = s.signalsHere := rfl
@[simp] theorem holdTrap_slotTab (s : State) (c o : Nat) (t : Trap) : (s.holdTrap c o t).slotTab = s.slotTab := rfl
@[simp] theorem holdTrap_subreg (s : State) (c o : Nat) (t : Trap) : (s.holdTrap c o t).subreg = s.subreg := rfl
@[simp] theorem holdTrap_launching (s : State) (c o : Nat) (t : Trap) : (s.holdTrap c o t).launching = s.launching := rfl
@[simp] theorem holdTrap_substat (s : State) (c o : Nat) (t : Trap) : (s.holdTrap c o t).substat = s.substat := rfl
@[simp] theorem holdTrap_evcfg (s : State) (c o : Nat) (t : Trap) : (s.holdTrap c o t).evcfg = s.evcfg := rfl
@[simp] theorem holdTrap_evhead (s : State) (c o : Nat) (t : Trap) : (s.holdTrap c o t).evhead = s.evhead := rfl
@[simp] theorem holdTrap_evtail (s : State) (c o : Nat) (t : Trap) : (s.holdTrap c o t).evtail = s.evtail := rfl
@[simp] theorem holdTrap_evseq (s : State) (c o : Nat) (t : Trap) : (s.holdTrap c o t).evseq = s.evseq := rfl
@[simp] theorem holdTrap_sgstat (s : State) (c o : Nat) (t : Trap) : (s.holdTrap c o t).sgstat = s.sgstat := rfl
@[simp] theorem holdTrap_harts (s : State) (c o : Nat) (t : Trap) : (s.holdTrap c o t).harts = s.harts := rfl
@[simp] theorem holdTrap_pair (s : State) (c o : Nat) (t : Trap) : (s.holdTrap c o t).pair = s.pair := rfl
@[simp] theorem holdTrap_failingOver (s : State) (c o : Nat) (t : Trap) : (s.holdTrap c o t).failingOver = s.failingOver := rfl
@[simp] theorem holdTrap_failFrom (s : State) (c o : Nat) (t : Trap) : (s.holdTrap c o t).failFrom = s.failFrom := rfl
@[simp] theorem holdTrap_failedHart (s : State) (c o : Nat) (t : Trap) : (s.holdTrap c o t).failedHart = s.failedHart := rfl
@[simp] theorem holdTrap_saigaOut (s : State) (c o : Nat) (t : Trap) : (s.holdTrap c o t).saigaOut = s.saigaOut := rfl
@[simp] theorem holdTrap_pending (s : State) (c o : Nat) (t : Trap) : (s.holdTrap c o t).pending = s.pending := rfl
@[simp] theorem holdTrap_prqcfg (s : State) (c o : Nat) (t : Trap) : (s.holdTrap c o t).prqcfg = s.prqcfg := rfl
@[simp] theorem holdTrap_prqhead (s : State) (c o : Nat) (t : Trap) : (s.holdTrap c o t).prqhead = s.prqhead := rfl
@[simp] theorem holdTrap_prqtail (s : State) (c o : Nat) (t : Trap) : (s.holdTrap c o t).prqtail = s.prqtail := rfl
@[simp] theorem holdTrap_pageReqs (s : State) (c o : Nat) (t : Trap) : (s.holdTrap c o t).pageReqs = s.pageReqs := rfl
@[simp] theorem holdTrap_nextReq (s : State) (c o : Nat) (t : Trap) : (s.holdTrap c o t).nextReq = s.nextReq := rfl
@[simp] theorem holdTrap_tlbinv (s : State) (c o : Nat) (t : Trap) : (s.holdTrap c o t).tlbinv = s.tlbinv := rfl
@[simp] theorem holdTrap_tlbinvsz (s : State) (c o : Nat) (t : Trap) : (s.holdTrap c o t).tlbinvsz = s.tlbinvsz := rfl
@[simp] theorem holdTrap_pidx (s : State) (c o : Nat) (t : Trap) : (s.holdTrap c o t).pidx = s.pidx := rfl
@[simp] theorem holdTrap_alidx (s : State) (c o : Nat) (t : Trap) : (s.holdTrap c o t).alidx = s.alidx := rfl
@[simp] theorem holdTrap_patidx (s : State) (c o : Nat) (t : Trap) : (s.holdTrap c o t).patidx = s.patidx := rfl
@[simp] theorem holdTrap_blkidx (s : State) (c o : Nat) (t : Trap) : (s.holdTrap c o t).blkidx = s.blkidx := rfl
@[simp] theorem holdTrap_occsel (s : State) (c o : Nat) (t : Trap) : (s.holdTrap c o t).occsel = s.occsel := rfl
@[simp] theorem holdTrap_lchidx (s : State) (c o : Nat) (t : Trap) : (s.holdTrap c o t).lchidx = s.lchidx := rfl
@[simp] theorem holdTrap_pwidx (s : State) (c o : Nat) (t : Trap) : (s.holdTrap c o t).pwidx = s.pwidx := rfl
@[simp] theorem holdTrap_islidx (s : State) (c o : Nat) (t : Trap) : (s.holdTrap c o t).islidx = s.islidx := rfl
@[simp] theorem holdTrap_pat (s : State) (c o : Nat) (t : Trap) : (s.holdTrap c o t).pat = s.pat := rfl
@[simp] theorem holdTrap_blkcls (s : State) (c o : Nat) (t : Trap) : (s.holdTrap c o t).blkcls = s.blkcls := rfl
@[simp] theorem holdTrap_mr (s : State) (c o : Nat) (t : Trap) : (s.holdTrap c o t).mr = s.mr := rfl
@[simp] theorem holdTrap_mrext (s : State) (c o : Nat) (t : Trap) : (s.holdTrap c o t).mrext = s.mrext := rfl
@[simp] theorem holdTrap_audw (s : State) (c o : Nat) (t : Trap) : (s.holdTrap c o t).audw = s.audw := rfl
@[simp] theorem holdTrap_audit (s : State) (c o : Nat) (t : Trap) : (s.holdTrap c o t).audit = s.audit := rfl
@[simp] theorem holdTrap_chain (s : State) (c o : Nat) (t : Trap) : (s.holdTrap c o t).chain = s.chain := rfl
@[simp] theorem holdTrap_lastAudit (s : State) (c o : Nat) (t : Trap) : (s.holdTrap c o t).lastAudit = s.lastAudit := rfl
@[simp] theorem holdTrap_sinceCkpt (s : State) (c o : Nat) (t : Trap) : (s.holdTrap c o t).sinceCkpt = s.sinceCkpt := rfl
@[simp] theorem holdTrap_ckpt (s : State) (c o : Nat) (t : Trap) : (s.holdTrap c o t).ckpt = s.ckpt := rfl
@[simp] theorem holdTrap_spdmSession (s : State) (c o : Nat) (t : Trap) : (s.holdTrap c o t).spdmSession = s.spdmSession := rfl
@[simp] theorem holdTrap_transcript (s : State) (c o : Nat) (t : Trap) : (s.holdTrap c o t).transcript = s.transcript := rfl
@[simp] theorem holdTrap_ideKeys (s : State) (c o : Nat) (t : Trap) : (s.holdTrap c o t).ideKeys = s.ideKeys := rfl
@[simp] theorem holdTrap_delivered (s : State) (c o : Nat) (t : Trap) : (s.holdTrap c o t).delivered = s.delivered := rfl
@[simp] theorem holdTrap_derived (s : State) (c o : Nat) (t : Trap) : (s.holdTrap c o t).derived = s.derived := rfl
@[simp] theorem holdTrap_nextRegion (s : State) (c o : Nat) (t : Trap) : (s.holdTrap c o t).nextRegion = s.nextRegion := rfl
@[simp] theorem holdTrap_held (s : State) (c o : Nat) (t : Trap) : (s.holdTrap c o t).held = s.held := rfl
@[simp] theorem holdTrap_pkgNo (s : State) (c o : Nat) (t : Trap) : (s.holdTrap c o t).pkgNo = s.pkgNo := rfl
@[simp] theorem holdTrap_lchan (s : State) (c o : Nat) (t : Trap) : (s.holdTrap c o t).lchan = s.lchan := rfl
@[simp] theorem holdTrap_lchoff (s : State) (c o : Nat) (t : Trap) : (s.holdTrap c o t).lchoff = s.lchoff := rfl
@[simp] theorem holdTrap_lchRet (s : State) (c o : Nat) (t : Trap) : (s.holdTrap c o t).lchRet = s.lchRet := rfl
@[simp] theorem holdTrap_deadLanes (s : State) (c o : Nat) (t : Trap) : (s.holdTrap c o t).deadLanes = s.deadLanes := rfl
@[simp] theorem holdTrap_posted (s : State) (c o : Nat) (t : Trap) : (s.holdTrap c o t).posted = s.posted := rfl
@[simp] theorem holdTrap_replicas (s : State) (c o : Nat) (t : Trap) : (s.holdTrap c o t).replicas = s.replicas := rfl
@[simp] theorem holdTrap_nextSeq (s : State) (c o : Nat) (t : Trap) : (s.holdTrap c o t).nextSeq = s.nextSeq := rfl
@[simp] theorem holdTrap_rpSent (s : State) (c o : Nat) (t : Trap) : (s.holdTrap c o t).rpSent = s.rpSent := rfl
@[simp] theorem holdTrap_rpNext (s : State) (c o : Nat) (t : Trap) : (s.holdTrap c o t).rpNext = s.rpNext := rfl
@[simp] theorem holdTrap_rpWait (s : State) (c o : Nat) (t : Trap) : (s.holdTrap c o t).rpWait = s.rpWait := rfl
@[simp] theorem holdTrap_rpHome (s : State) (c o : Nat) (t : Trap) : (s.holdTrap c o t).rpHome = s.rpHome := rfl
@[simp] theorem holdTrap_rpHolders (s : State) (c o : Nat) (t : Trap) : (s.holdTrap c o t).rpHolders = s.rpHolders := rfl
@[simp] theorem holdTrap_bootst (s : State) (c o : Nat) (t : Trap) : (s.holdTrap c o t).bootst = s.bootst := rfl
@[simp] theorem holdTrap_pwrgd (s : State) (c o : Nat) (t : Trap) : (s.holdTrap c o t).pwrgd = s.pwrgd := rfl
@[simp] theorem holdTrap_thermtrip (s : State) (c o : Nat) (t : Trap) : (s.holdTrap c o t).thermtrip = s.thermtrip := rfl
@[simp] theorem holdTrap_tripped (s : State) (c o : Nat) (t : Trap) : (s.holdTrap c o t).tripped = s.tripped := rfl
@[simp] theorem holdTrap_alert (s : State) (c o : Nat) (t : Trap) : (s.holdTrap c o t).alert = s.alert := rfl
@[simp] theorem holdTrap_hostDead (s : State) (c o : Nat) (t : Trap) : (s.holdTrap c o t).hostDead = s.hostDead := rfl
@[simp] theorem holdTrap_hostOld (s : State) (c o : Nat) (t : Trap) : (s.holdTrap c o t).hostOld = s.hostOld := rfl
@[simp] theorem holdTrap_resetFrom (s : State) (c o : Nat) (t : Trap) : (s.holdTrap c o t).resetFrom = s.resetFrom := rfl
@[simp] theorem holdTrap_gating (s : State) (c o : Nat) (t : Trap) : (s.holdTrap c o t).gating = s.gating := rfl
@[simp] theorem holdTrap_islctl (s : State) (c o : Nat) (t : Trap) : (s.holdTrap c o t).islctl = s.islctl := rfl
@[simp] theorem holdTrap_throttled (s : State) (c o : Nat) (t : Trap) : (s.holdTrap c o t).throttled = s.throttled := rfl
@[simp] theorem holdTrap_powerLow (s : State) (c o : Nat) (t : Trap) : (s.holdTrap c o t).powerLow = s.powerLow := rfl
@[simp] theorem holdTrap_pwrlim (s : State) (c o : Nat) (t : Trap) : (s.holdTrap c o t).pwrlim = s.pwrlim := rfl
@[simp] theorem holdTrap_pkgctl (s : State) (c o : Nat) (t : Trap) : (s.holdTrap c o t).pkgctl = s.pkgctl := rfl
@[simp] theorem holdTrap_exiting (s : State) (c o : Nat) (t : Trap) : (s.holdTrap c o t).exiting = s.exiting := rfl

/-! ### `modCluster` -/

@[simp] theorem modCluster_cycle (s : State) (c : Nat) (f : Cluster → Cluster) : (s.modCluster c f).cycle = s.cycle := rfl
@[simp] theorem modCluster_tick (s : State) (c : Nat) (f : Cluster → Cluster) : (s.modCluster c f).tick = s.tick := rfl
@[simp] theorem modCluster_tickFrac (s : State) (c : Nat) (f : Cluster → Cluster) : (s.modCluster c f).tickFrac = s.tickFrac := rfl
@[simp] theorem modCluster_islPhase (s : State) (c : Nat) (f : Cluster → Cluster) : (s.modCluster c f).islPhase = s.islPhase := rfl
@[simp] theorem modCluster_agenda (s : State) (c : Nat) (f : Cluster → Cluster) : (s.modCluster c f).agenda = s.agenda := rfl
@[simp] theorem modCluster_inputs (s : State) (c : Nat) (f : Cluster → Cluster) : (s.modCluster c f).inputs = s.inputs := rfl
@[simp] theorem modCluster_openSince (s : State) (c : Nat) (f : Cluster → Cluster) : (s.modCluster c f).openSince = s.openSince := rfl
@[simp] theorem modCluster_core (s : State) (c : Nat) (f : Cluster → Cluster) : (s.modCluster c f).core = s.core := rfl
@[simp] theorem modCluster_issue (s : State) (c : Nat) (f : Cluster → Cluster) : (s.modCluster c f).issue = s.issue := rfl
@[simp] theorem modCluster_freeCount (s : State) (c : Nat) (f : Cluster → Cluster) : (s.modCluster c f).freeCount = s.freeCount := rfl
@[simp] theorem modCluster_oracle (s : State) (c : Nat) (f : Cluster → Cluster) : (s.modCluster c f).oracle = s.oracle := rfl
@[simp] theorem modCluster_out (s : State) (c : Nat) (f : Cluster → Cluster) : (s.modCluster c f).out = s.out := rfl
@[simp] theorem modCluster_cores (s : State) (c : Nat) (f : Cluster → Cluster) : (s.modCluster c f).cores = s.cores := rfl
@[simp] theorem modCluster_stamps (s : State) (c : Nat) (f : Cluster → Cluster) : (s.modCluster c f).stamps = s.stamps := rfl
@[simp] theorem modCluster_nextStamp (s : State) (c : Nat) (f : Cluster → Cluster) : (s.modCluster c f).nextStamp = s.nextStamp := rfl
@[simp] theorem modCluster_hbm (s : State) (c : Nat) (f : Cluster → Cluster) : (s.modCluster c f).hbm = s.hbm := rfl
@[simp] theorem modCluster_lost (s : State) (c : Nat) (f : Cluster → Cluster) : (s.modCluster c f).lost = s.lost := rfl
@[simp] theorem modCluster_cp (s : State) (c : Nat) (f : Cluster → Cluster) : (s.modCluster c f).cp = s.cp := rfl
@[simp] theorem modCluster_cpBanks (s : State) (c : Nat) (f : Cluster → Cluster) : (s.modCluster c f).cpBanks = s.cpBanks := rfl
@[simp] theorem modCluster_slicesOff (s : State) (c : Nat) (f : Cluster → Cluster) : (s.modCluster c f).slicesOff = s.slicesOff := rfl
@[simp] theorem modCluster_evicting (s : State) (c : Nat) (f : Cluster → Cluster) : (s.modCluster c f).evicting = s.evicting := rfl
@[simp] theorem modCluster_bankUse (s : State) (c : Nat) (f : Cluster → Cluster) : (s.modCluster c f).bankUse = s.bankUse := rfl
@[simp] theorem modCluster_way (s : State) (c : Nat) (f : Cluster → Cluster) : (s.modCluster c f).way = s.way := rfl
@[simp] theorem modCluster_host (s : State) (c : Nat) (f : Cluster → Cluster) : (s.modCluster c f).host = s.host := rfl
@[simp] theorem modCluster_saiga (s : State) (c : Nat) (f : Cluster → Cluster) : (s.modCluster c f).saiga = s.saiga := rfl
@[simp] theorem modCluster_l2 (s : State) (c : Nat) (f : Cluster → Cluster) : (s.modCluster c f).l2 = s.l2 := rfl
@[simp] theorem modCluster_pageClass (s : State) (c : Nat) (f : Cluster → Cluster) : (s.modCluster c f).pageClass = s.pageClass := rfl
@[simp] theorem modCluster_classified (s : State) (c : Nat) (f : Cluster → Cluster) : (s.modCluster c f).classified = s.classified := rfl
@[simp] theorem modCluster_lines (s : State) (c : Nat) (f : Cluster → Cluster) : (s.modCluster c f).lines = s.lines := rfl
@[simp] theorem modCluster_halves (s : State) (c : Nat) (f : Cluster → Cluster) : (s.modCluster c f).halves = s.halves := rfl
@[simp] theorem modCluster_cxl (s : State) (c : Nat) (f : Cluster → Cluster) : (s.modCluster c f).cxl = s.cxl := rfl
@[simp] theorem modCluster_parts (s : State) (c : Nat) (f : Cluster → Cluster) : (s.modCluster c f).parts = s.parts := rfl
@[simp] theorem modCluster_tasks (s : State) (c : Nat) (f : Cluster → Cluster) : (s.modCluster c f).tasks = s.tasks := rfl
@[simp] theorem modCluster_nextTask (s : State) (c : Nat) (f : Cluster → Cluster) : (s.modCluster c f).nextTask = s.nextTask := rfl
@[simp] theorem modCluster_signalsHere (s : State) (c : Nat) (f : Cluster → Cluster) : (s.modCluster c f).signalsHere = s.signalsHere := rfl
@[simp] theorem modCluster_slotTab (s : State) (c : Nat) (f : Cluster → Cluster) : (s.modCluster c f).slotTab = s.slotTab := rfl
@[simp] theorem modCluster_subreg (s : State) (c : Nat) (f : Cluster → Cluster) : (s.modCluster c f).subreg = s.subreg := rfl
@[simp] theorem modCluster_launching (s : State) (c : Nat) (f : Cluster → Cluster) : (s.modCluster c f).launching = s.launching := rfl
@[simp] theorem modCluster_substat (s : State) (c : Nat) (f : Cluster → Cluster) : (s.modCluster c f).substat = s.substat := rfl
@[simp] theorem modCluster_evcfg (s : State) (c : Nat) (f : Cluster → Cluster) : (s.modCluster c f).evcfg = s.evcfg := rfl
@[simp] theorem modCluster_evhead (s : State) (c : Nat) (f : Cluster → Cluster) : (s.modCluster c f).evhead = s.evhead := rfl
@[simp] theorem modCluster_evtail (s : State) (c : Nat) (f : Cluster → Cluster) : (s.modCluster c f).evtail = s.evtail := rfl
@[simp] theorem modCluster_evseq (s : State) (c : Nat) (f : Cluster → Cluster) : (s.modCluster c f).evseq = s.evseq := rfl
@[simp] theorem modCluster_sgstat (s : State) (c : Nat) (f : Cluster → Cluster) : (s.modCluster c f).sgstat = s.sgstat := rfl
@[simp] theorem modCluster_harts (s : State) (c : Nat) (f : Cluster → Cluster) : (s.modCluster c f).harts = s.harts := rfl
@[simp] theorem modCluster_pair (s : State) (c : Nat) (f : Cluster → Cluster) : (s.modCluster c f).pair = s.pair := rfl
@[simp] theorem modCluster_failingOver (s : State) (c : Nat) (f : Cluster → Cluster) : (s.modCluster c f).failingOver = s.failingOver := rfl
@[simp] theorem modCluster_failFrom (s : State) (c : Nat) (f : Cluster → Cluster) : (s.modCluster c f).failFrom = s.failFrom := rfl
@[simp] theorem modCluster_failedHart (s : State) (c : Nat) (f : Cluster → Cluster) : (s.modCluster c f).failedHart = s.failedHart := rfl
@[simp] theorem modCluster_saigaOut (s : State) (c : Nat) (f : Cluster → Cluster) : (s.modCluster c f).saigaOut = s.saigaOut := rfl
@[simp] theorem modCluster_pending (s : State) (c : Nat) (f : Cluster → Cluster) : (s.modCluster c f).pending = s.pending := rfl
@[simp] theorem modCluster_prqcfg (s : State) (c : Nat) (f : Cluster → Cluster) : (s.modCluster c f).prqcfg = s.prqcfg := rfl
@[simp] theorem modCluster_prqhead (s : State) (c : Nat) (f : Cluster → Cluster) : (s.modCluster c f).prqhead = s.prqhead := rfl
@[simp] theorem modCluster_prqtail (s : State) (c : Nat) (f : Cluster → Cluster) : (s.modCluster c f).prqtail = s.prqtail := rfl
@[simp] theorem modCluster_pageReqs (s : State) (c : Nat) (f : Cluster → Cluster) : (s.modCluster c f).pageReqs = s.pageReqs := rfl
@[simp] theorem modCluster_nextReq (s : State) (c : Nat) (f : Cluster → Cluster) : (s.modCluster c f).nextReq = s.nextReq := rfl
@[simp] theorem modCluster_tlbinv (s : State) (c : Nat) (f : Cluster → Cluster) : (s.modCluster c f).tlbinv = s.tlbinv := rfl
@[simp] theorem modCluster_tlbinvsz (s : State) (c : Nat) (f : Cluster → Cluster) : (s.modCluster c f).tlbinvsz = s.tlbinvsz := rfl
@[simp] theorem modCluster_pidx (s : State) (c : Nat) (f : Cluster → Cluster) : (s.modCluster c f).pidx = s.pidx := rfl
@[simp] theorem modCluster_alidx (s : State) (c : Nat) (f : Cluster → Cluster) : (s.modCluster c f).alidx = s.alidx := rfl
@[simp] theorem modCluster_patidx (s : State) (c : Nat) (f : Cluster → Cluster) : (s.modCluster c f).patidx = s.patidx := rfl
@[simp] theorem modCluster_blkidx (s : State) (c : Nat) (f : Cluster → Cluster) : (s.modCluster c f).blkidx = s.blkidx := rfl
@[simp] theorem modCluster_occsel (s : State) (c : Nat) (f : Cluster → Cluster) : (s.modCluster c f).occsel = s.occsel := rfl
@[simp] theorem modCluster_lchidx (s : State) (c : Nat) (f : Cluster → Cluster) : (s.modCluster c f).lchidx = s.lchidx := rfl
@[simp] theorem modCluster_pwidx (s : State) (c : Nat) (f : Cluster → Cluster) : (s.modCluster c f).pwidx = s.pwidx := rfl
@[simp] theorem modCluster_islidx (s : State) (c : Nat) (f : Cluster → Cluster) : (s.modCluster c f).islidx = s.islidx := rfl
@[simp] theorem modCluster_pat (s : State) (c : Nat) (f : Cluster → Cluster) : (s.modCluster c f).pat = s.pat := rfl
@[simp] theorem modCluster_blkcls (s : State) (c : Nat) (f : Cluster → Cluster) : (s.modCluster c f).blkcls = s.blkcls := rfl
@[simp] theorem modCluster_mr (s : State) (c : Nat) (f : Cluster → Cluster) : (s.modCluster c f).mr = s.mr := rfl
@[simp] theorem modCluster_mrext (s : State) (c : Nat) (f : Cluster → Cluster) : (s.modCluster c f).mrext = s.mrext := rfl
@[simp] theorem modCluster_audw (s : State) (c : Nat) (f : Cluster → Cluster) : (s.modCluster c f).audw = s.audw := rfl
@[simp] theorem modCluster_audit (s : State) (c : Nat) (f : Cluster → Cluster) : (s.modCluster c f).audit = s.audit := rfl
@[simp] theorem modCluster_chain (s : State) (c : Nat) (f : Cluster → Cluster) : (s.modCluster c f).chain = s.chain := rfl
@[simp] theorem modCluster_lastAudit (s : State) (c : Nat) (f : Cluster → Cluster) : (s.modCluster c f).lastAudit = s.lastAudit := rfl
@[simp] theorem modCluster_sinceCkpt (s : State) (c : Nat) (f : Cluster → Cluster) : (s.modCluster c f).sinceCkpt = s.sinceCkpt := rfl
@[simp] theorem modCluster_ckpt (s : State) (c : Nat) (f : Cluster → Cluster) : (s.modCluster c f).ckpt = s.ckpt := rfl
@[simp] theorem modCluster_spdmSession (s : State) (c : Nat) (f : Cluster → Cluster) : (s.modCluster c f).spdmSession = s.spdmSession := rfl
@[simp] theorem modCluster_transcript (s : State) (c : Nat) (f : Cluster → Cluster) : (s.modCluster c f).transcript = s.transcript := rfl
@[simp] theorem modCluster_ideKeys (s : State) (c : Nat) (f : Cluster → Cluster) : (s.modCluster c f).ideKeys = s.ideKeys := rfl
@[simp] theorem modCluster_delivered (s : State) (c : Nat) (f : Cluster → Cluster) : (s.modCluster c f).delivered = s.delivered := rfl
@[simp] theorem modCluster_derived (s : State) (c : Nat) (f : Cluster → Cluster) : (s.modCluster c f).derived = s.derived := rfl
@[simp] theorem modCluster_nextRegion (s : State) (c : Nat) (f : Cluster → Cluster) : (s.modCluster c f).nextRegion = s.nextRegion := rfl
@[simp] theorem modCluster_held (s : State) (c : Nat) (f : Cluster → Cluster) : (s.modCluster c f).held = s.held := rfl
@[simp] theorem modCluster_pkgNo (s : State) (c : Nat) (f : Cluster → Cluster) : (s.modCluster c f).pkgNo = s.pkgNo := rfl
@[simp] theorem modCluster_lchan (s : State) (c : Nat) (f : Cluster → Cluster) : (s.modCluster c f).lchan = s.lchan := rfl
@[simp] theorem modCluster_lchoff (s : State) (c : Nat) (f : Cluster → Cluster) : (s.modCluster c f).lchoff = s.lchoff := rfl
@[simp] theorem modCluster_lchRet (s : State) (c : Nat) (f : Cluster → Cluster) : (s.modCluster c f).lchRet = s.lchRet := rfl
@[simp] theorem modCluster_deadLanes (s : State) (c : Nat) (f : Cluster → Cluster) : (s.modCluster c f).deadLanes = s.deadLanes := rfl
@[simp] theorem modCluster_posted (s : State) (c : Nat) (f : Cluster → Cluster) : (s.modCluster c f).posted = s.posted := rfl
@[simp] theorem modCluster_replicas (s : State) (c : Nat) (f : Cluster → Cluster) : (s.modCluster c f).replicas = s.replicas := rfl
@[simp] theorem modCluster_nextSeq (s : State) (c : Nat) (f : Cluster → Cluster) : (s.modCluster c f).nextSeq = s.nextSeq := rfl
@[simp] theorem modCluster_rpSent (s : State) (c : Nat) (f : Cluster → Cluster) : (s.modCluster c f).rpSent = s.rpSent := rfl
@[simp] theorem modCluster_rpNext (s : State) (c : Nat) (f : Cluster → Cluster) : (s.modCluster c f).rpNext = s.rpNext := rfl
@[simp] theorem modCluster_rpWait (s : State) (c : Nat) (f : Cluster → Cluster) : (s.modCluster c f).rpWait = s.rpWait := rfl
@[simp] theorem modCluster_rpHome (s : State) (c : Nat) (f : Cluster → Cluster) : (s.modCluster c f).rpHome = s.rpHome := rfl
@[simp] theorem modCluster_rpHolders (s : State) (c : Nat) (f : Cluster → Cluster) : (s.modCluster c f).rpHolders = s.rpHolders := rfl
@[simp] theorem modCluster_bootst (s : State) (c : Nat) (f : Cluster → Cluster) : (s.modCluster c f).bootst = s.bootst := rfl
@[simp] theorem modCluster_pwrgd (s : State) (c : Nat) (f : Cluster → Cluster) : (s.modCluster c f).pwrgd = s.pwrgd := rfl
@[simp] theorem modCluster_thermtrip (s : State) (c : Nat) (f : Cluster → Cluster) : (s.modCluster c f).thermtrip = s.thermtrip := rfl
@[simp] theorem modCluster_tripped (s : State) (c : Nat) (f : Cluster → Cluster) : (s.modCluster c f).tripped = s.tripped := rfl
@[simp] theorem modCluster_alert (s : State) (c : Nat) (f : Cluster → Cluster) : (s.modCluster c f).alert = s.alert := rfl
@[simp] theorem modCluster_hostDead (s : State) (c : Nat) (f : Cluster → Cluster) : (s.modCluster c f).hostDead = s.hostDead := rfl
@[simp] theorem modCluster_hostOld (s : State) (c : Nat) (f : Cluster → Cluster) : (s.modCluster c f).hostOld = s.hostOld := rfl
@[simp] theorem modCluster_resetFrom (s : State) (c : Nat) (f : Cluster → Cluster) : (s.modCluster c f).resetFrom = s.resetFrom := rfl
@[simp] theorem modCluster_gating (s : State) (c : Nat) (f : Cluster → Cluster) : (s.modCluster c f).gating = s.gating := rfl
@[simp] theorem modCluster_islctl (s : State) (c : Nat) (f : Cluster → Cluster) : (s.modCluster c f).islctl = s.islctl := rfl
@[simp] theorem modCluster_throttled (s : State) (c : Nat) (f : Cluster → Cluster) : (s.modCluster c f).throttled = s.throttled := rfl
@[simp] theorem modCluster_powerLow (s : State) (c : Nat) (f : Cluster → Cluster) : (s.modCluster c f).powerLow = s.powerLow := rfl
@[simp] theorem modCluster_pwrlim (s : State) (c : Nat) (f : Cluster → Cluster) : (s.modCluster c f).pwrlim = s.pwrlim := rfl
@[simp] theorem modCluster_pkgctl (s : State) (c : Nat) (f : Cluster → Cluster) : (s.modCluster c f).pkgctl = s.pkgctl := rfl
@[simp] theorem modCluster_exiting (s : State) (c : Nat) (f : Cluster → Cluster) : (s.modCluster c f).exiting = s.exiting := rfl

/-! ### `modPart` -/

@[simp] theorem modPart_cycle (s : State) (p : Nat) (f : Part → Part) : (s.modPart p f).cycle = s.cycle := rfl
@[simp] theorem modPart_tick (s : State) (p : Nat) (f : Part → Part) : (s.modPart p f).tick = s.tick := rfl
@[simp] theorem modPart_tickFrac (s : State) (p : Nat) (f : Part → Part) : (s.modPart p f).tickFrac = s.tickFrac := rfl
@[simp] theorem modPart_islPhase (s : State) (p : Nat) (f : Part → Part) : (s.modPart p f).islPhase = s.islPhase := rfl
@[simp] theorem modPart_agenda (s : State) (p : Nat) (f : Part → Part) : (s.modPart p f).agenda = s.agenda := rfl
@[simp] theorem modPart_inputs (s : State) (p : Nat) (f : Part → Part) : (s.modPart p f).inputs = s.inputs := rfl
@[simp] theorem modPart_openSince (s : State) (p : Nat) (f : Part → Part) : (s.modPart p f).openSince = s.openSince := rfl
@[simp] theorem modPart_core (s : State) (p : Nat) (f : Part → Part) : (s.modPart p f).core = s.core := rfl
@[simp] theorem modPart_issue (s : State) (p : Nat) (f : Part → Part) : (s.modPart p f).issue = s.issue := rfl
@[simp] theorem modPart_freeCount (s : State) (p : Nat) (f : Part → Part) : (s.modPart p f).freeCount = s.freeCount := rfl
@[simp] theorem modPart_oracle (s : State) (p : Nat) (f : Part → Part) : (s.modPart p f).oracle = s.oracle := rfl
@[simp] theorem modPart_out (s : State) (p : Nat) (f : Part → Part) : (s.modPart p f).out = s.out := rfl
@[simp] theorem modPart_cores (s : State) (p : Nat) (f : Part → Part) : (s.modPart p f).cores = s.cores := rfl
@[simp] theorem modPart_clusters (s : State) (p : Nat) (f : Part → Part) : (s.modPart p f).clusters = s.clusters := rfl
@[simp] theorem modPart_stamps (s : State) (p : Nat) (f : Part → Part) : (s.modPart p f).stamps = s.stamps := rfl
@[simp] theorem modPart_nextStamp (s : State) (p : Nat) (f : Part → Part) : (s.modPart p f).nextStamp = s.nextStamp := rfl
@[simp] theorem modPart_hbm (s : State) (p : Nat) (f : Part → Part) : (s.modPart p f).hbm = s.hbm := rfl
@[simp] theorem modPart_lost (s : State) (p : Nat) (f : Part → Part) : (s.modPart p f).lost = s.lost := rfl
@[simp] theorem modPart_cp (s : State) (p : Nat) (f : Part → Part) : (s.modPart p f).cp = s.cp := rfl
@[simp] theorem modPart_cpBanks (s : State) (p : Nat) (f : Part → Part) : (s.modPart p f).cpBanks = s.cpBanks := rfl
@[simp] theorem modPart_slicesOff (s : State) (p : Nat) (f : Part → Part) : (s.modPart p f).slicesOff = s.slicesOff := rfl
@[simp] theorem modPart_evicting (s : State) (p : Nat) (f : Part → Part) : (s.modPart p f).evicting = s.evicting := rfl
@[simp] theorem modPart_bankUse (s : State) (p : Nat) (f : Part → Part) : (s.modPart p f).bankUse = s.bankUse := rfl
@[simp] theorem modPart_way (s : State) (p : Nat) (f : Part → Part) : (s.modPart p f).way = s.way := rfl
@[simp] theorem modPart_host (s : State) (p : Nat) (f : Part → Part) : (s.modPart p f).host = s.host := rfl
@[simp] theorem modPart_saiga (s : State) (p : Nat) (f : Part → Part) : (s.modPart p f).saiga = s.saiga := rfl
@[simp] theorem modPart_l2 (s : State) (p : Nat) (f : Part → Part) : (s.modPart p f).l2 = s.l2 := rfl
@[simp] theorem modPart_pageClass (s : State) (p : Nat) (f : Part → Part) : (s.modPart p f).pageClass = s.pageClass := rfl
@[simp] theorem modPart_classified (s : State) (p : Nat) (f : Part → Part) : (s.modPart p f).classified = s.classified := rfl
@[simp] theorem modPart_lines (s : State) (p : Nat) (f : Part → Part) : (s.modPart p f).lines = s.lines := rfl
@[simp] theorem modPart_halves (s : State) (p : Nat) (f : Part → Part) : (s.modPart p f).halves = s.halves := rfl
@[simp] theorem modPart_cxl (s : State) (p : Nat) (f : Part → Part) : (s.modPart p f).cxl = s.cxl := rfl
@[simp] theorem modPart_tasks (s : State) (p : Nat) (f : Part → Part) : (s.modPart p f).tasks = s.tasks := rfl
@[simp] theorem modPart_nextTask (s : State) (p : Nat) (f : Part → Part) : (s.modPart p f).nextTask = s.nextTask := rfl
@[simp] theorem modPart_signalsHere (s : State) (p : Nat) (f : Part → Part) : (s.modPart p f).signalsHere = s.signalsHere := rfl
@[simp] theorem modPart_slotTab (s : State) (p : Nat) (f : Part → Part) : (s.modPart p f).slotTab = s.slotTab := rfl
@[simp] theorem modPart_subreg (s : State) (p : Nat) (f : Part → Part) : (s.modPart p f).subreg = s.subreg := rfl
@[simp] theorem modPart_launching (s : State) (p : Nat) (f : Part → Part) : (s.modPart p f).launching = s.launching := rfl
@[simp] theorem modPart_substat (s : State) (p : Nat) (f : Part → Part) : (s.modPart p f).substat = s.substat := rfl
@[simp] theorem modPart_evcfg (s : State) (p : Nat) (f : Part → Part) : (s.modPart p f).evcfg = s.evcfg := rfl
@[simp] theorem modPart_evhead (s : State) (p : Nat) (f : Part → Part) : (s.modPart p f).evhead = s.evhead := rfl
@[simp] theorem modPart_evtail (s : State) (p : Nat) (f : Part → Part) : (s.modPart p f).evtail = s.evtail := rfl
@[simp] theorem modPart_evseq (s : State) (p : Nat) (f : Part → Part) : (s.modPart p f).evseq = s.evseq := rfl
@[simp] theorem modPart_sgstat (s : State) (p : Nat) (f : Part → Part) : (s.modPart p f).sgstat = s.sgstat := rfl
@[simp] theorem modPart_harts (s : State) (p : Nat) (f : Part → Part) : (s.modPart p f).harts = s.harts := rfl
@[simp] theorem modPart_pair (s : State) (p : Nat) (f : Part → Part) : (s.modPart p f).pair = s.pair := rfl
@[simp] theorem modPart_failingOver (s : State) (p : Nat) (f : Part → Part) : (s.modPart p f).failingOver = s.failingOver := rfl
@[simp] theorem modPart_failFrom (s : State) (p : Nat) (f : Part → Part) : (s.modPart p f).failFrom = s.failFrom := rfl
@[simp] theorem modPart_failedHart (s : State) (p : Nat) (f : Part → Part) : (s.modPart p f).failedHart = s.failedHart := rfl
@[simp] theorem modPart_saigaOut (s : State) (p : Nat) (f : Part → Part) : (s.modPart p f).saigaOut = s.saigaOut := rfl
@[simp] theorem modPart_pending (s : State) (p : Nat) (f : Part → Part) : (s.modPart p f).pending = s.pending := rfl
@[simp] theorem modPart_prqcfg (s : State) (p : Nat) (f : Part → Part) : (s.modPart p f).prqcfg = s.prqcfg := rfl
@[simp] theorem modPart_prqhead (s : State) (p : Nat) (f : Part → Part) : (s.modPart p f).prqhead = s.prqhead := rfl
@[simp] theorem modPart_prqtail (s : State) (p : Nat) (f : Part → Part) : (s.modPart p f).prqtail = s.prqtail := rfl
@[simp] theorem modPart_pageReqs (s : State) (p : Nat) (f : Part → Part) : (s.modPart p f).pageReqs = s.pageReqs := rfl
@[simp] theorem modPart_nextReq (s : State) (p : Nat) (f : Part → Part) : (s.modPart p f).nextReq = s.nextReq := rfl
@[simp] theorem modPart_tlbinv (s : State) (p : Nat) (f : Part → Part) : (s.modPart p f).tlbinv = s.tlbinv := rfl
@[simp] theorem modPart_tlbinvsz (s : State) (p : Nat) (f : Part → Part) : (s.modPart p f).tlbinvsz = s.tlbinvsz := rfl
@[simp] theorem modPart_pidx (s : State) (p : Nat) (f : Part → Part) : (s.modPart p f).pidx = s.pidx := rfl
@[simp] theorem modPart_alidx (s : State) (p : Nat) (f : Part → Part) : (s.modPart p f).alidx = s.alidx := rfl
@[simp] theorem modPart_patidx (s : State) (p : Nat) (f : Part → Part) : (s.modPart p f).patidx = s.patidx := rfl
@[simp] theorem modPart_blkidx (s : State) (p : Nat) (f : Part → Part) : (s.modPart p f).blkidx = s.blkidx := rfl
@[simp] theorem modPart_occsel (s : State) (p : Nat) (f : Part → Part) : (s.modPart p f).occsel = s.occsel := rfl
@[simp] theorem modPart_lchidx (s : State) (p : Nat) (f : Part → Part) : (s.modPart p f).lchidx = s.lchidx := rfl
@[simp] theorem modPart_pwidx (s : State) (p : Nat) (f : Part → Part) : (s.modPart p f).pwidx = s.pwidx := rfl
@[simp] theorem modPart_islidx (s : State) (p : Nat) (f : Part → Part) : (s.modPart p f).islidx = s.islidx := rfl
@[simp] theorem modPart_pat (s : State) (p : Nat) (f : Part → Part) : (s.modPart p f).pat = s.pat := rfl
@[simp] theorem modPart_blkcls (s : State) (p : Nat) (f : Part → Part) : (s.modPart p f).blkcls = s.blkcls := rfl
@[simp] theorem modPart_mr (s : State) (p : Nat) (f : Part → Part) : (s.modPart p f).mr = s.mr := rfl
@[simp] theorem modPart_mrext (s : State) (p : Nat) (f : Part → Part) : (s.modPart p f).mrext = s.mrext := rfl
@[simp] theorem modPart_audw (s : State) (p : Nat) (f : Part → Part) : (s.modPart p f).audw = s.audw := rfl
@[simp] theorem modPart_audit (s : State) (p : Nat) (f : Part → Part) : (s.modPart p f).audit = s.audit := rfl
@[simp] theorem modPart_chain (s : State) (p : Nat) (f : Part → Part) : (s.modPart p f).chain = s.chain := rfl
@[simp] theorem modPart_lastAudit (s : State) (p : Nat) (f : Part → Part) : (s.modPart p f).lastAudit = s.lastAudit := rfl
@[simp] theorem modPart_sinceCkpt (s : State) (p : Nat) (f : Part → Part) : (s.modPart p f).sinceCkpt = s.sinceCkpt := rfl
@[simp] theorem modPart_ckpt (s : State) (p : Nat) (f : Part → Part) : (s.modPart p f).ckpt = s.ckpt := rfl
@[simp] theorem modPart_spdmSession (s : State) (p : Nat) (f : Part → Part) : (s.modPart p f).spdmSession = s.spdmSession := rfl
@[simp] theorem modPart_transcript (s : State) (p : Nat) (f : Part → Part) : (s.modPart p f).transcript = s.transcript := rfl
@[simp] theorem modPart_ideKeys (s : State) (p : Nat) (f : Part → Part) : (s.modPart p f).ideKeys = s.ideKeys := rfl
@[simp] theorem modPart_delivered (s : State) (p : Nat) (f : Part → Part) : (s.modPart p f).delivered = s.delivered := rfl
@[simp] theorem modPart_derived (s : State) (p : Nat) (f : Part → Part) : (s.modPart p f).derived = s.derived := rfl
@[simp] theorem modPart_nextRegion (s : State) (p : Nat) (f : Part → Part) : (s.modPart p f).nextRegion = s.nextRegion := rfl
@[simp] theorem modPart_held (s : State) (p : Nat) (f : Part → Part) : (s.modPart p f).held = s.held := rfl
@[simp] theorem modPart_pkgNo (s : State) (p : Nat) (f : Part → Part) : (s.modPart p f).pkgNo = s.pkgNo := rfl
@[simp] theorem modPart_lchan (s : State) (p : Nat) (f : Part → Part) : (s.modPart p f).lchan = s.lchan := rfl
@[simp] theorem modPart_lchoff (s : State) (p : Nat) (f : Part → Part) : (s.modPart p f).lchoff = s.lchoff := rfl
@[simp] theorem modPart_lchRet (s : State) (p : Nat) (f : Part → Part) : (s.modPart p f).lchRet = s.lchRet := rfl
@[simp] theorem modPart_deadLanes (s : State) (p : Nat) (f : Part → Part) : (s.modPart p f).deadLanes = s.deadLanes := rfl
@[simp] theorem modPart_posted (s : State) (p : Nat) (f : Part → Part) : (s.modPart p f).posted = s.posted := rfl
@[simp] theorem modPart_replicas (s : State) (p : Nat) (f : Part → Part) : (s.modPart p f).replicas = s.replicas := rfl
@[simp] theorem modPart_nextSeq (s : State) (p : Nat) (f : Part → Part) : (s.modPart p f).nextSeq = s.nextSeq := rfl
@[simp] theorem modPart_rpSent (s : State) (p : Nat) (f : Part → Part) : (s.modPart p f).rpSent = s.rpSent := rfl
@[simp] theorem modPart_rpNext (s : State) (p : Nat) (f : Part → Part) : (s.modPart p f).rpNext = s.rpNext := rfl
@[simp] theorem modPart_rpWait (s : State) (p : Nat) (f : Part → Part) : (s.modPart p f).rpWait = s.rpWait := rfl
@[simp] theorem modPart_rpHome (s : State) (p : Nat) (f : Part → Part) : (s.modPart p f).rpHome = s.rpHome := rfl
@[simp] theorem modPart_rpHolders (s : State) (p : Nat) (f : Part → Part) : (s.modPart p f).rpHolders = s.rpHolders := rfl
@[simp] theorem modPart_bootst (s : State) (p : Nat) (f : Part → Part) : (s.modPart p f).bootst = s.bootst := rfl
@[simp] theorem modPart_pwrgd (s : State) (p : Nat) (f : Part → Part) : (s.modPart p f).pwrgd = s.pwrgd := rfl
@[simp] theorem modPart_thermtrip (s : State) (p : Nat) (f : Part → Part) : (s.modPart p f).thermtrip = s.thermtrip := rfl
@[simp] theorem modPart_tripped (s : State) (p : Nat) (f : Part → Part) : (s.modPart p f).tripped = s.tripped := rfl
@[simp] theorem modPart_alert (s : State) (p : Nat) (f : Part → Part) : (s.modPart p f).alert = s.alert := rfl
@[simp] theorem modPart_hostDead (s : State) (p : Nat) (f : Part → Part) : (s.modPart p f).hostDead = s.hostDead := rfl
@[simp] theorem modPart_hostOld (s : State) (p : Nat) (f : Part → Part) : (s.modPart p f).hostOld = s.hostOld := rfl
@[simp] theorem modPart_resetFrom (s : State) (p : Nat) (f : Part → Part) : (s.modPart p f).resetFrom = s.resetFrom := rfl
@[simp] theorem modPart_gating (s : State) (p : Nat) (f : Part → Part) : (s.modPart p f).gating = s.gating := rfl
@[simp] theorem modPart_islctl (s : State) (p : Nat) (f : Part → Part) : (s.modPart p f).islctl = s.islctl := rfl
@[simp] theorem modPart_throttled (s : State) (p : Nat) (f : Part → Part) : (s.modPart p f).throttled = s.throttled := rfl
@[simp] theorem modPart_powerLow (s : State) (p : Nat) (f : Part → Part) : (s.modPart p f).powerLow = s.powerLow := rfl
@[simp] theorem modPart_pwrlim (s : State) (p : Nat) (f : Part → Part) : (s.modPart p f).pwrlim = s.pwrlim := rfl
@[simp] theorem modPart_pkgctl (s : State) (p : Nat) (f : Part → Part) : (s.modPart p f).pkgctl = s.pkgctl := rfl
@[simp] theorem modPart_exiting (s : State) (p : Nat) (f : Part → Part) : (s.modPart p f).exiting = s.exiting := rfl

/-! ### `modTask` -/

@[simp] theorem modTask_cycle (s : State) (t : Nat) (f : Task → Task) : (s.modTask t f).cycle = s.cycle := rfl
@[simp] theorem modTask_tick (s : State) (t : Nat) (f : Task → Task) : (s.modTask t f).tick = s.tick := rfl
@[simp] theorem modTask_tickFrac (s : State) (t : Nat) (f : Task → Task) : (s.modTask t f).tickFrac = s.tickFrac := rfl
@[simp] theorem modTask_islPhase (s : State) (t : Nat) (f : Task → Task) : (s.modTask t f).islPhase = s.islPhase := rfl
@[simp] theorem modTask_agenda (s : State) (t : Nat) (f : Task → Task) : (s.modTask t f).agenda = s.agenda := rfl
@[simp] theorem modTask_inputs (s : State) (t : Nat) (f : Task → Task) : (s.modTask t f).inputs = s.inputs := rfl
@[simp] theorem modTask_openSince (s : State) (t : Nat) (f : Task → Task) : (s.modTask t f).openSince = s.openSince := rfl
@[simp] theorem modTask_core (s : State) (t : Nat) (f : Task → Task) : (s.modTask t f).core = s.core := rfl
@[simp] theorem modTask_issue (s : State) (t : Nat) (f : Task → Task) : (s.modTask t f).issue = s.issue := rfl
@[simp] theorem modTask_freeCount (s : State) (t : Nat) (f : Task → Task) : (s.modTask t f).freeCount = s.freeCount := rfl
@[simp] theorem modTask_oracle (s : State) (t : Nat) (f : Task → Task) : (s.modTask t f).oracle = s.oracle := rfl
@[simp] theorem modTask_out (s : State) (t : Nat) (f : Task → Task) : (s.modTask t f).out = s.out := rfl
@[simp] theorem modTask_cores (s : State) (t : Nat) (f : Task → Task) : (s.modTask t f).cores = s.cores := rfl
@[simp] theorem modTask_clusters (s : State) (t : Nat) (f : Task → Task) : (s.modTask t f).clusters = s.clusters := rfl
@[simp] theorem modTask_stamps (s : State) (t : Nat) (f : Task → Task) : (s.modTask t f).stamps = s.stamps := rfl
@[simp] theorem modTask_nextStamp (s : State) (t : Nat) (f : Task → Task) : (s.modTask t f).nextStamp = s.nextStamp := rfl
@[simp] theorem modTask_hbm (s : State) (t : Nat) (f : Task → Task) : (s.modTask t f).hbm = s.hbm := rfl
@[simp] theorem modTask_lost (s : State) (t : Nat) (f : Task → Task) : (s.modTask t f).lost = s.lost := rfl
@[simp] theorem modTask_cp (s : State) (t : Nat) (f : Task → Task) : (s.modTask t f).cp = s.cp := rfl
@[simp] theorem modTask_cpBanks (s : State) (t : Nat) (f : Task → Task) : (s.modTask t f).cpBanks = s.cpBanks := rfl
@[simp] theorem modTask_slicesOff (s : State) (t : Nat) (f : Task → Task) : (s.modTask t f).slicesOff = s.slicesOff := rfl
@[simp] theorem modTask_evicting (s : State) (t : Nat) (f : Task → Task) : (s.modTask t f).evicting = s.evicting := rfl
@[simp] theorem modTask_bankUse (s : State) (t : Nat) (f : Task → Task) : (s.modTask t f).bankUse = s.bankUse := rfl
@[simp] theorem modTask_way (s : State) (t : Nat) (f : Task → Task) : (s.modTask t f).way = s.way := rfl
@[simp] theorem modTask_host (s : State) (t : Nat) (f : Task → Task) : (s.modTask t f).host = s.host := rfl
@[simp] theorem modTask_saiga (s : State) (t : Nat) (f : Task → Task) : (s.modTask t f).saiga = s.saiga := rfl
@[simp] theorem modTask_l2 (s : State) (t : Nat) (f : Task → Task) : (s.modTask t f).l2 = s.l2 := rfl
@[simp] theorem modTask_pageClass (s : State) (t : Nat) (f : Task → Task) : (s.modTask t f).pageClass = s.pageClass := rfl
@[simp] theorem modTask_classified (s : State) (t : Nat) (f : Task → Task) : (s.modTask t f).classified = s.classified := rfl
@[simp] theorem modTask_lines (s : State) (t : Nat) (f : Task → Task) : (s.modTask t f).lines = s.lines := rfl
@[simp] theorem modTask_halves (s : State) (t : Nat) (f : Task → Task) : (s.modTask t f).halves = s.halves := rfl
@[simp] theorem modTask_cxl (s : State) (t : Nat) (f : Task → Task) : (s.modTask t f).cxl = s.cxl := rfl
@[simp] theorem modTask_parts (s : State) (t : Nat) (f : Task → Task) : (s.modTask t f).parts = s.parts := rfl
@[simp] theorem modTask_nextTask (s : State) (t : Nat) (f : Task → Task) : (s.modTask t f).nextTask = s.nextTask := rfl
@[simp] theorem modTask_signalsHere (s : State) (t : Nat) (f : Task → Task) : (s.modTask t f).signalsHere = s.signalsHere := rfl
@[simp] theorem modTask_slotTab (s : State) (t : Nat) (f : Task → Task) : (s.modTask t f).slotTab = s.slotTab := rfl
@[simp] theorem modTask_subreg (s : State) (t : Nat) (f : Task → Task) : (s.modTask t f).subreg = s.subreg := rfl
@[simp] theorem modTask_launching (s : State) (t : Nat) (f : Task → Task) : (s.modTask t f).launching = s.launching := rfl
@[simp] theorem modTask_substat (s : State) (t : Nat) (f : Task → Task) : (s.modTask t f).substat = s.substat := rfl
@[simp] theorem modTask_evcfg (s : State) (t : Nat) (f : Task → Task) : (s.modTask t f).evcfg = s.evcfg := rfl
@[simp] theorem modTask_evhead (s : State) (t : Nat) (f : Task → Task) : (s.modTask t f).evhead = s.evhead := rfl
@[simp] theorem modTask_evtail (s : State) (t : Nat) (f : Task → Task) : (s.modTask t f).evtail = s.evtail := rfl
@[simp] theorem modTask_evseq (s : State) (t : Nat) (f : Task → Task) : (s.modTask t f).evseq = s.evseq := rfl
@[simp] theorem modTask_sgstat (s : State) (t : Nat) (f : Task → Task) : (s.modTask t f).sgstat = s.sgstat := rfl
@[simp] theorem modTask_harts (s : State) (t : Nat) (f : Task → Task) : (s.modTask t f).harts = s.harts := rfl
@[simp] theorem modTask_pair (s : State) (t : Nat) (f : Task → Task) : (s.modTask t f).pair = s.pair := rfl
@[simp] theorem modTask_failingOver (s : State) (t : Nat) (f : Task → Task) : (s.modTask t f).failingOver = s.failingOver := rfl
@[simp] theorem modTask_failFrom (s : State) (t : Nat) (f : Task → Task) : (s.modTask t f).failFrom = s.failFrom := rfl
@[simp] theorem modTask_failedHart (s : State) (t : Nat) (f : Task → Task) : (s.modTask t f).failedHart = s.failedHart := rfl
@[simp] theorem modTask_saigaOut (s : State) (t : Nat) (f : Task → Task) : (s.modTask t f).saigaOut = s.saigaOut := rfl
@[simp] theorem modTask_pending (s : State) (t : Nat) (f : Task → Task) : (s.modTask t f).pending = s.pending := rfl
@[simp] theorem modTask_prqcfg (s : State) (t : Nat) (f : Task → Task) : (s.modTask t f).prqcfg = s.prqcfg := rfl
@[simp] theorem modTask_prqhead (s : State) (t : Nat) (f : Task → Task) : (s.modTask t f).prqhead = s.prqhead := rfl
@[simp] theorem modTask_prqtail (s : State) (t : Nat) (f : Task → Task) : (s.modTask t f).prqtail = s.prqtail := rfl
@[simp] theorem modTask_pageReqs (s : State) (t : Nat) (f : Task → Task) : (s.modTask t f).pageReqs = s.pageReqs := rfl
@[simp] theorem modTask_nextReq (s : State) (t : Nat) (f : Task → Task) : (s.modTask t f).nextReq = s.nextReq := rfl
@[simp] theorem modTask_tlbinv (s : State) (t : Nat) (f : Task → Task) : (s.modTask t f).tlbinv = s.tlbinv := rfl
@[simp] theorem modTask_tlbinvsz (s : State) (t : Nat) (f : Task → Task) : (s.modTask t f).tlbinvsz = s.tlbinvsz := rfl
@[simp] theorem modTask_pidx (s : State) (t : Nat) (f : Task → Task) : (s.modTask t f).pidx = s.pidx := rfl
@[simp] theorem modTask_alidx (s : State) (t : Nat) (f : Task → Task) : (s.modTask t f).alidx = s.alidx := rfl
@[simp] theorem modTask_patidx (s : State) (t : Nat) (f : Task → Task) : (s.modTask t f).patidx = s.patidx := rfl
@[simp] theorem modTask_blkidx (s : State) (t : Nat) (f : Task → Task) : (s.modTask t f).blkidx = s.blkidx := rfl
@[simp] theorem modTask_occsel (s : State) (t : Nat) (f : Task → Task) : (s.modTask t f).occsel = s.occsel := rfl
@[simp] theorem modTask_lchidx (s : State) (t : Nat) (f : Task → Task) : (s.modTask t f).lchidx = s.lchidx := rfl
@[simp] theorem modTask_pwidx (s : State) (t : Nat) (f : Task → Task) : (s.modTask t f).pwidx = s.pwidx := rfl
@[simp] theorem modTask_islidx (s : State) (t : Nat) (f : Task → Task) : (s.modTask t f).islidx = s.islidx := rfl
@[simp] theorem modTask_pat (s : State) (t : Nat) (f : Task → Task) : (s.modTask t f).pat = s.pat := rfl
@[simp] theorem modTask_blkcls (s : State) (t : Nat) (f : Task → Task) : (s.modTask t f).blkcls = s.blkcls := rfl
@[simp] theorem modTask_mr (s : State) (t : Nat) (f : Task → Task) : (s.modTask t f).mr = s.mr := rfl
@[simp] theorem modTask_mrext (s : State) (t : Nat) (f : Task → Task) : (s.modTask t f).mrext = s.mrext := rfl
@[simp] theorem modTask_audw (s : State) (t : Nat) (f : Task → Task) : (s.modTask t f).audw = s.audw := rfl
@[simp] theorem modTask_audit (s : State) (t : Nat) (f : Task → Task) : (s.modTask t f).audit = s.audit := rfl
@[simp] theorem modTask_chain (s : State) (t : Nat) (f : Task → Task) : (s.modTask t f).chain = s.chain := rfl
@[simp] theorem modTask_lastAudit (s : State) (t : Nat) (f : Task → Task) : (s.modTask t f).lastAudit = s.lastAudit := rfl
@[simp] theorem modTask_sinceCkpt (s : State) (t : Nat) (f : Task → Task) : (s.modTask t f).sinceCkpt = s.sinceCkpt := rfl
@[simp] theorem modTask_ckpt (s : State) (t : Nat) (f : Task → Task) : (s.modTask t f).ckpt = s.ckpt := rfl
@[simp] theorem modTask_spdmSession (s : State) (t : Nat) (f : Task → Task) : (s.modTask t f).spdmSession = s.spdmSession := rfl
@[simp] theorem modTask_transcript (s : State) (t : Nat) (f : Task → Task) : (s.modTask t f).transcript = s.transcript := rfl
@[simp] theorem modTask_ideKeys (s : State) (t : Nat) (f : Task → Task) : (s.modTask t f).ideKeys = s.ideKeys := rfl
@[simp] theorem modTask_delivered (s : State) (t : Nat) (f : Task → Task) : (s.modTask t f).delivered = s.delivered := rfl
@[simp] theorem modTask_derived (s : State) (t : Nat) (f : Task → Task) : (s.modTask t f).derived = s.derived := rfl
@[simp] theorem modTask_nextRegion (s : State) (t : Nat) (f : Task → Task) : (s.modTask t f).nextRegion = s.nextRegion := rfl
@[simp] theorem modTask_held (s : State) (t : Nat) (f : Task → Task) : (s.modTask t f).held = s.held := rfl
@[simp] theorem modTask_pkgNo (s : State) (t : Nat) (f : Task → Task) : (s.modTask t f).pkgNo = s.pkgNo := rfl
@[simp] theorem modTask_lchan (s : State) (t : Nat) (f : Task → Task) : (s.modTask t f).lchan = s.lchan := rfl
@[simp] theorem modTask_lchoff (s : State) (t : Nat) (f : Task → Task) : (s.modTask t f).lchoff = s.lchoff := rfl
@[simp] theorem modTask_lchRet (s : State) (t : Nat) (f : Task → Task) : (s.modTask t f).lchRet = s.lchRet := rfl
@[simp] theorem modTask_deadLanes (s : State) (t : Nat) (f : Task → Task) : (s.modTask t f).deadLanes = s.deadLanes := rfl
@[simp] theorem modTask_posted (s : State) (t : Nat) (f : Task → Task) : (s.modTask t f).posted = s.posted := rfl
@[simp] theorem modTask_replicas (s : State) (t : Nat) (f : Task → Task) : (s.modTask t f).replicas = s.replicas := rfl
@[simp] theorem modTask_nextSeq (s : State) (t : Nat) (f : Task → Task) : (s.modTask t f).nextSeq = s.nextSeq := rfl
@[simp] theorem modTask_rpSent (s : State) (t : Nat) (f : Task → Task) : (s.modTask t f).rpSent = s.rpSent := rfl
@[simp] theorem modTask_rpNext (s : State) (t : Nat) (f : Task → Task) : (s.modTask t f).rpNext = s.rpNext := rfl
@[simp] theorem modTask_rpWait (s : State) (t : Nat) (f : Task → Task) : (s.modTask t f).rpWait = s.rpWait := rfl
@[simp] theorem modTask_rpHome (s : State) (t : Nat) (f : Task → Task) : (s.modTask t f).rpHome = s.rpHome := rfl
@[simp] theorem modTask_rpHolders (s : State) (t : Nat) (f : Task → Task) : (s.modTask t f).rpHolders = s.rpHolders := rfl
@[simp] theorem modTask_bootst (s : State) (t : Nat) (f : Task → Task) : (s.modTask t f).bootst = s.bootst := rfl
@[simp] theorem modTask_pwrgd (s : State) (t : Nat) (f : Task → Task) : (s.modTask t f).pwrgd = s.pwrgd := rfl
@[simp] theorem modTask_thermtrip (s : State) (t : Nat) (f : Task → Task) : (s.modTask t f).thermtrip = s.thermtrip := rfl
@[simp] theorem modTask_tripped (s : State) (t : Nat) (f : Task → Task) : (s.modTask t f).tripped = s.tripped := rfl
@[simp] theorem modTask_alert (s : State) (t : Nat) (f : Task → Task) : (s.modTask t f).alert = s.alert := rfl
@[simp] theorem modTask_hostDead (s : State) (t : Nat) (f : Task → Task) : (s.modTask t f).hostDead = s.hostDead := rfl
@[simp] theorem modTask_hostOld (s : State) (t : Nat) (f : Task → Task) : (s.modTask t f).hostOld = s.hostOld := rfl
@[simp] theorem modTask_resetFrom (s : State) (t : Nat) (f : Task → Task) : (s.modTask t f).resetFrom = s.resetFrom := rfl
@[simp] theorem modTask_gating (s : State) (t : Nat) (f : Task → Task) : (s.modTask t f).gating = s.gating := rfl
@[simp] theorem modTask_islctl (s : State) (t : Nat) (f : Task → Task) : (s.modTask t f).islctl = s.islctl := rfl
@[simp] theorem modTask_throttled (s : State) (t : Nat) (f : Task → Task) : (s.modTask t f).throttled = s.throttled := rfl
@[simp] theorem modTask_powerLow (s : State) (t : Nat) (f : Task → Task) : (s.modTask t f).powerLow = s.powerLow := rfl
@[simp] theorem modTask_pwrlim (s : State) (t : Nat) (f : Task → Task) : (s.modTask t f).pwrlim = s.pwrlim := rfl
@[simp] theorem modTask_pkgctl (s : State) (t : Nat) (f : Task → Task) : (s.modTask t f).pkgctl = s.pkgctl := rfl
@[simp] theorem modTask_exiting (s : State) (t : Nat) (f : Task → Task) : (s.modTask t f).exiting = s.exiting := rfl

/-! ### `modStamp` -/

@[simp] theorem modStamp_cycle (s : State) (i : Nat) (f : Stamp → Stamp) : (s.modStamp i f).cycle = s.cycle := rfl
@[simp] theorem modStamp_tick (s : State) (i : Nat) (f : Stamp → Stamp) : (s.modStamp i f).tick = s.tick := rfl
@[simp] theorem modStamp_tickFrac (s : State) (i : Nat) (f : Stamp → Stamp) : (s.modStamp i f).tickFrac = s.tickFrac := rfl
@[simp] theorem modStamp_islPhase (s : State) (i : Nat) (f : Stamp → Stamp) : (s.modStamp i f).islPhase = s.islPhase := rfl
@[simp] theorem modStamp_agenda (s : State) (i : Nat) (f : Stamp → Stamp) : (s.modStamp i f).agenda = s.agenda := rfl
@[simp] theorem modStamp_inputs (s : State) (i : Nat) (f : Stamp → Stamp) : (s.modStamp i f).inputs = s.inputs := rfl
@[simp] theorem modStamp_openSince (s : State) (i : Nat) (f : Stamp → Stamp) : (s.modStamp i f).openSince = s.openSince := rfl
@[simp] theorem modStamp_core (s : State) (i : Nat) (f : Stamp → Stamp) : (s.modStamp i f).core = s.core := rfl
@[simp] theorem modStamp_issue (s : State) (i : Nat) (f : Stamp → Stamp) : (s.modStamp i f).issue = s.issue := rfl
@[simp] theorem modStamp_freeCount (s : State) (i : Nat) (f : Stamp → Stamp) : (s.modStamp i f).freeCount = s.freeCount := rfl
@[simp] theorem modStamp_oracle (s : State) (i : Nat) (f : Stamp → Stamp) : (s.modStamp i f).oracle = s.oracle := rfl
@[simp] theorem modStamp_out (s : State) (i : Nat) (f : Stamp → Stamp) : (s.modStamp i f).out = s.out := rfl
@[simp] theorem modStamp_cores (s : State) (i : Nat) (f : Stamp → Stamp) : (s.modStamp i f).cores = s.cores := rfl
@[simp] theorem modStamp_clusters (s : State) (i : Nat) (f : Stamp → Stamp) : (s.modStamp i f).clusters = s.clusters := rfl
@[simp] theorem modStamp_nextStamp (s : State) (i : Nat) (f : Stamp → Stamp) : (s.modStamp i f).nextStamp = s.nextStamp := rfl
@[simp] theorem modStamp_hbm (s : State) (i : Nat) (f : Stamp → Stamp) : (s.modStamp i f).hbm = s.hbm := rfl
@[simp] theorem modStamp_lost (s : State) (i : Nat) (f : Stamp → Stamp) : (s.modStamp i f).lost = s.lost := rfl
@[simp] theorem modStamp_cp (s : State) (i : Nat) (f : Stamp → Stamp) : (s.modStamp i f).cp = s.cp := rfl
@[simp] theorem modStamp_cpBanks (s : State) (i : Nat) (f : Stamp → Stamp) : (s.modStamp i f).cpBanks = s.cpBanks := rfl
@[simp] theorem modStamp_slicesOff (s : State) (i : Nat) (f : Stamp → Stamp) : (s.modStamp i f).slicesOff = s.slicesOff := rfl
@[simp] theorem modStamp_evicting (s : State) (i : Nat) (f : Stamp → Stamp) : (s.modStamp i f).evicting = s.evicting := rfl
@[simp] theorem modStamp_bankUse (s : State) (i : Nat) (f : Stamp → Stamp) : (s.modStamp i f).bankUse = s.bankUse := rfl
@[simp] theorem modStamp_way (s : State) (i : Nat) (f : Stamp → Stamp) : (s.modStamp i f).way = s.way := rfl
@[simp] theorem modStamp_host (s : State) (i : Nat) (f : Stamp → Stamp) : (s.modStamp i f).host = s.host := rfl
@[simp] theorem modStamp_saiga (s : State) (i : Nat) (f : Stamp → Stamp) : (s.modStamp i f).saiga = s.saiga := rfl
@[simp] theorem modStamp_l2 (s : State) (i : Nat) (f : Stamp → Stamp) : (s.modStamp i f).l2 = s.l2 := rfl
@[simp] theorem modStamp_pageClass (s : State) (i : Nat) (f : Stamp → Stamp) : (s.modStamp i f).pageClass = s.pageClass := rfl
@[simp] theorem modStamp_classified (s : State) (i : Nat) (f : Stamp → Stamp) : (s.modStamp i f).classified = s.classified := rfl
@[simp] theorem modStamp_lines (s : State) (i : Nat) (f : Stamp → Stamp) : (s.modStamp i f).lines = s.lines := rfl
@[simp] theorem modStamp_halves (s : State) (i : Nat) (f : Stamp → Stamp) : (s.modStamp i f).halves = s.halves := rfl
@[simp] theorem modStamp_cxl (s : State) (i : Nat) (f : Stamp → Stamp) : (s.modStamp i f).cxl = s.cxl := rfl
@[simp] theorem modStamp_parts (s : State) (i : Nat) (f : Stamp → Stamp) : (s.modStamp i f).parts = s.parts := rfl
@[simp] theorem modStamp_tasks (s : State) (i : Nat) (f : Stamp → Stamp) : (s.modStamp i f).tasks = s.tasks := rfl
@[simp] theorem modStamp_nextTask (s : State) (i : Nat) (f : Stamp → Stamp) : (s.modStamp i f).nextTask = s.nextTask := rfl
@[simp] theorem modStamp_signalsHere (s : State) (i : Nat) (f : Stamp → Stamp) : (s.modStamp i f).signalsHere = s.signalsHere := rfl
@[simp] theorem modStamp_slotTab (s : State) (i : Nat) (f : Stamp → Stamp) : (s.modStamp i f).slotTab = s.slotTab := rfl
@[simp] theorem modStamp_subreg (s : State) (i : Nat) (f : Stamp → Stamp) : (s.modStamp i f).subreg = s.subreg := rfl
@[simp] theorem modStamp_launching (s : State) (i : Nat) (f : Stamp → Stamp) : (s.modStamp i f).launching = s.launching := rfl
@[simp] theorem modStamp_substat (s : State) (i : Nat) (f : Stamp → Stamp) : (s.modStamp i f).substat = s.substat := rfl
@[simp] theorem modStamp_evcfg (s : State) (i : Nat) (f : Stamp → Stamp) : (s.modStamp i f).evcfg = s.evcfg := rfl
@[simp] theorem modStamp_evhead (s : State) (i : Nat) (f : Stamp → Stamp) : (s.modStamp i f).evhead = s.evhead := rfl
@[simp] theorem modStamp_evtail (s : State) (i : Nat) (f : Stamp → Stamp) : (s.modStamp i f).evtail = s.evtail := rfl
@[simp] theorem modStamp_evseq (s : State) (i : Nat) (f : Stamp → Stamp) : (s.modStamp i f).evseq = s.evseq := rfl
@[simp] theorem modStamp_sgstat (s : State) (i : Nat) (f : Stamp → Stamp) : (s.modStamp i f).sgstat = s.sgstat := rfl
@[simp] theorem modStamp_harts (s : State) (i : Nat) (f : Stamp → Stamp) : (s.modStamp i f).harts = s.harts := rfl
@[simp] theorem modStamp_pair (s : State) (i : Nat) (f : Stamp → Stamp) : (s.modStamp i f).pair = s.pair := rfl
@[simp] theorem modStamp_failingOver (s : State) (i : Nat) (f : Stamp → Stamp) : (s.modStamp i f).failingOver = s.failingOver := rfl
@[simp] theorem modStamp_failFrom (s : State) (i : Nat) (f : Stamp → Stamp) : (s.modStamp i f).failFrom = s.failFrom := rfl
@[simp] theorem modStamp_failedHart (s : State) (i : Nat) (f : Stamp → Stamp) : (s.modStamp i f).failedHart = s.failedHart := rfl
@[simp] theorem modStamp_saigaOut (s : State) (i : Nat) (f : Stamp → Stamp) : (s.modStamp i f).saigaOut = s.saigaOut := rfl
@[simp] theorem modStamp_pending (s : State) (i : Nat) (f : Stamp → Stamp) : (s.modStamp i f).pending = s.pending := rfl
@[simp] theorem modStamp_prqcfg (s : State) (i : Nat) (f : Stamp → Stamp) : (s.modStamp i f).prqcfg = s.prqcfg := rfl
@[simp] theorem modStamp_prqhead (s : State) (i : Nat) (f : Stamp → Stamp) : (s.modStamp i f).prqhead = s.prqhead := rfl
@[simp] theorem modStamp_prqtail (s : State) (i : Nat) (f : Stamp → Stamp) : (s.modStamp i f).prqtail = s.prqtail := rfl
@[simp] theorem modStamp_pageReqs (s : State) (i : Nat) (f : Stamp → Stamp) : (s.modStamp i f).pageReqs = s.pageReqs := rfl
@[simp] theorem modStamp_nextReq (s : State) (i : Nat) (f : Stamp → Stamp) : (s.modStamp i f).nextReq = s.nextReq := rfl
@[simp] theorem modStamp_tlbinv (s : State) (i : Nat) (f : Stamp → Stamp) : (s.modStamp i f).tlbinv = s.tlbinv := rfl
@[simp] theorem modStamp_tlbinvsz (s : State) (i : Nat) (f : Stamp → Stamp) : (s.modStamp i f).tlbinvsz = s.tlbinvsz := rfl
@[simp] theorem modStamp_pidx (s : State) (i : Nat) (f : Stamp → Stamp) : (s.modStamp i f).pidx = s.pidx := rfl
@[simp] theorem modStamp_alidx (s : State) (i : Nat) (f : Stamp → Stamp) : (s.modStamp i f).alidx = s.alidx := rfl
@[simp] theorem modStamp_patidx (s : State) (i : Nat) (f : Stamp → Stamp) : (s.modStamp i f).patidx = s.patidx := rfl
@[simp] theorem modStamp_blkidx (s : State) (i : Nat) (f : Stamp → Stamp) : (s.modStamp i f).blkidx = s.blkidx := rfl
@[simp] theorem modStamp_occsel (s : State) (i : Nat) (f : Stamp → Stamp) : (s.modStamp i f).occsel = s.occsel := rfl
@[simp] theorem modStamp_lchidx (s : State) (i : Nat) (f : Stamp → Stamp) : (s.modStamp i f).lchidx = s.lchidx := rfl
@[simp] theorem modStamp_pwidx (s : State) (i : Nat) (f : Stamp → Stamp) : (s.modStamp i f).pwidx = s.pwidx := rfl
@[simp] theorem modStamp_islidx (s : State) (i : Nat) (f : Stamp → Stamp) : (s.modStamp i f).islidx = s.islidx := rfl
@[simp] theorem modStamp_pat (s : State) (i : Nat) (f : Stamp → Stamp) : (s.modStamp i f).pat = s.pat := rfl
@[simp] theorem modStamp_blkcls (s : State) (i : Nat) (f : Stamp → Stamp) : (s.modStamp i f).blkcls = s.blkcls := rfl
@[simp] theorem modStamp_mr (s : State) (i : Nat) (f : Stamp → Stamp) : (s.modStamp i f).mr = s.mr := rfl
@[simp] theorem modStamp_mrext (s : State) (i : Nat) (f : Stamp → Stamp) : (s.modStamp i f).mrext = s.mrext := rfl
@[simp] theorem modStamp_audw (s : State) (i : Nat) (f : Stamp → Stamp) : (s.modStamp i f).audw = s.audw := rfl
@[simp] theorem modStamp_audit (s : State) (i : Nat) (f : Stamp → Stamp) : (s.modStamp i f).audit = s.audit := rfl
@[simp] theorem modStamp_chain (s : State) (i : Nat) (f : Stamp → Stamp) : (s.modStamp i f).chain = s.chain := rfl
@[simp] theorem modStamp_lastAudit (s : State) (i : Nat) (f : Stamp → Stamp) : (s.modStamp i f).lastAudit = s.lastAudit := rfl
@[simp] theorem modStamp_sinceCkpt (s : State) (i : Nat) (f : Stamp → Stamp) : (s.modStamp i f).sinceCkpt = s.sinceCkpt := rfl
@[simp] theorem modStamp_ckpt (s : State) (i : Nat) (f : Stamp → Stamp) : (s.modStamp i f).ckpt = s.ckpt := rfl
@[simp] theorem modStamp_spdmSession (s : State) (i : Nat) (f : Stamp → Stamp) : (s.modStamp i f).spdmSession = s.spdmSession := rfl
@[simp] theorem modStamp_transcript (s : State) (i : Nat) (f : Stamp → Stamp) : (s.modStamp i f).transcript = s.transcript := rfl
@[simp] theorem modStamp_ideKeys (s : State) (i : Nat) (f : Stamp → Stamp) : (s.modStamp i f).ideKeys = s.ideKeys := rfl
@[simp] theorem modStamp_delivered (s : State) (i : Nat) (f : Stamp → Stamp) : (s.modStamp i f).delivered = s.delivered := rfl
@[simp] theorem modStamp_derived (s : State) (i : Nat) (f : Stamp → Stamp) : (s.modStamp i f).derived = s.derived := rfl
@[simp] theorem modStamp_nextRegion (s : State) (i : Nat) (f : Stamp → Stamp) : (s.modStamp i f).nextRegion = s.nextRegion := rfl
@[simp] theorem modStamp_held (s : State) (i : Nat) (f : Stamp → Stamp) : (s.modStamp i f).held = s.held := rfl
@[simp] theorem modStamp_pkgNo (s : State) (i : Nat) (f : Stamp → Stamp) : (s.modStamp i f).pkgNo = s.pkgNo := rfl
@[simp] theorem modStamp_lchan (s : State) (i : Nat) (f : Stamp → Stamp) : (s.modStamp i f).lchan = s.lchan := rfl
@[simp] theorem modStamp_lchoff (s : State) (i : Nat) (f : Stamp → Stamp) : (s.modStamp i f).lchoff = s.lchoff := rfl
@[simp] theorem modStamp_lchRet (s : State) (i : Nat) (f : Stamp → Stamp) : (s.modStamp i f).lchRet = s.lchRet := rfl
@[simp] theorem modStamp_deadLanes (s : State) (i : Nat) (f : Stamp → Stamp) : (s.modStamp i f).deadLanes = s.deadLanes := rfl
@[simp] theorem modStamp_posted (s : State) (i : Nat) (f : Stamp → Stamp) : (s.modStamp i f).posted = s.posted := rfl
@[simp] theorem modStamp_replicas (s : State) (i : Nat) (f : Stamp → Stamp) : (s.modStamp i f).replicas = s.replicas := rfl
@[simp] theorem modStamp_nextSeq (s : State) (i : Nat) (f : Stamp → Stamp) : (s.modStamp i f).nextSeq = s.nextSeq := rfl
@[simp] theorem modStamp_rpSent (s : State) (i : Nat) (f : Stamp → Stamp) : (s.modStamp i f).rpSent = s.rpSent := rfl
@[simp] theorem modStamp_rpNext (s : State) (i : Nat) (f : Stamp → Stamp) : (s.modStamp i f).rpNext = s.rpNext := rfl
@[simp] theorem modStamp_rpWait (s : State) (i : Nat) (f : Stamp → Stamp) : (s.modStamp i f).rpWait = s.rpWait := rfl
@[simp] theorem modStamp_rpHome (s : State) (i : Nat) (f : Stamp → Stamp) : (s.modStamp i f).rpHome = s.rpHome := rfl
@[simp] theorem modStamp_rpHolders (s : State) (i : Nat) (f : Stamp → Stamp) : (s.modStamp i f).rpHolders = s.rpHolders := rfl
@[simp] theorem modStamp_bootst (s : State) (i : Nat) (f : Stamp → Stamp) : (s.modStamp i f).bootst = s.bootst := rfl
@[simp] theorem modStamp_pwrgd (s : State) (i : Nat) (f : Stamp → Stamp) : (s.modStamp i f).pwrgd = s.pwrgd := rfl
@[simp] theorem modStamp_thermtrip (s : State) (i : Nat) (f : Stamp → Stamp) : (s.modStamp i f).thermtrip = s.thermtrip := rfl
@[simp] theorem modStamp_tripped (s : State) (i : Nat) (f : Stamp → Stamp) : (s.modStamp i f).tripped = s.tripped := rfl
@[simp] theorem modStamp_alert (s : State) (i : Nat) (f : Stamp → Stamp) : (s.modStamp i f).alert = s.alert := rfl
@[simp] theorem modStamp_hostDead (s : State) (i : Nat) (f : Stamp → Stamp) : (s.modStamp i f).hostDead = s.hostDead := rfl
@[simp] theorem modStamp_hostOld (s : State) (i : Nat) (f : Stamp → Stamp) : (s.modStamp i f).hostOld = s.hostOld := rfl
@[simp] theorem modStamp_resetFrom (s : State) (i : Nat) (f : Stamp → Stamp) : (s.modStamp i f).resetFrom = s.resetFrom := rfl
@[simp] theorem modStamp_gating (s : State) (i : Nat) (f : Stamp → Stamp) : (s.modStamp i f).gating = s.gating := rfl
@[simp] theorem modStamp_islctl (s : State) (i : Nat) (f : Stamp → Stamp) : (s.modStamp i f).islctl = s.islctl := rfl
@[simp] theorem modStamp_throttled (s : State) (i : Nat) (f : Stamp → Stamp) : (s.modStamp i f).throttled = s.throttled := rfl
@[simp] theorem modStamp_powerLow (s : State) (i : Nat) (f : Stamp → Stamp) : (s.modStamp i f).powerLow = s.powerLow := rfl
@[simp] theorem modStamp_pwrlim (s : State) (i : Nat) (f : Stamp → Stamp) : (s.modStamp i f).pwrlim = s.pwrlim := rfl
@[simp] theorem modStamp_pkgctl (s : State) (i : Nat) (f : Stamp → Stamp) : (s.modStamp i f).pkgctl = s.pkgctl := rfl
@[simp] theorem modStamp_exiting (s : State) (i : Nat) (f : Stamp → Stamp) : (s.modStamp i f).exiting = s.exiting := rfl

/-! ### `modCopy` -/

@[simp] theorem modCopy_cycle (s : State) (i c : Nat) (f : Copy → Copy) : (s.modCopy i c f).cycle = s.cycle := rfl
@[simp] theorem modCopy_tick (s : State) (i c : Nat) (f : Copy → Copy) : (s.modCopy i c f).tick = s.tick := rfl
@[simp] theorem modCopy_tickFrac (s : State) (i c : Nat) (f : Copy → Copy) : (s.modCopy i c f).tickFrac = s.tickFrac := rfl
@[simp] theorem modCopy_islPhase (s : State) (i c : Nat) (f : Copy → Copy) : (s.modCopy i c f).islPhase = s.islPhase := rfl
@[simp] theorem modCopy_agenda (s : State) (i c : Nat) (f : Copy → Copy) : (s.modCopy i c f).agenda = s.agenda := rfl
@[simp] theorem modCopy_inputs (s : State) (i c : Nat) (f : Copy → Copy) : (s.modCopy i c f).inputs = s.inputs := rfl
@[simp] theorem modCopy_openSince (s : State) (i c : Nat) (f : Copy → Copy) : (s.modCopy i c f).openSince = s.openSince := rfl
@[simp] theorem modCopy_core (s : State) (i c : Nat) (f : Copy → Copy) : (s.modCopy i c f).core = s.core := rfl
@[simp] theorem modCopy_issue (s : State) (i c : Nat) (f : Copy → Copy) : (s.modCopy i c f).issue = s.issue := rfl
@[simp] theorem modCopy_freeCount (s : State) (i c : Nat) (f : Copy → Copy) : (s.modCopy i c f).freeCount = s.freeCount := rfl
@[simp] theorem modCopy_oracle (s : State) (i c : Nat) (f : Copy → Copy) : (s.modCopy i c f).oracle = s.oracle := rfl
@[simp] theorem modCopy_out (s : State) (i c : Nat) (f : Copy → Copy) : (s.modCopy i c f).out = s.out := rfl
@[simp] theorem modCopy_cores (s : State) (i c : Nat) (f : Copy → Copy) : (s.modCopy i c f).cores = s.cores := rfl
@[simp] theorem modCopy_clusters (s : State) (i c : Nat) (f : Copy → Copy) : (s.modCopy i c f).clusters = s.clusters := rfl
@[simp] theorem modCopy_nextStamp (s : State) (i c : Nat) (f : Copy → Copy) : (s.modCopy i c f).nextStamp = s.nextStamp := rfl
@[simp] theorem modCopy_hbm (s : State) (i c : Nat) (f : Copy → Copy) : (s.modCopy i c f).hbm = s.hbm := rfl
@[simp] theorem modCopy_lost (s : State) (i c : Nat) (f : Copy → Copy) : (s.modCopy i c f).lost = s.lost := rfl
@[simp] theorem modCopy_cp (s : State) (i c : Nat) (f : Copy → Copy) : (s.modCopy i c f).cp = s.cp := rfl
@[simp] theorem modCopy_cpBanks (s : State) (i c : Nat) (f : Copy → Copy) : (s.modCopy i c f).cpBanks = s.cpBanks := rfl
@[simp] theorem modCopy_slicesOff (s : State) (i c : Nat) (f : Copy → Copy) : (s.modCopy i c f).slicesOff = s.slicesOff := rfl
@[simp] theorem modCopy_evicting (s : State) (i c : Nat) (f : Copy → Copy) : (s.modCopy i c f).evicting = s.evicting := rfl
@[simp] theorem modCopy_bankUse (s : State) (i c : Nat) (f : Copy → Copy) : (s.modCopy i c f).bankUse = s.bankUse := rfl
@[simp] theorem modCopy_way (s : State) (i c : Nat) (f : Copy → Copy) : (s.modCopy i c f).way = s.way := rfl
@[simp] theorem modCopy_host (s : State) (i c : Nat) (f : Copy → Copy) : (s.modCopy i c f).host = s.host := rfl
@[simp] theorem modCopy_saiga (s : State) (i c : Nat) (f : Copy → Copy) : (s.modCopy i c f).saiga = s.saiga := rfl
@[simp] theorem modCopy_l2 (s : State) (i c : Nat) (f : Copy → Copy) : (s.modCopy i c f).l2 = s.l2 := rfl
@[simp] theorem modCopy_pageClass (s : State) (i c : Nat) (f : Copy → Copy) : (s.modCopy i c f).pageClass = s.pageClass := rfl
@[simp] theorem modCopy_classified (s : State) (i c : Nat) (f : Copy → Copy) : (s.modCopy i c f).classified = s.classified := rfl
@[simp] theorem modCopy_lines (s : State) (i c : Nat) (f : Copy → Copy) : (s.modCopy i c f).lines = s.lines := rfl
@[simp] theorem modCopy_halves (s : State) (i c : Nat) (f : Copy → Copy) : (s.modCopy i c f).halves = s.halves := rfl
@[simp] theorem modCopy_cxl (s : State) (i c : Nat) (f : Copy → Copy) : (s.modCopy i c f).cxl = s.cxl := rfl
@[simp] theorem modCopy_parts (s : State) (i c : Nat) (f : Copy → Copy) : (s.modCopy i c f).parts = s.parts := rfl
@[simp] theorem modCopy_tasks (s : State) (i c : Nat) (f : Copy → Copy) : (s.modCopy i c f).tasks = s.tasks := rfl
@[simp] theorem modCopy_nextTask (s : State) (i c : Nat) (f : Copy → Copy) : (s.modCopy i c f).nextTask = s.nextTask := rfl
@[simp] theorem modCopy_signalsHere (s : State) (i c : Nat) (f : Copy → Copy) : (s.modCopy i c f).signalsHere = s.signalsHere := rfl
@[simp] theorem modCopy_slotTab (s : State) (i c : Nat) (f : Copy → Copy) : (s.modCopy i c f).slotTab = s.slotTab := rfl
@[simp] theorem modCopy_subreg (s : State) (i c : Nat) (f : Copy → Copy) : (s.modCopy i c f).subreg = s.subreg := rfl
@[simp] theorem modCopy_launching (s : State) (i c : Nat) (f : Copy → Copy) : (s.modCopy i c f).launching = s.launching := rfl
@[simp] theorem modCopy_substat (s : State) (i c : Nat) (f : Copy → Copy) : (s.modCopy i c f).substat = s.substat := rfl
@[simp] theorem modCopy_evcfg (s : State) (i c : Nat) (f : Copy → Copy) : (s.modCopy i c f).evcfg = s.evcfg := rfl
@[simp] theorem modCopy_evhead (s : State) (i c : Nat) (f : Copy → Copy) : (s.modCopy i c f).evhead = s.evhead := rfl
@[simp] theorem modCopy_evtail (s : State) (i c : Nat) (f : Copy → Copy) : (s.modCopy i c f).evtail = s.evtail := rfl
@[simp] theorem modCopy_evseq (s : State) (i c : Nat) (f : Copy → Copy) : (s.modCopy i c f).evseq = s.evseq := rfl
@[simp] theorem modCopy_sgstat (s : State) (i c : Nat) (f : Copy → Copy) : (s.modCopy i c f).sgstat = s.sgstat := rfl
@[simp] theorem modCopy_harts (s : State) (i c : Nat) (f : Copy → Copy) : (s.modCopy i c f).harts = s.harts := rfl
@[simp] theorem modCopy_pair (s : State) (i c : Nat) (f : Copy → Copy) : (s.modCopy i c f).pair = s.pair := rfl
@[simp] theorem modCopy_failingOver (s : State) (i c : Nat) (f : Copy → Copy) : (s.modCopy i c f).failingOver = s.failingOver := rfl
@[simp] theorem modCopy_failFrom (s : State) (i c : Nat) (f : Copy → Copy) : (s.modCopy i c f).failFrom = s.failFrom := rfl
@[simp] theorem modCopy_failedHart (s : State) (i c : Nat) (f : Copy → Copy) : (s.modCopy i c f).failedHart = s.failedHart := rfl
@[simp] theorem modCopy_saigaOut (s : State) (i c : Nat) (f : Copy → Copy) : (s.modCopy i c f).saigaOut = s.saigaOut := rfl
@[simp] theorem modCopy_pending (s : State) (i c : Nat) (f : Copy → Copy) : (s.modCopy i c f).pending = s.pending := rfl
@[simp] theorem modCopy_prqcfg (s : State) (i c : Nat) (f : Copy → Copy) : (s.modCopy i c f).prqcfg = s.prqcfg := rfl
@[simp] theorem modCopy_prqhead (s : State) (i c : Nat) (f : Copy → Copy) : (s.modCopy i c f).prqhead = s.prqhead := rfl
@[simp] theorem modCopy_prqtail (s : State) (i c : Nat) (f : Copy → Copy) : (s.modCopy i c f).prqtail = s.prqtail := rfl
@[simp] theorem modCopy_pageReqs (s : State) (i c : Nat) (f : Copy → Copy) : (s.modCopy i c f).pageReqs = s.pageReqs := rfl
@[simp] theorem modCopy_nextReq (s : State) (i c : Nat) (f : Copy → Copy) : (s.modCopy i c f).nextReq = s.nextReq := rfl
@[simp] theorem modCopy_tlbinv (s : State) (i c : Nat) (f : Copy → Copy) : (s.modCopy i c f).tlbinv = s.tlbinv := rfl
@[simp] theorem modCopy_tlbinvsz (s : State) (i c : Nat) (f : Copy → Copy) : (s.modCopy i c f).tlbinvsz = s.tlbinvsz := rfl
@[simp] theorem modCopy_pidx (s : State) (i c : Nat) (f : Copy → Copy) : (s.modCopy i c f).pidx = s.pidx := rfl
@[simp] theorem modCopy_alidx (s : State) (i c : Nat) (f : Copy → Copy) : (s.modCopy i c f).alidx = s.alidx := rfl
@[simp] theorem modCopy_patidx (s : State) (i c : Nat) (f : Copy → Copy) : (s.modCopy i c f).patidx = s.patidx := rfl
@[simp] theorem modCopy_blkidx (s : State) (i c : Nat) (f : Copy → Copy) : (s.modCopy i c f).blkidx = s.blkidx := rfl
@[simp] theorem modCopy_occsel (s : State) (i c : Nat) (f : Copy → Copy) : (s.modCopy i c f).occsel = s.occsel := rfl
@[simp] theorem modCopy_lchidx (s : State) (i c : Nat) (f : Copy → Copy) : (s.modCopy i c f).lchidx = s.lchidx := rfl
@[simp] theorem modCopy_pwidx (s : State) (i c : Nat) (f : Copy → Copy) : (s.modCopy i c f).pwidx = s.pwidx := rfl
@[simp] theorem modCopy_islidx (s : State) (i c : Nat) (f : Copy → Copy) : (s.modCopy i c f).islidx = s.islidx := rfl
@[simp] theorem modCopy_pat (s : State) (i c : Nat) (f : Copy → Copy) : (s.modCopy i c f).pat = s.pat := rfl
@[simp] theorem modCopy_blkcls (s : State) (i c : Nat) (f : Copy → Copy) : (s.modCopy i c f).blkcls = s.blkcls := rfl
@[simp] theorem modCopy_mr (s : State) (i c : Nat) (f : Copy → Copy) : (s.modCopy i c f).mr = s.mr := rfl
@[simp] theorem modCopy_mrext (s : State) (i c : Nat) (f : Copy → Copy) : (s.modCopy i c f).mrext = s.mrext := rfl
@[simp] theorem modCopy_audw (s : State) (i c : Nat) (f : Copy → Copy) : (s.modCopy i c f).audw = s.audw := rfl
@[simp] theorem modCopy_audit (s : State) (i c : Nat) (f : Copy → Copy) : (s.modCopy i c f).audit = s.audit := rfl
@[simp] theorem modCopy_chain (s : State) (i c : Nat) (f : Copy → Copy) : (s.modCopy i c f).chain = s.chain := rfl
@[simp] theorem modCopy_lastAudit (s : State) (i c : Nat) (f : Copy → Copy) : (s.modCopy i c f).lastAudit = s.lastAudit := rfl
@[simp] theorem modCopy_sinceCkpt (s : State) (i c : Nat) (f : Copy → Copy) : (s.modCopy i c f).sinceCkpt = s.sinceCkpt := rfl
@[simp] theorem modCopy_ckpt (s : State) (i c : Nat) (f : Copy → Copy) : (s.modCopy i c f).ckpt = s.ckpt := rfl
@[simp] theorem modCopy_spdmSession (s : State) (i c : Nat) (f : Copy → Copy) : (s.modCopy i c f).spdmSession = s.spdmSession := rfl
@[simp] theorem modCopy_transcript (s : State) (i c : Nat) (f : Copy → Copy) : (s.modCopy i c f).transcript = s.transcript := rfl
@[simp] theorem modCopy_ideKeys (s : State) (i c : Nat) (f : Copy → Copy) : (s.modCopy i c f).ideKeys = s.ideKeys := rfl
@[simp] theorem modCopy_delivered (s : State) (i c : Nat) (f : Copy → Copy) : (s.modCopy i c f).delivered = s.delivered := rfl
@[simp] theorem modCopy_derived (s : State) (i c : Nat) (f : Copy → Copy) : (s.modCopy i c f).derived = s.derived := rfl
@[simp] theorem modCopy_nextRegion (s : State) (i c : Nat) (f : Copy → Copy) : (s.modCopy i c f).nextRegion = s.nextRegion := rfl
@[simp] theorem modCopy_held (s : State) (i c : Nat) (f : Copy → Copy) : (s.modCopy i c f).held = s.held := rfl
@[simp] theorem modCopy_pkgNo (s : State) (i c : Nat) (f : Copy → Copy) : (s.modCopy i c f).pkgNo = s.pkgNo := rfl
@[simp] theorem modCopy_lchan (s : State) (i c : Nat) (f : Copy → Copy) : (s.modCopy i c f).lchan = s.lchan := rfl
@[simp] theorem modCopy_lchoff (s : State) (i c : Nat) (f : Copy → Copy) : (s.modCopy i c f).lchoff = s.lchoff := rfl
@[simp] theorem modCopy_lchRet (s : State) (i c : Nat) (f : Copy → Copy) : (s.modCopy i c f).lchRet = s.lchRet := rfl
@[simp] theorem modCopy_deadLanes (s : State) (i c : Nat) (f : Copy → Copy) : (s.modCopy i c f).deadLanes = s.deadLanes := rfl
@[simp] theorem modCopy_posted (s : State) (i c : Nat) (f : Copy → Copy) : (s.modCopy i c f).posted = s.posted := rfl
@[simp] theorem modCopy_replicas (s : State) (i c : Nat) (f : Copy → Copy) : (s.modCopy i c f).replicas = s.replicas := rfl
@[simp] theorem modCopy_nextSeq (s : State) (i c : Nat) (f : Copy → Copy) : (s.modCopy i c f).nextSeq = s.nextSeq := rfl
@[simp] theorem modCopy_rpSent (s : State) (i c : Nat) (f : Copy → Copy) : (s.modCopy i c f).rpSent = s.rpSent := rfl
@[simp] theorem modCopy_rpNext (s : State) (i c : Nat) (f : Copy → Copy) : (s.modCopy i c f).rpNext = s.rpNext := rfl
@[simp] theorem modCopy_rpWait (s : State) (i c : Nat) (f : Copy → Copy) : (s.modCopy i c f).rpWait = s.rpWait := rfl
@[simp] theorem modCopy_rpHome (s : State) (i c : Nat) (f : Copy → Copy) : (s.modCopy i c f).rpHome = s.rpHome := rfl
@[simp] theorem modCopy_rpHolders (s : State) (i c : Nat) (f : Copy → Copy) : (s.modCopy i c f).rpHolders = s.rpHolders := rfl
@[simp] theorem modCopy_bootst (s : State) (i c : Nat) (f : Copy → Copy) : (s.modCopy i c f).bootst = s.bootst := rfl
@[simp] theorem modCopy_pwrgd (s : State) (i c : Nat) (f : Copy → Copy) : (s.modCopy i c f).pwrgd = s.pwrgd := rfl
@[simp] theorem modCopy_thermtrip (s : State) (i c : Nat) (f : Copy → Copy) : (s.modCopy i c f).thermtrip = s.thermtrip := rfl
@[simp] theorem modCopy_tripped (s : State) (i c : Nat) (f : Copy → Copy) : (s.modCopy i c f).tripped = s.tripped := rfl
@[simp] theorem modCopy_alert (s : State) (i c : Nat) (f : Copy → Copy) : (s.modCopy i c f).alert = s.alert := rfl
@[simp] theorem modCopy_hostDead (s : State) (i c : Nat) (f : Copy → Copy) : (s.modCopy i c f).hostDead = s.hostDead := rfl
@[simp] theorem modCopy_hostOld (s : State) (i c : Nat) (f : Copy → Copy) : (s.modCopy i c f).hostOld = s.hostOld := rfl
@[simp] theorem modCopy_resetFrom (s : State) (i c : Nat) (f : Copy → Copy) : (s.modCopy i c f).resetFrom = s.resetFrom := rfl
@[simp] theorem modCopy_gating (s : State) (i c : Nat) (f : Copy → Copy) : (s.modCopy i c f).gating = s.gating := rfl
@[simp] theorem modCopy_islctl (s : State) (i c : Nat) (f : Copy → Copy) : (s.modCopy i c f).islctl = s.islctl := rfl
@[simp] theorem modCopy_throttled (s : State) (i c : Nat) (f : Copy → Copy) : (s.modCopy i c f).throttled = s.throttled := rfl
@[simp] theorem modCopy_powerLow (s : State) (i c : Nat) (f : Copy → Copy) : (s.modCopy i c f).powerLow = s.powerLow := rfl
@[simp] theorem modCopy_pwrlim (s : State) (i c : Nat) (f : Copy → Copy) : (s.modCopy i c f).pwrlim = s.pwrlim := rfl
@[simp] theorem modCopy_pkgctl (s : State) (i c : Nat) (f : Copy → Copy) : (s.modCopy i c f).pkgctl = s.pkgctl := rfl
@[simp] theorem modCopy_exiting (s : State) (i c : Nat) (f : Copy → Copy) : (s.modCopy i c f).exiting = s.exiting := rfl

/-! ### `soon` -/

@[simp] theorem soon_cycle (s : State) (l : List Action) : (s.soon l).cycle = s.cycle := rfl
@[simp] theorem soon_tick (s : State) (l : List Action) : (s.soon l).tick = s.tick := rfl
@[simp] theorem soon_tickFrac (s : State) (l : List Action) : (s.soon l).tickFrac = s.tickFrac := rfl
@[simp] theorem soon_islPhase (s : State) (l : List Action) : (s.soon l).islPhase = s.islPhase := rfl
@[simp] theorem soon_inputs (s : State) (l : List Action) : (s.soon l).inputs = s.inputs := rfl
@[simp] theorem soon_openSince (s : State) (l : List Action) : (s.soon l).openSince = s.openSince := rfl
@[simp] theorem soon_core (s : State) (l : List Action) : (s.soon l).core = s.core := rfl
@[simp] theorem soon_issue (s : State) (l : List Action) : (s.soon l).issue = s.issue := rfl
@[simp] theorem soon_freeCount (s : State) (l : List Action) : (s.soon l).freeCount = s.freeCount := rfl
@[simp] theorem soon_oracle (s : State) (l : List Action) : (s.soon l).oracle = s.oracle := rfl
@[simp] theorem soon_out (s : State) (l : List Action) : (s.soon l).out = s.out := rfl
@[simp] theorem soon_cores (s : State) (l : List Action) : (s.soon l).cores = s.cores := rfl
@[simp] theorem soon_clusters (s : State) (l : List Action) : (s.soon l).clusters = s.clusters := rfl
@[simp] theorem soon_stamps (s : State) (l : List Action) : (s.soon l).stamps = s.stamps := rfl
@[simp] theorem soon_nextStamp (s : State) (l : List Action) : (s.soon l).nextStamp = s.nextStamp := rfl
@[simp] theorem soon_hbm (s : State) (l : List Action) : (s.soon l).hbm = s.hbm := rfl
@[simp] theorem soon_lost (s : State) (l : List Action) : (s.soon l).lost = s.lost := rfl
@[simp] theorem soon_cp (s : State) (l : List Action) : (s.soon l).cp = s.cp := rfl
@[simp] theorem soon_cpBanks (s : State) (l : List Action) : (s.soon l).cpBanks = s.cpBanks := rfl
@[simp] theorem soon_slicesOff (s : State) (l : List Action) : (s.soon l).slicesOff = s.slicesOff := rfl
@[simp] theorem soon_evicting (s : State) (l : List Action) : (s.soon l).evicting = s.evicting := rfl
@[simp] theorem soon_bankUse (s : State) (l : List Action) : (s.soon l).bankUse = s.bankUse := rfl
@[simp] theorem soon_way (s : State) (l : List Action) : (s.soon l).way = s.way := rfl
@[simp] theorem soon_host (s : State) (l : List Action) : (s.soon l).host = s.host := rfl
@[simp] theorem soon_saiga (s : State) (l : List Action) : (s.soon l).saiga = s.saiga := rfl
@[simp] theorem soon_l2 (s : State) (l : List Action) : (s.soon l).l2 = s.l2 := rfl
@[simp] theorem soon_pageClass (s : State) (l : List Action) : (s.soon l).pageClass = s.pageClass := rfl
@[simp] theorem soon_classified (s : State) (l : List Action) : (s.soon l).classified = s.classified := rfl
@[simp] theorem soon_lines (s : State) (l : List Action) : (s.soon l).lines = s.lines := rfl
@[simp] theorem soon_halves (s : State) (l : List Action) : (s.soon l).halves = s.halves := rfl
@[simp] theorem soon_cxl (s : State) (l : List Action) : (s.soon l).cxl = s.cxl := rfl
@[simp] theorem soon_parts (s : State) (l : List Action) : (s.soon l).parts = s.parts := rfl
@[simp] theorem soon_tasks (s : State) (l : List Action) : (s.soon l).tasks = s.tasks := rfl
@[simp] theorem soon_nextTask (s : State) (l : List Action) : (s.soon l).nextTask = s.nextTask := rfl
@[simp] theorem soon_signalsHere (s : State) (l : List Action) : (s.soon l).signalsHere = s.signalsHere := rfl
@[simp] theorem soon_slotTab (s : State) (l : List Action) : (s.soon l).slotTab = s.slotTab := rfl
@[simp] theorem soon_subreg (s : State) (l : List Action) : (s.soon l).subreg = s.subreg := rfl
@[simp] theorem soon_launching (s : State) (l : List Action) : (s.soon l).launching = s.launching := rfl
@[simp] theorem soon_substat (s : State) (l : List Action) : (s.soon l).substat = s.substat := rfl
@[simp] theorem soon_evcfg (s : State) (l : List Action) : (s.soon l).evcfg = s.evcfg := rfl
@[simp] theorem soon_evhead (s : State) (l : List Action) : (s.soon l).evhead = s.evhead := rfl
@[simp] theorem soon_evtail (s : State) (l : List Action) : (s.soon l).evtail = s.evtail := rfl
@[simp] theorem soon_evseq (s : State) (l : List Action) : (s.soon l).evseq = s.evseq := rfl
@[simp] theorem soon_sgstat (s : State) (l : List Action) : (s.soon l).sgstat = s.sgstat := rfl
@[simp] theorem soon_harts (s : State) (l : List Action) : (s.soon l).harts = s.harts := rfl
@[simp] theorem soon_pair (s : State) (l : List Action) : (s.soon l).pair = s.pair := rfl
@[simp] theorem soon_failingOver (s : State) (l : List Action) : (s.soon l).failingOver = s.failingOver := rfl
@[simp] theorem soon_failFrom (s : State) (l : List Action) : (s.soon l).failFrom = s.failFrom := rfl
@[simp] theorem soon_failedHart (s : State) (l : List Action) : (s.soon l).failedHart = s.failedHart := rfl
@[simp] theorem soon_saigaOut (s : State) (l : List Action) : (s.soon l).saigaOut = s.saigaOut := rfl
@[simp] theorem soon_pending (s : State) (l : List Action) : (s.soon l).pending = s.pending := rfl
@[simp] theorem soon_prqcfg (s : State) (l : List Action) : (s.soon l).prqcfg = s.prqcfg := rfl
@[simp] theorem soon_prqhead (s : State) (l : List Action) : (s.soon l).prqhead = s.prqhead := rfl
@[simp] theorem soon_prqtail (s : State) (l : List Action) : (s.soon l).prqtail = s.prqtail := rfl
@[simp] theorem soon_pageReqs (s : State) (l : List Action) : (s.soon l).pageReqs = s.pageReqs := rfl
@[simp] theorem soon_nextReq (s : State) (l : List Action) : (s.soon l).nextReq = s.nextReq := rfl
@[simp] theorem soon_tlbinv (s : State) (l : List Action) : (s.soon l).tlbinv = s.tlbinv := rfl
@[simp] theorem soon_tlbinvsz (s : State) (l : List Action) : (s.soon l).tlbinvsz = s.tlbinvsz := rfl
@[simp] theorem soon_pidx (s : State) (l : List Action) : (s.soon l).pidx = s.pidx := rfl
@[simp] theorem soon_alidx (s : State) (l : List Action) : (s.soon l).alidx = s.alidx := rfl
@[simp] theorem soon_patidx (s : State) (l : List Action) : (s.soon l).patidx = s.patidx := rfl
@[simp] theorem soon_blkidx (s : State) (l : List Action) : (s.soon l).blkidx = s.blkidx := rfl
@[simp] theorem soon_occsel (s : State) (l : List Action) : (s.soon l).occsel = s.occsel := rfl
@[simp] theorem soon_lchidx (s : State) (l : List Action) : (s.soon l).lchidx = s.lchidx := rfl
@[simp] theorem soon_pwidx (s : State) (l : List Action) : (s.soon l).pwidx = s.pwidx := rfl
@[simp] theorem soon_islidx (s : State) (l : List Action) : (s.soon l).islidx = s.islidx := rfl
@[simp] theorem soon_pat (s : State) (l : List Action) : (s.soon l).pat = s.pat := rfl
@[simp] theorem soon_blkcls (s : State) (l : List Action) : (s.soon l).blkcls = s.blkcls := rfl
@[simp] theorem soon_mr (s : State) (l : List Action) : (s.soon l).mr = s.mr := rfl
@[simp] theorem soon_mrext (s : State) (l : List Action) : (s.soon l).mrext = s.mrext := rfl
@[simp] theorem soon_audw (s : State) (l : List Action) : (s.soon l).audw = s.audw := rfl
@[simp] theorem soon_audit (s : State) (l : List Action) : (s.soon l).audit = s.audit := rfl
@[simp] theorem soon_chain (s : State) (l : List Action) : (s.soon l).chain = s.chain := rfl
@[simp] theorem soon_lastAudit (s : State) (l : List Action) : (s.soon l).lastAudit = s.lastAudit := rfl
@[simp] theorem soon_sinceCkpt (s : State) (l : List Action) : (s.soon l).sinceCkpt = s.sinceCkpt := rfl
@[simp] theorem soon_ckpt (s : State) (l : List Action) : (s.soon l).ckpt = s.ckpt := rfl
@[simp] theorem soon_spdmSession (s : State) (l : List Action) : (s.soon l).spdmSession = s.spdmSession := rfl
@[simp] theorem soon_transcript (s : State) (l : List Action) : (s.soon l).transcript = s.transcript := rfl
@[simp] theorem soon_ideKeys (s : State) (l : List Action) : (s.soon l).ideKeys = s.ideKeys := rfl
@[simp] theorem soon_delivered (s : State) (l : List Action) : (s.soon l).delivered = s.delivered := rfl
@[simp] theorem soon_derived (s : State) (l : List Action) : (s.soon l).derived = s.derived := rfl
@[simp] theorem soon_nextRegion (s : State) (l : List Action) : (s.soon l).nextRegion = s.nextRegion := rfl
@[simp] theorem soon_held (s : State) (l : List Action) : (s.soon l).held = s.held := rfl
@[simp] theorem soon_pkgNo (s : State) (l : List Action) : (s.soon l).pkgNo = s.pkgNo := rfl
@[simp] theorem soon_lchan (s : State) (l : List Action) : (s.soon l).lchan = s.lchan := rfl
@[simp] theorem soon_lchoff (s : State) (l : List Action) : (s.soon l).lchoff = s.lchoff := rfl
@[simp] theorem soon_lchRet (s : State) (l : List Action) : (s.soon l).lchRet = s.lchRet := rfl
@[simp] theorem soon_deadLanes (s : State) (l : List Action) : (s.soon l).deadLanes = s.deadLanes := rfl
@[simp] theorem soon_posted (s : State) (l : List Action) : (s.soon l).posted = s.posted := rfl
@[simp] theorem soon_replicas (s : State) (l : List Action) : (s.soon l).replicas = s.replicas := rfl
@[simp] theorem soon_nextSeq (s : State) (l : List Action) : (s.soon l).nextSeq = s.nextSeq := rfl
@[simp] theorem soon_rpSent (s : State) (l : List Action) : (s.soon l).rpSent = s.rpSent := rfl
@[simp] theorem soon_rpNext (s : State) (l : List Action) : (s.soon l).rpNext = s.rpNext := rfl
@[simp] theorem soon_rpWait (s : State) (l : List Action) : (s.soon l).rpWait = s.rpWait := rfl
@[simp] theorem soon_rpHome (s : State) (l : List Action) : (s.soon l).rpHome = s.rpHome := rfl
@[simp] theorem soon_rpHolders (s : State) (l : List Action) : (s.soon l).rpHolders = s.rpHolders := rfl
@[simp] theorem soon_bootst (s : State) (l : List Action) : (s.soon l).bootst = s.bootst := rfl
@[simp] theorem soon_pwrgd (s : State) (l : List Action) : (s.soon l).pwrgd = s.pwrgd := rfl
@[simp] theorem soon_thermtrip (s : State) (l : List Action) : (s.soon l).thermtrip = s.thermtrip := rfl
@[simp] theorem soon_tripped (s : State) (l : List Action) : (s.soon l).tripped = s.tripped := rfl
@[simp] theorem soon_alert (s : State) (l : List Action) : (s.soon l).alert = s.alert := rfl
@[simp] theorem soon_hostDead (s : State) (l : List Action) : (s.soon l).hostDead = s.hostDead := rfl
@[simp] theorem soon_hostOld (s : State) (l : List Action) : (s.soon l).hostOld = s.hostOld := rfl
@[simp] theorem soon_resetFrom (s : State) (l : List Action) : (s.soon l).resetFrom = s.resetFrom := rfl
@[simp] theorem soon_gating (s : State) (l : List Action) : (s.soon l).gating = s.gating := rfl
@[simp] theorem soon_islctl (s : State) (l : List Action) : (s.soon l).islctl = s.islctl := rfl
@[simp] theorem soon_throttled (s : State) (l : List Action) : (s.soon l).throttled = s.throttled := rfl
@[simp] theorem soon_powerLow (s : State) (l : List Action) : (s.soon l).powerLow = s.powerLow := rfl
@[simp] theorem soon_pwrlim (s : State) (l : List Action) : (s.soon l).pwrlim = s.pwrlim := rfl
@[simp] theorem soon_pkgctl (s : State) (l : List Action) : (s.soon l).pkgctl = s.pkgctl := rfl
@[simp] theorem soon_exiting (s : State) (l : List Action) : (s.soon l).exiting = s.exiting := rfl

/-! ### `later` -/

@[simp] theorem later_cycle (s : State) (l : List Action) : (s.later l).cycle = s.cycle := by unfold State.later; split <;> rfl
@[simp] theorem later_tick (s : State) (l : List Action) : (s.later l).tick = s.tick := by unfold State.later; split <;> rfl
@[simp] theorem later_tickFrac (s : State) (l : List Action) : (s.later l).tickFrac = s.tickFrac := by unfold State.later; split <;> rfl
@[simp] theorem later_islPhase (s : State) (l : List Action) : (s.later l).islPhase = s.islPhase := by unfold State.later; split <;> rfl
@[simp] theorem later_inputs (s : State) (l : List Action) : (s.later l).inputs = s.inputs := by unfold State.later; split <;> rfl
@[simp] theorem later_openSince (s : State) (l : List Action) : (s.later l).openSince = s.openSince := by unfold State.later; split <;> rfl
@[simp] theorem later_core (s : State) (l : List Action) : (s.later l).core = s.core := by unfold State.later; split <;> rfl
@[simp] theorem later_issue (s : State) (l : List Action) : (s.later l).issue = s.issue := by unfold State.later; split <;> rfl
@[simp] theorem later_freeCount (s : State) (l : List Action) : (s.later l).freeCount = s.freeCount := by unfold State.later; split <;> rfl
@[simp] theorem later_oracle (s : State) (l : List Action) : (s.later l).oracle = s.oracle := by unfold State.later; split <;> rfl
@[simp] theorem later_out (s : State) (l : List Action) : (s.later l).out = s.out := by unfold State.later; split <;> rfl
@[simp] theorem later_cores (s : State) (l : List Action) : (s.later l).cores = s.cores := by unfold State.later; split <;> rfl
@[simp] theorem later_clusters (s : State) (l : List Action) : (s.later l).clusters = s.clusters := by unfold State.later; split <;> rfl
@[simp] theorem later_stamps (s : State) (l : List Action) : (s.later l).stamps = s.stamps := by unfold State.later; split <;> rfl
@[simp] theorem later_nextStamp (s : State) (l : List Action) : (s.later l).nextStamp = s.nextStamp := by unfold State.later; split <;> rfl
@[simp] theorem later_hbm (s : State) (l : List Action) : (s.later l).hbm = s.hbm := by unfold State.later; split <;> rfl
@[simp] theorem later_lost (s : State) (l : List Action) : (s.later l).lost = s.lost := by unfold State.later; split <;> rfl
@[simp] theorem later_cp (s : State) (l : List Action) : (s.later l).cp = s.cp := by unfold State.later; split <;> rfl
@[simp] theorem later_cpBanks (s : State) (l : List Action) : (s.later l).cpBanks = s.cpBanks := by unfold State.later; split <;> rfl
@[simp] theorem later_slicesOff (s : State) (l : List Action) : (s.later l).slicesOff = s.slicesOff := by unfold State.later; split <;> rfl
@[simp] theorem later_evicting (s : State) (l : List Action) : (s.later l).evicting = s.evicting := by unfold State.later; split <;> rfl
@[simp] theorem later_bankUse (s : State) (l : List Action) : (s.later l).bankUse = s.bankUse := by unfold State.later; split <;> rfl
@[simp] theorem later_way (s : State) (l : List Action) : (s.later l).way = s.way := by unfold State.later; split <;> rfl
@[simp] theorem later_host (s : State) (l : List Action) : (s.later l).host = s.host := by unfold State.later; split <;> rfl
@[simp] theorem later_saiga (s : State) (l : List Action) : (s.later l).saiga = s.saiga := by unfold State.later; split <;> rfl
@[simp] theorem later_l2 (s : State) (l : List Action) : (s.later l).l2 = s.l2 := by unfold State.later; split <;> rfl
@[simp] theorem later_pageClass (s : State) (l : List Action) : (s.later l).pageClass = s.pageClass := by unfold State.later; split <;> rfl
@[simp] theorem later_classified (s : State) (l : List Action) : (s.later l).classified = s.classified := by unfold State.later; split <;> rfl
@[simp] theorem later_lines (s : State) (l : List Action) : (s.later l).lines = s.lines := by unfold State.later; split <;> rfl
@[simp] theorem later_halves (s : State) (l : List Action) : (s.later l).halves = s.halves := by unfold State.later; split <;> rfl
@[simp] theorem later_cxl (s : State) (l : List Action) : (s.later l).cxl = s.cxl := by unfold State.later; split <;> rfl
@[simp] theorem later_parts (s : State) (l : List Action) : (s.later l).parts = s.parts := by unfold State.later; split <;> rfl
@[simp] theorem later_tasks (s : State) (l : List Action) : (s.later l).tasks = s.tasks := by unfold State.later; split <;> rfl
@[simp] theorem later_nextTask (s : State) (l : List Action) : (s.later l).nextTask = s.nextTask := by unfold State.later; split <;> rfl
@[simp] theorem later_signalsHere (s : State) (l : List Action) : (s.later l).signalsHere = s.signalsHere := by unfold State.later; split <;> rfl
@[simp] theorem later_slotTab (s : State) (l : List Action) : (s.later l).slotTab = s.slotTab := by unfold State.later; split <;> rfl
@[simp] theorem later_subreg (s : State) (l : List Action) : (s.later l).subreg = s.subreg := by unfold State.later; split <;> rfl
@[simp] theorem later_launching (s : State) (l : List Action) : (s.later l).launching = s.launching := by unfold State.later; split <;> rfl
@[simp] theorem later_substat (s : State) (l : List Action) : (s.later l).substat = s.substat := by unfold State.later; split <;> rfl
@[simp] theorem later_evcfg (s : State) (l : List Action) : (s.later l).evcfg = s.evcfg := by unfold State.later; split <;> rfl
@[simp] theorem later_evhead (s : State) (l : List Action) : (s.later l).evhead = s.evhead := by unfold State.later; split <;> rfl
@[simp] theorem later_evtail (s : State) (l : List Action) : (s.later l).evtail = s.evtail := by unfold State.later; split <;> rfl
@[simp] theorem later_evseq (s : State) (l : List Action) : (s.later l).evseq = s.evseq := by unfold State.later; split <;> rfl
@[simp] theorem later_sgstat (s : State) (l : List Action) : (s.later l).sgstat = s.sgstat := by unfold State.later; split <;> rfl
@[simp] theorem later_harts (s : State) (l : List Action) : (s.later l).harts = s.harts := by unfold State.later; split <;> rfl
@[simp] theorem later_pair (s : State) (l : List Action) : (s.later l).pair = s.pair := by unfold State.later; split <;> rfl
@[simp] theorem later_failingOver (s : State) (l : List Action) : (s.later l).failingOver = s.failingOver := by unfold State.later; split <;> rfl
@[simp] theorem later_failFrom (s : State) (l : List Action) : (s.later l).failFrom = s.failFrom := by unfold State.later; split <;> rfl
@[simp] theorem later_failedHart (s : State) (l : List Action) : (s.later l).failedHart = s.failedHart := by unfold State.later; split <;> rfl
@[simp] theorem later_saigaOut (s : State) (l : List Action) : (s.later l).saigaOut = s.saigaOut := by unfold State.later; split <;> rfl
@[simp] theorem later_pending (s : State) (l : List Action) : (s.later l).pending = s.pending := by unfold State.later; split <;> rfl
@[simp] theorem later_prqcfg (s : State) (l : List Action) : (s.later l).prqcfg = s.prqcfg := by unfold State.later; split <;> rfl
@[simp] theorem later_prqhead (s : State) (l : List Action) : (s.later l).prqhead = s.prqhead := by unfold State.later; split <;> rfl
@[simp] theorem later_prqtail (s : State) (l : List Action) : (s.later l).prqtail = s.prqtail := by unfold State.later; split <;> rfl
@[simp] theorem later_pageReqs (s : State) (l : List Action) : (s.later l).pageReqs = s.pageReqs := by unfold State.later; split <;> rfl
@[simp] theorem later_nextReq (s : State) (l : List Action) : (s.later l).nextReq = s.nextReq := by unfold State.later; split <;> rfl
@[simp] theorem later_tlbinv (s : State) (l : List Action) : (s.later l).tlbinv = s.tlbinv := by unfold State.later; split <;> rfl
@[simp] theorem later_tlbinvsz (s : State) (l : List Action) : (s.later l).tlbinvsz = s.tlbinvsz := by unfold State.later; split <;> rfl
@[simp] theorem later_pidx (s : State) (l : List Action) : (s.later l).pidx = s.pidx := by unfold State.later; split <;> rfl
@[simp] theorem later_alidx (s : State) (l : List Action) : (s.later l).alidx = s.alidx := by unfold State.later; split <;> rfl
@[simp] theorem later_patidx (s : State) (l : List Action) : (s.later l).patidx = s.patidx := by unfold State.later; split <;> rfl
@[simp] theorem later_blkidx (s : State) (l : List Action) : (s.later l).blkidx = s.blkidx := by unfold State.later; split <;> rfl
@[simp] theorem later_occsel (s : State) (l : List Action) : (s.later l).occsel = s.occsel := by unfold State.later; split <;> rfl
@[simp] theorem later_lchidx (s : State) (l : List Action) : (s.later l).lchidx = s.lchidx := by unfold State.later; split <;> rfl
@[simp] theorem later_pwidx (s : State) (l : List Action) : (s.later l).pwidx = s.pwidx := by unfold State.later; split <;> rfl
@[simp] theorem later_islidx (s : State) (l : List Action) : (s.later l).islidx = s.islidx := by unfold State.later; split <;> rfl
@[simp] theorem later_pat (s : State) (l : List Action) : (s.later l).pat = s.pat := by unfold State.later; split <;> rfl
@[simp] theorem later_blkcls (s : State) (l : List Action) : (s.later l).blkcls = s.blkcls := by unfold State.later; split <;> rfl
@[simp] theorem later_mr (s : State) (l : List Action) : (s.later l).mr = s.mr := by unfold State.later; split <;> rfl
@[simp] theorem later_mrext (s : State) (l : List Action) : (s.later l).mrext = s.mrext := by unfold State.later; split <;> rfl
@[simp] theorem later_audw (s : State) (l : List Action) : (s.later l).audw = s.audw := by unfold State.later; split <;> rfl
@[simp] theorem later_audit (s : State) (l : List Action) : (s.later l).audit = s.audit := by unfold State.later; split <;> rfl
@[simp] theorem later_chain (s : State) (l : List Action) : (s.later l).chain = s.chain := by unfold State.later; split <;> rfl
@[simp] theorem later_lastAudit (s : State) (l : List Action) : (s.later l).lastAudit = s.lastAudit := by unfold State.later; split <;> rfl
@[simp] theorem later_sinceCkpt (s : State) (l : List Action) : (s.later l).sinceCkpt = s.sinceCkpt := by unfold State.later; split <;> rfl
@[simp] theorem later_ckpt (s : State) (l : List Action) : (s.later l).ckpt = s.ckpt := by unfold State.later; split <;> rfl
@[simp] theorem later_spdmSession (s : State) (l : List Action) : (s.later l).spdmSession = s.spdmSession := by unfold State.later; split <;> rfl
@[simp] theorem later_transcript (s : State) (l : List Action) : (s.later l).transcript = s.transcript := by unfold State.later; split <;> rfl
@[simp] theorem later_ideKeys (s : State) (l : List Action) : (s.later l).ideKeys = s.ideKeys := by unfold State.later; split <;> rfl
@[simp] theorem later_delivered (s : State) (l : List Action) : (s.later l).delivered = s.delivered := by unfold State.later; split <;> rfl
@[simp] theorem later_derived (s : State) (l : List Action) : (s.later l).derived = s.derived := by unfold State.later; split <;> rfl
@[simp] theorem later_nextRegion (s : State) (l : List Action) : (s.later l).nextRegion = s.nextRegion := by unfold State.later; split <;> rfl
@[simp] theorem later_held (s : State) (l : List Action) : (s.later l).held = s.held := by unfold State.later; split <;> rfl
@[simp] theorem later_pkgNo (s : State) (l : List Action) : (s.later l).pkgNo = s.pkgNo := by unfold State.later; split <;> rfl
@[simp] theorem later_lchan (s : State) (l : List Action) : (s.later l).lchan = s.lchan := by unfold State.later; split <;> rfl
@[simp] theorem later_lchoff (s : State) (l : List Action) : (s.later l).lchoff = s.lchoff := by unfold State.later; split <;> rfl
@[simp] theorem later_lchRet (s : State) (l : List Action) : (s.later l).lchRet = s.lchRet := by unfold State.later; split <;> rfl
@[simp] theorem later_deadLanes (s : State) (l : List Action) : (s.later l).deadLanes = s.deadLanes := by unfold State.later; split <;> rfl
@[simp] theorem later_posted (s : State) (l : List Action) : (s.later l).posted = s.posted := by unfold State.later; split <;> rfl
@[simp] theorem later_replicas (s : State) (l : List Action) : (s.later l).replicas = s.replicas := by unfold State.later; split <;> rfl
@[simp] theorem later_nextSeq (s : State) (l : List Action) : (s.later l).nextSeq = s.nextSeq := by unfold State.later; split <;> rfl
@[simp] theorem later_rpSent (s : State) (l : List Action) : (s.later l).rpSent = s.rpSent := by unfold State.later; split <;> rfl
@[simp] theorem later_rpNext (s : State) (l : List Action) : (s.later l).rpNext = s.rpNext := by unfold State.later; split <;> rfl
@[simp] theorem later_rpWait (s : State) (l : List Action) : (s.later l).rpWait = s.rpWait := by unfold State.later; split <;> rfl
@[simp] theorem later_rpHome (s : State) (l : List Action) : (s.later l).rpHome = s.rpHome := by unfold State.later; split <;> rfl
@[simp] theorem later_rpHolders (s : State) (l : List Action) : (s.later l).rpHolders = s.rpHolders := by unfold State.later; split <;> rfl
@[simp] theorem later_bootst (s : State) (l : List Action) : (s.later l).bootst = s.bootst := by unfold State.later; split <;> rfl
@[simp] theorem later_pwrgd (s : State) (l : List Action) : (s.later l).pwrgd = s.pwrgd := by unfold State.later; split <;> rfl
@[simp] theorem later_thermtrip (s : State) (l : List Action) : (s.later l).thermtrip = s.thermtrip := by unfold State.later; split <;> rfl
@[simp] theorem later_tripped (s : State) (l : List Action) : (s.later l).tripped = s.tripped := by unfold State.later; split <;> rfl
@[simp] theorem later_alert (s : State) (l : List Action) : (s.later l).alert = s.alert := by unfold State.later; split <;> rfl
@[simp] theorem later_hostDead (s : State) (l : List Action) : (s.later l).hostDead = s.hostDead := by unfold State.later; split <;> rfl
@[simp] theorem later_hostOld (s : State) (l : List Action) : (s.later l).hostOld = s.hostOld := by unfold State.later; split <;> rfl
@[simp] theorem later_resetFrom (s : State) (l : List Action) : (s.later l).resetFrom = s.resetFrom := by unfold State.later; split <;> rfl
@[simp] theorem later_gating (s : State) (l : List Action) : (s.later l).gating = s.gating := by unfold State.later; split <;> rfl
@[simp] theorem later_islctl (s : State) (l : List Action) : (s.later l).islctl = s.islctl := by unfold State.later; split <;> rfl
@[simp] theorem later_throttled (s : State) (l : List Action) : (s.later l).throttled = s.throttled := by unfold State.later; split <;> rfl
@[simp] theorem later_powerLow (s : State) (l : List Action) : (s.later l).powerLow = s.powerLow := by unfold State.later; split <;> rfl
@[simp] theorem later_pwrlim (s : State) (l : List Action) : (s.later l).pwrlim = s.pwrlim := by unfold State.later; split <;> rfl
@[simp] theorem later_pkgctl (s : State) (l : List Action) : (s.later l).pkgctl = s.pkgctl := by unfold State.later; split <;> rfl
@[simp] theorem later_exiting (s : State) (l : List Action) : (s.later l).exiting = s.exiting := by unfold State.later; split <;> rfl

/-! ### `send` -/

@[simp] theorem send_cycle (s : State) (o : Out) : (s.send o).cycle = s.cycle := rfl
@[simp] theorem send_tick (s : State) (o : Out) : (s.send o).tick = s.tick := rfl
@[simp] theorem send_tickFrac (s : State) (o : Out) : (s.send o).tickFrac = s.tickFrac := rfl
@[simp] theorem send_islPhase (s : State) (o : Out) : (s.send o).islPhase = s.islPhase := rfl
@[simp] theorem send_agenda (s : State) (o : Out) : (s.send o).agenda = s.agenda := rfl
@[simp] theorem send_inputs (s : State) (o : Out) : (s.send o).inputs = s.inputs := rfl
@[simp] theorem send_openSince (s : State) (o : Out) : (s.send o).openSince = s.openSince := rfl
@[simp] theorem send_core (s : State) (o : Out) : (s.send o).core = s.core := rfl
@[simp] theorem send_issue (s : State) (o : Out) : (s.send o).issue = s.issue := rfl
@[simp] theorem send_freeCount (s : State) (o : Out) : (s.send o).freeCount = s.freeCount := rfl
@[simp] theorem send_oracle (s : State) (o : Out) : (s.send o).oracle = s.oracle := rfl
@[simp] theorem send_cores (s : State) (o : Out) : (s.send o).cores = s.cores := rfl
@[simp] theorem send_clusters (s : State) (o : Out) : (s.send o).clusters = s.clusters := rfl
@[simp] theorem send_stamps (s : State) (o : Out) : (s.send o).stamps = s.stamps := rfl
@[simp] theorem send_nextStamp (s : State) (o : Out) : (s.send o).nextStamp = s.nextStamp := rfl
@[simp] theorem send_hbm (s : State) (o : Out) : (s.send o).hbm = s.hbm := rfl
@[simp] theorem send_lost (s : State) (o : Out) : (s.send o).lost = s.lost := rfl
@[simp] theorem send_cp (s : State) (o : Out) : (s.send o).cp = s.cp := rfl
@[simp] theorem send_cpBanks (s : State) (o : Out) : (s.send o).cpBanks = s.cpBanks := rfl
@[simp] theorem send_slicesOff (s : State) (o : Out) : (s.send o).slicesOff = s.slicesOff := rfl
@[simp] theorem send_evicting (s : State) (o : Out) : (s.send o).evicting = s.evicting := rfl
@[simp] theorem send_bankUse (s : State) (o : Out) : (s.send o).bankUse = s.bankUse := rfl
@[simp] theorem send_way (s : State) (o : Out) : (s.send o).way = s.way := rfl
@[simp] theorem send_host (s : State) (o : Out) : (s.send o).host = s.host := rfl
@[simp] theorem send_saiga (s : State) (o : Out) : (s.send o).saiga = s.saiga := rfl
@[simp] theorem send_l2 (s : State) (o : Out) : (s.send o).l2 = s.l2 := rfl
@[simp] theorem send_pageClass (s : State) (o : Out) : (s.send o).pageClass = s.pageClass := rfl
@[simp] theorem send_classified (s : State) (o : Out) : (s.send o).classified = s.classified := rfl
@[simp] theorem send_lines (s : State) (o : Out) : (s.send o).lines = s.lines := rfl
@[simp] theorem send_halves (s : State) (o : Out) : (s.send o).halves = s.halves := rfl
@[simp] theorem send_cxl (s : State) (o : Out) : (s.send o).cxl = s.cxl := rfl
@[simp] theorem send_parts (s : State) (o : Out) : (s.send o).parts = s.parts := rfl
@[simp] theorem send_tasks (s : State) (o : Out) : (s.send o).tasks = s.tasks := rfl
@[simp] theorem send_nextTask (s : State) (o : Out) : (s.send o).nextTask = s.nextTask := rfl
@[simp] theorem send_signalsHere (s : State) (o : Out) : (s.send o).signalsHere = s.signalsHere := rfl
@[simp] theorem send_slotTab (s : State) (o : Out) : (s.send o).slotTab = s.slotTab := rfl
@[simp] theorem send_subreg (s : State) (o : Out) : (s.send o).subreg = s.subreg := rfl
@[simp] theorem send_launching (s : State) (o : Out) : (s.send o).launching = s.launching := rfl
@[simp] theorem send_substat (s : State) (o : Out) : (s.send o).substat = s.substat := rfl
@[simp] theorem send_evcfg (s : State) (o : Out) : (s.send o).evcfg = s.evcfg := rfl
@[simp] theorem send_evhead (s : State) (o : Out) : (s.send o).evhead = s.evhead := rfl
@[simp] theorem send_evtail (s : State) (o : Out) : (s.send o).evtail = s.evtail := rfl
@[simp] theorem send_evseq (s : State) (o : Out) : (s.send o).evseq = s.evseq := rfl
@[simp] theorem send_sgstat (s : State) (o : Out) : (s.send o).sgstat = s.sgstat := rfl
@[simp] theorem send_harts (s : State) (o : Out) : (s.send o).harts = s.harts := rfl
@[simp] theorem send_pair (s : State) (o : Out) : (s.send o).pair = s.pair := rfl
@[simp] theorem send_failingOver (s : State) (o : Out) : (s.send o).failingOver = s.failingOver := rfl
@[simp] theorem send_failFrom (s : State) (o : Out) : (s.send o).failFrom = s.failFrom := rfl
@[simp] theorem send_failedHart (s : State) (o : Out) : (s.send o).failedHart = s.failedHart := rfl
@[simp] theorem send_saigaOut (s : State) (o : Out) : (s.send o).saigaOut = s.saigaOut := rfl
@[simp] theorem send_pending (s : State) (o : Out) : (s.send o).pending = s.pending := rfl
@[simp] theorem send_prqcfg (s : State) (o : Out) : (s.send o).prqcfg = s.prqcfg := rfl
@[simp] theorem send_prqhead (s : State) (o : Out) : (s.send o).prqhead = s.prqhead := rfl
@[simp] theorem send_prqtail (s : State) (o : Out) : (s.send o).prqtail = s.prqtail := rfl
@[simp] theorem send_pageReqs (s : State) (o : Out) : (s.send o).pageReqs = s.pageReqs := rfl
@[simp] theorem send_nextReq (s : State) (o : Out) : (s.send o).nextReq = s.nextReq := rfl
@[simp] theorem send_tlbinv (s : State) (o : Out) : (s.send o).tlbinv = s.tlbinv := rfl
@[simp] theorem send_tlbinvsz (s : State) (o : Out) : (s.send o).tlbinvsz = s.tlbinvsz := rfl
@[simp] theorem send_pidx (s : State) (o : Out) : (s.send o).pidx = s.pidx := rfl
@[simp] theorem send_alidx (s : State) (o : Out) : (s.send o).alidx = s.alidx := rfl
@[simp] theorem send_patidx (s : State) (o : Out) : (s.send o).patidx = s.patidx := rfl
@[simp] theorem send_blkidx (s : State) (o : Out) : (s.send o).blkidx = s.blkidx := rfl
@[simp] theorem send_occsel (s : State) (o : Out) : (s.send o).occsel = s.occsel := rfl
@[simp] theorem send_lchidx (s : State) (o : Out) : (s.send o).lchidx = s.lchidx := rfl
@[simp] theorem send_pwidx (s : State) (o : Out) : (s.send o).pwidx = s.pwidx := rfl
@[simp] theorem send_islidx (s : State) (o : Out) : (s.send o).islidx = s.islidx := rfl
@[simp] theorem send_pat (s : State) (o : Out) : (s.send o).pat = s.pat := rfl
@[simp] theorem send_blkcls (s : State) (o : Out) : (s.send o).blkcls = s.blkcls := rfl
@[simp] theorem send_mr (s : State) (o : Out) : (s.send o).mr = s.mr := rfl
@[simp] theorem send_mrext (s : State) (o : Out) : (s.send o).mrext = s.mrext := rfl
@[simp] theorem send_audw (s : State) (o : Out) : (s.send o).audw = s.audw := rfl
@[simp] theorem send_audit (s : State) (o : Out) : (s.send o).audit = s.audit := rfl
@[simp] theorem send_chain (s : State) (o : Out) : (s.send o).chain = s.chain := rfl
@[simp] theorem send_lastAudit (s : State) (o : Out) : (s.send o).lastAudit = s.lastAudit := rfl
@[simp] theorem send_sinceCkpt (s : State) (o : Out) : (s.send o).sinceCkpt = s.sinceCkpt := rfl
@[simp] theorem send_ckpt (s : State) (o : Out) : (s.send o).ckpt = s.ckpt := rfl
@[simp] theorem send_spdmSession (s : State) (o : Out) : (s.send o).spdmSession = s.spdmSession := rfl
@[simp] theorem send_transcript (s : State) (o : Out) : (s.send o).transcript = s.transcript := rfl
@[simp] theorem send_ideKeys (s : State) (o : Out) : (s.send o).ideKeys = s.ideKeys := rfl
@[simp] theorem send_delivered (s : State) (o : Out) : (s.send o).delivered = s.delivered := rfl
@[simp] theorem send_derived (s : State) (o : Out) : (s.send o).derived = s.derived := rfl
@[simp] theorem send_nextRegion (s : State) (o : Out) : (s.send o).nextRegion = s.nextRegion := rfl
@[simp] theorem send_held (s : State) (o : Out) : (s.send o).held = s.held := rfl
@[simp] theorem send_pkgNo (s : State) (o : Out) : (s.send o).pkgNo = s.pkgNo := rfl
@[simp] theorem send_lchan (s : State) (o : Out) : (s.send o).lchan = s.lchan := rfl
@[simp] theorem send_lchoff (s : State) (o : Out) : (s.send o).lchoff = s.lchoff := rfl
@[simp] theorem send_lchRet (s : State) (o : Out) : (s.send o).lchRet = s.lchRet := rfl
@[simp] theorem send_deadLanes (s : State) (o : Out) : (s.send o).deadLanes = s.deadLanes := rfl
@[simp] theorem send_posted (s : State) (o : Out) : (s.send o).posted = s.posted := rfl
@[simp] theorem send_replicas (s : State) (o : Out) : (s.send o).replicas = s.replicas := rfl
@[simp] theorem send_nextSeq (s : State) (o : Out) : (s.send o).nextSeq = s.nextSeq := rfl
@[simp] theorem send_rpSent (s : State) (o : Out) : (s.send o).rpSent = s.rpSent := rfl
@[simp] theorem send_rpNext (s : State) (o : Out) : (s.send o).rpNext = s.rpNext := rfl
@[simp] theorem send_rpWait (s : State) (o : Out) : (s.send o).rpWait = s.rpWait := rfl
@[simp] theorem send_rpHome (s : State) (o : Out) : (s.send o).rpHome = s.rpHome := rfl
@[simp] theorem send_rpHolders (s : State) (o : Out) : (s.send o).rpHolders = s.rpHolders := rfl
@[simp] theorem send_bootst (s : State) (o : Out) : (s.send o).bootst = s.bootst := rfl
@[simp] theorem send_pwrgd (s : State) (o : Out) : (s.send o).pwrgd = s.pwrgd := rfl
@[simp] theorem send_thermtrip (s : State) (o : Out) : (s.send o).thermtrip = s.thermtrip := rfl
@[simp] theorem send_tripped (s : State) (o : Out) : (s.send o).tripped = s.tripped := rfl
@[simp] theorem send_alert (s : State) (o : Out) : (s.send o).alert = s.alert := rfl
@[simp] theorem send_hostDead (s : State) (o : Out) : (s.send o).hostDead = s.hostDead := rfl
@[simp] theorem send_hostOld (s : State) (o : Out) : (s.send o).hostOld = s.hostOld := rfl
@[simp] theorem send_resetFrom (s : State) (o : Out) : (s.send o).resetFrom = s.resetFrom := rfl
@[simp] theorem send_gating (s : State) (o : Out) : (s.send o).gating = s.gating := rfl
@[simp] theorem send_islctl (s : State) (o : Out) : (s.send o).islctl = s.islctl := rfl
@[simp] theorem send_throttled (s : State) (o : Out) : (s.send o).throttled = s.throttled := rfl
@[simp] theorem send_powerLow (s : State) (o : Out) : (s.send o).powerLow = s.powerLow := rfl
@[simp] theorem send_pwrlim (s : State) (o : Out) : (s.send o).pwrlim = s.pwrlim := rfl
@[simp] theorem send_pkgctl (s : State) (o : Out) : (s.send o).pkgctl = s.pkgctl := rfl
@[simp] theorem send_exiting (s : State) (o : Out) : (s.send o).exiting = s.exiting := rfl

/-! ### `present` -/

@[simp] theorem present_cycle (s : State) (n : Nat) (e : Event) : (s.present n e).cycle = s.cycle := rfl
@[simp] theorem present_tick (s : State) (n : Nat) (e : Event) : (s.present n e).tick = s.tick := rfl
@[simp] theorem present_tickFrac (s : State) (n : Nat) (e : Event) : (s.present n e).tickFrac = s.tickFrac := rfl
@[simp] theorem present_islPhase (s : State) (n : Nat) (e : Event) : (s.present n e).islPhase = s.islPhase := rfl
@[simp] theorem present_agenda (s : State) (n : Nat) (e : Event) : (s.present n e).agenda = s.agenda := rfl
@[simp] theorem present_inputs (s : State) (n : Nat) (e : Event) : (s.present n e).inputs = s.inputs := rfl
@[simp] theorem present_openSince (s : State) (n : Nat) (e : Event) : (s.present n e).openSince = s.openSince := rfl
@[simp] theorem present_core (s : State) (n : Nat) (e : Event) : (s.present n e).core = s.core := rfl
@[simp] theorem present_issue (s : State) (n : Nat) (e : Event) : (s.present n e).issue = s.issue := rfl
@[simp] theorem present_freeCount (s : State) (n : Nat) (e : Event) : (s.present n e).freeCount = s.freeCount := rfl
@[simp] theorem present_oracle (s : State) (n : Nat) (e : Event) : (s.present n e).oracle = s.oracle := rfl
@[simp] theorem present_out (s : State) (n : Nat) (e : Event) : (s.present n e).out = s.out := rfl
@[simp] theorem present_cores (s : State) (n : Nat) (e : Event) : (s.present n e).cores = s.cores := rfl
@[simp] theorem present_clusters (s : State) (n : Nat) (e : Event) : (s.present n e).clusters = s.clusters := rfl
@[simp] theorem present_stamps (s : State) (n : Nat) (e : Event) : (s.present n e).stamps = s.stamps := rfl
@[simp] theorem present_nextStamp (s : State) (n : Nat) (e : Event) : (s.present n e).nextStamp = s.nextStamp := rfl
@[simp] theorem present_hbm (s : State) (n : Nat) (e : Event) : (s.present n e).hbm = s.hbm := rfl
@[simp] theorem present_lost (s : State) (n : Nat) (e : Event) : (s.present n e).lost = s.lost := rfl
@[simp] theorem present_cp (s : State) (n : Nat) (e : Event) : (s.present n e).cp = s.cp := rfl
@[simp] theorem present_cpBanks (s : State) (n : Nat) (e : Event) : (s.present n e).cpBanks = s.cpBanks := rfl
@[simp] theorem present_slicesOff (s : State) (n : Nat) (e : Event) : (s.present n e).slicesOff = s.slicesOff := rfl
@[simp] theorem present_evicting (s : State) (n : Nat) (e : Event) : (s.present n e).evicting = s.evicting := rfl
@[simp] theorem present_bankUse (s : State) (n : Nat) (e : Event) : (s.present n e).bankUse = s.bankUse := rfl
@[simp] theorem present_way (s : State) (n : Nat) (e : Event) : (s.present n e).way = s.way := rfl
@[simp] theorem present_host (s : State) (n : Nat) (e : Event) : (s.present n e).host = s.host := rfl
@[simp] theorem present_saiga (s : State) (n : Nat) (e : Event) : (s.present n e).saiga = s.saiga := rfl
@[simp] theorem present_l2 (s : State) (n : Nat) (e : Event) : (s.present n e).l2 = s.l2 := rfl
@[simp] theorem present_pageClass (s : State) (n : Nat) (e : Event) : (s.present n e).pageClass = s.pageClass := rfl
@[simp] theorem present_classified (s : State) (n : Nat) (e : Event) : (s.present n e).classified = s.classified := rfl
@[simp] theorem present_lines (s : State) (n : Nat) (e : Event) : (s.present n e).lines = s.lines := rfl
@[simp] theorem present_halves (s : State) (n : Nat) (e : Event) : (s.present n e).halves = s.halves := rfl
@[simp] theorem present_cxl (s : State) (n : Nat) (e : Event) : (s.present n e).cxl = s.cxl := rfl
@[simp] theorem present_parts (s : State) (n : Nat) (e : Event) : (s.present n e).parts = s.parts := rfl
@[simp] theorem present_tasks (s : State) (n : Nat) (e : Event) : (s.present n e).tasks = s.tasks := rfl
@[simp] theorem present_nextTask (s : State) (n : Nat) (e : Event) : (s.present n e).nextTask = s.nextTask := rfl
@[simp] theorem present_signalsHere (s : State) (n : Nat) (e : Event) : (s.present n e).signalsHere = s.signalsHere := rfl
@[simp] theorem present_slotTab (s : State) (n : Nat) (e : Event) : (s.present n e).slotTab = s.slotTab := rfl
@[simp] theorem present_subreg (s : State) (n : Nat) (e : Event) : (s.present n e).subreg = s.subreg := rfl
@[simp] theorem present_launching (s : State) (n : Nat) (e : Event) : (s.present n e).launching = s.launching := rfl
@[simp] theorem present_substat (s : State) (n : Nat) (e : Event) : (s.present n e).substat = s.substat := rfl
@[simp] theorem present_evcfg (s : State) (n : Nat) (e : Event) : (s.present n e).evcfg = s.evcfg := rfl
@[simp] theorem present_evhead (s : State) (n : Nat) (e : Event) : (s.present n e).evhead = s.evhead := rfl
@[simp] theorem present_evtail (s : State) (n : Nat) (e : Event) : (s.present n e).evtail = s.evtail := rfl
@[simp] theorem present_evseq (s : State) (n : Nat) (e : Event) : (s.present n e).evseq = s.evseq := rfl
@[simp] theorem present_sgstat (s : State) (n : Nat) (e : Event) : (s.present n e).sgstat = s.sgstat := rfl
@[simp] theorem present_harts (s : State) (n : Nat) (e : Event) : (s.present n e).harts = s.harts := rfl
@[simp] theorem present_pair (s : State) (n : Nat) (e : Event) : (s.present n e).pair = s.pair := rfl
@[simp] theorem present_failingOver (s : State) (n : Nat) (e : Event) : (s.present n e).failingOver = s.failingOver := rfl
@[simp] theorem present_failFrom (s : State) (n : Nat) (e : Event) : (s.present n e).failFrom = s.failFrom := rfl
@[simp] theorem present_failedHart (s : State) (n : Nat) (e : Event) : (s.present n e).failedHart = s.failedHart := rfl
@[simp] theorem present_saigaOut (s : State) (n : Nat) (e : Event) : (s.present n e).saigaOut = s.saigaOut := rfl
@[simp] theorem present_prqcfg (s : State) (n : Nat) (e : Event) : (s.present n e).prqcfg = s.prqcfg := rfl
@[simp] theorem present_prqhead (s : State) (n : Nat) (e : Event) : (s.present n e).prqhead = s.prqhead := rfl
@[simp] theorem present_prqtail (s : State) (n : Nat) (e : Event) : (s.present n e).prqtail = s.prqtail := rfl
@[simp] theorem present_pageReqs (s : State) (n : Nat) (e : Event) : (s.present n e).pageReqs = s.pageReqs := rfl
@[simp] theorem present_nextReq (s : State) (n : Nat) (e : Event) : (s.present n e).nextReq = s.nextReq := rfl
@[simp] theorem present_tlbinv (s : State) (n : Nat) (e : Event) : (s.present n e).tlbinv = s.tlbinv := rfl
@[simp] theorem present_tlbinvsz (s : State) (n : Nat) (e : Event) : (s.present n e).tlbinvsz = s.tlbinvsz := rfl
@[simp] theorem present_pidx (s : State) (n : Nat) (e : Event) : (s.present n e).pidx = s.pidx := rfl
@[simp] theorem present_alidx (s : State) (n : Nat) (e : Event) : (s.present n e).alidx = s.alidx := rfl
@[simp] theorem present_patidx (s : State) (n : Nat) (e : Event) : (s.present n e).patidx = s.patidx := rfl
@[simp] theorem present_blkidx (s : State) (n : Nat) (e : Event) : (s.present n e).blkidx = s.blkidx := rfl
@[simp] theorem present_occsel (s : State) (n : Nat) (e : Event) : (s.present n e).occsel = s.occsel := rfl
@[simp] theorem present_lchidx (s : State) (n : Nat) (e : Event) : (s.present n e).lchidx = s.lchidx := rfl
@[simp] theorem present_pwidx (s : State) (n : Nat) (e : Event) : (s.present n e).pwidx = s.pwidx := rfl
@[simp] theorem present_islidx (s : State) (n : Nat) (e : Event) : (s.present n e).islidx = s.islidx := rfl
@[simp] theorem present_pat (s : State) (n : Nat) (e : Event) : (s.present n e).pat = s.pat := rfl
@[simp] theorem present_blkcls (s : State) (n : Nat) (e : Event) : (s.present n e).blkcls = s.blkcls := rfl
@[simp] theorem present_mr (s : State) (n : Nat) (e : Event) : (s.present n e).mr = s.mr := rfl
@[simp] theorem present_mrext (s : State) (n : Nat) (e : Event) : (s.present n e).mrext = s.mrext := rfl
@[simp] theorem present_audw (s : State) (n : Nat) (e : Event) : (s.present n e).audw = s.audw := rfl
@[simp] theorem present_audit (s : State) (n : Nat) (e : Event) : (s.present n e).audit = s.audit := rfl
@[simp] theorem present_chain (s : State) (n : Nat) (e : Event) : (s.present n e).chain = s.chain := rfl
@[simp] theorem present_lastAudit (s : State) (n : Nat) (e : Event) : (s.present n e).lastAudit = s.lastAudit := rfl
@[simp] theorem present_sinceCkpt (s : State) (n : Nat) (e : Event) : (s.present n e).sinceCkpt = s.sinceCkpt := rfl
@[simp] theorem present_ckpt (s : State) (n : Nat) (e : Event) : (s.present n e).ckpt = s.ckpt := rfl
@[simp] theorem present_spdmSession (s : State) (n : Nat) (e : Event) : (s.present n e).spdmSession = s.spdmSession := rfl
@[simp] theorem present_transcript (s : State) (n : Nat) (e : Event) : (s.present n e).transcript = s.transcript := rfl
@[simp] theorem present_ideKeys (s : State) (n : Nat) (e : Event) : (s.present n e).ideKeys = s.ideKeys := rfl
@[simp] theorem present_delivered (s : State) (n : Nat) (e : Event) : (s.present n e).delivered = s.delivered := rfl
@[simp] theorem present_derived (s : State) (n : Nat) (e : Event) : (s.present n e).derived = s.derived := rfl
@[simp] theorem present_nextRegion (s : State) (n : Nat) (e : Event) : (s.present n e).nextRegion = s.nextRegion := rfl
@[simp] theorem present_held (s : State) (n : Nat) (e : Event) : (s.present n e).held = s.held := rfl
@[simp] theorem present_pkgNo (s : State) (n : Nat) (e : Event) : (s.present n e).pkgNo = s.pkgNo := rfl
@[simp] theorem present_lchan (s : State) (n : Nat) (e : Event) : (s.present n e).lchan = s.lchan := rfl
@[simp] theorem present_lchoff (s : State) (n : Nat) (e : Event) : (s.present n e).lchoff = s.lchoff := rfl
@[simp] theorem present_lchRet (s : State) (n : Nat) (e : Event) : (s.present n e).lchRet = s.lchRet := rfl
@[simp] theorem present_deadLanes (s : State) (n : Nat) (e : Event) : (s.present n e).deadLanes = s.deadLanes := rfl
@[simp] theorem present_posted (s : State) (n : Nat) (e : Event) : (s.present n e).posted = s.posted := rfl
@[simp] theorem present_replicas (s : State) (n : Nat) (e : Event) : (s.present n e).replicas = s.replicas := rfl
@[simp] theorem present_nextSeq (s : State) (n : Nat) (e : Event) : (s.present n e).nextSeq = s.nextSeq := rfl
@[simp] theorem present_rpSent (s : State) (n : Nat) (e : Event) : (s.present n e).rpSent = s.rpSent := rfl
@[simp] theorem present_rpNext (s : State) (n : Nat) (e : Event) : (s.present n e).rpNext = s.rpNext := rfl
@[simp] theorem present_rpWait (s : State) (n : Nat) (e : Event) : (s.present n e).rpWait = s.rpWait := rfl
@[simp] theorem present_rpHome (s : State) (n : Nat) (e : Event) : (s.present n e).rpHome = s.rpHome := rfl
@[simp] theorem present_rpHolders (s : State) (n : Nat) (e : Event) : (s.present n e).rpHolders = s.rpHolders := rfl
@[simp] theorem present_bootst (s : State) (n : Nat) (e : Event) : (s.present n e).bootst = s.bootst := rfl
@[simp] theorem present_pwrgd (s : State) (n : Nat) (e : Event) : (s.present n e).pwrgd = s.pwrgd := rfl
@[simp] theorem present_thermtrip (s : State) (n : Nat) (e : Event) : (s.present n e).thermtrip = s.thermtrip := rfl
@[simp] theorem present_tripped (s : State) (n : Nat) (e : Event) : (s.present n e).tripped = s.tripped := rfl
@[simp] theorem present_alert (s : State) (n : Nat) (e : Event) : (s.present n e).alert = s.alert := rfl
@[simp] theorem present_hostDead (s : State) (n : Nat) (e : Event) : (s.present n e).hostDead = s.hostDead := rfl
@[simp] theorem present_hostOld (s : State) (n : Nat) (e : Event) : (s.present n e).hostOld = s.hostOld := rfl
@[simp] theorem present_resetFrom (s : State) (n : Nat) (e : Event) : (s.present n e).resetFrom = s.resetFrom := rfl
@[simp] theorem present_gating (s : State) (n : Nat) (e : Event) : (s.present n e).gating = s.gating := rfl
@[simp] theorem present_islctl (s : State) (n : Nat) (e : Event) : (s.present n e).islctl = s.islctl := rfl
@[simp] theorem present_throttled (s : State) (n : Nat) (e : Event) : (s.present n e).throttled = s.throttled := rfl
@[simp] theorem present_powerLow (s : State) (n : Nat) (e : Event) : (s.present n e).powerLow = s.powerLow := rfl
@[simp] theorem present_pwrlim (s : State) (n : Nat) (e : Event) : (s.present n e).pwrlim = s.pwrlim := rfl
@[simp] theorem present_pkgctl (s : State) (n : Nat) (e : Event) : (s.present n e).pkgctl = s.pkgctl := rfl
@[simp] theorem present_exiting (s : State) (n : Nat) (e : Event) : (s.present n e).exiting = s.exiting := rfl

/-! ### `chosen` -/

@[simp] theorem chosen_cycle (s : State) : (s.chosen).cycle = s.cycle := rfl
@[simp] theorem chosen_tick (s : State) : (s.chosen).tick = s.tick := rfl
@[simp] theorem chosen_tickFrac (s : State) : (s.chosen).tickFrac = s.tickFrac := rfl
@[simp] theorem chosen_islPhase (s : State) : (s.chosen).islPhase = s.islPhase := rfl
@[simp] theorem chosen_agenda (s : State) : (s.chosen).agenda = s.agenda := rfl
@[simp] theorem chosen_inputs (s : State) : (s.chosen).inputs = s.inputs := rfl
@[simp] theorem chosen_openSince (s : State) : (s.chosen).openSince = s.openSince := rfl
@[simp] theorem chosen_core (s : State) : (s.chosen).core = s.core := rfl
@[simp] theorem chosen_issue (s : State) : (s.chosen).issue = s.issue := rfl
@[simp] theorem chosen_freeCount (s : State) : (s.chosen).freeCount = s.freeCount := rfl
@[simp] theorem chosen_out (s : State) : (s.chosen).out = s.out := rfl
@[simp] theorem chosen_cores (s : State) : (s.chosen).cores = s.cores := rfl
@[simp] theorem chosen_clusters (s : State) : (s.chosen).clusters = s.clusters := rfl
@[simp] theorem chosen_stamps (s : State) : (s.chosen).stamps = s.stamps := rfl
@[simp] theorem chosen_nextStamp (s : State) : (s.chosen).nextStamp = s.nextStamp := rfl
@[simp] theorem chosen_hbm (s : State) : (s.chosen).hbm = s.hbm := rfl
@[simp] theorem chosen_lost (s : State) : (s.chosen).lost = s.lost := rfl
@[simp] theorem chosen_cp (s : State) : (s.chosen).cp = s.cp := rfl
@[simp] theorem chosen_cpBanks (s : State) : (s.chosen).cpBanks = s.cpBanks := rfl
@[simp] theorem chosen_slicesOff (s : State) : (s.chosen).slicesOff = s.slicesOff := rfl
@[simp] theorem chosen_evicting (s : State) : (s.chosen).evicting = s.evicting := rfl
@[simp] theorem chosen_bankUse (s : State) : (s.chosen).bankUse = s.bankUse := rfl
@[simp] theorem chosen_way (s : State) : (s.chosen).way = s.way := rfl
@[simp] theorem chosen_host (s : State) : (s.chosen).host = s.host := rfl
@[simp] theorem chosen_saiga (s : State) : (s.chosen).saiga = s.saiga := rfl
@[simp] theorem chosen_l2 (s : State) : (s.chosen).l2 = s.l2 := rfl
@[simp] theorem chosen_pageClass (s : State) : (s.chosen).pageClass = s.pageClass := rfl
@[simp] theorem chosen_classified (s : State) : (s.chosen).classified = s.classified := rfl
@[simp] theorem chosen_lines (s : State) : (s.chosen).lines = s.lines := rfl
@[simp] theorem chosen_halves (s : State) : (s.chosen).halves = s.halves := rfl
@[simp] theorem chosen_cxl (s : State) : (s.chosen).cxl = s.cxl := rfl
@[simp] theorem chosen_parts (s : State) : (s.chosen).parts = s.parts := rfl
@[simp] theorem chosen_tasks (s : State) : (s.chosen).tasks = s.tasks := rfl
@[simp] theorem chosen_nextTask (s : State) : (s.chosen).nextTask = s.nextTask := rfl
@[simp] theorem chosen_signalsHere (s : State) : (s.chosen).signalsHere = s.signalsHere := rfl
@[simp] theorem chosen_slotTab (s : State) : (s.chosen).slotTab = s.slotTab := rfl
@[simp] theorem chosen_subreg (s : State) : (s.chosen).subreg = s.subreg := rfl
@[simp] theorem chosen_launching (s : State) : (s.chosen).launching = s.launching := rfl
@[simp] theorem chosen_substat (s : State) : (s.chosen).substat = s.substat := rfl
@[simp] theorem chosen_evcfg (s : State) : (s.chosen).evcfg = s.evcfg := rfl
@[simp] theorem chosen_evhead (s : State) : (s.chosen).evhead = s.evhead := rfl
@[simp] theorem chosen_evtail (s : State) : (s.chosen).evtail = s.evtail := rfl
@[simp] theorem chosen_evseq (s : State) : (s.chosen).evseq = s.evseq := rfl
@[simp] theorem chosen_sgstat (s : State) : (s.chosen).sgstat = s.sgstat := rfl
@[simp] theorem chosen_harts (s : State) : (s.chosen).harts = s.harts := rfl
@[simp] theorem chosen_pair (s : State) : (s.chosen).pair = s.pair := rfl
@[simp] theorem chosen_failingOver (s : State) : (s.chosen).failingOver = s.failingOver := rfl
@[simp] theorem chosen_failFrom (s : State) : (s.chosen).failFrom = s.failFrom := rfl
@[simp] theorem chosen_failedHart (s : State) : (s.chosen).failedHart = s.failedHart := rfl
@[simp] theorem chosen_saigaOut (s : State) : (s.chosen).saigaOut = s.saigaOut := rfl
@[simp] theorem chosen_pending (s : State) : (s.chosen).pending = s.pending := rfl
@[simp] theorem chosen_prqcfg (s : State) : (s.chosen).prqcfg = s.prqcfg := rfl
@[simp] theorem chosen_prqhead (s : State) : (s.chosen).prqhead = s.prqhead := rfl
@[simp] theorem chosen_prqtail (s : State) : (s.chosen).prqtail = s.prqtail := rfl
@[simp] theorem chosen_pageReqs (s : State) : (s.chosen).pageReqs = s.pageReqs := rfl
@[simp] theorem chosen_nextReq (s : State) : (s.chosen).nextReq = s.nextReq := rfl
@[simp] theorem chosen_tlbinv (s : State) : (s.chosen).tlbinv = s.tlbinv := rfl
@[simp] theorem chosen_tlbinvsz (s : State) : (s.chosen).tlbinvsz = s.tlbinvsz := rfl
@[simp] theorem chosen_pidx (s : State) : (s.chosen).pidx = s.pidx := rfl
@[simp] theorem chosen_alidx (s : State) : (s.chosen).alidx = s.alidx := rfl
@[simp] theorem chosen_patidx (s : State) : (s.chosen).patidx = s.patidx := rfl
@[simp] theorem chosen_blkidx (s : State) : (s.chosen).blkidx = s.blkidx := rfl
@[simp] theorem chosen_occsel (s : State) : (s.chosen).occsel = s.occsel := rfl
@[simp] theorem chosen_lchidx (s : State) : (s.chosen).lchidx = s.lchidx := rfl
@[simp] theorem chosen_pwidx (s : State) : (s.chosen).pwidx = s.pwidx := rfl
@[simp] theorem chosen_islidx (s : State) : (s.chosen).islidx = s.islidx := rfl
@[simp] theorem chosen_pat (s : State) : (s.chosen).pat = s.pat := rfl
@[simp] theorem chosen_blkcls (s : State) : (s.chosen).blkcls = s.blkcls := rfl
@[simp] theorem chosen_mr (s : State) : (s.chosen).mr = s.mr := rfl
@[simp] theorem chosen_mrext (s : State) : (s.chosen).mrext = s.mrext := rfl
@[simp] theorem chosen_audw (s : State) : (s.chosen).audw = s.audw := rfl
@[simp] theorem chosen_audit (s : State) : (s.chosen).audit = s.audit := rfl
@[simp] theorem chosen_chain (s : State) : (s.chosen).chain = s.chain := rfl
@[simp] theorem chosen_lastAudit (s : State) : (s.chosen).lastAudit = s.lastAudit := rfl
@[simp] theorem chosen_sinceCkpt (s : State) : (s.chosen).sinceCkpt = s.sinceCkpt := rfl
@[simp] theorem chosen_ckpt (s : State) : (s.chosen).ckpt = s.ckpt := rfl
@[simp] theorem chosen_spdmSession (s : State) : (s.chosen).spdmSession = s.spdmSession := rfl
@[simp] theorem chosen_transcript (s : State) : (s.chosen).transcript = s.transcript := rfl
@[simp] theorem chosen_ideKeys (s : State) : (s.chosen).ideKeys = s.ideKeys := rfl
@[simp] theorem chosen_delivered (s : State) : (s.chosen).delivered = s.delivered := rfl
@[simp] theorem chosen_derived (s : State) : (s.chosen).derived = s.derived := rfl
@[simp] theorem chosen_nextRegion (s : State) : (s.chosen).nextRegion = s.nextRegion := rfl
@[simp] theorem chosen_held (s : State) : (s.chosen).held = s.held := rfl
@[simp] theorem chosen_pkgNo (s : State) : (s.chosen).pkgNo = s.pkgNo := rfl
@[simp] theorem chosen_lchan (s : State) : (s.chosen).lchan = s.lchan := rfl
@[simp] theorem chosen_lchoff (s : State) : (s.chosen).lchoff = s.lchoff := rfl
@[simp] theorem chosen_lchRet (s : State) : (s.chosen).lchRet = s.lchRet := rfl
@[simp] theorem chosen_deadLanes (s : State) : (s.chosen).deadLanes = s.deadLanes := rfl
@[simp] theorem chosen_posted (s : State) : (s.chosen).posted = s.posted := rfl
@[simp] theorem chosen_replicas (s : State) : (s.chosen).replicas = s.replicas := rfl
@[simp] theorem chosen_nextSeq (s : State) : (s.chosen).nextSeq = s.nextSeq := rfl
@[simp] theorem chosen_rpSent (s : State) : (s.chosen).rpSent = s.rpSent := rfl
@[simp] theorem chosen_rpNext (s : State) : (s.chosen).rpNext = s.rpNext := rfl
@[simp] theorem chosen_rpWait (s : State) : (s.chosen).rpWait = s.rpWait := rfl
@[simp] theorem chosen_rpHome (s : State) : (s.chosen).rpHome = s.rpHome := rfl
@[simp] theorem chosen_rpHolders (s : State) : (s.chosen).rpHolders = s.rpHolders := rfl
@[simp] theorem chosen_bootst (s : State) : (s.chosen).bootst = s.bootst := rfl
@[simp] theorem chosen_pwrgd (s : State) : (s.chosen).pwrgd = s.pwrgd := rfl
@[simp] theorem chosen_thermtrip (s : State) : (s.chosen).thermtrip = s.thermtrip := rfl
@[simp] theorem chosen_tripped (s : State) : (s.chosen).tripped = s.tripped := rfl
@[simp] theorem chosen_alert (s : State) : (s.chosen).alert = s.alert := rfl
@[simp] theorem chosen_hostDead (s : State) : (s.chosen).hostDead = s.hostDead := rfl
@[simp] theorem chosen_hostOld (s : State) : (s.chosen).hostOld = s.hostOld := rfl
@[simp] theorem chosen_resetFrom (s : State) : (s.chosen).resetFrom = s.resetFrom := rfl
@[simp] theorem chosen_gating (s : State) : (s.chosen).gating = s.gating := rfl
@[simp] theorem chosen_islctl (s : State) : (s.chosen).islctl = s.islctl := rfl
@[simp] theorem chosen_throttled (s : State) : (s.chosen).throttled = s.throttled := rfl
@[simp] theorem chosen_powerLow (s : State) : (s.chosen).powerLow = s.powerLow := rfl
@[simp] theorem chosen_pwrlim (s : State) : (s.chosen).pwrlim = s.pwrlim := rfl
@[simp] theorem chosen_pkgctl (s : State) : (s.chosen).pkgctl = s.pkgctl := rfl
@[simp] theorem chosen_exiting (s : State) : (s.chosen).exiting = s.exiting := rfl

/-! ### `setIsl` -/

@[simp] theorem setIsl_cycle (s : State) (i : Nat) (w : Word) : (s.setIsl i w).cycle = s.cycle := rfl
@[simp] theorem setIsl_tick (s : State) (i : Nat) (w : Word) : (s.setIsl i w).tick = s.tick := rfl
@[simp] theorem setIsl_tickFrac (s : State) (i : Nat) (w : Word) : (s.setIsl i w).tickFrac = s.tickFrac := rfl
@[simp] theorem setIsl_islPhase (s : State) (i : Nat) (w : Word) : (s.setIsl i w).islPhase = s.islPhase := rfl
@[simp] theorem setIsl_agenda (s : State) (i : Nat) (w : Word) : (s.setIsl i w).agenda = s.agenda := rfl
@[simp] theorem setIsl_inputs (s : State) (i : Nat) (w : Word) : (s.setIsl i w).inputs = s.inputs := rfl
@[simp] theorem setIsl_openSince (s : State) (i : Nat) (w : Word) : (s.setIsl i w).openSince = s.openSince := rfl
@[simp] theorem setIsl_core (s : State) (i : Nat) (w : Word) : (s.setIsl i w).core = s.core := rfl
@[simp] theorem setIsl_issue (s : State) (i : Nat) (w : Word) : (s.setIsl i w).issue = s.issue := rfl
@[simp] theorem setIsl_freeCount (s : State) (i : Nat) (w : Word) : (s.setIsl i w).freeCount = s.freeCount := rfl
@[simp] theorem setIsl_oracle (s : State) (i : Nat) (w : Word) : (s.setIsl i w).oracle = s.oracle := rfl
@[simp] theorem setIsl_out (s : State) (i : Nat) (w : Word) : (s.setIsl i w).out = s.out := rfl
@[simp] theorem setIsl_cores (s : State) (i : Nat) (w : Word) : (s.setIsl i w).cores = s.cores := rfl
@[simp] theorem setIsl_clusters (s : State) (i : Nat) (w : Word) : (s.setIsl i w).clusters = s.clusters := rfl
@[simp] theorem setIsl_stamps (s : State) (i : Nat) (w : Word) : (s.setIsl i w).stamps = s.stamps := rfl
@[simp] theorem setIsl_nextStamp (s : State) (i : Nat) (w : Word) : (s.setIsl i w).nextStamp = s.nextStamp := rfl
@[simp] theorem setIsl_hbm (s : State) (i : Nat) (w : Word) : (s.setIsl i w).hbm = s.hbm := rfl
@[simp] theorem setIsl_lost (s : State) (i : Nat) (w : Word) : (s.setIsl i w).lost = s.lost := rfl
@[simp] theorem setIsl_cp (s : State) (i : Nat) (w : Word) : (s.setIsl i w).cp = s.cp := rfl
@[simp] theorem setIsl_cpBanks (s : State) (i : Nat) (w : Word) : (s.setIsl i w).cpBanks = s.cpBanks := rfl
@[simp] theorem setIsl_slicesOff (s : State) (i : Nat) (w : Word) : (s.setIsl i w).slicesOff = s.slicesOff := rfl
@[simp] theorem setIsl_evicting (s : State) (i : Nat) (w : Word) : (s.setIsl i w).evicting = s.evicting := rfl
@[simp] theorem setIsl_bankUse (s : State) (i : Nat) (w : Word) : (s.setIsl i w).bankUse = s.bankUse := rfl
@[simp] theorem setIsl_way (s : State) (i : Nat) (w : Word) : (s.setIsl i w).way = s.way := rfl
@[simp] theorem setIsl_host (s : State) (i : Nat) (w : Word) : (s.setIsl i w).host = s.host := rfl
@[simp] theorem setIsl_saiga (s : State) (i : Nat) (w : Word) : (s.setIsl i w).saiga = s.saiga := rfl
@[simp] theorem setIsl_l2 (s : State) (i : Nat) (w : Word) : (s.setIsl i w).l2 = s.l2 := rfl
@[simp] theorem setIsl_pageClass (s : State) (i : Nat) (w : Word) : (s.setIsl i w).pageClass = s.pageClass := rfl
@[simp] theorem setIsl_classified (s : State) (i : Nat) (w : Word) : (s.setIsl i w).classified = s.classified := rfl
@[simp] theorem setIsl_lines (s : State) (i : Nat) (w : Word) : (s.setIsl i w).lines = s.lines := rfl
@[simp] theorem setIsl_halves (s : State) (i : Nat) (w : Word) : (s.setIsl i w).halves = s.halves := rfl
@[simp] theorem setIsl_cxl (s : State) (i : Nat) (w : Word) : (s.setIsl i w).cxl = s.cxl := rfl
@[simp] theorem setIsl_parts (s : State) (i : Nat) (w : Word) : (s.setIsl i w).parts = s.parts := rfl
@[simp] theorem setIsl_tasks (s : State) (i : Nat) (w : Word) : (s.setIsl i w).tasks = s.tasks := rfl
@[simp] theorem setIsl_nextTask (s : State) (i : Nat) (w : Word) : (s.setIsl i w).nextTask = s.nextTask := rfl
@[simp] theorem setIsl_signalsHere (s : State) (i : Nat) (w : Word) : (s.setIsl i w).signalsHere = s.signalsHere := rfl
@[simp] theorem setIsl_slotTab (s : State) (i : Nat) (w : Word) : (s.setIsl i w).slotTab = s.slotTab := rfl
@[simp] theorem setIsl_subreg (s : State) (i : Nat) (w : Word) : (s.setIsl i w).subreg = s.subreg := rfl
@[simp] theorem setIsl_launching (s : State) (i : Nat) (w : Word) : (s.setIsl i w).launching = s.launching := rfl
@[simp] theorem setIsl_substat (s : State) (i : Nat) (w : Word) : (s.setIsl i w).substat = s.substat := rfl
@[simp] theorem setIsl_evcfg (s : State) (i : Nat) (w : Word) : (s.setIsl i w).evcfg = s.evcfg := rfl
@[simp] theorem setIsl_evhead (s : State) (i : Nat) (w : Word) : (s.setIsl i w).evhead = s.evhead := rfl
@[simp] theorem setIsl_evtail (s : State) (i : Nat) (w : Word) : (s.setIsl i w).evtail = s.evtail := rfl
@[simp] theorem setIsl_evseq (s : State) (i : Nat) (w : Word) : (s.setIsl i w).evseq = s.evseq := rfl
@[simp] theorem setIsl_sgstat (s : State) (i : Nat) (w : Word) : (s.setIsl i w).sgstat = s.sgstat := rfl
@[simp] theorem setIsl_harts (s : State) (i : Nat) (w : Word) : (s.setIsl i w).harts = s.harts := rfl
@[simp] theorem setIsl_pair (s : State) (i : Nat) (w : Word) : (s.setIsl i w).pair = s.pair := rfl
@[simp] theorem setIsl_failingOver (s : State) (i : Nat) (w : Word) : (s.setIsl i w).failingOver = s.failingOver := rfl
@[simp] theorem setIsl_failFrom (s : State) (i : Nat) (w : Word) : (s.setIsl i w).failFrom = s.failFrom := rfl
@[simp] theorem setIsl_failedHart (s : State) (i : Nat) (w : Word) : (s.setIsl i w).failedHart = s.failedHart := rfl
@[simp] theorem setIsl_saigaOut (s : State) (i : Nat) (w : Word) : (s.setIsl i w).saigaOut = s.saigaOut := rfl
@[simp] theorem setIsl_pending (s : State) (i : Nat) (w : Word) : (s.setIsl i w).pending = s.pending := rfl
@[simp] theorem setIsl_prqcfg (s : State) (i : Nat) (w : Word) : (s.setIsl i w).prqcfg = s.prqcfg := rfl
@[simp] theorem setIsl_prqhead (s : State) (i : Nat) (w : Word) : (s.setIsl i w).prqhead = s.prqhead := rfl
@[simp] theorem setIsl_prqtail (s : State) (i : Nat) (w : Word) : (s.setIsl i w).prqtail = s.prqtail := rfl
@[simp] theorem setIsl_pageReqs (s : State) (i : Nat) (w : Word) : (s.setIsl i w).pageReqs = s.pageReqs := rfl
@[simp] theorem setIsl_nextReq (s : State) (i : Nat) (w : Word) : (s.setIsl i w).nextReq = s.nextReq := rfl
@[simp] theorem setIsl_tlbinv (s : State) (i : Nat) (w : Word) : (s.setIsl i w).tlbinv = s.tlbinv := rfl
@[simp] theorem setIsl_tlbinvsz (s : State) (i : Nat) (w : Word) : (s.setIsl i w).tlbinvsz = s.tlbinvsz := rfl
@[simp] theorem setIsl_pidx (s : State) (i : Nat) (w : Word) : (s.setIsl i w).pidx = s.pidx := rfl
@[simp] theorem setIsl_alidx (s : State) (i : Nat) (w : Word) : (s.setIsl i w).alidx = s.alidx := rfl
@[simp] theorem setIsl_patidx (s : State) (i : Nat) (w : Word) : (s.setIsl i w).patidx = s.patidx := rfl
@[simp] theorem setIsl_blkidx (s : State) (i : Nat) (w : Word) : (s.setIsl i w).blkidx = s.blkidx := rfl
@[simp] theorem setIsl_occsel (s : State) (i : Nat) (w : Word) : (s.setIsl i w).occsel = s.occsel := rfl
@[simp] theorem setIsl_lchidx (s : State) (i : Nat) (w : Word) : (s.setIsl i w).lchidx = s.lchidx := rfl
@[simp] theorem setIsl_pwidx (s : State) (i : Nat) (w : Word) : (s.setIsl i w).pwidx = s.pwidx := rfl
@[simp] theorem setIsl_islidx (s : State) (i : Nat) (w : Word) : (s.setIsl i w).islidx = s.islidx := rfl
@[simp] theorem setIsl_pat (s : State) (i : Nat) (w : Word) : (s.setIsl i w).pat = s.pat := rfl
@[simp] theorem setIsl_blkcls (s : State) (i : Nat) (w : Word) : (s.setIsl i w).blkcls = s.blkcls := rfl
@[simp] theorem setIsl_mr (s : State) (i : Nat) (w : Word) : (s.setIsl i w).mr = s.mr := rfl
@[simp] theorem setIsl_mrext (s : State) (i : Nat) (w : Word) : (s.setIsl i w).mrext = s.mrext := rfl
@[simp] theorem setIsl_audw (s : State) (i : Nat) (w : Word) : (s.setIsl i w).audw = s.audw := rfl
@[simp] theorem setIsl_audit (s : State) (i : Nat) (w : Word) : (s.setIsl i w).audit = s.audit := rfl
@[simp] theorem setIsl_chain (s : State) (i : Nat) (w : Word) : (s.setIsl i w).chain = s.chain := rfl
@[simp] theorem setIsl_lastAudit (s : State) (i : Nat) (w : Word) : (s.setIsl i w).lastAudit = s.lastAudit := rfl
@[simp] theorem setIsl_sinceCkpt (s : State) (i : Nat) (w : Word) : (s.setIsl i w).sinceCkpt = s.sinceCkpt := rfl
@[simp] theorem setIsl_ckpt (s : State) (i : Nat) (w : Word) : (s.setIsl i w).ckpt = s.ckpt := rfl
@[simp] theorem setIsl_spdmSession (s : State) (i : Nat) (w : Word) : (s.setIsl i w).spdmSession = s.spdmSession := rfl
@[simp] theorem setIsl_transcript (s : State) (i : Nat) (w : Word) : (s.setIsl i w).transcript = s.transcript := rfl
@[simp] theorem setIsl_ideKeys (s : State) (i : Nat) (w : Word) : (s.setIsl i w).ideKeys = s.ideKeys := rfl
@[simp] theorem setIsl_delivered (s : State) (i : Nat) (w : Word) : (s.setIsl i w).delivered = s.delivered := rfl
@[simp] theorem setIsl_derived (s : State) (i : Nat) (w : Word) : (s.setIsl i w).derived = s.derived := rfl
@[simp] theorem setIsl_nextRegion (s : State) (i : Nat) (w : Word) : (s.setIsl i w).nextRegion = s.nextRegion := rfl
@[simp] theorem setIsl_held (s : State) (i : Nat) (w : Word) : (s.setIsl i w).held = s.held := rfl
@[simp] theorem setIsl_pkgNo (s : State) (i : Nat) (w : Word) : (s.setIsl i w).pkgNo = s.pkgNo := rfl
@[simp] theorem setIsl_lchan (s : State) (i : Nat) (w : Word) : (s.setIsl i w).lchan = s.lchan := rfl
@[simp] theorem setIsl_lchoff (s : State) (i : Nat) (w : Word) : (s.setIsl i w).lchoff = s.lchoff := rfl
@[simp] theorem setIsl_lchRet (s : State) (i : Nat) (w : Word) : (s.setIsl i w).lchRet = s.lchRet := rfl
@[simp] theorem setIsl_deadLanes (s : State) (i : Nat) (w : Word) : (s.setIsl i w).deadLanes = s.deadLanes := rfl
@[simp] theorem setIsl_posted (s : State) (i : Nat) (w : Word) : (s.setIsl i w).posted = s.posted := rfl
@[simp] theorem setIsl_replicas (s : State) (i : Nat) (w : Word) : (s.setIsl i w).replicas = s.replicas := rfl
@[simp] theorem setIsl_nextSeq (s : State) (i : Nat) (w : Word) : (s.setIsl i w).nextSeq = s.nextSeq := rfl
@[simp] theorem setIsl_rpSent (s : State) (i : Nat) (w : Word) : (s.setIsl i w).rpSent = s.rpSent := rfl
@[simp] theorem setIsl_rpNext (s : State) (i : Nat) (w : Word) : (s.setIsl i w).rpNext = s.rpNext := rfl
@[simp] theorem setIsl_rpWait (s : State) (i : Nat) (w : Word) : (s.setIsl i w).rpWait = s.rpWait := rfl
@[simp] theorem setIsl_rpHome (s : State) (i : Nat) (w : Word) : (s.setIsl i w).rpHome = s.rpHome := rfl
@[simp] theorem setIsl_rpHolders (s : State) (i : Nat) (w : Word) : (s.setIsl i w).rpHolders = s.rpHolders := rfl
@[simp] theorem setIsl_bootst (s : State) (i : Nat) (w : Word) : (s.setIsl i w).bootst = s.bootst := rfl
@[simp] theorem setIsl_pwrgd (s : State) (i : Nat) (w : Word) : (s.setIsl i w).pwrgd = s.pwrgd := rfl
@[simp] theorem setIsl_thermtrip (s : State) (i : Nat) (w : Word) : (s.setIsl i w).thermtrip = s.thermtrip := rfl
@[simp] theorem setIsl_tripped (s : State) (i : Nat) (w : Word) : (s.setIsl i w).tripped = s.tripped := rfl
@[simp] theorem setIsl_alert (s : State) (i : Nat) (w : Word) : (s.setIsl i w).alert = s.alert := rfl
@[simp] theorem setIsl_hostDead (s : State) (i : Nat) (w : Word) : (s.setIsl i w).hostDead = s.hostDead := rfl
@[simp] theorem setIsl_hostOld (s : State) (i : Nat) (w : Word) : (s.setIsl i w).hostOld = s.hostOld := rfl
@[simp] theorem setIsl_resetFrom (s : State) (i : Nat) (w : Word) : (s.setIsl i w).resetFrom = s.resetFrom := rfl
@[simp] theorem setIsl_gating (s : State) (i : Nat) (w : Word) : (s.setIsl i w).gating = s.gating := rfl
@[simp] theorem setIsl_throttled (s : State) (i : Nat) (w : Word) : (s.setIsl i w).throttled = s.throttled := rfl
@[simp] theorem setIsl_powerLow (s : State) (i : Nat) (w : Word) : (s.setIsl i w).powerLow = s.powerLow := rfl
@[simp] theorem setIsl_pwrlim (s : State) (i : Nat) (w : Word) : (s.setIsl i w).pwrlim = s.pwrlim := rfl
@[simp] theorem setIsl_pkgctl (s : State) (i : Nat) (w : Word) : (s.setIsl i w).pkgctl = s.pkgctl := rfl
@[simp] theorem setIsl_exiting (s : State) (i : Nat) (w : Word) : (s.setIsl i w).exiting = s.exiting := rfl

end Sys2Proof.Machine.State
end

