-- ==== Sys2Proof/Laws/Ops.lean ====
section
/-!
SUPPORT. What the named operations of Sys2Proof/Machine/Ops.lean do: reading a component after each of them, and the whole
effect of the shared ones.
-/

namespace Sys2Proof.Machine

/-! ### Components -/

theorem State.getCore_setCore (s : State) (c d : Nat) (k : Core) : (s.setCore c k).getCore d = if d = c then k else s.getCore d :=
  Store.get_set _ _ _ _ _
@[simp] theorem State.getCore_setCore_same (s : State) (c : Nat) (k : Core) : (s.setCore c k).getCore c = k :=
  Store.get_set_same _ _ _ _
theorem State.getCore_setCore_other (s : State) {c d : Nat} (k : Core) (h : d ≠ c) : (s.setCore c k).getCore d = s.getCore d :=
  Store.get_set_other _ _ _ h

theorem State.getCore_modCore (s : State) (c d : Nat) (f : Core → Core) :
    (s.modCore c f).getCore d = if d = c then f (s.getCore c) else s.getCore d := State.getCore_setCore _ _ _ _
@[simp] theorem State.getCore_modCore_same (s : State) (c : Nat) (f : Core → Core) : (s.modCore c f).getCore c = f (s.getCore c) :=
  State.getCore_setCore_same _ _ _
theorem State.getCore_modCore_other (s : State) {c d : Nat} (f : Core → Core) (h : d ≠ c) :
    (s.modCore c f).getCore d = s.getCore d := State.getCore_setCore_other _ _ h

theorem State.getCluster_modCluster (s : State) (c d : Nat) (f : Cluster → Cluster) :
    (s.modCluster c f).getCluster d = if d = c then f (s.getCluster c) else s.getCluster d := Store.get_set _ _ _ _ _
@[simp] theorem State.getCluster_modCluster_same (s : State) (c : Nat) (f : Cluster → Cluster) :
    (s.modCluster c f).getCluster c = f (s.getCluster c) := Store.get_set_same _ _ _ _

theorem State.getPart_modPart (s : State) (p q : Nat) (f : Part → Part) :
    (s.modPart p f).getPart q = if q = p then f (s.getPart p) else s.getPart q := Store.get_set _ _ _ _ _
@[simp] theorem State.getPart_modPart_same (s : State) (p : Nat) (f : Part → Part) : (s.modPart p f).getPart p = f (s.getPart p) :=
  Store.get_set_same _ _ _ _

theorem State.getTask_modTask (s : State) (t u : Nat) (f : Task → Task) :
    (s.modTask t f).getTask u = if u = t then f (s.getTask t) else s.getTask u := Store.get_set _ _ _ _ _
@[simp] theorem State.getTask_modTask_same (s : State) (t : Nat) (f : Task → Task) : (s.modTask t f).getTask t = f (s.getTask t) :=
  Store.get_set_same _ _ _ _

theorem State.getStamp_modStamp (s : State) (i j : Nat) (f : Stamp → Stamp) :
    (s.modStamp i f).getStamp j = if j = i then f (s.getStamp i) else s.getStamp j := Store.get_set _ _ _ _ _
@[simp] theorem State.getStamp_modStamp_same (s : State) (i : Nat) (f : Stamp → Stamp) :
    (s.modStamp i f).getStamp i = f (s.getStamp i) := Store.get_set_same _ _ _ _

theorem Stamp.copy_modCopy (st : Stamp) (c d : Nat) (f : Copy → Copy) (h : c < st.copies.length) :
    (st.modCopy c f).copy d = if d = c then f (st.copy c) else st.copy d := by
  unfold Stamp.modCopy Stamp.copy
  simp only [List.getD_eq_getElem?_getD, List.getElem?_modify]
  by_cases e : d = c
  · subst e
    simp [h]
  · simp [e, Ne.symm e]

/-! ### The executing sequencer -/

@[simp] theorem State.cur_modCur (s : State) (f : Core → Core) : (s.modCur f).cur = f s.cur := State.getCore_modCore_same _ _ _
@[simp] theorem State.q_modQ (s : State) (f : Seq → Seq) : (s.modQ f).q = f s.q := by
  unfold State.q State.modQ; simp
@[simp] theorem State.cur_modQ (s : State) (f : Seq → Seq) : (s.modQ f).cur = { s.cur with seq := f s.q } := by
  unfold State.modQ; simp [State.q]

/-- A write to g0 is discarded; another register reads as written, and the others keep their values (R193). -/
theorem Seq.reg_setReg (q : Seq) (d r : Reg) (g : GReg) : (q.setReg d g).reg r = if r = 0 then {} else if r = d then g else q.reg r := by
  by_cases hr : r = 0
  · subst hr; rfl
  · rw [if_neg hr]
    by_cases hd : d = 0
    · subst hd
      rw [if_neg hr]
      rfl
    · by_cases e : r = d
      · rw [if_pos e]
        unfold Seq.setReg Seq.reg
        rw [if_neg hd, if_neg hr, e]
        exact Store.get_set_same _ _ _ _
      · have : r.toNat ≠ d.toNat := fun h => e (BitVec.eq_of_toNat_eq h)
        rw [if_neg e]
        unfold Seq.setReg Seq.reg
        rw [if_neg hd, if_neg hr, if_neg hr]
        exact Store.get_set_other _ _ _ this

@[simp] theorem State.q_setG (s : State) (d : Reg) (v : Word) (psn : Bool) : (s.setG d v psn).q = s.q.setReg d ⟨v, psn⟩ :=
  State.q_modQ _ _
@[simp] theorem State.q_advance (s : State) (n : Nat) : (s.advance n).q = { s.q with pc := s.q.pc + BitVec.ofNat 64 n } :=
  State.q_modQ _ _
@[simp] theorem State.q_goto (s : State) (a : Word) : (s.goto a).q = { s.q with pc := a } := State.q_modQ _ _
@[simp] theorem State.q_setWait (s : State) (w : Wait) : (s.setWait w).q = { s.q with wait := w } := State.q_modQ _ _

@[simp] theorem Seq.pc_setReg (q : Seq) (d : Reg) (g : GReg) : (q.setReg d g).pc = q.pc := by unfold Seq.setReg; split <;> rfl

/-- A register write changes no field of the sequencer but its registers. -/
theorem Seq.setReg_eq (q : Seq) (d : Reg) (g : GReg) : q.setReg d g = { q with regs := (q.setReg d g).regs } := by
  unfold Seq.setReg; split <;> rfl

/-- All that an instruction's result does: its register, the program counter, and nothing else of the sequencer. -/
theorem State.q_result (s : State) (d : Reg) (v : Word) (psn : Bool) (n : Nat) :
    (s.result d v psn n).q = { s.q with regs := (s.q.setReg d ⟨v, psn⟩).regs, pc := s.q.pc + BitVec.ofNat 64 n } := by
  unfold State.result
  rw [State.q_advance, State.q_setG, Seq.setReg_eq]

/-- The other cores keep everything. -/
theorem State.getCore_result_other (s : State) (d : Reg) (v : Word) (psn : Bool) (n : Nat) {c : Nat} (h : c ≠ s.core) :
    (s.result d v psn n).getCore c = s.getCore c := by
  unfold State.result State.advance State.setG State.modQ State.modCur
  rw [State.getCore_modCore_other _ _ (by simpa using h), State.getCore_modCore_other _ _ h]

/-! ### Traps -/

/-- Taking a trap with TVEC.EN = 1 (R229): all of it that the sequencer shows. -/
theorem State.q_enterHandler (s : State) (c : Nat) (t : Trap) (epc : Word) (h : s.traces c 6 = false) :
    ((s.enterHandler c t epc).getCore c).seq =
      { (s.getCore c).seq with
        tepc := epc, tcause := t.cause, tval := t.tval, tvec := (s.getCore c).seq.tvec.put 0 0 0, inHandler := true
        pc := BitVec.ofNat 64 ((s.getCore c).seq.tvec.fld 63 2 * 4), wait := .none } := by
  unfold State.enterHandler State.trace
  have : (s.modCore c fun k => { k with mstate := .running, seq := { k.seq with
        tepc := epc, tcause := t.cause, tval := t.tval, tvec := k.seq.tvec.put 0 0 0, inHandler := true
        pc := BitVec.ofNat 64 (k.seq.tvec.fld 63 2 * 4), wait := .none } }).traces c 6 = false := by
    simpa [State.traces, State.getPart, Core.binding] using h
  simp [this]

end Sys2Proof.Machine
end

