-- ==== Sys2Proof/Laws/Access.lean ====
section
/-!
SUPPORT. What an access leaves in the caches: which fields of the state `State.touch` and the operations it is made of can change,
and of each core only its L1. What forgetting early reads changes.
-/

namespace Sys2Proof.Machine

/-- Reading a store whose every value is mapped, the default onto itself. -/
theorem Store.get_map {α : Type} (d : α) (f : Nat → α → α) (hd : ∀ k, f k d = d) (m : Store α) (k : Nat) :
    Store.get d (m.map fun kv => (kv.1, f kv.1 kv.2)) k = f k (Store.get d m k) := by
  induction m with
  | nil => exact (hd k).symm
  | cons p t ih =>
    obtain ⟨j, v⟩ := p
    simp only [List.map_cons, Store.get]
    by_cases e : j = k
    · simp [e]
    · simp [e, ih]

/-- Only what an access leaves in the caches differs: the L1s, the L2, the directory, the lines to be evicted. -/
structure CachesOnly (s t : State) : Prop where
  device : t = { s with cores := t.cores, l2 := t.l2, lines := t.lines, evicting := t.evicting }
  cores : ∀ d, t.getCore d = { s.getCore d with l1 := (t.getCore d).l1 }

theorem CachesOnly.trans {s t u : State} (h : CachesOnly s t) (g : CachesOnly t u) : CachesOnly s u where
  device := by rw [g.device, h.device]
  cores d := by rw [g.cores d, h.cores d]

theorem cachesOnly_touchL2 (s : State) (p : Nat) (leaf : Word) (pa : Nat) : CachesOnly s (s.touchL2 p leaf pa) := ⟨rfl, fun _ => rfl⟩

theorem cachesOnly_touchDir (s : State) (c : Nat) (leaf : Word) (pa : Nat) (write ro : Bool) :
    CachesOnly s (s.touchDir c leaf pa write ro) := by
  unfold State.touchDir
  split
  · split <;> exact ⟨rfl, fun _ => rfl⟩
  · exact ⟨rfl, fun _ => rfl⟩

theorem State.getCore_dropL1 (s : State) (cs : Nat → Bool) (p : L1Line → Bool) (c : Nat) :
    (s.dropL1 cs p).getCore c = if cs c then (s.getCore c).dropLines p else s.getCore c := by
  have h := Store.get_map ({} : Core) (fun k v => if cs k then v.dropLines p else v)
    (fun k => by by_cases e : cs k <;> simp [e, Core.dropLines]) s.cores c
  unfold State.getCore State.dropL1
  rw [← h]
  congr 1
  apply List.map_congr_left
  intro kv _
  by_cases e : cs kv.1 <;> simp [e]

theorem cachesOnly_dropL1 (s : State) (cs : Nat → Bool) (p : L1Line → Bool) : CachesOnly s (s.dropL1 cs p) where
  device := rfl
  cores d := by rw [State.getCore_dropL1]; split <;> rfl

/-- `fillL1` gives one core's L1 a line; the directory and the lines to be evicted may change with it. -/
theorem State.fillL1_cases (s : State) (c line : Nat) (cc : Bool) : ∃ ls l e,
    s.fillL1 c line cc = { s.modCore c (fun k => { k with l1 := ls }) with lines := l, evicting := e } := by
  unfold State.fillL1
  simp only
  refine ⟨Store.set [] (s.getCore c).l1 (Config.l1Set line % 1024) (touchWays ⟨line, cc⟩ (Store.get [] (s.getCore c).l1 (Config.l1Set line % 1024))).1, ?_⟩
  repeat' split
  all_goals exact ⟨_, _, rfl⟩

theorem cachesOnly_fillL1 (s : State) (c line : Nat) (cc : Bool) : CachesOnly s (s.fillL1 c line cc) := by
  obtain ⟨ls, l, e, h⟩ := State.fillL1_cases s c line cc
  rw [h]
  refine ⟨rfl, fun d => ?_⟩
  have g : ({ s.modCore c (fun k => { k with l1 := ls }) with lines := l, evicting := e } : State).getCore d
      = if d = c then { s.getCore c with l1 := ls } else s.getCore d := State.getCore_modCore s c d (fun k => { k with l1 := ls })
  rw [g]
  split
  · rename_i e; subst e; rfl
  · rfl

/-- An access changes nothing but the caches. -/
theorem cachesOnly_touch (s : State) (c p : Nat) (leaf : Word) (pa : Nat) (write : Bool) : CachesOnly s (s.touch c p leaf pa write) := by
  have h0 : CachesOnly s (if s.reachesL2 c leaf pa write then s.touchL2 p leaf pa else s) := by
    split
    · exact cachesOnly_touchL2 s p leaf pa
    · exact ⟨rfl, fun _ => rfl⟩
  have h := h0.trans (cachesOnly_touchDir _ c leaf pa write (s.readOnlyL1 leaf pa))
  unfold State.touch
  simp only
  generalize (if s.reachesL2 c leaf pa write then s.touchL2 p leaf pa else s) = t at h
  repeat' split
  · exact h
  · exact h.trans (cachesOnly_dropL1 _ _ _)
  · exact (h.trans (cachesOnly_dropL1 _ _ _)).trans (cachesOnly_fillL1 _ _ _ _)
  · exact h.trans (cachesOnly_fillL1 _ _ _ _)

/-- So does one of an engine, or one performed at the L2. -/
theorem cachesOnly_touchHome (s : State) (c p : Nat) (leaf : Word) (pa : Nat) (write : Bool) :
    CachesOnly s (s.touchHome c p leaf pa write) := by
  have h := (cachesOnly_touchL2 s p leaf pa).trans (cachesOnly_touchDir _ c leaf pa write true)
  unfold State.touchHome
  simp only
  split
  · exact h.trans (cachesOnly_dropL1 _ _ _)
  · exact h

/-! ### Early reads -/

/-- Only what a core has read early differs (R272). -/
structure EarlyOnly (s t : State) (c : Nat) : Prop where
  device : t = { s with cores := t.cores }
  self : t.getCore c = { s.getCore c with early := (t.getCore c).early }
  others : ∀ d, d ≠ c → t.getCore d = s.getCore d

theorem earlyOnly_modCore (s : State) (c : Nat) (f : Core → Early) : EarlyOnly s (s.modCore c fun k => { k with early := f k }) c where
  device := rfl
  self := by rw [State.getCore_modCore_same]
  others d h := State.getCore_modCore_other s _ h

theorem earlyOnly_dropEarly (s : State) (c pa n : Nat) : EarlyOnly s (s.dropEarly c pa n) c := earlyOnly_modCore s c _
theorem earlyOnly_dropSlots (s : State) (c : Nat) : EarlyOnly s (s.dropSlots c) c := earlyOnly_modCore s c _
theorem earlyOnly_noEarly (s : State) (c : Nat) : EarlyOnly s (s.noEarly c) c := earlyOnly_modCore s c _

/-- The executing sequencer stays as it is, whichever core has read early. -/
theorem EarlyOnly.q {s t : State} {c : Nat} (h : EarlyOnly s t c) : t.q = s.q := by
  have e : t.core = s.core := by rw [h.device]
  unfold State.q State.cur
  rw [e]
  by_cases hc : s.core = c
  · rw [hc, h.self]
  · rw [h.others _ hc]

end Sys2Proof.Machine
end

