-- ==== Sys2Proof/Laws/Claims.lean ====
section
/-!
SUPPORT. The whole effect of the shared operations, in the terms of Sys2Proof/Safety.lean: citing these, no later proof unfolds
them.
-/

namespace Sys2Proof.Machine

theorem SameBytes.refl (s : State) : SameBytes s s := ⟨fun _ => rfl, fun _ => rfl, fun _ => rfl, fun _ => rfl, fun _ _ => rfl, fun _ _ => rfl, fun _ => rfl⟩

/-- A change of the executing sequencer changes nothing else. -/
theorem onlySeq_modQ (s : State) (f : Seq → Seq) : OnlySeq s (s.modQ f) where
  core := by simp
  cores c h := by
    unfold State.modQ State.modCur
    exact State.getCore_modCore_other _ _ h
  device := rfl
  bytes := by
    refine ⟨fun _ => rfl, fun _ => rfl, fun _ => rfl, fun _ => rfl, fun c a => ?_, fun _ _ => rfl, fun _ => rfl⟩
    unfold State.modQ State.modCur
    rw [State.getCore_modCore]
    split
    · rename_i h
      rw [h]
    · rfl

/-- Two such changes are one. -/
theorem OnlySeq.trans {s t u : State} (h : OnlySeq s t) (g : OnlySeq t u) : OnlySeq s u := by
  have hc : t.core = s.core := by simpa using congrArg State.core h.device
  refine ⟨?_, fun c hne => ?_, ?_, ?_⟩
  · rw [g.core, h.core]
  · rw [g.cores c (hc ▸ hne), h.cores c hne]
  · have := g.device
    have e : ({ u with cores := s.cores } : State) = { ({ u with cores := t.cores } : State) with cores := s.cores } := rfl
    rw [e, this, h.device]
  · exact ⟨fun a => (g.bytes.hbm a).trans (h.bytes.hbm a), fun a => (g.bytes.host a).trans (h.bytes.host a),
      fun a => (g.bytes.chip a).trans (h.bytes.chip a), fun a => (g.bytes.saiga a).trans (h.bytes.saiga a),
      fun c a => (g.bytes.core c a).trans (h.bytes.core c a), fun k a => (g.bytes.shared k a).trans (h.bytes.shared k a),
      fun k => (g.bytes.dirty k).trans (h.bytes.dirty k)⟩

/-- The whole effect of a result (R195). -/
theorem wrote_result (s : State) (d : Reg) (v : Word) (psn : Bool) (n : Nat) : Wrote s (s.result d v psn n) d v psn n s.q.fpctl where
  reg := by
    constructor
    · unfold State.g
      rw [State.q_result]
      show (s.q.setReg d ⟨v, psn⟩).reg d = _
      rw [Seq.reg_setReg]
      simp
    · intro r h
      unfold State.g
      rw [State.q_result]
      show (s.q.setReg d ⟨v, psn⟩).reg r = _
      rw [Seq.reg_setReg, if_neg h]
      split
      · rename_i hr
        rw [hr]
        rfl
      · rfl
  seq := by rw [State.q_result]
  only := by
    unfold State.result State.setG State.advance
    exact (onlySeq_modQ s _).trans (onlySeq_modQ _ _)

/-- The whole effect of a jump. -/
theorem went_goto (s : State) (a : Word) : Went s (s.goto a) a := ⟨by simp, onlySeq_modQ s _⟩

/-- The whole effect of moving on. -/
theorem went_advance (s : State) (n : Nat) : Went s (s.advance n) (s.q.pc + BitVec.ofNat 64 n) := ⟨by simp, onlySeq_modQ s _⟩

/-- The whole effect of a synchronous trap with EN = 1 (R229). -/
theorem trapped_trap (s : State) (x : Trap) (h : s.canTrap = true) : Trapped s (s.trap x) x := by
  simp only [State.canTrap, Bool.and_eq_true, Bool.not_eq_true'] at h
  have e : s.trap x = s.modCore s.core fun k =>
    { k with mstate := .running, seq := { k.seq with
        tepc := s.q.pc, tcause := x.cause, tval := x.tval, tvec := k.seq.tvec.put 0 0 0, inHandler := true
        pc := BitVec.ofNat 64 (k.seq.tvec.fld 63 2 * 4), wait := .none } } := by
    unfold State.trap State.trapAt
    rw [if_pos (show (s.getCore s.core).seq.tvec.bit 0 = true from h.1)]
    unfold State.enterHandler State.trace
    refine if_neg ?_
    have : (s.modCore s.core fun k => { k with mstate := .running, seq := { k.seq with
        tepc := s.q.pc, tcause := x.cause, tval := x.tval, tvec := k.seq.tvec.put 0 0 0, inHandler := true
        pc := BitVec.ofNat 64 (k.seq.tvec.fld 63 2 * 4), wait := .none } }).traces s.core 6 = s.traces s.core 6 := by
      simp [State.traces, State.getPart, Core.binding]
    rw [this, h.2]
    decide
  rw [e]
  refine ⟨?_, ?_, fun c hc => State.getCore_modCore_other _ _ hc, rfl, ?_⟩
  · exact congrArg Core.seq (State.getCore_modCore_same _ _ _)
  · show (State.modCore _ _ _).getCore s.core = _
    simp [State.cur, State.q]
  · refine ⟨fun _ => rfl, fun _ => rfl, fun _ => rfl, fun _ => rfl, fun c a => ?_, fun _ _ => rfl, fun _ => rfl⟩
    rw [State.getCore_modCore]
    split
    · rename_i hc
      rw [hc]
    · rfl

/-- The return from a trap (R230). -/
theorem onlySeq_trapReturn (s : State) : OnlySeq s s.trapReturn := onlySeq_modQ s _

end Sys2Proof.Machine
end

