-- ==== Sys2Proof/Tests/Slice0.lean ====
section
/-!
SUPPORT. Tests: the decoding of every constructor from a word written out from the specification's encoding, well-formedness, a
witness for the hypotheses of every statement, and single steps whose results the specification gives.
-/

namespace Sys2Proof.Tests

open Machine

set_option maxRecDepth 20000
set_option Elab.async false

/-! ### Decoding -/

/-- Every word decodes to its instruction. -/
def decodeAll (l : List (Nat × Nat × Instr)) : Bool := l.all fun x => decodeTableWord x.1 x.2.1 == some x.2.2

/-- Words of one-word instructions, written from spec/opcode_table.json and R137 to R140. -/
theorem test_words_short1 : decodeAll [
    (32, 0b00000001011011001111000000000000, .add 11 12 30),
    (32, 0b00000010010110101010000000000001, .sub 18 26 20),
    (32, 0b00000011001011010011000000000010, .mul 25 13 6),
    (32, 0b00000000001110111101100000000011, .mulh 1 27 27),
    (32, 0b00000001000011100110100000000100, .mulhu 8 14 13),
    (32, 0b00000001111111000001100000000101, .div 15 28 3),
    (32, 0b00000010110011111010000000000110, .divu 22 15 20),
    (32, 0b00000011101111010011000000000111, .rem 29 29 6),
    (32, 0b00000000101100001101100000001000, .remu 5 16 27),
    (32, 0b00000001100111100110100000001001, .and 12 30 13),
    (32, 0b00000010011100010001100000001010, .or 19 17 3),
    (32, 0b00000011010111111010000000001011, .xor 26 31 20),
    (32, 0b00000000010100100101000000001100, .andn 2 18 10),
    (32, 0b00000000101000011101100000001101, .sll 5 1 27),
    (32, 0b00000001100100111000100000001110, .srl 12 19 17),
    (32, 0b00000010011000100001100000001111, .sra 19 2 3),
    (32, 0b00000011010101001100000000010000, .rot 26 20 24),
    (32, 0b00000000010000110101000000010001, .slt 2 3 10),
    (32, 0b00000001001101011111100000010010, .sltu 9 21 31),
    (32, 0b00000010000001001000100000010011, .min 16 4 17)] = true := by decide

/-- Words of one-word instructions, written from spec/opcode_table.json and R137 to R140. -/
theorem test_words_short2 : decodeAll [
    (32, 0b00000010111101100001100000010100, .max 23 22 3),
    (32, 0b00000011110001011100000000010101, .minu 30 5 24),
    (32, 0b00000000110101110101000000010110, .maxu 6 23 10),
    (32, 0b00000001101001100000000000010111, .clz 13 6),
    (32, 0b00000010100110000000000000011000, .popc 20 24),
    (32, 0b00000100111111101110000100000000, .fadd .f64 ⟨false, 2⟩ 7 30 28),
    (32, 0b00000111000001101011110001100001, .fsub .f16 ⟨true, 0⟩ 24 6 23),
    (32, 0b00000101110011010111000110100010, .fmul .f32 ⟨false, 3⟩ 14 13 14),
    (32, 0b00000111111101000100110000000011, .fdiv .f64 ⟨true, 0⟩ 31 20 9),
    (32, 0b00000110101111110000001001100100, .fsqrt .f16 ⟨false, 4⟩ 21 31),
    (32, 0b00000100111001111111010001000101, .fma .bf16 ⟨true, 0⟩ 7 7 30),
    (32, 0b00000101010111000111000000100110, .fmin .f32 10 28 14),
    (32, 0b00000111100011101010100000000111, .fmax .f64 28 14 21),
    (32, 0b00000101011001000000100001101000, .feq .f16 11 4 1),
    (32, 0b00000111101101010100000001001001, .flt .bf16 29 21 8),
    (32, 0b00000101100001110111100000101010, .fle .f32 12 7 15),
    (32, 0b00000111110111000000000000001011, .fclass .f64 30 28),
    (32, 0b00000101110000100000001001101100, .ftoi .f16 ⟨false, 4⟩ 14 2),
    (32, 0b00000100100010010000010001001101, .itof .bf16 ⟨true, 0⟩ 4 9),
    (32, 0b00000110101100000001000010101110, .fcvt .f32 ⟨false, 1⟩ 21 16 .bf16)] = true := by decide

/-- Words of one-word instructions, written from spec/opcode_table.json and R137 to R140. -/
theorem test_words_short3 : decodeAll [
    (32, 0b00000100001010110000000000001111, .fneg .f64 1 11),
    (32, 0b00000101111111000000000001010000, .fabs .bf16 15 28),
    (32, 0b00001000000000000000000000000000, .exit),
    (32, 0b00001000000000000000000000110101, .trap 21),
    (32, 0b00001000000000000000000001000000, .brk),
    (32, 0b00001010001000000000000001100010, .fence .dev 17),
    (32, 0b00001000000000000000000010000000, .ejoin),
    (32, 0b00001000000000000000000010100000, .tret),
    (32, 0b00001000000110010000000011000000, .bar 25),
    (32, 0b00001000000100111100100011100010, .barInit .dev 19 25),
    (32, 0b00001000000000000000000100000000, .trig),
    (32, 0b00001000000000000000000100000001, .trigJ),
    (32, 0b00001010110000110000000100100000, .launch 22 3),
    (32, 0b00001000001101010000000101000000, .cfgLoad 1 21),
    (32, 0b00001000001000000000000101100000, .cfgFree 1),
    (32, 0b00001001000101100000000110000000, .phase 8 22),
    (32, 0b00001001111000000000000110100000, .pwait 15),
    (32, 0b00001010110101110100100111000000, .cfgInfo 22 23 9),
    (32, 0b00001001110001100100000111100000, .cfgItoff 14 6 8),
    (32, 0b00001000110110001110101000000000, .cfgPlim 6 24 29)] = true := by decide

/-- Words of one-word instructions, written from spec/opcode_table.json and R137 to R140. -/
theorem test_words_short4 : decodeAll [
    (32, 0b00001001101001110111101000100000, .cfgRho 13 7 15),
    (32, 0b00001000000100110000001001000000, .ddecl 19),
    (32, 0b00001000000110100000001001100000, .dfree 26),
    (32, 0b00001000000000100000001010000000, .lineReset 2),
    (32, 0b00001111101001100100000110000000, .amoAdd ⟨false, true⟩ .core true 29 6 8),
    (32, 0b00001100101000011101101001000001, .amoAnd ⟨true, false⟩ .clus false 5 1 27),
    (32, 0b00001110000110110111101000000010, .amoOr ⟨false, false⟩ .clus false 16 27 15),
    (32, 0b00001110111101100001110111000011, .amoXor ⟨true, true⟩ .dev true 23 22 3),
    (32, 0b00001111110011011101010101000100, .amoMin ⟨true, false⟩ .dev true 30 13 26),
    (32, 0b00001100110010000111011000000101, .amoMax ⟨false, false⟩ .sys false 6 8 14),
    (32, 0b00001110001000110001011011000110, .amoMinu ⟨true, true⟩ .sys false 17 3 2),
    (32, 0b00001111000111011010100110000111, .amoMaxu ⟨false, true⟩ .core true 24 29 21),
    (32, 0b00001111111101000100100101001000, .amoSwap ⟨true, false⟩ .core true 31 20 9),
    (32, 0b00001100111011111110001000001001, .amoCas ⟨false, false⟩ .clus false 7 15 28),
    (32, 0b00001110010010101000001011001010, .amoFadd ⟨true, true⟩ .clus false 18 10 16),
    (32, 0b00010010011110010000010100000000, .ldAcq .dev .w 19 25),
    (32, 0b00010000000001010000101100000001, .stRel .clus .w 5 1),
    (32, 0b00010100011000101111111111000111, .jalr 3 2 0xffc7),
    (32, 0b00100001010100001111111111110100, .addi 10 16 0xfff4),
    (32, 0b00100110001000111111111111000000, .andi 17 3 0xffc0)] = true := by decide

/-- Words of one-word instructions, written from spec/opcode_table.json and R137 to R140. -/
theorem test_words_short5 : decodeAll [
    (32, 0b00101011000100011111111111101101, .ori 24 17 0xffed),
    (32, 0b00101111111001001111111110111001, .xori 31 4 0xffb9),
    (32, 0b00110000011100101111111111100110, .slti 3 18 0xffe6),
    (32, 0b00110101010001011111111110110010, .sltiu 10 5 0xffb2),
    (32, 0b00111010001100110000000000100001, .slli 17 19 33),
    (32, 0b00111011000001100000000001010110, .srli 24 6 22),
    (32, 0b00111011111101000000000010101000, .srai 31 20 40),
    (32, 0b00111000111001110000000011011101, .roti 7 7 29),
    (32, 0b00111101110000001111111111101011, .lui 14 0xffeb),
    (32, 0b01000010101010001111111111111110, .ldB 21 8 0xfffe),
    (32, 0b01000111100101101111111111001010, .ldH 28 22 0xffca),
    (32, 0b01001000100010011111111111110111, .ldW 4 9 0xfff7),
    (32, 0b01001101011101111111111111000011, .ldD 11 23 0xffc3),
    (32, 0b01010010010010101111111111110000, .ldBu 18 10 0xfff0),
    (32, 0b01010111001110001111111110111100, .ldHu 25 24 0xffbc),
    (32, 0b01011000001010111111111111101001, .ldWu 1 11 0xffe9),
    (32, 0b01011101101001100100111111000010, .scratchLoad .sp .b 13 6 0xfc2),
    (32, 0b01100001011011001111111111100010, .stB 11 12 0xffe2),
    (32, 0b01100110010110101111111110101110, .stH 18 26 0xffae),
    (32, 0b01101011001011011111111111011011, .stW 25 13 0xffdb)] = true := by decide

/-- Words of one-word instructions, written from spec/opcode_table.json and R137 to R140. -/
theorem test_words_short6 : decodeAll [
    (32, 0b01101100001110111111111110100111, .stD 1 27 0xffa7),
    (32, 0b01110001101011101111111110100001, .scratchStore .cp .d 13 14 0xfa1),
    (32, 0b01110111100000110000111110101001, .dread .f64 28 3 0xfa9),
    (32, 0b01110101111101000101111111000001, .dreadNb .bf16 15 20 0xfc1),
    (32, 0b01111011101000000000000000110000, .srr 29 0x30),
    (32, 0b01111100000100000000000000110000, .srw 0x30 16),
    (32, 0b10000001100111101111111111110011, .beq 12 30 0xfff3),
    (32, 0b10000110011100011111111110111111, .bne 19 17 0xffbf),
    (32, 0b10001011010111111111111111101100, .blt 26 31 0xffec),
    (32, 0b10001100010100101111111110111000, .bge 2 18 0xffb8),
    (32, 0b10010000101000011111111111100101, .bltu 5 1 0xffe5),
    (32, 0b10010101100100111111111110110001, .bgeu 12 19 0xffb1),
    (32, 0b10011011111111111111111111101101, .j 0x3ffffed),
    (32, 0b10011111111111111111111111100110, .jal 0x3ffffe6)] = true := by decide

/-- Words of long forms, written from R141 and R142. -/
theorem test_words_long1 : decodeAll [
    (64, 0b0000000100001011100000000000000111100000001000100001100100000000, .scopy ⟨0, 8, 5, true, 0x8001, 1, 2, 3, 4⟩),
    (64, 0b0000000100001011100000000000000111100000001000100001100100000001, .sstrd ⟨0, 8, 5, true, 0x8001, 1, 2, 3, 4⟩),
    (64, 0b0000000100001011100000000000000111100000001000100001100100000010, .sgath ⟨0, 8, 5, true, 0x8001, 1, 2, 3, 4⟩),
    (64, 0b0000000001001011100000000000000111100000001000100001100100000011, .sscat ⟨0, 2, 5, true, 0x8001, 1, 2, 3, 4⟩),
    (64, 0b0000000000001011100000000000000111100000001000100001100100000100, .sxcopy ⟨0, 0, 5, true, 0x8001, 1, 2, 3, 4⟩),
    (64, 0b1010101101101011100000000000000111100100001000100001100100000000, .mstep ⟨42, 27, 5, true, 0x8001, 1, 2, 3, 4⟩),
    (64, 0b1010100011101011100000000000000111100100001000100001100100000001, .momstep ⟨42, 7, 5, true, 0x8001, 1, 2, 3, 4⟩),
    (64, 0b1111100000000000100000000000000111101000000000000000000100000000, .accZero ⟨62, 0, 0, false, 0x8001, 0, 0, 0, 4⟩),
    (64, 0b1111110111001011100000000000000111101000001000000001100100000001, .accLd ⟨63, 14, 5, true, 0x8001, 1, 0, 3, 4⟩),
    (64, 0b1111110111001011100000000000000111101000001000000001100100000010, .accSt ⟨63, 14, 5, true, 0x8001, 1, 0, 3, 4⟩),
    (64, 0b0000001101101011100000000000000111101100001000100001100100000000, .tmv ⟨0, 27, 5, true, 0x8001, 1, 2, 3, 4⟩),
    (64, 0b0000001101101011100000000000000111101100001000100001100100000001, .tsel ⟨0, 27, 5, true, 0x8001, 1, 2, 3, 4⟩),
    (64, 0b0000001101101011100000000000000111101100001000100001100100000010, .tred ⟨0, 27, 5, true, 0x8001, 1, 2, 3, 4⟩),
    (64, 0b0000001010101011100000000000000111110000001000100001100100000000, .collAr ⟨0, 21, 5, true, 0x8001, 1, 2, 3, 4⟩),
    (64, 0b0000001010101011100000000000000111110000001000100001100100000001, .collRs ⟨0, 21, 5, true, 0x8001, 1, 2, 3, 4⟩),
    (64, 0b0000001010101011100000000000000111110000001000100001100100000010, .collAg ⟨0, 21, 5, true, 0x8001, 1, 2, 3, 4⟩),
    (64, 0b0000001010101011100000000000000111110000001000100001100100000011, .collBc ⟨0, 21, 5, true, 0x8001, 1, 2, 3, 4⟩),
    (64, 0b0000001010101011100000000000000111110000001000100001100100000100, .collA2a ⟨0, 21, 5, true, 0x8001, 1, 2, 3, 4⟩),
    (64, 0b1000000000000000000000000000000111110101001000000000000000000000, .liw 9 0x80000001),
    (64, 0b1000000000000000000000000000000111110101010000000000000000000001, .liwh 10 0x80000001)] = true := by decide

/-- Words of long forms, written from R141 and R142. -/
theorem test_words_long2 : decodeAll [
    (64, 0b1000000000000000000000000000000111110101011011000000000000000010, .addiw 11 12 0x80000001)] = true := by decide

/-- Schedule entries, written from R129 and R133. -/
theorem test_words_entry1 : decodeAll [
    (48, 0b000000000000000000000000000000000000000000000000, .eNop ⟨0, 0, 0, 0, false, 0, 0, 0, 0, 0, 0⟩),
    (48, 0b000000100110000110000100001000010101100101110000, .eMov ⟨3, 1, 16, 16, true, 5, 1, 2, 1, 7, 0⟩),
    (48, 0b000001000110000110000100001000010101100101111001, .eDly ⟨3, 1, 16, 16, true, 5, 1, 2, 1, 7, 9⟩),
    (48, 0b000001100110000100010000111000010101100101110000, .eSel ⟨3, 1, 2, 3, true, 5, 1, 2, 1, 7, 0⟩),
    (48, 0b000010000110000110000100001000010101100101110001, .eRetag ⟨3, 1, 16, 16, true, 5, 1, 2, 1, 7, 1⟩),
    (48, 0b000010100110000100010000111000010101100101110000, .eKset ⟨3, 1, 2, 3, true, 5, 1, 2, 1, 7, 0⟩),
    (48, 0b000011000110000001001000111000010101100101110000, .eKins ⟨3, 0, 9, 3, true, 5, 1, 2, 1, 7, 0⟩),
    (48, 0b000100000010000100010100001000010101100101110000, .eIadd ⟨1, 1, 2, 16, true, 5, 1, 2, 1, 7, 0⟩),
    (48, 0b000100100010000100010100001000010101100101110000, .eIsub ⟨1, 1, 2, 16, true, 5, 1, 2, 1, 7, 0⟩),
    (48, 0b000101000010000100010100001000010101100101110000, .eImul ⟨1, 1, 2, 16, true, 5, 1, 2, 1, 7, 0⟩),
    (48, 0b000101100010000100010100001000010101100101110000, .eImulh ⟨1, 1, 2, 16, true, 5, 1, 2, 1, 7, 0⟩),
    (48, 0b000110000010000100010100001000010101100101110000, .eImulhu ⟨1, 1, 2, 16, true, 5, 1, 2, 1, 7, 0⟩),
    (48, 0b000110100010000100010000111000010101100101110000, .eImac ⟨1, 1, 2, 3, true, 5, 1, 2, 1, 7, 0⟩),
    (48, 0b000111000010000110000100001000010101100101110000, .eIneg ⟨1, 1, 16, 16, true, 5, 1, 2, 1, 7, 0⟩),
    (48, 0b000111100010000110000100001000010101100101110000, .eIabs ⟨1, 1, 16, 16, true, 5, 1, 2, 1, 7, 0⟩),
    (48, 0b001000000010000100010100001000010101100101110000, .eImin ⟨1, 1, 2, 16, true, 5, 1, 2, 1, 7, 0⟩),
    (48, 0b001000100010000100010100001000010101100101110000, .eImax ⟨1, 1, 2, 16, true, 5, 1, 2, 1, 7, 0⟩),
    (48, 0b001001000010000100010100001000010101100101110000, .eIminu ⟨1, 1, 2, 16, true, 5, 1, 2, 1, 7, 0⟩),
    (48, 0b001001100010000100010100001000010101100101110000, .eImaxu ⟨1, 1, 2, 16, true, 5, 1, 2, 1, 7, 0⟩),
    (48, 0b001010000010000100010100001000010101100101110000, .eIadds ⟨1, 1, 2, 16, true, 5, 1, 2, 1, 7, 0⟩)] = true := by decide

/-- Schedule entries, written from R129 and R133. -/
theorem test_words_entry2 : decodeAll [
    (48, 0b001010100010000100010100001000010101100101110000, .eIsubs ⟨1, 1, 2, 16, true, 5, 1, 2, 1, 7, 0⟩),
    (48, 0b001100000010000100010100001000010101100101110000, .eAnd ⟨1, 1, 2, 16, true, 5, 1, 2, 1, 7, 0⟩),
    (48, 0b001100100010000100010100001000010101100101110000, .eOr ⟨1, 1, 2, 16, true, 5, 1, 2, 1, 7, 0⟩),
    (48, 0b001101000010000100010100001000010101100101110000, .eXor ⟨1, 1, 2, 16, true, 5, 1, 2, 1, 7, 0⟩),
    (48, 0b001101100010000100010100001000010101100101110000, .eAndn ⟨1, 1, 2, 16, true, 5, 1, 2, 1, 7, 0⟩),
    (48, 0b001110000010000110000100001000010101100101110000, .eNot ⟨1, 1, 16, 16, true, 5, 1, 2, 1, 7, 0⟩),
    (48, 0b001110100010000100010100001000010101100101110000, .eShl ⟨1, 1, 2, 16, true, 5, 1, 2, 1, 7, 0⟩),
    (48, 0b001111000010000100010100001000010101100101110000, .eShr ⟨1, 1, 2, 16, true, 5, 1, 2, 1, 7, 0⟩),
    (48, 0b001111100010000100010100001000010101100101110000, .eSra ⟨1, 1, 2, 16, true, 5, 1, 2, 1, 7, 0⟩),
    (48, 0b011100000010000100010100001000010101100101110000, .eRot ⟨1, 1, 2, 16, true, 5, 1, 2, 1, 7, 0⟩),
    (48, 0b011100100010000110000100001000010101100101110000, .eClz ⟨1, 1, 16, 16, true, 5, 1, 2, 1, 7, 0⟩),
    (48, 0b011101000010000110000100001000010101100101110000, .ePopc ⟨1, 1, 16, 16, true, 5, 1, 2, 1, 7, 0⟩),
    (48, 0b011001000010000100010100001000010101100101110011, .eIcmp ⟨1, 1, 2, 16, true, 5, 1, 2, 1, 7, 3⟩),
    (48, 0b011001100010000100010100001000010101100101110011, .eIcmpu ⟨1, 1, 2, 16, true, 5, 1, 2, 1, 7, 3⟩),
    (48, 0b011010011010000100010100001000010101100101110000, .ePand ⟨13, 1, 2, 16, true, 5, 1, 2, 1, 7, 0⟩),
    (48, 0b011010111010000100010100001000010101100101110000, .ePor ⟨13, 1, 2, 16, true, 5, 1, 2, 1, 7, 0⟩),
    (48, 0b011011011010000100010100001000010101100101110000, .ePxor ⟨13, 1, 2, 16, true, 5, 1, 2, 1, 7, 0⟩),
    (48, 0b011011111010000110000100001000010101100101110000, .ePnot ⟨13, 1, 16, 16, true, 5, 1, 2, 1, 7, 0⟩),
    (48, 0b011101100010000100010100001000010101100101110000, .ePtst ⟨1, 1, 2, 16, true, 5, 1, 2, 1, 7, 0⟩),
    (48, 0b010000000110000100010100001000010101100101110000, .eAdd ⟨3, 1, 2, 16, true, 5, 1, 2, 1, 7, 0⟩)] = true := by decide

/-- Schedule entries, written from R129 and R133. -/
theorem test_words_entry3 : decodeAll [
    (48, 0b010000100110000100010100001000010101100101110000, .eSub ⟨3, 1, 2, 16, true, 5, 1, 2, 1, 7, 0⟩),
    (48, 0b010001000110000100010100001000010101100101110000, .eMul ⟨3, 1, 2, 16, true, 5, 1, 2, 1, 7, 0⟩),
    (48, 0b010001100110000100010000111000010101100101110000, .eFma ⟨3, 1, 2, 3, true, 5, 1, 2, 1, 7, 0⟩),
    (48, 0b010010000110000100010000111000010101100101110000, .eFms ⟨3, 1, 2, 3, true, 5, 1, 2, 1, 7, 0⟩),
    (48, 0b010010100110000100010000111000010101100101110000, .eFnma ⟨3, 1, 2, 3, true, 5, 1, 2, 1, 7, 0⟩),
    (48, 0b010011000110000100010000111000010101100101110000, .eFnms ⟨3, 1, 2, 3, true, 5, 1, 2, 1, 7, 0⟩),
    (48, 0b010011100110000100010100001000010101100101110000, .eDiv ⟨3, 1, 2, 16, true, 5, 1, 2, 1, 7, 0⟩),
    (48, 0b010100000110000110000100001000010101100101110000, .eSqrt ⟨3, 1, 16, 16, true, 5, 1, 2, 1, 7, 0⟩),
    (48, 0b010100100110000100010100001000010101100101110000, .eMin ⟨3, 1, 2, 16, true, 5, 1, 2, 1, 7, 0⟩),
    (48, 0b010101000110000100010100001000010101100101110000, .eMax ⟨3, 1, 2, 16, true, 5, 1, 2, 1, 7, 0⟩),
    (48, 0b010101100110000110000100001000010101100101110000, .eAbs ⟨3, 1, 16, 16, true, 5, 1, 2, 1, 7, 0⟩),
    (48, 0b010110000110000110000100001000010101100101110000, .eNeg ⟨3, 1, 16, 16, true, 5, 1, 2, 1, 7, 0⟩),
    (48, 0b010110100110000100010100001000010101100101110000, .eCpysgn ⟨3, 1, 2, 16, true, 5, 1, 2, 1, 7, 0⟩),
    (48, 0b010111000110000110000100001000010101100101110011, .eFrnd ⟨3, 1, 16, 16, true, 5, 1, 2, 1, 7, 3⟩),
    (48, 0b011000000110000100010100001000010101100101110011, .eFcmp ⟨3, 1, 2, 16, true, 5, 1, 2, 1, 7, 3⟩),
    (48, 0b011000100110000110000100001000010101100101111001, .eFclass ⟨3, 1, 16, 16, true, 5, 1, 2, 1, 7, 9⟩),
    (48, 0b100000000110000110000100001000010101100101110011, .eCvt ⟨3, 1, 16, 16, true, 5, 1, 2, 1, 7, 3⟩),
    (48, 0b100000101000000100010100001000010101100101110001, .eQmax ⟨4, 1, 2, 16, true, 5, 1, 2, 1, 7, 1⟩),
    (48, 0b100001001000000100010100001000010101100101111001, .eQfifo ⟨4, 1, 2, 16, true, 5, 1, 2, 1, 7, 9⟩),
    (48, 0b100001101000000100010100001000010101100101110000, .eQconv ⟨4, 1, 2, 16, true, 5, 1, 2, 1, 7, 0⟩)] = true := by decide

/-- Schedule entries, written from R129 and R133. -/
theorem test_words_entry4 : decodeAll [
    (48, 0b100010001000000100010100001000010101100101110000, .eDeq ⟨4, 1, 2, 16, true, 5, 1, 2, 1, 7, 0⟩),
    (48, 0b100010110010000100010100001000010101100101110000, .eGext ⟨9, 1, 2, 16, true, 5, 1, 2, 1, 7, 0⟩),
    (48, 0b100011010010000100010000111000010101100101110000, .eGins ⟨9, 1, 2, 3, true, 5, 1, 2, 1, 7, 0⟩),
    (48, 0b100100001000000110000100001000010101100101110000, .eExp2 ⟨4, 1, 16, 16, true, 5, 1, 2, 1, 7, 0⟩),
    (48, 0b100100101000000110000100001000010101100101110000, .eLog2 ⟨4, 1, 16, 16, true, 5, 1, 2, 1, 7, 0⟩),
    (48, 0b100101001000000110000100001000010101100101110000, .eExp ⟨4, 1, 16, 16, true, 5, 1, 2, 1, 7, 0⟩),
    (48, 0b100101101000000110000100001000010101100101110000, .eLn ⟨4, 1, 16, 16, true, 5, 1, 2, 1, 7, 0⟩),
    (48, 0b100110001000000110000100001000010101100101110000, .eRcp ⟨4, 1, 16, 16, true, 5, 1, 2, 1, 7, 0⟩),
    (48, 0b100110101000000110000100001000010101100101110000, .eRsqrt ⟨4, 1, 16, 16, true, 5, 1, 2, 1, 7, 0⟩),
    (48, 0b100111001000000110000100001000010101100101110000, .eSin ⟨4, 1, 16, 16, true, 5, 1, 2, 1, 7, 0⟩),
    (48, 0b100111101000000110000100001000010101100101110000, .eCos ⟨4, 1, 16, 16, true, 5, 1, 2, 1, 7, 0⟩),
    (48, 0b101000001000000110000100001000010101100101110000, .eTanh ⟨4, 1, 16, 16, true, 5, 1, 2, 1, 7, 0⟩),
    (48, 0b101000101000000110000100001000010101100101110000, .eSigmoid ⟨4, 1, 16, 16, true, 5, 1, 2, 1, 7, 0⟩),
    (48, 0b101001001000000110000100001000010101100101110000, .eErf ⟨4, 1, 16, 16, true, 5, 1, 2, 1, 7, 0⟩),
    (48, 0b101100010110000100010100001000010101100101110001, .eMadd ⟨11, 1, 2, 16, true, 5, 1, 2, 1, 7, 1⟩),
    (48, 0b101100110110000100010100001000010101100101110001, .eMsub ⟨11, 1, 2, 16, true, 5, 1, 2, 1, 7, 1⟩),
    (48, 0b101101010110000100010100001000010101100101110001, .eMmul ⟨11, 1, 2, 16, true, 5, 1, 2, 1, 7, 1⟩),
    (48, 0b101101110110000100010000111000010101100101110000, .eMscale ⟨11, 1, 2, 3, true, 5, 1, 2, 1, 7, 0⟩),
    (48, 0b101110010110000110000100001000010101100101110000, .eMrelu ⟨11, 1, 16, 16, true, 5, 1, 2, 1, 7, 0⟩),
    (48, 0b101110110110000110000100001000010101100101110000, .eMexp ⟨11, 1, 16, 16, true, 5, 1, 2, 1, 7, 0⟩)] = true := by decide

/-- Schedule entries, written from R129 and R133. -/
theorem test_words_entry5 : decodeAll [
    (48, 0b101111010110000110000100001000010101100101110000, .eMsig ⟨11, 1, 16, 16, true, 5, 1, 2, 1, 7, 0⟩),
    (48, 0b101111110110000110000100001000010101100101110000, .eMtanh ⟨11, 1, 16, 16, true, 5, 1, 2, 1, 7, 0⟩),
    (48, 0b110000010110000100010100001000010101100101110011, .eMcol ⟨11, 1, 2, 16, true, 5, 1, 2, 1, 7, 3⟩),
    (48, 0b110000110110000100010100001000010101100101110000, .eMmake ⟨11, 1, 2, 16, true, 5, 1, 2, 1, 7, 0⟩),
    (48, 0b110100000110000110000100001000010101100101111001, .eLds ⟨3, 1, 16, 16, true, 5, 1, 2, 1, 7, 9⟩),
    (48, 0b110100100110000100010100000000000000000101111001, .eSts ⟨3, 1, 2, 16, false, 0, 0, 0, 1, 7, 9⟩),
    (48, 0b110101000110000110000100001000010101100101111001, .eLdx ⟨3, 1, 16, 16, true, 5, 1, 2, 1, 7, 9⟩),
    (48, 0b110101100110000100010100000000000000000101111001, .eStx ⟨3, 1, 2, 16, false, 0, 0, 0, 1, 7, 9⟩),
    (48, 0b110110011101000010000100001000010101100101111001, .eAgen ⟨14, 16, 16, 16, true, 5, 1, 2, 1, 7, 9⟩),
    (48, 0b110110111100000100010100001000010101100101111001, .eAgen2 ⟨14, 1, 2, 16, true, 5, 1, 2, 1, 7, 9⟩),
    (48, 0b110111011100000110000100001000010101100101111001, .eAbump ⟨14, 1, 16, 16, true, 5, 1, 2, 1, 7, 9⟩),
    (48, 0b110111111100000110000100001000010101100101111001, .eAmod ⟨14, 1, 16, 16, true, 5, 1, 2, 1, 7, 9⟩),
    (48, 0b111000000110000110000100001000010101100101111001, .eLsld ⟨3, 1, 16, 16, true, 5, 1, 2, 1, 7, 9⟩),
    (48, 0b111000100110000100010100000000000000000101111001, .eLsst ⟨3, 1, 2, 16, false, 0, 0, 0, 1, 7, 9⟩),
    (48, 0b111001000110000110000100001000010101100101110011, .eSpld ⟨3, 1, 16, 16, true, 5, 1, 2, 1, 7, 3⟩),
    (48, 0b111001100110000100010100000000000000000101110011, .eSpst ⟨3, 1, 2, 16, false, 0, 0, 0, 1, 7, 3⟩),
    (48, 0b111010011010000100010100001000010101100101111001, .eWpchk ⟨13, 1, 2, 16, true, 5, 1, 2, 1, 7, 9⟩),
    (48, 0b111010100110111100010100000000000000000101110001, .eAccr ⟨3, 15, 2, 16, false, 0, 0, 0, 1, 7, 1⟩),
    (48, 0b111100000110000100010100000000000000000101111001, .eRadd ⟨3, 1, 2, 16, false, 0, 0, 0, 1, 7, 9⟩),
    (48, 0b111100100110000100010100000000000000000101111001, .eRmin ⟨3, 1, 2, 16, false, 0, 0, 0, 1, 7, 9⟩)] = true := by decide

/-- Schedule entries, written from R129 and R133. -/
theorem test_words_entry6 : decodeAll [
    (48, 0b111101000110000100010100000000000000000101111001, .eRmax ⟨3, 1, 2, 16, false, 0, 0, 0, 1, 7, 9⟩),
    (48, 0b111101100010000100010100000000000000000101111001, .eRand ⟨1, 1, 2, 16, false, 0, 0, 0, 1, 7, 9⟩),
    (48, 0b111110000010000100010100000000000000000101111001, .eRor ⟨1, 1, 2, 16, false, 0, 0, 0, 1, 7, 9⟩),
    (48, 0b111110100010000100010100000000000000000101111001, .eRxor ⟨1, 1, 2, 16, false, 0, 0, 0, 1, 7, 9⟩)] = true := by decide
/-! ### Well-formedness -/

/-- A long form of zeros but for the channel valid bit. -/
def plainLong : Long := ⟨0, 8, 0, true, 0, 0, 0, 0, 0⟩
/-- An entry that reads nothing. -/
def plainEntry : Entry := ⟨1, 16, 16, 16, false, 0, 0, 0, 0, 0, 0⟩

/-- R137: RM 6 and 7 are reserved, and RM is zero under DYN. -/
theorem test_wf_round : (Instr.fadd .f64 ⟨false, 4⟩ 1 2 3).wf = true ∧ (Instr.fadd .f64 ⟨false, 6⟩ 1 2 3).wf = false
    ∧ (Instr.fsub .f64 ⟨true, 1⟩ 1 2 3).wf = false ∧ (Instr.fmul .f64 ⟨false, 7⟩ 1 2 3).wf = false ∧ (Instr.fdiv .f64 ⟨false, 7⟩ 1 2 3).wf = false
    ∧ (Instr.fsqrt .f64 ⟨true, 2⟩ 1 2).wf = false ∧ (Instr.fma .f64 ⟨false, 6⟩ 1 2 3).wf = false ∧ (Instr.ftoi .f64 ⟨false, 6⟩ 1 2).wf = false
    ∧ (Instr.itof .f64 ⟨false, 6⟩ 1 2).wf = false ∧ (Instr.fcvt .f64 ⟨false, 6⟩ 1 2 .f32).wf = false := by decide

/-- R140, R223: a number below 0x400 that the chapter does not list is reserved. -/
theorem test_wf_sysreg : (Instr.srr 1 0x030).wf = true ∧ (Instr.srr 1 0x00F).wf = false ∧ (Instr.srw 0x034 1).wf = false := by decide

/-- R141, R142 and the commands' entries: fields a command does not accept. -/
theorem test_wf_long : (Instr.scopy plainLong).wf = true ∧ (Instr.scopy { plainLong with chv := false }).wf = false
    ∧ (Instr.scopy { plainLong with slot := 1 }).wf = false ∧ (Instr.scopy { plainLong with mod := 1 }).wf = false
    ∧ (Instr.sscat plainLong).wf = false ∧ (Instr.sxcopy plainLong).wf = false ∧ (Instr.mstep { plainLong with mod := 0, slot := 1 }).wf = false
    ∧ (Instr.mstep { plainLong with chv := false, ch := 1 }).wf = false ∧ (Instr.mstep { plainLong with mod := 5 }).wf = false
    ∧ (Instr.momstep { plainLong with mod := 8 }).wf = false ∧ (Instr.accZero plainLong).wf = false ∧ (Instr.accLd plainLong).wf = false
    ∧ (Instr.accSt { plainLong with mod := 0b11001 }).wf = false ∧ (Instr.tmv { plainLong with mod := 0b00101 }).wf = false
    ∧ (Instr.tsel { plainLong with mod := 0b00001 }).wf = false ∧ (Instr.tred { plainLong with mod := 0b11101 }).wf = false
    ∧ (Instr.collAr { plainLong with mod := 0 }).wf = false ∧ (Instr.collAg { plainLong with mod := 0b11000 }).wf = false := by decide

/-- R132: an entry that meets no condition of the list in turn: 1 FMT, 2 NOP, 3 a field not read, 4 a source above 19, 5 source 15, 6 AUX and
source 13, 7 WI without WE, 8 no result, 9 source 14, 10 K, 11 ACCR. -/
theorem test_wf_entry : (Instr.eIneg { plainEntry with sa := 1 }).wf = true ∧ (Instr.eIneg { plainEntry with sa := 1, fmt := 15 }).wf = false
    ∧ (Instr.eNop plainEntry).wf = false ∧ (Instr.eIneg { plainEntry with sa := 1, sb := 1 }).wf = false
    ∧ (Instr.eIneg { plainEntry with sa := 20 }).wf = false ∧ (Instr.eIneg { plainEntry with sa := 15 }).wf = false
    ∧ (Instr.eClz { plainEntry with sa := 1, aux := 1 }).wf = false ∧ (Instr.ePand ⟨13, 13, 1, 16, false, 0, 0, 0, 0, 0, 0⟩).wf = false
    ∧ (Instr.eIneg { plainEntry with sa := 1, wi := 3 }).wf = false ∧ (Instr.eSts ⟨1, 1, 2, 16, true, 0, 0, 0, 0, 0, 0⟩).wf = false
    ∧ (Instr.eIneg { plainEntry with sa := 14, we := true }).wf = false ∧ (Instr.eKins { plainEntry with sa := 1 }).wf = false
    ∧ (Instr.eAccr { plainEntry with sa := 1 }).wf = false := by decide

/-! ### States for the witnesses -/

/-- A member running on core 0 for task 1 of partition 1, with its first two pages translated to frame 0. -/
def base : State := State.reset.withFetchWord 32 0
/-- `base` with its traps enabled and a vector. -/
def ready : State := base.modQ fun q => { q with tvec := 0x4001 }
/-- `ready` in a kernel of class D, with g1 poisoned. -/
def poisoned : State := (ready.modCur fun k => { k with bind := some { task := 1, part := 1, kclass := 1 } }).setG 1 0 true
/-- The leaf of the first page. -/
def leaf0 : Word := openLeaf 0 0

/-- `base` reaches device memory at the addresses of its first page. -/
theorem witness_reaches8 (kind : Nat) (h : kind < 2) : Reaches base 8 8 kind leaf0 8 := by
  rcases kind with _ | _ | k
  · exact ⟨rfl, rfl, rfl, rfl, by decide, rfl, by decide, rfl, rfl, rfl, rfl, rfl⟩
  · exact ⟨rfl, rfl, rfl, rfl, by decide, rfl, by decide, rfl, rfl, rfl, rfl, rfl⟩
  · omega

/-! ### Witnesses: sequencer -/

theorem witness_BranchesAndJumps : ((base.g 1).psn = false ∧ (base.g 2).psn = false ∨ base.kclass ≠ 1)
    ∧ (((base.setG 1 4 false).g 1).val + (0 : BitVec 16).signExtend 64).toNat % 4 = 0
    ∧ (((ready.setG 1 2 false).g 1).val + (0 : BitVec 16).signExtend 64).toNat % 4 ≠ 0
    ∧ ((ready.setG 1 2 false).g 1).psn = false ∧ (ready.setG 1 2 false).canTrap = true := by decide

theorem witness_TrapEntersHandler : ready.canTrap = true := by decide

/-- `poisoned` with its traps disabled; a member whose partition owns no frame. -/
def poisonedOff : State := poisoned.modQ fun q => { q with tvec := 0 }
def unowned : State := { base with pat := [] }
theorem witness_TrapFaultsMember : base.q.tvec.bit 0 = false ∧ base.cur.replay = none ∧ 0x400 ≤ (0x400 : BitVec 12).toNat
    ∧ poisonedOff.q.tvec.bit 0 = false ∧ poisonedOff.kclass = 1 ∧ (poisonedOff.g 1).psn = true ∧ (base.g 1).psn = false
    ∧ ((base.g 1).val + (2 : BitVec 16).signExtend 64).toNat % 4 ≠ 0 ∧ ((base.g 1).val + (4 : BitVec 16).signExtend 64).toNat % 8 ≠ 0
    ∧ unowned.q.tvec.bit 0 = false ∧ ((unowned.g 1).val + (0 : BitVec 16).signExtend 64).toNat % 8 = 0 ∧ unowned.frameOk unowned.me.part leaf0 0 = false
    ∧ (unowned.xlate unowned.core .seq unowned.me.part 0 0).1 = .ok leaf0 0 ∧ (unowned.xlate unowned.core .seq unowned.me.part 0 1).1 = .ok leaf0 0 := by decide

theorem witness_TrapReturnAndBreak : base.q.tvec.bit 0 = false ∧ ready.canTrap = true ∧ base.me.dbg = false := by decide

theorem witness_PoisonedOperandFaults : poisoned.canTrap = true ∧ poisoned.kclass = 1 ∧ (poisoned.g 1).psn = true ∧ poisoned.q.wait = .none ∧ poisoned.cur.preempt = false := by decide

theorem witness_SystemRegisterReads : base.unwatched = true := by decide

theorem witness_SystemRegisterWrites : ((base.g 1).psn = false ∨ base.kclass ≠ 1) ∧ base.phaseRuns = false := by decide

/-- A running phase of the member. -/
def phasing : State :=
  { ready with stamps := [(5, { task := 1, state := .running, handle := 3, trip := 4, entries := [(0, 1)], copies := [{ done := false }] })] }

theorem witness_SystemRegisterTraps : ready.canTrap = true ∧ 0x400 ≤ (0xFFF : BitVec 12).toNat ∧ 0x400 ≤ (0x400 : BitVec 12).toNat
    ∧ sysRegOk 0x3FF = false ∧ (0x3FF : BitVec 12).toNat < 0x400 ∧ phasing.canTrap = true ∧ phasing.phaseRuns = true
    ∧ 0x20 ≤ (0x27 : BitVec 12).toNat ∧ (0x27 : BitVec 12).toNat < 0x28 := by decide

theorem witness_LoadsDeliverMemory : base.unwatched = true ∧ ((base.g 1).psn = false ∨ base.kclass ≠ 1)
    ∧ Reaches base ((base.g 1).val + (8 : BitVec 16).signExtend 64) 8 0 leaf0 8 :=
  ⟨by decide, by decide, witness_reaches8 0 (by decide)⟩

theorem witness_StoresReachTheirHome : base.unwatched = true ∧ ((base.g 1).psn = false ∨ base.kclass ≠ 1) ∧ base.q.unacked = 0
    ∧ Reaches base ((base.g 1).val + (8 : BitVec 16).signExtend 64) 8 1 leaf0 8 :=
  ⟨by decide, by decide, by decide, witness_reaches8 1 (by decide)⟩

theorem witness_StoresReachTheirHome_way : base.homePkg 8 = base.pkgNo ∧ base.holdersOf 8 = [] ∧ base.choice = 0 ∧ ({ base with oracle := [1] } : State).choice ≠ 0
    ∧ ({ base with oracle := [1] } : State).inBase 8 8 = false ∧ base.pushing base.cluster = false ∧ base.settled .core = true
    ∧ base.way = [] ∧ base.homeReady 8 8 = true ∧ base.settled .dev = true ∧ (base.getCluster base.cluster).dirty = [] ∧ base.strapOn .dev = false := by decide

/-- `base` with one MiB of the chip scratchpad for its partition. -/
def windowed : State := base.modPart 1 fun p => { p with cpwin := 0x0201 }
/-- The bank of offset 8 at another row earlier in the cycle. -/
def bankTaken (l : ScratchLoc) : State := { windowed with bankUse := (l.bankRow.map fun x => (x.1, x.2 + 1)).toList }

theorem witness_ScratchAccesses : windowed.unwatched = true ∧ ((windowed.g 1).psn = false ∨ windowed.kclass ≠ 1)
    ∧ windowed.scratchLoc 0 1 (levelNo .sp) 8 = .core 0 8 ∧ windowed.scratchLoc 0 1 (levelNo .cm) 8 = .cm 0 8
    ∧ windowed.scratchLoc 0 1 (levelNo .cp) 8 = .cp (2 * 2 ^ 20 + 8) ∧ windowed.chipWorst (.cp 0x200008) 8 = .clean
    ∧ windowed.chipWorst (.core 0 8) 8 = .clean ∧ (windowed.getCluster (clusterOf windowed.core)).objects = []
    ∧ (∀ l ∈ [ScratchLoc.core 0 8, .cm 0 8, .cp 0x200008], windowed.bankWait l = 0 ∧ (bankTaken l).bankWait l ≠ 0) ∧ (bankTaken (.core 0 8)).unwatched = true := by decide

theorem witness_MisalignedAccessesFault : ready.canTrap = true ∧ ((ready.g 1).psn = false ∨ ready.kclass ≠ 1)
    ∧ ((ready.g 1).val + (1 : BitVec 16).signExtend 64).toNat % 2 ≠ 0 ∧ ((ready.g 1).val + (2 : BitVec 16).signExtend 64).toNat % 4 ≠ 0
    ∧ ((ready.g 1).val + (4 : BitVec 16).signExtend 64).toNat % 8 ≠ 0 ∧ ((ready.setG 1 4 false).g 1).val.toNat % sizeBytes .d ≠ 0
    ∧ ((ready.setG 1 2 false).g 1).val.toNat % 4 ≠ 0
    ∧ ((ready.g 1).val + (1 : BitVec 12).signExtend 64).toNat % sizeBytes .h ≠ 0
    ∧ ready.scratchLoc 0 1 (levelNo .sp) ((ready.g 1).val + (0xFF8 : BitVec 12).signExtend 64) = .bad := by decide

/-- `ready` with no translation. -/
def unmapped : State := ready.modCur fun k => { k with seqTlb := [] }

theorem witness_UntranslatedAccessesWait : ((unmapped.g 1).psn = false ∨ unmapped.kclass ≠ 1)
    ∧ unmapped.xlate unmapped.core .seq unmapped.me.part 0 0 = (.missing, unmapped)
    ∧ ({ ready with pat := [] } : State).canTrap = true
    ∧ ({ ready with pat := [] } : State).xlate 0 .seq 1 0 1 = (.ok leaf0 0, { ready with pat := [] })
    ∧ ({ ready with pat := [] } : State).frameOk 1 leaf0 0 = false := ⟨by decide, rfl, by decide, rfl, by decide⟩

theorem witness_AtomicsUpdateMemory : base.unwatched = true ∧ ((base.g 1).psn = false ∨ base.kclass ≠ 1) ∧ (base.g 2).psn = false
    ∧ (base.g 3).psn = false ∧ base.q.unacked = 0 ∧ leafType leaf0 = 0
    ∧ Reaches (base.setG 1 8 false) ((base.setG 1 8 false).g 1).val 8 3 leaf0 8 ∧ (base.setG 1 8 false).inBase 8 8 = false :=
  ⟨by decide, by decide, by decide, by decide, by decide, by decide,
    ⟨rfl, rfl, rfl, rfl, by decide, rfl, by decide, rfl, rfl, rfl, rfl, rfl⟩, by decide⟩
theorem witness_AtomicsUpdateMemory_release : base.settled .core = true ∧ base.settled .clus = true := by decide

/-- The member in a function whose partition demotes system scope and asks for the trap, with traps enabled and not. -/
def demoting : State := ready.modPart 1 fun p => { p with prect := 0x0010000000000000, ppol := 0xC000000000000000 }
theorem witness_FencesOrderAndReport_policy : demoting.strapOn .sys = true ∧ demoting.q.tvec.bit 0 = true ∧ demoting.settled .sys = true ∧ demoting.cur.mstate = .running
    ∧ (demoting.modQ fun q => { q with tvec := 0 }).strapOn .sys = true
    ∧ base.strapOn .dev = false ∧ demoting.cur.mstate ≠ .frozen ∧ demoting.pushing 0 = false ∧ (demoting.getCluster 0).dirty = []
    ∧ base.strapOn .sys = false ∧ (∀ x ∈ (base.getCluster base.cluster).dirty, base.lost.contains (x.1 / 128) = false) := by decide
theorem witness_FencesOrderAndReport : base.demotes .sys = false ∧ base.settled .sys = true
    ∧ (base.modQ fun q => { q with unacked := 1 }).settled .core = false := by decide

theorem witness_JoinsExitAndTrigger : base.cur.joined = true ∧ base.mayRetire 0 = true ∧ (base.getTask base.me.task).signalled = false
    ∧ base.cur.replay = none ∧ base.settled .dev = true ∧ (base.getCluster base.cluster).dirty = []
    ∧ (base.modQ fun q => { q with unacked := 1 }).mayRetire 0 = false := by decide

/-- A command of an engine as it was issued. -/
def command (i : Instr) : Cmd := { id := 0, instr := i, va := 0, ra := 0, rb := 0, rc := 0, due := 0, arrive := 4 }
/-- `base` with commands pending. -/
def with' (s : State) (l : List Cmd) : State := s.modCur fun k => { k with cmds := l, nextCmd := l.length }
/-- `base` with a command that has not retired. -/
def busy : State := with' base [command (.scopy plainLong)]

theorem witness_JoinsExitAndTrigger_waits : busy.cur.joined = false := by decide
/-- Its task has signalled. -/
def told : State := base.modTask 1 fun t => { t with signalled := true }
theorem witness_JoinsExitAndTrigger_task : base.q.wait ≠ .signal ∧ base.me.task ≠ 0 ∧ base.core < 72 ∧ base.pushing base.cluster = false
    ∧ (∀ c, c < 72 → c ≠ base.core → (base.getCore c).binding.task = base.me.task → (base.getCore c).seq.wait ≠ .signal)
    ∧ base.compPlace (base.getTask base.me.task).part (base.getTask base.me.task).comp true = none ∧ (told.getTask told.me.task).signalled = true := by decide

/-- A barrier word of two, `n` arrived, at offset 32 of the cluster, its handle in g1 and a count in g2. -/
def barAt (s : State) (w : Nat) : State :=
  ((s.modCluster 0 fun k => { k with cm := k.cm.store 32 (toBytes 16 w) false }).setG 1 0x1FFFF000020 false).setG 2 2 false
/-- One of two has arrived. -/
def barWord : Nat := 2 * 2 ^ 64 + 2 ^ 32 + 16

theorem witness_BarriersCountAndRelease : ((barAt base barWord).g 1).psn = false ∧ ((barAt base barWord).g 2).psn = false
    ∧ (barAt base barWord).cur.replay = none ∧ (barAt base barWord).q.wait = .none ∧ 1 ≤ ((barAt base barWord).g 2).val.toNat
    ∧ ((barAt base barWord).g 2).val.toNat ≤ maxMembers
    ∧ (barAt base barWord).cluster = 0 ∧ barBad ((barAt base barWord).barObj 0 32) = false
    ∧ barScope ((barAt base barWord).barObj 0 32) = 1 ∧ (barAt base barWord).settled (Machine.scopeOf 1) = true
    ∧ barArrived ((barAt base barWord).barObj 0 32) + 1 = barCount ((barAt base barWord).barObj 0 32)
    ∧ barArrived ((barAt base (3 * 2 ^ 64)).barObj 0 32) + 1 ≠ barCount ((barAt base (3 * 2 ^ 64)).barObj 0 32)
    ∧ barGen ((barAt base (barWord + 2 ^ 96)).barObj 0 32) ≠ 0 ∧ base.unwatched = true ∧ barArrived barWord + 1 < 2 ^ 32 ∧ (barAt base barWord).pushing 0 = false
    ∧ barScope ((barAt base (barWord + 16)).barObj 0 32) = 2 ∧ (barAt base (barWord + 16)).settled (Machine.scopeOf 2) = true ∧ ((barAt base barWord).getCluster 0).dirty = []
    ∧ barBroken ((barAt ready (barWord + 1)).barObj 0 32) = true ∧ barGen ((barAt ready (barWord + 1)).barObj 0 32) = 0 ∧ (barAt ready (barWord + 1)).canTrap = true
    ∧ barBad ((barAt ready 0).barObj 0 32) = true ∧ (barAt ready 0).canTrap = true := by decide

/-- The object recorded at its home, and a word of it at which a program stores. -/
def recordedBar : State := (barAt base barWord).modCluster 0 fun k => { k with objects := [32] }
theorem witness_BarriersCountAndRelease_store : ((recordedBar.getCluster 0).objects.filter fun x => decide (x < 40 + 4) && decide (40 < x + 16)) = [32]
    ∧ recordedBar.unwatched = true ∧ (barAt base barWord).strapOn (Machine.scopeOf 1) = false
    ∧ (((barAt base barWord).modCluster 0 fun k => { k with cm := k.cm.store 32 (toBytes 16 (barWord + 1)) false }).barObj 0 32 |> barBroken) = true := by decide
theorem witness_BarriersCountAndRelease_sound : (barAt base barWord).chipWorst (.cm 0 32) 16 = .clean
    ∧ (∀ w ∈ wordParts 32 16, (barAt base barWord).chipWorst (.cm 0 w.1) w.2 = .clean) ∧ recordedBar.bankWait (.cm 0 40) = 0 ∧ (32 : Nat) % 16 = 0 := by decide
theorem witness_BarriersCountAndRelease_place : (barAt base barWord).barPlace 0 ((barAt base barWord).g 1).val false = .ok (.here 0 32) := rfl

/-- A launch being decided. -/
def launching : State := { base with launching := [⟨0, 4, 0⟩] }

theorem witness_LaunchAndItsDecision : ((base.g 1).psn = false ∨ base.kclass ≠ 1) ∧ base.cur.replay = none ∧ base.settled .dev = true
    ∧ Reaches base (base.g 1).val 64 0 leaf0 0 ∧ launching.launchWaits ⟨0, 4, BitVec.ofNat 512 0⟩ = false ∧ launching.subreg = none ∧ base.pushing base.cluster = false :=
  ⟨by decide, by decide, by decide, ⟨rfl, rfl, rfl, rfl, by decide, rfl, by decide, rfl, rfl, rfl, rfl, rfl⟩, by decide, rfl, by decide⟩

/-- A member whose handle 3 names stamp 5, with one copy, in a state. -/
def loaded (st : StampState) : State :=
  let s := base.modCur fun k => { k with handles := [(3, some ⟨5, some 0⟩)] }
  { s with stamps := [(5, { task := 1, state := st, handle := 3, copies := [{ handle := 3 }] })], nextStamp := 6 }

theorem witness_StampInstructions : ((loaded .idle).g 1).psn = false ∧ Store.get none (loaded .idle).cur.handles 3 = some ⟨5, some 0⟩
    ∧ ((loaded .idle).getStamp 5).core = (loaded .idle).core ∧ ((loaded .idle).getStamp 5).handle = 3
    ∧ ((loaded .idle).getStamp 5).state = .idle ∧ (loaded .idle).cur.preempt = false ∧ (loaded .idle).q.wait = .none
    ∧ ((loaded .idle).g 1).val.toNat < ((loaded .idle).getStamp 5).copies.length
    ∧ ((loaded .idle).setG 1 0xFFFFFFFF false |>.g 1).val.toNat < 2 ^ 32
    ∧ ((loaded .running).getStamp 5).state = .running ∧ (((loaded .running).getStamp 5).copy 0).oty < 4 := by decide
/-- Its `PWAIT` on a phase that has faulted, with a round that still commits or not; another handle of it; its loading core. -/
def phaseFaulted (k : Option Nat) : State :=
  ((loaded (.faulted 9)).modStamp 5 fun st => { st with copies := [{ handle := 3, committing := k }] }).modQ fun q => { q with wait := .phase 5 }
theorem witness_StampInstructions_faulted : (phaseFaulted none).q.wait = .phase 5 ∧ (∀ c ∈ ((phaseFaulted none).getStamp 5).copies, c.committing = none)
    ∧ (∃ c ∈ ((phaseFaulted (some 0)).getStamp 5).copies, c.committing ≠ none) ∧ ((phaseFaulted none).getStamp 5).state = .faulted 9
    ∧ (((loaded .idle).modStamp 5 fun st => { st with core := 7 }).getStamp 5).core ≠ 0
    ∧ (((loaded .idle).modStamp 5 fun st => { st with handle := 4 }).getStamp 5).handle ≠ 3 ∧ (loaded .idle).traces 0 1 = false
    ∧ ((loaded .idle).getStamp 5).copies.length ≤ (1 : Word).toNat ∧ Store.get none (loaded .idle).cur.handles 4 = none
    ∧ ((loaded .idle).modCur fun k => { k with preempt := true }).cur.preempt = true := by decide

/-- `base` in a task of one member. -/
def ganged : State := { base with tasks := [(1, { part := 1, state := .running, record := BitVec.ofNat 512 (2 ^ 240) })] }

theorem witness_EngineCommandsIssue : base.unwatched = true ∧ base.cur.pendingCmds < 64 ∧ base.kclass ≠ 1
    ∧ longOk (.scopy plainLong) = true ∧ lengthOk 128 = true ∧ strideOk 0x100001 = true
    ∧ longOk (.mstep { plainLong with mod := 0b11000 }) = true ∧ longOk (.accZero ⟨0, 0, 0, false, 0, 0, 0, 0, 0⟩) = true ∧ indexOk 4 = true
    ∧ tileOk 0x10001 = true ∧ shapeOk 0x200020 = true ∧ vectorOk true 0 = true ∧ vectorOk false 0 = true ∧ tmvOk 2 0x10001000001 = true ∧ tselOk 0 = true
    ∧ 64 ≤ (with' base (List.replicate 64 (command (.scopy plainLong)))).cur.pendingCmds ∧ ready.canTrap = true ∧ strideOk 0 = false
    ∧ longOk (.scopy { plainLong with mod := 1 }) = false ∧ tredOk 0x1000001 = true ∧ ganged.collLimits 0 0 (1 + 2 ^ 39) = true ∧ ganged.unwatched = true := by decide
/-! ### Witnesses: images and derived memory -/

/-- The first page of host memory. -/
def host0 : Nat := 1125899906842624
/-- Its leaf. -/
def leafHost : Word := openLeaf 0 host0
/-- `base` with page 0 on it, allowed to the partition, and a configuration image of one tile of `NOP` entries at its start: the header
(R56), one copy for the loading core, the tile's CRC. -/
def imaged : State :=
  let s := (base.modCore 0 fun k => { k with seqTlb := [⟨1, 0, 65536, leafHost⟩] }).modPart 1 fun p => { p with ppol := 0x800000000000000 }
  { s with
    host := ((base.host.store host0 (toBytes 32 0x082c565a00000cc0000200000000000000010000002000800000000000017c1a) false).store (host0 + 64) (toBytes 8 0xE000) false).store (host0 + 3200) (toBytes 4 0x67e6c984) false }
/-- The image's byte `a`. -/
def imgByte (a : Nat) : Byte := imaged.host.byte (host0 + a)
/-- Its header as read. -/
def imageHead : Image := ⟨0x082c565a00000cc0000200000000000000010000002000800000000000017c1a, toBytes 32 0x082c565a00000cc0000200000000000000010000002000800000000000017c1a⟩

theorem imaged_xlate : imaged.xlate imaged.core .seq imaged.me.part (BitVec.ofNat 64 (0 * 65536)) 0 = (.ok leafHost host0, imaged) := rfl
theorem imaged_frame : imaged.frameOk imaged.me.part leafHost host0 = true := by decide +kernel
theorem imaged_pages : translatePages imaged [(0, true)] = .ok ([(leafHost, host0)], imaged) := by
  simp only [translatePages, imaged_xlate, imaged_frame, Bool.not_true, Bool.false_eq_true, if_false, if_true]

theorem read_map (r : Ram) (a n : Nat) : r.read a n = (List.range n).map fun i => r.byte (a + i) := by
  induction n generalizing a with
  | zero => rfl
  | succ n ih =>
    rw [Ram.read, ih, List.range_succ_eq_map, List.map_cons, List.map_map]
    congr 1
    apply List.map_congr_left
    intro i _
    show r.byte (a + 1 + i) = r.byte (a + (i + 1))
    rw [show a + 1 + i = a + (i + 1) by omega]

/-- The parts of the image: the header, and the rest. -/
def headPart : List (Word × Word × Nat × Nat) := pageParts 0 32 [(leafHost, host0)]
def restPart : List (Word × Word × Nat × Nat) := pageParts 32 3232 [(leafHost, host0)]
/-- The bytes read. -/
def imageBytesRead : List Byte := imaged.host.read host0 32 ++ imaged.host.read (host0 + 32) 3232
/-- A state whose L1 has read `n` bytes of the page. -/
def seen (s : State) (pa n : Nat) : State := (linesOf pa n).foldl (fun s l => s.touch s.core s.me.part leafHost (128 * l) false) s
/-- `imaged` once its header is read, and once all of it is. -/
def imagedHead : State := seen imaged host0 32
def imagedAll : State := seen (seen imagedHead host0 32) (host0 + 32) 3232

theorem seen_only (s : State) (pa n : Nat) : CachesOnly s (seen s pa n) := by
  unfold seen
  generalize linesOf pa n = l
  induction l generalizing s with
  | nil => exact ⟨rfl, fun _ => rfl⟩
  | cons x l ih => exact (cachesOnly_touch s _ _ _ _ _).trans (ih _)
theorem seen_host (s : State) (pa n : Nat) : (seen s pa n).host = s.host := by rw [(seen_only s pa n).device]
theorem imaged_read : imagedHead.readImage (headPart ++ restPart) = .ok (imageBytesRead, imagedAll) := by
  have h : imagedHead.readImage (headPart ++ restPart)
      = .ok (imagedHead.host.read host0 32 ++ (seen imagedHead host0 32).host.read (host0 + 32) 3232, imagedAll) := rfl
  rw [h, seen_host, imagedHead, seen_host]
  rfl
theorem imagedAll_only : CachesOnly imaged imagedAll := ((seen_only _ _ _).trans (seen_only _ _ _)).trans (seen_only _ _ _)
theorem imagedAll_same : imagedAll.core = imaged.core ∧ (∀ c, imagedAll.freeHandles c = imaged.freeHandles c) ∧ imagedAll.stamps = imaged.stamps
    ∧ (∀ c, (imagedAll.getCore c).bind = (imaged.getCore c).bind) ∧ ∀ c, imagedAll.tilesTaken c = imaged.tilesTaken c := by
  have h := imagedAll_only
  have b (c : Nat) : (imagedAll.getCore c).bind = (imaged.getCore c).bind := by rw [h.cores c]
  have s : imagedAll.stamps = imaged.stamps := by rw [h.device]
  refine ⟨by rw [h.device], fun c => ?_, s, b, fun c => ?_⟩
  · rw [State.freeHandles, h.cores c]; rfl
  · simp only [State.tilesTaken, State.occupies, s, b]
    rw [h.cores c]
theorem imagedHead_xlate : imagedHead.xlate imagedHead.core .seq imagedHead.me.part (BitVec.ofNat 64 (0 * 65536)) 0 = (.ok leafHost host0, imagedHead) := rfl
theorem imagedHead_frame : imagedHead.frameOk imagedHead.me.part leafHost host0 = true := by decide +kernel
theorem imagedHead_pages : translatePages imagedHead [(0, true)] = .ok ([(leafHost, host0)], imagedHead) := by
  simp only [translatePages, imagedHead_xlate, imagedHead_frame, Bool.not_true, Bool.false_eq_true, if_false, if_true]

theorem witness_ConfigurationLoads :
    (((imaged.g 1).psn = false ∨ imaged.kclass ≠ 1) ∧ (imaged.g 1).val.toNat = 0)
    ∧ translatePages imaged [(0, true)] = .ok ([(leafHost, host0)], imaged)
    ∧ (imaged.partsWait headPart = none ∧ imaged.readImage headPart = .ok (imageHead.bytes, imagedHead))
    ∧ ofBytes imageHead.bytes = imageHead.head ∧ imageHead.check1 = true
    ∧ translatePages imagedHead ((pagesOf (0 + 32) (imageHead.len - 32)).map fun p => (p, true)) = .ok ([(leafHost, host0)], imagedHead)
    ∧ pageParts (0 + 32) (imageHead.len - 32) [(leafHost, host0)] = restPart
    ∧ (imagedHead.partsWait restPart = none ∧ imagedHead.readImage (headPart ++ restPart) = .ok (imageBytesRead, imagedAll))
    ∧ (imagedAll.freeHandles imagedAll.core).contains 3 = true := by
  have l : imageHead.len = 3264 := by decide +kernel
  have p : (pagesOf (0 + 32) (3264 - 32)).map (fun p => (p, true)) = [(0, true)] := by decide +kernel
  have b : imaged.host.read host0 32 = imageHead.bytes := by decide +kernel
  rw [l, p, ← b]
  exact ⟨by decide, imaged_pages, ⟨by decide +kernel, rfl⟩, by rw [b]; decide +kernel, by decide +kernel, imagedHead_pages, rfl,
    ⟨by decide +kernel, imaged_read⟩, by rw [imagedAll_same.2.1, imagedAll_same.1]; decide⟩

/-- The image as loaded. -/
def image : Image := { imageHead with bytes := imageBytesRead }

theorem image_bytes : image.bytes = (List.range 3264).map imgByte := by
  have h : imageBytesRead = imaged.host.read host0 (32 + 3232) := by
    rw [imageBytesRead, read_map, read_map, read_map, List.range_add, List.map_append, List.map_map]
    congr 1
  show imageBytesRead = _
  rw [h, read_map]
  rfl

theorem image_cut (a n : Nat) (h : a + n ≤ 3264) :
    imageBytes image.bytes a n = (List.range n).map fun i => imgByte (a + i) := by
  apply List.ext_getElem
  · simp [imageBytes, image_bytes]; omega
  · intro i h1 h2
    simp [imageBytes, image_bytes]

/-- Bytes 72 to 3199 of the image are zero. -/
theorem image_zero (a : Nat) (h : 72 ≤ a) (h' : a < 3200) : imgByte a = 0 := by
  unfold imgByte imaged
  have l1 : (toBytes 32 0x082c565a00000cc0000200000000000000010000002000800000000000017c1a).length = 32 := rfl
  have l2 : (toBytes 8 0xE000).length = 8 := rfl
  have l3 : (toBytes 4 0x67e6c984).length = 4 := rfl
  have e : base.host.bytes = [] := by decide +kernel
  generalize host0 = o
  have z : base.host.byte (o + a) = 0 := by unfold Ram.byte; rw [e]; rfl
  show ((((base.host.store o _ false).store (o + 64) _ false).store (o + 3200) _ false)).byte (o + a) = 0
  rw [Ram.byte_store_outside _ _ _ _ _ (by omega), Ram.byte_store_outside _ _ _ _ _ (by omega), Ram.byte_store_outside _ _ _ _ _ (by omega), z]

theorem image_blank (a n : Nat) (h : 72 ≤ a) (h' : a + n ≤ 3200) : imageBytes image.bytes a n = List.replicate n 0 := by
  rw [image_cut a n (by omega)]
  apply List.ext_getElem
  · simp
  · intro i h1 h2
    simp only [List.getElem_map, List.getElem_range, List.getElem_replicate]
    exact image_zero _ (by omega) (by simp at h2; omega)

theorem ofBytes_zeros (n : Nat) : ofBytes (List.replicate n 0) = 0 := by
  induction n with
  | zero => rfl
  | succ n ih => rw [List.replicate_succ, ofBytes, ih]; rfl

theorem image_head : image.head = 0x082c565a00000cc0000200000000000000010000002000800000000000017c1a := rfl
theorem image_h : image.h = 1 := by decide +kernel
theorem image_w : image.w = 1 := by decide +kernel
theorem image_tile : image.tile 0 = 128 := by decide +kernel

theorem image_slots (p : Nat × Nat × Nat) (hp : p ∈ image.slots) : p.1 < 4 ∧ p.2.1 < 4 ∧ p.2.2 < 32 := by
  simp [Image.slots, image_h, image_w] at hp
  obtain ⟨r, hr, c, hc, t, ht, rfl⟩ := hp
  exact ⟨hr, hc, ht⟩

theorem image_entry (r c t : Nat) (hr : r < 4) (hc : c < 4) (ht : t < 32) : image.entry r c t = 0 := by
  unfold Image.entry imageNum
  rw [image_w, show r / 4 * 1 + c / 4 = 0 by omega, image_tile, image_blank _ _ (by omega) (by omega), ofBytes_zeros]

theorem image_entries : image.entries = [] := by
  unfold Image.entries
  rw [List.filterMap_eq_nil_iff]
  intro p hp
  have h := image_slots p hp
  simp [image_entry p.1 p.2.1 p.2.2 h.1 h.2.1 h.2.2]

/-- CRC-32 from `c` on through `n` zero bytes. -/
def crcZeros (n : Nat) (c : BitVec 32) : BitVec 32 := (List.replicate n 0).foldl crcByte c
theorem crcZeros_add (m n : Nat) (c : BitVec 32) : crcZeros (m + n) c = crcZeros n (crcZeros m c) := by
  simp only [crcZeros, ← List.replicate_append_replicate, List.foldl_append]
theorem crcZeros_3072 : crcZeros 3072 0xffffffff = 0x9819367b := by
  have h0 : crcZeros 256 0xffffffff = 0xf2697aa7 := by decide +kernel
  have h1 : crcZeros 256 0xf2697aa7 = 0x4d558a87 := by decide +kernel
  have h2 : crcZeros 256 0x4d558a87 = 0xa5f0bea := by decide +kernel
  have h3 : crcZeros 256 0xa5f0bea = 0x104a50d1 := by decide +kernel
  have h4 : crcZeros 256 0x104a50d1 = 0x33c629a := by decide +kernel
  have h5 : crcZeros 256 0x33c629a = 0x93e31e81 := by decide +kernel
  have h6 : crcZeros 256 0x93e31e81 = 0x81c49ef7 := by decide +kernel
  have h7 : crcZeros 256 0x81c49ef7 = 0xe174561 := by decide +kernel
  have h8 : crcZeros 256 0xe174561 = 0x4f6df50f := by decide +kernel
  have h9 : crcZeros 256 0x4f6df50f = 0xc8ee9b5 := by decide +kernel
  have h10 : crcZeros 256 0xc8ee9b5 = 0xc826dab3 := by decide +kernel
  have h11 : crcZeros 256 0xc826dab3 = 0x9819367b := by decide +kernel
  rw [show 3072 = 256 + (256 + (256 + (256 + (256 + (256 + (256 + (256 + (256 + (256 + (256 + 256)))))))))) from rfl]
  simp only [crcZeros_add, h0, h1, h2, h3, h4, h5, h6, h7, h8, h9, h10, h11]

theorem image_num (a n : Nat) (h : a + n ≤ 3264) :
    imageNum image.bytes a n = ofBytes ((List.range n).map fun i => imgByte (a + i)) := by
  rw [imageNum, image_cut a n h]

theorem image_copy : image.copyWord 0 = 0xE000 := by
  rw [Image.copyWord, image_num _ _ (by decide)]; decide +kernel

theorem image_check1 : image.check1 = true := by
  have h : image.bytes.take 28 = (List.range 28).map fun i => imgByte (0 + i) := image_cut 0 28 (by omega)
  unfold Image.check1
  rw [h]
  decide +kernel

theorem image_check2 : image.check2 = true := by
  have p : imageNum image.bytes (image.tile 0 + 3076) 60 = 0 := by
    rw [image_tile, image_num _ _ (by omega)]; decide +kernel
  have n : image.ncopy = 1 := by decide +kernel
  have c : fieldOf 0xE000 12 0 = 0 := by decide
  unfold Image.check2
  rw [image_h, image_w, n, show (1 * 1 : Nat) = 1 from rfl, List.range_one]
  simp only [List.all_cons, List.all_nil, p, image_copy, c]
  decide +kernel

theorem image_check5 : image.check5 = true := by
  have p : imageNum image.bytes (128 + 3072) 4 = 0x67e6c984 := by
    rw [image_num _ _ (by omega)]; decide +kernel
  have c : crc32 (imageBytes image.bytes 128 3072) = 0x67e6c984 := by
    rw [image_blank _ _ (by omega) (by omega)]
    have h : (List.replicate 3072 (0 : Byte)).foldl crcByte 0xffffffff = 0x9819367b := crcZeros_3072
    rw [crc32, h]
    decide
  unfold Image.check5
  rw [image_h, image_w, show (1 * 1 : Nat) = 1 from rfl, List.range_one]
  simp only [List.all_cons, List.all_nil, image_tile, p, c]
  decide

theorem image_check3 : image.check3 = true := by
  have n : image.ncopy = 1 := by decide +kernel
  have c : (fieldOf 0xE000 15 13 != 6) = true := by decide
  unfold Image.check3
  rw [n, List.range_one]
  simp only [List.all_cons, List.all_nil, image_copy, c]
  decide +kernel

theorem image_check6 : image.check6 [] = true := by
  unfold Image.check6
  simp only [List.all_nil, Bool.and_true, List.all_eq_true]
  intro p hp
  have hp' : p.1 < 4 ∧ p.2.1 < 4 ∧ p.2.2 < 32 := image_slots p hp
  simp [image_entry p.1 p.2.1 p.2.2 hp'.1 hp'.2.1 hp'.2.2]

/-- The copy is placed on the loading core, and the image fails no check. -/
theorem witness_ConfigurationLoads_image : image.place imagedAll 3 (List.range image.ncopy) [] = some [⟨0, 3, 0, 0⟩]
    ∧ image.failing (fun _ => true) (fun _ => image.claimsOk imagedAll [⟨0, 3, 0, 0⟩]) = 0 := by
  have n : image.ncopy = 1 := by decide +kernel
  have ⟨hc, hf, hs, hb, ht⟩ := imagedAll_same
  have p : image.place imagedAll 3 (List.range image.ncopy) [] = image.place imaged 3 (List.range image.ncopy) [] := by
    rw [n, List.range_one]
    simp only [Image.place, image_copy, State.me, State.cur, Core.binding, State.cluster, hc, hf, hb, ht]
  have k : image.claimsOk imagedAll [⟨0, 3, 0, 0⟩] = image.claimsOk imaged [⟨0, 3, 0, 0⟩] := by
    have o : imagedAll.occupies = imaged.occupies := by funext st c; simp only [State.occupies, hb]
    simp only [Image.claimsOk, hs, o]
  constructor
  · rw [p, n, List.range_one]
    simp only [Image.place, image_copy]
    decide +kernel
  · unfold Image.failing
    rw [image_check1, image_check2, image_check3, image_check5, image_entries, k]
    simp only [image_check6]
    decide +kernel

/-- A descriptor of the row sum of one binary32 element at 0x2000. -/
def rowsumDesc : Nat := 0x20000000000100000001000000080000000000000000000000100000000000000000000000000000000000000000000000000000000000000000
/-- `base` with it at 0x400, g1 pointing there, in a partition with room for one region. -/
def declaring : State :=
  (({ base with hbm := base.hbm.store 0x400 (toBytes 64 rowsumDesc) false } : State).modPart 1 fun p => { p with ppol := 0x2000000100000000 }).setG 1 0x400 false
/-- The region it declares. -/
def rowsumRegion : DRegion := descRegion declaring.nextRegion 1 0x400 rowsumDesc .rowsum
/-- `declaring` with the region declared. -/
def declared : State := { declaring with derived := [{ rowsumRegion with id := 7, footPages := [0], basePages := [0] }] }

theorem declaring_xlate : declaring.xlate declaring.core .seq declaring.me.part (BitVec.ofNat 64 (0 * 65536)) 0 = (.ok leaf0 0, declaring) := rfl
theorem declaring_frame : declaring.frameOk declaring.me.part leaf0 0 = true := by decide +kernel
theorem declaring_pages : translatePages declaring [(0, true), (0, true)] = .ok ([(leaf0, 0), (leaf0, 0)], declaring) := by
  simp only [translatePages, declaring_xlate, declaring_frame, Bool.not_true, Bool.false_eq_true, if_false, if_true]

theorem declaring_reaches (n kind : Nat) (h : (n = 1 ∧ kind = 0) ∨ (n = 128 ∧ kind = 1)) : Reaches declaring 0x400 n kind leaf0 0x400 := by
  rcases h with ⟨rfl, rfl⟩ | ⟨rfl, rfl⟩
  · exact ⟨rfl, rfl, by decide +kernel, rfl, by decide, rfl, by decide +kernel, by decide +kernel, rfl, rfl, rfl, rfl⟩
  · exact ⟨rfl, rfl, by decide +kernel, rfl, by decide, rfl, by decide +kernel, by decide +kernel, rfl, rfl, rfl, rfl⟩

theorem declaring_room (k : Nat × Nat) : declaring.roomOk [k] = true := by
  have e : Store.get [] declaring.l2 k.1 = [] := rfl
  simp [State.roomOk, e]

/-- The region on its pages. -/
def rowsumPages : DRegion := { rowsumRegion with basePages := [0], footPages := [0] }

theorem witness_DeclarationBegins : (declaring.g 1).val = 0x400 ∧ ((declaring.g 1).psn = false ∨ declaring.kclass ≠ 1)
    ∧ declaring.hbm.worst 0x400 64 = .clean ∧ Reaches declaring 0x400 1 0 leaf0 0x400 ∧ (0x400 : Word).toNat % 128 = 0 ∧ derivedPage leaf0 0x400 = true
    ∧ declaring.hbm.num 0x400 64 = rowsumDesc ∧ kindOf (fieldOf rowsumDesc 264 262) = some .rowsum ∧ descCheck true rowsumDesc rowsumRegion = 0 :=
  ⟨by decide, by decide, by decide +kernel, declaring_reaches 1 0 (by simp), by decide, by decide, by decide +kernel, by decide, by decide +kernel⟩
theorem witness_DeclarationBegins_pages :
    ((pagesOf rowsumRegion.base.toNat rowsumRegion.baseLen).map (fun v => (v, rowsumRegion.touchesPage v))
        ++ (pagesOf 0x400 rowsumRegion.footLen).map fun v => (v, true)) = [(0, true), (0, true)]
    ∧ translatePages declaring [(0, true), (0, true)] = .ok ([(leaf0, 0), (leaf0, 0)], declaring)
    ∧ (([(leaf0, 0)] : List (Word × Nat)).all (fun x => x.2 == noPage || (derivedPage x.1 x.2 && x.1.bit 54))
        && [(leaf0, 0)].all fun x => derivedPage x.1 x.2) = true :=
  ⟨by decide +kernel, declaring_pages, by decide +kernel⟩
theorem rowsum_elemAt (x : Nat) (h : x < 65536) (h' : x < 0x2000 ∨ 0x2004 ≤ x) : rowsumPages.elemAt x = [] := by
  have hp : rowsumPages.basePages = [0] := rfl
  have hb : rowsumPages.base.toNat = 0x2000 := by decide
  have hc : rowsumPages.cols = 1 := by decide
  have hr : rowsumPages.rows = 1 := by decide
  have hf : fmtBytes rowsumPages.fmt = 4 := by decide
  have hq : rowsumPages.pitch = 8 := by decide
  have h0 : x / 65536 * 65536 = 0 := by omega
  simp only [DRegion.elemAt, pageVirt, hp, hb, hc, hr, hf, hq, h0]
  rw [show List.range [0].length = [0] from rfl]
  have hx : 8192 / 65536 * 65536 + x % 65536 = x := by rw [show 8192 / 65536 * 65536 = 0 from rfl, Nat.zero_add, Nat.mod_eq_of_lt h]
  simp only [List.filterMap_cons, List.filterMap_nil, List.getElem?_cons_zero, BEq.rfl, if_true, Nat.add_zero, hx]
  by_cases h1 : x < 8192
  · simp [h1]
  · have h3 : (decide ((x - 8192) / 8 < 1) && decide ((x - 8192) % 8 / 4 < 1)) = false := by
      rw [Bool.and_eq_false_iff, decide_eq_false_iff_not, decide_eq_false_iff_not]; omega
    rw [if_neg h1, h3]
    rfl

theorem rowsum_feeds (l : Nat) (h : l < 512) (h' : l ≠ 64) : rowsumPages.feedsFrom l = false := by
  have e : ((List.range 128).flatMap fun i => rowsumPages.elemAt (l * 128 + i)) = [] := by
    rw [List.flatMap_eq_nil_iff]
    intro i hi
    have := List.mem_range.mp hi
    exact rowsum_elemAt _ (by omega) (by omega)
  rw [DRegion.feedsFrom, DRegion.elemsOf, e]
  rfl

theorem rowsum_lines : rowsumPages.baseLines = [64] := by
  have hp : rowsumPages.basePages.filter (fun p => p != noPage) = [0] := by decide
  have e : (List.range 512).map (fun i => 0 / 128 + i) = List.range 512 := by decide +kernel
  have f : (List.range 512).filter (fun l => rowsumPages.feedsFrom l) = (List.range 512).filter fun l => l == 64 := by
    apply List.filter_congr
    intro l hl
    by_cases h : l = 64
    · subst h; decide +kernel
    · rw [rowsum_feeds l (List.mem_range.mp hl) h]; simp [h]
  rw [DRegion.baseLines, hp, List.flatMap_singleton, e, f]
  decide +kernel

theorem witness_DeclarationBegins_lines : declaring.overlapFree rowsumPages = true
    ∧ declaring.feedOk rowsumPages = true ∧ declaring.derived.length < 4096
    ∧ (declaring.derived.filter fun x => x.part == rowsumRegion.part).length < (declaring.getPart rowsumRegion.part).ppol.fld 43 32 := by
  rw [State.overlapFree, State.feedOk, rowsum_lines]
  decide +kernel
theorem witness_DeclarationBegins_room : declaring.roomOk (footKeys rowsumPages [leaf0]) = true := by
  have e : rowsumPages.footLines = [8] := by decide +kernel
  rw [footKeys, e]
  exact declaring_room _

/-- Its region as declared. -/
def rowsum7 : DRegion := { rowsumRegion with id := 7, footPages := [0], basePages := [0] }

theorem witness_DerivedInstructions : declared.unwatched = true ∧ (declared.g 1).psn = false
    ∧ declared.regionAt declared.me.part 0x400 = some rowsum7 ∧ declared.cur.earlySlot 0x400 = none
    ∧ declared.region 7 = some rowsum7 ∧ suffixOk .rowsum .f64 = true ∧ declared.hbm.worst (rowsum7.slotPa 0) 16 ≠ .bad
    ∧ bitOf ((rowsum7.slot 0).statusWord .rowsum) stPsn = false ∧ bitOf ((rowsum7.slot 0).statusWord .rowsum) stLost = false
    ∧ (rowsum7.slot 0).bit stStale = false ∧ (rowsum7.slot 0).bit stBuild = false
    ∧ (({ rowsum7 with slots := [(0, { status := BitVec.ofNat 32 (2 ^ stStale) })] } : DRegion).slot 0).bit stStale = true
    ∧ (declared.derived.find? fun r => r.desc == (declared.g 1).val && r.part == declared.me.part) = some rowsum7 ∧ declared.quiet rowsum7 = true
    ∧ (ready.derived.find? fun r => r.desc == (ready.g 1).val && r.part == ready.me.part) = none ∧ ready.q.wait = .none ∧ ready.canTrap = true
    ∧ (declared.modQ fun q => { q with wait := .ddecl 7 }).region 7 = some rowsum7 ∧ rowsum7.pending = []
    ∧ (declaring.getPart declaring.me.part).ppol.bit 61 = true ∧ 4096 < declaring.auditRoom ∧ declared.baseWaits rowsum7 0 = false := by decide +kernel
/-- R297: a reader's DREAD performed early finds the slot as it then was, or no region; its own store ends that. -/
theorem test_early_dread : (match execEvEarlyDread 0 0x400 declared with
    | .next t => (t.getCore 0).earlySlot 0x400 == some (some rowsum7) && ((t.dropSlots 0).getCore 0).earlySlot 0x400 == none
    | _ => false) = true
    ∧ (match execEvEarlyDread 0 0x400 { declared with derived := [] } with
    | .next t => (t.getCore 0).earlySlot 0x400 == some none && (match execDread .f64 2 1 0 { t with derived := declared.derived } with
      | .next u => u.q.tcause != t.q.tcause
      | _ => false)
    | _ => false) = true := by decide +kernel
theorem witness_DerivedInstructions_line : Reaches declaring (declaring.g 1).val 128 1 leaf0 0x400 := declaring_reaches 128 1 (by simp)
/-- The descriptor is read, and its pages translate in the state that the read leaves. -/
theorem witness_DeclarationBegins_read : (match (declaring.setWait .none).readNow 0x400 leaf0 0x400 64 with
    | .ok (bs, s0) => ofBytes bs == rowsumDesc && (match translatePages s0 [(0, true), (0, true)] with
      | .ok (l, _) => l == [(leaf0, 0), (leaf0, 0)]
      | .error _ => false)
    | .error _ => false) = true := by decide +kernel

/-! ### Witnesses: element operations -/

/-- An element about to issue: its east neighbour holds `a`, its south neighbour `b`, its own latch `c`. -/
def element (a b c : Tagged) : State :=
  (State.reset.withFetchWord 48 0).modX fun k => { k with reg := { k.reg with latch := [(0, c), (1, a), (4, b)] }, phPlim := 1 }
/-- An entry that reads them in that order. -/
def reading (fmt aux : BitVec 4) : Entry := ⟨fmt, 2, 3, 0, false, 0, 0, 0, 0, 0, aux⟩
/-- It issues, and its operands are those values. -/
theorem element_issues (a b c : Tagged) (fmt aux : BitVec 4) : Issues (element a b c) (reading fmt aux)
    ∧ (element a b c).source (reading fmt aux) 2 = .ok a ∧ (element a b c).source (reading fmt aux) 3 = .ok b
    ∧ (element a b c).source (reading fmt aux) 0 = .ok c :=
  ⟨⟨rfl, rfl, rfl⟩, rfl, rfl, rfl⟩

/-- A true predicate and a false one. -/
def yes : Tagged := ⟨1, 13, false⟩
def no : Tagged := ⟨0, 13, false⟩

theorem witness_ElementEntriesTakeEffect :
    (entryForm (.eMov (reading 1 0))).map Prod.snd = some (reading 1 0) ∧ (element yes yes yes).xLive = true
    ∧ ¬ ({ reading 1 0 with stg := 1 }.stg.toNat ≤ (element yes yes yes).issue.wave)
    ∧ (element yes yes yes).issue.wave < (element yes yes yes).xStamp.trip
    ∧ ((element yes yes yes).modX fun k => { k with phPlim := 0 }).xCopy.phPlim ≤ (element yes yes yes).issue.wave
    ∧ (element yes yes yes).xLatch = yes ∧ (element yes yes no).xLatch = no ∧ (element yes yes {}).xLatch.tag ≠ 13
    ∧ (element yes yes {}).xStamp.held = false ∧ 0 < (element yes yes yes).xCopy.phPlim := by decide

/-- Numbers of the formats: I32, I64, F32, F64, an address, a stochastic variable. -/
def i5 : Tagged := ⟨5, 1, false⟩
def l5 : Tagged := ⟨5, 2, false⟩
def f1 : Tagged := ⟨0x3F800000, 4, false⟩
def d1 : Tagged := ⟨0x3FF0000000000000, 3, false⟩
def ad : Tagged := ⟨8, 14, false⟩
def sv : Tagged := ⟨0x3F8000003F800000, 11, false⟩

theorem witness_ElementMovesDeliver : i5.tag = (reading 1 0).fmt ∧ yes.tag = 13 ∧ yes.val.getLsbD 0 = true ∧ no.val.getLsbD 0 = false
    ∧ (reading 1 0).aux.getLsbD 0 = false ∧ (reading 1 1).aux.getLsbD 0 = true ∧ i5.tag ≠ 0 ∧ (element i5 i5 yes).xStamp.held = false
    ∧ (element i5 i5 i5).xLatch.tag = (reading 1 0).fmt := by decide
theorem witness_ElementMovesDeliver_constant : Issues (element i5 i5 i5) (reading 1 0).constant := ⟨rfl, rfl, rfl⟩
theorem witness_ElementIntegerResults : i5.tag = (reading 1 0).fmt ∧ l5.tag = (reading 2 0).fmt ∧ ad.tag = (reading 14 0).fmt ∧ (i5.tag = 1 ∨ i5.tag = 2) := by decide
theorem witness_ElementLogicAndShifts : i5.tag = (reading 1 0).fmt ∧ (reading 0 0).fmt = 0 ∧ (i5.tag = 1 ∨ i5.tag = 2) ∧ l5.tag = (reading 2 0).fmt := by decide
theorem witness_ElementComparesAndPredicates : i5.tag = (reading 1 5).fmt ∧ (reading 1 5).aux.toNat < 6 ∧ f1.tag = (reading 4 7).fmt ∧ (reading 4 7).aux.toNat < 8
    ∧ yes.tag = (reading 13 0).fmt ∧ (reading 4 15).aux = 15 ∧ (reading 4 9).aux.toNat < 10 := by decide
theorem witness_ElementFloatResults : f1.tag = (reading 4 0).fmt ∧ d1.tag = (reading 3 0).fmt := by decide
theorem witness_ElementConversions : i5.tag = 1 ∧ l5.tag = 2 ∧ 3 ≤ d1.tag.toNat ∧ f1.tag.toNat ≤ 8 ∧ (reading 1 0).fmt = 1 ∧ f1.tag = (reading 4 0).fmt
    ∧ (⟨0x21, 9, false⟩ : Tagged).tag = (reading 9 0).fmt := by decide
theorem witness_QuantizerChain : f1.tag = (reading 4 0).fmt ∧ (i5.tag = 1 ∨ i5.tag = 2) ∧ f1.psn = false ∧ i5.psn = false
    ∧ Store.get .clean (element f1 i5 i5).xCopy.reg.laneMarks (512 * (element f1 i5 i5).xElem + 511) = .clean
    ∧ Store.get .clean (element f1 i5 i5).xCopy.reg.laneMarks (512 * (element f1 i5 i5).xElem + 5) = .clean ∧ i5.val.toNat % 32 ≠ 0
    ∧ (⟨64, 1, false⟩ : Tagged).val.toNat % 32 = 0 := by decide
theorem witness_SpecialFunctions : f1.tag = (reading 4 0).fmt ∧ (Fp.v32 0x7FC00000).isNan = true ∧ Fp.v32 0xFF800000 = .inf true
    ∧ Fp.v32 0x7F800000 = .inf false ∧ (Fp.v32 0x80000000).isZero = true ∧ Fp.v32 0xBF800000 = .num true (2 ^ 23) (-23) := by decide

/-- A moment entry's operands. -/
def moment1 : Moment := ⟨0x3F800000, 0x3F800000⟩
theorem witness_MomentResults : (element sv sv sv).momentOperand (reading 11 0) 2 = .ok (moment1, false)
    ∧ (element sv sv sv).momentOperand (reading 11 0) 3 = .ok (moment1, false)
    ∧ (element sv f1 f1).scalar (reading 11 0) 3 = .ok (0x3F800000, false) ∧ (element sv f1 f1).scalar (reading 11 0) 0 = .ok (0x3F800000, false) :=
  ⟨rfl, rfl, rfl, rfl⟩
theorem witness_MomentResults_variance : negHalf 11 0x3F800000 = false ∧ negHalf 11 0xBF800000 = true
    ∧ (element sv sv sv).xStamp.hdr.vclamp = false ∧ f1.tag.toNat = plainFmt 11 ∧ negVar 0x3F800000 = false
    ∧ List.map (fun n : Nat => (reading 11 (BitVec.ofNat 4 n)).aux.toNat % 8) [0, 1, 2, 3, 4, 5] = [0, 1, 2, 3, 4, 5] := by decide

/-- `element` in partition 1, its streams of four binary32 values at 64 reached through port lane 0, for loads and stores. -/
def streaming (a b : Tagged) : State :=
  let s := (element a b {}).modStamp 0 fun st => { st with
    streams := [{ va := 64, count := 4, fmt := 4 }, {}], ranges := [{ npg := 1, st := true }] }
  let s := s.modCore 0 fun k => k.setTlb [⟨1, 0, 65536, leaf0⟩] (.port 0)
  { s with tasks := [(1, { part := 1, state := .running })], pat := Store.set 0 s.pat 0 (BitVec.ofNat 64 (2 ^ 63 + 2 ^ 32)) }
/-- It issues, with those operands. -/
theorem streaming_issues (a b : Tagged) (fmt aux : BitVec 4) : Issues (streaming a b) (reading fmt aux)
    ∧ (streaming a b).source (reading fmt aux) 2 = .ok a ∧ (streaming a b).source (reading fmt aux) 3 = .ok b :=
  ⟨⟨rfl, rfl, rfl⟩, rfl, rfl⟩

/-- An index inside, the last one, and one past the end; an address inside and one past the end. -/
def i3 : Tagged := ⟨3, 1, false⟩
def i4 : Tagged := ⟨4, 2, false⟩
def a76 : Tagged := ⟨76, 14, false⟩
def a80 : Tagged := ⟨80, 14, false⟩

theorem streaming_xlate (a b : Tagged) (kind : Nat) (h : kind < 2) : (streaming a b).xlate (streaming a b).xCore (.port 0) (streaming a b).xPart 76 kind
    = (.ok leaf0 76, streaming a b) := by
  rcases kind with _ | _ | k
  · rfl
  · rfl
  · omega
theorem streaming_path (a b : Tagged) (kind : Nat) (h : kind < 2) (f : (streaming a b).frameOk (streaming a b).xPart leaf0 76 = true) : (streaming a b).fabricPath 0 76 kind = .ok leaf0 76 (streaming a b) := by
  have r : (streaming a b).xStamp.ranges.find? (fun r => r.holds (76 : Word).toNat) = some { npg := 1, st := true } := rfl
  simp only [State.fabricPath, r, streaming_xlate a b kind h, f]
  rcases kind with _ | _ | k
  · rfl
  · rfl
  · omega

/-- The stream of `streaming`. -/
def stream0 : Stream := { va := 64, count := 4, fmt := 4 }
theorem witness_StreamLoads : (streaming i3 i3).streamOf (reading 4 0) = stream0 ∧ i3.psn = false
    ∧ (0 ≤ i3.val.toInt ∧ i3.val.toInt < stream0.count) ∧ ¬(i4.val.toInt < stream0.count) ∧ a76.val.toNat % stream0.size = 0
    ∧ stream0.locate a76.val = some 3 ∧ stream0.locate a80.val = none ∧ stream0.addr 3 = 76
    ∧ placeOf 76 = .hbm ∧ leafType leaf0 ≠ 1 ∧ leafHc leaf0 = false ∧ (streaming i3 i3).hbm.worst 76 4 = .clean
    ∧ (streaming i3 i3).lost.contains (76 / 128) = false ∧ (streaming i3 i3).heldFor 0 76 4 = false ∧ ((streaming i3 i3).getCore (streaming i3 i3).xStamp.core).replay = none
    ∧ (streaming i3 i3).records (streaming i3 i3).xStamp.core = false ∧ (streaming i3 i3).choice = 0 := by decide
theorem witness_StreamLoads_path : (streaming i3 i3).fabricPath ((streaming i3 i3).laneOf stream0) 76 0 = .ok leaf0 76 (streaming i3 i3) := streaming_path i3 i3 0 (by omega) (by decide +kernel)
theorem witness_StreamStores : f1.tag = (reading 4 0).fmt ∧ (f1.psn = false ∧ i3.psn = false) ∧ (streaming f1 i3).inFootprint 76 4 = false
    ∧ (streaming f1 i3).lost.contains (76 / 128) = false ∧ (streaming f1 i3).xCopy.committed ≤ 0 ∧ (streaming f1 i3).xCopy.committing ≠ some 0
    ∧ (i3.tag = 1 ∨ i3.tag = 2) ∧ a76.tag = 14 ∧ (streaming f1 i3).xStamp.held = false := by decide
theorem witness_StreamStores_path : (streaming f1 i3).fabricPath ((streaming f1 i3).laneOf stream0) 76 1 = .ok leaf0 76 (streaming f1 i3) := streaming_path f1 i3 1 (by omega) (by decide +kernel)
/-- With a derived footprint on the stream's line. -/
def streamingFoot : State := { streaming f1 i3 with derived := [{ rowsumRegion with id := 7, desc := 0, footPages := [0], basePages := [0] }] }
theorem witness_StreamStores_foot : streamingFoot.inFootprint 76 4 = true ∧ streamingFoot.xStamp.held = false ∧ (streamingFoot.streamOf (reading 4 0)).size = 4 := by decide
theorem witness_StreamStores_footPath : streamingFoot.fabricPath (streamingFoot.laneOf stream0) 76 1 = .ok leaf0 76 streamingFoot := by
  have x : streamingFoot.xlate streamingFoot.xCore (.port 0) streamingFoot.xPart 76 1 = (.ok leaf0 76, streamingFoot) := rfl
  have f : streamingFoot.frameOk streamingFoot.xPart leaf0 76 = true := by decide +kernel
  have r : streamingFoot.xStamp.ranges.find? (fun r => r.holds (76 : Word).toNat) = some { npg := 1, st := true } := rfl
  have l : streamingFoot.laneOf stream0 = 0 := by decide
  rw [l]
  simp only [State.fabricPath, r, x, f]
  rfl
theorem witness_AddressGenerators : ((streaming i3 i3).streamOf (reading 4 1)).count = 0 ∧ ((streaming i3 i3).streamOf (reading 4 0)).count ≠ 0
    ∧ (i3.psn = false ∧ i4.psn = false) ∧ (i3.tag = 1 ∨ i3.tag = 2) ∧ (i4.tag = 1 ∨ i4.tag = 2) := by decide

/-- A state whose core has an accumulator slot of a format. -/
def cells (fmt : BitVec 4) : State := (streaming i3 i3).modCore 0 fun k => { k with slots := [(0, { tag := fmt })] }
theorem witness_LaneAndPointerOperations : (i3.tag = 1 ∨ i3.tag = 2) ∧ (i3.val + BitVec.ofNat 64 (reading 4 0).aux.toNat).toNat < 512
    ∧ ((⟨496, 1, false⟩ : Tagged).val + BitVec.ofNat 64 (reading 4 15).aux.toNat).toNat < 512
    ∧ Store.get .clean (streaming i3 i3).xCopy.reg.laneMarks (512 * (streaming i3 i3).xElem + 3) = .clean ∧ f1.tag = (reading 4 0).fmt
    ∧ ((cells 1).getCore (cells 1).xCore).cmds = [] ∧ (Store.get {} ((cells 1).getCore (cells 1).xCore).slots 0).tag = (reading 1 0).fmt
    ∧ (Store.get {} ((cells 3).getCore (cells 3).xCore).slots 0).tag = (reading 3 0).fmt
    ∧ (Store.get {} ((cells 11).getCore (cells 11).xCore).slots 0).tag = (reading 11 0).fmt := by decide

/-- Scratch addresses: offset 8; offset 8 with a write pointer to wait for; a misaligned one; one past the memory; one with a reserved bit. -/
def o8 : Tagged := ⟨8, 2, false⟩
def o8w : Tagged := ⟨0x100000008, 2, false⟩
theorem witness_ScratchPortOperations : o8.psn = false ∧ o8.tag = 2 ∧ o8.val.fld 63 33 = 0 ∧ o8.val.fld 27 0 % fmtBytes 4 = 0
    ∧ (streaming o8 o8).scratchLoc (streaming o8 o8).xCore (streaming o8 o8).xPart 1 8 = .core 0 8
    ∧ (streaming o8 o8).scratchLoc (streaming o8 o8).xCore (streaming o8 o8).xPart 2 8 = .cm 0 8
    ∧ ((streaming o8 o8).modPart 1 fun p => { p with cpwin := 1 }).scratchLoc 0 1 3 8 = .cp 8 ∧ o8.val.bit 32 = false
    ∧ ((streaming o8w o8).modCore 0 fun k => { k with wp := [(0, 0x0000000000000010)] }).ready 0 1 0 8 12 = true
    ∧ (streaming o8 o8).chipWorst (.core 0 8) 4 = .clean ∧ (streaming o8 o8).bankWait (.core 0 8) = 0 ∧ o8.val.fld 32 28 = 0 ∧ f1.tag = (reading 4 1).fmt
    ∧ (streaming f1 o8).xCopy.committed ≤ 0 ∧ (streaming f1 o8).xCopy.committing ≠ some 0 := by decide

/-- An engine command that feeds an accumulator slot. -/
def feeding : State := (streaming i3 i3).modCore 0 fun k => { k with cmds := [{ command (.accZero plainLong) with arrive := 0 }] }
theorem witness_ElementFaults : (streaming f1 i3).xStamp.held = false ∧ f1.tag ≠ (reading 1 0).fmt ∧ ¬(f1.tag = 1 ∨ f1.tag = 2) ∧ i3.tag ≠ 14 ∧ f1.tag ≠ 2
    ∧ f1.tag ≠ 14 ∧ (⟨3, 1, true⟩ : Tagged).psn = true ∧ ad.tag = 14 ∧ (⟨66, 14, false⟩ : Tagged).val.toNat % stream0.size ≠ 0
    ∧ (⟨0x200000000, 2, false⟩ : Tagged).val.fld 63 33 ≠ 0 ∧ o8.val.fld 63 32 = 0 ∧ o8.val.fld 27 0 % 4 = 0
    ∧ (streaming o8 o8).scratchLoc 0 1 1 0x1000000 = .bad ∧ (streaming o8 o8).scratchLoc 0 1 2 0x5A0000 = .bad ∧ (streaming o8 o8).scratchLoc 0 1 3 0 = .bad
    ∧ sv.tag = (reading 11 0).fmt ∧ negVar (momentOf 11 0x3F800000BF800000).v = true ∧ (streaming i3 i3).xStamp.hdr.vclamp = false
    ∧ 511 < ((⟨512, 1, false⟩ : Tagged).val + BitVec.ofNat 64 (reading 4 0).aux.toNat).toNat
    ∧ (o8w.val.bit 32 = true ∧ o8w.val.fld 63 33 = 0 ∧ (streaming o8w o8).xStamp.hdr.grace = 0 ∧ (streaming o8w o8).ready 0 1 0 8 12 = false)
    ∧ (streaming o8w o8).scratchLoc 0 1 1 8 ≠ .bad
    ∧ ({ streaming i3 i3 with tasks := [(1, { part := 1, record := BitVec.ofNat 512 (2 ^ 147) })] } : State).xClass = 1
    ∧ (feeding.getCore feeding.xCore).cmds.any (fun c => c.active (feeding.getCore feeding.xCore).seq.mcc && decide (c.feeds = some (false, [0]))) = true
    ∧ (reading 4 0).aux.getLsbD 0 = false ∧ (reading 4 0).wi.toNat % 64 = 0 := by decide

/-! ### Witnesses: the device's own steps -/

/-- A running region with its copy's working state changed. -/
def region (f : Copy → Copy) : State := (element {} {} {}).modX f
/-- A result in flight, due at local time 0; one whose reply is out; a store in a round buffer. -/
def flight0 : Flight := { id := 4, due := 0, elem := 1, val := some f1, we := true, wi := 3, dr := 1, dc := 2 }
def lateFlight : Flight := { id := 5, due := 12, elem := 1, val := none, late := some 9, tag := 4 }
def buffered : BufEntry := { round := 0, frame := 0, lane := 0, time := 0, elem := 0, va := 76, pa := 76, data := [1, 2, 3, 4] }
/-- The copy with a result due; in the same cycle with the results landed; past its phase's last wave with a store to commit; done. -/
def landing : State := region fun c => { c with reg := { c.reg with inflight := [flight0] } }
def landed : State := region fun c => { c with landed := some 2, reg := { c.reg with slot := 2 } }
def committing : State := region fun c => { c with reg := { c.reg with wave := 1 }, buffers := [buffered] }
def finished : State := region fun c => { c with done := true }

theorem witness_FabricSteps : 0 < (landing.getStamp 0).copies.length ∧ landing.copyRuns 0 0 = true ∧ ((landing.getStamp 0).copy 0).redFault = none
    ∧ ((landing.getStamp 0).copy 0).landed ≠ some 0 ∧ (∀ f ∈ ((landing.getStamp 0).copy 0).reg.inflight, f.missing (landing.stampMcc (landing.getStamp 0)) = false)
    ∧ landing.buffersFull (landing.getStamp 0) ((landing.getStamp 0).copy 0) = false
    ∧ ((landing.getStamp 0).copy 0).reg.wave < (landing.getStamp 0).endWave ∧ landing.frameStop ((landing.getStamp 0).copy 0) 0 = false
    ∧ landed.copyRuns 0 0 = true ∧ ((landed.getStamp 0).copy 0).landed = some (((landed.getStamp 0).copy 0).reg.wave * (landed.getStamp 0).hdr.ii + ((landed.getStamp 0).copy 0).reg.slot)
    ∧ (landed.getStamp 0).roundStart 2 0 = none ∧ landed.waitingReads 0 0 = []
    ∧ (landing.getStamp 0).state = .running
    ∧ (((landing.getStamp 0).copy 0).reg.inflight.find? fun f => f.id == 4) = some flight0 ∧ flight0.fault = false ∧ flight0.val = some f1
    ∧ ((((region fun c => { c with reg := { c.reg with inflight := [lateFlight] } }).getStamp 0).copy 0).reg.inflight.find? fun f => f.id == 5) = some lateFlight
    ∧ lateFlight.val = none ∧ (landing.getStamp 0).held = false
    ∧ committing.commitReady 0 0 0 = true ∧ ((committing.getStamp 0).copy 0).replies = []
    ∧ (((committing.getStamp 0).copy 0).buffers.filter fun b => b.round == 0) = [buffered] ∧ buffered.level = 0 ∧ placeOf buffered.pa = .hbm
    ∧ buffered.red = none ∧ buffered.typ = 0 ∧ buffered.psn = false ∧ (committing.getCore (committing.getStamp 0).core).replay = none
    ∧ (region fun c => { c with reg := { c.reg with wave := 1 } }).commitReady 0 0 0 = true
    ∧ (∀ x ∈ (finished.getStamp 0).copies, x.done = true ∧ x.redFault = none) ∧ (finished.getStamp 0).state = .running := by decide

/-- The copy with a reply that is late; past its last wave with its rounds committed, and not; with a scratch read that waits for a channel,
under a GRACE of none and of 2. -/
def latened : State := region fun c => { c with reg := { c.reg with inflight := [{ lateFlight with due := 0 }] } }
def ending (n : Nat) : State := region fun c => { c with committed := n, reg := { c.reg with wave := 1 } }
def stalling (grace : Nat) : State :=
  ((streaming o8w o8).modStamp 0 fun st => { st with
    entries := [(0, ((encode (.eSpld (reading 4 1))).map Prod.snd).getD 0)], hdr := { st.hdr with grace := grace } }).modX fun c => { c with landed := some 0 }
theorem witness_FabricSteps_frozen : latened.copyRuns 0 0 = true ∧ ((latened.getStamp 0).copy 0).landed ≠ some 0 ∧ lateFlight.missing (latened.stampMcc (latened.getStamp 0)) = true
    ∧ latened.stampMcc (latened.getStamp 0) < lateFlight.late.getD 0 ∧ latened.lateReads 0 0 = []
    ∧ (stalling 0).copyRuns 0 0 = true ∧ (stalling 0).waitingReads 0 0 = [0] ∧ ((stalling 0).getStamp 0).hdr.grace ≤ 0
    ∧ (stalling 2).waitingReads 0 0 = [0] ∧ 0 < ((stalling 2).getStamp 0).hdr.grace ∧ (((stalling 2).getStamp 0).copy 0).landed = some 0
    ∧ (ending 1).copyRuns 0 0 = true ∧ ((ending 1).getStamp 0).endWave ≤ ((ending 1).getStamp 0 |>.copy 0).reg.wave
    ∧ ((ending 1).getStamp 0 |>.copy 0).reg.inflight = [] ∧ ((ending 1).getStamp 0).lastRound + 1 = 1 ∧ (0 : Nat) ≠ ((ending 0).getStamp 0).lastRound + 1 := by decide +kernel

/-- A store of the sequencer at 0x2000, an atomic and a reduction of the same place. -/
def store2000 : StoreReq := { src := .sequencer, core := 0, task := 1, part := 1, va := 0x2000, pa := 0x2000, data := [1, 2, 3, 4], psn := false }
def atom2000 : AtomReq := { core := 0, op := .add, word := true, va := 0x2000, pa := 0x2000, operand := 1, compare := 0, psn := false, rd := 1 }
def red2000 : RedReq := { stamp := 0, copy := 0, op := .add, fmt := 4, va := 0x2000, pa := 0x2000, value := 0x3F800000, psn := false }
/-- `declared` with its slot being rescanned. -/
def rescanning : State := { declaring with derived := [{ rowsum7 with pending := [0] }] }
def delta0 : Delta := ⟨7, 0, [{ old := 0, new := 0x3F800000, oldPsn := false, newPsn := false }]⟩
/-- A cluster with two dirty bytes; the sequencer in a `LINE.RESET`; a region in partition 1. -/
def dirty : State := base.modCluster 0 fun k => { k with dirty := [(0x2000, 1), (0x2080, 2)] }
def lineResetting : State := base.modQ fun q => { q with wait := .home }
def reducing : State := element {} {} {}

theorem witness_StepsAtHomes : 0 < store2000.data.length ∧ (placeOf store2000.pa ≠ .host ∧ base.homePkg store2000.pa = base.pkgNo)
    ∧ base.canApply 1 0x2000 4 = true ∧ base.behindHeld store2000 = false ∧ base.inFootprint 0x2000 4 = false ∧ base.holdersOf 0x2000 = []
    ∧ base.lost.contains (0x2000 / 128) = false ∧ rescanning.region 7 = some { rowsum7 with pending := [0] }
    ∧ declared.region delta0.region = some rowsum7 ∧ delta0.slot ∈ ({ rowsum7 with pending := [0] } : DRegion).pending ∧ rescanning.held = []
    ∧ declared.hbm.worst (rowsum7.slotPa delta0.slot) 16 ≠ .bad
    ∧ store2000.src = .sequencer ∧ (base.getCore store2000.core).binding.task = store2000.task ∧ placeOf store2000.pa = .hbm ∧ store2000.data.length ≠ 128
    ∧ (lineResetting.getCore 0).seq.wait = .home ∧ placeOf host0 ≠ .hbm
    ∧ base.canApply (base.getCore 0).binding.part 0x2000 4 = true ∧ (base.held.any fun h => h.overlaps 0x2000 4) = false
    ∧ base.isSealed 0x2000 = false ∧ base.derived = []
    ∧ atom2000.psn = false ∧ atom2000.inval = false ∧ atom2000.strap = false ∧ atom2000.demoted = false ∧ (base.getCore 0).binding.dbg = false ∧ (base.getCore 0).replay = none
    ∧ reducing.canApply (reducing.getCore (reducing.getStamp 0).core).binding.part 0x2000 4 = true ∧ reducing.isSealed 0x2000 = false
    ∧ reducing.derived = [] ∧ reducing.holdersOf 0x2000 = [] ∧ reducing.lost = [] ∧ reducing.held = []
    ∧ red2000.psn = false ∧ red2000.copy < (reducing.getStamp red2000.stamp).copies.length
    ∧ (∀ x ∈ (dirty.getCluster 0).dirty, ∀ y ∈ (dirty.getCluster 0).dirty, x.1 = y.1 → x = y) ∧ dirty.lost.contains 64 = false := by decide
theorem witness_StepsAtHomes_held : rescanning.mustHold 0x2000 4 = true ∧ base.hbm.worst 0x2000 4 = .clean ∧ reducing.hbm.worst 0x2000 4 = .clean := by decide +kernel

/-! ### Witnesses: tasks and scheduling -/

/-- A task of partition 1 of one member, its completion object at 0x3000 and one dependence at 0x4000. -/
def task1 (st : TaskState) : Task :=
  { part := 1, state := st, record := BitVec.ofNat 512 (0x300 * 2 ^ 436 + 0x400 * 2 ^ 392 + 2 ^ 240) }
/-- `base` with that task, page tables that map the first GiB to itself, and a dependence object. -/
def tasked (st : TaskState) (dep : Nat) : State :=
  let s := { base with tasks := [(1, task1 st)], hbm := ((base.hbm.store 0x10000 (toBytes 8 0x8000000000011000) false).store 0x11000
    (toBytes 8 (openLeaf 2 0).toNat) false).store 0x4000 (toBytes 16 dep) false }
  s.modPart 1 fun p => { p with ptroot := 0x10001 }
/-- A member of it in `EXIT`; a core to scrub; a member of a barrier of another package; a trap to deliver. -/
def exiting : State := (tasked .running 0).modCore 0 fun k => { k with mstate := .waiting, seq := { k.seq with wait := .exit } }
def scrubbing : State := base.modCore 0 fun k => { k with bind := none, mstate := .retired, scrub := true, scrubTask := 1 }
def arriving : State := (barAt base barWord).modCore 0 fun k => { k with seq := { k.seq with wait := .remoteBarrier 0 0x0F000020 } }
def untrapped : State := base.modQ fun q => { q with traps := [⟨0, { code := 9 }⟩] }
def trapped : State := ready.modQ fun q => { q with traps := [⟨0, { code := 9 }⟩] }

theorem witness_TaskSteps : arriving.pkgNo = 0 ∧ (arriving.getCore 0).seq.wait = .remoteBarrier arriving.pkgNo 0x0F000020
    ∧ barBad (arriving.barObj 0 32) = false ∧ barArrived (arriving.barObj 0 32) + 1 < 2 ^ 32
    ∧ barArrived (arriving.barObj 0 32) + 1 = barCount (arriving.barObj 0 32)
    ∧ (1 : Nat) ≠ 0 ∧ ((tasked .running 0).getTask 1).signalled = false ∧ ((tasked .queued 0).getTask 1).state = .queued
    ∧ base.substat.bit 8 = false ∧ (base.modCore 0 id).bootst.fld 3 0 ≠ 3 ∧ ({ base with bootst := 3 } : State).bootst.fld 3 0 = 3
    ∧ (0x200 : Word).bit 9 = true
    ∧ (0x0000000100000001 : Word).fld 31 0 = 1 ∧ (0x0000000100000001 : Word).fld 63 48 = 0 ∧ (0x0000000100000001 : Word).fld 47 32 = ((tasked .running 0).getTask 1).part
    ∧ ((tasked .running 0).getTask 1).state ≠ .retired ∧ ((tasked .running 0).getTask 1).state ≠ .aborted
    ∧ (exiting.getCore 0).seq.wait = .exit ∧ (exiting.getCore 0).mstate = .waiting ∧ exiting.mayRetire 0 = true ∧ (exiting.getCore 0).replay = none
    ∧ (exiting.getTask (exiting.getCore 0).binding.task).retiredCount + 1 = (exiting.getTask (exiting.getCore 0).binding.task).nmemb
    ∧ (scrubbing.getCore 0).scrub = true
    ∧ (∀ d ∈ coresOf (clusterOf 0), ((scrubbing.getCore d).bind.map Binding.task) ≠ some (scrubbing.getCore 0).scrubTask)
    ∧ (∀ kv ∈ scrubbing.stamps, kv.2.runsOn 0 = false)
    ∧ trapped.canDeliver 0 = true ∧ (trapped.getCore 0).seq.traps = [⟨0, { code := 9 }⟩] ∧ (trapped.getCore 0).seq.tvec.bit 0 = true
    ∧ untrapped.canDeliver 0 = true ∧ (untrapped.getCore 0).seq.traps = [⟨0, { code := 9 }⟩] ∧ (untrapped.getCore 0).seq.tvec.bit 0 = false ∧ (untrapped.getCore 0).replay = none := by decide
theorem witness_TaskSteps_objects : (tasked .running 0).compPlace 1 ((tasked .running 0).getTask 1).comp true = some (openLeaf 2 0, 0x3000) ∧ placeOf 0x3000 = .hbm
    ∧ (tasked .running 0).homePkg 0x3000 = (tasked .running 0).pkgNo ∧ (tasked .running 0).canApply 1 0x3000 16 = true
    ∧ (Held.signal 0x3000 1 .retire false none).behind (tasked .running 0).held = false ∧ (tasked .running 0).inFootprint 0x3000 16 = false
    ∧ (tasked .running 0).lost.contains (0x3000 / 128) = false ∧ (tasked .running 0).hbm.worst 0x3000 16 = .clean
    ∧ (tasked .queued (2 ^ 63)).depsDone (task1 .queued) = (true, false) ∧ (tasked .queued (2 ^ 63 + 2 ^ 62)).depsDone (task1 .queued) = (true, true)
    ∧ ((tasked .queued 0).depsDone (task1 .queued)).1 = false := by decide +kernel
/-- A submission behind a write of the physical function that is held. -/
theorem witness_TaskSteps_behind : (Held.subreg 0 0).behind base.held = false
    ∧ (Held.subreg 0 0).behind [.store { store2000 with src := .host, core := 0 }] = true := by decide
theorem witness_TaskSteps_arrival : arriving.barPlace 0 0x0F000020 false = .ok (.here 0 32) := rfl

/-- Record 0 of the slot table for task 1: an operation, its status, a core and a tick. -/
def recorded (s : State) (op status core tick : Nat) : State :=
  { s with slotTab := [(0, BitVec.ofNat 64 (op + 64 * status)), (1, BitVec.ofNat 64 (1024 * core)), (2, BitVec.ofNat 64 (2 ^ 32)), (3, BitVec.ofNat 64 tick)] }
/-- A gang stopped at its points; one to be frozen; a member frozen; captured; saved. -/
def stopped (st : Stopping) : State := { base with tasks := [(1, { part := 1, state := .running, stop := st })] }
def frozen : State := base.modCore 0 fun k => { k with mstate := .frozen }
def captured : State := (stopped .spilling).modCore 0 fun k => { k with mstate := .saved, captured := true }
def saved0 : SavedCtx := { memb := 0, core := 0, bind := { task := 1, part := 1 }, seq := {}, slots := [], arrayFree := 0, cmds := [], nextCmd := 0
                           collSeq := [], wp := [], handles := [], waiting := false, spilled := true }
def resuming : State := recorded { State.reset with tasks := [(1, { part := 1, state := .saved, saves := [saved0], record := BitVec.ofNat 512 (2 ^ 240) })] } 2 1 0 0

theorem witness_SchedulingSteps : base.saigaRuns = true ∧ (recorded base 0 0 1 20000).bindStatus 0 ≠ 1
    ∧ (recorded base 1 0 1 20000).recordRefused 0 = false ∧  (recorded base 1 0 1 0).recordRefused 0 = true ∧ (recorded base 1 0 1 0).bindTick 0 < base.tick + 10000
    ∧ (1 : Word).fld 2 0 = 1 ∧ (2 : Word).fld 2 0 = 2 ∧ (3 : Word).fld 2 0 = 3 ∧ (4 : Word).fld 2 0 = 4
    ∧ (recorded (tasked .eligible 0) 1 0 1 20000).recordRefused 0 = false ∧ (recorded (tasked .eligible 0) 1 0 1 20000).saigaArms 0 = true
    ∧ (recorded (tasked .running 0) 3 0 0 20000).recordRefused 0 = false ∧ (recorded (tasked .running 0) 3 0 0 20000).saigaArms 0 = false
    ∧ (recorded (tasked .bound 0) 1 1 1 0).gangReady 1 1 0 = true ∧ (recorded (tasked .bound 0) 1 1 0 0).gangReady 1 1 0 = false
    ∧ (recorded base 1 1 1 0).bindStatus 0 = 1 ∧ (recorded (tasked .bound 0) 1 1 1 0).recordDue 0 1 = true ∧ (recorded base 1 1 1 0).bindTask 0 = 1
    ∧ (recorded base 1 1 1 0).bindCore 0 = 1 ∧ ((tasked .bound 0).getTask 1).state = .bound ∧ ((tasked .bound 0).getCore 1).bind = none
    ∧ (recorded base 3 1 0 0).recordDue 0 3 = true ∧ (recorded base 3 1 0 0).holdsMember 0 1 ((recorded base 3 1 0 0).bindMemb 0) = true
    ∧ ((stopped (.points 0)).getTask 1).stop = .points 0 ∧ (recorded (stopped .none) 4 1 0 0).freezeDue 1 = true ∧ ((stopped .none).getTask 1).stop = .none
    ∧ ((stopped .none).getTask 1).state = .running ∧ (∀ c ∈ allCores, (base.getCore c).binding.dbg = false)
    ∧ (frozen.getCore 0).mstate = .frozen ∧ (frozen.getCore 0).bind.isSome = true ∧ frozen.quietCore 0 = true ∧ (frozen.getCore 0).binding.task = 1
    ∧ (stopped (.points 0)).coresOfTask 1 = [0] ∧ (stopped (.points 0)).atPoint 0 = true ∧ ((stopped (.points 0)).getCore 0).engineRuns = false
    ∧ (stopped (.points 0)).quietCore 0 = true ∧ ((stopped (.points 0)).getCore 0).live = true
    ∧ (captured.getCore 0).captured = true ∧ (captured.getCore 0).bind.isSome = true ∧ (captured.getTask 1).stop = .spilling
    ∧ resuming.recordDue 0 2 = true ∧ (resuming.getTask 1).saving = false ∧ resuming.gangReady 1 2 (resuming.bindTick 0) = true ∧ resuming.savedCtx 1 (resuming.bindMemb 0) = some saved0 ∧ saved0.bind.task = 1
    ∧ (resuming.getCore 0).bind = none ∧ saved0.bind.dbg = false ∧ saved0.seq.wait = .none := by decide +kernel

/-! ### Witnesses: engines -/

/-- Whether an engine operation completes. -/
def goes {α : Type} : Eng α → Bool
  | .ok _ _ => true
  | _ => false
/-- A copy of 8 bytes within the core scratchpad, as issued and as begun. -/
def scopyLong : Long := ⟨0, 0b01010, 0, true, 0, 0, 0, 0, 0⟩
def scopy8 : Cmd := { command (.scopy scopyLong) with ra := 0x80, rb := 0x40, rc := 8, checked := true }
/-- A member at cycle 10 with a command. -/
def issued (m : Cmd) : State := base.modCore 0 fun k => { k with cmds := [m], nextCmd := 1, seq := { k.seq with mcc := 10 } }
def begun (m : Cmd) : State := issued { m with started := some 4 }
/-- A tile-step of a 1 by 1 by 1 binary32 tile that zeroes it, and one of codes; ACC.ZERO, ACC.LD and a Tahr result. -/
def mstep1 : Cmd := { command (.mstep ⟨0, 0b00110, 0, true, 0, 0, 0, 0, 0⟩) with rc := 0x100010001, reps := [(0, { a := [(0x3F800000, false)], b := [(0x40000000, false)] })] }
def accZero1 : Cmd := command (.accZero ⟨0, 0b00100, 0, false, 0, 0, 0, 0, 0⟩)
def accLd1 : Cmd := { command (.accLd ⟨0, 0b00100, 0, false, 0, 0, 0, 0, 0⟩) with rc := 0x10001, data := [(0x3F800000, false)] }
def tmv1 : Cmd := { command (.tmv ⟨0, 0b00001, 0, false, 0, 0, 0, 0, 0⟩) with data := [(0x3F800000, false)], checked := true }
/-- A collective of the member alone on the group of one. -/
def coll1 : Cmd := { command (.collAr ⟨0, 0b00100, 0, false, 0, 0, 0, 0, 0⟩) with rb := 0x40, rc := 1 + 2 ^ 39 }
/-- A held long form: `ACC.ZERO`, and its words. -/
def holding : State := (base.modQ fun q => { q with wait := .engine, ir := BitVec.ofNat 64 (((encode (.accZero ⟨0, 0, 0, false, 0, 0, 0, 0, 0⟩)).map Prod.snd).getD 0) })

theorem witness_EngineSteps : holding.q.wait = .engine ∧ holding.cur.pendingCmds < 64
    ∧ (longOf (.accZero ⟨0, 0, 0, false, 0, 0, 0, 0, 0⟩)).isSome = true
    ∧ ((issued accZero1).getCore 0).cmd 0 = some accZero1 ∧ accZero1.started = none ∧ ((issued accZero1).getCore 0).mstate = .running ∧ accZero1.begins ≤ 10
    ∧ (∀ x ∈ ((issued accZero1).getCore 0).cmds, x.id = 0 ∨ x.started = none) ∧ accZero1.isZero = true
    ∧ mstep1.engine = .markhor ∧ mstep1.long.z = true ∧ ((issued mstep1).getCore 0).arrayFree ≤ 10 ∧ mstep1.begins ≤ 10
    ∧ scopy8.engine = .serow ∧ scopy8.src = 1 ∧ scopy8.dst = 1 ∧ scopy8.total = 8 ∧ { scopy8 with checked := false }.checked = false
    ∧ (Store.get wpReset ((issued scopy8).getCore 0).wp scopy8.chan).bit 61 = false
    ∧ (begun scopy8).cmdWaits 0 scopy8 = false ∧ scopy8.done < scopy8.total ∧ (begun scopy8).choice = 0
    ∧ 0 < scopy8.rc.toNat ∧ scopy8.rb.toNat % 8 = 0 ∧ scopy8.ra.toNat % 128 + scopy8.rc.toNat ≤ 128
    ∧ (begun scopy8).scratchLoc 0 1 1 scopy8.rb = .core 0 0x40 ∧ (begun scopy8).scratchLoc 0 1 1 scopy8.ra = .core 0 0x80
    ∧ ((begun scopy8).getCore 0).scratch.worst 0x40 8 = .clean ∧ ((begun scopy8).getCore 0).binding.dbg = false
    ∧ { scopy8 with done := 8 }.done = scopy8.total ∧ scopy8.out = 0
    ∧ pairTag mstep1.tileTag = false ∧ pairTag (((begun mstep1).getCore 0).slot 0).tag = false := by decide
theorem witness_EngineSteps_held : (match decodeWords (holding.q.ir.fld 31 0) (holding.q.ir.fld 63 32) with
    | .ok i => i == .accZero ⟨0, 0, 0, false, 0, 0, 0, 0, 0⟩
    | _ => false) = true := by decide
/-- A copy goes on, a collective of one rank lands, and a Tahr result is stored. -/
theorem witness_EngineSteps_goes : goes ((begun scopy8).chosen.copyPages 0 scopy8) = true ∧ goes ((begun scopy8).chosen.copyGranule 0 scopy8 0 8) = true
    ∧ goes ((begun coll1).chosen.contribution 0 { coll1 with started := some 4 } 0) = true
    ∧ goes ((begun coll1).landAll 0 coll1 0x40 true [(0x3F800000, false)]) = true
    ∧ goes ((begun tmv1).chosen.engStore 0 0 tmv1.long.low (runsOf (BitVec.ofNat 64 tmv1.yoff) (((tmv1.data.drop 0).take 1).flatMap fun v => (toBytes 4 v.1).map fun b => (b, v.2)))) = true := by
  decide +kernel
theorem witness_EngineSteps_cells : mstep1.rows ≤ 32 ∧ mstep1.cols ≤ 32 ∧ mstep1.rows = 1 ∧ mstep1.cols = 1
    ∧ (sliceCell mstep1 0 0 (((Store.get {} mstep1.reps 0).pairs mstep1 0 (min mstep1.depth mstep1.sliceLen) 0 0).map fun p => (p.1.1, p.2.1))).isSome = true
    ∧ (((Store.get {} mstep1.reps 0).pairs mstep1 0 (min mstep1.depth mstep1.sliceLen) 0 0).any fun p => p.1.2 || p.2.2) = false
    ∧ pairTag accZero1.tileTag = false ∧ pairTag (((begun accZero1).getCore 0).slot 0).tag = false
    ∧ pairTag accLd1.tileTag = false ∧ (((begun accLd1).modCore 0 fun k => { k with slots := [(0, { tag := 4 })] }).getCore 0 |>.slot 0).tag = accLd1.tileTag
    ∧ 0 < accLd1.cols ∧ accLd1.cols ≤ 32 ∧ accLd1.data.length = accLd1.rows * accLd1.cols ∧ accLd1.engine = .accum
    ∧ tmv1.engine = .tahr ∧ tmv1.done < tmv1.data.length ∧ tmv1.headerSize = 0 ∧ 0 < min (128 / tmv1.resultSize) (tmv1.data.length - tmv1.done)
    ∧ { tmv1 with done := 1 }.done = tmv1.data.length ∧ tmv1.out = 0
    ∧ (begun coll1).rankGone 0 coll1 0 = false ∧ (begun coll1).mayLand 0 { coll1 with started := some 4 } 0 = true ∧ coll1.engine = .collect
    ∧ (∀ r ∈ coll1.ranks, r ∈ { coll1 with landed := [0] }.landed) ∧ (begun { coll1 with landed := [0] }).sourceSent 0 { coll1 with landed := [0] } = true := by
  decide +kernel
/-- A collective of two members of which one has retired without its part. -/
def coll2 : Cmd := { coll1 with rb := 0x40, rc := 1 + 2 ^ 39 }
def deserted : State := (begun coll1).modTask 1 fun k => { k with gone := [(0, [])] }
theorem witness_EngineSteps_alone : (∀ x ∈ ((issued scopy8).getCore 0).cmds, x.id = 0 ∨ x.started = none) ∧ scopy8.total ≠ 0 ∧ (issued scopy8).copyRange 0 scopy8 = true
    ∧ (begun scopy8).chipWorst (.core 0 0x40) 8 = .clean ∧ ((begun scopy8).getCore 0).replay = none ∧ ((begun scopy8).getCore 0).binding.part = 1
    ∧ base.lost = [] ∧ (begun coll1).anyGone 0 coll1 = false ∧ deserted.anyGone 0 { coll1 with started := some 4 } = true
    ∧ (deserted.getCore 0).cmd 0 = some { coll1 with started := some 4 } := by decide +kernel

/-! ### Witnesses: Saiga, partitions, the outside -/

/-- An event that waits; a full queue. -/
def errorEvent : Event := .saiga 0 1 3 0 0 0 0 0
def waiting : State := { base with pending := [⟨0, errorEvent⟩] }
def full : State := { waiting with evtail := 63 }
/-- A page request of the sequencer, of a region, of an engine. -/
def asked (r : ReqSrc) : State :=
  let s := (landing.modX fun c => { c with page := some 0 }).modCore 0 fun k => { k with seq := { k.seq with wait := .page 0, tvec := 0x4001 } }
  { s with pageReqs := [⟨0, r, 0x50000, 1, 0, 0, 0, some 0⟩], prqtail := 1 }
/-- A partition given a window of its budget, at a later tick. -/
def budgeted : State := { (base.modPart 1 fun p => { p with ebud := BitVec.ofNat 64 (2 ^ 48) }) with tick := 10 ^ 9 }
/-- A full audit log would be long: a state whose free entries are few is reached by the log's length. -/
def logged (n : Nat) : State := { base with audit := List.replicate n (0, ⟨0, 0⟩) }
/-- A task that has signalled early, and one that has not. -/
def erring (irr : Bool) : State := { base with tasks := [(1, { part := 1, state := .running, irrevocable := irr })], parts := [(1, { ebud := 0 })] }

theorem witness_SaigaSteps : waiting.evFull = false ∧ waiting.pending = [⟨0, errorEvent⟩] ∧ waiting.takes errorEvent = true ∧ full.evFull = true ∧ full.pending ≠ []
    ∧ base.failingOver = false ∧ base.saigaOut = false ∧ base.sgstat.fld 5 4 ≠ 3 ∧ ({ base with sgstat := base.sgstat.put 5 4 3 } : State).sgstat.fld 5 4 = 3
    ∧ ({ base with failingOver := true } : State).failingOver = true ∧ budgeted.windowEnds 1 = true ∧ base.saigaRuns = true
    ∧ (0 : Word).toNat < queueSize base.evcfg ∧ queued (queueSize base.evcfg) 0 0 ≤ queued (queueSize base.evcfg) 0 0
    ∧ queueSize base.evcfg ≤ (64 : Word).toNat ∧ queued (queueSize base.evcfg) 0 0 < queued (queueSize base.evcfg) 0 1
    ∧ full.evhead ≠ full.evtail ∧ base.evhead = base.evtail ∧ (2 : Word).bit 1 = true ∧ base.auditFull = false ∧ (base.getCore 1).bind = none
    ∧ (base.getCore 0).bind.isSome = true ∧ (base.getCore 1).scrub = false ∧ (base.getCore 0).live = true ∧ (base.getCore 1).live = false
    ∧ ((asked (.sequencer 0)).pageReqs.find? (fun q => q.index == some 0)) = some ⟨0, .sequencer 0, 0x50000, 1, 0, 0, 0, some 0⟩
    ∧ ((asked (.sequencer 0)).getCore 0).seq.wait = .page 0 ∧ ((asked (.sequencer 0)).getCore 0).seq.tvec.bit 0 = true ∧ (asked (.sequencer 0)).traces 0 6 = false
    ∧ (((asked (.region 0 0)).getStamp 0).copy 0).page = some 0 ∧ 0 < ((asked (.region 0 0)).getStamp 0).copies.length
    ∧ ((asked (.engine 0 0)).pageReqs.find? (fun q => q.index == some 0)) = some ⟨0, .engine 0 0, 0x50000, 1, 0, 0, 0, some 0⟩
    ∧ (1 : Word).toNat < queueSize (asked (.sequencer 0)).prqcfg
    ∧ queued (queueSize (asked (.sequencer 0)).prqcfg) (asked (.sequencer 0)).prqhead 1 ≤ queued (queueSize (asked (.sequencer 0)).prqcfg) (asked (.sequencer 0)).prqhead (asked (.sequencer 0)).prqtail
    ∧ (∀ q ∈ (asked (.sequencer 0)).pageReqs, q.index ≠ none)
    ∧ ({ base with tlbinv := 0 } : State).tlbinv.bit 63 = false ∧ base.tlbinv.bit 63 = true ∧ ({ base with tlbinv := 0 } : State).invBusy = false
    ∧ base.partRuns 1 = false ∧ (erring true).partRuns 1 = true
    ∧ ((erring true).getTask 1).irrevocable = true ∧ ((erring true).getPart 1).ebud.bit 62 = false ∧ ((erring false).getTask 1).irrevocable = false
    ∧ placeOf 0x2000 = .hbm := by decide +kernel
theorem witness_SaigaSteps_full : (logged 65280).auditFull = true := by
  have e : (logged 65280).audit.length = 65280 := List.length_replicate
  rw [State.auditFull, State.auditFree, e]
  rfl

/-- A member whose core was struck. -/
def struck (irr : Bool) : State := (erring irr).modCore 0 fun k => { k with struck := true }
theorem witness_SaigaSteps_more : waiting.evPlace waiting.evtail + 32 ≤ 2 ^ 22 ∧ 1 ∈ base.pair ∧ 2 ∉ base.pair
    ∧ ({ base with failingOver := true, failedHart := 1 } : State).pair = [0, 1] ∧ (0 : Nat) ≠ 1
    ∧ State.readSys { base with core := 0 } 0x3FF = none ∧ State.readSys { base with core := 0 } 2 ≠ none
    ∧ ((struck true).getCore 0).bind = some { task := 1, part := 1 } ∧ ((struck true).getCore 0).replay = none ∧ ((struck true).getCore 0).mstate = .running
    ∧ ((struck true).getCore 0).struck = true ∧ ((struck true).getTask 1).irrevocable = true ∧ ((struck true).getTask 1).state = .running
    ∧ ((struck false).getTask 1).irrevocable = false
    ∧ (∀ r ∈ base.derived, r.part ≠ base.tlbinv.fld 15 0) := by decide +kernel

/-- A present partition 1 on the clusters of one column, and the present partition 2 beside it. -/
def parted (st : Tdisp) : State :=
  { State.reset with pidx := 1, pwrgd := true, bootst := 3
                     parts := [(1, { prect := 0x8810000000000000, tdisp := st }), (2, { prect := 0x9020000000002400 })] }

theorem witness_PartitionSteps : (parted .unlocked).saigaRuns = true ∧ (parted .unlocked).auditFull = false ∧ ((parted .locked).getPart 1).locked = true
    ∧ ((parted .unlocked).getPart 1).locked = false
    ∧ ((0x8810000000000000 : Word).fld 57 52 ≤ 12 ∧ (0x8810000000000000 : Word).fld 12 10 ≤ 5 ∧ (0x8810000000000000 : Word).fld 15 13 ≤ (0x8810000000000000 : Word).fld 12 10
      ∧ (0x8810000000000000 : Word).fld 9 9 ≤ (0x8810000000000000 : Word).fld 8 8)
    ∧ (∀ o ∈ (parted .unlocked).others 1, ∀ c ∈ List.range 12, inRect 0x8810000000000000 c = true → inRect o.2.prect c = false)
    ∧ (∀ o ∈ (parted .unlocked).others 1, o.2.prect.fld 57 52 ≠ 1) ∧ ((parted .unlocked).others 1).length < 12
    ∧ (parted .unlocked).partBound 1 = false ∧ (parted .unlocked).queuedIn 1 = 0 ∧ ((parted .unlocked).getPart 1).prect.bit 63 = true
    ∧ ((0xF0 : Word).fld 15 8 + (0xF0 : Word).fld 7 0 ≤ 240 ∧ ¬((0x1F0 : Word).fld 15 8 + (0x1F0 : Word).fld 7 0 ≤ 240))
    ∧ (∀ o ∈ (parted .unlocked).parts, o.1 ≠ 1 → windowsMeet 0xF0 o.2.cpwin = false)
    ∧ (1 : Word).fld 15 0 ≠ 0 ∧ (parted .unlocked).checkFrame 0 = false ∧ (Store.get 0 (parted .unlocked).pat 0).bit 63 = false
    ∧ ((parted .unlocked).patEntry 1).bit 63 = false ∧ (0x4000000000000000 : Word).bit 62 = true ∧ ((parted .unlocked).getPart 1).sealst.bit 62 = false
    ∧ ({ parted .unlocked with parts := [(1, { sealst := 0x4000000000000000, reencrypting := [3] })] } : State).getPart 1
        = { sealst := 0x4000000000000000, reencrypting := [3] } := by decide +kernel
/-- An unowned 64 MiB block. -/
theorem witness_PartitionSteps_block : (1 : Word).fld 1 0 ≠ 3 ∧ ∀ i, i < 32 → (Store.get 0 (parted .unlocked).pat (32 * 1 + i)).bit 63 = false :=
  ⟨by decide, fun _ _ => by rw [show (parted .unlocked).pat = [] from rfl]; show (0 : Word).bit 63 = false; decide⟩

theorem witness_PartitionSteps_held : ({ base with held := [.store store2000] } : State).held = .store store2000 :: []
    ∧ base.canApply store2000.part store2000.pa store2000.data.length = true ∧ placeOf store2000.pa ≠ .host
    ∧ ((parted .unlocked).getPart ((parted .unlocked).alidx / 128 % 65536)).locked = false
    ∧ (Store.get 0 (parted .unlocked).blkcls 1).bit 63 = false ∧ (Store.get 0 (parted .unlocked).pat 0).bit 60 = false := by decide +kernel

/-- The package in service: a function bound to partition 1, a channel of each state, a replica that waits, a checkpoint delivered. -/
def serving (st : Tdisp) : State :=
  let s := tasked .running 0
  { s with pwrgd := true, bootst := 3, chain := some 5, delivered := [3], audit := [(4, ⟨0, 0⟩)], lchidx := 1, ckpt := some (4, 5, 0)
           lchan := [(1, 0x1000000000000000), (2, 0x2000000000000000), (3, 0x3000000000000000)]
           rpHome := [(1, 5)], rpHolders := [(2, [5])], replicas := [⟨9, store2000, [5]⟩]
           parts := [(1, { (s.getPart 1) with prect := 0x8810000000000000, tdisp := st, pwin := [(0, 0x8000020000000000), (1, 0x8000000000000000)] })] }
/-- A peer's store and load of a replicated page, by physical address; a member that waits for a peer. -/
def peerStore : PeerAccess := { fpart := 1, task := 1, spkg := 5, sch := 256, va := 0x2000, data := some [1, 2, 3, 4], size := 4, atom := none, sent := 0 }
def asking : State := { (ready.modQ fun q => { q with wait := .peer ⟨1, 1, 8, false, false, none, false, 4, 0x8000, 0, false, false⟩ }) with tick := usTicks 50 }

theorem witness_AuditAndLomidSteps : (serving .unlocked).saigaRuns = true ∧ (serving .unlocked).auditFull = false ∧ 3 ≤ (3 : Word).toNat ∧ (7 : Word).toNat ≤ 7 ∧ (2 : Word).toNat < 3
    ∧ (serving .unlocked).chain = some 5 ∧ base.chain = none ∧ 3 ∈ (serving .unlocked).delivered ∧ 4 ∉ (serving .unlocked).delivered
    ∧ (serving .unlocked).ckpt = some (4, 5, 0) ∧ ((serving .unlocked).audit.find? fun x => x.1 == 4) = some (4, ⟨0, 0⟩)
    ∧ (serving .unlocked).partOfVf 1 = some 1 ∧ (serving .unlocked).partOfVf 2 = none
    ∧ ((serving .unlocked).getPart 1).tdisp = .unlocked ∧ ((serving .locked).getPart 1).tdisp = .locked ∧ ((serving .run).getPart 1).tdisp = .run := by decide +kernel
theorem witness_AuditAndLomidSteps_channels : ((serving .unlocked).chan 0).fld 62 60 = 0 ∧ ((serving .unlocked).chan 1).fld 62 60 = 1 ∧ ((serving .unlocked).chan 2).fld 62 60 = 2 ∧ ((serving .unlocked).chan 3).fld 62 60 = 3
    ∧ (serving .unlocked).allDead 0 = false ∧ (serving .unlocked).drainOver 2 = true
    ∧ ({ serving .unlocked with posted := [⟨2, 0, store2000⟩] } : State).drainOver 2 = false
    ∧ (Store.get 0 ((serving .unlocked).getPart 1).pwin 0).bit 41 = true ∧ (Store.get 0 ((serving .unlocked).getPart 1).pwin 1).bit 41 = false
    ∧ (Store.get 0 ((serving .unlocked).getPart 1).pwin 1).bit 63 = true ∧ ((0, 0) : Nat × Nat) ∉ (serving .unlocked).deadLanes := by decide +kernel
theorem witness_AuditAndLomidSteps_peers : ({ base with tick := usTicks 40 + 1 } : State).tick > peerStore.sent.toNat + usTicks 40 ∧ base.tick ≤ peerStore.sent.toNat + usTicks 40
    ∧ ((serving .unlocked).peerPlace peerStore).map Prod.snd = some 0x2000 ∧ (Held.peer 0x2000 peerStore).behind (serving .unlocked).held = false
    ∧ (serving .unlocked).peerReady peerStore 0x2000 = true ∧ (serving .unlocked).peerReady { peerStore with size := 8 } 0x2000 = true ∧ (serving .unlocked).peerPlace { peerStore with sch := 1 } = none
    ∧ (serving .unlocked).homePkg 0x2000 = (serving .unlocked).pkgNo
    ∧ (serving .unlocked).holdersOf 0x2000 = [] ∧ (serving .unlocked).hbm.worst 0x2000 4 = .clean
    ∧ (serving .unlocked).lost.contains (0x2000 / 128) = false ∧ (serving .unlocked).derived = [] ∧ (serving .unlocked).isSealed 0x2000 = false
    ∧ (asking.getCore 0).seq.wait = .peer ⟨1, 1, 8, false, false, none, false, 4, 0x8000, 0, false, false⟩ ∧ 0 + usTicks 50 ≤ asking.tick ∧ (asking.getCore 0).seq.tvec.bit 0 = true
    ∧ asking.traces 0 6 = false ∧ ({ asking with tick := 0 } : State).tick < 0 + usTicks 50
    ∧ (serving .unlocked).homePkg 0x10000 ≠ (serving .unlocked).pkgNo ∧ Store.get 0 (serving .unlocked).rpNext ((serving .unlocked).homePkg 0x10000) = 0 ∧ (serving .unlocked).rpWait = []
    ∧ (serving .unlocked).homePkg 0x20000 = (serving .unlocked).pkgNo
    ∧ (serving .unlocked).holdersOf 0x20000 ≠ [] ∧ (serving .unlocked).canApply 1 0x20000 4 = true ∧ (serving .unlocked).behindHeld { store2000 with pa := 0x20000 } = false
    ∧ (serving .unlocked).replicas.find? (fun x => x.seq == 9) = some ⟨9, store2000, [5]⟩ ∧ [5].filter (fun q : Nat => q != 5) = []
    ∧ [5, 6].filter (fun q : Nat => q != 5) ≠ [] := by decide +kernel

/-! ### Witnesses: the host, the debugger, power -/

/-- A host that has halves and asks; a debugged member, running, and stopped; a core to dump. -/
def hosted : State := { tasked .running 0 with halves := [(2 ^ 44, .modified)], cxl := [⟨2 ^ 44, false⟩], pat := [(0, BitVec.ofNat 64 (2 ^ 63 + 2 ^ 32))] }
def debugged : State := (tasked .running 0).modCore 0 fun k => { k with bind := some { task := 1, part := 1, dbg := true } }
def replaying : State := debugged.modCore 0 fun k => { k with replay := some [] }
def stopHeld : State := replaying.modCore 0 fun k => { k with mstate := .frozen }
/-- A task with a checkpoint due, and one with a checkpoint to replay. -/
def ckptDue : State := { base with tasks := [(1, { part := 1, state := .running, ckptDue := some 0 })], parts := [(1, { dbgcfg := 1 })] }
/-- Its gang frozen for the checkpoint. -/
def ckptFrozen : State := (ckptDue.modTask 1 fun t => { t with ckptAt := some 0 }).modCore 0 fun k => { k with mstate := .frozen }
def ckptKept : State := { State.reset with pidx := 1, tasks := [(1, { part := 1, state := .running, ckpt := 1, ckpts := [(0, 0, 0, [saved0])] })], parts := [(1, { prect := 0x8810000000000000, dbgcfg := 0x100000 })] }

theorem witness_HostAndDebugSteps : placeOf (0x80 * 64) = .hbm ∧ base.inBase (0x80 * 64) 64 = false ∧ placeOf (2 ^ 44 * 64) ≠ .hbm
    ∧ Store.get .inv hosted.halves (2 ^ 44) = .modified ∧ Store.get .inv base.halves (2 ^ 44) = .inv ∧ hosted.cxl.any (fun q => decide (q.half = 2 ^ 44)) = true
    ∧ (∀ q ∈ base.cxl, q.half ≠ 0) ∧ base.hostDead = false ∧ hosted.hostPlace 0 0x2000 4 true = some (1, 0x2000) ∧ hosted.hostPlace 5 0x2000 4 true = none
    ∧ (∀ l ∈ linesOf 0x2000 4, hosted.inFootprint (l * 128) 128 = false) ∧ hosted.hbm.worst 0x2000 4 = .clean ∧ (Held.hostRead 0 1 0x2000 4).behind hosted.held = false ∧ hosted.rekeys 0x2000 = false
    ∧ (Held.hostRead 0 1 0x2000 4).behind [.store { store2000 with src := .host }] = true ∧ (∀ l ∈ linesOf 0x2000 4, l ∉ hosted.lost)
    ∧ declared.hostPlace 0 0x400 4 true = some (1, 0x400) ∧ (∀ l ∈ linesOf 0x400 4, declared.inFootprint (l * 128) 128 = true) ∧ linesOf 0x400 4 = [8]
    ∧ (debugged.getCore 0).bind.isSome = true ∧ (debugged.getCore 0).binding.dbg = true ∧ debugged.traces 0 7 = false ∧ (replaying.getCore 0).replay.isSome = true
    ∧ (debugged.getCore 0).replay = none ∧ (debugged.getTask 1).state = .running ∧ (debugged.getCore 0).live = true
    ∧ (debugged.getTask 1).stopAt = none ∧ (debugged.getTask 1).stop = .none ∧ (base.getCore 0).binding.dbg = false
    ∧ base.saigaRuns = true ∧ (base.getCore 0).dumpBusy = false ∧ stopHeld.stoppedHere 0 = true ∧ base.stoppedHere 0 = false
    ∧ ((base.modCore 0 fun k => { k with dumpBusy := true }).getCore 0).dumpBusy = true := by decide +kernel
theorem witness_HostAndDebugSteps_replay : Store.keysWhere (fun _ (y : Task) => y.part == 1) ckptDue.tasks = [1] ∧ (ckptDue.getTask 1).part = 1
    ∧ ckptDue.ckptBegins 1 = true ∧ ckptDue.ckptReady 1 = false ∧ (ckptFrozen.getTask 1).ckptAt = some 0 ∧ ckptFrozen.ckptReady 1 = true ∧ base.ckptBegins 1 = false
    ∧ (base.getTask 1).ckptAt = none ∧ ckptKept.replayLimit 1 = none
    ∧ (((ckptKept.tasks.filter fun kv => kv.2.part == 1).flatMap fun kv => kv.2.ckpts).find? fun k => k.2.1 % 2 ^ (ckptKept.getPart 1).dbgcfg.fld 23 16 == 0)
        = some (0, 0, 0, [saved0])
    ∧ (((ckptKept.tasks.filter fun kv => kv.2.part == 1).flatMap fun kv => kv.2.ckpts).find? fun k => k.2.1 % 2 ^ (ckptKept.getPart 1).dbgcfg.fld 23 16 == 1) = none
    ∧ (ckptKept.getTask 1).ckpts.find? (fun y => y.1 == 0) = some (0, 0, 0, [saved0]) ∧ [saved0].find? (fun y => y.memb == 0) = some saved0
    ∧ ckptKept.replayCore 0 1 = true ∧ ckptKept.replayCore 72 1 = false := by decide +kernel

/-- The package with power, booting and booted; a gated island; one that changes. -/
def powered (st : Word) : State := { State.reset with pwrgd := true, bootst := st }
def gated : State := (powered 3).setIsl 0 ((((powered 3).isl 0).put 0 0 1).put 31 30 1)
def changing : State := (powered 3).setIsl 0 (((powered 3).isl 0).put 31 30 2)

theorem witness_PowerSteps : State.reset.pwrgd = false ∧ (powered 1).pwrgd = true ∧ 1 ≤ (powered 1).bootst.fld 3 0 ∧ (powered 1).bootst.fld 3 0 < 3
    ∧ (powered 1).tripped = false ∧ ({ powered 1 with tripped := true } : State).tripped = true ∧ base.partOfVf 1 = none ∧ (serving .run).partOfVf 1 = some 1
    ∧ (powered 3).saigaRuns = true ∧ (1 : Word).bit 0 = true ∧ ((powered 3).isl 0).bit 0 = false ∧ (powered 3).gateRefused 0 = false ∧ base.gateRefused 0 = true
    ∧ (powered 3).gateRefused 36 = true ∧ (gated.isl 0).bit 0 = true
    ∧ ((0x0800 : Word).fld 15 8 ≤ 36 ∧ 8 ≤ (0x0800 : Word).fld 15 8 ∧ (0x0800 : Word).fld 15 8 ≠ ((powered 3).isl 0).fld 15 8) ∧ 36 < (0x2500 : Word).fld 15 8
    ∧ (0x0700 : Word).fld 15 8 < 8 ∧ (powered 3).pkgctl = false ∧ (powered 3).mayGate = true ∧ base.mayGate = false
    ∧ ({ powered 3 with pkgctl := true } : State).pkgctl = true ∧ ({ powered 3 with exiting := true } : State).exiting = true
    ∧ (changing.isl 0).fld 31 30 = 2 ∧ changing.heldDown 0 = false ∧ ({ changing with throttled := [0] } : State).heldDown 0 = true
    ∧ ((powered 3).isl 0).fld 31 30 ≠ 2 ∧ (0 : BitVec 16).toNat ≤ (powered 3).pwrlim.fld 15 0 ∧ ({ powered 3 with pwrlim := 100 } : State).pwrlim.fld 15 0 < (101 : BitVec 16).toNat
    ∧ ({ powered 3 with powerLow := true } : State).powerLow = true ∧ (powered 3).throttled.contains 0 = false
    ∧ ({ powered 3 with throttled := [0] } : State).throttled.contains 0 = true := by decide +kernel

/-! ### Witnesses: words, steps, safety -/

/-- An instruction whose words the encoder gives and the decoder reads back. -/
theorem witness_DecodeOfEncodeIsIdentity : (encode (.add 1 2 3)).isSome = true ∧ (Instr.add 1 2 3).wf = true := by decide

/-- `ADD g3 = g1 + g2` at the program counter of core 0, and `LIW`, a long form, there. -/
def fetched : State := { State.reset.withFetchWord 32 0b00000000011000010001000000000000 with core := 0 }
def fetchedLong : State := { State.reset.withFetchWord 64 0b1000000000000000000000000000000011110101001000000000000000000000 with core := 0 }
theorem fetch_hit (va : Word) (h : va = 0 ∨ va = 4) (v : State) (e : (v.getCore 0).seqTlb = fetched.cur.seqTlb) :
    v.xlate 0 .seq fetched.me.part va 2 = (.ok leaf0 va.toNat, v) := by
  have t : fetched.cur.seqTlb = [⟨1, 0, 65536, leaf0⟩, ⟨1, 65536, 65536, openLeaf 0 65536⟩] := rfl
  unfold State.xlate
  rcases h with rfl | rfl
  · simp only [Core.tlb, e, t]; rfl
  · simp only [Core.tlb, e, t]; rfl
theorem witness_StepRunsDecodedInstruction : fetched.agenda = [.seq 0] ∧ fetched.cur.moves = true ∧ fetched.cur.stopHold = false ∧ fetched.cur.captured = false
    ∧ fetched.canDeliver 0 = false ∧ fetched.q.wait = .none ∧ fetched.atBreakpoint = false ∧ fetched.cur.bkptPassed = none ∧ fetched.q.pc = 0
    ∧ (placeOf 0 = .hbm ∧ fetched.frameOk fetched.me.part leaf0 0 = true ∧ fetched.heldAt 0 4 = false ∧ leafHc leaf0 = false ∧ leafType leaf0 ≠ 1
      ∧ fetched.hbm.worst 0 4 = .clean ∧ fetched.lost.contains (0 / 128) = false)
    ∧ isLongMajor (fetched.hbm.num 0 4 / 2 ^ 26 % 64) = false ∧ isLongMajor (fetchedLong.hbm.num 0 4 / 2 ^ 26 % 64) = true
    ∧ fetchedLong.frameOk fetchedLong.me.part leaf0 4 = true ∧ fetchedLong.hbm.worst 4 4 = .clean
    ∧ (State.reset.withFetchWord 48 0).agenda = [.elem {}] ∧ ((State.reset.withFetchWord 48 0).getStamp 0).entry 0 0 0 = 0
    ∧ (exiting.getCore 0).seq.wait = .exit := by decide +kernel
theorem witness_StepRunsDecodedInstruction_words :
    decodeWords (BitVec.ofNat 32 (fetched.hbm.num 0 4)).toNat 0 = .ok (.add 3 1 2)
    ∧ decodeWords (fetchedLong.hbm.num 0 4) (fetchedLong.hbm.num 4 4) = .ok (.liw 9 0x80000000)
    ∧ decodeEntryWord 0 = .ok (.eNop { fmt := 0, sa := 0, sb := 0, sc := 0, we := false, wi := 0, dr := 0, dc := 0, pr := 0, stg := 0, aux := 0 }) := ⟨rfl, rfl, rfl⟩

theorem witness_StepKeepsSafe : Safe fetched ∧ Safe (State.reset.withFetchWord 48 0) :=
  ⟨⟨by decide +kernel, (rfl : fetched.agenda.all Action.named = true)⟩, ⟨by decide +kernel, (rfl : (State.reset.withFetchWord 48 0).agenda.all Action.named = true)⟩⟩
/-- Whether a step answers a next state. -/
def goesOn (r : Result) : Bool :=
  match r with
  | .next _ => true
  | _ => false
theorem witness_StepKeepsSafe_steps : goesOn (step (State.reset.withFetchWord 48 0)) = true ∧ goesOn (step fetched) = true := by decide +kernel

/-! ### Witnesses: conditions that several statements share -/

theorem witness_TrapReturnAndBreak_debug : debugged.me.dbg = true ∧ debugged.cur.replay = none ∧ debugged.cur.live = true ∧ (debugged.getTask debugged.me.task).state = .running
    ∧ (debugged.getTask debugged.me.task).stop = .none ∧ (debugged.getTask debugged.me.task).stopAt = none := by decide

/-- A cluster with dirty bytes above every write log; one whose push waits for a rescan. -/
def dirtyHigh : State := base.modCluster 0 fun k => { k with dirty := [(0x40002000, 1), (0x40002080, 2)] }
def pushWaits : State := rescanning.modCluster 0 fun k => { k with dirty := [(0x2000, 1)] }
theorem witness_FencesOrderAndReport_push : dirtyHigh.settled .sys = true ∧ dirtyHigh.pushing 0 = false
    ∧ (∀ x ∈ (dirtyHigh.getCluster 0).dirty, let a := x.1 / 128 * 128
      dirtyHigh.lost.contains (x.1 / 128) = false ∧ dirtyHigh.inFootprint a 128 = false ∧ dirtyHigh.mustHold a 128 = false ∧ dirtyHigh.isSealed a = false
      ∧ dirtyHigh.homeReady a 128 = true ∧ (dirtyHigh.held.any fun h => h.overlaps a 128) = false)
    ∧ (pushWaits.release 0 .dev).pushing 0 = true ∧ pushWaits.settled .dev = true := by decide +kernel
theorem witness_FencesOrderAndReport_logs : ∀ x ∈ (dirtyHigh.getCluster 0).dirty, dirtyHigh.outsideLogs x.1 := by
  intro x hx p
  have h : 0x40002000 ≤ x.1 := by
    have e : (dirtyHigh.getCluster 0).dirty = [(0x40002000, 1), (0x40002080, 2)] := rfl
    rw [e] at hx
    rcases List.mem_cons.mp hx with rfl | hx
    · decide
    · rw [List.mem_singleton.mp hx]; decide
  have g : dirtyHigh.getPart p = {} := by
    have e : dirtyHigh.parts = [] := by decide
    show Store.get {} dirtyHigh.parts p = {}
    rw [e]
    rfl
  exact Or.inr (Nat.le_trans (by rw [g]; decide +kernel) h)

theorem witness_JoinsExitAndTrigger_object : (tasked .running 0).q.wait ≠ .signal ∧ (tasked .running 0).settled .dev = true ∧ (tasked .running 0).holdersOf 0x3000 = []
    ∧ (Held.signal 0x3000 1 .trig false none).behind (tasked .running 0).held = false ∧ leafHc (openLeaf 2 0) = false
    ∧ (∀ w ∈ wordParts 0x3000 16, (tasked .running 0).hbm.worst w.1 w.2 = .clean) ∧ (tasked .running 0).signalsHere.contains 1 = false
    ∧ (∀ c ∈ allCores, ((tasked .running 0).getCore c).seq.wait ≠ .signal) := by decide +kernel
theorem witness_DerivedInstructions_waits : rescanning.quiet { rowsum7 with pending := [0] } = false ∧ ({ declaring with cores := (declaring.modCur fun k => { k with replay := some [] }).cores } : State).cur.replay ≠ none := by
  decide +kernel
theorem witness_StreamStores_replay : ((streaming f1 i3).getCore (streaming f1 i3).xStamp.core).replay = none ∧ leafHc leaf0 = false
    ∧ (streaming o8 o8).records (streaming o8 o8).xStamp.core = false := by decide
theorem witness_FabricSteps_capture : (landing.getStamp 0).roundStart 0 0 = some 0 ∧ ((landing.getStamp 0).copy 0).captures = []
    ∧ ((landing.getStamp 0).copy 0).freeAt ≤ landing.stampMcc (landing.getStamp 0) ∧ landing.replyLost flight0 = false
    ∧ latened.replyLost { lateFlight with due := 0 } = false ∧ (latened.modCopy 0 0 (Copy.captureAt (latened.getStamp 0))).lateReads 0 0 = []
    ∧ (landing.stampMcc (landing.getStamp 0) < ((landing.modX fun c => { c with freeAt := 10 ^ 6 }).getStamp 0 |>.copy 0).freeAt)
    ∧ (committing.getCore (committing.getStamp 0).core).replay = none ∧ ((committing.getStamp 0).copy 0).replies = [] := by decide +kernel
theorem witness_StepsAtHomes_more : store2000.pa / 128 = (store2000.pa + store2000.data.length - 1) / 128 ∧ base.outPosted { store2000 with pa := host0 } = true
    ∧ rescanning.unitReady { rowsum7 with pending := [0] } 0 = true ∧ atom2000.pa % 4 = 0 ∧ red2000.pa % 4 = 0 ∧ placeOf red2000.pa ≠ .host
    ∧ dirty.inFootprint 0x2000 128 = false ∧ dirty.mustHold 0x2000 128 = false ∧ dirty.isSealed 0x2000 = false ∧ dirty.homeReady 0x2000 128 = true
    ∧ (dirty.held.any fun h => h.overlaps 0x2000 128) = false := by decide +kernel
theorem witness_StepsAtHomes_words : ∀ w ∈ rowsum7.wordsOf (rowsum7.elemsOfSlot 0), rescanning.hbm.worst (8 * w) 8 = .clean := by decide +kernel
theorem witness_TaskSteps_more : arriving.chipWorst (.cm 0 32) 16 = .clean ∧ (∀ w ∈ wordParts 32 16, arriving.chipWorst (.cm 0 w.1) w.2 = .clean)
    ∧ (∀ c ∈ allCores, (tasked .running 0).faultHeld c = false) ∧ (1 : Nat) ∈ (tasked .running 0).tasks.map Prod.fst
    ∧ (exiting.getCore 0).replay = none ∧ (trapped.getCore 0).seq.traps = ⟨0, { code := 9 }⟩ :: [] := by decide +kernel
theorem witness_SchedulingSteps_more : (recorded (tasked .bound 0) 1 1 1 0).ticks 0 = true ∧ (recorded (tasked .bound 0) 1 1 1 0).coreLost 1 1 0 = false
    ∧ (recorded (tasked .bound 0) 1 1 0 0).gangStarts 1 1 0 = false ∧ (recorded (tasked .bound 0) 1 1 0 0).recordDue 0 1 = true
    ∧ (recorded (tasked .bound 0) 1 1 0 0).coreLost 1 1 0 = false
    ∧ (recorded base 1 1 1 0).bindTick 0 ≤ base.tick ∧ base.tick < (recorded base 1 1 1 20000).bindTick 0
    ∧ ((stopped (.freezing 0 false)).getTask 1).capturing = true ∧ ((stopped (.freezing 0 false)).getTask 1).packages = 1
    ∧ (((stopped (.freezing 0 false)).modCore 0 fun k => { k with mstate := .frozen }).quietCore 0) = true ∧ (frozen.getCore 0).replay = none
    ∧ (stopped (.points 0)).pointSave 0 = true ∧ resuming.ticks 0 = true ∧ resuming.coreLost 1 2 0 = false ∧ resuming.resumesOk 1 0 = true := by decide +kernel
theorem witness_EngineSteps_banks : (begun scopy8).bankUse = [] ∧ (begun tmv1).chosen.tahrAwake 0 tmv1 = true
    ∧ goes ((begun tmv1).chosen.engBanks fun s => s.engStore 0 0 tmv1.long.low (runsOf (BitVec.ofNat 64 (tmv1.yoff + tmv1.done * tmv1.resultSize))
        (((tmv1.data.drop tmv1.done).take 1).flatMap fun v => (toBytes tmv1.resultSize v.1).map fun b => (b, v.2)))) = true
    ∧ goes ((begun coll1).chosen.engBanks fun s => (s.contribution 0 { coll1 with started := some 4 } 0).andThen fun vs s =>
        s.landAll 0 { coll1 with started := some 4 } 0x40 true vs) = true := by decide +kernel
/-- The abort of a member outside every task; an answer to the request of a frozen member. -/
def orphan : State := { waiting with
  pending := [⟨0, .saiga 0 1 1 9 0 0 0 5⟩], cores := (base.modCore 5 fun k => { k with mstate := .faulted, bind := some { task := 0, part := 1 } }).cores }
theorem witness_SaigaSteps_orphan : orphan.evFull = false ∧ orphan.takes (.saiga 0 1 1 9 0 0 0 5) = true ∧ (orphan.getCore 5).mstate = .faulted ∧ (orphan.getCore 5).bind.isSome = true
    ∧ (orphan.getCore 5).binding.task = 0 ∧ ((orphan.getCore 0).mstate = .faulted → (orphan.getCore 0).binding.task ≠ 0) ∧ base.auditRoom ≠ 0
    ∧ (((asked (.sequencer 0)).modCore 0 fun k => { k with mstate := .frozen }).getCore 0).mstate = .frozen ∧ ((asked (.sequencer 0)).getCore 0).mstate ≠ .frozen
    ∧ (struck true).auditRoom ≠ 0 ∧ ((struck true).getCore 0).binding.task ≠ 0 := by decide +kernel
theorem witness_AuditAndLomidSteps_spdm : (serving .unlocked).spdmSession = false ∧ ({ serving .unlocked with spdmSession := true } : State).spdmSession = true
    ∧ (serving .unlocked).auditRoom ≠ 0 ∧ (0 : Nat) ≤ 12 ∧ (asking.getCore 0).mstate ≠ .frozen ∧ (serving .unlocked).sealWaits 1 0x10000 = false
    ∧ (serving .unlocked).allDead 0x1000000000000000 = false ∧ ({ peerStore with data := none, atom := some (.add, 1, 0) } : PeerAccess).red = none
    ∧ (serving .unlocked).peerReady { peerStore with data := none, red := some (.add, 4, 0x3F800000) } 0x2000 = true := by decide +kernel
theorem witness_HostAndDebugSteps_words : ∀ w ∈ wordParts 0x2000 4, hosted.hbm.worst w.1 w.2 = .clean := by decide +kernel
/-- Half 2^44 of host memory dirty here with zeros in the host's own copy; a reset that waits; a package that is to be gated while the host owns a half. -/
def dirtyHost : State := { powered 3 with hostOld := [(2 ^ 44, List.replicate 64 0)] }
def resetting : State := { powered 3 with resetFrom := some 0, halves := [(5, .hostOwned)] }
def gatingPkg : State := { powered 3 with gating := true, halves := [(5, .hostOwned)] }
theorem witness_PowerSteps_boot : (powered 1).bootst.fld 3 0 = 1 ∧ (powered 2).bootst.fld 3 0 = 2 ∧ (powered 1).saigaOut = false ∧ ({ powered 1 with saigaOut := true } : State).saigaOut = true
    ∧ (powered 2).tripped = false ∧ (powered 3).resetFrom = none ∧ resetting.resetFrom = some 0 ∧ resetting.tick < 0 + usTicks 5000
    ∧ ({ resetting with tick := usTicks 5000 } : State).tick = 0 + usTicks 5000 ∧ Store.get .inv resetting.halves 5 = .hostOwned ∧ dirtyHost.hostOld ≠ [] ∧ (powered 3).hostOld = []
    ∧ gatingPkg.gating = true ∧ gatingPkg.mayGate = true ∧ gatingPkg.hostWrites = false ∧ ({ gatingPkg with halves := [] } : State).mayGate = true ∧ (powered 3).gating = false
    ∧ 1700 < (1701 : Word).fld 15 0 ∧ (powered 3).pwrlim.fld 31 16 ≤ (1000 : Word).fld 15 0 ∧ (powered 3).powerLow = false ∧ (serving .run).auditRoom ≠ 0 := by decide +kernel
/-- A member that owes a trap. -/
def owing : State := { fetched with cores := (fetched.modCore 0 fun k => { k with seq := { k.seq with owed := some ⟨{ code := 5 }, 0⟩ } }).cores }
theorem witness_StepRunsDecodedInstruction_owed : fetched.q.owed = none ∧ owing.q.owed = some ⟨{ code := 5 }, 0⟩ ∧ fetched.heldOwn 0 0 4 = false ∧ fetchedLong.q.owed = none := by decide +kernel

/-! ### One step -/

/-- Register `d` after an instruction run in `base` with a, b and c in g1, g2 and g3. -/
def gives (i : Instr) (a b c : Word) (d : Reg) : Option Word :=
  match exec i (((base.setG 1 a false).setG 2 b false).setG 3 c false) with
  | .next t => some (t.g d).val
  | _ => none

/-- R196: the sum wraps. -/
theorem test_add_wraps : gives (.add 4 1 2) 0xFFFFFFFFFFFFFFFF 2 0 4 = some 1 := by decide +kernel
/-- R196: the most negative number divided by −1, and a division by zero. -/
theorem test_div_corners : gives (.div 4 1 2) 0x8000000000000000 0xFFFFFFFFFFFFFFFF 0 4 = some 0x8000000000000000
    ∧ gives (.div 4 1 2) 5 0 0 4 = some 0xFFFFFFFFFFFFFFFF := by decide +kernel
/-- R196: the remainder has the dividend's sign: −7 rem 2 = −1. -/
theorem test_rem_sign : gives (.rem 4 1 2) 0xFFFFFFFFFFFFFFF9 2 0 4 = some 0xFFFFFFFFFFFFFFFF ∧ gives (.rem 4 1 2) 5 0 0 4 = some 5 := by decide +kernel
/-- R196: the high half of (−1)(−1) = 1, signed and unsigned. -/
theorem test_mulh : gives (.mulh 4 1 2) 0xFFFFFFFFFFFFFFFF 0xFFFFFFFFFFFFFFFF 0 4 = some 0
    ∧ gives (.mulhu 4 1 2) 0xFFFFFFFFFFFFFFFF 0xFFFFFFFFFFFFFFFF 0 4 = some 0xFFFFFFFFFFFFFFFE := by decide +kernel
/-- R13: g0 discards what is written to it. -/
theorem test_g0 : gives (.add 0 1 2) 1 2 0 0 = some 0 := by decide +kernel
/-- R197: the immediate is sign-extended, the source is also the destination. -/
theorem test_addi : gives (.addi 1 1 0xFFFF) 5 0 0 1 = some 4 := by decide +kernel
/-- R199: (1 + 2^-52)(1 + 2^-52) − (1 + 2^-51) = 2^-104, rounded once. -/
theorem test_fma_one_rounding : gives (.fma .f64 ⟨false, 0⟩ 3 1 2) 0x3FF0000000000001 0x3FF0000000000001 0xBFF0000000000002 3 = some 0x3970000000000000 := by
  decide +kernel
/-- R197: an arithmetic shift by 63. -/
theorem test_srai : gives (.srai 4 1 63) 0x8000000000000000 0 0 4 = some 0xFFFFFFFFFFFFFFFF := by decide +kernel
end Sys2Proof.Tests
end

/-! ### What a step keeps: safety from its first state on

Every operation of the model is taken from a state that safety has been kept up to; `Keeps s₀ s` says so of the states on the way,
`Goes s₀ r` of what an instruction answers. The two statements about all instructions, that each answers a next state and that the
step keeps safety, are both read off `Goes`. -/

section
namespace Sys2Proof.Machine

variable {s₀ s t : State} {r q : Ram}

/-- `s` is safe if `s₀` was. -/
def Keeps (s₀ s : State) : Prop := Safe s₀ → Safe s

/-- A memory is in its canonical form if `s₀` was safe. -/
def RamOk (s₀ : State) (r : Ram) : Prop := Safe s₀ → r.wf = true

/-- So are the scratchpads that a task's saved contexts hold. -/
def TaskOk (s₀ : State) (t : Task) : Prop := Safe s₀ → t.savesWf = true

/-- Actions that name only cores of the device, if `s₀` was safe. -/
def Named (s₀ : State) (as : List Action) : Prop := Safe s₀ → as.all Action.named = true

/-- The result is a next state, to which safety is kept from `s₀` on. -/
inductive Goes (s₀ : State) : Result → Prop where
  | next {t : State} (h : Keeps s₀ t) : Goes s₀ (.next t)

/-! #### The parts of a safe state -/

theorem safe_iff (s : State) : Safe s ↔
    s.hbm.wf = true ∧ s.cp.wf = true ∧ s.host.wf = true ∧ s.saiga.wf = true ∧ (∀ x ∈ s.cores, x.2.scratch.wf = true)
      ∧ (∀ x ∈ s.clusters, x.2.cm.wf = true) ∧ (∀ x ∈ s.tasks, x.2.savesWf = true) ∧ s.agenda.all Action.named = true := by
  simp only [Safe, Memory.wf, State.agendaNamed, Bool.and_eq_true, List.all_eq_true, and_assoc]

theorem Keeps.refl (s : State) : Keeps s s := id

theorem Keeps.hbm (h : Keeps s₀ s) : RamOk s₀ s.hbm := fun g => ((safe_iff s).mp (h g)).1
theorem Keeps.cp (h : Keeps s₀ s) : RamOk s₀ s.cp := fun g => ((safe_iff s).mp (h g)).2.1
theorem Keeps.host (h : Keeps s₀ s) : RamOk s₀ s.host := fun g => ((safe_iff s).mp (h g)).2.2.1
theorem Keeps.saiga (h : Keeps s₀ s) : RamOk s₀ s.saiga := fun g => ((safe_iff s).mp (h g)).2.2.2.1
theorem Keeps.cores (h : Keeps s₀ s) {x : Nat × Core} (hx : x ∈ s.cores) : RamOk s₀ x.2.scratch :=
  fun g => ((safe_iff s).mp (h g)).2.2.2.2.1 x hx
theorem Keeps.clusters (h : Keeps s₀ s) {x : Nat × Cluster} (hx : x ∈ s.clusters) : RamOk s₀ x.2.cm :=
  fun g => ((safe_iff s).mp (h g)).2.2.2.2.2.1 x hx
theorem Keeps.tasks (h : Keeps s₀ s) {x : Nat × Task} (hx : x ∈ s.tasks) : TaskOk s₀ x.2 :=
  fun g => ((safe_iff s).mp (h g)).2.2.2.2.2.2.1 x hx
theorem Keeps.agenda (h : Keeps s₀ s) : Named s₀ s.agenda := fun g => ((safe_iff s).mp (h g)).2.2.2.2.2.2.2

/-- A state with the parts that safety speaks of as they may be. -/
theorem Keeps.of_parts (hbm : RamOk s₀ t.hbm) (cp : RamOk s₀ t.cp) (host : RamOk s₀ t.host) (saiga : RamOk s₀ t.saiga)
    (cores : ∀ x ∈ t.cores, RamOk s₀ x.2.scratch) (clusters : ∀ x ∈ t.clusters, RamOk s₀ x.2.cm)
    (tasks : ∀ x ∈ t.tasks, TaskOk s₀ x.2) (agenda : Named s₀ t.agenda) : Keeps s₀ t :=
  fun g => (safe_iff t).mpr ⟨hbm g, cp g, host g, saiga g, fun x hx => cores x hx g, fun x hx => clusters x hx g,
    fun x hx => tasks x hx g, agenda g⟩

/-- Every other field may change. -/
theorem Keeps.same (h : Keeps s₀ s)
    (e : (t.hbm, t.cp, t.host, t.saiga, t.cores, t.clusters, t.tasks, t.agenda)
      = (s.hbm, s.cp, s.host, s.saiga, s.cores, s.clusters, s.tasks, s.agenda) := by rfl) : Keeps s₀ t := by
  simp only [Prod.mk.injEq] at e
  obtain ⟨e1, e2, e3, e4, e5, e6, e7, e8⟩ := e
  refine .of_parts ?_ ?_ ?_ ?_ ?_ ?_ ?_ ?_
  · rw [e1]; exact h.hbm
  · rw [e2]; exact h.cp
  · rw [e3]; exact h.host
  · rw [e4]; exact h.saiga
  · rw [e5]; exact fun _ => h.cores
  · rw [e6]; exact fun _ => h.clusters
  · rw [e7]; exact fun _ => h.tasks
  · rw [e8]; exact h.agenda

theorem Keeps.withHbm (h : Keeps s₀ s) (hr : RamOk s₀ r) : Keeps s₀ { s with hbm := r } :=
  .of_parts hr h.cp h.host h.saiga (fun _ => h.cores) (fun _ => h.clusters) (fun _ => h.tasks) h.agenda
theorem Keeps.withCp (h : Keeps s₀ s) (hr : RamOk s₀ r) : Keeps s₀ { s with cp := r } :=
  .of_parts h.hbm hr h.host h.saiga (fun _ => h.cores) (fun _ => h.clusters) (fun _ => h.tasks) h.agenda
theorem Keeps.withHost (h : Keeps s₀ s) (hr : RamOk s₀ r) : Keeps s₀ { s with host := r } :=
  .of_parts h.hbm h.cp hr h.saiga (fun _ => h.cores) (fun _ => h.clusters) (fun _ => h.tasks) h.agenda
theorem Keeps.withSaiga (h : Keeps s₀ s) (hr : RamOk s₀ r) : Keeps s₀ { s with saiga := r } :=
  .of_parts h.hbm h.cp h.host hr (fun _ => h.cores) (fun _ => h.clusters) (fun _ => h.tasks) h.agenda
theorem Keeps.withCores (h : Keeps s₀ s) {l : Store Core} (hl : ∀ x ∈ l, RamOk s₀ x.2.scratch) : Keeps s₀ { s with cores := l } :=
  .of_parts h.hbm h.cp h.host h.saiga hl (fun _ => h.clusters) (fun _ => h.tasks) h.agenda
theorem Keeps.withClusters (h : Keeps s₀ s) {l : Store Cluster} (hl : ∀ x ∈ l, RamOk s₀ x.2.cm) :
    Keeps s₀ { s with clusters := l } :=
  .of_parts h.hbm h.cp h.host h.saiga (fun _ => h.cores) hl (fun _ => h.tasks) h.agenda
theorem Keeps.withTasks (h : Keeps s₀ s) {l : Store Task} (hl : ∀ x ∈ l, TaskOk s₀ x.2) : Keeps s₀ { s with tasks := l } :=
  .of_parts h.hbm h.cp h.host h.saiga (fun _ => h.cores) (fun _ => h.clusters) hl h.agenda
theorem Keeps.withAgenda (h : Keeps s₀ s) {as : List Action} (ha : Named s₀ as) : Keeps s₀ { s with agenda := as } :=
  .of_parts h.hbm h.cp h.host h.saiga (fun _ => h.cores) (fun _ => h.clusters) (fun _ => h.tasks) ha

/-! #### Memories -/

theorem RamOk.empty : RamOk s₀ {} := fun _ => Ram.wf_empty
theorem RamOk.write (h : RamOk s₀ r) {a : Nat} {bs : List Byte} : RamOk s₀ (r.write a bs) := fun g => Ram.wf_write a bs (h g)
theorem RamOk.store (h : RamOk s₀ r) {a : Nat} {bs : List Byte} {psn : Bool} : RamOk s₀ (r.store a bs psn) :=
  fun g => Ram.wf_store a bs psn (h g)
theorem RamOk.setMark (h : RamOk s₀ r) {w : Nat} {m : Mark} : RamOk s₀ (r.setMark w m) := fun g => Ram.wf_setMark w m (h g)
theorem RamOk.storeCells (h : RamOk s₀ r) {cs : List Host.Cell} {psn : List Nat} : RamOk s₀ (r.storeCells cs psn) :=
  fun g => Ram.wf_storeCells cs psn (h g)
theorem RamOk.clear (h : RamOk s₀ r) {a n : Nat} : RamOk s₀ (r.clear a n) := fun g => Ram.wf_clear a n (h g)
theorem RamOk.merge (h : RamOk s₀ r) {d : Ram} : RamOk s₀ (r.merge d) := fun g => Ram.wf_merge d (h g)
theorem RamOk.withBanks (h : RamOk s₀ r) {b : Banks} {level rows : Nat} : RamOk s₀ (r.withBanks b level rows) :=
  fun g => Ram.wf_withBanks b level rows (h g)
theorem RamOk.written (h : RamOk s₀ r) {gs : List Nat} {base : Int} : RamOk s₀ (r.written gs base) :=
  fun g => Ram.wf_written gs base (h g)
theorem RamOk.restored (h : RamOk s₀ r) : RamOk s₀ r.restored := fun g => Ram.wf_restored (h g)
theorem RamOk.hostLeft (h : RamOk s₀ s.host) : RamOk s₀ s.hostLeft := fun g => State.wf_hostLeft (h g)
theorem RamOk.foldl {α : Type} {f : Ram → α → Ram} {l : List α} (h : RamOk s₀ r) (hf : ∀ r x, RamOk s₀ r → RamOk s₀ (f r x)) :
    RamOk s₀ (l.foldl f r) := by
  induction l generalizing r with
  | nil => exact h
  | cons x l ih => exact ih (hf r x h)

/-- A fold over a core that leaves its scratchpad canonical. -/
theorem RamOk.foldlCore {α : Type} {f : Core → α → Core} {l : List α} {k : Core} (h : RamOk s₀ k.scratch)
    (hf : ∀ k x, RamOk s₀ k.scratch → RamOk s₀ (f k x).scratch := by exact fun _ _ h => h) : RamOk s₀ (l.foldl f k).scratch := by
  induction l generalizing k with
  | nil => exact h
  | cons x l ih => exact ih (hf k x h)

/-! #### Stores of cores, clusters and tasks -/

theorem mem_set {α : Type} [DecidableEq α] {d : α} {m : Store α} {k : Nat} {v : α} {x : Nat × α} (h : x ∈ Store.set d m k v) :
    x = (k, v) ∨ x ∈ m := by
  unfold Store.set at h
  split at h
  · exact .inr (Store.mem_erase h).1
  · exact (Store.mem_insert h).imp id fun h => (Store.mem_erase h).1

theorem get_cases {α : Type} (d : α) (m : Store α) (k : Nat) : Store.get d m k = d ∨ ∃ x ∈ m, Store.get d m k = x.2 := by
  induction m with
  | nil => exact .inl rfl
  | cons p m ih =>
    unfold Store.get
    split
    · exact .inr ⟨_, List.mem_cons_self, rfl⟩
    · exact ih.imp id fun ⟨x, hx, e⟩ => ⟨x, List.mem_cons_of_mem _ hx, e⟩

/-- A core's scratchpad is canonical, listed or not. -/
theorem Keeps.scratch (h : Keeps s₀ s) {c : Nat} : RamOk s₀ (s.getCore c).scratch := by
  rcases get_cases {} s.cores c with e | ⟨x, hx, e⟩
  · rw [State.getCore, e]; exact RamOk.empty
  · rw [State.getCore, e]; exact h.cores hx

theorem Keeps.cm (h : Keeps s₀ s) {c : Nat} : RamOk s₀ (s.getCluster c).cm := by
  rcases get_cases {} s.clusters c with e | ⟨x, hx, e⟩
  · rw [State.getCluster, e]; exact RamOk.empty
  · rw [State.getCluster, e]; exact h.clusters hx

theorem Keeps.task (h : Keeps s₀ s) {i : Nat} : TaskOk s₀ (s.getTask i) := by
  rcases get_cases {} s.tasks i with e | ⟨x, hx, e⟩
  · rw [State.getTask, e]; exact fun _ => rfl
  · rw [State.getTask, e]; exact h.tasks hx

theorem Keeps.setCore (h : Keeps s₀ s) {c : Nat} {k : Core} (hk : RamOk s₀ k.scratch) : Keeps s₀ (s.setCore c k) :=
  h.withCores fun x hx => by
    rcases mem_set hx with rfl | hx
    · exact hk
    · exact h.cores hx

/-- A change of a core that leaves its scratchpad canonical; most leave it alone. -/
theorem Keeps.modCore (h : Keeps s₀ s) {c : Nat} {f : Core → Core}
    (hf : ∀ k, RamOk s₀ k.scratch → RamOk s₀ (f k).scratch := by exact fun _ h => h) : Keeps s₀ (s.modCore c f) :=
  h.setCore (hf _ h.scratch)
theorem Keeps.modCur (h : Keeps s₀ s) {f : Core → Core}
    (hf : ∀ k, RamOk s₀ k.scratch → RamOk s₀ (f k).scratch := by exact fun _ h => h) : Keeps s₀ (s.modCur f) := h.modCore hf
theorem Keeps.modQ (h : Keeps s₀ s) {f : Seq → Seq} : Keeps s₀ (s.modQ f) := h.modCur

theorem Keeps.modCluster (h : Keeps s₀ s) {c : Nat} {f : Cluster → Cluster}
    (hf : ∀ k, RamOk s₀ k.cm → RamOk s₀ (f k).cm := by exact fun _ h => h) : Keeps s₀ (s.modCluster c f) :=
  h.withClusters fun x hx => by
    rcases mem_set hx with rfl | hx
    · exact hf _ h.cm
    · exact h.clusters hx

theorem Keeps.modTask (h : Keeps s₀ s) {i : Nat} {f : Task → Task}
    (hf : ∀ k, TaskOk s₀ k → TaskOk s₀ (f k) := by exact fun _ h => h) : Keeps s₀ (s.modTask i f) :=
  h.withTasks fun x hx => by
    rcases mem_set hx with rfl | hx
    · exact hf _ h.task
    · exact h.tasks hx

/-- A change of every listed task, core or cluster. -/
theorem Keeps.mapTasks (h : Keeps s₀ s) {f : Nat × Task → Nat × Task}
    (hf : ∀ x, TaskOk s₀ x.2 → TaskOk s₀ (f x).2 := by exact fun _ h => h) : Keeps s₀ { s with tasks := s.tasks.map f } :=
  h.withTasks fun x hx => by
    obtain ⟨y, hy, rfl⟩ := List.mem_map.mp hx
    exact hf y (h.tasks hy)

theorem Keeps.mapCores (h : Keeps s₀ s) {f : Nat × Core → Nat × Core}
    (hf : ∀ x, RamOk s₀ x.2.scratch → RamOk s₀ (f x).2.scratch := by exact fun _ h => h) : Keeps s₀ { s with cores := s.cores.map f } :=
  h.withCores fun x hx => by
    obtain ⟨y, hy, rfl⟩ := List.mem_map.mp hx
    exact hf y (h.cores hy)

theorem Keeps.mapClusters (h : Keeps s₀ s) {f : Nat × Cluster → Nat × Cluster}
    (hf : ∀ x, RamOk s₀ x.2.cm → RamOk s₀ (f x).2.cm := by exact fun _ h => h) : Keeps s₀ { s with clusters := s.clusters.map f } :=
  h.withClusters fun x hx => by
    obtain ⟨y, hy, rfl⟩ := List.mem_map.mp hx
    exact hf y (h.clusters hy)

/-- The contexts that a task holds, checkpoints included. -/
theorem savesWf_iff (k : Task) : k.savesWf = true ↔
    (∀ x ∈ k.saves, x.scratch.wf = true) ∧ ∀ c ∈ k.ckpts, ∀ x ∈ c.2.2.2, x.scratch.wf = true := by
  simp only [Task.savesWf, Bool.and_eq_true, List.all_eq_true]

theorem TaskOk.save {k : Task} (h : TaskOk s₀ k) {x : SavedCtx} (hx : x ∈ k.saves) : RamOk s₀ x.scratch :=
  fun g => ((savesWf_iff k).mp (h g)).1 x hx
theorem TaskOk.ckpt {k : Task} (h : TaskOk s₀ k) {c : Nat × Nat × Nat × List SavedCtx} (hc : c ∈ k.ckpts) {x : SavedCtx}
    (hx : x ∈ c.2.2.2) : RamOk s₀ x.scratch := fun g => ((savesWf_iff k).mp (h g)).2 c hc x hx
theorem TaskOk.of_parts {k : Task} (saves : ∀ x ∈ k.saves, RamOk s₀ x.scratch)
    (ckpts : ∀ c ∈ k.ckpts, ∀ x ∈ c.2.2.2, RamOk s₀ x.scratch) : TaskOk s₀ k :=
  fun g => (savesWf_iff k).mpr ⟨fun x hx => saves x hx g, fun c hc x hx => ckpts c hc x hx g⟩

theorem TaskOk.addSave {k : Task} (h : TaskOk s₀ k) {x : SavedCtx} (hx : RamOk s₀ x.scratch) :
    TaskOk s₀ { k with saves := k.saves ++ [x] } :=
  .of_parts (fun y hy => by
    rcases List.mem_append.mp hy with hy | hy
    · exact h.save hy
    · rw [List.mem_singleton.mp hy]; exact hx) fun _ hc _ hx => h.ckpt hc hx
theorem TaskOk.addCkpt {k : Task} (h : TaskOk s₀ k) {c : Nat × Nat × Nat × List SavedCtx} (hc : ∀ x ∈ c.2.2.2, RamOk s₀ x.scratch) :
    TaskOk s₀ { k with ckpts := k.ckpts ++ [c] } :=
  .of_parts (fun _ hx => h.save hx) fun d hd => by
    rcases List.mem_append.mp hd with hd | hd
    · exact fun _ hx => h.ckpt hd hx
    · rw [List.mem_singleton.mp hd]; exact hc
theorem TaskOk.filterSaves {k : Task} (h : TaskOk s₀ k) {p : SavedCtx → Bool} : TaskOk s₀ { k with saves := k.saves.filter p } :=
  .of_parts (fun _ hx => h.save (List.mem_filter.mp hx).1) fun _ hc _ hx => h.ckpt hc hx

/-- A change of each saved context that leaves its scratchpad canonical. -/
theorem TaskOk.mapSaves {k : Task} (h : TaskOk s₀ k) {f : SavedCtx → SavedCtx} (hf : ∀ x, RamOk s₀ x.scratch → RamOk s₀ (f x).scratch) :
    TaskOk s₀ { k with saves := k.saves.map f } :=
  .of_parts (fun x hx => by obtain ⟨y, hy, rfl⟩ := List.mem_map.mp hx; exact hf y (h.save hy)) fun _ hc _ hx => h.ckpt hc hx

/-! #### The agenda -/

theorem Named.nil : Named s₀ [] := fun _ => rfl
theorem Named.append {as bs : List Action} (ha : Named s₀ as) (hb : Named s₀ bs) : Named s₀ (as ++ bs) :=
  fun g => by rw [List.all_append, ha g, hb g]; rfl
theorem Named.map {α : Type} {l : List α} {f : α → Action} (hf : ∀ x, (f x).named = true := by exact fun _ => rfl) :
    Named s₀ (l.map f) := fun _ => by
  rw [List.all_map]; exact List.all_eq_true.mpr fun x _ => hf x
theorem Named.filter {as : List Action} {p : Action → Bool} (ha : Named s₀ as) : Named s₀ (as.filter p) :=
  fun g => List.all_eq_true.mpr fun x hx => List.all_eq_true.mp (ha g) x (List.mem_filter.mp hx).1
theorem Named.dropLast {as : List Action} (ha : Named s₀ as) : Named s₀ as.dropLast :=
  fun g => List.all_eq_true.mpr fun x hx => List.all_eq_true.mp (ha g) x (List.dropLast_subset as hx)
/-- The turns of cores that the device has. -/
theorem Named.turns {l : List Nat} (hl : ∀ c ∈ l, c < 72) : Named s₀ (l.map Action.seq) := fun _ => by
  rw [List.all_map]; exact List.all_eq_true.mpr fun c hc => decide_eq_true (hl c hc)
theorem mem_allCores {c : Nat} (h : c ∈ allCores) : c < 72 := List.mem_range.mp h
theorem Named.turnsOf {p : Nat → Bool} : Named s₀ ((allCores.filter p).map Action.seq) :=
  .turns fun _ h => mem_allCores (List.mem_filter.mp h).1
theorem Named.turn {c : Nat} (hc : c < 72) : Named s₀ [.seq c] := .turns fun _ hx => by rwa [List.mem_singleton.mp hx]
/-- Messages are events, which name no core. -/
theorem Named.messages {old new : Ram} {pa n : Nat} : Named s₀ (s.messages old new pa n) := fun _ =>
  List.all_eq_true.mpr fun x hx => by
    obtain ⟨_, _, hx⟩ := List.mem_flatMap.mp hx
    obtain ⟨_, _, rfl⟩ := List.mem_map.mp hx
    rfl
theorem Named.ite {c : Prop} [Decidable c] {as bs : List Action} (ha : Named s₀ as) (hb : Named s₀ bs) :
    Named s₀ (if c then as else bs) := by split <;> assumption

theorem Keeps.soon (h : Keeps s₀ s) {as : List Action} (ha : Named s₀ as := by exact fun _ => rfl) : Keeps s₀ (s.soon as) :=
  h.withAgenda (ha.append h.agenda)
theorem Keeps.later (h : Keeps s₀ s) {as : List Action} (ha : Named s₀ as := by exact fun _ => rfl) : Keeps s₀ (s.later as) := by
  unfold State.later
  split
  · exact h.withAgenda ((h.agenda.dropLast.append ha).append fun _ => rfl)
  · exact h.withAgenda (h.agenda.append ha)

/-! #### Branches and folds -/

theorem Keeps.ite {c : Prop} [Decidable c] (hs : Keeps s₀ s) (ht : Keeps s₀ t) : Keeps s₀ (if c then s else t) := by
  split <;> assumption

theorem Keeps.pair {α : Type} (h : Keeps s₀ s) {a : α} : Keeps s₀ (a, s).2 := h
theorem Keeps.ite_snd {α : Type} {c : Prop} [Decidable c] {x y : α × State} (hx : Keeps s₀ x.2) (hy : Keeps s₀ y.2) :
    Keeps s₀ (if c then x else y).2 := by
  split <;> assumption

theorem Keeps.foldl {α : Type} {f : State → α → State} {l : List α} (h : Keeps s₀ s)
    (hf : ∀ s x, Keeps s₀ s → Keeps s₀ (f s x)) : Keeps s₀ (l.foldl f s) := by
  induction l generalizing s with
  | nil => exact h
  | cons x l ih => exact ih (hf s x h)

/-- A fold that carries something beside the state. -/
theorem Keeps.foldl_snd {α β : Type} {f : β × State → α → β × State} {l : List α} {b : β} (h : Keeps s₀ s)
    (hf : ∀ x a, Keeps s₀ x.2 → Keeps s₀ (f x a).2) : Keeps s₀ (l.foldl f (b, s)).2 := by
  induction l generalizing s b with
  | nil => exact h
  | cons a l ih => exact ih (b := (f (b, s) a).1) (hf (b, s) a h)

theorem Keeps.foldl_fst {α β : Type} {f : State × β → α → State × β} {l : List α} {b : β} (h : Keeps s₀ s)
    (hf : ∀ x a, Keeps s₀ x.1 → Keeps s₀ (f x a).1) : Keeps s₀ (l.foldl f (s, b)).1 := by
  induction l generalizing s b with
  | nil => exact h
  | cons a l ih => exact ih (b := (f (s, b) a).2) (hf (s, b) a h)

/-- The state of a pair that an operation answers. -/
theorem Keeps.of_eq {α : Type} {x : α × State} {a : α} (h : Keeps s₀ x.2) (e : x = (a, t)) : Keeps s₀ t := by
  subst e; exact h

theorem RamOk.ite {c : Prop} [Decidable c] (hr : RamOk s₀ r) (hq : RamOk s₀ q) : RamOk s₀ (if c then r else q) := by
  split <;> assumption
theorem Goes.ite {c : Prop} [Decidable c] {x y : Result} (hx : Goes s₀ x) (hy : Goes s₀ y) : Goes s₀ (if c then x else y) := by
  split <;> assumption
theorem Goes.keeps {x : Result} (h : Goes s₀ x) (e : x = .next t) : Keeps s₀ t := by
  subst e; cases h; assumption
theorem Goes.answers {x : Result} (h : Goes s₀ x) : ∃ t, x = .next t := by cases h; exact ⟨_, rfl⟩

/-! #### Checks that may end in a trap, accesses of engines, paths of fabric accesses -/

/-- Where the checks pass, safety is kept. -/
def OkKeeps (s₀ : State) : Except Trap State → Prop
  | .ok t => Keeps s₀ t
  | .error _ => True

theorem OkKeeps.ok (h : Keeps s₀ s) : OkKeeps s₀ (.ok s) := h
theorem OkKeeps.pure (h : Keeps s₀ s) : OkKeeps s₀ (pure s) := h
theorem OkKeeps.error {x : Trap} : OkKeeps s₀ (.error x) := trivial
theorem OkKeeps.bind {α : Type} {x : Except Trap α} {f : α → Except Trap State} (hf : ∀ a, OkKeeps s₀ (f a)) :
    OkKeeps s₀ (x >>= f) := by
  cases x with
  | error t => exact trivial
  | ok a => exact hf a
theorem OkKeeps.ite {c : Prop} [Decidable c] {x y : Except Trap State} (hx : OkKeeps s₀ x) (hy : OkKeeps s₀ y) :
    OkKeeps s₀ (if c then x else y) := by split <;> assumption

/-- Whether an engine's access goes on, pauses or stops, safety is kept. -/
def EngKeeps {α : Type} (s₀ : State) : Eng α → Prop
  | .ok _ t => Keeps s₀ t
  | .hold f => ∀ t, Keeps s₀ t → Keeps s₀ (f t)
  | .stop _ t => Keeps s₀ t

section
variable {α β : Type} {x : Eng α}
theorem EngKeeps.ok {v : α} (h : Keeps s₀ s) : EngKeeps s₀ (.ok v s) := h
theorem EngKeeps.hold {f : State → State} (hf : ∀ t, Keeps s₀ t → Keeps s₀ (f t)) : EngKeeps (α := α) s₀ (.hold f) := hf
theorem EngKeeps.stop {y : Trap} (h : Keeps s₀ s) : EngKeeps (α := α) s₀ (.stop y s) := h
theorem EngKeeps.ite {c : Prop} [Decidable c] {y : Eng α} (hx : EngKeeps s₀ x) (hy : EngKeeps s₀ y) :
    EngKeeps s₀ (if c then x else y) := by split <;> assumption
theorem EngKeeps.andThen {f : α → State → Eng β} (hx : EngKeeps s₀ x) (hf : ∀ v t, Keeps s₀ t → EngKeeps s₀ (f v t)) :
    EngKeeps s₀ (x.andThen f) := by
  cases x with
  | ok v t => exact hf v t hx
  | hold g => exact hx
  | stop y t => exact hx
theorem EngKeeps.state {v : α} (h : EngKeeps s₀ x) (e : x = .ok v t) : Keeps s₀ t := by subst e; exact h
theorem EngKeeps.stopped {y : Trap} (h : EngKeeps s₀ x) (e : x = .stop y t) : Keeps s₀ t := by subst e; exact h
theorem EngKeeps.asks {f : State → State} (h : EngKeeps s₀ x) (e : x = .hold f) (ht : Keeps s₀ t) : Keeps s₀ (f t) := by
  subst e; exact h t ht
theorem EngKeeps.engFold {f : β → α → State → Eng β} {l : List α} {b : β} (h : Keeps s₀ s)
    (hf : ∀ b a t, Keeps s₀ t → EngKeeps s₀ (f b a t)) : EngKeeps s₀ (engFold f l b s) := by
  induction l generalizing b s with
  | nil => exact h
  | cons a l ih => exact (hf b a s h).andThen fun b t ht => ih ht
end

/-- Whether a fabric access has its place or waits, safety is kept. -/
def PathKeeps (s₀ : State) : FabricPath → Prop
  | .ok _ _ t => Keeps s₀ t
  | .hold t => Keeps s₀ t
  | .trap _ => True

theorem PathKeeps.ok {leaf : Word} {pa : Nat} (h : Keeps s₀ s) : PathKeeps s₀ (.ok leaf pa s) := h
theorem PathKeeps.hold (h : Keeps s₀ s) : PathKeeps s₀ (.hold s) := h
theorem PathKeeps.trap {x : Trap} : PathKeeps s₀ (.trap x) := trivial
theorem PathKeeps.state {p : FabricPath} {leaf : Word} {pa : Nat} (h : PathKeeps s₀ p) (e : p = .ok leaf pa t) : Keeps s₀ t := by
  subst e; exact h

/-- A word fetched with the state after it, or the state in which nothing is executed. -/
def WordKeeps (s₀ : State) : Except State (Nat × State) → Prop
  | .ok x => Keeps s₀ x.2
  | .error t => Keeps s₀ t

/-- The state with the words of an instruction, or the one in which nothing is executed. -/
def FetchKeeps (s₀ : State) : Except State State → Prop
  | .ok t => Keeps s₀ t
  | .error t => Keeps s₀ t

theorem WordKeeps.state {o : Except State (Nat × State)} {x : Nat × State} (h : WordKeeps s₀ o) (e : o = .ok x) : Keeps s₀ x.2 := by
  subst e; exact h
theorem WordKeeps.stopped {o : Except State (Nat × State)} (h : WordKeeps s₀ o) (e : o = .error t) : Keeps s₀ t := by subst e; exact h
theorem FetchKeeps.state {o : Except State State} (h : FetchKeeps s₀ o) (e : o = .ok t) : Keeps s₀ t := by subst e; exact h
theorem FetchKeeps.stopped {o : Except State State} (h : FetchKeeps s₀ o) (e : o = .error t) : Keeps s₀ t := by subst e; exact h

/-- A value with a state, if there is one. -/
def SomeKeeps {α : Type} (s₀ : State) : Option (α × State) → Prop
  | some x => Keeps s₀ x.2
  | none => True

/-- A result, if there is one. -/
def SomeGoes (s₀ : State) : Option Result → Prop
  | some r => Goes s₀ r
  | none => True

/-- A read that gives a value with a state, or ends the instruction. -/
def ReadKeeps {α : Type} (s₀ : State) : Except Result (α × State) → Prop
  | .ok x => Keeps s₀ x.2
  | .error r => Goes s₀ r

section
variable {α : Type} {x : α × State}
theorem SomeKeeps.some (h : Keeps s₀ x.2) : SomeKeeps s₀ (some x) := h
theorem SomeKeeps.none : SomeKeeps (α := α) s₀ none := trivial
theorem SomeKeeps.state {o : Option (α × State)} (h : SomeKeeps s₀ o) (e : o = Option.some x) : Keeps s₀ x.2 := by subst e; exact h
theorem SomeGoes.some {r : Result} (h : Goes s₀ r) : SomeGoes s₀ (some r) := h
theorem SomeGoes.none : SomeGoes s₀ none := trivial
theorem SomeGoes.result {o : Option Result} {r : Result} (h : SomeGoes s₀ o) (e : o = Option.some r) : Goes s₀ r := by subst e; exact h
theorem ReadKeeps.ok (h : Keeps s₀ x.2) : ReadKeeps s₀ (.ok x) := h
theorem ReadKeeps.error {r : Result} (h : Goes s₀ r) : ReadKeeps (α := α) s₀ (.error r) := h
theorem ReadKeeps.state {o : Except Result (α × State)} (h : ReadKeeps s₀ o) (e : o = .ok x) : Keeps s₀ x.2 := by subst e; exact h
theorem ReadKeeps.result {o : Except Result (α × State)} {r : Result} (h : ReadKeeps s₀ o) (e : o = .error r) : Goes s₀ r := by
  subst e; exact h
end

end Sys2Proof.Machine
end

/-! ### What each function of the model keeps

One lemma a function, in the order of the model's files: the state it answers keeps safety where the state it is given does. -/

section
namespace Sys2Proof.Machine

-- One theorem after another: each thread of the elaborator takes the stack that the check gives it.
set_option Elab.async false

variable {s₀ s t : State}

/-! #### Machine/Ops -/

theorem Keeps.modPart (h : Keeps s₀ s) {p : Nat} {f : Part → Part} : Keeps s₀ (s.modPart p f) := h.same
theorem Keeps.modStamp (h : Keeps s₀ s) {i : Nat} {f : Stamp → Stamp} : Keeps s₀ (s.modStamp i f) := h.same
theorem Keeps.modCopy (h : Keeps s₀ s) {i c : Nat} {f : Copy → Copy} : Keeps s₀ (s.modCopy i c f) := h.modStamp
theorem Keeps.send (h : Keeps s₀ s) {o : Out} : Keeps s₀ (s.send o) := h.same
theorem Keeps.free_snd (h : Keeps s₀ s) : Keeps s₀ s.free.2 := h.same
theorem Keeps.chosen (h : Keeps s₀ s) : Keeps s₀ s.chosen := h.same
theorem Keeps.setG (h : Keeps s₀ s) {r : Reg} {v : Word} {psn : Bool} : Keeps s₀ (s.setG r v psn) := h.modQ
theorem Keeps.advance (h : Keeps s₀ s) {n : Nat} : Keeps s₀ (s.advance n) := h.modQ
theorem Keeps.goto (h : Keeps s₀ s) {a : Word} : Keeps s₀ (s.goto a) := h.modQ
theorem Keeps.setWait (h : Keeps s₀ s) {w : Wait} : Keeps s₀ (s.setWait w) := h.modQ
theorem Keeps.poll (h : Keeps s₀ s) : Goes s₀ s.poll := .next h.setWait
theorem Keeps.result (h : Keeps s₀ s) {d : Reg} {v : Word} {psn : Bool} {n : Nat} : Keeps s₀ (s.result d v psn n) := h.setG.advance
theorem Keeps.setIsl (h : Keeps s₀ s) {i : Nat} {w : Word} : Keeps s₀ (s.setIsl i w) := h.same
theorem Keeps.present (h : Keeps s₀ s) {order : Nat} {e : Event} : Keeps s₀ (s.present order e) := h.same

theorem Keeps.audited (h : Keeps s₀ s) {e : Ev} {k : State → State} (hk : ∀ t, Keeps s₀ t → Keeps s₀ (k t)) :
    Keeps s₀ (s.audited e k) :=
  .ite h.same (hk _ h)

theorem Keeps.trace (h : Keeps s₀ s) {c k unit node : Nat} {d0 d1 d2 d3 : Word} : Keeps s₀ (s.trace c k unit node d0 d1 d2 d3) :=
  .ite h.present h

theorem Keeps.holdTrap (h : Keeps s₀ s) {c order : Nat} {t : Trap} : Keeps s₀ (s.holdTrap c order t) := h.modCore

theorem Keeps.trapPart (h : Keeps s₀ s) {p order : Nat} {t : Trap} : Keeps s₀ (s.trapPart p order t) := by
  unfold State.trapPart
  refine (h.foldl fun s c h => h.holdTrap.ite h).mapTasks fun x h => ?_
  dsimp only
  split
  · exact h.mapSaves fun _ h => h
  · exact h

theorem Keeps.charge (h : Keeps s₀ s) {p n order : Nat} : Keeps s₀ (s.charge p n order) := by
  unfold State.charge
  extract_lets _ _ _ s1 s2
  have h1 : Keeps s₀ s1 := h.modPart
  have h2 : Keeps s₀ s2 := h1.present
  exact .ite (.ite h2.trapPart h2) h1

theorem Keeps.faultMember (h : Keeps s₀ s) {c : Nat} {t : Trap} : Keeps s₀ (s.faultMember c t) := by
  unfold State.faultMember
  extract_lets k b q s1 s2
  have hk : RamOk s₀ k.scratch := h.scratch
  have h1 : Keeps s₀ s1 := h.setCore (by exact hk)
  have h2 : Keeps s₀ s2 := h1.present
  exact .ite h2 h2.soon

theorem Keeps.enterHandler (h : Keeps s₀ s) {c : Nat} {t : Trap} {epc : Word} : Keeps s₀ (s.enterHandler c t epc) := h.modCore.trace

theorem Keeps.trapAt (h : Keeps s₀ s) {c : Nat} {t : Trap} {epc : Word} : Keeps s₀ (s.trapAt c t epc) :=
  .ite h.enterHandler h.faultMember

theorem Keeps.trap (h : Keeps s₀ s) {t : Trap} : Keeps s₀ (s.trap t) := h.trapAt
theorem Keeps.trapReturn (h : Keeps s₀ s) : Keeps s₀ s.trapReturn := h.modQ

theorem Keeps.finish (h : Keeps s₀ s) {x : Except Trap State} (hx : OkKeeps s₀ x) : Goes s₀ (finish s x) := by
  cases x with
  | ok t => exact .next hx
  | error t => exact .next h.trap

/-! #### Machine/Translate -/

theorem Keeps.touchLine (h : Keeps s₀ s) {alloc : Bool} {mask : BitVec 16} {lpi : Nat} {leaf : Word} {line : Nat} :
    Keeps s₀ (s.touchLine alloc mask lpi leaf line) :=
  h.same

theorem Keeps.touchL2 (h : Keeps s₀ s) {p : Nat} {leaf : Word} {pa : Nat} : Keeps s₀ (s.touchL2 p leaf pa) := h.touchLine
theorem Keeps.touchOwn (h : Keeps s₀ s) {pa : Nat} : Keeps s₀ (s.touchOwn pa) := h.touchLine
theorem Keeps.touchWalk (h : Keeps s₀ s) {p va : Nat} : Keeps s₀ (s.touchWalk p va) := .ite (h.foldl fun _ _ h => h.touchOwn) h

theorem Keeps.dropL1 (h : Keeps s₀ s) {cs : Nat → Bool} {p : L1Line → Bool} : Keeps s₀ (s.dropL1 cs p) := by
  refine h.mapCores fun x h => ?_
  split <;> exact h

theorem Keeps.noteFill (h : Keeps s₀ s) {c : Nat} {e : TlbEntry} : Keeps s₀ (s.noteFill c e) := by
  unfold State.noteFill
  extract_lets _ _ _ s1
  have h1 : Keeps s₀ s1 := h.dropL1.ite h
  exact .ite h1.same h

theorem setTlb_scratch (k : Core) (l : List TlbEntry) (sel : TlbSel) : (k.setTlb l sel).scratch = k.scratch := by cases sel <;> rfl

theorem Keeps.setTlb (h : Keeps s₀ s) {c : Nat} {l : List TlbEntry} {sel : TlbSel} : Keeps s₀ (s.modCore c fun k => k.setTlb l sel) :=
  h.modCore fun k hk => by rw [setTlb_scratch]; exact hk

theorem Keeps.xlate_snd (h : Keeps s₀ s) {c : Nat} {sel : TlbSel} {p : Nat} {va : Word} {kind : Nat} :
    Keeps s₀ (s.xlate c sel p va kind).2 := by
  unfold State.xlate
  extract_lets _ _ _ s1
  have h1 : Keeps s₀ s1 := h.touchWalk
  split
  · exact .ite_snd (.ite_snd h.pair h.pair) h.pair
  · split
    · exact h1
    · exact .ite_snd h1.setTlb.noteFill.pair h1.pair

theorem Keeps.queueOne (h : Keeps s₀ s) : Keeps s₀ s.queueOne := by
  unfold State.queueOne
  extract_lets
  refine .ite h ?_
  split
  · exact h
  · exact (h.withSaiga h.saiga.store).same

theorem Keeps.pageRequest (h : Keeps s₀ s) {src : ReqSrc} {va : Word} {part core unit kind : Nat} :
    Keeps s₀ (s.pageRequest src va part core unit kind) :=
  h.same.queueOne

/-! #### Machine/Access -/

theorem Keeps.fillL1 (h : Keeps s₀ s) {c line : Nat} {cc : Bool} : Keeps s₀ (s.fillL1 c line cc) := by
  unfold State.fillL1
  extract_lets _ _ s1
  have h1 : Keeps s₀ s1 := h.modCore
  split
  · exact h1
  · refine .ite (.ite h1.same h1) ?_
    split
    · exact .ite h1.same h1
    · exact .ite h1.same h1
    · exact h1

theorem Keeps.touchDir (h : Keeps s₀ s) {c : Nat} {leaf : Word} {pa : Nat} {write ro : Bool} :
    Keeps s₀ (s.touchDir c leaf pa write ro) := by
  unfold State.touchDir
  split
  · exact .ite h.same h
  · exact h

theorem Keeps.touch (h : Keeps s₀ s) {c p : Nat} {leaf : Word} {pa : Nat} {write : Bool} : Keeps s₀ (s.touch c p leaf pa write) := by
  unfold State.touch
  extract_lets _ s1 _ _ _ s2
  have h1 : Keeps s₀ s1 := (h.touchL2.ite h).touchDir
  have h2 : Keeps s₀ s2 := h1.dropL1
  exact .ite h1 (.ite (.ite h2 h2.fillL1) h1.fillL1)

theorem Keeps.touchHome (h : Keeps s₀ s) {c p : Nat} {leaf : Word} {pa : Nat} {write : Bool} :
    Keeps s₀ (s.touchHome c p leaf pa write) := by
  unfold State.touchHome
  extract_lets s1
  have h1 : Keeps s₀ s1 := h.touchL2.touchDir
  exact .ite h1.dropL1 h1

theorem Keeps.logValue (h : Keeps s₀ s) {b : Binding} {stream : Nat} {v : Word} {psn : Bool} : Keeps s₀ (s.logValue b stream v psn) :=
  h.modPart.modTask

theorem Keeps.recordOn (h : Keeps s₀ s) {c stream frame : Nat} {v : Word} {psn : Bool} :
    Keeps s₀ (s.recordOn c stream frame v psn) := by
  unfold State.recordOn
  extract_lets _ _ _ s1
  have h1 : Keeps s₀ s1 := h.trace
  exact .ite (.ite h.logValue (.ite h1.logValue.modPart.soon h1.modPart)) h

theorem Keeps.replayed (h : Keeps s₀ s) {c stream : Nat} : SomeKeeps s₀ (s.replayed c stream) := by
  unfold State.replayed
  split
  · split
    · exact .some h.modCore.pair
    · exact .none
  · exact .none

theorem Keeps.replayOver (h : Keeps s₀ s) {c : Nat} : Keeps s₀ (s.replayOver c) := h.modCore

theorem Keeps.enterAs_snd (h : Keeps s₀ s) {c stream : Nat} {v : Word} {psn : Bool} : Keeps s₀ (s.enterAs c stream v psn).2 := by
  unfold State.enterAs
  split
  · rename_i e1
    exact h.replayed.state e1
  · exact .ite h h.recordOn

theorem Keeps.enter_snd (h : Keeps s₀ s) {c : Nat} {v : Word} : Keeps s₀ (s.enter c v).2 := h.enterAs_snd

theorem Keeps.askHalves (h : Keeps s₀ s) {place : Place} {write : Bool} {hs : List Nat} : Keeps s₀ (s.askHalves place write hs) := by
  unfold State.askHalves
  refine h.foldl fun s x h => ?_
  extract_lets
  refine .ite h ?_
  split
  · exact .ite h h.same
  · exact .ite h.same (.ite h h.same)

theorem Keeps.failStore (h : Keeps s₀ s) {c : Nat} {va : Word} {refused : Bool} : Keeps s₀ (s.failStore c va refused) := h.modCore

theorem Keeps.seqConflict (h : Keeps s₀ s) {s1 : State} {va : Word} {fetch : Bool} (hs1 : Keeps s₀ s1) :
    Goes s₀ (s.seqConflict s1 va fetch) :=
  .ite (.next h.trap) (.next hs1.setWait)

theorem Keeps.seqAccess (h : Keeps s₀ s) {va : Word} {n kind : Nat} {k : State → Word → Nat → Result}
    (hk : ∀ t x1 x2, Keeps s₀ t → Goes s₀ (k t x1 x2)) : Goes s₀ (seqAccess va n kind s k) := by
  unfold Machine.seqAccess
  refine .ite (.next h.trap) ?_
  split
  · rename_i e1
    exact h.seqConflict (h.xlate_snd.of_eq e1)
  · rename_i e2
    exact .next (h.xlate_snd.of_eq e2).pageRequest.setWait
  · rename_i e3
    exact .ite (hk _ _ _ (h.xlate_snd.of_eq e3).setWait) (.next h.trap)

theorem Keeps.noteBad (h : Keeps s₀ s) {part c : Nat} {m : Mark} {pa n : Nat} : Keeps s₀ (s.noteBad part c m pa n) := by
  unfold State.noteBad
  extract_lets s1
  have h1 : Keeps s₀ s1 := h.ite h.present
  exact .ite (.ite h1.soon h1) h

theorem Keeps.keepClean (h : Keeps s₀ s) {cl : Nat} {leaf : Word} {pa : Nat} {bs : List Byte} :
    Keeps s₀ (s.keepClean cl leaf pa bs) := by
  unfold State.keepClean
  extract_lets _ s1
  have h1 : Keeps s₀ s1 := h.chosen
  exact .ite (.ite h1.modCluster h1) h

theorem Keeps.freeBytes_snd (h : Keeps s₀ s) {n : Nat} : Keeps s₀ (s.freeBytes n).2 :=
  h.foldl_snd fun _ _ h => h.same

theorem Keeps.dropEarly (h : Keeps s₀ s) {c pa n : Nat} : Keeps s₀ (s.dropEarly c pa n) := h.modCore
theorem Keeps.dropSlots (h : Keeps s₀ s) {c : Nat} : Keeps s₀ (s.dropSlots c) := h.modCore
theorem Keeps.noEarly (h : Keeps s₀ s) {c : Nat} : Keeps s₀ (s.noEarly c) := h.modCore

theorem Keeps.readWaits (h : Keeps s₀ s) {va leaf : Word} {pa n : Nat} : SomeGoes s₀ (s.readWaits va leaf pa n) := by
  unfold State.readWaits
  split
  · split
    · exact .some h.poll
    · split
      · exact .none
      · exact .some h.askHalves.poll
  · split
    · exact .some (.next h.trap)
    · split
      · exact .some h.poll
      · split
        · exact .none
        · exact .some h.askHalves.poll
  · split
    · exact .none
    · split
      · exact .some (.next h.setWait.send)
      · exact .some (.next h.trap)
  · exact .some (.next h.trap)

theorem Keeps.readNow (h : Keeps s₀ s) {va leaf : Word} {pa n : Nat} : ReadKeeps s₀ (s.readNow va leaf pa n) := by
  unfold State.readNow
  split
  · extract_lets _ _ _ s1
    have h1 : Keeps s₀ s1 := (h.foldl fun _ _ h => h.noteBad).charge.foldl fun _ _ h => h.touch
    split
    · exact .error (.next h1.trap)
    · exact .ok h1.pair
  · exact .ok (h.foldl fun _ _ h => h.touch).pair
  · exact .ok h.freeBytes_snd
  · exact .error (.next h.trap)

theorem Keeps.loadFrom (h : Keeps s₀ s) {rd : Reg} {signed : Bool} {va : Word} {n len : Nat} {acq : Option Scope}
    {after : State → State} {leaf : Word} {pa : Nat} (hafter : ∀ t, Keeps s₀ t → Keeps s₀ (after t)) :
    Goes s₀ (loadFrom rd signed va n len acq after s leaf pa) := by
  unfold Machine.loadFrom
  extract_lets _ s1 _ s2 _ _ _
  have h1 : Keeps s₀ s1 := h.dropEarly
  have h2 : Keeps s₀ s2 := h1.noteBad.charge
  split
  · split
    · rename_i e3
      exact .next (hafter _ (h.replayed.state e3).result)
    · exact .next h.replayOver
  · split
    · exact .ite (.next h.setWait.send) (.next h.trap)
    · refine .ite (.next h.trap) ?_
      refine .ite h.poll ?_
      refine .ite ?_ h.askHalves.poll
      split
      · rename_i e4
        exact .next (hafter _ (h.touch.enter_snd.of_eq e4).result)
    · exact .next h.trap
    · refine .ite h.poll ?_
      split
      · split
        · rename_i e5
          exact .next (hafter _ (h1.enter_snd.of_eq e5).result)
      · refine .ite (.ite (.next h2.trap) (.next (hafter _ h2.touch.keepClean.enterAs_snd.result))) ?_
        exact h.askHalves.poll

theorem Keeps.seqLoad (h : Keeps s₀ s) {rd : Reg} {signed : Bool} {va : Word} {n len : Nat} {acq : Option Scope} {after : State → State}
    (hafter : ∀ t, Keeps s₀ t → Keeps s₀ (after t)) : Goes s₀ (seqLoad rd signed va n len acq after s) :=
  h.seqAccess fun _ _ _ h => h.loadFrom fun _ h => hafter _ h

theorem Keeps.execEvEarlyLoad (h : Keeps s₀ s) {core pa n : Nat} : Goes s₀ (execEvEarlyLoad core pa n s) :=
  .ite (.next h) (.next h.dropEarly.modCore)

theorem Keeps.writeDirty (h : Keeps s₀ s) {cl part task pa : Nat} {bs : List Byte} {psn : Bool} :
    Keeps s₀ (s.writeDirty cl part task pa bs psn) :=
  h.modCluster

theorem Keeps.makeIrrevocable (h : Keeps s₀ s) {part task : Nat} : Keeps s₀ (s.makeIrrevocable part task) := h.modTask.modPart
theorem Keeps.onWay (h : Keeps s₀ s) {st : StoreReq} : Keeps s₀ (s.onWay st) := h.same
theorem Keeps.postHost (h : Keeps s₀ s) {leaf : Word} {st : StoreReq} : Keeps s₀ (s.postHost leaf st) := (h.askHalves.ite h).onWay

theorem Keeps.writeHost (h : Keeps s₀ s) {pa : Nat} {bs : List Byte} {hc : Bool} : Keeps s₀ (s.writeHost pa bs hc) :=
  (h.withHost h.host.store).same

theorem Keeps.sendReplica (h : Keeps s₀ s) {st : StoreReq} : Keeps s₀ (s.sendReplica st) := .ite h.soon h.onWay.send

theorem Keeps.storeOut (h : Keeps s₀ s) {slow : Bool} {va : Word} {n : Nat} {v : Word} {psn : Bool} {leaf : Word} {pa : Nat}
    {done : State → State} (hdone : ∀ t, Keeps s₀ t → Keeps s₀ (done t)) : Goes s₀ (storeOut slow va n v psn s leaf pa done) := by
  unfold Machine.storeOut
  extract_lets _ _ _ _ _ f1 s2 _ _
  have h1 : ∀ t, Keeps s₀ t → Keeps s₀ (f1 t) := fun _ h => h.charge.ite h
  have h2 : Keeps s₀ s2 := (h1 _ h).touch.modQ
  refine .ite (.next (hdone _ h)) ?_
  split
  · exact .next h.trap
  · extract_lets
    refine .ite (.next (hdone _ h.same.send.dropEarly.dropSlots)) ?_
    exact .next (hdone _ h.failStore.dropEarly.dropSlots)
  · refine .ite (.next (hdone _ h.failStore.dropEarly.dropSlots)) ?_
    exact .next (hdone _ h.makeIrrevocable.postHost.dropEarly.dropSlots)
  · refine .ite (.next h.trap) ?_
    refine .ite (.next h.trap) ?_
    refine .ite (.next h.trap) ?_
    refine .ite h.poll ?_
    split
    · refine .ite (.next (hdone _ (h1 _ h).charge.dropEarly.dropSlots)) ?_
      exact .next (hdone _ (h1 _ h).touch.writeDirty.dropEarly.dropSlots)
    · refine .ite ?_ h.askHalves.poll
      refine .ite (.next (hdone _ h2.dropEarly.dropSlots).sendReplica) ?_
      refine .ite ?_ (.next (hdone _ h2.dropEarly.dropSlots).soon)
      exact .next ((hdone _ h2.chosen.dropEarly.dropSlots).onWay.ite (hdone _ h2.chosen.dropEarly.dropSlots).soon)

theorem Keeps.seqStore (h : Keeps s₀ s) {slow : Bool} {va : Word} {n : Nat} {v : Word} {psn : Bool} {done : State → State}
    (hdone : ∀ t, Keeps s₀ t → Keeps s₀ (done t)) : Goes s₀ (seqStore slow va n v psn done s) :=
  h.seqAccess fun _ _ _ h => h.storeOut fun _ h => hdone _ h

/-! #### Machine/Derived -/

theorem Keeps.putSlot (h : Keeps s₀ s) {id n : Nat} {d : DSlot} : Keeps s₀ (s.putSlot id n d) := by
  unfold State.putSlot
  split
  · exact h
  · exact (h.withHbm h.hbm.write).same

theorem Keeps.setPending (h : Keeps s₀ s) {id : Nat} {f : List Nat → List Nat} : Keeps s₀ (s.setPending id f) := h.same
theorem Keeps.readUnit (h : Keeps s₀ s) {r : DRegion} {n : Nat} : Keeps s₀ (s.readUnit r n) := h.foldl fun _ _ h => h.noteBad.charge

theorem Keeps.unitDone (h : Keeps s₀ s) {id n : Nat} : Keeps s₀ (s.unitDone id n) := by
  unfold State.unitDone
  split
  · exact h
  · extract_lets _ _ s1 _ _
    have h1 : Keeps s₀ s1 := h.readUnit.putSlot.setPending
    exact .ite h.askHalves (.ite (h1.same.soon (Named.turnsOf.append fun _ => rfl)) h)

/-! #### Machine/Homes -/

theorem Keeps.writeLog (h : Keeps s₀ s) {p : Part} {r : LogRec} : Keeps s₀ (s.writeLog p r) := by
  unfold State.writeLog
  extract_lets _ s1
  have h1 : Keeps s₀ s1 := h.touchOwn.touchOwn
  exact .ite (h1.withHbm h.hbm.store) h

theorem Keeps.logLine (h : Keeps s₀ s) {part task line : Nat} : Keeps s₀ (s.logLine part task line) :=
  .ite h (.ite h.writeLog.modPart h.makeIrrevocable.modPart)

theorem Keeps.sealExhausted (h : Keeps s₀ s) {part core : Nat} {va : Word} {pa : Nat} : Keeps s₀ (s.sealExhausted part core va pa) :=
  .ite (h.ite h.modPart.present).pageRequest h

theorem Keeps.sealWrite (h : Keeps s₀ s) {part pa : Nat} : Keeps s₀ (s.sealWrite part pa) := .ite h.modPart h

theorem Keeps.homeWrite (h : Keeps s₀ s) {part task pa : Nat} {bs : List Byte} {psn : Bool} :
    Keeps s₀ (s.homeWrite part task pa bs psn) := by
  unfold State.homeWrite
  extract_lets s1
  have h1 : Keeps s₀ s1 := h.foldl fun _ _ h => h.logLine.sealWrite
  exact h1.withHbm h1.hbm.store

theorem Keeps.found (h : Keeps s₀ s) {line : Nat} : Keeps s₀ (s.found line) := .ite h.same h

theorem Keeps.startBuild (h : Keeps s₀ s) {us : List (Nat × Nat)} : Keeps s₀ (s.startBuild us) := by
  unfold State.startBuild
  refine h.foldl fun s x h => ?_
  split
  · exact h
  · exact h.putSlot.setPending

theorem Keeps.askFor (h : Keeps s₀ s) {x : Held} : Keeps s₀ (s.askFor x) := .ite h.askHalves h

theorem Keeps.hold (h : Keeps s₀ s) {x : Held} {part core : Nat} {va : Word} : Keeps s₀ (s.hold x part core va) := by
  unfold State.hold
  extract_lets _ s1 s2
  have h1 : Keeps s₀ s1 := h.askFor
  have h2 : Keeps s₀ s2 := h1.sealExhausted.ite h1
  exact h2.same

theorem Keeps.cast (h : Keeps s₀ s) {st : StoreReq} {holders : List Nat} : Keeps s₀ (s.cast st holders) := h.same

theorem Keeps.storeHere (h : Keeps s₀ s) {st : StoreReq} : Keeps s₀ (s.storeHere st) := by
  unfold State.storeHere
  extract_lets _ _ _ _ _ s1 _ s2 s3
  have h1 : Keeps s₀ s1 := h.charge
  have h3 : Keeps s₀ s3 := h.homeWrite.found.ite h.homeWrite
  refine .ite h.soon ?_
  split
  · split
    · exact h1.soon
    · exact h1.cast
  · cases s3.holdersOf st.pa with
    | nil => exact h3.startBuild.soon.ite (h3.soon (Named.messages.append fun _ => rfl))
    | cons c l => exact h3.cast.startBuild.soon.ite (h3.cast.soon (Named.messages.append Named.nil))

theorem Keeps.storeHost (h : Keeps s₀ s) {st : StoreReq} : Keeps s₀ (s.storeHost st) := .ite h.soon h.writeHost.send.soon
theorem Keeps.storeDo (h : Keeps s₀ s) {st : StoreReq} : Keeps s₀ (s.storeDo st) := .ite h.storeHost h.storeHere

theorem Keeps.execEvStoreAtHome (h : Keeps s₀ s) {st : StoreReq} : Goes s₀ (execEvStoreAtHome st s) :=
  .ite (.next h.soon) (.ite (.next h.same.send) (.ite (.next h.storeDo) (.next h.hold)))

theorem Keeps.execEvStoreOnWay (h : Keeps s₀ s) {st : StoreReq} : Goes s₀ (execEvStoreOnWay st s) :=
  .ite (.ite h.same.execEvStoreAtHome (.next h.askHalves)) (.next h)

theorem Keeps.rebuildLine (h : Keeps s₀ s) {line : Nat} : Keeps s₀ (s.rebuildLine line) := by
  unfold State.rebuildLine
  extract_lets
  refine Keeps.startBuild (h.foldl fun s x h => ?_)
  split
  · exact h.withHbm h.hbm.setMark.setMark
  · exact h

theorem Keeps.execEvSlotError (h : Keeps s₀ s) {line : Nat} : Goes s₀ (execEvSlotError line s) := .next h.rebuildLine
theorem Keeps.slotBad (h : Keeps s₀ s) {r : DRegion} {n : Nat} : Keeps s₀ (s.slotBad r n) := .ite h.noteBad.charge h

theorem Keeps.applyDelta (h : Keeps s₀ s) {m : Delta} {f : DRegion → DSlot → DSlot × Bool} : Keeps s₀ (s.applyDelta m f) := by
  unfold State.applyDelta
  split
  · exact h
  · extract_lets s1 _ _ s2
    have h1 : Keeps s₀ s1 := h.slotBad
    have h2 : Keeps s₀ s2 := h1.same.putSlot
    exact .ite h2.setPending h2

theorem Keeps.execEvSumDeltaMessage (h : Keeps s₀ s) {m : Delta} : Goes s₀ (execEvSumDeltaMessage m s) := .next h.applyDelta
theorem Keeps.execEvMaxDeltaMessage (h : Keeps s₀ s) {m : Delta} : Goes s₀ (execEvMaxDeltaMessage m s) := .next h.applyDelta
theorem Keeps.execEvBscaleDeltaMessage (h : Keeps s₀ s) {m : Delta} : Goes s₀ (execEvBscaleDeltaMessage m s) := .next h.applyDelta

theorem Keeps.execEvRescanComplete (h : Keeps s₀ s) {region slot : Nat} : Goes s₀ (execEvRescanComplete region slot s) :=
  .next h.unitDone

theorem Keeps.execEvRebuildComplete (h : Keeps s₀ s) {region slot : Nat} : Goes s₀ (execEvRebuildComplete region slot s) :=
  .next h.unitDone

theorem Keeps.dropClean (h : Keeps s₀ s) {cl : Nat} : Keeps s₀ (s.dropClean cl) := h.dropL1.modCluster
theorem Keeps.trapLate (h : Keeps s₀ s) {c : Nat} {t : Trap} {epc : Word} : Keeps s₀ (s.trapLate c t epc) := .ite h.modCore h.trapAt
theorem Keeps.policyTrap (h : Keeps s₀ s) {c : Nat} : Keeps s₀ (s.policyTrap c) := h.trapLate

theorem Keeps.complete (h : Keeps s₀ s) {a : AtomReq} {v : Word} {psn : Bool} : Keeps s₀ (s.complete a v psn) := by
  unfold State.complete
  extract_lets _ s1 s2 s3
  have h1 : Keeps s₀ s1 := h.enterAs_snd.modCore
  have h2 : Keeps s₀ s2 := h1.dropClean.ite h1
  have h3 : Keeps s₀ s3 := h2.noEarly.ite h2
  exact .ite h3.policyTrap h3

theorem Keeps.settlePosted (h : Keeps s₀ s) {core : Nat} {va : Word} : Keeps s₀ (s.settlePosted core va) := by
  unfold State.settlePosted
  split
  · exact h
  · exact h.same

theorem Keeps.execEvStoreAcknowledged (h : Keeps s₀ s) {st : StoreReq} {k : AckKind} : Goes s₀ (execEvStoreAcknowledged st k s) := by
  unfold Machine.execEvStoreAcknowledged
  extract_lets _ s1 s2
  have h1 : Keeps s₀ s1 := by
    dsimp only [s1]
    split
    · exact h.settlePosted
    · exact h
  have h2 : Keeps s₀ s2 := by
    dsimp only [s2]
    split
    · exact h1
    · exact .ite h1.failStore h1
    · exact .ite h1.failStore h1
  refine .next ?_
  split
  · exact .ite h2 (.ite h2.modCore (.ite h2.modCore h2))
  · exact h2.modCopy
  · exact .ite h2.modCore h2
  · exact h2.send
  · exact h2
  · exact h2.send
  · exact h2.send
  · exact h2
  · exact .ite h2.complete h2

theorem Keeps.missLine (h : Keeps s₀ s) {c pa : Nat} : Keeps s₀ (s.missLine c pa) := h.dropL1.modCluster

theorem Keeps.castAtom (h : Keeps s₀ s) {a : AtomReq} {bs : List Byte} {wpsn : Bool} {v : Word} {psn : Bool} {holders : List Nat} :
    Keeps s₀ (s.castAtom a bs wpsn v psn holders) :=
  h.cast

theorem Keeps.tellIssuer (h : Keeps s₀ s) {a : Answer} : Keeps s₀ (s.tellIssuer a) := by
  unfold State.tellIssuer
  split
  · exact h.complete
  · exact h.modCopy
  · exact h.send
  · exact h.send

theorem Keeps.execEvAnswered (h : Keeps s₀ s) {a : Answer} : Goes s₀ (execEvAnswered a s) := .next h.tellIssuer

theorem Keeps.afterMessages (h : Keeps s₀ s) {ms : List Action} {a : Answer} (hms : Named s₀ ms) :
    Keeps s₀ (s.afterMessages ms a) := by
  unfold State.afterMessages
  split
  · exact h.tellIssuer
  · exact h.soon (hms.append fun _ => rfl)

theorem Keeps.failAtom (h : Keeps s₀ s) {a : AtomReq} {t : Trap} : Keeps s₀ (s.failAtom a t) := h.modCore.trapLate

theorem Keeps.atomHere (h : Keeps s₀ s) {a : AtomReq} : Keeps s₀ (s.atomHere a) := by
  unfold State.atomHere
  extract_lets _ _ s1
  have h1 : Keeps s₀ s1 := h.noteBad
  refine .ite h.failAtom ?_
  split
  · exact h1.charge.failAtom
  · extract_lets s2 _ _ s3 _
    have h2 : Keeps s₀ s2 := h1.charge.missLine
    have h3 : Keeps s₀ s3 := h2.homeWrite
    refine .ite h2.charge.complete ?_
    split
    · exact h3.afterMessages Named.messages
    · exact h3.castAtom.soon Named.messages

theorem Keeps.execEvAtomicAtHome (h : Keeps s₀ s) {a : AtomReq} : Goes s₀ (execEvAtomicAtHome a s) :=
  .ite (.next h.atomHere) (.next h.hold)

theorem Keeps.redHere (h : Keeps s₀ s) {r : RedReq} : Keeps s₀ (s.redHere r) := by
  unfold State.redHere
  extract_lets _ _ _ _ _ _ s1 _ _ s2 _ _ s3 _
  have h1 : Keeps s₀ s1 := h.noteBad.charge
  have h2 : Keeps s₀ s2 := h1.modCopy.ite h1
  have h3 : Keeps s₀ s3 := h2.missLine.homeWrite
  refine .ite h.tellIssuer ?_
  refine .ite (h2.ite h2.charge).tellIssuer ?_
  split
  · exact h3.afterMessages Named.messages
  · exact h3.cast.soon Named.messages

theorem Keeps.redHost (h : Keeps s₀ s) {r : RedReq} : Keeps s₀ (s.redHost r) := .ite h.failStore.tellIssuer h.writeHost.send.tellIssuer
theorem Keeps.redDo (h : Keeps s₀ s) {r : RedReq} : Keeps s₀ (s.redDo r) := .ite h.redHost h.redHere
theorem Keeps.holdWay (h : Keeps s₀ s) {pa n : Nat} : Keeps s₀ (s.holdWay pa n) := h.same

theorem Keeps.redArrive (h : Keeps s₀ s) {r : RedReq} : Keeps s₀ (s.redArrive r) := by
  unfold State.redArrive
  extract_lets _ _ _ s1
  have h1 : Keeps s₀ s1 := h.holdWay.ite h
  exact .ite h1.redDo h1.hold

theorem Keeps.execEvReductionAtHome (h : Keeps s₀ s) {r : RedReq} : Goes s₀ (execEvReductionAtHome r s) := .next h.redArrive

theorem Keeps.undoHere (h : Keeps s₀ s) {r : LogRec} {part : Nat} : Keeps s₀ (s.undoHere r part) := by
  unfold State.undoHere
  extract_lets _ _ s1 _ s2 s3
  have h1 : Keeps s₀ s1 := h.sealWrite.dropL1
  have h2 : Keeps s₀ s2 := (h1.withHbm (h1.hbm.write.foldl fun _ _ h => h.setMark)).found
  have h3 : Keeps s₀ s3 := by
    dsimp only [s3]
    split
    · exact h2
    · exact h2.cast
  exact .ite h (.ite h3.startBuild (h3.soon Named.messages))

theorem Keeps.undoLine (h : Keeps s₀ s) {r : LogRec} {part : Nat} : Keeps s₀ (s.undoLine r part) := .ite h.undoHere h.hold

theorem Keeps.pushHere (h : Keeps s₀ s) {x : Push} : Keeps s₀ (s.pushHere x) := by
  unfold State.pushHere
  extract_lets _ s1 s2 s3
  have h1 : Keeps s₀ s1 := h.touchL2
  have h2 : Keeps s₀ s2 := (h1.foldl fun _ _ h => h.logLine).sealWrite
  have h3 : Keeps s₀ s3 := h2.withHbm h2.hbm.storeCells
  exact .ite h1 (.ite h1.charge (.ite h3.found h3))

theorem Keeps.pushLine (h : Keeps s₀ s) {x : Push} : Keeps s₀ (s.pushLine x) := .ite h.pushHere h.hold
theorem Keeps.push (h : Keeps s₀ s) {cl : Nat} {p : Nat → Bool} : Keeps s₀ (s.push cl p) := (h.foldl fun _ _ h => h.pushLine).modCluster

theorem Keeps.execEvCcEvictionPush (h : Keeps s₀ s) {cluster line : Nat} : Goes s₀ (execEvCcEvictionPush cluster line s) :=
  .next h.same.push.dropL1

/-! #### Machine/Integer -/

theorem Keeps.binary (h : Keeps s₀ s) {d a b : Reg} {f : Word → Word → Word} : Goes s₀ (binary d a b s f) := .next h.result
theorem Keeps.unary (h : Keeps s₀ s) {d a : Reg} {f : Word → Word} : Goes s₀ (unary d a s f) := .next h.result

/-! #### Machine/Scratch -/

theorem Keeps.useBank (h : Keeps s₀ s) {l : ScratchLoc} : Keeps s₀ (s.useBank l) := by
  unfold State.useBank
  split
  · exact h
  · exact .ite h h.same

theorem Keeps.serveBanks (h : Keeps s₀ s) : Keeps s₀ s.serveBanks := h.same
theorem Keeps.useBanks (h : Keeps s₀ s) {l : ScratchLoc} {n : Nat} : Keeps s₀ (s.useBanks l n) := h.foldl fun _ _ h => h.useBank
theorem Keeps.noteChip (h : Keeps s₀ s) {part c : Nat} {l : ScratchLoc} {n : Nat} : Keeps s₀ (s.noteChip part c l n) := .ite h.present h

theorem Keeps.noteGranule (h : Keeps s₀ s) {c g : Nat} : Keeps s₀ (s.noteGranule c g) := by
  unfold State.noteGranule
  refine h.modCore fun k h => ?_
  split <;> exact h

theorem storeBytes_cm {k : Cluster} (h : RamOk s₀ k.cm) {o : Nat} {bs : List Byte} {psn : Bool} : RamOk s₀ (k.storeBytes o bs psn).cm :=
  h.store.foldl fun _ _ h => h.write

theorem Keeps.bankStore (h : Keeps s₀ s) {l : ScratchLoc} {bs : List Byte} {psn : Bool} : Keeps s₀ (s.bankStore l bs psn) := by
  unfold State.bankStore
  split
  · exact (h.modCore fun k h => h.store).noteGranule
  · exact (h.modCluster fun k h => storeBytes_cm h).noteGranule
  · exact (h.withCp h.cp.store).same
  · exact h

theorem Keeps.seqSpillLoad (h : Keeps s₀ s) {rd : Reg} {va : Word} {n : Nat} : Goes s₀ (seqSpillLoad rd va n s) := by
  refine h.seqAccess fun t leaf pa h => h.loadFrom fun t h => ?_
  exact h

theorem Keeps.seqSpillStore (h : Keeps s₀ s) {va : Word} {n : Nat} {v : GReg} : Goes s₀ (seqSpillStore va n v s) :=
  h.seqAccess fun _ _ _ h => h.storeOut fun _ h => h.advance

theorem Keeps.seqScratchLoad (h : Keeps s₀ s) {level n : Nat} {rd : Reg} {off : Word} : Goes s₀ (seqScratchLoad level n rd off s) := by
  unfold Machine.seqScratchLoad
  refine .ite (.next h.trap) ?_
  split
  · exact .next h.trap
  · exact h.seqSpillLoad
  · extract_lets s1 _ s2
    have h1 : Keeps s₀ s1 := h.useBank
    have h2 : Keeps s₀ s2 := h1.noteChip.charge
    refine .ite h1.poll ?_
    split
    · extract_lets
      refine .ite (.next h2.trap) ?_
      split
      · rename_i e3
        exact .next ((h2.pair.ite_snd h2.enter_snd).of_eq e3).result

theorem Keeps.seqScratchStore (h : Keeps s₀ s) {level n : Nat} {v : GReg} {off : Word} : Goes s₀ (seqScratchStore level n v off s) := by
  unfold Machine.seqScratchStore
  refine .ite (.next h.trap) ?_
  split
  · exact .next h.trap
  · exact h.seqSpillStore
  · exact .ite (.next h.advance) (.ite h.useBank.poll (.next h.useBank.bankStore.advance))

/-! #### Machine/LoadStore -/

theorem Keeps.plainLoad (h : Keeps s₀ s) {signed : Bool} {n : Nat} {d a : Reg} {imm : BitVec 16} :
    Goes s₀ (plainLoad signed n d a imm s) := by
  unfold Machine.plainLoad
  split
  · exact .next h.trap
  · refine h.seqLoad fun t h => ?_
    exact h

theorem Keeps.plainStore (h : Keeps s₀ s) {n : Nat} {v a : Reg} {imm : BitVec 16} : Goes s₀ (plainStore n v a imm s) := by
  unfold Machine.plainStore
  split
  · exact .next h.trap
  · exact h.seqStore fun _ h => h.advance

theorem Keeps.execScratchLoad (h : Keeps s₀ s) {lv : Level} {z : Size} {d a : Reg} {off : BitVec 12} :
    Goes s₀ (execScratchLoad lv z d a off s) := by
  unfold Machine.execScratchLoad
  split
  · exact .next h.trap
  · exact h.seqScratchLoad

theorem Keeps.execScratchStore (h : Keeps s₀ s) {lv : Level} {z : Size} {v a : Reg} {off : BitVec 12} :
    Goes s₀ (execScratchStore lv z v a off s) := by
  unfold Machine.execScratchStore
  split
  · exact .next h.trap
  · exact h.seqScratchStore

/-! #### Machine/Order -/

theorem Keeps.release (h : Keeps s₀ s) {cl : Nat} {sc : Scope} : Keeps s₀ (s.release cl sc) := .ite h.push h

theorem Keeps.acquire (h : Keeps s₀ s) {c : Nat} {sc : Scope} : Keeps s₀ (s.acquire c sc) := by
  unfold State.acquire
  extract_lets s1
  have h1 : Keeps s₀ s1 := h.noEarly
  exact .ite h1.dropClean h1

theorem Keeps.noteDemoted (h : Keeps s₀ s) {sc : Scope} : Keeps s₀ (s.noteDemoted sc) := .ite h.modQ h

theorem Keeps.releasing (h : Keeps s₀ s) {sc : Scope} {k : State → Result} (hk : ∀ t, Keeps s₀ t → Goes s₀ (k t)) :
    Goes s₀ (s.releasing sc k) := by
  unfold State.releasing
  extract_lets s1
  have h1 : Keeps s₀ s1 := h.release
  exact .ite (.ite h1.poll (hk _ h1)) h.poll

theorem Keeps.strap (h : Keeps s₀ s) {on : Bool} : Keeps s₀ (s.strap on) := .ite h.policyTrap h

theorem Keeps.execLdAcq (h : Keeps s₀ s) {sc : Scope} {z : Size} {d a : Reg} : Goes s₀ (execLdAcq sc z d a s) := by
  unfold Machine.execLdAcq
  split
  · exact .next h.trap
  · exact h.seqLoad fun _ h => h.acquire.noteDemoted.strap

theorem Keeps.execStRel (h : Keeps s₀ s) {sc : Scope} {z : Size} {a b : Reg} : Goes s₀ (execStRel sc z a b s) := by
  unfold Machine.execStRel
  split
  · exact .next h.trap
  · extract_lets
    refine .ite (.next h.trap) ?_
    exact h.releasing fun _ h => h.seqStore fun _ h => h.noteDemoted.advance.strap

theorem Keeps.execFence (h : Keeps s₀ s) {sc : Scope} {d : Reg} : Goes s₀ (execFence sc d s) := by
  unfold Machine.execFence
  refine h.releasing fun t h => ?_
  extract_lets _ _ s1 _
  have h1 : Keeps s₀ s1 := h.acquire
  exact .next (h1.modQ.ite h1).result.strap

theorem Keeps.atomInL1 (h : Keeps s₀ s) {a : AtomReq} {leaf : Word} : Goes s₀ (atomInL1 a leaf s) := by
  unfold Machine.atomInL1
  extract_lets _ _ _ s1
  have h1 : Keeps s₀ s1 := h.noteBad.dropEarly.dropSlots
  split
  · exact .next h1.charge.trap
  · extract_lets s2 _ _
    have h2 : Keeps s₀ s2 := h1.charge
    exact .next (h2.charge.ite (h2.writeDirty.ite h2.homeWrite)).complete

/-- An operation, after a release where there is one. -/
theorem Keeps.releasingIf (h : Keeps s₀ s) {c : Bool} {sc : Scope} {k : State → Result} (hk : ∀ t, Keeps s₀ t → Goes s₀ (k t)) :
    Goes s₀ (if c then s.releasing sc k else k s) := by
  exact .ite (h.releasing hk) (hk _ h)

theorem Keeps.atomic (h : Keeps s₀ s) {op : AmoOp} {o : AmoOrd} {sc : Scope} {word : Bool} {d a b : Reg} :
    Goes s₀ (atomic op o sc word d a b s) := by
  unfold Machine.atomic
  extract_lets
  split
  · exact .next h.trap
  · refine .ite (.next h.trap) ?_
    refine h.releasingIf fun s h => h.seqAccess fun s leaf pa h => ?_
    extract_lets _ _ _ _ _ _ _ _ s1 _
    have h1 : Keeps s₀ s1 := h.dropEarly.dropSlots
    refine .ite (.next (h.complete.ite h.replayOver)) ?_
    split
    · exact .next h.trap
    · exact .ite (.next h.setWait.send) (.next h.trap)
    · exact .ite (.next h.trap) (.ite h.poll (.ite (.next h.touch.writeHost.send.makeIrrevocable.complete) h.askHalves.poll))
    · refine .ite (.next h.trap) (.ite (.next h.trap) (.ite (.next h.charge.trap) (.ite h.poll (.ite ?_ h.askHalves.poll))))
      refine .ite (.next h.setWait.send) (.ite (.ite h.poll h.touch.atomInL1) ?_)
      exact .next (h1.push.ite h1).touchHome.setWait.soon

theorem Keeps.await (h : Keeps s₀ s) {w : Wait} : Keeps s₀ (s.await w) := h.modCur.setWait
theorem Keeps.awake (h : Keeps s₀ s) : Keeps s₀ s.awake := h.modCur.setWait

/-! #### Machine/System -/

theorem Keeps.execSrr (h : Keeps s₀ s) {d : Reg} {n : BitVec 12} : Goes s₀ (execSrr d n s) := by
  unfold Machine.execSrr
  refine .ite (.next h.trap) ?_
  split
  · exact .next h.trap
  · exact .next (h.enter_snd.ite_snd h.pair).result

theorem Keeps.execSrw (h : Keeps s₀ s) {n : BitVec 12} {a : Reg} : Goes s₀ (execSrw n a s) := by
  unfold Machine.execSrw
  refine .ite (.next h.trap) ?_
  split
  · exact .next h.trap
  · refine .ite (.next h.trap) ?_
    split
    · exact .next h.trap
    · exact .next h.modQ.advance

theorem Keeps.execEvIllegalInstruction (h : Keeps s₀ s) {w : BitVec 32} : Goes s₀ (execEvIllegalInstruction w s) := .next h.trap

theorem Keeps.execEvAsyncTrapDelivery (h : Keeps s₀ s) {core : Nat} : Goes s₀ (execEvAsyncTrapDelivery core s) := by
  unfold Machine.execEvAsyncTrapDelivery
  extract_lets
  refine .ite ?_ (.next h)
  split
  · exact .next h
  · exact .next (h.setCore (by exact h.scratch)).trapAt

theorem Keeps.execLineReset (h : Keeps s₀ s) {a : Reg} : Goes s₀ (execLineReset a s) := by
  unfold Machine.execLineReset
  extract_lets _ f1
  have h1 : ∀ t, Keeps s₀ t → Keeps s₀ (f1 t) := fun _ h => h.modQ.setWait.present
  split
  · exact .next h.trap
  · refine .ite (.next h.trap) ?_
    refine .ite (.next h.trap) ?_
    refine .ite h.poll ?_
    refine h.seqAccess fun t x1 x2 h => ?_
    extract_lets _ _ s2
    have h2 : Keeps s₀ s2 := h.touchHome.dropEarly.dropSlots.modCluster
    refine .ite (.next h.advance) ?_
    split
    · exact .next h.trap
    · exact .ite (.next (h1 _ h.same).send) (.next h.failStore.present.advance)
    · exact .ite (.next h.failStore.present.advance) (.next (h1 _ h.makeIrrevocable).postHost)
    · refine .ite (.next h.trap) ?_
      exact .ite h.poll (.ite (.next ((h1 _ h2).sendReplica.ite (h1 _ h2).soon)) h.askHalves.poll)

/-! #### Machine/Barrier -/

theorem Keeps.barWrite (h : Keeps s₀ s) {cl off : Nat} {bs : List Byte} : Keeps s₀ (s.barWrite cl off bs) :=
  (h.modCluster fun _ h => h.store).noteGranule

theorem Keeps.tellFar (h : Keeps s₀ s) {cl off : Nat} {v : Option Word} : Keeps s₀ (s.tellFar cl off v) :=
  h.modCluster.foldl fun _ _ h => h.send

theorem Keeps.barRead_snd (h : Keeps s₀ s) {part k c cl off : Nat} : Keeps s₀ (s.barRead part k c cl off).2 := h.noteChip.charge

theorem Keeps.countArrival (h : Keeps s₀ s) {cl off key : Nat} : Keeps s₀ (s.countArrival cl off key) := by
  unfold State.countArrival
  extract_lets _ _ _ _ _ s1
  have h1 : Keeps s₀ s1 := h.barWrite.barWrite.modCluster
  exact .ite h1.tellFar h1

theorem Keeps.wake (h : Keeps s₀ s) {c : Nat} : Keeps s₀ (s.wake c) := h.modCore

theorem Keeps.arrive (h : Keeps s₀ s) {c cl off : Nat} : Keeps s₀ (s.arrive c cl off) := by
  unfold State.arrive
  extract_lets _ x1 _ _ _
  have h1 : Keeps s₀ x1.2 := h.barRead_snd
  exact .ite h1.wake.trapAt (.ite h1.wake.trapAt h1.modCore.countArrival)

theorem Keeps.recordLeave (h : Keeps s₀ s) {broken : Bool} : Keeps s₀ (s.recordLeave broken) := h.recordOn

theorem Keeps.leaveBar (h : Keeps s₀ s) {x : Word} {cl off gen : Nat} : Goes s₀ (s.leaveBar x cl off gen) := by
  unfold State.leaveBar
  extract_lets
  refine .ite (.next h.trace.recordLeave.acquire.awake.advance.strap) ?_
  exact .ite (.next h.recordLeave.awake.trap) (.next h.await)

theorem Keeps.leaveFar (h : Keeps s₀ s) {x : Word} {value : Option Word} : Goes s₀ (s.leaveFar x value) := by
  unfold State.leaveFar
  extract_lets s1
  have h1 : Keeps s₀ s1 := h.modQ
  split
  · exact .next h1.recordLeave.awake.trap
  · exact .next h1.trace.recordLeave.acquire.noteDemoted.awake.advance.strap

theorem Keeps.replayBar (h : Keeps s₀ s) {x : Word} : Goes s₀ (s.replayBar x) := by
  unfold State.replayBar
  split
  · exact .next h.replayOver
  · rename_i e1
    have h2 := h.replayed.state e1
    exact .ite (.next h.await) (.ite (.next h2.awake.trap) (.next h2.awake.advance))

theorem Keeps.execBar (h : Keeps s₀ s) {a : Reg} : Goes s₀ (execBar a s) := by
  unfold Machine.execBar
  split
  · split
    · exact h.leaveBar
    · exact .next h.await
  · refine .ite h.replayBar ?_
    split
    · exact h.leaveFar
    · exact .next h.await
  · exact .next h
  · split
    · exact .next h.trap
    · split
      · exact .next h.trap
      · refine .ite h.replayBar ?_
        split
        · extract_lets
          refine .ite (.next h.trap) ?_
          refine h.releasing fun t h => ?_
          extract_lets s1
          have h1 : Keeps s₀ s1 := h.noteDemoted
          exact .ite (.next h1.arrive) (.next h1.await.soon)
        · exact h.releasing fun _ h => .next h.await.send

theorem Keeps.execEvBarrierArrivalMessage (h : Keeps s₀ s) {who : Arriver} {handle : Word} :
    Goes s₀ (execEvBarrierArrivalMessage who handle s) := by
  unfold Machine.execEvBarrierArrivalMessage
  split
  · split
    · refine .ite ?_ (.next h)
      split
      · exact .next h.arrive
      · exact .next h
    · exact .next h
  · extract_lets _ _ _ x1 _
    have h1 : Keeps s₀ x1.2 := h.barRead_snd
    exact .ite (.next h.send) (.ite (.next h1.modCluster.countArrival) (.next h1.send))

theorem Keeps.initBar (h : Keeps s₀ s) {cl off scope count : Nat} : Keeps s₀ (s.initBar cl off scope count) := h.barWrite.modCluster

theorem Keeps.execEvFarBarInit (h : Keeps s₀ s) {pkg task memb : Nat} {handle : Word} {scope count : Nat} :
    Goes s₀ (execEvFarBarInit pkg task memb handle scope count s) :=
  .ite (.next h.initBar.send) (.next h.send)

theorem Keeps.execBarInit (h : Keeps s₀ s) {sc : Scope} {a b : Reg} : Goes s₀ (execBarInit sc a b s) := by
  unfold Machine.execBarInit
  split
  · exact .next h
  · extract_lets
    split
    · exact .next h.trap
    · split
      · exact .next h.trap
      · refine .ite (.next h.advance) ?_
        split
        · exact .next h.initBar.advance
        · exact .next h.setWait.send

theorem Keeps.breakBar (h : Keeps s₀ s) {cl off : Nat} : Keeps s₀ (s.breakBar cl off) := h.barWrite.tellFar

theorem Keeps.breakFor (h : Keeps s₀ s) {key : Nat} : Keeps s₀ (s.breakFor key) :=
  h.foldl fun _ _ h => h.foldl fun _ _ h => h.breakBar.ite h

theorem Keeps.tell (h : Keeps s₀ s) {task memb : Nat} {n : GangNews} : Keeps s₀ (s.tell task memb n) := .ite h h.send

theorem Keeps.noteGone (h : Keeps s₀ s) {task memb : Nat} {coll : List ((Nat × Nat) × Nat)} : Keeps s₀ (s.noteGone task memb coll) :=
  h.breakFor.modTask

theorem Keeps.execEvMemberGone (h : Keeps s₀ s) {task memb : Nat} : Goes s₀ (execEvMemberGone task memb s) := .next h.noteGone.tell

/-! #### Machine/Tasks -/

theorem Keeps.freeHandle (h : Keeps s₀ s) {i c x : Nat} : Keeps s₀ (s.freeHandle i c x) := by
  unfold State.freeHandle
  refine h.modCore fun k h => ?_
  split
  · split <;> exact h
  · exact h

theorem Keeps.freeStamp (h : Keeps s₀ s) {i : Nat} : Keeps s₀ (s.freeStamp i) := by
  unfold State.freeStamp
  extract_lets _ s1
  have h1 : Keeps s₀ s1 := h.freeHandle.foldl fun _ _ h => h.freeHandle
  exact h1.same

theorem Keeps.freeStampsOf (h : Keeps s₀ s) {task memb : Nat} : Keeps s₀ (s.freeStampsOf task memb) := h.foldl fun _ _ h => h.freeStamp
theorem Keeps.scrubCopies (h : Keeps s₀ s) {c : Nat} : Keeps s₀ (s.scrubCopies c) := h.same

theorem Keeps.applyOos (h : Keeps s₀ s) {c : Nat} : Keeps s₀ (s.applyOos c) := by
  unfold State.applyOos
  split
  · extract_lets _ s1
    have h1 : Keeps s₀ s1 := h.setCore (by exact h.scratch)
    exact .ite h (.ite h1.present h1)
  · exact h

theorem Keeps.releaseCore (h : Keeps s₀ s) {c : Nat} {m : MState} : Keeps s₀ (s.releaseCore c m) := by
  unfold State.releaseCore
  extract_lets s1 s2
  have h1 : Keeps s₀ s1 := h.push.dropClean.scrubCopies
  have h2 : Keeps s₀ s2 := h1.same
  exact (h2.setCore RamOk.empty).applyOos

theorem Keeps.clearShare (h : Keeps s₀ s) {c : Nat} : Keeps s₀ (s.clearShare c) := h.modCluster fun _ h => h.clear

theorem Keeps.execEvCoreScrubComplete (h : Keeps s₀ s) {core : Nat} : Goes s₀ (execEvCoreScrubComplete core s) :=
  .ite (.next (h.clearShare.scrubCopies.setCore (by exact h.scratch)).applyOos) (.next h)

theorem Keeps.signalEnds (h : Keeps s₀ s) {task : Nat} : Keeps s₀ (s.signalEnds task) := by
  unfold State.signalEnds
  split
  · exact h.modCore
  · exact h

theorem Keeps.signalDone (h : Keeps s₀ s) {task : Nat} {pkg : Option Nat} : Keeps s₀ (s.signalDone task pkg) := by
  unfold State.signalDone
  split
  · exact h.signalEnds
  · exact h.send

theorem Keeps.signalHere (h : Keeps s₀ s) {pa task : Nat} {k : SignalKind} {hc : Bool} : Keeps s₀ (s.signalHere pa task k hc) := by
  unfold State.signalHere
  extract_lets _ _ _ _ s1 _ _ _ s2 s3
  have h1 : Keeps s₀ s1 := h.noteBad.charge
  have h2 : Keeps s₀ s2 := h1.dropL1.homeWrite
  have h3 : Keeps s₀ s3 := by
    dsimp only [s3]
    split
    · exact h2
    · exact h2.cast
  exact .ite (.ite h h.writeHost.send) (.ite h (.ite h1.charge (h3.soon Named.messages)))

theorem Keeps.signalOnce (h : Keeps s₀ s) {pa task : Nat} {k : SignalKind} {hc : Bool} {pkg : Option Nat} :
    Keeps s₀ (s.signalOnce pa task k hc pkg) :=
  (h.ite h.same.signalHere).signalDone

theorem Keeps.signalHome (h : Keeps s₀ s) {leaf : Word} {pa task : Nat} {k : SignalKind} {pkg : Option Nat} :
    Keeps s₀ (s.signalHome leaf pa task k pkg) := by
  unfold State.signalHome
  extract_lets _ _ _ s1
  have h1 : Keeps s₀ s1 := h.touchL2
  exact .ite (.ite h.signalOnce h.hold) (.ite h.send (.ite h1.signalOnce h1.hold))

theorem Keeps.noteSignal (h : Keeps s₀ s) {task : Nat} {trig : Bool} : Keeps s₀ (s.noteSignal task trig) := by
  unfold State.noteSignal
  extract_lets s1
  have h1 : Keeps s₀ s1 := h.modTask
  exact .ite h1.makeIrrevocable h1

theorem Keeps.signalTask (h : Keeps s₀ s) {task : Nat} {k : SignalKind} : Keeps s₀ (s.signalTask task k) := by
  unfold State.signalTask
  extract_lets _ s1
  have h1 : Keeps s₀ s1 := h.noteSignal
  refine .ite h ?_
  split
  · exact h1.signalEnds
  · exact h1.tell.signalHome

theorem Keeps.execEvCompletionSignal (h : Keeps s₀ s) {task : Nat} {k : SignalKind} : Goes s₀ (execEvCompletionSignal task k s) :=
  .next h.signalTask

theorem Keeps.execEvFarSignal (h : Keeps s₀ s) {pkg pa task : Nat} {k : SignalKind} : Goes s₀ (execEvFarSignal pkg pa task k s) :=
  .ite (.next h) (.next h.noteSignal.signalHome)

theorem Keeps.execEvSignalDone (h : Keeps s₀ s) {task : Nat} : Goes s₀ (execEvSignalDone task s) := .next h.signalEnds
theorem Keeps.setBindStatus (h : Keeps s₀ s) {n st : Nat} : Keeps s₀ (s.setBindStatus n st) := h.same
theorem Keeps.emptyBind (h : Keeps s₀ s) {n : Nat} : Keeps s₀ (s.emptyBind n) := h.same

theorem Keeps.noteBound (h : Keeps s₀ s) {task : Nat} : Keeps s₀ (s.noteBound task) := by
  unfold State.noteBound
  extract_lets _ _ s1
  have h1 : Keeps s₀ s1 := h.modTask
  exact .ite (.ite h1 h1.send) h

theorem Keeps.execEvDependencesComplete (h : Keeps s₀ s) {task : Nat} : Goes s₀ (execEvDependencesComplete task s) :=
  .ite (.ite (.next h.modTask.soon) (.next h.modTask.noteBound)) (.next h)

theorem Keeps.dropLog (h : Keeps s₀ s) {part task : Nat} : Keeps s₀ (s.dropLog part task) := h.modPart
theorem Keeps.countRetired (h : Keeps s₀ s) {task : Nat} : Keeps s₀ (s.countRetired task) := .ite h.modTask.dropLog.soon h.modTask

theorem Keeps.execEvMemberRetire (h : Keeps s₀ s) {core : Nat} : Goes s₀ (execEvMemberRetire core s) := by
  unfold Machine.execEvMemberRetire
  extract_lets
  refine .ite ?_ (.next h)
  refine .ite (.next h.freeStampsOf.releaseCore) ?_
  exact .next h.noteGone.tell.freeStampsOf.releaseCore.countRetired

theorem Keeps.cancelArmed (h : Keeps s₀ s) {task : Nat} : Keeps s₀ (s.cancelArmed task) := h.foldl fun _ _ h => h.emptyBind
theorem Keeps.dropMember (h : Keeps s₀ s) {c : Nat} : Keeps s₀ (s.dropMember c) := .ite h.modCore h.releaseCore

theorem Keeps.abortHere (h : Keeps s₀ s) {task : Nat} : Keeps s₀ (s.abortHere task) := by
  unfold State.abortHere
  extract_lets _ _ _ s2
  have h2 : Keeps s₀ s2 := (h.foldl fun s i h => h.freeStamp).foldl fun s c h => h.dropMember
  exact .ite h (h2.same.cancelArmed.dropLog.modTask fun _ _ _ => rfl).soon

theorem Keeps.abortTask (h : Keeps s₀ s) {task : Nat} : Keeps s₀ (s.abortTask task) := .ite h h.tell.abortHere
theorem Keeps.abortWrite (h : Keeps s₀ s) {v : Word} : Keeps s₀ (s.abortWrite v) := .ite h.abortTask h
theorem Keeps.execEvTaskabort (h : Keeps s₀ s) {v : Word} : Goes s₀ (execEvTaskabort v s) := .next h.abortWrite
theorem Keeps.execEvTabort (h : Keeps s₀ s) {v : Word} : Goes s₀ (execEvTabort v s) := .next h.abortWrite
theorem Keeps.abortPart (h : Keeps s₀ s) {p : Nat} : Keeps s₀ (s.abortPart p) := h.foldl fun _ _ h => h.abortTask

theorem Keeps.trigger (h : Keeps s₀ s) : Goes s₀ (trigger s) := by
  unfold Machine.trigger
  refine .ite (.next h) ?_
  exact .ite (.next h.advance) (h.releasing fun _ h => .next h.setWait.signalTask)

theorem Keeps.submit (h : Keeps s₀ s) {rec : BitVec 512} : Keeps s₀ (s.submit rec) := .ite h.same h.same
theorem Keeps.execEvSubreg (h : Keeps s₀ s) {rec : BitVec 512} : Goes s₀ (execEvSubreg rec s) := .ite (.next h.same) (.next h.submit)
theorem Keeps.execEvSubstat (h : Keeps s₀ s) {v : Word} : Goes s₀ (execEvSubstat v s) := .next (h.same.ite h)
theorem TaskOk.record {rec : BitVec 512} {part depth : Nat} : TaskOk s₀ (recordTask rec part depth) := fun _ => rfl

theorem Keeps.queueTask (h : Keeps s₀ s) {k : Task} (hk : TaskOk s₀ k) : Keeps s₀ (s.queueTask k) := by
  have h1 : ∀ x ∈ Store.insert (Store.erase s.tasks s.nextTask) s.nextTask k, TaskOk s₀ x.2 := fun x hx => by
    rcases Store.mem_insert hx with rfl | hx
    · exact hk
    · exact h.tasks (Store.mem_erase hx).1
  exact (h.withTasks h1).same

theorem Keeps.auditDebug (h : Keeps s₀ s) {order actor : Nat} {t : Task} : Keeps s₀ (s.auditDebug order actor t) := .ite h.present h

theorem Keeps.decideLaunch (h : Keeps s₀ s) {l : LaunchReq} : Keeps s₀ (s.decideLaunch l) :=
  ((h.auditDebug.queueTask TaskOk.record).makeIrrevocable.ite (h.present.ite h)).modCore

theorem Keeps.decideSub (h : Keeps s₀ s) : Keeps s₀ s.decideSub := by
  unfold State.decideSub
  split
  · exact h
  · extract_lets _ _ _ s1
    have h1 : Keeps s₀ s1 := (h.auditDebug.queueTask TaskOk.record).ite h
    exact .ite h h1.same

theorem Keeps.execEvLaunchAcceptance (h : Keeps s₀ s) : Goes s₀ (execEvLaunchAcceptance s) := by
  unfold Machine.execEvLaunchAcceptance
  refine .next (Keeps.decideSub ?_)
  split
  · exact h.same.decideLaunch
  · exact h

theorem Keeps.execLaunch (h : Keeps s₀ s) {d a : Reg} : Goes s₀ (execLaunch d a s) := by
  unfold Machine.execLaunch
  extract_lets _ f1
  have h1 : ∀ t x1, Keeps s₀ t → Goes s₀ (f1 t x1) := fun _ _ h => .next h.same.setWait
  split
  · exact .next h
  · split
    · exact .next h.trap
    · refine .ite (.next h.trap) ?_
      refine .ite (.next h.free_snd.result) ?_
      refine h.releasing fun t h => h.seqAccess fun t x1 x2 h => ?_
      split
      · rename_i e2
        exact h.readWaits.result e2
      · split
        · rename_i e3
          exact h.readNow.result e3
        · rename_i e4
          exact h1 _ _ (h.readNow.state e4)

/-! #### Machine/DerivedOps -/

theorem Keeps.translatePages (h : Keeps s₀ s) {l : List (Nat × Bool)} : ReadKeeps s₀ (translatePages s l) := by
  induction l generalizing s with
  | nil => exact ReadKeeps.ok h.pair
  | cons x l ih =>
    unfold Machine.translatePages
    extract_lets
    split
    · split
      · rename_i e1
        exact .error ((ih h).result e1)
      · rename_i e1
        exact .ok ((ih h).state e1).pair
    · split
      · rename_i e1
        exact .error (h.seqConflict (h.xlate_snd.of_eq e1))
      · rename_i e1
        exact .error (.next (h.xlate_snd.of_eq e1).pageRequest.setWait)
      · rename_i e1
        have h1 := h.xlate_snd.of_eq e1
        split
        · split
          · rename_i e2
            exact .error ((ih h1).result e2)
          · rename_i e2
            exact .ok ((ih h1).state e2).pair
        · exact .error (.next h.trap)

theorem Keeps.lockLine (h : Keeps s₀ s) {key line lpi : Nat} : Keeps s₀ (s.lockLine key line lpi) := h.same
theorem Keeps.unlockLines (h : Keeps s₀ s) {ls : List Nat} : Keeps s₀ (s.unlockLines ls) := h.same

theorem Keeps.declare (h : Keeps s₀ s) {r : DRegion} {keys : List (Nat × Nat)} : Keeps s₀ (s.declare r keys) := by
  unfold State.declare
  extract_lets s1 _ _
  have h1 : Keeps s₀ s1 := h.foldl fun _ _ h => h.lockLine
  exact (h1.withHbm (h1.hbm.foldl fun _ _ h => h.clear)).same.askHalves.startBuild

theorem Keeps.declareFrom (h : Keeps s₀ s) {va : Word} {placeOk : Bool} {d : Nat} : Goes s₀ (declareFrom va placeOk d s) := by
  unfold Machine.declareFrom
  extract_lets
  refine .ite (.next h.trap) ?_
  split
  · rename_i e1
    exact h.translatePages.result e1
  · rename_i e2
    have h3 := h.translatePages.state e2
    extract_lets _ _ _ _ _ _ s4
    have h4 : Keeps s₀ s4 := h3.setWait
    refine .ite (.next h4.trap) ?_
    refine .ite (.next h4.trap) ?_
    exact .ite (.next h4.trap) (.ite (.next h4.trap) (.next h3.declare.dropSlots.setWait))

theorem Keeps.execDdecl (h : Keeps s₀ s) {a : Reg} : Goes s₀ (execDdecl a s) := by
  unfold Machine.execDdecl
  extract_lets
  split
  · split
    · exact .ite (.next h.setWait.advance) (.next h)
    · exact .next h.setWait.advance
  · split
    · exact .next h.trap
    · refine .ite (.next h.advance) ?_
      refine h.seqAccess fun t x1 x2 h => h.declareFrom.ite ?_
      split
      · rename_i e1
        exact h.readWaits.result e1
      · split
        · rename_i e2
          exact h.readNow.result e2
        · rename_i e3
          exact (h.readNow.state e3).declareFrom

theorem Keeps.undeclare (h : Keeps s₀ s) {id : Nat} : Keeps s₀ (s.undeclare id) := by
  unfold State.undeclare
  split
  · exact h
  · extract_lets s1
    have h1 : Keeps s₀ s1 := h.unlockLines
    exact h1.same

theorem Keeps.endRegions (h : Keeps s₀ s) : Keeps s₀ s.endRegions := h.foldl fun _ _ h => h.undeclare

theorem Keeps.execDfree (h : Keeps s₀ s) {a : Reg} : Goes s₀ (execDfree a s) := by
  unfold Machine.execDfree
  extract_lets
  split
  · exact .next h.trap
  · refine .ite (.next h.advance) ?_
    split
    · split
      · exact .next h.setWait.advance
      · exact .next h.trap
    · exact .ite (.next h.undeclare.dropSlots.setWait.advance) (.next h.setWait)

theorem Keeps.repairSlot (h : Keeps s₀ s) {r : DRegion} {n : Nat} : Keeps s₀ (s.repairSlot r n) := .ite h.slotBad.rebuildLine h

theorem Keeps.slotAnswer (h : Keeps s₀ s) {f : DrFmt} {d : Reg} {va : Word} {r : DRegion} {n : Nat} :
    Goes s₀ (slotAnswer f d va r n s) :=
  .ite (.next h.setWait.trap) (.next h.enterAs_snd.setWait.modQ.result)

theorem Keeps.execEvEarlyDread (h : Keeps s₀ s) {core : Nat} {va : Word} : Goes s₀ (execEvEarlyDread core va s) :=
  .ite (.next h) (.next h.modCore)

theorem Keeps.derivedRead (h : Keeps s₀ s) {nb : Bool} {f : DrFmt} {d a : Reg} {off : BitVec 12} :
    Goes s₀ (derivedRead nb f d a off s) := by
  unfold Machine.derivedRead
  extract_lets
  split
  · exact .next h.trap
  · refine .ite (.next h.trap) ?_
    split
    · split
      · rename_i e1
        exact .next (h.replayed.state e1).result
      · exact .next h.replayOver
    · split
      · exact .next (h.dropSlots.ite h).trap
      · extract_lets _ s2 _
        have h2 : Keeps s₀ s2 := h.repairSlot
        refine .ite (.next h.trap) ?_
        exact .ite h.dropSlots.slotAnswer (.ite h.poll (.ite (.next h2.setWait) h2.slotAnswer))

/-! #### Machine/Region -/

theorem Keeps.dropSteps (h : Keeps s₀ s) {i : Nat} {p : Nat → Bool} : Keeps s₀ (s.dropSteps i p) := h.withAgenda h.agenda.filter

theorem Keeps.voidCopy (h : Keeps s₀ s) {i j cause : Nat} {va : Word} {node : Nat} : Keeps s₀ (s.voidCopy i j cause va node) :=
  h.dropSteps.trace.modCopy

theorem Keeps.faultRegion (h : Keeps s₀ s) {i j : Nat} {t : Trap} {node : Nat} : Keeps s₀ (s.faultRegion i j t node) := by
  unfold State.faultRegion
  extract_lets s1 _ s2
  have h1 : Keeps s₀ s1 := h.voidCopy.dropSteps
  have h2 : Keeps s₀ s2 := h1.modStamp
  split
  · refine h2.modTask fun k h => h.mapSaves fun x h => ?_
    split <;> exact h
  · exact h2.holdTrap

theorem Keeps.pageRegion (h : Keeps s₀ s) {i j : Nat} {va : Word} {kind node : Nat} : Keeps s₀ (s.pageRegion i j va kind node) :=
  h.voidCopy.pageRequest.modCopy

theorem Keeps.conflictRegion (h : Keeps s₀ s) {i j lane : Nat} {va : Word} {node : Nat} :
    Keeps s₀ (s.conflictRegion i j lane va node) := by
  unfold State.conflictRegion
  extract_lets _ _ _ _ _ s1
  have h1 : Keeps s₀ s1 := h.voidCopy.modCopy
  exact .ite h.faultRegion (.ite h1 h1.modCore)

/-! #### Machine/Operands -/

theorem Keeps.modX (h : Keeps s₀ s) {f : Copy → Copy} : Keeps s₀ (s.modX f) := h.modCopy
theorem Keeps.tellLane (h : Keeps s₀ s) {w : Nat} {m : Mark} : Keeps s₀ (s.tellLane w m) := (h.present.ite h).charge
theorem Keeps.xFault (h : Keeps s₀ s) {t : Trap} : Keeps s₀ (s.xFault t) := h.faultRegion

theorem Keeps.elem (h : Keeps s₀ s) {e : Entry} {body : Except Trap State} (hb : OkKeeps s₀ body) : Goes s₀ (elem e s body) := by
  unfold Machine.elem
  extract_lets ch
  have hch : ∀ t, Keeps s₀ t → Keeps s₀ (ch t) := by
    intro t h
    dsimp only [ch]
    split
    · exact h.tellLane
    · exact h
  refine .ite ?_ (.next h)
  split
  · exact .next h.xFault
  · exact .next h
  · cases body with
    | ok t => exact .next (hch t hb)
    | error x => exact .next (hch s h).xFault

theorem Keeps.writeLane (h : Keeps s₀ s) {w : Nat} {v : Word} : Keeps s₀ (s.writeLane w v) := h.modX

theorem Keeps.deliverAs (h : Keeps s₀ s) {e : Entry} {lat : Nat} {v : Word} {tag : Nat} {psn we : Bool} :
    Keeps s₀ (s.deliverAs e lat v tag psn we) :=
  h.modX

theorem Keeps.give (h : Keeps s₀ s) {e : Entry} {lat : Nat} {v : Word} {tag : Nat} {psn : Bool} : Keeps s₀ (s.give e lat v tag psn) :=
  h.deliverAs

theorem Keeps.elem1 (h : Keeps s₀ s) {e : Entry} {lat tag : Nat} {f : Word → Word} : Goes s₀ (elem1 e lat tag s f) :=
  h.elem (.bind fun _ => .ok h.give)

theorem Keeps.elem2 (h : Keeps s₀ s) {e : Entry} {lat tag : Nat} {f : Word → Word → Word} : Goes s₀ (elem2 e lat tag s f) :=
  h.elem (.bind fun _ => .bind fun _ => .ok h.give)

theorem Keeps.elem3 (h : Keeps s₀ s) {e : Entry} {lat tag : Nat} {f : Word → Word → Word → Word} : Goes s₀ (elem3 e lat tag s f) :=
  h.elem (.bind fun _ => .bind fun _ => .bind fun _ => .ok h.give)

/-! #### Machine/ElemInt -/

theorem Keeps.elemMove (h : Keeps s₀ s) {e : Entry} {lat : Nat} : Goes s₀ (elemMove e lat s) := h.elem (.bind fun _ => .ok h.give)

theorem Keeps.elemInt2 (h : Keeps s₀ s) {e : Entry} {lat : Nat} {f : Nat → Nat → Nat → Nat} : Goes s₀ (elemInt2 e lat s f) :=
  h.elem (.bind fun _ => .bind fun _ => .ok h.give)

theorem Keeps.elemInt1 (h : Keeps s₀ s) {e : Entry} {lat : Nat} {f : Nat → Nat → Nat} : Goes s₀ (elemInt1 e lat s f) := h.elem1

theorem Keeps.elemLogic (h : Keeps s₀ s) {e : Entry} {f : Word → Word → Word} : Goes s₀ (elemLogic e s f) :=
  h.elem (.bind fun _ => .bind fun _ => .ok h.give)

theorem Keeps.elemShift (h : Keeps s₀ s) {e : Entry} {f : Nat → Nat → Nat → Nat} : Goes s₀ (elemShift e s f) :=
  h.elem (.bind fun _ => .bind fun _ => .ok h.give)

/-! #### Machine/ElemFloat -/

theorem Keeps.elemFloat2 (h : Keeps s₀ s) {e : Entry} {lat : Nat} {f : Fp.Fmt → Fp.Val → Fp.Val → Fp.Res} :
    Goes s₀ (elemFloat2 e lat s f) :=
  h.elem2

theorem Keeps.elemFused (h : Keeps s₀ s) {e : Entry} {np nc : Bool} : Goes s₀ (elemFused e s np nc) := h.elem3
theorem Keeps.elemSpecial (h : Keeps s₀ s) {e : Entry} {lat : Nat} {g : Nat → Nat} : Goes s₀ (elemSpecial e lat g s) := h.elem1

theorem Keeps.elemLane (h : Keeps s₀ s) {e : Entry} {w : Option Nat} {body : Except Trap State} (hb : OkKeeps s₀ body) :
    Goes s₀ (elemLane e s w body) := by
  unfold Machine.elemLane
  split
  · rename_i e1 _
    have h1 := (h.elem hb).keeps e1
    exact .next (h1.tellLane.ite h1)
  · exact h.elem hb

/-! #### Machine/ElemMoment -/

theorem Keeps.giveMoment (h : Keeps s₀ s) {e : Entry} {lat : Nat} {m : Moment} {psn : Bool} : Keeps s₀ (s.giveMoment e lat m psn) :=
  .ite (.ite h.give h.modX) h.give

theorem Keeps.elemMoment2 (h : Keeps s₀ s) {e : Entry} {lat : Nat} {f : Fp.Val → Fp.Val → Fp.Val → Fp.Val → Fp.Val → Fp.Val × Fp.Val} :
    Goes s₀ (elemMoment2 e lat s f) :=
  h.elem (.bind fun _ => .bind fun _ => .ok h.giveMoment)

theorem Keeps.elemMoment1 (h : Keeps s₀ s) {e : Entry} {lat : Nat} {f : Nat → Nat} {g : Nat → Nat → Moment} :
    Goes s₀ (elemMoment1 e lat s f g) :=
  h.elem (.bind fun _ => .ok h.giveMoment)

theorem Keeps.execEMcol (h : Keeps s₀ s) {e : Entry} : Goes s₀ (execEMcol e s) := by
  unfold Machine.execEMcol
  refine h.elem (.bind fun a => ?_)
  extract_lets _ _ f1
  have h1 : ∀ x0, OkKeeps s₀ (f1 x0) := fun _ => .ok h.give
  exact .ite (.bind fun _ => .bind fun _ => h1 _) (.bind fun _ => h1 _)

/-! #### Machine/ElemPort -/

theorem Keeps.fabricPath (h : Keeps s₀ s) {lane : Nat} {va : Word} {kind : Nat} : PathKeeps s₀ (s.fabricPath lane va kind) := by
  unfold State.fabricPath
  split
  · exact .trap
  · split
    · exact .trap
    · split
      · rename_i e1
        exact .hold (h.xlate_snd.of_eq e1).pageRegion
      · rename_i e2
        exact .hold (h.xlate_snd.of_eq e2).conflictRegion
      · rename_i e3
        have h4 := h.xlate_snd.of_eq e3
        split
        · exact .hold h4.conflictRegion
        · split
          · exact .ok h4.modX
          · exact .trap

theorem Keeps.spillPath (h : Keeps s₀ s) {lane : Nat} {va : Word} {kind : Nat} : PathKeeps s₀ (s.spillPath lane va kind) := by
  unfold State.spillPath
  split
  · rename_i e1
    exact .ok (h.fabricPath.state e1)
  · exact h.fabricPath

theorem Keeps.keepReply (h : Keeps s₀ s) {i j : Nat} {x : FabReply} : Keeps s₀ (s.keepReply i j x) := .ite h.modCopy h

theorem Keeps.giveLate (h : Keeps s₀ s) {e : Entry} {lat : Nat} {v : Word} {psn : Bool} {late : Nat} :
    Keeps s₀ (s.giveLate e lat v psn late) :=
  h.give.modX

theorem Keeps.giveLoad (h : Keeps s₀ s) {e : Entry} {lat : Nat} {v : Word} {psn : Bool} {wait : Nat} :
    Keeps s₀ (s.giveLoad e lat v psn wait) :=
  h.chosen.keepReply.giveLate

theorem Keeps.replayLoad (h : Keeps s₀ s) {e : Entry} {lat : Nat} : Keeps s₀ (s.replayLoad e lat) := by
  unfold State.replayLoad
  extract_lets
  split
  · exact h.replayOver
  · rename_i e1
    have h2 := h.replayed.state e1
    split
    · exact h2.giveLate
    · rename_i e3
      exact (h2.replayed.state e3).giveLate

theorem Keeps.fabricRead_snd (h : Keeps s₀ s) {xCore part k : Nat} {leaf : Word} {pa n : Nat} :
    Keeps s₀ (s.fabricRead xCore part k leaf pa n).2 := by
  unfold State.fabricRead
  refine .ite_snd h.touch ?_
  extract_lets _ _ _ s1
  have h1 : Keeps s₀ s1 := h.noteBad.charge
  exact .ite_snd h1 h1.touch

theorem Keeps.giveOut (h : Keeps s₀ s) {e : Entry} {lat : Nat} {va leaf : Word} {pa n : Nat} {sent : Option Nat} :
    Keeps s₀ (s.giveOut e lat va leaf pa n sent) :=
  h.give.modX

theorem Keeps.giveHeld (h : Keeps s₀ s) {e : Entry} {lat : Nat} {va leaf : Word} {pa n : Nat} :
    Keeps s₀ (s.giveHeld e lat va leaf pa n) := by
  unfold State.giveHeld
  refine .ite h.giveOut ?_
  split
  · rename_i e1
    exact (h.fabricRead_snd.of_eq e1).xFault
  · rename_i e2
    exact (h.fabricRead_snd.of_eq e2).giveLoad

theorem Keeps.fabricLoad (h : Keeps s₀ s) {e : Entry} {lat : Nat} {va : Word} {n : Nat} {p : FabricPath} (hp : PathKeeps s₀ p) :
    OkKeeps s₀ (s.fabricLoad e lat va n p) := by
  unfold State.fabricLoad
  split
  · exact .error
  · exact OkKeeps.ite (.ok h.replayLoad) (.ok hp)
  · rename_i t
    have ht : Keeps s₀ t := hp
    extract_lets
    refine .ite (.ok h.replayLoad) ?_
    split
    · exact .error
    · exact .ite (.ok ht.send.giveOut) .error
    · exact .ite .error (.ok ht.askHalves.giveHeld)
    · exact .ok ht.askHalves.giveHeld

theorem Keeps.buffer (h : Keeps s₀ s) {e : Entry} {b : BufEntry} : Keeps s₀ (s.buffer e b) := h.modX

theorem Keeps.fabricStore (h : Keeps s₀ s) {e : Entry} {lane : Nat} {va : Word} {n : Nat} {v : Tagged}
    {red : Option (RedOp × BitVec 4)} {p : FabricPath} (hp : PathKeeps s₀ p) : OkKeeps s₀ (s.fabricStore e lane va n v red p) := by
  unfold State.fabricStore
  split
  · exact .error
  · exact OkKeeps.ite (.ok h) (.ok hp)
  · rename_i t
    have ht : Keeps s₀ t := hp
    extract_lets s1
    have h1 : Keeps s₀ s1 := by
      dsimp only [s1]
      refine .ite ?_ ht
      split
      · exact ht.askHalves
      · exact ht.askHalves
      · exact ht
    exact .ite (.pure h) (.bind fun _ => .ok h1.buffer)

theorem Keeps.streamLoad (h : Keeps s₀ s) {e : Entry} {i : Option Nat} : OkKeeps s₀ (s.streamLoad e i) := by
  unfold State.streamLoad
  extract_lets
  split
  · exact .ok h.give
  · exact h.fabricLoad h.fabricPath

theorem Keeps.streamStore (h : Keeps s₀ s) {e : Entry} {v : Tagged} {red : Option (RedOp × BitVec 4)} {i : Option Nat} :
    OkKeeps s₀ (s.streamStore e v red i) := by
  unfold State.streamStore
  extract_lets
  split
  · exact .ok h
  · exact h.fabricStore h.fabricPath

theorem Keeps.elemReduce (h : Keeps s₀ s) {op : RedOp} {e : Entry} : Goes s₀ (elemReduce op e s) :=
  h.elem (.bind fun _ => .bind fun _ => h.streamStore)

theorem Keeps.generate (h : Keeps s₀ s) {e : Entry} {psn : Bool} {f : Nat → Gen → Nat × Gen} : Keeps s₀ (s.generate e psn f) :=
  .ite h.modX.give h.modX.give

theorem Keeps.execESpld (h : Keeps s₀ s) {e : Entry} : Goes s₀ (execESpld e s) := by
  unfold Machine.execESpld
  refine h.elem (.bind fun a => ?_)
  split
  · extract_lets _ _ _ _ s1
    have h1 : Keeps s₀ s1 := h.noteChip.charge
    refine .ite (.ite .error (.ok h.modX)) ?_
    refine .ite (.ok h.replayLoad) ?_
    split
    · exact h.fabricLoad h.spillPath
    · split
      · exact .ite (.ok h1.xFault) (.ok h1.giveLoad.useBank)

theorem Keeps.execESpst (h : Keeps s₀ s) {e : Entry} : Goes s₀ (execESpst e s) := by
  unfold Machine.execESpst
  refine h.elem (.bind fun a => .bind fun a => ?_)
  extract_lets
  refine .ite .error ?_
  refine .ite .error ?_
  split
  · exact .error
  · exact h.fabricStore h.spillPath
  · exact .ok h.buffer

/-! #### Machine/Fabric -/

theorem Keeps.beginSlot (h : Keeps s₀ s) {i j : Nat} : Keeps s₀ (s.beginSlot i j) :=
  h.modCopy.soon (Named.append Named.map fun _ => rfl)

theorem Keeps.issueSlot (h : Keeps s₀ s) {i j : Nat} : Keeps s₀ (s.issueSlot i j) :=
  h.modCopy.soon (Named.append (Named.ite Named.map fun _ => rfl) (Named.ite (fun _ => rfl) fun _ => rfl))

theorem Keeps.freezeReads (h : Keeps s₀ s) {i j : Nat} {reads : List Nat} : Keeps s₀ (s.freezeReads i j reads) := by
  unfold State.freezeReads
  extract_lets
  split
  · exact h
  · exact .ite h.soon h.modCopy

theorem Keeps.execEvRowCounterStep (h : Keeps s₀ s) {stamp copy : Nat} : Goes s₀ (execEvRowCounterStep stamp copy s) := by
  unfold Machine.execEvRowCounterStep
  extract_lets _ _ _ _ s1 _ _ _ _
  have h1 : Keeps s₀ s1 := h.modCopy
  refine .ite (.next h) ?_
  refine .ite (.next h.faultRegion) ?_
  split
  · split
    · exact .next h1.faultRegion
    · refine .ite (.ite (.next h1.modCopy) (.next h1)) ?_
      exact .ite (.next h1.modCopy.freezeReads) (.ite (.next h1.modCopy.soon) (.next h1.beginSlot))
  · split
    · exact .next h.issueSlot
    · exact .next h.freezeReads

theorem Keeps.execEvWaveAdvance (h : Keeps s₀ s) {stamp copy : Nat} : Goes s₀ (execEvWaveAdvance stamp copy s) :=
  .ite (.next h.modCopy) (.next h)

theorem Keeps.execEvResultLands (h : Keeps s₀ s) {stamp copy id : Nat} : Goes s₀ (execEvResultLands stamp copy id s) := by
  unfold Machine.execEvResultLands
  extract_lets
  split
  · exact .next h
  · refine .ite (.next h.faultRegion) ?_
    split
    · exact .next h
    · exact .next h.modCopy

theorem Keeps.release' (h : Keeps s₀ s) {i j : Nat} : Keeps s₀ (s.release' i j) := h.modCopy

theorem Keeps.fillLoad (h : Keeps s₀ s) {i j : Nat} {f : Flight} {v : Word} {psn : Bool} : Keeps s₀ (s.fillLoad i j f v psn) := by
  unfold State.fillLoad
  extract_lets _ s1
  have h1 : Keeps s₀ s1 := by
    dsimp only [s1]
    split
    · exact h.keepReply
    · exact h
  exact h1.modCopy.release'

theorem Keeps.peerReply (h : Keeps s₀ s) {core : Nat} {value : Option Word} : Goes s₀ (s.peerReply core value) := by
  unfold State.peerReply
  extract_lets s1
  have h1 : Keeps s₀ s1 := h.same
  split
  · split
    · exact .next h1.setWait.trapLate
    · extract_lets _ _ _ s2
      have h2 : Keeps s₀ s2 := h1.enterAs_snd.setWait.result
      refine .ite (.next h1.setWait) ?_
      split
      · exact .next (h2.acquire.ite h2.noEarly).noteDemoted.strap
      · exact .next h2
  · exact .next h1.setWait.advance
  · exact .next h1

theorem Keeps.barrierReply (h : Keeps s₀ s) {task memb : Nat} {value : Option Word} : Keeps s₀ (s.barrierReply task memb value) := by
  unfold State.barrierReply
  extract_lets
  refine (h.foldl fun s c h => h.modCore.ite h).modTask fun k h => h.mapSaves fun x h => ?_
  split <;> exact h

theorem Keeps.execEvLoadReplyArrives (h : Keeps s₀ s) {r : Reply} : Goes s₀ (execEvLoadReplyArrives r s) := by
  unfold Machine.execEvLoadReplyArrives
  split
  · exact h.peerReply
  · exact .next h.barrierReply
  · extract_lets
    split
    · exact .next h
    · refine .ite (.next h.release') ?_
      split
      · exact .next h.faultRegion
      · exact .next h.fillLoad

theorem Keeps.execEvHeldReadAnswered (h : Keeps s₀ s) {stamp copy id : Nat} : Goes s₀ (execEvHeldReadAnswered stamp copy id s) := by
  unfold Machine.execEvHeldReadAnswered
  extract_lets
  split
  · exact .next h
  · split
    · exact .next h
    · refine .ite (.next h) ?_
      refine .ite (.next h.faultRegion) ?_
      refine .ite (.next h.askHalves) ?_
      split
      · rename_i e1
        exact .next (h.fabricRead_snd.of_eq e1).faultRegion
      · rename_i e2
        exact .next (h.fabricRead_snd.of_eq e2).fillLoad

theorem Keeps.execEvStallGraceExpiry (h : Keeps s₀ s) {stamp copy : Nat} : Goes s₀ (execEvStallGraceExpiry stamp copy s) :=
  .ite (.next h.faultRegion) (.next h)

theorem Keeps.outOne (h : Keeps s₀ s) {i j : Nat} : Keeps s₀ (s.outOne i j) := h.modCopy

theorem Keeps.leavePort (h : Keeps s₀ s) {i j n : Nat} {b : BufEntry} : Keeps s₀ (s.leavePort i j n b) := by
  unfold State.leavePort
  extract_lets _ _ _ _ _ _ _ _ _ s1 s2 s3 _ _
  have h1 : Keeps s₀ s1 := h.makeIrrevocable.outOne.touch
  have h2 : Keeps s₀ s2 := h.touchHome.ite h.touch
  have h3 : Keeps s₀ s3 := (h2.charge.ite h2).outOne
  refine .ite (.ite h h.useBank.bankStore) ?_
  refine .ite h ?_
  split
  · exact h
  · exact .ite h.same.outOne.send h.failStore
  · refine .ite h.failStore ?_
    split
    · exact h1.onWay
    · exact h1.redArrive
  · split
    · refine .ite h3.send ?_
      exact h3.later (Named.append (Named.ite (fun _ => rfl) fun _ => rfl) fun _ => rfl)
    · exact .ite h3.later (.ite (.ite h3.later h3.sendReplica) h3.later)

theorem Keeps.execEvCcStore (h : Keeps s₀ s) {st : StoreReq} : Goes s₀ (execEvCcStore st s) := by
  unfold Machine.execEvCcStore
  extract_lets s1
  have h1 : Keeps s₀ s1 := h.charge.ite h.writeDirty
  refine .next ?_
  split
  · exact h1.tellIssuer
  · exact h1

theorem Keeps.noteLate (h : Keeps s₀ s) {c stream late : Nat} : Keeps s₀ (s.noteLate c stream late) := .ite h.modTask h

theorem Keeps.execEvRoundCommit (h : Keeps s₀ s) {stamp copy round : Nat} : Goes s₀ (execEvRoundCommit stamp copy round s) := by
  unfold Machine.execEvRoundCommit
  extract_lets _ _ _ _ s1 _ s2
  have h1 : Keeps s₀ s1 := (h.foldl fun _ _ h => h.recordOn.noteLate).modCopy
  have h2 : Keeps s₀ s2 := (h1.withAgenda fun _ => rfl).foldl fun _ _ h => h.leavePort
  exact .ite (.next (h2.withAgenda (h2.agenda.append h1.agenda)).modCopy) (.next h)

theorem Keeps.execEvPhaseRetire (h : Keeps s₀ s) {stamp : Nat} : Goes s₀ (execEvPhaseRetire stamp s) := by
  unfold Machine.execEvPhaseRetire
  extract_lets
  refine .ite ?_ (.next h)
  split
  · exact .next h.faultRegion
  · exact .next h.modStamp.trace

/-! #### Machine/Engines -/

theorem Keeps.modCmd (h : Keeps s₀ s) {c id : Nat} {f : Cmd → Cmd} : Keeps s₀ (s.modCmd c id f) := h.modCore

theorem Keeps.issueCmd (h : Keeps s₀ s) {i : Instr} {l : Long} {uses : List Reg} {inLimits : Word → Word → Word → Bool} :
    Goes s₀ (issueCmd i l uses inLimits s) := by
  unfold Machine.issueCmd
  extract_lets _ _ _ _ _ _ _ _ _ _ s1
  have h1 : Keeps s₀ s1 := by
    refine h.enterAs_snd.modCur fun k h => ?_
    split <;> exact h
  refine .ite (.next h.trap) ?_
  refine .ite (.next h.setWait) ?_
  exact .ite (.next h.trap) (.ite (.next h.trap) (.next h1.setWait.advance))

theorem Keeps.execScopy (h : Keeps s₀ s) {l : Long} : Goes s₀ (execScopy l s) := h.issueCmd
theorem Keeps.execSstrd (h : Keeps s₀ s) {l : Long} : Goes s₀ (execSstrd l s) := h.issueCmd
theorem Keeps.execSgath (h : Keeps s₀ s) {l : Long} : Goes s₀ (execSgath l s) := h.issueCmd
theorem Keeps.execSscat (h : Keeps s₀ s) {l : Long} : Goes s₀ (execSscat l s) := h.issueCmd
theorem Keeps.execSxcopy (h : Keeps s₀ s) {l : Long} : Goes s₀ (execSxcopy l s) := h.issueCmd
theorem Keeps.execMstep (h : Keeps s₀ s) {l : Long} : Goes s₀ (execMstep l s) := h.issueCmd
theorem Keeps.execMomstep (h : Keeps s₀ s) {l : Long} : Goes s₀ (execMomstep l s) := h.issueCmd
theorem Keeps.execAccZero (h : Keeps s₀ s) {l : Long} : Goes s₀ (execAccZero l s) := h.issueCmd
theorem Keeps.execAccLd (h : Keeps s₀ s) {l : Long} : Goes s₀ (execAccLd l s) := h.issueCmd
theorem Keeps.execAccSt (h : Keeps s₀ s) {l : Long} : Goes s₀ (execAccSt l s) := h.issueCmd
theorem Keeps.execTmv (h : Keeps s₀ s) {l : Long} : Goes s₀ (execTmv l s) := h.issueCmd
theorem Keeps.execTsel (h : Keeps s₀ s) {l : Long} : Goes s₀ (execTsel l s) := h.issueCmd
theorem Keeps.execTred (h : Keeps s₀ s) {l : Long} : Goes s₀ (execTred l s) := h.issueCmd
theorem Keeps.execCollAr (h : Keeps s₀ s) {l : Long} : Goes s₀ (execCollAr l s) := h.issueCmd
theorem Keeps.execCollRs (h : Keeps s₀ s) {l : Long} : Goes s₀ (execCollRs l s) := h.issueCmd
theorem Keeps.execCollAg (h : Keeps s₀ s) {l : Long} : Goes s₀ (execCollAg l s) := h.issueCmd
theorem Keeps.execCollBc (h : Keeps s₀ s) {l : Long} : Goes s₀ (execCollBc l s) := h.issueCmd
theorem Keeps.execCollA2a (h : Keeps s₀ s) {l : Long} : Goes s₀ (execCollA2a l s) := h.issueCmd

theorem Keeps.issueAny (h : Keeps s₀ s) {i : Instr} : Goes s₀ (issueAny i s) := by
  unfold Machine.issueAny
  split
  · exact h.execScopy
  · exact h.execSstrd
  · exact h.execSgath
  · exact h.execSscat
  · exact h.execSxcopy
  · exact h.execMstep
  · exact h.execMomstep
  · exact h.execAccZero
  · exact h.execAccLd
  · exact h.execAccSt
  · exact h.execTmv
  · exact h.execTsel
  · exact h.execTred
  · exact h.execCollAr
  · exact h.execCollRs
  · exact h.execCollAg
  · exact h.execCollBc
  · exact h.execCollA2a
  · exact .next h

theorem Keeps.execEvHeldCommandAccepted (h : Keeps s₀ s) {core : Nat} : Goes s₀ (execEvHeldCommandAccepted core s) := by
  unfold Machine.execEvHeldCommandAccepted
  extract_lets
  refine .ite ?_ (.next h)
  split
  · exact h.same.issueAny
  · exact .next h

theorem Keeps.modWp (h : Keeps s₀ s) {c ch : Nat} {f : Word → Word} : Keeps s₀ (s.modWp c ch f) := h.modCore
theorem Keeps.landed (h : Keeps s₀ s) {c : Nat} {m : Cmd} {p : Nat} {last : Bool} : Keeps s₀ (s.landed c m p last) := .ite h.modWp h

theorem Keeps.retireCmd (h : Keeps s₀ s) {c id : Nat} : Keeps s₀ (s.retireCmd c id) := by
  unfold State.retireCmd
  split
  · exact h
  · extract_lets s1 _
    have h1 : Keeps s₀ s1 := h.modCmd
    exact (h1.modWp.ite h1).trace

theorem Keeps.stopCmd (h : Keeps s₀ s) {c id : Nat} {t : Trap} {chan : Bool} : Keeps s₀ (s.stopCmd c id t chan) := by
  unfold State.stopCmd
  split
  · exact h
  · extract_lets s1 _ _
    have h1 : Keeps s₀ s1 := h.modCmd
    exact (h1.modWp.ite h1).trace.holdTrap

theorem EngKeeps.finish {α : Type} {x : Eng α} (hx : EngKeeps s₀ x) (h : Keeps s₀ s) {c id : Nat} : Keeps s₀ (x.finish s c id) := by
  cases x with
  | ok v t => exact hx
  | hold f => exact hx s h
  | stop y t => exact Keeps.stopCmd hx

theorem Keeps.engBanks (h : Keeps s₀ s) {α : Type} {run : State → Eng α} (hrun : ∀ t, Keeps s₀ t → EngKeeps s₀ (run t)) :
    EngKeeps s₀ (s.engBanks run) := by
  have h0 : Keeps s₀ { s with bankUse := [] } := h.same
  have h1 := hrun _ h0
  unfold State.engBanks
  split
  · rename_i e
    extract_lets
    exact .ite (.hold fun _ h => h) (.ok (h1.state e).same)
  · rename_i e
    exact .hold fun t h => h1.asks e h
  · rename_i e
    exact .stop (h1.stopped e).same

theorem Keeps.engXlate (h : Keeps s₀ s) {c id : Nat} {va : Word} {kind : Nat} : EngKeeps s₀ (s.engXlate c id va kind) := by
  unfold State.engXlate
  extract_lets
  split
  · rename_i e1
    extract_lets s2
    have h2 : Keeps s₀ s2 := (h.xlate_snd.of_eq e1).modCmd
    exact .ite (.ok h2) (.stop h2)
  · exact .hold fun _ h => h.pageRequest
  · rename_i e3
    split
    · exact .ite (.stop (h.xlate_snd.of_eq e3)) (.hold fun _ h => h.modCmd)
    · exact .hold fun _ h => h

theorem Keeps.engPlace (h : Keeps s₀ s) {c id space : Nat} {a : Word} {kind : Nat} :
    EngKeeps s₀ (s.engPlace c id space a kind) := by
  unfold State.engPlace
  extract_lets device
  have hd : ∀ va f, EngKeeps s₀ (device va f) := fun _ _ => .ite (.ok h) (h.engXlate.andThen fun _ _ h => .ok h)
  split
  · exact hd a fun l => l
  · split
    · exact .stop h
    · exact hd _ asCo
    · exact .ok h
    · exact .ok h

theorem Keeps.engEnter_snd (h : Keeps s₀ s) {c id v : Nat} {psn : Bool} : Keeps s₀ (s.engEnter c id v psn).2 := h.enterAs_snd

theorem Keeps.engRead (h : Keeps s₀ s) {c id n : Nat} {p : Spot'} : EngKeeps s₀ (s.engRead c id n p) := by
  unfold State.engRead
  extract_lets _ f1
  have h1 : ∀ t x1 x2, Keeps s₀ t → EngKeeps s₀ (f1 t x1 x2) := fun _ _ _ h => .ok h.engEnter_snd
  split
  · exact h1 _ _ _ h
  · split
    · extract_lets _ s2
      have h2 : Keeps s₀ s2 := h.useBank.noteChip.charge
      exact .ite (.stop h2) (h1 _ _ _ h2)
  · split
    · exact .stop h
    · extract_lets f3 _
      have h3 : ∀ t, Keeps s₀ t → Keeps s₀ (f3 t) := fun _ h => h.send
      refine .ite (.stop h) ?_
      refine .ite (.stop h) ?_
      refine .ite (.hold fun _ h => (h3 _ h.chosen).modCmd) ?_
      exact h1 _ _ _ (h3 _ h.chosen).free_snd
    · refine .ite (.stop h) ?_
      refine .ite (.hold fun _ h => h) ?_
      exact .ite (h1 _ _ _ h.touchHome) (.hold fun _ h => h.askHalves)
    · extract_lets _ s4 _
      have h4 : Keeps s₀ s4 := h.noteBad.charge
      refine .ite (.hold fun _ h => h) ?_
      refine .ite (.ite (.stop h4) (h1 _ _ _ h4.touchHome)) ?_
      exact .hold fun _ h => h.askHalves

theorem Keeps.engCheck (h : Keeps s₀ s) {c n : Nat} {psn : Bool} {p : Spot'} : EngKeeps s₀ (s.engCheck c n psn p) := by
  unfold State.engCheck
  extract_lets
  split
  · exact .ok h
  · exact .ok h
  · split
    · exact .stop h
    · exact .ok h
    · exact .ite (.ok h) (.hold fun _ h => h.askHalves)
    · refine .ite (.stop h) ?_
      refine .ite (.stop h) ?_
      refine .ite (.stop h) ?_
      refine .ite (.hold fun _ h => h) ?_
      exact .ite (.ok h) (.hold fun _ h => h.askHalves)

theorem Keeps.cmdOut (h : Keeps s₀ s) {c id : Nat} : Keeps s₀ (s.cmdOut c id) := h.modCmd

theorem Keeps.engWrite (h : Keeps s₀ s) {c id : Nat} {bs : List Byte} {psn : Bool} {p : Spot'} :
    Keeps s₀ (s.engWrite c id bs psn p) := by
  unfold State.engWrite
  extract_lets
  split
  · exact h
  · exact h.useBanks.bankStore
  · extract_lets _ _ _ s1 s2
    have h1 : Keeps s₀ s1 := (h.charge.ite h).touchHome
    have h2 : Keeps s₀ s2 := h1.cmdOut
    split
    · exact h
    · exact .ite h.same.cmdOut.send h.failStore
    · exact .ite h.failStore h.makeIrrevocable.cmdOut.touchHome.postHost
    · exact .ite (.ite h1.charge h1.writeDirty) (.ite h2.sendReplica h2.soon)

theorem Keeps.engWords (h : Keeps s₀ s) {word : Word → Nat → State → Eng (Nat × Bool)} {fuel : Nat} {a : Word} {n : Nat}
    (hw : ∀ a k t, Keeps s₀ t → EngKeeps s₀ (word a k t)) : EngKeeps s₀ (s.engWords word fuel a n) := by
  induction fuel generalizing s a n with
  | zero => exact .ok h
  | succ fuel ih =>
    unfold State.engWords
    extract_lets
    split
    · exact .ok h
    · exact (hw _ _ _ h).andThen fun _ t h => (ih h).andThen fun _ t h => .ok h

theorem Keeps.engBytes (h : Keeps s₀ s) {c d id space : Nat} {a : Word} {n : Nat} : EngKeeps s₀ (s.engBytes c d id space a n) :=
  h.engWords fun _ _ _ h => h.engPlace.andThen fun _ _ h => h.engRead

theorem Keeps.engStore (h : Keeps s₀ s) {c id space : Nat} {rs : List Run} : EngKeeps s₀ (s.engStore c id space rs) := by
  unfold State.engStore
  refine .andThen (.engFold h fun _ _ _ h => h.engPlace.andThen fun _ _ h => h.engCheck.andThen fun _ _ h => .ok h) fun v t h => ?_
  extract_lets _ s1
  have h1 : Keeps s₀ s1 := by
    refine (h.withAgenda fun _ => rfl).foldl fun s x h => ?_
    extract_lets s2
    have h2 : Keeps s₀ s2 := (h.withAgenda fun _ => rfl).engWrite
    exact h2.withAgenda (h.agenda.append h2.agenda)
  exact .ok (h1.withAgenda (h1.agenda.append h.agenda))

/-! #### Machine/Markhor -/

theorem Keeps.tileBytes_snd (h : Keeps s₀ s) {c id level off n : Nat} : Keeps s₀ (s.tileBytes c id level off n).2 :=
  h.foldl_snd fun _ _ h => h.noteChip.charge.engEnter_snd

theorem Keeps.tileOperand_snd (h : Keeps s₀ s) {c id level off rows pitch w n : Nat} :
    Keeps s₀ (s.tileOperand c id level off rows pitch w n).2 :=
  h.tileBytes_snd

theorem Keeps.startRep (h : Keeps s₀ s) {c : Nat} {m : Cmd} {i : Nat} : Keeps s₀ (s.startRep c m i) := by
  unfold State.startRep
  extract_lets
  refine .ite h.stopCmd ?_
  split
  · exact h.stopCmd
  · exact h.stopCmd
  · exact h.tileOperand_snd.tileOperand_snd.modCmd

theorem Keeps.startTile (h : Keeps s₀ s) {c : Nat} {m : Cmd} : Keeps s₀ (s.startTile c m) :=
  .ite h.stopCmd (.ite h.stopCmd h.modCore.startRep)

theorem RamOk.breakPair {k : Core} (h : RamOk s₀ k.scratch) {n : Nat} {tag : BitVec 4} : RamOk s₀ (k.breakPair n tag).scratch := by
  unfold Core.breakPair
  split <;> exact h

theorem RamOk.zeroTile {k : Core} (h : RamOk s₀ k.scratch) {m : Cmd} : RamOk s₀ (k.zeroTile m).scratch := h.breakPair.foldlCore

theorem RamOk.loadTile {k : Core} (h : RamOk s₀ k.scratch) {m : Cmd} : RamOk s₀ (k.loadTile m).scratch := by
  unfold Core.loadTile
  extract_lets _ k1
  have h1 : RamOk s₀ k1.scratch := by
    dsimp only [k1]
    split
    · exact h
    · exact h.zeroTile
  refine h1.foldlCore fun k x h => ?_
  extract_lets
  split <;> exact h

theorem Keeps.execEvMstepZeroing (h : Keeps s₀ s) {core cmd : Nat} : Goes s₀ (execEvMstepZeroing core cmd s) := by
  unfold Machine.execEvMstepZeroing
  split
  · exact .next h
  · exact .ite (.next (h.modCore fun _ h => h.zeroTile)) (.next h)

theorem Keeps.execEvTileStepSliceRetire (h : Keeps s₀ s) {core cmd rep slice : Nat} :
    Goes s₀ (execEvTileStepSliceRetire core cmd rep slice s) := by
  unfold Machine.execEvTileStepSliceRetire
  split
  · exact .next h
  · extract_lets k
    have hk : RamOk s₀ k.scratch := h.scratch
    refine .ite (.next h) (.ite (.next h.stopCmd) (.ite (.next h.stopCmd) (.next (h.setCore ?_))))
    split <;> exact hk

theorem Keeps.execEvTileStepRetire (h : Keeps s₀ s) {core cmd : Nat} : Goes s₀ (execEvTileStepRetire core cmd s) := by
  unfold Machine.execEvTileStepRetire
  split
  · exact .next h
  · exact .ite (.next h.retireCmd) (.next h)

theorem Keeps.startAcc (h : Keeps s₀ s) {c : Nat} {m : Cmd} : Keeps s₀ (s.startAcc c m) := by
  unfold State.startAcc
  extract_lets _ _ _ s1 x2
  have h1 : Keeps s₀ s1 := h.modWp.ite h
  have h2 : Keeps s₀ x2.2 := h1.tileOperand_snd
  refine .ite h.stopCmd ?_
  refine .ite h ?_
  refine .ite h.stopCmd ?_
  refine .ite h.stopCmd ?_
  split
  · exact h1.stopCmd
  · exact .ite (.ite h1.stopCmd h1.modCmd) (.ite h2.stopCmd h2.modCmd)

theorem Keeps.execEvAccCellsWritten (h : Keeps s₀ s) {core cmd : Nat} : Goes s₀ (execEvAccCellsWritten core cmd s) := by
  unfold Machine.execEvAccCellsWritten
  split
  · exact .next h
  · extract_lets
    refine .ite (.next h) (.ite (.next (h.modCore fun _ h => h.zeroTile)) (.ite ?_ (.next (h.modCore fun _ h => h.loadTile))))
    split
    · rename_i e
      exact .next (h.engStore.asks e h)
    · rename_i e
      exact .next (h.engStore.stopped e).stopCmd
    · rename_i e
      exact .next (h.engStore.state e).landed

theorem Keeps.execEvAccCommandRetire (h : Keeps s₀ s) {core cmd : Nat} : Goes s₀ (execEvAccCommandRetire core cmd s) := by
  unfold Machine.execEvAccCommandRetire
  split
  · exact .next h
  · exact .ite (.next h.retireCmd) (.next h)

/-! #### Machine/Serow -/

theorem Keeps.copyIndex (h : Keeps s₀ s) {c : Nat} {m : Cmd} {i : Nat} : EngKeeps s₀ (s.copyIndex c m i) :=
  h.engPlace.andThen fun _ _ h => h.engRead.andThen fun _ _ h => .ite (.stop h) (.ok h)

theorem Keeps.copyByte (h : Keeps s₀ s) {c : Nat} {m : Cmd} {k : Nat} : EngKeeps s₀ (s.copyByte c m k) := by
  unfold State.copyByte
  extract_lets
  split
  · split <;> exact .ok h
  · exact h.copyIndex.andThen fun _ _ h => .ite (.ok h) (.ok h)

theorem Keeps.engPages (h : Keeps s₀ s) {c id : Nat} {l : List (Word × Nat)} {cs : List Nat} {all : Bool} :
    EngKeeps s₀ (s.engPages c id l cs all) := by
  induction l generalizing s cs all with
  | nil => exact .ok h
  | cons x l ih =>
    unfold State.engPages
    split
    · rename_i e
      exact ih (h.engXlate.state e)
    · rename_i e
      exact .ite (ih h) (ih (h.engXlate.asks e h))
    · rename_i e
      exact .stop (h.engXlate.stopped e)

theorem Keeps.copyPages (h : Keeps s₀ s) {c : Nat} {m : Cmd} : EngKeeps s₀ (s.copyPages c m) := by
  unfold State.copyPages
  refine .ite (.ok h) ?_
  exact h.engPages.andThen fun _ _ h => .ite (.ok h) (.ite (.stop h) (.ok h.modCmd))

theorem Keeps.reachedClass (h : Keeps s₀ s) {c : Nat} {m : Cmd} {a : Word} {n : Nat} {scatter : Bool} :
    EngKeeps s₀ (s.reachedClass c m a n scatter) := by
  unfold State.reachedClass
  extract_lets
  refine .ite ?_ (.ok h)
  exact .engFold h fun _ _ _ h => h.engXlate.andThen fun _ _ h => .ite (.stop h) (.ok h)

theorem Keeps.copyRuns (h : Keeps s₀ s) {c : Nat} {m : Cmd} {k1 fuel k : Nat} {rs : List Run} :
    EngKeeps s₀ (s.copyRuns' c m k1 fuel k rs) := by
  induction fuel generalizing s k rs with
  | zero => exact .ok h
  | succ fuel ih =>
    unfold State.copyRuns'
    split
    · exact .ok h
    · refine h.copyByte.andThen fun x s h => ?_
      extract_lets n checked
      have hc : EngKeeps s₀ checked := by
        dsimp only [checked]
        split
        · exact h.reachedClass
        · exact .ok h
      exact hc.andThen fun _ s h => h.engBytes.andThen fun _ s h => ih h

theorem Keeps.copyGranule (h : Keeps s₀ s) {c : Nat} {m : Cmd} {k k1 : Nat} : EngKeeps s₀ (s.copyGranule c m k k1) :=
  h.engBanks fun _ h => h.copyRuns.andThen fun _ _ h => h.engStore

theorem Keeps.startCopy (h : Keeps s₀ s) {c : Nat} {m : Cmd} : Keeps s₀ (s.startCopy c m) := by
  unfold State.startCopy
  extract_lets s1
  have h1 : Keeps s₀ s1 := h.modWp
  exact .ite h.stopCmd (.ite h1.retireCmd (.ite h1.stopCmd (h1.copyPages.finish h1)))

theorem Keeps.execEvCopyRetire (h : Keeps s₀ s) {core cmd : Nat} : Goes s₀ (execEvCopyRetire core cmd s) := by
  unfold Machine.execEvCopyRetire
  split
  · exact .next h
  · exact .ite (.next (h.push.ite h).retireCmd) (.next h)

theorem Keeps.execEvCopyGranuleLands (h : Keeps s₀ s) {core cmd : Nat} : Goes s₀ (execEvCopyGranuleLands core cmd s) := by
  unfold Machine.execEvCopyGranuleLands
  split
  · exact .next h
  · extract_lets
    refine .ite (.next h) ?_
    refine .ite (.next h.chosen) ?_
    split
    · rename_i e1
      exact .next (h.chosen.copyPages.asks e1 h.chosen)
    · rename_i e2
      exact .next (h.chosen.copyPages.stopped e2).stopCmd
    · rename_i e3
      exact .next (h.chosen.copyPages.state e3)
    · rename_i e4
      have h5 := h.chosen.copyPages.state e4
      split
      · rename_i e6
        exact .next (h5.copyGranule.asks e6 h5)
      · rename_i e7
        exact .next (h5.copyGranule.stopped e7).stopCmd
      · rename_i e8
        extract_lets s9 s10
        have h9 : Keeps s₀ s9 := (h5.copyGranule.state e8).modCmd
        have h10 : Keeps s₀ s10 := h9.ite h9.landed
        exact .next (h10.later.ite h10)

/-! #### Machine/Tahr -/

theorem Keeps.tahrWord (h : Keeps s₀ s) {c id : Nat} {a : Word} {n : Nat} : EngKeeps s₀ (s.tahrWord c id a n) := by
  unfold State.tahrWord
  extract_lets
  refine .ite (.ok h.engEnter_snd) ?_
  refine h.engXlate.andThen fun v t h => ?_
  extract_lets _ _ _ s1 _
  have h1 : Keeps s₀ s1 := h.noteBad.charge.touchLine
  refine .ite (.hold fun _ h => h) ?_
  refine .ite (.hold fun _ h => h.askHalves) ?_
  exact .ite (.stop h1) (.ok h1.engEnter_snd)

theorem Keeps.tahrSource (h : Keeps s₀ s) {c : Nat} {m : Cmd} : EngKeeps s₀ (s.tahrSource c m) :=
  EngKeeps.engFold h fun _ _ _ h => (h.engWords fun _ _ _ h => h.tahrWord).andThen fun _ _ h => .ok h

theorem Keeps.ownPages (h : Keeps s₀ s) {c id : Nat} {l : List (Word × Nat)} {all : Bool} : EngKeeps s₀ (s.ownPages c id l all) := by
  induction l generalizing s all with
  | nil => exact .ok h
  | cons x l ih =>
    unfold State.ownPages
    split
    · rename_i e
      have h1 := h.engXlate.state e
      exact .ite (ih h1) (.stop h1)
    · rename_i e
      exact .ite (ih h) (ih (h.engXlate.asks e h))
    · rename_i e
      exact .stop (h.engXlate.stopped e)

theorem Keeps.wakeTahr (h : Keeps s₀ s) {c : Nat} {m : Cmd} : Keeps s₀ (s.wakeTahr c m) := h.foldl fun _ _ h => h.setIsl.ite h

theorem Keeps.tahrRead (h : Keeps s₀ s) {c : Nat} {m : Cmd} : EngKeeps s₀ (s.tahrRead c m) := by
  unfold State.tahrRead
  extract_lets
  refine .ite (.ok h.wakeTahr) ?_
  refine h.ownPages.andThen fun v t h => ?_
  extract_lets x1
  have h1 : EngKeeps s₀ x1 := by
    dsimp only [x1]
    split
    · exact h.engBytes.andThen fun _ _ h => .ok h
    · exact .ok h
  refine .ite (.ok h) ?_
  refine .ite (.ok h.wakeTahr) ?_
  exact h1.andThen fun _ _ h => h.tahrSource.andThen fun _ _ h => .ite (.stop h) (.ok h.modCmd)

theorem Keeps.startTahr (h : Keeps s₀ s) {c : Nat} {m : Cmd} : Keeps s₀ (s.startTahr c m) := by
  unfold State.startTahr
  extract_lets s1 _ _
  have h1 : Keeps s₀ s1 := h.modWp.ite h
  exact .ite h.stopCmd (.ite h1.stopCmd (h1.tahrRead.finish h1))

theorem Keeps.execEvTahrRetire (h : Keeps s₀ s) {core cmd : Nat} : Goes s₀ (execEvTahrRetire core cmd s) := by
  unfold Machine.execEvTahrRetire
  split
  · exact .next h
  · exact .ite (.next h.retireCmd) (.next h)

theorem Keeps.execEvTahrResultLands (h : Keeps s₀ s) {core cmd : Nat} : Goes s₀ (execEvTahrResultLands core cmd s) := by
  unfold Machine.execEvTahrResultLands
  split
  · exact .next h
  · refine .ite (.next h) ?_
    refine .ite (.next h.chosen) ?_
    split
    · rename_i e1
      exact .next (h.chosen.tahrRead.asks e1 h.chosen)
    · rename_i e2
      exact .next (h.chosen.tahrRead.stopped e2).stopCmd
    · rename_i e3
      exact .next (h.chosen.tahrRead.state e3)
    · rename_i e4
      have h5 := h.chosen.tahrRead.state e4
      split
      · exact .next h5
      · extract_lets
        split
        · rename_i e6
          exact .next ((h5.engBanks fun _ h => h.engStore).asks e6 h5)
        · rename_i e7
          exact .next ((h5.engBanks fun _ h => h.engStore).stopped e7).stopCmd
        · rename_i e8
          extract_lets s9 s10
          have h9 : Keeps s₀ s9 := ((h5.engBanks fun _ h => h.engStore).state e8).modCmd
          have h10 : Keeps s₀ s10 := h9.ite h9.landed
          exact .next (h10.later.ite h10)

/-! #### Machine/Collect -/

theorem Keeps.startColl (h : Keeps s₀ s) {c : Nat} {m : Cmd} : Keeps s₀ (s.startColl c m) := by
  unfold State.startColl
  extract_lets _ _ s1 _ _
  have h1 : Keeps s₀ s1 := h.modWp.ite h
  refine .ite h.retireCmd ?_
  refine .ite h.stopCmd ?_
  refine .ite (h1.modTask.foldl fun _ _ h => h.stopCmd.ite h) ?_
  refine .ite h1.stopCmd ?_
  refine .ite h1.stopCmd ?_
  refine .ite ?_ h1
  split
  · rename_i e2
    exact (h1.engBytes.state e2).send
  · rename_i e3
    exact h1.engBytes.asks e3 h1
  · rename_i e4
    exact (h1.engBytes.stopped e4).stopCmd

theorem Keeps.contribution (h : Keeps s₀ s) {c : Nat} {m : Cmd} {rank : Nat} : EngKeeps s₀ (s.contribution c m rank) := by
  unfold State.contribution
  extract_lets
  refine .ite (.ok (h.foldl_snd fun _ _ h => h.free_snd.pair)) ?_
  split
  · exact .hold fun _ h => h
  · exact h.engBytes.andThen fun _ _ h => .ok h

theorem Keeps.landAll (h : Keeps s₀ s) {c : Nat} {m : Cmd} {base : Nat} {first : Bool} {vs : List (Nat × Bool)} :
    EngKeeps s₀ (s.landAll c m base first vs) :=
  .engFold h fun _ _ _ h => h.engPlace.andThen fun _ _ h => .andThen (.ite (.ok h) h.engRead) fun _ _ h => .ok h.engWrite

theorem Keeps.execEvCollectiveLanding (h : Keeps s₀ s) {core cmd rank : Nat} : Goes s₀ (execEvCollectiveLanding core cmd rank s) := by
  unfold Machine.execEvCollectiveLanding
  split
  · exact .next h
  · extract_lets
    refine .ite (.next h) ?_
    refine .ite (.next h.chosen) ?_
    split
    · rename_i e1
      exact .next ((h.chosen.engBanks fun _ h => h.contribution.andThen fun _ _ h => h.landAll).asks e1 h.chosen)
    · rename_i e2
      exact .next ((h.chosen.engBanks fun _ h => h.contribution.andThen fun _ _ h => h.landAll).stopped e2).stopCmd
    · rename_i e3
      exact .next ((h.chosen.engBanks fun _ h => h.contribution.andThen fun _ _ h => h.landAll).state e3).modCmd.landed

theorem Keeps.execEvCollectivePartRetire (h : Keeps s₀ s) {core cmd : Nat} : Goes s₀ (execEvCollectivePartRetire core cmd s) := by
  unfold Machine.execEvCollectivePartRetire
  split
  · exact .next h
  · exact .ite (.next h) (.ite (.next h.stopCmd) (.ite (.next h.retireCmd) (.next h)))

theorem Keeps.execEvEngineCommandStart (h : Keeps s₀ s) {core cmd rep : Nat} : Goes s₀ (execEvEngineCommandStart core cmd rep s) := by
  unfold Machine.execEvEngineCommandStart
  split
  · exact .next h
  · extract_lets _ _ s1 _
    have h1 : Keeps s₀ s1 := h.trace.modCmd
    refine .ite (.ite (.next h.startRep) (.next h)) ?_
    refine .ite (.next h) ?_
    refine .next ?_
    split
    · exact h1.startCopy
    · exact h1.startTile
    · exact h1.startAcc
    · exact h1.startTahr
    · exact h1.startColl

/-! #### Machine/Schedule -/

theorem Keeps.writeRecord (h : Keeps s₀ s) {n : Nat} {v : Word} : Keeps s₀ (s.writeRecord n v) := by
  unfold State.writeRecord
  extract_lets _ s1 _ _ s2 s3 _
  have h1 : Keeps s₀ s1 := h.same
  have h2 : Keeps s₀ s2 := h.same
  have h3 : Keeps s₀ s3 := h2.setBindStatus
  refine .ite h ?_
  refine .ite ?_ (.ite h (.ite h2.setBindStatus (.ite h (h3.modCore.ite h3).tell.noteBound)))
  refine .ite h.same ?_
  refine .ite ?_ h1
  refine Keeps.tell (h1.modCore.modTask fun k h => ?_)
  split <;> exact h

theorem Keeps.execEvArmBind (h : Keeps s₀ s) {n : Nat} {v : Word} : Goes s₀ (execEvArmBind n v s) := .next (h.writeRecord.ite h)
theorem Keeps.execEvArmResume (h : Keeps s₀ s) {n : Nat} {v : Word} : Goes s₀ (execEvArmResume n v s) := .next (h.writeRecord.ite h)
theorem Keeps.execEvArmPreempt (h : Keeps s₀ s) {n : Nat} {v : Word} : Goes s₀ (execEvArmPreempt n v s) := .next (h.writeRecord.ite h)
theorem Keeps.execEvArmFreeze (h : Keeps s₀ s) {n : Nat} {v : Word} : Goes s₀ (execEvArmFreeze n v s) := .next (h.writeRecord.ite h)
theorem Keeps.execEvCancelBindRecord (h : Keeps s₀ s) {n : Nat} : Goes s₀ (execEvCancelBindRecord n s) := .next (h.writeRecord.ite h)
theorem Keeps.wantOos (h : Keeps s₀ s) {c : Nat} {b : Bool} : Keeps s₀ (s.wantOos c b) := h.modCore.applyOos

theorem Keeps.undoTask (h : Keeps s₀ s) {part task : Nat} : Keeps s₀ (s.undoTask part task) := by
  unfold State.undoTask
  extract_lets _ s1
  have h1 : Keeps s₀ s1 := by
    refine h.foldl fun s x h => ?_
    extract_lets _ s2
    have h2 : Keeps s₀ s2 := (h.withAgenda fun _ => rfl).undoLine
    exact h2.withAgenda (h.agenda.append h2.agenda)
  exact h1.dropLog

theorem Keeps.dropIssued (h : Keeps s₀ s) {task : Nat} : Keeps s₀ (s.dropIssued task) := by
  refine (h.mapClusters ?_).same rfl
  exact fun _ h => h

theorem Keeps.rollbackHere_snd (h : Keeps s₀ s) {task : Nat} : Keeps s₀ (s.rollbackHere task).2 :=
  ((h.dropIssued.foldl fun _ _ h => h.freeStamp).undoTask.foldl fun _ _ h => h.dropMember).cancelArmed

theorem Keeps.restartTask (h : Keeps s₀ s) {task : Nat} {enough : Bool} : Keeps s₀ (s.restartTask task enough) :=
  h.modTask fun _ _ _ => rfl

theorem Keeps.loseMember (h : Keeps s₀ s) {task : Nat} : Keeps s₀ (s.loseMember task) :=
  .ite h.abortTask h.rollbackHere_snd.tell.restartTask

theorem Keeps.spendRecord (h : Keeps s₀ s) {n : Nat} : Keeps s₀ (s.spendRecord n) := by
  unfold State.spendRecord
  refine h.setBindStatus.modCore fun k h => ?_
  split <;> exact h

/-- A record that is due names a core of the device. -/
theorem bindCore_lt_of_recordDue {n op : Nat} (h : s.recordDue n op = true) : s.bindCore n < 72 := by
  simp only [State.recordDue, Bool.and_eq_true, decide_eq_true_eq] at h
  exact h.2

theorem Keeps.execEvBindExecute (h : Keeps s₀ s) {n : Nat} : Goes s₀ (execEvBindExecute n s) := by
  unfold Machine.execEvBindExecute
  extract_lets c b x s1 k q s2 s3 s4
  have h3 : Keeps s₀ s3 := h.setBindStatus.dropClean.clearShare.setCore RamOk.empty
  have h4 : Keeps s₀ s4 := by
    refine h3.modTask fun k h => ?_
    split <;> exact h
  split
  · exact .next h
  · rename_i hdue
    simp only [Bool.or_eq_true, not_or, Bool.not_eq_true, Bool.not_eq_false'] at hdue
    have hc : c < 72 := bindCore_lt_of_recordDue hdue.1
    refine .ite (.next h.spendRecord) (.ite (.next (h.foldl fun s x h => h.spendRecord).loseMember) ?_)
    exact .ite (.next h.spendRecord) (.next (h4.later (.turn hc)))

theorem Keeps.execEvPreemptExecute (h : Keeps s₀ s) {n : Nat} : Goes s₀ (execEvPreemptExecute n s) := by
  unfold Machine.execEvPreemptExecute
  extract_lets _ s1 _ s2
  have h1 : Keeps s₀ s1 := h.setBindStatus
  have h2 : Keeps s₀ s2 := by
    refine h1.modCore.modTask fun k h => ?_
    split <;> exact h
  exact .ite (.next h) (.ite (.next h1) (.next (h2.soon.ite h2)))

theorem Keeps.freezeStamps (h : Keeps s₀ s) {task memb : Nat} : Keeps s₀ (s.freezeStamps task memb) :=
  h.foldl fun _ _ h => (h.foldl fun _ _ h => (h.voidCopy.ite h).modCopy).modStamp

theorem Keeps.freezeMembers (h : Keeps s₀ s) {task : Nat} : Keeps s₀ (s.freezeMembers task) :=
  h.foldl fun _ _ h => .ite h.recordOn.freezeStamps.modCore h

theorem Keeps.freezeHere (h : Keeps s₀ s) {task : Nat} {debug : Bool} : Keeps s₀ (s.freezeHere task debug) := h.freezeMembers.modTask
theorem Keeps.freezeGang (h : Keeps s₀ s) {task : Nat} {debug : Bool} : Keeps s₀ (s.freezeGang task debug) := h.tell.freezeHere
theorem Keeps.execEvPreemptTimeout (h : Keeps s₀ s) {task : Nat} : Goes s₀ (execEvPreemptTimeout task s) := .next (h.soon.ite h)

theorem Keeps.execEvForcedFreeze (h : Keeps s₀ s) {task : Nat} : Goes s₀ (execEvForcedFreeze task s) := by
  unfold Machine.execEvForcedFreeze
  extract_lets _ _ _ _ s1
  have h1 : Keeps s₀ s1 := h.foldl fun _ _ h => h.setBindStatus
  refine .ite (.next h) ?_
  exact .ite (.next h1.modTask) (.ite (.next h1.freezeGang) (.next h1.freezeHere))

theorem Keeps.captureMember (h : Keeps s₀ s) {c : Nat} : Keeps s₀ (s.captureMember c) := by
  unfold State.captureMember
  extract_lets k b s1 s2
  have hk : RamOk s₀ k.scratch := h.scratch
  have h1 : Keeps s₀ s1 := h.modTask fun t h => h.addSave RamOk.empty
  have h2 : Keeps s₀ s2 := h1.same
  exact h2.setCore (by exact hk)

theorem Keeps.noteSaved (h : Keeps s₀ s) {task : Nat} : Keeps s₀ (s.noteSaved task) := .ite (h.foldl fun _ _ h => h.tell).modTask h

theorem Keeps.execEvFastContextCaptured (h : Keeps s₀ s) {core : Nat} : Goes s₀ (execEvFastContextCaptured core s) :=
  .ite (.next h.captureMember.noteSaved) (.next h)

theorem Keeps.tellPoints (h : Keeps s₀ s) {task : Nat} {cs : List Nat} : Keeps s₀ (s.tellPoints task cs) :=
  h.foldl fun _ _ h => h.modCore.tell

theorem Keeps.execEvGangSaveAtPoints (h : Keeps s₀ s) {task : Nat} : Goes s₀ (execEvGangSaveAtPoints task s) := by
  unfold Machine.execEvGangSaveAtPoints
  extract_lets _ _ _ s1 _
  have h1 : Keeps s₀ s1 := h.tellPoints
  split
  · refine .ite ?_ (.next h1)
    exact .next (h1.foldl fun _ _ h => (h.recordOn.foldl fun _ _ h => h.modStamp).captureMember).noteSaved
  · exact .next h1

theorem Keeps.execEvSpillComplete (h : Keeps s₀ s) {core : Nat} : Goes s₀ (execEvSpillComplete core s) := by
  unfold Machine.execEvSpillComplete
  extract_lets k b lo cl s1 s2 s3
  have hk : RamOk s₀ k.scratch := h.scratch
  have h1 : Keeps s₀ s1 := h.modTask fun t h => h.mapSaves fun x h => by
    split
    · exact hk.withBanks.written
    · exact h
  have h3 : Keeps s₀ s3 := h1.modCluster.releaseCore
  exact .ite (.next (h3.modTask.ite h3)) (.next h)

theorem Keeps.resumeStamps (h : Keeps s₀ s) {task memb c : Nat} : Keeps s₀ (s.resumeStamps task memb c) :=
  h.foldl fun _ _ h => h.modStamp

theorem Keeps.resumeMember (h : Keeps s₀ s) {c : Nat} {x : SavedCtx} {save : Nat} (hx : RamOk s₀ x.scratch) :
    Keeps s₀ (s.resumeMember c x save) := by
  unfold State.resumeMember
  extract_lets task k s1 s2 wait b q s3 s4 s5
  have hk : RamOk s₀ k.scratch := h.scratch
  have h1 : Keeps s₀ s1 := (h.clearShare.modCluster fun _ h => h.merge).ite h
  have h3 : Keeps s₀ s3 := h1.dropClean.setCore (RamOk.ite hx.restored hk)
  have h5 : Keeps s₀ s5 := h3.resumeStamps.modTask fun t h => h.filterSaves
  exact h5.recordOn

theorem Keeps.savedCtx (h : Keeps s₀ s) {task memb : Nat} {x : SavedCtx} (e : s.savedCtx task memb = some x) : RamOk s₀ x.scratch :=
  h.task.save (List.mem_of_find?_eq_some e)

theorem Keeps.execEvResumeExecute (h : Keeps s₀ s) {n : Nat} : Goes s₀ (execEvResumeExecute n s) := by
  unfold Machine.execEvResumeExecute
  extract_lets c task tick go s1
  have h1 : Keeps s₀ s1 := h.setBindStatus
  split
  · exact .next h
  · rename_i hdue
    simp only [Bool.or_eq_true, not_or, Bool.not_eq_true, Bool.not_eq_false'] at hdue
    have hc : c < 72 := bindCore_lt_of_recordDue hdue.1.1
    refine .ite (.next (h.foldl fun s x h => h.spendRecord).loseMember) ?_
    split
    · rename_i e
      exact .next (((h1.resumeMember (h1.savedCtx e)).later (.turn hc)).ite h1)
    · exact .next h1

/-! #### Machine/Audit -/

theorem Keeps.auditedWrite (h : Keeps s₀ s) {reg kind part : Nat} {old v : Word} {ok : Bool} {f : State → State}
    (hf : ∀ t, Keeps s₀ t → Keeps s₀ (f t)) : Keeps s₀ (s.auditedWrite reg kind part old v ok f) :=
  .ite h ((hf _ h).ite h).present

theorem Keeps.mergeOne (h : Keeps s₀ s) {p : Pending} : Keeps s₀ (s.mergeOne p) := by
  unfold State.mergeOne
  split
  · extract_lets s1
    have h1 : Keeps s₀ s1 := h.modPart
    exact .ite h1.same h
  · exact h

theorem Keeps.appendAudit (h : Keeps s₀ s) {kind part actor payload : Nat} : Keeps s₀ (s.appendAudit kind part actor payload) := h.same

theorem Keeps.takeEvent (h : Keeps s₀ s) {e : Event} : Keeps s₀ (s.takeEvent e) := by
  unfold State.takeEvent
  extract_lets s1
  have h1 : Keeps s₀ s1 := by
    dsimp -zeta only [s1]
    split
    · extract_lets _ _ s2
      have h2 : Keeps s₀ s2 := h.modPart.ite h
      exact (h2.withSaiga h2.saiga.store).same
    · exact h.appendAudit
    · extract_lets _ _ _ s3
      have h3 : Keeps s₀ s3 := h.modPart
      exact h3.withHbm h3.hbm.store
  exact h1.same

theorem Keeps.followUp (h : Keeps s₀ s) {e : Event} : Keeps s₀ (s.followUp e) := by
  unfold State.followUp
  split
  · exact .ite h.releaseCore (.ite h.soon (.ite h.soon h))
  · exact h

theorem Keeps.execEvEventTaken (h : Keeps s₀ s) : Goes s₀ (execEvEventTaken s) := by
  unfold Machine.execEvEventTaken
  extract_lets s1
  have h1 : Keeps s₀ s1 := h.foldl fun _ _ h => h.mergeOne
  refine .ite (.next (h.ite h.same)) ?_
  split
  · exact .next h1
  · extract_lets s2
    have h2 : Keeps s₀ s2 := h1.same.takeEvent.followUp
    exact .next (h2.same.ite h2)

theorem Keeps.execEvEvhead (h : Keeps s₀ s) {v : Word} : Goes s₀ (execEvEvhead v s) := .ite (.next h) (.next h.same)
theorem Keeps.execEvEvcfg (h : Keeps s₀ s) {v : Word} : Goes s₀ (execEvEvcfg v s) := .ite (.next h) (.next h.same)

theorem Keeps.execEvAuditCheckpoint (h : Keeps s₀ s) : Goes s₀ (execEvAuditCheckpoint s) := by
  unfold Machine.execEvAuditCheckpoint
  split
  · exact .next h
  · exact .next h.same

theorem Keeps.execEvAuditFree (h : Keeps s₀ s) {seq : Nat} : Goes s₀ (execEvAuditFree seq s) := .ite (.next h.same) (.next h)
theorem Keeps.execEvAudw4 (h : Keeps s₀ s) {v : Word} : Goes s₀ (execEvAudw4 v s) := .ite (.next h) (.next h.same.present)
theorem Keeps.execEvMrgo (h : Keeps s₀ s) {v : Word} : Goes s₀ (execEvMrgo v s) := .next (h.auditedWrite fun _ h => h.same)
theorem Keeps.hear (h : Keeps s₀ s) {q : SpdmReq} {body : List (BitVec 512)} : Keeps s₀ (s.hear q body) := h.same

theorem Keeps.answerSigned (h : Keeps s₀ s) {q : SpdmReq} {body : List (BitVec 512)} : Keeps s₀ (s.answerSigned q body) := by
  unfold State.answerSigned
  extract_lets s1
  have h1 : Keeps s₀ s1 := h.hear
  exact h1.same.send

theorem Keeps.execEvSpdmRequest (h : Keeps s₀ s) {q : SpdmReq} : Goes s₀ (execEvSpdmRequest q s) := by
  unfold Machine.execEvSpdmRequest
  split
  · exact .next h.same.hear.send
  · exact .next h.hear.send
  · exact .next h.hear.send
  · exact .next h.answerSigned
  · exact .next h.answerSigned
  · exact .next h.same.answerSigned
  · exact .next h.same
  · refine .ite (.next h.send) ?_
    split <;> exact .next h.send
  · refine .ite (.next h.send) ?_
    split
    · exact .next h.send
    · exact .next h.same.send

/-! #### Machine/Saiga -/

theorem Keeps.setBoot (h : Keeps s₀ s) {code st : Nat} : Keeps s₀ (s.setBoot code st) := by
  unfold State.setBoot
  extract_lets s1
  have h1 : Keeps s₀ s1 := h.same
  exact .ite h1.same.send h1

theorem Keeps.execEvHartsRetire (h : Keeps s₀ s) {x : Hart} : Goes s₀ (execEvHartsRetire x s) := .next (h.same.ite h)

theorem Keeps.execEvLockstepFailure (h : Keeps s₀ s) {faulty : Option Nat} : Goes s₀ (execEvLockstepFailure faulty s) := by
  unfold Machine.execEvLockstepFailure
  refine .ite (.next h) ?_
  split
  · exact .next h.same
  · exact .next h.same.setBoot

theorem Keeps.execEvFailoverComplete (h : Keeps s₀ s) : Goes s₀ (execEvFailoverComplete s) :=
  .ite (.next h) (.next h.same.present.present)

theorem Keeps.execEvCorectl (h : Keeps s₀ s) {core : Nat} {v : Word} : Goes s₀ (execEvCorectl core v s) :=
  .ite (.next h) (.ite (.next (h.auditedWrite fun _ h => h.wantOos)) (.next h.wantOos))

theorem Keeps.execEvWordError (h : Keeps s₀ s) {pa : Nat} {bad : Bool} : Goes s₀ (execEvWordError pa bad s) :=
  .next ((h.withHbm h.hbm.setMark).ite h)

theorem Keeps.modBanks (h : Keeps s₀ s) {level idx : Nat} {f : Banks → Banks} : Keeps s₀ (s.modBanks level idx f) := by
  unfold State.modBanks
  split
  · exact .ite h.modCore h
  · exact .ite h.modCluster h
  · exact h.same
  · exact h

theorem Keeps.execEvBankError (h : Keeps s₀ s) {level idx group bank row : Nat} :
    Goes s₀ (execEvBankError level idx group bank row s) :=
  .next h.modBanks

theorem Keeps.execEvBankFailed (h : Keeps s₀ s) {level idx group bank : Nat} : Goes s₀ (execEvBankFailed level idx group bank s) :=
  .ite (.next h) (.next h.modBanks.present)

theorem Keeps.execEvSliceOff (h : Keeps s₀ s) {slice : Nat} : Goes s₀ (execEvSliceOff slice s) := .ite (.next h) (.next h.same.present)

theorem Keeps.answer (h : Keeps s₀ s) {idx : Nat} : SomeKeeps s₀ (s.answer idx) := by
  unfold State.answer
  split
  · exact .some h.same.pair
  · exact .none

theorem Keeps.execEvPrrespRetry (h : Keeps s₀ s) {idx : Nat} : Goes s₀ (execEvPrrespRetry idx s) := by
  unfold Machine.execEvPrrespRetry
  refine .ite (.next h) ?_
  split
  · exact .next h
  · rename_i e1
    have h2 := h.answer.state e1
    split
    · exact .next (h2.modCore.ite h2)
    · exact .next (h2.modCopy.ite h2)
    · exact .next h2

theorem Keeps.execEvPrrespRefuse (h : Keeps s₀ s) {idx : Nat} : Goes s₀ (execEvPrrespRefuse idx s) := by
  unfold Machine.execEvPrrespRefuse
  refine .ite (.next h) ?_
  split
  · exact .next h
  · rename_i e1
    have h2 := h.answer.state e1
    split
    · exact .ite (.next h2.modCore.trapLate) (.next h2)
    · exact .next (h2.faultRegion.ite h2)
    · exact .next (h2.stopCmd.ite h2)

theorem Keeps.execEvPrqhead (h : Keeps s₀ s) {v : Word} : Goes s₀ (execEvPrqhead v s) :=
  .ite (.next h) (.next (h.same.foldl fun _ _ h => h.queueOne))

theorem Keeps.execEvTlbinv (h : Keeps s₀ s) {v : Word} : Goes s₀ (execEvTlbinv v s) := .ite (.next h) (.next h.same)
theorem Keeps.declassify (h : Keeps s₀ s) : Keeps s₀ s.declassify := h.same
theorem Keeps.rebase (h : Keeps s₀ s) {r : DRegion} {v pa : Nat} : Keeps s₀ (s.rebase r v pa) := h.same.startBuild

theorem Keeps.rebaseAll (h : Keeps s₀ s) {p : Nat} : Keeps s₀ (s.rebaseAll p) := by
  unfold State.rebaseAll
  refine h.foldl fun s x h => h.foldl fun s x h => ?_
  split
  · exact h.rebase
  · exact h

theorem Keeps.execEvTlbinvDone (h : Keeps s₀ s) : Goes s₀ (execEvTlbinvDone s) := by
  unfold Machine.execEvTlbinvDone
  have hl : ∀ x ∈ s.cores.map fun kv => (kv.1, s.invCore kv.1 kv.2), RamOk s₀ x.2.scratch := fun x hx => by
    obtain ⟨y, hy, rfl⟩ := List.mem_map.mp hx
    have hk : RamOk s₀ y.2.scratch := h.cores hy
    exact hk
  extract_lets p s1
  have h1 : Keeps s₀ s1 := h.declassify
  refine .ite (.next h) (.next (Keeps.rebaseAll ?_))
  exact (h1.withCores hl).same

theorem Keeps.execEvSramError (h : Keeps s₀ s) {addr : Nat} {bad : Bool} : Goes s₀ (execEvSramError addr bad s) :=
  .next ((h.withSaiga h.saiga.setMark).ite h)

theorem Keeps.execEvWlreq (h : Keeps s₀ s) {v : Word} : Goes s₀ (execEvWlreq v s) :=
  .ite (.next h.modPart) (.next (h.modPart.auditedWrite fun _ h => h.modPart))

theorem Keeps.execEvEbud (h : Keeps s₀ s) {v : Word} : Goes s₀ (execEvEbud v s) := .ite (.next h) (.next h.modPart)
theorem Keeps.execEvEbudWindowExpiry (h : Keeps s₀ s) {part : Nat} : Goes s₀ (execEvEbudWindowExpiry part s) := .next (h.modPart.ite h)

/-! #### Machine/Recovery -/

theorem Keeps.rollback (h : Keeps s₀ s) {c task : Nat} : Keeps s₀ (s.rollback c task) := h.wantOos.loseMember.present

theorem Keeps.execEvUncorrectableError (h : Keeps s₀ s) {core : Nat} : Goes s₀ (execEvUncorrectableError core s) := by
  unfold Machine.execEvUncorrectableError
  extract_lets _ s1 _
  have h1 : Keeps s₀ s1 := h.free_snd
  refine .ite (.next h) ?_
  split
  · exact .next h1.present
  · extract_lets s2
    have h2 : Keeps s₀ s2 := h1.modCore.present.charge
    exact .next (h2.ite h2.soon)

theorem Keeps.recover (h : Keeps s₀ s) {core : Nat} : Keeps s₀ (s.recover core) := .ite (.ite h.abortTask h.rollback) h
theorem Keeps.execEvRecover (h : Keeps s₀ s) {core : Nat} : Goes s₀ (execEvRecover core s) := .next (h.audited fun _ h => h.recover)

theorem Keeps.rollbackTold (h : Keeps s₀ s) {task : Nat} {enough : Bool} : Keeps s₀ (s.rollbackTold task enough) := by
  unfold State.rollbackTold
  extract_lets _ _ s1
  have h1 : Keeps s₀ s1 := h.rollbackHere_snd.restartTask
  exact .ite h (.ite h1.tell h1)

theorem Keeps.execEvGangNews (h : Keeps s₀ s) {task memb : Nat} {n : GangNews} : Goes s₀ (execEvGangNews task memb n s) := by
  unfold Machine.execEvGangNews
  extract_lets
  refine .next ?_
  split
  · exact h.modTask.noteBound
  · exact h.modTask
  · exact h.modTask
  · refine h.modTask fun k h => ?_
    extract_lets
    split <;> exact h
  · exact .ite h h.modTask.noteGone.countRetired
  · exact h.noteGone
  · exact .ite h.modTask h
  · exact h.abortHere
  · exact h.noteSignal
  · exact h.rollbackTold

theorem Keeps.execEvLineLost (h : Keeps s₀ s) {pa : Nat} : Goes s₀ (execEvLineLost pa s) := by
  unfold Machine.execEvLineLost
  extract_lets _ _ _ _ s1
  have h1 : Keeps s₀ s1 := by
    refine h.same.foldl fun s x h => ?_
    split
    · exact h
    · exact h.putSlot
  exact .ite (.next h) (.next h1.present)

/-! #### Machine/Partition -/

theorem Keeps.setTdisp (h : Keeps s₀ s) {p : Nat} {t : Tdisp} {actor : Nat} : Keeps s₀ (s.setTdisp p t actor) :=
  .ite h h.modPart.present

theorem Keeps.tdispError (h : Keeps s₀ s) {p : Nat} : Keeps s₀ (s.tdispError p) := h.setTdisp.abortPart

theorem Keeps.guardedWrite (h : Keeps s₀ s) {reg kind p : Nat} {old v : Word} {ok : Bool} {f : State → State}
    (hf : ∀ t, Keeps s₀ t → Keeps s₀ (f t)) : Keeps s₀ (s.guardedWrite reg kind p old v ok f) :=
  .ite (h.auditedWrite fun _ h => h).tdispError (h.auditedWrite fun _ h => hf _ h)

theorem Keeps.programIde (h : Keeps s₀ s) {vf : Nat} : Keeps s₀ (s.programIde vf) := .ite h (h.audited fun _ h => h.same.present)

theorem Keeps.execEvTdispRequest (h : Keeps s₀ s) {vf : Nat} {q : TdispReq} : Goes s₀ (execEvTdispRequest vf q s) := by
  unfold Machine.execEvTdispRequest
  split
  · exact .next h.programIde
  · split
    · exact .next h.send
    · split
      · exact .next h
      · exact .next (h.audited fun _ h => h.setTdisp)

theorem Keeps.execEvVfFlr (h : Keeps s₀ s) {vf : Nat} : Goes s₀ (execEvVfFlr vf s) := by
  unfold Machine.execEvVfFlr
  split
  · exact .next h
  · exact .next ((h.audited fun _ h => h.setTdisp.abortPart).ite h.abortPart)

theorem Keeps.dropL2 (h : Keeps s₀ s) {p : L2Line → Bool} : Keeps s₀ (s.dropL2 p) := h.same

theorem Keeps.releasePart (h : Keeps s₀ s) {p : Nat} : Keeps s₀ (s.releasePart p) := by
  unfold State.releasePart
  extract_lets _ _ _ s1
  have h1 : Keeps s₀ s1 := h.same.endRegions.dropL2.setTdisp
  exact h1.same.modPart

theorem Keeps.execEvPrect (h : Keeps s₀ s) {v : Word} : Goes s₀ (execEvPrect v s) :=
  .next (h.guardedWrite fun _ h => (h.releasePart.ite h).modPart)

theorem Keeps.execEvCremap (h : Keeps s₀ s) {v : Word} : Goes s₀ (execEvCremap v s) := .next (h.guardedWrite fun _ h => h.modPart)
theorem Keeps.execEvPpol (h : Keeps s₀ s) {v : Word} : Goes s₀ (execEvPpol v s) := .next (h.guardedWrite fun _ h => h.modPart)
theorem Keeps.execEvPway (h : Keeps s₀ s) {v : Word} : Goes s₀ (execEvPway v s) := .next (h.guardedWrite fun _ h => h.modPart)

theorem Keeps.execEvCpwin (h : Keeps s₀ s) {v : Word} : Goes s₀ (execEvCpwin v s) := by
  unfold Machine.execEvCpwin
  extract_lets
  refine .next (h.guardedWrite fun t h => ?_)
  extract_lets s1
  have h1 : Keeps s₀ s1 := h.modPart
  exact (h1.withCp h.cp.clear).same

theorem Keeps.execEvAldata (h : Keeps s₀ s) {v : Word} : Goes s₀ (execEvAldata v s) := .next (h.guardedWrite fun _ h => h.modPart)

theorem Keeps.zeroHbm (h : Keeps s₀ s) {pa n : Nat} : Keeps s₀ (s.zeroHbm pa n) := by
  unfold State.zeroHbm
  extract_lets _ s1
  have h1 : Keeps s₀ s1 := h.dropL2
  exact (h1.withHbm h.hbm.clear).same

theorem Keeps.execEvPat (h : Keeps s₀ s) {v : Word} : Goes s₀ (execEvPat v s) := by
  unfold Machine.execEvPat
  extract_lets _ _ _ _ _ _ f1
  have h1 : ∀ t, Keeps s₀ t → Keeps s₀ (f1 t) := by
    intro s h
    dsimp -zeta only [f1]
    extract_lets s2
    have h2 : Keeps s₀ s2 := h.zeroHbm
    exact .ite h2.same h.same
  refine .ite (.next (h.guardedWrite fun _ h => h1 _ h)) ?_
  exact .next (h.auditedWrite fun _ h => h1 _ h)

theorem Keeps.execEvPatZeroingComplete (h : Keeps s₀ s) {frame : Nat} : Goes s₀ (execEvPatZeroingComplete frame s) := .next h.same

theorem Keeps.execEvBlkcls (h : Keeps s₀ s) {v : Word} : Goes s₀ (execEvBlkcls v s) := by
  unfold Machine.execEvBlkcls
  extract_lets
  refine .next (h.auditedWrite fun t h => ?_)
  extract_lets s1
  have h1 : Keeps s₀ s1 := h.zeroHbm
  exact h1.same

theorem Keeps.execEvBlockLayoutComplete (h : Keeps s₀ s) {block : Nat} : Goes s₀ (execEvBlockLayoutComplete block s) := .next h.same

theorem Keeps.execEvSealstRekey (h : Keeps s₀ s) {v : Word} : Goes s₀ (execEvSealstRekey v s) := by
  unfold Machine.execEvSealstRekey
  extract_lets _ s1 _
  have h1 : Keeps s₀ s1 := h.modPart.ite h
  exact .ite (.next h) (.ite (.next (h1.auditedWrite fun _ h => h.modPart)) (.next h1))

theorem Keeps.execEvSealMismatch (h : Keeps s₀ s) {line : Nat} {tag : Word} {tree : Bool} :
    Goes s₀ (execEvSealMismatch line tag tree s) :=
  .ite (.next h) (.next (h.withHbm (h.hbm.foldl fun _ _ h => h.setMark)))

theorem Keeps.execEvRekeyComplete (h : Keeps s₀ s) {part : Nat} : Goes s₀ (execEvRekeyComplete part s) :=
  .ite (.next h.modPart.soon) (.next h)

theorem Keeps.execEvGroupReencryptComplete (h : Keeps s₀ s) {part group : Nat} : Goes s₀ (execEvGroupReencryptComplete part group s) :=
  .ite (.next h.modPart.soon) (.next h)

/-! #### Machine/Lomid -/

theorem Keeps.setChan (h : Keeps s₀ s) {n : Nat} {w : Word} : Keeps s₀ (s.setChan n w) := h.same
theorem Keeps.failPosted (h : Keeps s₀ s) {ch : Nat} : Keeps s₀ (s.failPosted ch) := h.soon Named.map
theorem Keeps.noteDead (h : Keeps s₀ s) {n : Nat} : Keeps s₀ (s.noteDead n) := .ite h.setChan.failPosted h

theorem Keeps.execEvLchanOpen (h : Keeps s₀ s) {v : Word} : Goes s₀ (execEvLchanOpen v s) :=
  .ite (.next h.setChan.noteDead.send) (.next h)

theorem Keeps.execEvLchanRetire (h : Keeps s₀ s) {v : Word} : Goes s₀ (execEvLchanRetire v s) := by
  unfold Machine.execEvLchanRetire
  extract_lets _ _ _ s1
  have h1 : Keeps s₀ s1 := h.setChan
  exact .ite (.next (h1.same (by dsimp only)).noteDead) (.next h)

theorem Keeps.execEvChannelDrainEnd (h : Keeps s₀ s) {ch : Nat} : Goes s₀ (execEvChannelDrainEnd ch s) :=
  .ite (.next h.failPosted.setChan.send) (.next h)

theorem Keeps.execEvLomidLaneFailure (h : Keeps s₀ s) {port lane : Nat} : Goes s₀ (execEvLomidLaneFailure port lane s) :=
  .ite (.next h) (.next (h.same.present.foldl fun _ _ h => h.noteDead))

theorem Keeps.setDrn (h : Keeps s₀ s) {part pkg ch d : Nat} : Keeps s₀ (s.setDrn part pkg ch d) := h.modPart
theorem Keeps.execEvDrainedReport (h : Keeps s₀ s) {pkg ch part : Nat} : Goes s₀ (execEvDrainedReport pkg ch part s) := .next h.setDrn
theorem Keeps.execEvOpenMessage (h : Keeps s₀ s) {pkg ch part : Nat} : Goes s₀ (execEvOpenMessage pkg ch part s) := .next h.setDrn
theorem Keeps.execEvPwin (h : Keeps s₀ s) {v : Word} : Goes s₀ (execEvPwin v s) := .ite (.next h) (.next h.modPart)

theorem Keeps.outsideTouch (h : Keeps s₀ s) {ls : List Nat} {write : Bool} : Keeps s₀ (s.outsideTouch ls write) := by
  unfold State.outsideTouch
  extract_lets s1
  have h1 : Keeps s₀ s1 := h.same
  exact .ite h1.dropL1 h1

theorem Keeps.peerRead (h : Keeps s₀ s) {a : PeerAccess} {pa : Nat} : Keeps s₀ (s.peerRead a pa) := h.noteBad.charge.send
theorem Keeps.refusePeer (h : Keeps s₀ s) {a : PeerAccess} : Keeps s₀ (s.refusePeer a) := h.send

theorem Keeps.peerWrite (h : Keeps s₀ s) {a : PeerAccess} {pa new : Nat} {psn : Bool} {ans : Answer} {src : StoreSrc} :
    Keeps s₀ (s.peerWrite a pa new psn ans src) := by
  unfold State.peerWrite
  extract_lets _ _ s1 _
  have h1 : Keeps s₀ s1 := h.homeWrite
  refine .ite h.charge.tellIssuer ?_
  split
  · exact h1.afterMessages Named.messages
  · exact h1.cast.soon Named.messages

theorem Keeps.peerAtom (h : Keeps s₀ s) {a : PeerAccess} {op : AmoOp} {x c : Word} {pa : Nat} : Keeps s₀ (s.peerAtom a op x c pa) := by
  unfold State.peerAtom
  extract_lets s1 _
  have h1 : Keeps s₀ s1 := h.noteBad
  split
  · exact h1.charge.refusePeer
  · exact h1.charge.peerWrite

theorem Keeps.peerRed (h : Keeps s₀ s) {a : PeerAccess} {op : RedOp} {fmt : Nat} {x : Word} {pa : Nat} :
    Keeps s₀ (s.peerRed a op fmt x pa) :=
  h.noteBad.charge.peerWrite

theorem Keeps.peerDo (h : Keeps s₀ s) {a : PeerAccess} {pa : Nat} : Keeps s₀ (s.peerDo a pa) := by
  unfold State.peerDo
  refine .ite h.refusePeer ?_
  split
  · exact h.storeHere
  · exact h.peerRed
  · exact h.peerAtom
  · exact h.peerRead

theorem Keeps.execEvPeerAccessArrival (h : Keeps s₀ s) {a : PeerAccess} : Goes s₀ (execEvPeerAccessArrival a s) := by
  unfold Machine.execEvPeerAccessArrival
  refine .ite (.next h) ?_
  split
  · exact .next h.refusePeer
  · extract_lets s1
    have h1 : Keeps s₀ s1 := h.touchL2.outsideTouch
    exact .ite (.next h1.same.send) (.ite (.next h1.hold) (.next h1.peerDo))

theorem Keeps.execEvPeerReplyTimeout (h : Keeps s₀ s) {core : Nat} : Goes s₀ (execEvPeerReplyTimeout core s) := by
  unfold Machine.execEvPeerReplyTimeout
  split
  · exact .ite h.peerReply (.next h)
  · exact .next h

theorem Keeps.execEvLomidAck (h : Keeps s₀ s) {st : StoreReq} {k : AckKind} {sent : Nat} : Goes s₀ (execEvLomidAck st k sent s) :=
  .ite (.next h) h.execEvStoreAcknowledged

theorem Keeps.execEvLomidReply (h : Keeps s₀ s) {r : Reply} {sent : Nat} : Goes s₀ (execEvLomidReply r sent s) :=
  .ite (.next h) h.execEvLoadReplyArrives

theorem Keeps.replicaHere (h : Keeps s₀ s) {home : Nat} {st : StoreReq} : Keeps s₀ (s.replicaHere home st) := by
  unfold State.replicaHere
  extract_lets _ s1 s2 s3 _
  have h1 : Keeps s₀ s1 := h.touchL2
  have h2 : Keeps s₀ s2 := h1.ite h1.sealWrite
  have h3 : Keeps s₀ s3 := (h2.withHbm h2.hbm.store).same
  exact (h3.found.ite h3).outsideTouch.send

theorem Keeps.replicaDrain (h : Keeps s₀ s) {home n : Nat} : Keeps s₀ (State.replicaDrain home n s) := by
  induction n generalizing s with
  | zero => exact h
  | succ n ih =>
    unfold State.replicaDrain
    split
    · exact h
    · split
      · exact h
      · exact ih h.same.replicaHere

theorem Keeps.drainAll (h : Keeps s₀ s) : Keeps s₀ s.drainAll := h.foldl fun _ _ h => h.replicaDrain

theorem Keeps.execEvReplicaWriteAtHome (h : Keeps s₀ s) {w : ReplicaWrite} : Goes s₀ (execEvReplicaWriteAtHome w s) :=
  .ite h.execEvStoreAtHome (.ite (.next h) (.next h.same.replicaDrain))

theorem Keeps.confirm (h : Keeps s₀ s) {seq pkg : Nat} : Keeps s₀ (s.confirm seq pkg) := by
  unfold State.confirm
  split
  · exact h
  · exact .ite h.same.soon h.same

theorem Keeps.execEvReplicaConfirm (h : Keeps s₀ s) {seq pkg : Nat} : Goes s₀ (execEvReplicaConfirm seq pkg s) := .next h.confirm

theorem Keeps.execEvReplicaLost (h : Keeps s₀ s) {pkg : Nat} : Goes s₀ (execEvReplicaLost pkg s) :=
  .next ((h.same.foldl fun _ _ h => h.confirm).foldl fun _ _ h => h.loseMember)

theorem Keeps.hostReadHere (h : Keeps s₀ s) {vf part pa n : Nat} : Keeps s₀ (s.hostReadHere vf part pa n) :=
  (h.foldl fun _ _ h => h.noteBad).charge.send

theorem Keeps.heldDo (h : Keeps s₀ s) {x : Held} : Keeps s₀ (s.heldDo x) := by
  unfold State.heldDo
  split
  · exact h.storeDo
  · exact h.atomHere
  · exact h.redDo
  · exact h.peerDo
  · exact h.signalOnce
  · exact h.undoHere
  · exact h.pushHere
  · exact h
  · exact h.hostReadHere
  · exact h.submit

theorem Keeps.execEvHeldTurn (h : Keeps s₀ s) : Goes s₀ (execEvHeldTurn s) := by
  unfold Machine.execEvHeldTurn
  split
  · extract_lets _ s1
    have h1 : Keeps s₀ s1 := (h.withAgenda fun _ => rfl).same.heldDo
    exact .next (h1.withAgenda ((h1.agenda.append fun _ => rfl).append h.agenda))
  · exact .next (h.foldl fun _ _ h => h.askFor).drainAll

/-! #### Machine/HostPort -/

theorem Keeps.execEvHostSnoop (h : Keeps s₀ s) {half : Nat} {inv : Bool} : Goes s₀ (execEvHostSnoop half inv s) := by
  unfold Machine.execEvHostSnoop
  extract_lets _ _ s1 _ _
  have h1 : Keeps s₀ s1 := h.outsideTouch.dropL1
  split
  · exact .next h1.same.send
  · exact .next h.same.send

theorem Keeps.execEvCxlGrant (h : Keeps s₀ s) {half : Nat} {own : Bool} : Goes s₀ (execEvCxlGrant half own s) :=
  .ite (.next h.same) (.next h)

theorem Keeps.hostTouch (h : Keeps s₀ s) {vf p : Nat} {addr : Word} {pa n : Nat} : Keeps s₀ (s.hostTouch vf p addr pa n) :=
  .ite (h.foldl fun _ _ h => h.touchOwn) (h.touchWalk.foldl fun _ _ h => h.touchL2)

theorem Keeps.execEvHostWrite (h : Keeps s₀ s) {vf : Nat} {addr : Word} {data : List Byte} :
    Goes s₀ (execEvHostWrite vf addr data s) := by
  unfold Machine.execEvHostWrite
  extract_lets
  refine .ite (.next h) ?_
  split
  · exact .next h.send
  · exact .ite (.next h.send) (.next (h.hostTouch.outsideTouch.soon Named.map))

theorem Keeps.execEvHostRead (h : Keeps s₀ s) {vf : Nat} {addr : Word} {size : Nat} : Goes s₀ (execEvHostRead vf addr size s) := by
  unfold Machine.execEvHostRead
  refine .ite (.next h) ?_
  split
  · exact .next h.send
  · extract_lets s1 _
    have h1 : Keeps s₀ s1 := h.hostTouch.outsideTouch
    exact .ite (.next h1.same) (.next h1.hostReadHere)

theorem Keeps.execEvHostLinkDead (h : Keeps s₀ s) : Goes s₀ (execEvHostLinkDead s) := .next h.same

/-! #### Machine/Debug -/

theorem Keeps.execEvDebugStop (h : Keeps s₀ s) {core : Nat} {r : StopReason} : Goes s₀ (execEvDebugStop core r s) := by
  unfold Machine.execEvDebugStop
  extract_lets _ _ s1 _ _ s2 _
  have h1 : Keeps s₀ s1 := h.trace
  have h2 : Keeps s₀ s2 := h1.modCore
  refine .ite (.next h) ?_
  exact .ite (.next h1.modCore) (.ite (.ite (.next h2.chosen.modTask) (.next h2)) (.next h1))

theorem Keeps.execEvDumpctl (h : Keeps s₀ s) {core : Nat} {v : Word} : Goes s₀ (execEvDumpctl core v s) :=
  .ite (.next h) (.next (h.setCore (by exact h.scratch)))

theorem Keeps.execEvDumpComplete (h : Keeps s₀ s) {core : Nat} : Goes s₀ (execEvDumpComplete core s) := by
  unfold Machine.execEvDumpComplete
  extract_lets _ s1
  have h1 : Keeps s₀ s1 := h.setCore (by exact h.scratch)
  exact .ite (.next h) (.next (h1.withHbm h.hbm.store))

theorem Keeps.unhold (h : Keeps s₀ s) {task memb : Nat} : Keeps s₀ (s.unhold task memb) := h.foldl fun _ _ h => h.modStamp

theorem Keeps.thaw (h : Keeps s₀ s) {task f : Nat} : Keeps s₀ (s.thaw task f) :=
  (h.foldl fun _ _ h => h.recordOn.unhold.modCore).modTask

theorem Keeps.checkpoint (h : Keeps s₀ s) {task f : Nat} : Keeps s₀ (s.checkpoint task f) := by
  unfold State.checkpoint
  extract_lets t cs s1 p ctxs len off s2 s3
  have h1 : Keeps s₀ s1 := h.thaw
  have hc : ∀ x ∈ ctxs, RamOk s₀ x.scratch := fun x hx => by
    obtain ⟨c, _, rfl⟩ := List.mem_map.mp hx
    exact h1.scratch
  have h3 : Keeps s₀ s3 := h1.modPart.trace
  exact h3.modTask fun k h => h.addCkpt hc

theorem Keeps.ckptStep (h : Keeps s₀ s) {task : Nat} : Keeps s₀ (s.ckptStep task) := by
  unfold State.ckptStep
  extract_lets s1
  have h1 : Keeps s₀ s1 := h.freezeMembers.modTask.ite h
  split
  · exact .ite h1.checkpoint h1
  · exact h1

theorem Keeps.execEvDebugCheckpoint (h : Keeps s₀ s) {part : Nat} : Goes s₀ (execEvDebugCheckpoint part s) :=
  .next (h.foldl fun _ _ h => h.ckptStep)

theorem TaskOk.trimLog {k : Task} (h : TaskOk s₀ k) {pos : Nat} : TaskOk s₀ (k.trimLog pos) :=
  .of_parts (fun _ hx => h.save hx) fun c hc x hx => by
    obtain ⟨d, hd, rfl⟩ := List.mem_map.mp hc
    exact h.ckpt (List.mem_filter.mp hd).1 hx

theorem Keeps.execEvRlfree (h : Keeps s₀ s) {v : Word} : Goes s₀ (execEvRlfree v s) := by
  unfold Machine.execEvRlfree
  extract_lets _ _ _ _ s1
  have h1 : Keeps s₀ s1 := h.modPart
  refine .ite (.next h) ?_
  split
  · exact .next h1
  · extract_lets s2
    have h2 : Keeps s₀ s2 := h1.modPart
    refine .next (h2.mapTasks fun x h => ?_)
    split
    · exact h.trimLog
    · exact h

theorem Keeps.placeStamps_fst (h : Keeps s₀ s) {c : Nat} {x : SavedCtx} : Keeps s₀ (s.placeStamps c x).1 :=
  h.foldl_fst fun _ _ h => h.same

theorem TaskOk.ckptOf {k : Task} (h : TaskOk s₀ k) {memb checkpoint : Nat} {x : SavedCtx} {l : List (Nat × Word)}
    (e : k.ckptOf memb checkpoint = some (x, l)) : RamOk s₀ x.scratch := by
  unfold Task.ckptOf at e
  split at e
  · cases e
  · rename_i c hc
    obtain ⟨y, hy, e⟩ := Option.map_eq_some_iff.mp e
    cases e
    exact h.ckpt (List.mem_of_find?_eq_some hc) (List.mem_of_find?_eq_some hy)

theorem Keeps.startReplay (h : Keeps s₀ s) {core task memb checkpoint : Nat} {stop : Option Nat} :
    Keeps s₀ (s.startReplay core task memb checkpoint stop) := by
  unfold State.startReplay
  extract_lets t
  split
  · exact h
  · rename_i x _ e
    split
    · exact h
    · refine h.placeStamps_fst.setCore ?_
      exact h.task.ckptOf e

theorem Keeps.execEvReplay (h : Keeps s₀ s) {core task memb checkpoint : Nat} : Goes s₀ (execEvReplay core task memb checkpoint s) :=
  .next h.startReplay

theorem Keeps.endReplay (h : Keeps s₀ s) {core task memb : Nat} : Keeps s₀ (s.endReplay core task memb) := .ite h.freeStampsOf.modCore h

theorem Keeps.execEvReverseStep (h : Keeps s₀ s) {core task memb cycle : Nat} : Goes s₀ (execEvReverseStep core task memb cycle s) := by
  unfold Machine.execEvReverseStep
  extract_lets
  split
  · exact .next h
  · exact .next h.endReplay.startReplay

theorem Keeps.stopReplays (h : Keeps s₀ s) : Keeps s₀ s.stopReplays := h.foldl fun _ _ h => h.replayOver.ite h

theorem Keeps.replayFreeze (h : Keeps s₀ s) {c : Nat} : Keeps s₀ (s.replayFreeze c) := by
  unfold State.replayFreeze
  split
  · exact h
  · split
    · exact .ite h.freezeStamps.unhold.modCore h
    · exact h

/-! #### Machine/Power -/

theorem Keeps.measureBoot (h : Keeps s₀ s) : Keeps s₀ s.measureBoot := by
  unfold State.measureBoot
  exact h.same

theorem Keeps.execEvPowerUp (h : Keeps s₀ s) : Goes s₀ (execEvPowerUp s) := .ite (.next h) (.next h.same.measureBoot.setBoot)
theorem Keeps.execEvFirmwareStart (h : Keeps s₀ s) : Goes s₀ (execEvFirmwareStart s) := .next ((h.setBoot.ite h.setBoot).ite h)

theorem Keeps.execEvDeviceReady (h : Keeps s₀ s) {code : BitVec 8} : Goes s₀ (execEvDeviceReady code s) := by
  unfold Machine.execEvDeviceReady
  extract_lets _ s1 s2 _
  have h1 : Keeps s₀ s1 := h.same
  have h2 : Keeps s₀ s2 := h1.foldl fun _ _ h => h.modCore
  refine .ite (.next h.setBoot) ?_
  exact .ite (.ite (.next h1.setBoot) (.next (h2.withCp RamOk.empty).same.setBoot)) (.next h)

theorem safe_reset : Safe State.reset := (safe_iff _).mpr (by decide)

theorem Keeps.cleared (h : Keeps s₀ s) : Keeps s₀ s.cleared := by
  have h1 : Keeps s₀ State.reset := fun _ => safe_reset
  exact (h1.withHost h.host).same (by rfl)

theorem Keeps.execEvPwrgdDeassert (h : Keeps s₀ s) : Goes s₀ (execEvPwrgdDeassert s) := by
  unfold Machine.execEvPwrgdDeassert
  refine .next ?_
  extract_lets s1
  have h1 : Keeps s₀ s1 := h.cleared
  exact h1.withHost h.host.hostLeft

theorem Keeps.enterReset (h : Keeps s₀ s) : Keeps s₀ s.enterReset := by
  unfold State.enterReset
  extract_lets s1
  have h1 : Keeps s₀ s1 := h.askHalves
  refine .ite h ?_
  refine Keeps.setBoot (.of_parts ?_ ?_ ?_ ?_ ?_ ?_ ?_ ?_)
  · exact h1.hbm
  · exact h1.cp
  · exact h1.host
  · exact h1.saiga
  · exact fun _ hx => (List.not_mem_nil hx).elim
  · exact fun _ hx => (List.not_mem_nil hx).elim
  · exact fun _ hx => (List.not_mem_nil hx).elim
  · exact .nil

theorem Keeps.execEvResetEntryEnd (h : Keeps s₀ s) : Goes s₀ (execEvResetEntryEnd s) := by
  unfold Machine.execEvResetEntryEnd
  split
  · exact .next h
  · extract_lets s1
    have h1 : Keeps s₀ s1 := h.cleared
    exact .ite (.next h) (.next (h1.withSaiga h.saiga).same.measureBoot.setBoot)

theorem Keeps.execEvPerst (h : Keeps s₀ s) : Goes s₀ (execEvPerst s) := .next h.enterReset
theorem Keeps.execEvPfFlr (h : Keeps s₀ s) : Goes s₀ (execEvPfFlr s) := .next h.enterReset
theorem Keeps.loseShadows (h : Keeps s₀ s) {i : Nat} : Keeps s₀ (s.loseShadows i) := .ite (h.foldl fun _ _ h => h.modCore) h

theorem Keeps.execEvIslandGate (h : Keeps s₀ s) {v : Word} : Goes s₀ (execEvIslandGate v s) :=
  .ite (.next h) (.ite (.ite (.next h) (.next h.loseShadows.setIsl)) (.next h.setIsl))

theorem Keeps.execEvIslandFrequency (h : Keeps s₀ s) {v : Word} : Goes s₀ (execEvIslandFrequency v s) := .ite (.next h) (.next h.setIsl)
theorem Keeps.islandOn (h : Keeps s₀ s) {i : Nat} : Keeps s₀ (s.islandOn i) := .ite h.free_snd.setIsl h.setIsl

theorem Keeps.execEvIslandChangeComplete (h : Keeps s₀ s) {island : Nat} : Goes s₀ (execEvIslandChangeComplete island s) :=
  .next (h.ite h.islandOn)

theorem Keeps.slow (h : Keeps s₀ s) {i f : Nat} : Keeps s₀ (s.slow i f) := h.setIsl
theorem Keeps.restoreIsl (h : Keeps s₀ s) {i : Nat} : Keeps s₀ (s.restoreIsl i) := .ite h (.ite h.setIsl (.ite h.setIsl h.setIsl))

theorem Keeps.limitPower (h : Keeps s₀ s) : Keeps s₀ s.limitPower := by
  unfold State.limitPower
  refine .ite (h.same.foldl fun _ _ h => h.free_snd.slow) ?_
  exact .ite (h.same.foldl fun _ _ h => h.restoreIsl) h

theorem Keeps.execEvPowerLimitThrottle (h : Keeps s₀ s) {meas : BitVec 16} : Goes s₀ (execEvPowerLimitThrottle meas s) :=
  .next h.same.limitPower

theorem Keeps.execEvPowerLimitThrottleEnd (h : Keeps s₀ s) {meas : BitVec 16} : Goes s₀ (execEvPowerLimitThrottleEnd meas s) :=
  .next h.same.limitPower

theorem Keeps.setLim (h : Keeps s₀ s) {v : Word} : Keeps s₀ (s.setLim v) := .ite h h.same.limitPower

theorem Keeps.execEvThermalThrottle (h : Keeps s₀ s) {island : Nat} : Goes s₀ (execEvThermalThrottle island s) :=
  .ite (.next h) (.next h.same.slow)

theorem Keeps.execEvThermalThrottleEnd (h : Keeps s₀ s) {island : Nat} : Goes s₀ (execEvThermalThrottleEnd island s) :=
  .ite (.next h.same.restoreIsl) (.next h)

theorem Keeps.execEvThermalTrip (h : Keeps s₀ s) {island : Nat} : Goes s₀ (execEvThermalTrip island s) := .next (h.same.ite h)

theorem Keeps.execEvPkgGate (h : Keeps s₀ s) {v : Word} : Goes s₀ (execEvPkgGate v s) := by
  unfold Machine.execEvPkgGate
  extract_lets s1
  have h1 : Keeps s₀ s1 := h.askHalves
  exact .ite (.next h) (.ite (.next (h1.same.ite h)) (.next h.same))

theorem Keeps.execEvPkgGateEnter (h : Keeps s₀ s) : Goes s₀ (execEvPkgGateEnter s) := by
  unfold Machine.execEvPkgGateEnter
  refine .ite (.next h) ?_
  refine .ite (.next h.same) ?_
  exact .ite (.next h) (.next (h.same.foldl fun _ _ h => h.loseShadows.setIsl))

theorem Keeps.execEvPkgGateExitComplete (h : Keeps s₀ s) : Goes s₀ (execEvPkgGateExitComplete s) :=
  .ite (.next h) (.next (h.same.foldl fun _ _ h => h.ite h.islandOn))

/-! #### Machine/Window -/

theorem Keeps.writeCoreReg (h : Keeps s₀ s) {c n : Nat} {v : Word} : Goes s₀ (s.writeCoreReg c n v) := by
  unfold State.writeCoreReg
  extract_lets k1
  have h1 : RamOk s₀ k1.scratch := h.scratch
  refine .ite (.ite (.next h) (.ite (.next h.same) (.next (h.setCore (by exact h1))))) ?_
  refine .ite h.execEvCorectl ?_
  exact .ite (.next (h.ite (h.setCore (by exact h1)))) (.ite h.execEvDumpctl (.next h))

theorem Keeps.writePart (h : Keeps s₀ s) {f : Part → Part} : Keeps s₀ (s.writePart f) := h.modPart

theorem Keeps.writeBindWord (h : Keeps s₀ s) {n k : Nat} {v : Word} : Keeps s₀ (s.writeBindWord n k v) :=
  .ite h.writeRecord (.ite h h.same)

theorem Keeps.writeChan (h : Keeps s₀ s) {v : Word} : Goes s₀ (s.writeChan v) :=
  .ite h.execEvLchanRetire (.ite h.execEvLchanOpen (.next h.setChan.noteDead))

theorem Keeps.writeIsl (h : Keeps s₀ s) {v : Word} : Goes s₀ (s.writeIsl v) := by
  unfold State.writeIsl
  split
  · rename_i e1
    exact (h.execEvIslandFrequency.keeps e1).execEvIslandGate
  · exact h.execEvIslandFrequency

theorem Keeps.writeDevice (h : Keeps s₀ s) {n : Nat} {v : Word} : Goes s₀ (s.writeDevice n v) := by
  unfold State.writeDevice
  extract_lets
  refine .ite (.next h.writeBindWord) ?_
  refine .ite (.next h.same) ?_
  refine .ite (.next h.same) ?_
  split
  · exact h.execEvEvcfg
  · exact h.execEvEvhead
  · exact .next (h.same.ite h)
  · exact .next h.same
  · exact h.execEvAldata
  · exact h.execEvTabort
  · exact .next h.same
  · exact .next h.writePart
  · exact .next h.writePart
  · exact .next (h.auditedWrite fun _ h => h.modPart)
  · exact .next (h.writePart.ite h)
  · exact h.execEvPrect
  · exact h.execEvPpol
  · exact h.execEvPway
  · exact h.execEvCpwin
  · exact h.execEvCremap
  · exact h.execEvSealstRekey
  · exact .next (h.ite h.writePart)
  · exact .next h.writePart
  · exact .next h.writePart
  · exact .next (h.writePart.ite h)
  · exact h.execEvRlfree
  · exact h.execEvEbud
  · exact .ite (.next h) (.next h.same)
  · exact h.execEvPrqhead
  · exact .ite h.execEvPrrespRefuse h.execEvPrrespRetry
  · exact h.execEvTlbinv
  · exact .next h.same
  · exact .next h.same
  · exact h.execEvPat
  · exact .next h.same
  · exact .next h.same
  · exact h.execEvBlkcls
  · exact h.execEvAudw4
  · exact h.execEvMrgo
  · exact .next h.same
  · exact h.writeChan
  · exact .next h.same
  · exact .next h.same
  · exact h.execEvPwin
  · exact .next h.modPart
  · exact .next h.same
  · exact h.writeIsl
  · exact h.execEvPkgGate
  · exact .next h.setLim
  · exact .next h

theorem Keeps.execEvRegisterWrite (h : Keeps s₀ s) {unit n : Nat} {v : Word} : Goes s₀ (execEvRegisterWrite unit n v s) :=
  .ite (.next h) (.ite h.writeCoreReg (.ite h.writeDevice (.next h)))

theorem Keeps.hartsFault (h : Keeps s₀ s) {store : Bool} {addr : Nat} : Keeps s₀ (s.hartsFault store addr) := h.same

theorem Keeps.execEvHartStore (h : Keeps s₀ s) {addr : Nat} {data : List Byte} : Goes s₀ (execEvHartStore addr data s) := by
  unfold Machine.execEvHartStore
  refine .ite (.next h) ?_
  refine .ite (.next (h.withSaiga h.saiga.store).send) ?_
  split
  · split
    · rename_i e1
      exact .next (h.execEvRegisterWrite.keeps e1).send
    · exact h.execEvRegisterWrite
  · exact .next h.hartsFault.send

theorem Keeps.execEvHartLoad (h : Keeps s₀ s) {addr size : Nat} : Goes s₀ (execEvHartLoad addr size s) := by
  unfold Machine.execEvHartLoad
  refine .ite (.next h) ?_
  refine .ite (.next h.free_snd.send) ?_
  refine .ite (.next h.send) ?_
  split
  · exact .next h.send
  · exact .next h.hartsFault.send

theorem Keeps.execEvHostBarRead (h : Keeps s₀ s) {vf off : Nat} : Goes s₀ (execEvHostBarRead vf off s) := .next (h.ite h.send)

/-! #### Machine/Cycle -/

theorem Keeps.advanceTime (h : Keeps s₀ s) : Keeps s₀ s.advanceTime := h.same
theorem Keeps.advanceCounts (h : Keeps s₀ s) : Keeps s₀ s.advanceCounts := h.foldl fun _ _ h => h.modCore

theorem Goes.stateOr {x : Result} (hx : Goes s₀ x) : Keeps s₀ (stateOr x s) := by
  cases hx with
  | next h => exact h

theorem Keeps.freezeNow (h : Keeps s₀ s) : Keeps s₀ s.freezeNow :=
  ((h.foldl fun _ _ h => h.execEvPreemptExecute.stateOr).foldl fun _ _ h => h.execEvForcedFreeze.stateOr).foldl fun _ _ h =>
    h.execEvDebugCheckpoint.stateOr

theorem Keeps.postpone_snd (h : Keeps s₀ s) {l : List Ev} : Keeps s₀ (postpone l s).2 := by
  induction l generalizing s with
  | nil => exact h
  | cons e l ih => exact ih h.chosen

theorem Keeps.nextInput_snd (h : Keeps s₀ s) : Keeps s₀ s.nextInput.2 := by
  unfold State.nextInput
  split
  · exact h
  · refine .ite_snd ?_ h.chosen
    extract_lets s1
    have h1 : Keeps s₀ s1 := h.chosen
    exact h1.same

/-- The turns of the cores that move in a cycle. -/
theorem Named.moving : Named s₀ (s.moving.map Action.seq) := .turnsOf

theorem Keeps.beginCycle (h : Keeps s₀ s) : Keeps s₀ s.beginCycle := by
  unfold State.beginCycle
  extract_lets s1 s2 r s3 steps o s4 s5 evs
  have h1 : Keeps s₀ s1 := h.serveBanks.advanceTime.endRegions.freezeNow.advanceCounts.stopReplays
  have h3 : Keeps s₀ s3 := (h1.foldl fun s c h => h.replayFreeze).nextInput_snd
  have h4 : Keeps s₀ s4 := h3.postpone_snd
  have h5 : Keeps s₀ s5 := h4.same (by dsimp only [s5])
  have he : Named s₀ (evs.map Action.event) := .map
  refine h5.withAgenda ?_
  exact ((h5.agenda.append he).append Named.moving).append fun _ => rfl

/-! #### Machine/Control -/

theorem Keeps.branch (h : Keeps s₀ s) {a b : Reg} {off : BitVec 16} {cond : Word → Word → Bool} : Goes s₀ (branch a b off s cond) :=
  h.finish (.bind fun _ => .ok (h.goto.ite h.advance))

/-! #### Machine/Loader -/

theorem Keeps.partsWait (h : Keeps s₀ s) {ps : List (Word × Word × Nat × Nat)} : SomeGoes s₀ (s.partsWait ps) := by
  unfold State.partsWait
  induction ps with
  | nil => exact .none
  | cons p ps ih =>
    rw [List.findSome?_cons]
    split
    · rename_i e
      exact .some (h.readWaits.result e)
    · exact ih

theorem Keeps.readImage (h : Keeps s₀ s) {ps : List (Word × Word × Nat × Nat)} : ReadKeeps s₀ (s.readImage ps) := by
  unfold State.readImage
  suffices hx : ∀ x : Except Result (List Byte × State), ReadKeeps s₀ x → ReadKeeps s₀ (ps.foldl _ x) from hx _ h
  induction ps with
  | nil => exact fun _ hx => hx
  | cons p ps ih =>
    refine fun x hx => ih _ ?_
    dsimp only
    split
    · exact hx
    · rename_i s1
      have h1 : Keeps s₀ s1 := hx
      split
      · rename_i e
        exact .error (h1.readNow.result e)
      · rename_i e
        have h2 := h1.readNow.state e
        exact .ok h2.pair

theorem Keeps.loadStamp (h : Keeps s₀ s) {m : Image} {rg : Nat} {spots : List Spot} : Keeps s₀ (s.loadStamp m rg spots) := by
  unfold State.loadStamp
  extract_lets _ _ _ _ f1 _
  have h1 : ∀ t x1 x2 x3, Keeps s₀ t → Keeps s₀ (f1 t x1 x2 x3) := fun _ _ _ _ h => h.modCore
  exact (h1 _ _ _ _ h.same).foldl fun _ _ h => h1 _ _ _ _ h

theorem Keeps.loadImage (h : Keeps s₀ s) {rg : Nat} {m : Image} : Keeps s₀ (loadImage rg m s) := .ite h.loadStamp.setWait.advance h.trap

theorem Keeps.execCfgLoad (h : Keeps s₀ s) {rg : BitVec 4} {a : Reg} : Goes s₀ (execCfgLoad rg a s) := by
  unfold Machine.execCfgLoad
  extract_lets
  split
  · exact .next h.trap
  · refine .ite (.next h.trap) ?_
    split
    · rename_i e1
      exact h.translatePages.result e1
    · rename_i e2
      have h3 := h.translatePages.state e2
      extract_lets
      split
      · rename_i e4
        exact h3.partsWait.result e4
      · split
        · rename_i e5
          exact h3.readImage.result e5
        · rename_i e6
          extract_lets
          refine .ite (.next (h3.readImage.state e6).trap) ?_
          split
          · rename_i e7
            exact h3.translatePages.result e7
          · rename_i e8
            have h9 := h3.translatePages.state e8
            extract_lets
            split
            · rename_i e10
              exact h9.partsWait.result e10
            · split
              · rename_i e11
                exact h9.readImage.result e11
              · rename_i e12
                exact .next (h9.readImage.state e12).loadImage

theorem Keeps.execCfgFree (h : Keeps s₀ s) {rg : BitVec 4} : Goes s₀ (execCfgFree rg s) := by
  unfold Machine.execCfgFree
  split
  · exact .next h.trap
  · exact .next h.advance
  · exact .next h.freeStamp.advance

theorem Keeps.execPhase (h : Keeps s₀ s) {rg : BitVec 4} {a : Reg} : Goes s₀ (execPhase rg a s) := by
  unfold Machine.execPhase
  extract_lets
  refine .ite (.next h) ?_
  split
  · exact .next h.trap
  · refine .ite (.next h.trap) ?_
    split
    · exact .next h.trap
    · exact .next h.trap
    · exact .next h.modStamp.trace.advance

theorem Keeps.execPwait (h : Keeps s₀ s) {rg : BitVec 4} : Goes s₀ (execPwait rg s) := by
  unfold Machine.execPwait
  extract_lets
  split
  · exact .next h.trap
  · exact .next h.trap
  · exact .ite (.next h.modCur.setWait) (.next h.modCur.noEarly.setWait.advance)

theorem Keeps.execCfgInfo (h : Keeps s₀ s) {d a : Reg} {rg : BitVec 4} : Goes s₀ (execCfgInfo d a rg s) := by
  unfold Machine.execCfgInfo
  split
  · exact .next h.trap
  · split
    · exact .next h.trap
    · exact .next h.result
    · exact .ite (.next h.trap) (.next h.result)

theorem Keeps.copyWrite (h : Keeps s₀ s) {rg : BitVec 4} {a b : Reg} {f : BitVec 32 → Copy → Copy} :
    Goes s₀ (copyWrite rg a b s f) := by
  unfold Machine.copyWrite
  split
  · exact .next h.trap
  · split
    · exact .next h.trap
    · exact .next h.trap
    · exact .ite (.next h.trap) (.next h.modCopy.advance)

/-! #### Machine/SeqFloat -/

theorem Keeps.floatResult (h : Keeps s₀ s) {d : Reg} {r : Fp.Res} {psn : Bool} : Keeps s₀ (s.floatResult d r psn) := h.modQ.result

theorem Keeps.float2 (h : Keeps s₀ s) {f : FpFmt} {r : FpRound} {d a b : Reg} {op : Fp.Fmt → Nat → Fp.Val → Fp.Val → Fp.Res} :
    Goes s₀ (float2 f r d a b s op) :=
  .next h.floatResult

theorem Keeps.floatMinMax (h : Keeps s₀ s) {max : Bool} {f : FpFmt} {d a b : Reg} : Goes s₀ (floatMinMax max f d a b s) :=
  .next h.floatResult

theorem Keeps.floatCompare (h : Keeps s₀ s) {f : FpFmt} {d a b : Reg} {anyNan : Bool} {cond : Fp.Val → Fp.Val → Bool} :
    Goes s₀ (floatCompare f d a b s anyNan cond) :=
  .next h.floatResult

/-! #### Machine/Dispatch -/

theorem Keeps.exec (h : Keeps s₀ s) {i : Instr} : Goes s₀ (exec i s) := by
  unfold Machine.exec
  split
  · exact h.binary
  · exact h.binary
  · exact h.binary
  · exact h.binary
  · exact h.binary
  · exact h.binary
  · exact h.binary
  · exact h.binary
  · exact h.binary
  · exact h.binary
  · exact h.binary
  · exact h.binary
  · exact h.binary
  · exact h.binary
  · exact h.binary
  · exact h.binary
  · exact h.binary
  · exact h.binary
  · exact h.binary
  · exact h.binary
  · exact h.binary
  · exact h.binary
  · exact h.binary
  · exact h.unary
  · exact h.unary
  · exact h.float2
  · exact h.float2
  · exact h.float2
  · exact h.float2
  · exact .next h.floatResult
  · exact .next h.floatResult
  · exact h.floatMinMax
  · exact h.floatMinMax
  · exact h.floatCompare
  · exact h.floatCompare
  · exact h.floatCompare
  · exact .next h.result
  · exact .next h.modQ.result
  · exact .next h.floatResult
  · exact .next h.floatResult
  · exact .next h.result
  · exact .next h.result
  · exact .ite (.next h.await.soon) (.next h.await)
  · exact .next h.trap
  · exact .ite (.next h.advance.soon) (.next h.advance)
  · exact h.execFence
  · exact .ite (.next h.modCur.noEarly.awake.advance) (.next h.await)
  · exact .ite (.next h.trap) (.next h.trapReturn)
  · exact h.execBar
  · exact h.execBarInit
  · exact h.trigger
  · exact .ite (.next h) (.ite h.modCur.noEarly.trigger h.poll)
  · exact h.execLaunch
  · exact h.execCfgLoad
  · exact h.execCfgFree
  · exact h.execPhase
  · exact h.execPwait
  · exact h.execCfgInfo
  · exact h.copyWrite
  · exact h.copyWrite
  · exact h.copyWrite
  · exact h.execDdecl
  · exact h.execDfree
  · exact h.execLineReset
  · exact h.atomic
  · exact h.atomic
  · exact h.atomic
  · exact h.atomic
  · exact h.atomic
  · exact h.atomic
  · exact h.atomic
  · exact h.atomic
  · exact h.atomic
  · exact h.atomic
  · exact h.atomic
  · exact h.execLdAcq
  · exact h.execStRel
  · exact h.finish (.bind fun _ => .ite .error (.ok h.setG.goto))
  · exact h.unary
  · exact h.unary
  · exact h.unary
  · exact h.unary
  · exact h.unary
  · exact h.unary
  · exact h.unary
  · exact h.unary
  · exact h.unary
  · exact h.unary
  · exact .next h.result
  · exact h.plainLoad
  · exact h.plainLoad
  · exact h.plainLoad
  · exact h.plainLoad
  · exact h.plainLoad
  · exact h.plainLoad
  · exact h.plainLoad
  · exact h.execScratchLoad
  · exact h.plainStore
  · exact h.plainStore
  · exact h.plainStore
  · exact h.plainStore
  · exact h.execScratchStore
  · exact h.derivedRead
  · exact h.derivedRead
  · exact h.execSrr
  · exact h.execSrw
  · exact h.branch
  · exact h.branch
  · exact h.branch
  · exact h.branch
  · exact h.branch
  · exact h.branch
  · exact .next h.goto
  · exact .next h.setG.goto
  · exact .next h.result
  · exact .next h.result
  · exact .next h.result
  · exact h.execScopy
  · exact h.execSstrd
  · exact h.execSgath
  · exact h.execSscat
  · exact h.execSxcopy
  · exact h.execMstep
  · exact h.execMomstep
  · exact h.execAccZero
  · exact h.execAccLd
  · exact h.execAccSt
  · exact h.execTmv
  · exact h.execTsel
  · exact h.execTred
  · exact h.execCollAr
  · exact h.execCollRs
  · exact h.execCollAg
  · exact h.execCollBc
  · exact h.execCollA2a
  · exact h.elem (.ok h)
  · exact h.elemMove
  · exact h.elemMove
  · exact h.elem (.bind fun _ => .bind fun _ => .bind fun _ => .ok h.give)
  · exact h.elem (.bind fun _ => .ite .error (.ok h.give))
  · exact h.elem (.ok h.deliverAs)
  · exact h.elem (.ite .error (.ok h.deliverAs))
  · exact h.elemInt2
  · exact h.elemInt2
  · exact h.elemInt2
  · exact h.elemInt2
  · exact h.elemInt2
  · exact h.elem3
  · exact h.elemInt1
  · exact h.elemInt1
  · exact h.elemInt2
  · exact h.elemInt2
  · exact h.elemInt2
  · exact h.elemInt2
  · exact h.elemInt2
  · exact h.elemInt2
  · exact h.elemLogic
  · exact h.elemLogic
  · exact h.elemLogic
  · exact h.elemLogic
  · exact h.elem (.bind fun _ => .ok h.give)
  · exact h.elemShift
  · exact h.elemShift
  · exact h.elemShift
  · exact h.elemShift
  · exact h.elemInt1
  · exact h.elemInt1
  · exact h.elem2
  · exact h.elem2
  · exact h.elem2
  · exact h.elem2
  · exact h.elem2
  · exact h.elem1
  · exact h.elem (.bind fun _ => .bind fun _ => .ok h.give)
  · exact h.elemFloat2
  · exact h.elemFloat2
  · exact h.elemFloat2
  · exact h.elemFused
  · exact h.elemFused
  · exact h.elemFused
  · exact h.elemFused
  · exact h.elemFloat2
  · exact h.elem1
  · exact h.elem2
  · exact h.elem2
  · exact h.elem1
  · exact h.elem1
  · exact h.elem2
  · exact h.elem1
  · exact h.elem2
  · exact h.elem1
  · exact h.elem (.bind fun _ => .ok h.give)
  · exact h.elemLane (.bind fun _ => .bind fun _ => .bind fun _ => .bind fun _ => .bind fun _ => .ok (h.give.ite h).writeLane)
  · exact h.elemLane (.bind fun _ => .bind fun _ => .bind fun _ => .bind fun _ => .ok h.give.writeLane)
  · exact h.elem (.bind fun _ => .bind fun _ => .ok h.give)
  · exact h.elem (.bind fun _ => .bind fun _ => .ok h.give)
  · exact h.elem (.bind fun _ => .bind fun _ => .ok h.give)
  · exact h.elem (.bind fun _ => .bind fun _ => .bind fun _ => .ok h.give)
  · exact h.elemSpecial
  · exact h.elemSpecial
  · exact h.elemSpecial
  · exact h.elemSpecial
  · exact h.elemSpecial
  · exact h.elemSpecial
  · exact h.elemSpecial
  · exact h.elemSpecial
  · exact h.elemSpecial
  · exact h.elemSpecial
  · exact h.elemSpecial
  · exact h.elemMoment2
  · exact h.elemMoment2
  · exact h.elemMoment2
  · exact h.elem (.bind fun _ => .bind fun _ => .bind fun _ => .ok h.giveMoment)
  · exact h.elemMoment1
  · exact h.elemMoment1
  · exact h.elemMoment1
  · exact h.elemMoment1
  · exact h.execEMcol
  · exact h.elem (.bind fun _ => .bind fun _ => .ok h.giveMoment)
  · exact h.elem (.bind fun _ => h.streamLoad)
  · exact h.elem (.bind fun _ => .bind fun _ => h.streamStore)
  · exact h.elem (.bind fun _ => h.streamLoad)
  · exact h.elem (.bind fun _ => .bind fun _ => h.streamStore)
  · exact h.elem (.ok h.generate)
  · exact h.elem (.bind fun _ => .bind fun _ => .ok h.generate)
  · exact h.elem (.bind fun _ => .ok h.generate)
  · exact h.elem (.bind fun _ => .ok h.generate)
  · exact h.elemLane (.bind fun _ => .bind fun _ => .ok h.give)
  · exact h.elem (.bind fun _ => .bind fun _ => .bind fun _ => .ok h.writeLane)
  · exact h.execESpld
  · exact h.execESpst
  · exact h.elem (.bind fun _ => .bind fun _ => .bind fun _ => .ok h.give)
  · exact h.elem (.bind fun _ => .bind fun _ => .ite .error (.ite .error (.ok h.deliverAs)))
  · exact h.elemReduce
  · exact h.elemReduce
  · exact h.elemReduce
  · exact h.elemReduce
  · exact h.elemReduce
  · exact h.elemReduce
  · exact h.execEvRowCounterStep
  · exact h.execEvWaveAdvance
  · exact h.execEvResultLands
  · exact h.execEvLoadReplyArrives
  · exact h.execEvStallGraceExpiry
  · exact h.execEvRoundCommit
  · exact h.execEvPhaseRetire
  · exact h.execEvStoreAtHome
  · exact h.execEvSumDeltaMessage
  · exact h.execEvMaxDeltaMessage
  · exact h.execEvBscaleDeltaMessage
  · exact h.execEvRescanComplete
  · exact h.execEvRebuildComplete
  · exact h.execEvStoreAcknowledged
  · exact h.execEvAtomicAtHome
  · exact h.execEvReductionAtHome
  · exact h.execEvCcEvictionPush
  · exact h.execEvBarrierArrivalMessage
  · exact h.execEvCompletionSignal
  · exact h.execEvDependencesComplete
  · exact h.execEvSubreg
  · exact h.execEvLaunchAcceptance
  · exact h.execEvTaskabort
  · exact h.execEvTabort
  · exact h.execEvAldata
  · exact h.execEvArmBind
  · exact h.execEvArmResume
  · exact h.execEvArmPreempt
  · exact h.execEvArmFreeze
  · exact h.execEvCancelBindRecord
  · exact h.execEvBindExecute
  · exact h.execEvResumeExecute
  · exact h.execEvPreemptExecute
  · exact h.execEvGangSaveAtPoints
  · exact h.execEvPreemptTimeout
  · exact h.execEvForcedFreeze
  · exact h.execEvFastContextCaptured
  · exact h.execEvSpillComplete
  · exact h.execEvMemberRetire
  · exact h.execEvCoreScrubComplete
  · exact h.execEvAsyncTrapDelivery
  · exact h.execEvEbudWindowExpiry
  · exact h.execEvEbud
  · exact h.execEvHeldCommandAccepted
  · exact h.execEvEngineCommandStart
  · exact h.execEvCopyGranuleLands
  · exact h.execEvCopyRetire
  · exact h.execEvMstepZeroing
  · exact h.execEvTileStepSliceRetire
  · exact h.execEvTileStepRetire
  · exact h.execEvAccCellsWritten
  · exact h.execEvAccCommandRetire
  · exact h.execEvTahrResultLands
  · exact h.execEvTahrRetire
  · exact h.execEvCollectiveLanding
  · exact h.execEvCollectivePartRetire
  · exact h.execEvEventTaken
  · exact h.execEvEvhead
  · exact h.execEvEvcfg
  · exact h.execEvLockstepFailure
  · exact h.execEvFailoverComplete
  · exact h.execEvCorectl
  · exact h.execEvRegisterWrite
  · exact h.execEvPrrespRetry
  · exact h.execEvPrrespRefuse
  · exact h.execEvPrqhead
  · exact h.execEvTlbinv
  · exact h.execEvTlbinvDone
  · exact h.execEvWlreq
  · exact h.execEvUncorrectableError
  · exact h.execEvLineLost
  · exact h.execEvPrect
  · exact h.execEvCremap
  · exact h.execEvPpol
  · exact h.execEvPway
  · exact h.execEvCpwin
  · exact h.execEvPat
  · exact h.execEvPatZeroingComplete
  · exact h.execEvBlkcls
  · exact h.execEvBlockLayoutComplete
  · exact h.execEvSealstRekey
  · exact h.execEvRekeyComplete
  · exact h.execEvGroupReencryptComplete
  · exact h.execEvMrgo
  · exact h.execEvAudw4
  · exact h.execEvAuditCheckpoint
  · exact h.execEvAuditFree
  · exact h.execEvSpdmRequest
  · exact h.execEvTdispRequest
  · exact h.execEvLchanOpen
  · exact h.execEvLchanRetire
  · exact h.execEvChannelDrainEnd
  · exact h.execEvDrainedReport
  · exact h.execEvOpenMessage
  · exact h.execEvPwin
  · exact h.execEvPeerAccessArrival
  · exact h.execEvPeerReplyTimeout
  · exact h.execEvLomidLaneFailure
  · exact h.execEvReplicaWriteAtHome
  · exact h.execEvReplicaConfirm
  · exact h.execEvHostSnoop
  · exact h.execEvHostWrite
  · exact h.execEvHostRead
  · exact h.execEvCxlGrant
  · exact h.execEvDebugStop
  · exact h.execEvDumpctl
  · exact h.execEvDumpComplete
  · exact h.execEvDebugCheckpoint
  · exact h.execEvRlfree
  · exact h.execEvPowerUp
  · exact h.execEvDeviceReady
  · exact h.execEvPwrgdDeassert
  · exact h.execEvPerst
  · exact h.execEvPfFlr
  · exact h.execEvVfFlr
  · exact h.execEvIslandGate
  · exact h.execEvIslandFrequency
  · exact h.execEvIslandChangeComplete
  · exact h.execEvPkgGate
  · exact h.execEvPkgGateExitComplete
  · exact h.execEvPowerLimitThrottle
  · exact h.execEvThermalThrottle
  · exact h.execEvThermalTrip
  · exact h.execEvIllegalInstruction
  · exact h.execEvHostLinkDead
  · exact h.execEvThermalThrottleEnd
  · exact h.execEvPowerLimitThrottleEnd
  · exact h.execEvSubstat
  · exact h.execEvReplay

/-! #### Machine/Events -/

theorem Keeps.runEv (h : Keeps s₀ s) {e : Ev} : Goes s₀ (runEv e s) := by
  cases e with
  | rowCounterStep => exact h.execEvRowCounterStep
  | waveAdvance => exact h.execEvWaveAdvance
  | resultLands => exact h.execEvResultLands
  | loadReplyArrives => exact h.execEvLoadReplyArrives
  | stallGraceExpiry => exact h.execEvStallGraceExpiry
  | roundCommit => exact h.execEvRoundCommit
  | phaseRetire => exact h.execEvPhaseRetire
  | storeAtHome => exact h.execEvStoreAtHome
  | sumDeltaMessage => exact h.execEvSumDeltaMessage
  | maxDeltaMessage => exact h.execEvMaxDeltaMessage
  | bscaleDeltaMessage => exact h.execEvBscaleDeltaMessage
  | rescanComplete => exact h.execEvRescanComplete
  | rebuildComplete => exact h.execEvRebuildComplete
  | storeAcknowledged => exact h.execEvStoreAcknowledged
  | atomicAtHome => exact h.execEvAtomicAtHome
  | reductionAtHome => exact h.execEvReductionAtHome
  | ccEvictionPush => exact h.execEvCcEvictionPush
  | barrierArrivalMessage => exact h.execEvBarrierArrivalMessage
  | completionSignal => exact h.execEvCompletionSignal
  | dependencesComplete => exact h.execEvDependencesComplete
  | subreg => exact h.execEvSubreg
  | launchAcceptance => exact h.execEvLaunchAcceptance
  | taskabort => exact h.execEvTaskabort
  | tabort => exact h.execEvTabort
  | aldata => exact h.execEvAldata
  | armBind => exact h.execEvArmBind
  | armResume => exact h.execEvArmResume
  | armPreempt => exact h.execEvArmPreempt
  | armFreeze => exact h.execEvArmFreeze
  | cancelBindRecord => exact h.execEvCancelBindRecord
  | bindExecute => exact h.execEvBindExecute
  | resumeExecute => exact h.execEvResumeExecute
  | preemptExecute => exact h.execEvPreemptExecute
  | gangSaveAtPoints => exact h.execEvGangSaveAtPoints
  | preemptTimeout => exact h.execEvPreemptTimeout
  | forcedFreeze => exact h.execEvForcedFreeze
  | fastContextCaptured => exact h.execEvFastContextCaptured
  | spillComplete => exact h.execEvSpillComplete
  | memberRetire => exact h.execEvMemberRetire
  | coreScrubComplete => exact h.execEvCoreScrubComplete
  | asyncTrapDelivery => exact h.execEvAsyncTrapDelivery
  | ebudWindowExpiry => exact h.execEvEbudWindowExpiry
  | ebud => exact h.execEvEbud
  | heldCommandAccepted => exact h.execEvHeldCommandAccepted
  | engineCommandStart => exact h.execEvEngineCommandStart
  | copyGranuleLands => exact h.execEvCopyGranuleLands
  | copyRetire => exact h.execEvCopyRetire
  | mstepZeroing => exact h.execEvMstepZeroing
  | tileStepSliceRetire => exact h.execEvTileStepSliceRetire
  | tileStepRetire => exact h.execEvTileStepRetire
  | accCellsWritten => exact h.execEvAccCellsWritten
  | accCommandRetire => exact h.execEvAccCommandRetire
  | tahrResultLands => exact h.execEvTahrResultLands
  | tahrRetire => exact h.execEvTahrRetire
  | collectiveLanding => exact h.execEvCollectiveLanding
  | collectivePartRetire => exact h.execEvCollectivePartRetire
  | eventTaken => exact h.execEvEventTaken
  | evhead => exact h.execEvEvhead
  | evcfg => exact h.execEvEvcfg
  | lockstepFailure => exact h.execEvLockstepFailure
  | failoverComplete => exact h.execEvFailoverComplete
  | corectl => exact h.execEvCorectl
  | registerWrite => exact h.execEvRegisterWrite
  | prrespRetry => exact h.execEvPrrespRetry
  | prrespRefuse => exact h.execEvPrrespRefuse
  | prqhead => exact h.execEvPrqhead
  | tlbinv => exact h.execEvTlbinv
  | tlbinvDone => exact h.execEvTlbinvDone
  | wlreq => exact h.execEvWlreq
  | uncorrectableError => exact h.execEvUncorrectableError
  | lineLost => exact h.execEvLineLost
  | prect => exact h.execEvPrect
  | cremap => exact h.execEvCremap
  | ppol => exact h.execEvPpol
  | pway => exact h.execEvPway
  | cpwin => exact h.execEvCpwin
  | pat => exact h.execEvPat
  | patZeroingComplete => exact h.execEvPatZeroingComplete
  | blkcls => exact h.execEvBlkcls
  | blockLayoutComplete => exact h.execEvBlockLayoutComplete
  | sealstRekey => exact h.execEvSealstRekey
  | rekeyComplete => exact h.execEvRekeyComplete
  | groupReencryptComplete => exact h.execEvGroupReencryptComplete
  | mrgo => exact h.execEvMrgo
  | audw4 => exact h.execEvAudw4
  | auditCheckpoint => exact h.execEvAuditCheckpoint
  | auditFree => exact h.execEvAuditFree
  | spdmRequest => exact h.execEvSpdmRequest
  | tdispRequest => exact h.execEvTdispRequest
  | lchanOpen => exact h.execEvLchanOpen
  | lchanRetire => exact h.execEvLchanRetire
  | channelDrainEnd => exact h.execEvChannelDrainEnd
  | drainedReport => exact h.execEvDrainedReport
  | openMessage => exact h.execEvOpenMessage
  | pwin => exact h.execEvPwin
  | peerAccessArrival => exact h.execEvPeerAccessArrival
  | peerReplyTimeout => exact h.execEvPeerReplyTimeout
  | lomidLaneFailure => exact h.execEvLomidLaneFailure
  | replicaWriteAtHome => exact h.execEvReplicaWriteAtHome
  | replicaConfirm => exact h.execEvReplicaConfirm
  | hostSnoop => exact h.execEvHostSnoop
  | hostWrite => exact h.execEvHostWrite
  | hostRead => exact h.execEvHostRead
  | cxlGrant => exact h.execEvCxlGrant
  | debugStop => exact h.execEvDebugStop
  | dumpctl => exact h.execEvDumpctl
  | dumpComplete => exact h.execEvDumpComplete
  | debugCheckpoint => exact h.execEvDebugCheckpoint
  | rlfree => exact h.execEvRlfree
  | powerUp => exact h.execEvPowerUp
  | deviceReady => exact h.execEvDeviceReady
  | pwrgdDeassert => exact h.execEvPwrgdDeassert
  | perst => exact h.execEvPerst
  | pfFlr => exact h.execEvPfFlr
  | vfFlr => exact h.execEvVfFlr
  | islandGate => exact h.execEvIslandGate
  | islandFrequency => exact h.execEvIslandFrequency
  | islandChangeComplete => exact h.execEvIslandChangeComplete
  | pkgGate => exact h.execEvPkgGate
  | pkgGateExitComplete => exact h.execEvPkgGateExitComplete
  | powerLimitThrottle => exact h.execEvPowerLimitThrottle
  | thermalThrottle => exact h.execEvThermalThrottle
  | thermalTrip => exact h.execEvThermalTrip
  | illegalInstruction => exact h.execEvIllegalInstruction
  | hostLinkDead => exact h.execEvHostLinkDead
  | thermalThrottleEnd => exact h.execEvThermalThrottleEnd
  | powerLimitThrottleEnd => exact h.execEvPowerLimitThrottleEnd
  | substat => exact h.execEvSubstat
  | replay => exact h.execEvReplay
  | storeOnWay => exact h.execEvStoreOnWay
  | heldTurn => exact h.execEvHeldTurn
  | answered => exact h.execEvAnswered
  | slotError => exact h.execEvSlotError
  | farBarInit => exact h.execEvFarBarInit
  | memberGone => exact h.execEvMemberGone
  | gangNews => exact h.execEvGangNews
  | farSignal => exact h.execEvFarSignal
  | signalDone => exact h.execEvSignalDone
  | ccStore => exact h.execEvCcStore
  | heldReadAnswered => exact h.execEvHeldReadAnswered
  | recover => exact h.execEvRecover
  | hartsRetire => exact h.execEvHartsRetire
  | sramError => exact h.execEvSramError
  | hartStore => exact h.execEvHartStore
  | hartLoad => exact h.execEvHartLoad
  | hostBarRead => exact h.execEvHostBarRead
  | wordError => exact h.execEvWordError
  | bankError => exact h.execEvBankError
  | bankFailed => exact h.execEvBankFailed
  | sliceOff => exact h.execEvSliceOff
  | earlyLoad => exact h.execEvEarlyLoad
  | earlyDread => exact h.execEvEarlyDread
  | sealMismatch => exact h.execEvSealMismatch
  | replicaLost => exact h.execEvReplicaLost
  | firmwareStart => exact h.execEvFirmwareStart
  | resetEntryEnd => exact h.execEvResetEntryEnd
  | pkgGateEnter => exact h.execEvPkgGateEnter
  | lomidAck => exact h.execEvLomidAck
  | lomidReply => exact h.execEvLomidReply
  | reverseStep => exact h.execEvReverseStep

/-! #### Machine/Fetch -/

theorem Keeps.fetchWord (h : Keeps s₀ s) {pc : Word} : WordKeeps s₀ (s.fetchWord pc) := by
  unfold State.fetchWord
  extract_lets part
  split
  · rename_i e
    exact (h.seqConflict (h.xlate_snd.of_eq e)).stateOr
  · rename_i e
    exact (h.xlate_snd.of_eq e).pageRequest.setWait
  · rename_i s1 e
    have h1 : Keeps s₀ s1 := h.xlate_snd.of_eq e
    split
    · exact h.trap
    · split
      · split
        · exact h
        · split
          · extract_lets d s2
            have h2 : Keeps s₀ s2 := h1.noteBad.charge
            split
            · exact h2.trap
            · exact h2.touch
          · exact h.askHalves
      · split
        · exact h.trap
        · split
          · exact h
          · split
            · exact h1.touch
            · exact h.askHalves
      · exact h.trap

theorem Keeps.fetch (h : Keeps s₀ s) : FetchKeeps s₀ s.fetch := by
  unfold State.fetch
  split
  · rename_i e
    exact h.fetchWord.stopped e
  · rename_i e
    have h1 := h.fetchWord.state e
    split
    · split
      · rename_i e2
        exact h1.fetchWord.stopped e2
      · rename_i e2
        exact (h1.fetchWord.state e2).modQ
    · exact h1.modQ

theorem Keeps.execHeld (h : Keeps s₀ s) : Goes s₀ s.execHeld := by
  unfold State.execHeld
  extract_lets
  split
  · exact h.exec
  · exact h.execEvIllegalInstruction

theorem Keeps.passBreak (h : Keeps s₀ s) : Keeps s₀ s.passBreak := .ite h.modCur h

theorem Keeps.nextInstr (h : Keeps s₀ s) : Goes s₀ s.nextInstr := by
  unfold State.nextInstr
  split
  · exact .next h.modCur.soon
  · split
    · rename_i e
      exact .next (h.fetch.stopped e)
    · rename_i e
      exact (h.fetch.state e).passBreak.execHeld

theorem Keeps.againInstr (h : Keeps s₀ s) : Goes s₀ s.againInstr := by
  unfold State.againInstr
  split
  · rename_i e
    exact .next (h.fetch.stopped e)
  · rename_i e
    exact (h.fetch.state e).passBreak.execHeld

theorem Keeps.retryInstr (h : Keeps s₀ s) : Goes s₀ s.retryInstr := by
  unfold State.retryInstr
  split
  · rename_i e
    exact .next (h.fetch.stopped e)
  · rename_i e
    exact (h.fetch.state e).passBreak.setWait.execHeld

theorem Keeps.payTrap (h : Keeps s₀ s) {o : OwedTrap} : Keeps s₀ (s.payTrap o) := h.modCur.trapAt

/-- The turn of a core that the device has. -/
theorem Keeps.stepSeq (h : Keeps s₀ s) {c : Nat} (hc : c < 72) : Goes s₀ (stepSeq c s) := by
  unfold Machine.stepSeq
  extract_lets s1 k
  have h1 : Keeps s₀ s1 := h.same
  rw [if_neg (Nat.not_le.mpr hc)]
  refine .ite (.next h1) (.ite h1.execEvAsyncTrapDelivery ?_)
  split
  · exact .next h1.payTrap
  · split
    · exact .next h1
    · exact .ite h1.againInstr (.next h1)
    · exact .next h1
    · exact .next h1
    · exact .next h1
    · exact h1.nextInstr
    · exact h1.retryInstr
    · exact h1.setWait.execHeld
    all_goals exact h1.execHeld

theorem Keeps.stepElem (h : Keeps s₀ s) {x : Issue} : Goes s₀ (stepElem x s) := by
  unfold Machine.stepElem
  split
  · exact h.same.exec
  · exact .next h

theorem Keeps.runAction (h : Keeps s₀ s) {a : Action} (ha : a.named = true) : Goes s₀ (runAction a s) := by
  cases a with
  | event e => exact h.runEv
  | elem x => exact h.stepElem
  | seq c => exact h.stepSeq (of_decide_eq_true ha)

end Sys2Proof.Machine
end

/-! ### The three statements -/

section
namespace Sys2Proof.Machine

variable {s : State}

/-- An entry of the agenda that names no core beyond the device is carried out. -/
theorem runAction_answers {a : Action} (ha : a.named = true) (s : State) : ∃ t, runAction a s = .next t :=
  ((Keeps.refl s).runAction ha).answers

/-- The turn of a core that the device does not have. -/
theorem stepSeq_noSuchCore {c : Nat} (hc : 72 ≤ c) (s : State) : stepSeq c s = .fault (.noSuchCore c) := if_pos hc

theorem step_nil (e : s.agenda = []) : step s = .next s.beginCycle := by unfold step; rw [e]
theorem step_cons {a : Action} {rest : List Action} (e : s.agenda = a :: rest) : step s = runAction a { s with agenda := rest } := by
  unfold step; rw [e]

/-- A step faults only on a core that the device does not have. -/
theorem step_answers (s : State) :
    (∃ t, step s = .next t) ∨ ∃ c rest, 72 ≤ c ∧ s.agenda = .seq c :: rest ∧ step s = .fault (.noSuchCore c) := by
  cases e : s.agenda with
  | nil => exact .inl ⟨_, step_nil e⟩
  | cons a rest =>
    rw [step_cons e]
    cases a with
    | event x => exact .inl (runAction_answers rfl _)
    | elem x => exact .inl (runAction_answers rfl _)
    | seq c =>
      rcases Nat.lt_or_ge c 72 with hc | hc
      · have ha : (Action.seq c).named = true := decide_eq_true hc
        exact .inl (runAction_answers ha _)
      · exact .inr ⟨c, rest, hc, rfl, stepSeq_noSuchCore hc _⟩

/-- From a safe state a step goes on, and keeps safety. -/
theorem step_goes_of_safe (h : Safe s) : Goes s (step s) := by
  cases e : s.agenda with
  | nil => rw [step_nil e]; exact .next (Keeps.refl s).beginCycle
  | cons a rest =>
    have hn : (a :: rest).all Action.named = true := e ▸ (Keeps.refl s).agenda h
    obtain ⟨ha, hr⟩ : a.named = true ∧ rest.all Action.named = true := Bool.and_eq_true_iff.mp hn
    rw [step_cons e]
    exact ((Keeps.refl s).withAgenda fun _ => hr).runAction ha

/-- Settles O58: reset has empty memories and an empty agenda. -/
theorem safeAtReset : Obligations.SafeAtReset := safe_reset

/-- Settles O59: each instruction and event keeps safety (`Keeps.exec`, `Keeps.runEv`), and so does the begin of a cycle. -/
theorem stepKeepsSafe : Obligations.StepKeepsSafe := fun _ _ h e => (step_goes_of_safe h).keeps e h

/-- Settles O60: each instruction answers (`Keeps.exec`), and so does each entry of a safe state's agenda. -/
theorem everyInstructionAnswers : Obligations.EveryInstructionAnswers :=
  ⟨fun _ s => (Keeps.refl s).exec.answers, step_answers, fun _ h => (step_goes_of_safe h).answers⟩

end Sys2Proof.Machine
end

/-! ### The faults of element operations

A form reads its operands in turn; the first read that stops in a trap is the form's fault. `Issues.faults` says once what such a fault
does: the region faults with the trap and nothing else happens. -/

section
namespace Sys2Proof.Machine

variable {s t : State} {e : Entry} {a : Tagged} {x : Trap} {i : Instr}

/-! #### The fault of a region (R147, R213) -/

/-- A stamp whose region has faulted with a cause: its phase has ended in every copy. -/
def Stamp.faultedWith (st : Stamp) (code : Nat) : Stamp := { st with state := .faulted code, copies := st.copies.map Copy.stopPhase }

/-- A void changes the copy, which keeps its handle; beside it only the agenda and what waits for the arbiter. -/
theorem State.voidCopy_eq (s : State) (i j cause : Nat) (va : Word) (node : Nat) :
    ∃ f ag pe, (∀ c : Copy, (f c).handle = c.handle)
      ∧ s.voidCopy i j cause va node = { s.modCopy i j f with agenda := ag, pending := pe } := by
  unfold State.voidCopy State.trace
  simp only
  split
  · exact ⟨_, _, _, fun _ => by rfl, rfl⟩
  · exact ⟨_, _, _, fun _ => by rfl, rfl⟩

theorem Stamp.handle_copy_modCopy {st : Stamp} {f : Copy → Copy} (hf : ∀ c, (f c).handle = c.handle) {j : Nat}
    (hj : j < st.copies.length) : ((st.modCopy j f).copy j).handle = (st.copy j).handle := by
  rw [Stamp.copy_modCopy st j j f hj, if_pos rfl, hf]

/-- The fault of the region of a stamp that is not held: the void, the end of the phase, and the trap held for the loading member. -/
theorem State.faultRegion_eq {i j node : Nat} (hj : j < (s.getStamp i).copies.length) (hh : (s.getStamp i).held = false) :
    ∃ f ag pe, s.faultRegion i j x node =
      { ((s.modCopy i j f).modStamp i (·.faultedWith x.code)).holdTrap (s.getStamp i).core (s.getStamp i).core
          { x with src := 1, unit := ((s.getStamp i).copy j).handle } with agenda := ag, pending := pe } := by
  obtain ⟨f, ag, pe, hf, hv⟩ := s.voidCopy_eq i j x.code x.tval node
  have hst : (s.modCopy i j f).getStamp i = (s.getStamp i).modCopy j f := State.getStamp_modStamp_same _ _ _
  have hst' : ((s.voidCopy i j x.code x.tval node).dropSteps i fun _ => true).getStamp i = (s.getStamp i).modCopy j f := by
    rw [hv]; exact hst
  unfold State.faultRegion
  simp only [hst']
  have hh' : ((s.getStamp i).modCopy j f).held = false := hh
  rw [hh', Bool.false_and, if_neg Bool.false_ne_true, Stamp.handle_copy_modCopy hf hj, hv]
  exact ⟨f, _, pe, rfl⟩

/-- In a faulted region every copy is done, with nothing in flight. -/
theorem Stamp.ended_faultedWith {st : Stamp} {code : Nat} {c : Copy} (hc : c ∈ (st.faultedWith code).copies) :
    c.done = true ∧ c.reg.inflight = [] := by
  obtain ⟨d, -, rfl⟩ := List.mem_map.mp hc
  exact ⟨rfl, rfl⟩

theorem State.getCore_holdTrap (s : State) (c o d : Nat) (x : Trap) : (s.holdTrap c o x).getCore d =
    if d = c then { s.getCore c with seq := (s.getCore c).seq.holdTrap (s.trapKey o) x } else s.getCore d :=
  State.getCore_modCore _ _ _ _

theorem State.scratch_getCore_holdTrap (s : State) (c o d : Nat) (x : Trap) :
    ((s.holdTrap c o x).getCore d).scratch = (s.getCore d).scratch := by
  rw [State.getCore_holdTrap]
  split
  · rename_i h; rw [h]
  · rfl

theorem State.getStamp_modCopy (s : State) (i j k : Nat) (f : Copy → Copy) :
    (s.modCopy i j f).getStamp k = if k = i then (s.getStamp i).modCopy j f else s.getStamp k :=
  State.getStamp_modStamp s i k (·.modCopy j f)

theorem State.getStamp_holdTrap (s : State) (c o k : Nat) (x : Trap) : (s.holdTrap c o x).getStamp k = s.getStamp k := rfl

/-- A region fault's effect does not turn on the agenda and on what waits for the arbiter. -/
theorem RegionFaulted.withAgenda (h : RegionFaulted s t x) (ag : List Action) (pe : List Pending) :
    RegionFaulted s { t with agenda := ag, pending := pe } x where
  cores := h.cores
  state := h.state
  ended := h.ended
  trap := h.trap
  stamps := h.stamps
  bytes := ⟨h.bytes.hbm, h.bytes.host, h.bytes.chip, h.bytes.saiga, h.bytes.core, h.bytes.shared, h.bytes.dirty⟩

/-- The end of the phase and the trap held for the loading member are all that a region fault tells of. -/
theorem regionFaulted_holdTrap (s : State) (f : Copy → Copy) (x : Trap) :
    RegionFaulted s (((s.modCopy s.issue.stamp s.issue.copy f).modStamp s.issue.stamp (·.faultedWith x.code)).holdTrap
      s.xStamp.core s.xStamp.core { x with src := 1, unit := s.xCopy.handle }) x := by
  generalize hu : (s.modCopy s.issue.stamp s.issue.copy f).modStamp s.issue.stamp (·.faultedWith x.code) = u
  have hcores (c : Nat) : u.getCore c = s.getCore c := by subst hu; rfl
  have hself : u.getStamp s.issue.stamp = (s.xStamp.modCopy s.issue.copy f).faultedWith x.code := by
    rw [← hu, State.getStamp_modStamp_same, State.getStamp_modCopy, if_pos rfl]; rfl
  have hkey : u.trapKey = s.trapKey := by subst hu; rfl
  have hissue : u.issue = s.issue := by subst hu; rfl
  generalize hy : ({ x with src := 1, unit := s.xCopy.handle } : Trap) = y
  have hst : (u.holdTrap s.xStamp.core s.xStamp.core y).xStamp = (s.xStamp.modCopy s.issue.copy f).faultedWith x.code := by
    rw [← hself, ← hissue]; rfl
  refine ⟨fun c hc => ?_, ?_, fun c hc => ?_, ?_, fun k hk => ?_, ?_⟩
  · rw [State.getCore_holdTrap, if_neg hc, hcores]
  · rw [hst]; rfl
  · rw [hst] at hc; exact Stamp.ended_faultedWith hc
  · rw [State.getCore_holdTrap, if_pos rfl, hkey, hcores, hy]; rfl
  · rw [State.getStamp_holdTrap, ← hu, State.getStamp_modStamp, if_neg hk, State.getStamp_modCopy, if_neg hk]
  · subst hu
    refine ⟨fun _ => rfl, fun _ => rfl, fun _ => rfl, fun _ => rfl, fun c a => ?_, fun _ _ => rfl, fun _ => rfl⟩
    rw [State.scratch_getCore_holdTrap, hcores]

/-- The whole effect of a fault of the region whose element issues. -/
theorem regionFaulted_xFault (hl : s.xLive = true) (hh : s.xStamp.held = false) (x : Trap) : RegionFaulted s (s.xFault x) x := by
  have hj : s.issue.copy < s.xStamp.copies.length := of_decide_eq_true (Bool.and_eq_true_iff.mp hl).2
  obtain ⟨f, ag, pe, hx⟩ := State.faultRegion_eq (x := x) (node := s.xNode) hj hh
  unfold State.xFault
  rw [hx]
  exact (regionFaulted_holdTrap s f x).withAgenda ag pe

/-! #### The fault of an entry -/

/-- No errors charged: a partition's budget register is written at most, and it is not exhausted by that. -/
theorem State.charge_zero (s : State) (p order : Nat) : ∃ f, s.charge p 0 order = s.modPart p f := by
  unfold State.charge
  exact ⟨_, if_neg (by rw [decide_eq_false (not_not_intro rfl), Bool.and_false]; exact Bool.false_ne_true)⟩

/-- What is told of a lane-slice word among the operands, being clean, charges no error. -/
theorem State.tellLane_clean (s : State) (w : Nat) : ∃ f, s.tellLane w .clean = s.modPart s.xPart f :=
  s.charge_zero s.xPart s.xCore

/-- A region fault's effect is told of the state but for the partitions' registers. -/
theorem RegionFaulted.ofModPart {p : Nat} {f : Part → Part} (h : RegionFaulted (s.modPart p f) t x) : RegionFaulted s t x where
  cores := h.cores
  state := h.state
  ended := h.ended
  trap := h.trap
  stamps := h.stamps
  bytes := ⟨h.bytes.hbm, h.bytes.host, h.bytes.chip, h.bytes.saiga, h.bytes.core, h.bytes.shared, h.bytes.dirty⟩

/-- An entry that takes effect and whose body stops in a trap faults the region with it (R147). -/
theorem Issues.faults (h : Issues s e) (hh : s.xStamp.held = false) {body : Except Trap State} (hi : exec i s = elem e s body)
    (hb : body = .error x) : Completes i s fun t => RegionFaulted s t x := by
  obtain ⟨live, takes, clean⟩ := h
  subst hb
  unfold elem at hi
  simp only [live, takes, if_true] at hi
  refine ⟨_, hi, ?_⟩
  split
  · obtain ⟨f, hf⟩ := s.tellLane_clean (by assumption)
    rw [clean, hf]
    exact (regionFaulted_xFault (s := s.modPart s.xPart f) live hh x).ofModPart
  · exact regionFaulted_xFault live hh x

/-- So does one whose body first reads `r`, where that read stops in the trap. -/
theorem Issues.faults_first (h : Issues s e) (hh : s.xStamp.held = false) {α : Type} {r : Except Trap α} {k : α → Except Trap State}
    (hi : exec i s = elem e s (r >>= k)) (hr : r = .error x) : Completes i s fun t => RegionFaulted s t x :=
  h.faults hh hi (by rw [hr]; rfl)

/-! #### Operands that stop in a trap -/

section
variable {code : BitVec 5} {tags : List Nat}

theorem State.operand_ok (ha : s.source e code = .ok a) (ht : a.tag.toNat ∈ tags) : s.operand e code tags = .ok a := by
  unfold State.operand
  rw [ha]
  exact if_pos (List.contains_iff_mem.mpr ht)

/-- A tag that is not listed (R83). -/
theorem State.operand_tagTrap (ha : s.source e code = .ok a) (ht : a.tag.toNat ∉ tags) : s.operand e code tags = .error tagTrap := by
  unfold State.operand
  rw [ha]
  exact if_neg (mt List.contains_iff_mem.mp ht)

theorem State.xClean_ok {psn : Bool} (h : psn = false) : s.xClean psn = .ok () := by subst h; rfl

/-- Poison where a class-D kernel must have none (R410). -/
theorem State.xClean_dataTrap {psn : Bool} (h : psn = true) (hc : s.xClass = 1) : s.xClean psn = .error (dataTrap 0) := by
  unfold State.xClean; rw [h, hc]; rfl

/-- The number of a tag is among those of some tags. -/
theorem Tagged.tag_mem (a : Tagged) (l : List (BitVec 4)) : a.tag.toNat ∈ l.map BitVec.toNat ↔ a.tag ∈ l where
  mp h := by
    obtain ⟨b, hb, e⟩ := List.mem_map.mp h
    exact BitVec.eq_of_toNat_eq e ▸ hb
  mpr h := List.mem_map.mpr ⟨_, h, rfl⟩

theorem Tagged.tag_mem_two (a : Tagged) (x y : BitVec 4) : a.tag.toNat ∈ [x.toNat, y.toNat] ↔ a.tag = x ∨ a.tag = y :=
  (a.tag_mem [x, y]).trans (by simp only [List.mem_cons, List.not_mem_nil, or_false])

theorem Tagged.tag_mem_int (a : Tagged) : a.tag.toNat ∈ [1, 2] ↔ a.tag = 1 ∨ a.tag = 2 := a.tag_mem_two 1 2
theorem Tagged.tag_mem_addr (a : Tagged) : a.tag.toNat ∈ [14] ↔ a.tag = 14 := (a.tag_mem [14]).trans List.mem_singleton
theorem Tagged.tag_mem_scratch (a : Tagged) : a.tag.toNat ∈ [2, 14] ↔ a.tag = 14 ∨ a.tag = 2 := (a.tag_mem_two 2 14).trans or_comm

theorem State.fmtOperand_ok (ha : s.source e code = .ok a) (ht : a.tag = e.fmt) : s.fmtOperand e code = .ok a :=
  State.operand_ok ha (by rw [ht]; exact List.mem_singleton.mpr rfl)
theorem State.fmtOperand_tagTrap (ha : s.source e code = .ok a) (ht : a.tag ≠ e.fmt) : s.fmtOperand e code = .error tagTrap :=
  State.operand_tagTrap ha fun h => ht (BitVec.eq_of_toNat_eq (List.mem_singleton.mp h))

theorem State.intOperand_ok (ha : s.source e code = .ok a) (ht : a.tag = 1 ∨ a.tag = 2) : s.intOperand e code = .ok a :=
  State.operand_ok ha (a.tag_mem_int.mpr ht)
theorem State.intOperand_tagTrap (ha : s.source e code = .ok a) (ht : ¬(a.tag = 1 ∨ a.tag = 2)) :
    s.intOperand e code = .error tagTrap := State.operand_tagTrap ha (mt a.tag_mem_int.mp ht)

theorem State.genOperand_tagTrap (ha : s.source e code = .ok a) (ht : ¬(a.tag = 1 ∨ a.tag = 2)) :
    s.genOperand e code = .error tagTrap := by
  unfold State.genOperand; rw [State.intOperand_tagTrap ha ht]; rfl
theorem State.genOperand_dataTrap (ha : s.source e code = .ok a) (ht : a.tag = 1 ∨ a.tag = 2) (hp : a.psn = true)
    (hc : s.xClass = 1) : s.genOperand e code = .error (dataTrap 0) := by
  unfold State.genOperand; rw [State.intOperand_ok ha ht]
  show (s.xClean a.psn >>= _) = _
  rw [State.xClean_dataTrap hp hc]; rfl

/-- An index is read as a generator's operand is, and taken as a signed number. -/
theorem State.indexOperand_eq (s : State) (e : Entry) (code : BitVec 5) :
    s.indexOperand e code = (s.genOperand e code).map (·.val.toInt) := by
  unfold State.indexOperand State.genOperand
  cases s.intOperand e code with
  | error x => rfl
  | ok b =>
    show (s.xClean b.psn >>= _) = (s.xClean b.psn >>= _).map _
    cases s.xClean b.psn <;> rfl

theorem State.indexOperand_tagTrap (ha : s.source e code = .ok a) (ht : ¬(a.tag = 1 ∨ a.tag = 2)) :
    s.indexOperand e code = .error tagTrap := by
  rw [State.indexOperand_eq, State.genOperand_tagTrap ha ht]; rfl
theorem State.indexOperand_dataTrap (ha : s.source e code = .ok a) (ht : a.tag = 1 ∨ a.tag = 2) (hp : a.psn = true)
    (hc : s.xClass = 1) : s.indexOperand e code = .error (dataTrap 0) := by
  rw [State.indexOperand_eq, State.genOperand_dataTrap ha ht hp hc]; rfl

theorem State.addrOperand_tagTrap {n : Nat} (ha : s.source e code = .ok a) (ht : a.tag ≠ 14) :
    s.addrOperand e code n = .error tagTrap := by
  unfold State.addrOperand; rw [State.operand_tagTrap ha (mt a.tag_mem_addr.mp ht)]; rfl
theorem State.addrOperand_alignTrap {n : Nat} (ha : s.source e code = .ok a) (ht : a.tag = 14) (hp : a.psn = false)
    (hn : a.val.toNat % n ≠ 0) : s.addrOperand e code n = .error (alignTrap a.val) := by
  unfold State.addrOperand; rw [State.operand_ok ha (a.tag_mem_addr.mpr ht)]
  show (s.xClean a.psn >>= _) = _
  rw [State.xClean_ok hp]
  exact if_pos hn

theorem State.laneAddr_scratchTrap (ha : s.source e code = .ok a) (ht : a.tag = 1 ∨ a.tag = 2) (hp : a.psn = false)
    (hn : 511 < (a.val + BitVec.ofNat 64 e.aux.toNat).toNat) :
    s.laneAddr e code = .error (scratchTrap (a.val + BitVec.ofNat 64 e.aux.toNat)) := by
  unfold State.laneAddr; rw [State.intOperand_ok ha ht]
  show (s.xClean a.psn >>= _) = _
  rw [State.xClean_ok hp]
  refine (if_pos hn).trans ?_
  rw [BitVec.ofNat_toNat, BitVec.setWidth_eq]

theorem State.momentOperand_tagTrap (ha : s.source e code = .ok a) (ht : a.tag ≠ e.fmt) :
    s.momentOperand e code = .error tagTrap := by
  unfold State.momentOperand; rw [State.fmtOperand_tagTrap ha ht]; rfl

/-- A negative variance without VCLAMP (R106, R186). -/
theorem State.momentOperand_momentTrap (ha : s.source e code = .ok a) (ht : a.tag = e.fmt)
    (hn : negVar (momentOf e.fmt a.val).v = true) (hv : s.xStamp.hdr.vclamp = false) :
    s.momentOperand e code = .error momentTrap := by
  unfold State.momentOperand; rw [State.fmtOperand_ok ha ht]
  show (checkVar s.xStamp.hdr.vclamp (momentOf e.fmt a.val) >>= _) = _
  unfold checkVar
  rw [if_pos hn, hv]; rfl

end

/-! #### The place of a scratch read (R166, R167) -/

/-- The offset of a scratch address word is its low 28 bits. -/
theorem Word.toNat_offset (w : Word) : (BitVec.ofNat 64 (w.fld 27 0) : Word).toNat = w.fld 27 0 := by
  have h : w.fld 27 0 < 2 ^ 28 := Nat.mod_lt _ (by decide)
  rw [BitVec.toNat_ofNat]
  omega

/-- Without a channel named the reserved bits are zero with the bits above 31. -/
theorem Word.reserved_of_high {w : Word} (h : w.fld 63 32 = 0) : w.fld 63 33 = 0 := by
  unfold Word.fld fieldOf at *
  rw [Nat.shiftRight_eq_div_pow] at *
  omega

theorem State.scratchWord_tagTrap {code : BitVec 5} (ha : s.source e code = .ok a) (ht : ¬(a.tag = 14 ∨ a.tag = 2)) :
    s.scratchWord e code = .error tagTrap := by
  unfold State.scratchWord; rw [State.operand_tagTrap ha (mt a.tag_mem_scratch.mp ht)]; rfl

/-- A clean operand of a tag that a scratch address can have: only its reserved bits are left to check. -/
theorem State.scratchWord_eq {code : BitVec 5} (ha : s.source e code = .ok a) (ht : a.tag = 14 ∨ a.tag = 2) (hp : a.psn = false) :
    s.scratchWord e code = if a.val.fld 63 33 ≠ 0 then .error (scratchTrap a.val) else .ok a.val := by
  unfold State.scratchWord; rw [State.operand_ok ha (a.tag_mem_scratch.mpr ht)]
  show (s.xClean a.psn >>= _) = _
  rw [State.xClean_ok hp]; rfl

theorem State.spldPlace_error (h : s.scratchWord e e.sa = .error x) : s.spldPlace e = .error x := by
  unfold State.spldPlace; rw [h]; rfl

theorem State.spldPlace_scratchTrap {w : Word} (h : s.scratchWord e e.sa = .ok w) (hn : w.fld 27 0 % fmtBytes e.fmt.toNat = 0)
    (hb : s.scratchLoc s.xCore s.xPart (entryLevel e) (BitVec.ofNat 64 (w.fld 27 0)) = .bad) :
    s.spldPlace e = .error (scratchTrap (BitVec.ofNat 64 (w.fld 27 0))) := by
  unfold State.spldPlace; rw [h]
  refine (if_neg (by rw [Word.toNat_offset]; exact not_not_intro hn)).trans ?_
  rw [hb]

theorem State.spldPlace_ok {w : Word} {loc : ScratchLoc} (h : s.scratchWord e e.sa = .ok w)
    (hn : w.fld 27 0 % fmtBytes e.fmt.toNat = 0)
    (hl : s.scratchLoc s.xCore s.xPart (entryLevel e) (BitVec.ofNat 64 (w.fld 27 0)) = loc) (hb : loc ≠ .bad) :
    s.spldPlace e = .ok (w, loc) := by
  unfold State.spldPlace; rw [h]
  refine (if_neg (by rw [Word.toNat_offset]; exact not_not_intro hn)).trans ?_
  rw [hl]
  cases loc with
  | bad => exact absurd rfl hb
  | _ => rfl

/-- A scratch read that names a channel waits while the channel is not ready (R167). -/
theorem State.spldWaits_of_unready {w : Word} {loc : ScratchLoc} (ht : s.takesEffect e = .ok true) (hw : s.spldPlace e = .ok (w, loc))
    (hb : w.bit 32 = true)
    (hr : s.ready s.xCore (entryLevel e) (w.fld 31 28) (w.fld 27 0) (w.fld 27 0 + fmtBytes e.fmt.toNat) = false) :
    s.spldWaits e = true := by
  unfold State.spldWaits
  rw [ht, hw]
  show (w.bit 32 && !_) = true
  rw [hb, hr]; rfl

/-! #### What an entry reads first -/

/-- Forms whose first read is operand A, which must carry FMT. -/
def fmtForms (e : Entry) : List Instr :=
  [.eIadd e, .eImul e, .eIneg e, .eShl e, .eClz e, .eIcmp e, .ePand e, .ePnot e, .eAdd e, .eFma e, .eSqrt e, .eMax e, .eFrnd e, .eFcmp e,
    .eFclass e, .eQconv e, .eGext e, .eExp2 e, .eErf e]

/-- Forms whose first read is operand A as a moment value. -/
def momentForms (e : Entry) : List Instr := [.eMadd e, .eMrelu e, .eMscale e, .eMexp e, .eMcol e]

theorem exec_fmtForms (s : State) (hi : i ∈ fmtForms e) : ∃ k, exec i s = elem e s (s.fmtOperand e e.sa >>= k) := by
  simp only [fmtForms, List.mem_cons, List.not_mem_nil, or_false] at hi
  rcases hi with rfl | rfl | rfl | rfl | rfl | rfl | rfl | rfl | rfl | rfl | rfl | rfl | rfl | rfl | rfl | rfl | rfl | rfl | rfl
  all_goals exact ⟨_, rfl⟩

theorem exec_momentForms (s : State) (hi : i ∈ momentForms e) : ∃ k, exec i s = elem e s (s.momentOperand e e.sa >>= k) := by
  simp only [momentForms, List.mem_cons, List.not_mem_nil, or_false] at hi
  rcases hi with rfl | rfl | rfl | rfl | rfl
  all_goals exact ⟨_, rfl⟩

/-- A form that forms no lane-slice word has none to tell of. -/
theorem elemLane_none (e : Entry) (s : State) (body : Except Trap State) : elemLane e s none body = elem e s body := by
  unfold elemLane
  split
  · rename_i hw _; exact nomatch hw
  · rfl

/-! #### The slots that the commands feed -/

/-- A slot is among those of its cells: itself, or its pair (R108). -/
theorem slot_mem_ownSlots (paired : Prop) [Decidable paired] (slot : Nat) :
    slot ∈ if paired then [slot / 2 * 2, slot / 2 * 2 + 1] else [slot] := by
  split
  · simp only [List.mem_cons, List.not_mem_nil, or_false]; omega
  · exact List.mem_singleton.mpr rfl

/-- What an active command feeds is among what the commands feed of some slots, where it holds one of them. -/
theorem mem_fedSlots {cmds : List Cmd} {mcc : Word} {c : Cmd} {f : Bool × List Nat} {mine : List Nat} {n : Nat} (hc : c ∈ cmds)
    (ha : c.active mcc = true) (hf : c.feeds = some f) (hn : n ∈ f.2) (hm : n ∈ mine) :
    f ∈ (cmds.filterMap fun c => if c.active mcc then c.feeds else none).filter fun f => f.2.any mine.contains :=
  List.mem_filter.mpr ⟨List.mem_filterMap.mpr ⟨c, hc, by rw [if_pos ha, hf]⟩, List.any_eq_true.mpr ⟨n, hn, List.contains_iff_mem.mpr hm⟩⟩

/-! #### The faults of each form -/

section
variable (h : Issues s e) (hh : s.xStamp.held = false)
include h hh

theorem fmtForms_tagFault (hi : i ∈ fmtForms e) (ha : s.source e e.sa = .ok a) (ht : a.tag ≠ e.fmt) :
    Completes i s fun t => RegionFaulted s t { code := 9 } := by
  obtain ⟨k, hk⟩ := exec_fmtForms s hi
  exact h.faults_first hh hk (State.fmtOperand_tagTrap ha ht)

theorem momentForms_tagFault (hi : i ∈ momentForms e) (ha : s.source e e.sa = .ok a) (ht : a.tag ≠ e.fmt) :
    Completes i s fun t => RegionFaulted s t { code := 9 } := by
  obtain ⟨k, hk⟩ := exec_momentForms s hi
  exact h.faults_first hh hk (State.momentOperand_tagTrap ha ht)

theorem momentForms_momentFault (hi : i ∈ momentForms e) (ha : s.source e e.sa = .ok a) (ht : a.tag = e.fmt)
    (hn : negVar (momentOf e.fmt a.val).v = true) (hv : s.xStamp.hdr.vclamp = false) :
    Completes i s fun t => RegionFaulted s t { code := 11 } := by
  obtain ⟨k, hk⟩ := exec_momentForms s hi
  exact h.faults_first hh hk (State.momentOperand_momentTrap ha ht hn hv)

/-- A scratch read whose place cannot be formed faults with what stops that. -/
theorem eSpld_placeFault {x : Trap} (hx : s.spldPlace e = .error x) : Completes (.eSpld e) s fun t => RegionFaulted s t x :=
  h.faults_first hh rfl hx

/-- A scratch read that would wait, in a region without GRACE (R52). -/
theorem eSpld_timingFault {w : Word} {loc : ScratchLoc} (hp : s.spldPlace e = .ok (w, loc)) (hw : s.spldWaits e = true)
    (hg : s.xStamp.hdr.grace = 0) : Completes (.eSpld e) s fun t => RegionFaulted s t { code := 10 } := by
  refine h.faults hh rfl ?_
  rw [hp]
  exact (if_pos hw).trans (if_pos hg)

/-- An index beyond the lane slice (R165): the entry has no word to tell of. -/
theorem eLsld_scratchFault {x : Trap} (hx : s.laneAddr e e.sa = .error x) : Completes (.eLsld e) s fun t => RegionFaulted s t x := by
  have hw : s.laneAt e = none := by unfold State.laneAt; rw [hx]
  refine h.faults hh (body := s.laneAddr e e.sa >>= fun w => s.readLane w >>= fun y => .ok (s.give e 2 y.1 e.fmt.toNat y.2)) ?_
    (by rw [hx]; rfl)
  show elemLane e s (s.laneAt e) _ = _
  rw [hw]
  exact elemLane_none e s _

/-- A cell of a slot that an active command feeds (R170). -/
theorem eAccr_timingFault {b : Tagged} {c : Cmd} {tile : Bool} {l : List Nat} (hb : s.source e e.sb = .ok b) (ht : b.tag = 1 ∨ b.tag = 2)
    (hp : b.psn = false) (hc : c ∈ (s.getCore s.xCore).cmds) (hact : c.active (s.getCore s.xCore).seq.mcc = true)
    (hf : c.feeds = some (tile, l)) (hl : e.wi.toNat % 64 ∈ l) (ho : e.aux.getLsbD 0 = false ∨ tile = false) :
    Completes (.eAccr e) s fun t => RegionFaulted s t { code := 10 } := by
  refine h.faults hh rfl ?_
  rw [State.intOperand_ok hb ht]
  show (s.xClean b.psn >>= _) = _
  rw [State.xClean_ok hp]
  refine if_pos ?_
  have hfed := mem_fedSlots hc hact hf hl (slot_mem_ownSlots (e.fmt = 3 ∨ e.fmt = 11) (e.wi.toNat % 64))
  by_cases haux : e.aux.getLsbD 0 = true
  · have htile : tile = false := ho.resolve_left (by rw [haux]; decide)
    exact (if_pos haux).trans (List.any_eq_true.mpr ⟨_, hfed, by rw [htile]; rfl⟩)
  · refine (if_neg haux).trans ?_
    rw [Bool.not_eq_true', List.isEmpty_eq_false_iff]
    exact List.ne_nil_of_mem hfed

end

/-- Settles O43: each form reads its operands in turn, and the first read that stops in a trap faults the region with it
(`Issues.faults`). -/
theorem elementFaults : Obligations.ElementFaults := by
  unfold Obligations.ElementFaults
  intro s e a h ha hh
  refine ⟨fun ht i hi => ?_, fun ht => ⟨?_, ?_, ?_⟩, fun ht => ?_, fun h2 h14 => ?_, fun ht hp hc => ⟨?_, ?_⟩, fun ht hp hn => ?_,
    fun ht hp hn => ?_, fun ht hp hr hn hb => ?_, fun ht hn hv => ?_, fun ht hp hn => ?_, fun ht hp hr hb hn hl hg hu => ?_,
    fun b c tile l n hb ht hp hc hact hf hl hn ho => ?_⟩
  · rcases List.mem_append.mp (show i ∈ fmtForms e ++ [.eMadd e, .eMrelu e, .eMscale e] from hi) with hi | hi
    · exact fmtForms_tagFault h hh hi ha ht
    · exact momentForms_tagFault h hh (List.mem_append_left [Instr.eMexp e, Instr.eMcol e] hi) ha ht
  · exact h.faults_first hh rfl (State.indexOperand_tagTrap ha ht)
  · exact h.faults_first hh rfl (State.genOperand_tagTrap ha ht)
  · exact h.faults_first hh rfl (State.intOperand_tagTrap ha ht)
  · exact h.faults_first hh rfl (State.addrOperand_tagTrap ha ht)
  · exact eSpld_placeFault h hh (State.spldPlace_error (State.scratchWord_tagTrap ha (not_or.mpr ⟨h14, h2⟩)))
  · exact h.faults_first hh rfl (State.indexOperand_dataTrap ha ht hp hc)
  · exact h.faults_first hh rfl (State.genOperand_dataTrap ha ht hp hc)
  · exact h.faults_first hh rfl (State.addrOperand_alignTrap ha ht hp hn)
  · exact eSpld_placeFault h hh (State.spldPlace_error ((State.scratchWord_eq ha ht hp).trans (if_pos hn)))
  · have hw : s.scratchWord e e.sa = .ok a.val :=
      (State.scratchWord_eq ha ht hp).trans (if_neg (not_not_intro (Word.reserved_of_high hr)))
    exact eSpld_placeFault h hh (State.spldPlace_scratchTrap hw hn hb)
  · have faults (i : Instr) (hi : i ∈ momentForms e) := momentForms_momentFault h hh hi ha ht hn hv
    exact ⟨faults _ (by simp [momentForms]), faults _ (by simp [momentForms]), faults _ (by simp [momentForms])⟩
  · exact eLsld_scratchFault h hh (State.laneAddr_scratchTrap ha ht hp hn)
  · have hw : s.scratchWord e e.sa = .ok a.val := (State.scratchWord_eq ha ht hp).trans (if_neg (not_not_intro hr))
    have hplace := State.spldPlace_ok hw hn rfl hl
    exact eSpld_timingFault h hh hplace (State.spldWaits_of_unready h.takes hplace hb hu) hg
  · exact eAccr_timingFault h hh hb ht hp hc hact hf (hn ▸ hl) ho

end Sys2Proof.Machine
end

/-! ### What an element entry delivers

`Issues.changesCopy` says once what an entry does that takes effect and whose body changes only its copy: that change, and nothing else
of the machine. `Issues.gives` is its case of an entry that delivers a result (R146). -/

section
namespace Sys2Proof.Machine

variable {s t : State} {e : Entry} {i : Instr}

/-! #### The registers of a partition that no error is charged to -/

/-- A field overwritten with its own value leaves the number as it is. -/
theorem withField_fieldOf (n hi lo : Nat) : withField n hi lo (fieldOf n hi lo) = n := by
  unfold withField fieldOf
  have hle : ((n >>> lo) % 2 ^ (hi + 1 - lo)) <<< lo ≤ n :=
    calc ((n >>> lo) % 2 ^ (hi + 1 - lo)) <<< lo ≤ n >>> lo * 2 ^ lo := by
          rw [Nat.shiftLeft_eq]; exact Nat.mul_le_mul_right _ (Nat.mod_le _ _)
      _ ≤ n := by rw [Nat.shiftRight_eq_div_pow]; exact Nat.div_mul_le_self _ _
  rw [Nat.mod_mod]
  exact Nat.sub_add_cancel hle

@[simp] theorem Word.put_fld (w : Word) (hi lo : Nat) : w.put hi lo (w.fld hi lo) = w := by
  unfold Word.put Word.fld
  rw [withField_fieldOf, BitVec.ofNat_toNat, BitVec.setWidth_eq]

/-- A partition that nothing is charged to keeps its budget register (R80, R81). -/
theorem State.charge_zero_eq (s : State) (p order : Nat) : s.charge p 0 order = s.modPart p id := by
  unfold State.charge
  have hcount (w : Word) : min (w.fld 23 0 + 0) 0xFFFFFF = w.fld 23 0 :=
    Nat.min_eq_left (Nat.le_of_lt_succ (Nat.mod_lt _ (by decide)))
  simp only [hcount, Word.put_fld, ne_eq, not_true_eq_false, decide_false, Bool.and_false, Bool.false_eq_true, if_false]
  rfl

theorem State.getPart_modPart_id (s : State) (p q : Nat) : (s.modPart p id).getPart q = s.getPart q :=
  Store.get_set_self _ _ _ _

/-! #### The effect on the copy -/

/-- The copy whose element issues is one of its stamp's. -/
theorem State.issue_copy_lt (hl : s.xLive = true) : s.issue.copy < s.xStamp.copies.length :=
  of_decide_eq_true (Bool.and_eq_true_iff.mp hl).2

theorem State.xStamp_modX (s : State) (f : Copy → Copy) : (s.modX f).xStamp = s.xStamp.modCopy s.issue.copy f :=
  State.getStamp_modStamp_same _ _ _

theorem State.xCopy_modX (hl : s.xLive = true) (f : Copy → Copy) : (s.modX f).xCopy = f s.xCopy := by
  show (s.modX f).xStamp.copy s.issue.copy = _
  rw [State.xStamp_modX, Stamp.copy_modCopy _ _ _ _ (State.issue_copy_lt hl), if_pos rfl]
  rfl

/-- A change of a copy reaches no byte of memory. -/
theorem sameBytes_modX (s : State) (f : Copy → Copy) : SameBytes s (s.modX f) :=
  ⟨fun _ => rfl, fun _ => rfl, fun _ => rfl, fun _ => rfl, fun _ _ => rfl, fun _ _ => rfl, fun _ => rfl⟩

theorem onlyCopy_modX (hl : s.xLive = true) (f : Copy → Copy) : OnlyCopy s (s.modX f) where
  device := rfl
  parts _ := rfl
  stamps k hk := (State.getStamp_modCopy s _ _ k f).trans (if_neg hk)
  stamp := by rw [State.xStamp_modX]; rfl
  copies c hc := by
    rw [State.xStamp_modX, Stamp.copy_modCopy _ _ _ _ (State.issue_copy_lt hl), if_neg hc]
  bytes := sameBytes_modX s f

/-- A partition's registers written back as they were read. -/
theorem OnlyCopy.modPart_id (h : OnlyCopy s t) (p : Nat) : OnlyCopy s (t.modPart p id) where
  device := h.device
  parts q := (State.getPart_modPart_id t p q).trans (h.parts q)
  stamps := h.stamps
  stamp := h.stamp
  copies := h.copies
  bytes := ⟨h.bytes.hbm, h.bytes.host, h.bytes.chip, h.bytes.saiga, h.bytes.core, h.bytes.shared, h.bytes.dirty⟩

/-- The whole effect of an entry that takes effect and whose body changes its copy. -/
theorem Issues.changesCopy (h : Issues s e) {f : Copy → Copy} (hi : exec i s = elem e s (.ok (s.modX f))) :
    Completes i s fun t => OnlyCopy s t ∧ t.xCopy = f s.xCopy := by
  obtain ⟨live, takes, clean⟩ := h
  unfold elem at hi
  simp only [live, takes, clean, if_true] at hi
  refine ⟨_, hi, ?_⟩
  have hmod := onlyCopy_modX live f
  have hcopy := State.xCopy_modX live f
  cases laneOperand e with
  | none => exact ⟨hmod, hcopy⟩
  | some w =>
    have htell : (s.modX f).tellLane w .clean = (s.modX f).modPart (s.modX f).xPart id := State.charge_zero_eq _ _ _
    show OnlyCopy s ((s.modX f).tellLane w .clean) ∧ ((s.modX f).tellLane w .clean).xCopy = _
    rw [htell]
    exact ⟨hmod.modPart_id _, hcopy⟩

/-- The whole effect of one that delivers a result (R146). -/
theorem Issues.deliversAs (h : Issues s e) {lat : Nat} {v : Word} {tag : BitVec 4} {psn we : Bool}
    (hi : exec i s = elem e s (.ok (s.deliverAs e lat v tag.toNat psn we))) :
    Completes i s fun t => Delivered s t e lat v tag psn we := by
  obtain ⟨t, ht, honly, hcopy⟩ := h.changesCopy hi
  have htag : BitVec.ofNat 4 tag.toNat = tag := by rw [BitVec.ofNat_toNat, BitVec.setWidth_eq]
  refine ⟨t, ht, ⟨⟨_, congrArg (·.reg.inflight) hcopy, rfl, rfl, ?_, rfl, rfl, rfl, rfl, rfl, fun _ => rfl⟩, ?_, honly⟩⟩
  · rw [htag]
  · rw [hcopy]

/-- The usual delivery, written to the row file where WE says so. -/
theorem Issues.gives (h : Issues s e) {lat : Nat} {v : Word} {tag : BitVec 4} {psn : Bool}
    (hi : exec i s = elem e s (.ok (s.give e lat v tag.toNat psn))) :
    Completes i s fun t => Delivered s t e lat v tag psn e.we := h.deliversAs hi

end Sys2Proof.Machine
end

/-! ### The sign of a rounded value -/

section
namespace Sys2Proof.Fp

/-- A value that is no NaN has the sign of its bits (R84). -/
theorem sign_decode {f : Fmt} {b : Nat} (h : (decode f b).isNan = false) : (decode f b).sign = bitOf b (f.eb + f.fb) := by
  unfold decode at *
  simp only at *
  split at h
  · split at h
    · rw [if_pos (by assumption), if_pos (by assumption)]; rfl
    · exact nomatch h
  · rw [if_neg (by assumption)]
    split at h
    · exact nomatch h
    · rw [if_neg (by assumption)]
      split <;> rfl

/-- A NaN has no sign of its own. -/
theorem Val.sign_of_isNan {x : Val} (h : x.isNan = true) : x.sign = false := by
  cases x with
  | nan _ => rfl
  | inf _ => exact nomatch h
  | num _ _ _ => exact nomatch h

theorem Fmt.maxBits_le_infBits {f : Fmt} (hf : f.noInf = false) : f.maxBits ≤ f.infBits := by
  unfold Fmt.maxBits
  rw [hf]
  exact Nat.sub_le _ _

/-- A nonnegative value rounds, in a format with infinities, to bits without a sign bit: those of infinity at most (R85, R89). -/
theorem bits_round_le {f : Fmt} (hf : f.noInf = false) (mode sr : Nat) (sat : Bool) (m : Nat) (e : Int) (sticky : Bool) :
    (round f mode sr sat false m e sticky).bits ≤ f.infBits := by
  have hmax := Fmt.maxBits_le_infBits hf
  have hs : bit01 false = 0 := rfl
  unfold round
  simp only [hs, Nat.zero_mul, Nat.zero_add, hf, Bool.false_and, Bool.false_eq_true, if_false]
  split
  · exact Nat.zero_le _
  · split
    · show (if sat = true then f.maxBits else if toInf mode false = true then f.infBits else f.maxBits) ≤ f.infBits
      split
      · exact hmax
      · split
        · exact Nat.le_refl _
        · exact hmax
    · rename_i hbits
      exact Nat.le_trans (Nat.le_of_not_lt hbits) hmax

/-- A nonnegative value, or a NaN, rounded to bfloat16 has no sign bit. -/
theorem rn_bf16_lt {x : Val} (h : x.sign = false) : rn bf16 x < 2 ^ 15 := by
  cases x with
  | nan b => exact (by decide : bf16.nanBits < 2 ^ 15)
  | inf n =>
    obtain rfl : n = false := h
    exact (by decide : (infRes bf16 false).bits < 2 ^ 15)
  | num n m e =>
    obtain rfl : n = false := h
    show (if m = 0 then zeroRes bf16 false else round bf16 0 0 false false m e false).bits < 2 ^ 15
    split
    · exact (by decide : (zeroRes bf16 false).bits < 2 ^ 15)
    · exact Nat.lt_of_le_of_lt (bits_round_le rfl 0 0 false m e false) (by decide)

end Sys2Proof.Fp
end

/-! ### The moment operations (R100 to R107)

Each operation's body is a value computed from its operands, delivered by `State.giveMoment`; `Issues.givesMoment` says what that
delivery does with the sign of the rounded variance. -/

section
namespace Sys2Proof.Machine

variable {s : State} {e : Entry} {i : Instr} {A B : Moment} {pa pb : Bool}

/-! #### Variances (R100, R106) -/

/-- A variance that is not negative, its −0 taken as +0, has no sign. -/
theorem sign_plusZero {b : Nat} (h : negVar b = false) : (Fp.v32 (plusZero b)).sign = false := by
  unfold plusZero
  split
  · rfl
  · rename_i hz
    cases hn : (Fp.v32 b).isNan with
    | true => exact Fp.Val.sign_of_isNan hn
    | false =>
      rw [Bool.not_eq_true] at hz
      unfold negVar nan32b at h
      rw [hz, hn, Bool.not_false, Bool.and_true, Bool.and_true] at h
      exact (Fp.sign_decode hn).trans h

/-- It stays so when it is rounded to its half. -/
theorem negHalf_halfBits {fmt : BitVec 4} {b : Nat} (h : negVar b = false) :
    negHalf fmt (halfBits fmt (plusZero b)) = false := by
  unfold negHalf halfBits
  split
  · unfold plusZero
    split
    · rfl
    · exact h
  · have hlt := Fp.rn_bf16_lt (sign_plusZero h)
    have hbit : bitOf (Fp.rn Fp.bf16 (Fp.v32 (plusZero b)) * 2 ^ 16) 31 = false := by
      unfold bitOf
      rw [Nat.shiftRight_eq_div_pow, Nat.div_eq_of_lt (by omega)]
      rfl
    unfold negVar
    rw [hbit, Bool.false_and, Bool.false_and]

/-! #### The delivery of a moment result (R106, R186) -/

/-- A result whose variance rounds to no negative number is delivered as it is, a negative one as +0 under VCLAMP; else the flight
faults on its landing, and has no value. -/
theorem Issues.givesMoment (h : Issues s e) {lat : Nat} {m : Moment} {p : Bool}
    (hi : exec i s = elem e s (.ok (s.giveMoment e lat m p))) :
    (negHalf e.fmt (halfBits e.fmt (plusZero m.v)) = false → Completes i s fun t => Delivered s t e lat
      (packMoment e.fmt (halfBits e.fmt m.mu) (plusZeroHalf e.fmt (halfBits e.fmt (plusZero m.v)))) e.fmt p e.we)
    ∧ (negHalf e.fmt (halfBits e.fmt (plusZero m.v)) = true → s.xStamp.hdr.vclamp = true → Completes i s fun t =>
        Delivered s t e lat (packMoment e.fmt (halfBits e.fmt m.mu) 0) e.fmt p e.we)
    ∧ (negHalf e.fmt (halfBits e.fmt (plusZero m.v)) = true → s.xStamp.hdr.vclamp = false → Completes i s fun t => OnlyCopy s t ∧
        ∃ f : Flight, t.xCopy.reg.inflight = s.xCopy.reg.inflight ++ [f] ∧ f.due = s.xTime + lat ∧ f.fault = true ∧ f.val = none) := by
  unfold State.giveMoment at hi
  refine ⟨fun hn => ?_, fun hn hv => ?_, fun hn hv => ?_⟩
  · simp only [hn, Bool.false_eq_true, if_false] at hi
    exact h.gives hi
  · simp only [hn, hv, if_true] at hi
    exact h.gives hi
  · simp only [hn, hv, Bool.false_eq_true, if_true, if_false] at hi
    obtain ⟨t, ht, honly, hcopy⟩ := h.changesCopy hi
    exact ⟨t, ht, honly, _, congrArg (·.reg.inflight) hcopy, rfl, rfl, rfl⟩

/-! #### What each operation delivers from its operands

The meaning of each instruction is its function of the model. -/

theorem exec_eMadd (e : Entry) (s : State) : exec (.eMadd e) s = execEMadd e s := rfl
theorem exec_eMsub (e : Entry) (s : State) : exec (.eMsub e) s = execEMsub e s := rfl
theorem exec_eMmul (e : Entry) (s : State) : exec (.eMmul e) s = execEMmul e s := rfl
theorem exec_eMscale (e : Entry) (s : State) : exec (.eMscale e) s = execEMscale e s := rfl
theorem exec_eMrelu (e : Entry) (s : State) : exec (.eMrelu e) s = execEMrelu e s := rfl
theorem exec_eMexp (e : Entry) (s : State) : exec (.eMexp e) s = execEMexp e s := rfl
theorem exec_eMsig (e : Entry) (s : State) : exec (.eMsig e) s = execEMsig e s := rfl
theorem exec_eMtanh (e : Entry) (s : State) : exec (.eMtanh e) s = execEMtanh e s := rfl
theorem exec_eMcol (e : Entry) (s : State) : exec (.eMcol e) s = execEMcol e s := rfl
theorem exec_eMmake (e : Entry) (s : State) : exec (.eMmake e) s = execEMmake e s := rfl

section
variable {lat : Nat}

theorem elemMoment2_eq (ha : s.momentOperand e e.sa = .ok (A, pa)) (hb : s.momentOperand e e.sb = .ok (B, pb))
    (f : Fp.Val → Fp.Val → Fp.Val → Fp.Val → Fp.Val → Fp.Val × Fp.Val) :
    elemMoment2 e lat s f =
      let r := f (Fp.v32 A.mu) (Fp.v32 A.v) (Fp.v32 B.mu) (Fp.v32 B.v) (covariance (e.aux.toNat % 4) s.xCopy.phRho A.v B.v)
      elem e s (.ok (s.giveMoment e lat
        (if A.nan || B.nan then nanMoment else ⟨Fp.rn Fp.f32 r.1, Fp.rn Fp.f32 r.2⟩) (pa || pb))) := by
  unfold elemMoment2
  rw [ha, hb]
  rfl

theorem elemMoment1_eq (ha : s.momentOperand e e.sa = .ok (A, pa)) (f : Nat → Nat) (g : Nat → Nat → Moment) :
    elemMoment1 e lat s f g = elem e s (.ok (s.giveMoment e lat
      (if A.nan then nanMoment else if (Fp.v32 A.v).isZero then ⟨f A.mu, 0⟩ else g A.mu A.v) pa)) := by
  unfold elemMoment1
  rw [ha]
  rfl

end

theorem execEMscale_eq {k d : Nat} {kp dp : Bool} (ha : s.momentOperand e e.sa = .ok (A, pa)) (hk : s.scalar e e.sb = .ok (k, kp))
    (hd : s.scalar e e.sc = .ok (d, dp)) :
    execEMscale e s = elem e s (.ok (s.giveMoment e 8
      (if A.nan || nan32b k || nan32b d then nanMoment else
        ⟨Fp.rn Fp.f32 (((Fp.v32 k).mul (Fp.v32 A.mu)).add (Fp.v32 d)), Fp.rn Fp.f32 (((Fp.v32 k).mul (Fp.v32 k)).mul (Fp.v32 A.v))⟩)
      (pa || kp || dp))) := by
  unfold execEMscale
  rw [ha, hk, hd]
  rfl

/-- An operand of a moment entry's plain format as binary32 bits (R189, R190). -/
def plainBits (fmt : BitVec 4) (x : Tagged) : Nat := if fmt = 11 then canon32 (x.val.fld 31 0) else widen32 Fp.bf16 x.val

theorem State.plainOperand_ok {code : BitVec 5} {x : Tagged} (hx : s.source e code = .ok x) (ht : x.tag.toNat = plainFmt e.fmt) :
    s.operand e code [plainFmt e.fmt] = .ok x := State.operand_ok hx (List.mem_singleton.mpr ht)

theorem execEMmake_eq {x y : Tagged} (hx : s.source e e.sa = .ok x) (hy : s.source e e.sb = .ok y)
    (tx : x.tag.toNat = plainFmt e.fmt) (ty : y.tag.toNat = plainFmt e.fmt) :
    execEMmake e s = elem e s (.ok (s.giveMoment e 2 ⟨plainBits e.fmt x, plainBits e.fmt y⟩ (x.psn || y.psn))) := by
  unfold execEMmake
  rw [State.plainOperand_ok hx tx, State.plainOperand_ok hy ty]
  rfl

/-- What a variant of `MCOL` collapses a moment value to (R107, R189): `k` is the factor of the variants that read B, `z` the normal
deviate of the sampling one. -/
def colBits (variant : Nat) (a : Moment) (k z : Nat) : Nat :=
  let r := match variant with
    | 0 => a.mu
    | 1 => a.v
    | 2 => fsqrt32 a.v
    | 3 => fma32 (fneg32 k) (fsqrt32 a.v) a.mu
    | 4 => fma32 k (fsqrt32 a.v) a.mu
    | _ => fma32 (fsqrt32 a.v) z a.mu
  if decide (2 ≤ variant) && a.nan then Fp.f32.nanBits else r

/-- The plain format's number is a tag. -/
theorem toNat_plainFmt (fmt : BitVec 4) : (BitVec.ofNat 4 (plainFmt fmt)).toNat = plainFmt fmt := by
  unfold plainFmt
  split <;> rfl

/-- A variant that reads no B. -/
theorem Issues.collapses (h : Issues s e) (ha : s.momentOperand e e.sa = .ok (A, pa)) (variant : Nat)
    (hv : e.aux.toNat % 8 = variant) (hB : ¬(variant = 3 ∨ variant = 4)) :
    Completes (.eMcol e) s fun t => Delivered s t e 16 (BitVec.ofNat 64 (halfBits e.fmt (colBits variant A 0 (Fp.invF (s.srOf e)))))
      (BitVec.ofNat 4 (plainFmt e.fmt)) (pa || false) e.we := by
  subst hv
  refine h.gives ?_
  rw [toNat_plainFmt, exec_eMcol, execEMcol, ha]
  exact congrArg (elem e s) (if_neg hB)

/-- A variant that scales the deviation by B. -/
theorem Issues.collapsesScaled (h : Issues s e) {k : Tagged} (ha : s.momentOperand e e.sa = .ok (A, pa))
    (hk : s.source e e.sb = .ok k) (tk : k.tag.toNat = plainFmt e.fmt) (variant : Nat) (hv : e.aux.toNat % 8 = variant)
    (hB : variant = 3 ∨ variant = 4) :
    Completes (.eMcol e) s fun t => Delivered s t e 16
      (BitVec.ofNat 64 (halfBits e.fmt (colBits variant A (plainBits e.fmt k) (Fp.invF (s.srOf e)))))
      (BitVec.ofNat 4 (plainFmt e.fmt)) (pa || k.psn) e.we := by
  subst hv
  refine h.gives ?_
  rw [toNat_plainFmt, exec_eMcol, execEMcol, ha, State.plainOperand_ok hk tk]
  exact congrArg (elem e s) (if_pos hB)

/-- Settles O37: each operation's value is read off its operands and delivered as `Issues.givesMoment` says; a variance that `MMAKE`
finds not negative stays so when it is rounded (`negHalf_halfBits`). -/
theorem momentResults : Obligations.MomentResults := by
  unfold Obligations.MomentResults
  refine ⟨fun s e A B pa pb h ha => ⟨fun hb => ⟨?_, ?_, ?_⟩, fun k d kp dp hk hd => ?_, ?_, ?_, ?_, ?_, fun hv => ?_, fun hv => ?_,
    fun hv => ?_, fun hv => ?_, fun k hk tk => ⟨fun hv => ?_, fun hv => ?_⟩⟩, fun s e x y h hx hy tx ty hv => ?_⟩
  · exact h.givesMoment ((exec_eMadd e s).trans (elemMoment2_eq ha hb _))
  · exact h.givesMoment ((exec_eMsub e s).trans (elemMoment2_eq ha hb _))
  · exact h.givesMoment ((exec_eMmul e s).trans (elemMoment2_eq ha hb _))
  · exact h.givesMoment ((exec_eMscale e s).trans (execEMscale_eq ha hk hd))
  · exact h.givesMoment ((exec_eMrelu e s).trans (elemMoment1_eq ha _ _))
  · exact h.givesMoment ((exec_eMexp e s).trans (elemMoment1_eq ha _ _))
  · exact h.givesMoment ((exec_eMsig e s).trans (elemMoment1_eq ha _ _))
  · exact h.givesMoment ((exec_eMtanh e s).trans (elemMoment1_eq ha _ _))
  · exact h.collapses ha 0 hv (by decide)
  · exact h.collapses ha 1 hv (by decide)
  · exact h.collapses ha 2 hv (by decide)
  · exact h.collapses ha 5 hv (by decide)
  · exact h.collapsesScaled ha hk tk 3 hv (.inl rfl)
  · exact h.collapsesScaled ha hk tk 4 hv (.inr rfl)
  · exact (h.givesMoment ((exec_eMmake e s).trans (execEMmake_eq hx hy tx ty))).1 (negHalf_halfBits hv)

end Sys2Proof.Machine
end
